-- ==== Sys2Proof/Word.lean ====
section
/-! DEFINITION. The words and the numbered items of the Holtac 6148: bytes, 16-bit quantities, the index types of its tables, and reading and writing one entry of a table. -/

namespace Sys2Proof

/-- A byte of a frame or of a message (R157). -/
abbrev Byte := BitVec 8

/-- A 16-bit quantity, sent most significant byte first (R157). -/
abbrev Half := BitVec 16

/-- A zone number 0-239 (R1). -/
abbrev ZoneId := Fin 240

/-- A sector number 0-7 (R1). -/
abbrev SectorId := Fin 8

/-- A corridor number 0-31 (R19). -/
abbrev CorridorId := Fin 32

/-- A position in a corridor, 0-15 (R1). -/
abbrev Position := Fin 16

/-- A route number 0-127 (R36). -/
abbrev RouteId := Fin 128

/-- An index in the hop store, 0-2047 (R35). -/
abbrev HopIdx := Fin 2048

/-- A carrier slot 0-47 (R52). -/
abbrev CarrierId := Fin 48

/-- A field slot 0-15 (R122). -/
abbrev FieldSlotId := Fin 16

/-- An input or an output of a field slot, 0-7 (R122). -/
abbrev LineId := Fin 8

/-- A speed class or speed cap, 0-3 (R35). -/
abbrev Speed := Fin 4

/-- The entry of a table at an index. -/
def tget {α : Type} {n : Nat} (t : Vector α n) (i : Fin n) : α := t[i.val]

/-- The table with the entry at an index replaced. -/
def tset {α : Type} {n : Nat} (t : Vector α n) (i : Fin n) (x : α) : Vector α n := t.set i.val x

end Sys2Proof
end

