-- ==== Sys2Proof/Syntax.lean ====
section
/-! DEFINITION. The commands of the Holtac 6148: one constructor of Instr for each row of spec/opcode_table.json, with the raw bytes of its message or its frame as operands. -/

namespace Sys2Proof

/-- The two management slots (R159, R160): the operator slot on the dispatch port, the safety slot on the floor port. -/
inductive MgmtSlot where
  | operator
  | safety
  deriving DecidableEq, Repr

/-- The parts of one frame-timer expiry whose order among blocks the manual leaves open (R148, R162, R97, R110; log 4). -/
inductive ExpiryPart where
  | floorClose
  | floorDepart
  | dispatchClose
  | dispatchDepart
  | engine
  | operatorCompletion
  | safetyCompletion
  deriving DecidableEq, Repr

/-- The blocks that take one handed-on floor frame, each at its own moment (R151, R142, R126; log 5). -/
inductive FloorBlock where
  | validator
  | monitor
  | management
  | holdUnit
  deriving DecidableEq, Repr

/-- The parameters of Write Zone (R12, R159), as the bytes the message carries. -/
structure ZoneWrite where
  zone : Byte
  defined : Byte
  noStop : Byte
  sector : Byte
  corridor : Byte
  position : Byte
  fieldSlot : Byte
  fieldInput : Byte
  fieldPolarity : Byte
  requestSlot : Byte
  requestOutput : Byte
  deriving DecidableEq, Repr

/-- The parameters of Write Route (R45, R159), as the message carries them. -/
structure RouteWrite where
  route : Byte
  defined : Byte
  firstHop : Half
  hopCount : Half
  endAction : Byte
  lapCount : Half
  linkRoute : Byte
  deriving DecidableEq, Repr

/-- A carrier report as a report slot carries it (R157): front zone, rear zone, and the byte of presence, motion and fault code. -/
structure ReportBytes where
  front : Byte
  rear : Byte
  status : Byte
  deriving DecidableEq, Repr

/-- The commands. A management command names the slot it arrived in; its other operands are its parameters in the order of its rule (R159). -/
inductive Instr where
  /-- IDENTIFY (R172) -/
  | identify (slot : MgmtSlot)
  /-- READ_ZONE (R18) -/
  | readZone (slot : MgmtSlot) (zone : Byte)
  /-- WRITE_ZONE (R12) -/
  | writeZone (slot : MgmtSlot) (w : ZoneWrite)
  /-- SET_CONFLICT_PAIR (R5) -/
  | setConflictPair (slot : MgmtSlot) (a b : Byte)
  /-- CLEAR_CONFLICT_PAIR (R6) -/
  | clearConflictPair (slot : MgmtSlot) (a b : Byte)
  /-- READ_ZONE_STATE (R18), with its starting index (R163), 0 when omitted -/
  | readZoneState (slot : MgmtSlot) (zone start : Byte)
  /-- READ_CORRIDOR (R34) -/
  | readCorridor (slot : MgmtSlot) (corridor : Byte)
  /-- WRITE_CORRIDOR (R21) -/
  | writeCorridor (slot : MgmtSlot) (corridor defined quota : Byte)
  /-- READ_CORRIDOR_STATE (R34), with its starting index (R163) -/
  | readCorridorState (slot : MgmtSlot) (corridor start : Byte)
  /-- READ_ROUTE (R49) -/
  | readRoute (slot : MgmtSlot) (route : Byte)
  /-- WRITE_ROUTE (R45) -/
  | writeRoute (slot : MgmtSlot) (w : RouteWrite)
  /-- READ_HOPS (R50) -/
  | readHops (slot : MgmtSlot) (start : Half) (count : Byte)
  /-- WRITE_HOPS (R47): the starting index and the zone and speed cap of each hop -/
  | writeHops (slot : MgmtSlot) (start : Half) (hops : List (Byte × Byte))
  /-- ADMIT_CARRIER (R58) -/
  | admitCarrier (slot : MgmtSlot) (carrier front rear : Byte)
  /-- ASSIGN_ROUTE (R61) -/
  | assignRoute (slot : MgmtSlot) (carrier route : Byte)
  /-- CANCEL_ROUTE (R62) -/
  | cancelRoute (slot : MgmtSlot) (carrier : Byte)
  /-- SET_CARRIER (R65) -/
  | setCarrier (slot : MgmtSlot) (carrier claimMode horizon priority clipMode : Byte)
  /-- CLEAR_FAULT (R67) -/
  | clearFault (slot : MgmtSlot) (carrier : Byte)
  /-- RETIRE_CARRIER (R68) -/
  | retireCarrier (slot : MgmtSlot) (carrier : Byte)
  /-- READ_CARRIER (R70) -/
  | readCarrier (slot : MgmtSlot) (carrier part : Byte)
  /-- READ_FAULT_RECORD (R70) -/
  | readFaultRecord (slot : MgmtSlot) (carrier part : Byte)
  /-- WATCH_CARRIER (R165) -/
  | watchCarrier (slot : MgmtSlot) (carrier : Byte)
  /-- REPLACE_ROUTE (R166) -/
  | replaceRoute (slot : MgmtSlot) (carrier route : Byte) (hop : Half)
  /-- READ_HOLDS (R171): the part, the hold entry (read for CAUSES only) and the starting index -/
  | readHolds (slot : MgmtSlot) (part entry start : Byte)
  /-- READ_DEADLOCK_RECORD (R171) -/
  | readDeadlockRecord (slot : MgmtSlot)
  /-- READ_EVENTS (R170) -/
  | readEvents (slot : MgmtSlot)
  /-- SET_EVENT_MASK (R170) -/
  | setEventMask (slot : MgmtSlot) (masks : Half)
  /-- READ_DISTRICT_PARAMETERS (R164) -/
  | readDistrictParameters (slot : MgmtSlot)
  /-- WRITE_DISTRICT_PARAMETERS (R164) -/
  | writeDistrictParameters (slot : MgmtSlot) (silence persistence starvation : Half)
  /-- CHECKSUM (R167) -/
  | checksum (slot : MgmtSlot)
  /-- CHECKSUM_COMPLETION (R167): the second expiry taken by the checksum engine -/
  | checksumCompletion (slot : MgmtSlot)
  /-- ENTER_SERVICE (R168) -/
  | enterService (slot : MgmtSlot)
  /-- ENTER_SERVICE_COMPLETION (R168): the second expiry taken by the audit engine -/
  | enterServiceCompletion (slot : MgmtSlot)
  /-- ARM_STOP_LINE (R143) -/
  | armStopLine (slot : MgmtSlot)
  /-- RESUME (R145) -/
  | resume (slot : MgmtSlot)
  /-- HOLD_SECTOR (R140) -/
  | holdSector (slot : MgmtSlot) (sector : Byte)
  /-- HOLD_DISTRICT (R140) -/
  | holdDistrict (slot : MgmtSlot)
  /-- LIFT_HOLD (R141) -/
  | liftHold (slot : MgmtSlot) (entry : Byte)
  /-- WRITE_POLICY (R133): the eight actions in the order of the kinds of R132 -/
  | writePolicy (slot : MgmtSlot) (actions : Vector Byte 8)
  /-- LEAVE_SERVICE (R168) -/
  | leaveService (slot : MgmtSlot)
  /-- RESET (R172) -/
  | reset (slot : MgmtSlot)
  /-- RESET_PIN (R172): the pin is asserted -/
  | resetPin
  /-- RESET_PIN_RELEASE (R172): the pin is released with these levels on the straps -/
  | resetPinRelease (straps : BitVec 4)
  /-- POWER_ON_RESET (R172): the supply comes up and is good, with these levels on the straps -/
  | powerOnReset (straps : BitVec 4)
  /-- STOP_LINE_CHANGE (R143): the line becomes active or inactive -/
  | stopLineChange (active : Bool)
  /-- FRAME_TIMER_EXPIRY (R148), with the order its parts are taken in -/
  | frameTimerExpiry (order : List ExpiryPart)
  /-- FLOOR_FRAME_ARRIVAL (R151), with the order its blocks take it in and its bytes -/
  | floorFrameArrival (order : List FloorBlock) (frame : List Byte)
  /-- DISPATCHER_FRAME_ARRIVAL (R152), with its bytes -/
  | dispatcherFrameArrival (frame : List Byte)
  /-- FLOOR_PORT_LOSS (R153): the floor port counts its third bad frame -/
  | floorPortLoss
  /-- FLOOR_PORT_RETURN (R151): the floor port's second good frame -/
  | floorPortReturn (order : List FloorBlock) (frame : List Byte)
  /-- DISPATCH_PORT_LOSS (R154): the dispatch port counts its third bad frame -/
  | dispatchPortLoss
  /-- DISPATCH_PORT_RETURN (R154): the dispatch port's second good frame -/
  | dispatchPortReturn (frame : List Byte)
  /-- SILENCE_LIMIT_REACHED (R115): an ABSENT report of this slot reaches the silence limit -/
  | silenceLimitReached (carrier : CarrierId)
  /-- INSTABILITY_LIMIT_REACHED (R114): this report of this slot differs from its candidate for the eighth time -/
  | instabilityLimitReached (carrier : CarrierId) (report : ReportBytes)
  /-- CLEAR_PERSISTENCE_REACHED (R124): a clear reading of this input reaches the clear persistence -/
  | clearPersistenceReached (fieldSlot : FieldSlotId) (input : LineId)
  deriving DecidableEq, Repr

end Sys2Proof
end

