-- ==== Sys2Proof/Decode.lean ====
section
/-! DEFINITION. The words of the opcode table. No row of spec/opcode_table.json gives bits, so no word spells a command (log 6). The message layout of R159 and R160, by which frames spell management commands, stands in Machine/Messages.lean. -/

namespace Sys2Proof

/-- The command that a word spells by the table's bits: none, since no row has bits (log 6). -/
def decodeTableWord (_nbits _w : Nat) : Option Instr := none

end Sys2Proof
end

