-- ==== Sys2Proof/Config.lean ====
section
/-! DEFINITION. What one implementation fixes, and the values the manual leaves open. -/

namespace Sys2Proof.Config

/-- The vendor code of Identify (R172). -/
def vendorCode : Byte := 0x4C

/-- The part number of Identify (R172). -/
def partNumber : Half := 6148

/-- The revision of Identify (R172). -/
def revision : Byte := 1

/-- FREE VALUE (log 16). Whether the direction of a corridor visit of fewer than two hops, or of two hops at one position, which R25 does not give, is ASCENDING; the argument is the zone asked. No route that passed the checks of R46 has such a visit. -/
opaque unstatedVisitAscends : Nat → Bool

end Sys2Proof.Config
end

