-- ==== Sys2Proof/Machine/State.lean ====
section
/-! DEFINITION. The state of the Holtac 6148: its tables, records, queues, latches, ports, slot machines and pins, as plain data, and its values right after power-on reset. -/

namespace Sys2Proof.Machine

/-! ## Zones (Chapter 1) -/

/-- Which value of an input bit means clear (R122). -/
inductive Polarity where
  | clearWhenSet
  | clearWhenReset
  deriving DecidableEq, Repr

/-- A field condition binding (R1). -/
structure FieldBinding where
  slot : FieldSlotId
  input : LineId
  polarity : Polarity
  deriving DecidableEq, Repr

/-- A request output binding (R1). -/
structure RequestBinding where
  slot : FieldSlotId
  output : LineId
  deriving DecidableEq, Repr

/-- A zone record (R1). -/
structure ZoneRecord where
  defined : Bool
  noStop : Bool
  sector : SectorId
  corridor : Option CorridorId
  position : Position
  conflicts : List ZoneId
  fieldBinding : Option FieldBinding
  requestBinding : Option RequestBinding
  deriving DecidableEq, Repr

/-- A zone's field state (R9). -/
inductive FieldState where
  | unbound
  | clear
  | unclear
  deriving DecidableEq, Repr

/-- The causes for which a carrier stands in a zone queue (R8). -/
inductive ZoneCause where
  | zone
  | conflict
  | field
  deriving DecidableEq, Repr

/-- The priority classes (R52). -/
inductive Priority where
  | normal
  | urgent
  deriving DecidableEq, Repr

/-- An entry of a zone's wait queue (R8). The ticket is the model's own (log 9). -/
structure ZoneWaiter where
  slot : CarrierId
  cause : ZoneCause
  priority : Priority
  ticket : Nat
  deriving DecidableEq, Repr

/-- A zone's state (R7-R10). -/
structure ZoneState where
  holder : Option CarrierId
  queue : List ZoneWaiter
  field : FieldState
  blocked : Bool
  deriving DecidableEq, Repr

/-! ## Corridors (Chapter 2) -/

/-- A corridor record (R19). -/
structure CorridorRecord where
  defined : Bool
  quota : Nat
  deriving DecidableEq, Repr

/-- A direction of travel in a corridor. -/
inductive Direction where
  | ascending
  | descending
  deriving DecidableEq, Repr

/-- A corridor's flow state (R23). -/
inductive Flow where
  | free
  | flowing
  | draining
  deriving DecidableEq, Repr

/-- An entry of an occupant list (R22); no direction is UNDIRECTED. -/
structure Occupant where
  slot : CarrierId
  direction : Option Direction
  deriving DecidableEq, Repr

/-- An entry of a corridor's wait queue (R32). The ticket is the model's own (log 9). -/
structure CorridorWaiter where
  slot : CarrierId
  direction : Direction
  priority : Priority
  ticket : Nat
  deriving DecidableEq, Repr

/-- A corridor's state (R22, R23, R32); no direction is NONE. -/
structure CorridorState where
  flow : Flow
  direction : Option Direction
  occupants : List Occupant
  count : Nat
  queue : List CorridorWaiter
  deriving DecidableEq, Repr

/-! ## Routes (Chapter 3) -/

/-- A hop record (R35). -/
structure Hop where
  zone : ZoneId
  cap : Speed
  deriving DecidableEq, Repr

/-- A route's end action (R36). -/
inductive EndAction where
  | stop
  | loop
  | link
  deriving DecidableEq, Repr

/-- A route record (R36). -/
structure RouteRecord where
  defined : Bool
  firstHop : HopIdx
  hopCount : Nat
  endAction : EndAction
  lapCount : Half
  linkRoute : Option RouteId
  users : Nat
  deriving DecidableEq, Repr

/-- A hop reference (R51): the route and the hop index a zone was claimed at. -/
structure HopRef where
  route : RouteId
  hop : HopIdx
  deriving DecidableEq, Repr

/-- A cursor (R39). -/
inductive Cursor where
  | none
  | atEnd
  | hop (h : HopIdx)
  deriving DecidableEq, Repr

/-! ## Carriers (Chapter 4) -/

/-- The carrier states (R54). -/
inductive CarrierState where
  | vacant
  | idle
  | advancing
  | waiting
  | faulted
  deriving DecidableEq, Repr

/-- A report's motion (R111). -/
inductive Motion where
  | stopped
  | moving
  deriving DecidableEq, Repr

/-- The fields of a PRESENT report (R111); a zone of none is NONE. -/
structure Report where
  front : Option ZoneId
  rear : Option ZoneId
  motion : Motion
  code : Fin 8
  deriving DecidableEq, Repr

/-- A report as it is read from its slot (R111): ABSENT alone, or PRESENT with its fields. -/
inductive ReadReport where
  | absent
  | present (r : Report)
  deriving DecidableEq, Repr

/-- A validated report (R111): its presence, and the fields of the last PRESENT one. -/
structure Validated where
  present : Bool
  report : Report
  deriving DecidableEq, Repr

/-- The status of a held-list entry (R56). -/
inductive HeldStatus where
  | granted
  | pending
  deriving DecidableEq, Repr

/-- An entry of a held list (R56). -/
structure HeldEntry where
  zone : ZoneId
  status : HeldStatus
  ref : Option HopRef
  deriving DecidableEq, Repr

/-- A carrier's wait: its cause and its object together (R52, R79). -/
inductive Wait where
  | none
  | zone (z : ZoneId)
  | conflict (z : ZoneId)
  | field (z : ZoneId)
  | corridor (k : CorridorId)
  | hold
  deriving DecidableEq, Repr

/-- The claim modes (R64). -/
inductive ClaimMode where
  | ahead
  | onOrder
  deriving DecidableEq, Repr

/-- The clip modes (R64). -/
inductive ClipMode where
  | saturate
  | refuse
  deriving DecidableEq, Repr

/-- The order kinds (R52). -/
inductive OrderKind where
  | hold
  | goTo
  | goFull
  deriving DecidableEq, Repr

/-- An order; its target is the byte the dispatcher sent (R152). -/
structure Order where
  kind : OrderKind
  target : Byte
  speed : Speed
  deriving DecidableEq, Repr

/-- The clip reasons (R52). -/
inductive ClipReason where
  | none
  | beyondGrant
  | offRoute
  | blocked
  | covered
  | stop
  deriving DecidableEq, Repr

/-- The eight fault kinds, in the order of the table of R132. -/
inductive FaultKind where
  | drive
  | obstacle
  | power
  | localization
  | other
  | lost
  | unstable
  | trespass
  deriving DecidableEq, Repr

/-- The fault record (R66); a kind of none is NONE. -/
structure FaultRecord where
  kind : Option FaultKind
  frame : Half
  report : Validated
  held : List HeldEntry
  route : Option RouteId
  cursor : Cursor
  laps : Half
  wait : Wait
  order : Order
  authority : Option ZoneId
  clip : ClipReason
  speed : Speed
  deriving DecidableEq, Repr

/-- The five event flags of a carrier (R69). -/
structure CarrierFlags where
  state : Bool
  fault : Bool
  clip : Bool
  wait : Bool
  routeEnd : Bool
  deriving DecidableEq, Repr

/-- A carrier record (R52). -/
structure Carrier where
  state : CarrierState
  report : Validated
  held : List HeldEntry
  route : Option RouteId
  cursor : Cursor
  laps : Half
  claimMode : ClaimMode
  horizon : Nat
  priority : Priority
  clipMode : ClipMode
  wait : Wait
  waitAge : Nat
  lastOrder : Order
  authority : Option ZoneId
  clip : ClipReason
  speed : Speed
  fault : Option FaultKind
  faultRecord : FaultRecord
  flags : CarrierFlags
  deriving DecidableEq, Repr

/-- What the report validator keeps for a slot beside the validated report (R111); a candidate of none is EMPTY. -/
structure ValidatorSlot where
  candidate : Option ReadReport
  instability : Nat
  silence : Nat
  deriving DecidableEq, Repr

/-! ## Field monitor (Chapter 8) -/

/-- One input (R122). -/
structure Input where
  clear : Bool
  run : Nat
  polarity : Polarity
  deriving DecidableEq, Repr

/-- A field slot: its eight inputs, and its eight request outputs, true for ON (R122). -/
structure FieldSlot where
  inputs : Vector Input 8
  outputs : Vector Bool 8
  deriving DecidableEq, Repr

/-! ## Rights engine (Chapter 5) -/

/-- An entry of the hold wait list (R80). The ticket is the model's own (log 9). -/
structure HoldWaiter where
  slot : CarrierId
  priority : Priority
  ticket : Nat
  deriving DecidableEq, Repr

/-- The deadlock record (R95): members at most eight, each with its wait object. -/
structure DeadlockRecord where
  frame : Half
  count : Nat
  members : List (CarrierId × ZoneId)
  deriving DecidableEq, Repr

/-! ## Fault and hold unit (Chapter 9) -/

/-- The policy actions (R133). -/
inductive PolicyAction where
  | holdCarrier
  | holdSector
  | holdDistrict
  deriving DecidableEq, Repr

/-- A hold entry (R138). -/
structure HoldEntry where
  causes : List (CarrierId × FaultKind)
  manual : Bool
  deriving DecidableEq, Repr

/-! ## Ports (Chapter 10) -/

/-- The port states (R150). -/
inductive PortState where
  | synced
  | lost
  deriving DecidableEq, Repr

/-- The reply window of a port (R148, R149): none before the first departure and while it is closed, open, or open with its frame already taken. -/
inductive Window where
  | none
  | open
  | taken
  deriving DecidableEq, Repr

/-- A port (R148, R150). -/
structure Port where
  state : PortState
  badRun : Nat
  goodRun : Nat
  frame : Half
  window : Window
  deriving DecidableEq, Repr

/-! ## Management unit (Chapter 11) -/

/-- The two commands that stay EXECUTING (R161). -/
inductive Job where
  | checksum
  | enterService
  deriving DecidableEq, Repr

/-- A slot machine (R161). RECEIVING holds the bytes in hand and the index of the last fragment taken plus 1; EXECUTING the expiries taken since the command and whether the other slot has written a table (R167); ANSWERING the message and the index of its next fragment. -/
inductive SlotMachine where
  | idle
  | receiving (bytes : List Byte) (next : Nat)
  | executing (job : Job) (expiries : Nat) (written : Bool)
  | answering (message : List Byte) (next : Nat)
  deriving DecidableEq, Repr

/-- A watch (R165); a carrier of none is NONE. -/
structure Watch where
  carrier : Option CarrierId
  intact : Bool
  deriving DecidableEq, Repr

/-- What the management unit keeps for one slot. -/
structure MgmtState where
  machine : SlotMachine
  watch : Watch
  deriving DecidableEq, Repr

/-- The district modes (R168). -/
inductive Mode where
  | safe
  | service
  deriving DecidableEq, Repr

/-- The six district flags (R170). -/
structure DistrictFlags where
  holdChange : Bool
  deadlock : Bool
  stop : Bool
  floorLink : Bool
  dispatchLink : Bool
  reset : Bool
  deriving DecidableEq, Repr

/-- The reset causes (R172). -/
inductive ResetCause where
  | none
  | powerOn
  | resetPin
  | resetCommand
  deriving DecidableEq, Repr

/-- The state of the part. -/
structure State where
  /-- zone records (R1) -/
  zones : Vector ZoneRecord 240
  /-- zone states (R7-R10) -/
  zoneStates : Vector ZoneState 240
  /-- corridor records (R19) -/
  corridors : Vector CorridorRecord 32
  /-- corridor states (R22, R23, R32) -/
  corridorStates : Vector CorridorState 32
  /-- route records (R36) -/
  routes : Vector RouteRecord 128
  /-- the hop store (R35) -/
  hops : Vector Hop 2048
  /-- carrier records (R52) -/
  carriers : Vector Carrier 48
  /-- the report validator's candidates and counts (R111) -/
  validators : Vector ValidatorSlot 48
  /-- field slots (R122) -/
  fieldSlots : Vector FieldSlot 16
  /-- the pin token's holder (R90) -/
  pinToken : Option CarrierId
  /-- the hold wait list (R80) -/
  holdWait : List HoldWaiter
  /-- the deadlock record (R95) -/
  deadlock : DeadlockRecord
  /-- the fault policy table (R133), in the order of the kinds -/
  policy : Vector PolicyAction 8
  /-- the district hold entry (R138) -/
  districtHold : HoldEntry
  /-- the district entry's link flag (R138) -/
  linkFlag : Bool
  /-- the sector hold entries (R138) -/
  sectorHolds : Vector HoldEntry 8
  /-- the stop-line arm latch (R143) -/
  armLatch : Bool
  /-- the stop marker (R144) -/
  stopMarker : Bool
  /-- the floor port (R150) -/
  floorPort : Port
  /-- the dispatch port (R150) -/
  dispatchPort : Port
  /-- the floor partner number (R151) -/
  floorPartner : Half
  /-- the bytes of the last floor frame sent (R155); the model's own field (log 8) -/
  floorSent : List Byte
  /-- the bytes of the last dispatch frame sent (R156); the model's own field (log 8) -/
  dispatchSent : List Byte
  /-- the operator slot's machine and watch (R161, R165) -/
  operatorSlot : MgmtState
  /-- the safety slot's machine and watch (R161, R165) -/
  safetySlot : MgmtState
  /-- the silence limit (R164) -/
  silenceLimit : Nat
  /-- the clear persistence (R164) -/
  clearPersistence : Nat
  /-- the starvation limit (R164) -/
  starvationLimit : Nat
  /-- the district mode (R168) -/
  mode : Mode
  /-- the district flags (R170) -/
  flags : DistrictFlags
  /-- the event masks (R170), bits 0-5 the district flags, bits 6-10 the carrier flag kinds (R159) -/
  masks : BitVec 11
  /-- the reset cause (R172) -/
  resetCause : ResetCause
  /-- the district code (R149) -/
  districtCode : BitVec 4
  /-- the levels on DCODE0-3 (R149) -/
  straps : BitVec 4
  /-- the stop line, true for active (R143) -/
  stopLine : Bool
  /-- the reset pin, true for asserted (R172) -/
  resetPin : Bool
  /-- how many queue entries have been made; the model's own field (log 9) -/
  tickets : Nat
  /-- the commands that wait, first in first out -/
  pending : List Instr
  deriving DecidableEq, Repr

/-- The reasons a step could stop with a fault. No rule of the manual stops the part, so no meaning answers one. -/
inductive Fault where
  /-- Raised by nothing. Safe: a stop allows no false claim. -/
  | neverRaised
  deriving DecidableEq, Repr

/-- The reasons a step could refuse. -/
inductive Refusal where
  /-- Raised by exec for a command not modelled yet. Safe: a refusal allows no false claim. -/
  | notModelled (mnemonic : String)
  deriving DecidableEq, Repr

/-! ## Reset values -/

/-- A zone record at power-on (R2). -/
def ZoneRecord.cleared : ZoneRecord :=
  ⟨false, false, 0, .none, 0, [], .none, .none⟩

/-- A zone state after power-on (R11). -/
def ZoneState.cleared : ZoneState := ⟨.none, [], .unbound, false⟩

/-- A corridor record at power-on (R20). -/
def CorridorRecord.cleared : CorridorRecord := ⟨false, 4⟩

/-- A corridor state after any reset (R24). -/
def CorridorState.cleared : CorridorState := ⟨.free, .none, [], 0, []⟩

/-- A route record at power-on (R37). -/
def RouteRecord.cleared : RouteRecord := ⟨false, 0, 2, .stop, 0, .none, 0⟩

/-- A validated report after any reset (R111). -/
def Validated.cleared : Validated := ⟨false, ⟨.none, .none, .stopped, 0⟩⟩

/-- A last order after any reset, and the order read during a loss of the dispatch port (R152, R98). -/
def Order.hold : Order := ⟨.hold, 255, 0⟩

/-- The empty fault record (R66). -/
def FaultRecord.cleared : FaultRecord :=
  ⟨.none, 0, .cleared, [], .none, .none, 0, .none, .hold, .none, .none, 0⟩

/-- No carrier flag set. -/
def CarrierFlags.cleared : CarrierFlags := ⟨false, false, false, false, false⟩

/-- A carrier record after any reset (R53). -/
def Carrier.cleared : Carrier :=
  { state := .vacant, report := .cleared, held := [], route := .none, cursor := .none, laps := 0,
    claimMode := .ahead, horizon := 3, priority := .normal, clipMode := .saturate,
    wait := .none, waitAge := 0, lastOrder := .hold, authority := .none, clip := .none, speed := 0,
    fault := .none, faultRecord := .cleared, flags := .cleared }

/-- A field slot at power-on (R130). -/
def FieldSlot.cleared : FieldSlot :=
  ⟨Vector.replicate 8 ⟨false, 0, .clearWhenSet⟩, Vector.replicate 8 false⟩

/-- The fault policy table at power-on (R133). -/
def powerOnPolicy : Vector PolicyAction 8 :=
  #v[.holdCarrier, .holdCarrier, .holdCarrier, .holdSector, .holdCarrier, .holdSector, .holdSector, .holdDistrict]

/-- An inactive hold entry (R138). -/
def HoldEntry.cleared : HoldEntry := ⟨[], false⟩

/-- A port after any reset (R148, R150). -/
def Port.cleared : Port := ⟨.lost, 0, 0, 0, .none⟩

/-- A management slot after any reset (R172, R165). -/
def MgmtState.cleared : MgmtState := ⟨.idle, ⟨.none, false⟩⟩

/-- The part right after power-on reset, with every strap at 0, the stop line inactive and the reset pin released (those three levels are DESIGN CHOICE, log 7). -/
def State.reset : State :=
  { zones := Vector.replicate 240 .cleared
    zoneStates := Vector.replicate 240 .cleared
    corridors := Vector.replicate 32 .cleared
    corridorStates := Vector.replicate 32 .cleared
    routes := Vector.replicate 128 .cleared
    hops := Vector.replicate 2048 ⟨0, 0⟩
    carriers := Vector.replicate 48 .cleared
    validators := Vector.replicate 48 ⟨.none, 0, 0⟩
    fieldSlots := Vector.replicate 16 .cleared
    pinToken := .none
    holdWait := []
    deadlock := ⟨0, 0, []⟩
    policy := powerOnPolicy
    districtHold := .cleared
    linkFlag := false
    sectorHolds := Vector.replicate 8 .cleared
    armLatch := false
    stopMarker := false
    floorPort := .cleared
    dispatchPort := .cleared
    floorPartner := 0
    floorSent := []
    dispatchSent := []
    operatorSlot := .cleared
    safetySlot := .cleared
    silenceLimit := 40
    clearPersistence := 10
    starvationLimit := 400
    mode := .safe
    flags := ⟨false, false, false, false, false, true⟩
    masks := BitVec.allOnes 11
    resetCause := .powerOn
    districtCode := 0
    straps := 0
    stopLine := false
    resetPin := false
    tickets := 0
    pending := [] }

end Sys2Proof.Machine
end

