-- ==== Sys2Proof/Machine/Ops.lean ====
section
/-! DEFINITION. The named operations over the state: reading and writing each table entry, record and register, and the small shared effects that many rules name (breaking a watch, recomputing a blocked flag or a request output, setting a holder, joining and leaving a queue). -/

namespace Sys2Proof.Machine

/-! ## Index lists -/

/-- All zones, in order of number. -/
def allZones : List ZoneId := List.finRange 240

/-- All corridors, in order of number. -/
def allCorridors : List CorridorId := List.finRange 32

/-- All routes, in route order. -/
def allRoutes : List RouteId := List.finRange 128

/-- All carrier slots, in slot order. -/
def allCarriers : List CarrierId := List.finRange 48

/-- All sectors, in order of number. -/
def allSectors : List SectorId := List.finRange 8

/-- All field slots, in order of number. -/
def allFieldSlots : List FieldSlotId := List.finRange 16

/-- All inputs or outputs of a field slot. -/
def allLines : List LineId := List.finRange 8

/-! ## Table entries -/

def State.zone (s : State) (z : ZoneId) : ZoneRecord := tget s.zones z
def State.setZone (s : State) (z : ZoneId) (r : ZoneRecord) : State := { s with zones := tset s.zones z r }
def State.zst (s : State) (z : ZoneId) : ZoneState := tget s.zoneStates z
def State.setZst (s : State) (z : ZoneId) (x : ZoneState) : State := { s with zoneStates := tset s.zoneStates z x }
def State.corridor (s : State) (k : CorridorId) : CorridorRecord := tget s.corridors k
def State.setCorridor (s : State) (k : CorridorId) (r : CorridorRecord) : State := { s with corridors := tset s.corridors k r }
def State.cst (s : State) (k : CorridorId) : CorridorState := tget s.corridorStates k
def State.setCst (s : State) (k : CorridorId) (x : CorridorState) : State := { s with corridorStates := tset s.corridorStates k x }
def State.route (s : State) (r : RouteId) : RouteRecord := tget s.routes r
def State.setRoute (s : State) (r : RouteId) (x : RouteRecord) : State := { s with routes := tset s.routes r x }
def State.hop (s : State) (h : HopIdx) : Hop := tget s.hops h
def State.setHop (s : State) (h : HopIdx) (x : Hop) : State := { s with hops := tset s.hops h x }
def State.carrier (s : State) (c : CarrierId) : Carrier := tget s.carriers c
def State.setCarrier (s : State) (c : CarrierId) (x : Carrier) : State := { s with carriers := tset s.carriers c x }
def State.modCarrier (s : State) (c : CarrierId) (f : Carrier → Carrier) : State := s.setCarrier c (f (s.carrier c))
def State.validator (s : State) (c : CarrierId) : ValidatorSlot := tget s.validators c
def State.setValidator (s : State) (c : CarrierId) (x : ValidatorSlot) : State := { s with validators := tset s.validators c x }
def State.fieldSlot (s : State) (f : FieldSlotId) : FieldSlot := tget s.fieldSlots f
def State.setFieldSlot (s : State) (f : FieldSlotId) (x : FieldSlot) : State := { s with fieldSlots := tset s.fieldSlots f x }
def State.input (s : State) (f : FieldSlotId) (i : LineId) : Input := tget (s.fieldSlot f).inputs i
def State.setInput (s : State) (f : FieldSlotId) (i : LineId) (x : Input) : State :=
  s.setFieldSlot f { s.fieldSlot f with inputs := tset (s.fieldSlot f).inputs i x }
def State.output (s : State) (f : FieldSlotId) (o : LineId) : Bool := tget (s.fieldSlot f).outputs o
def State.setOutput (s : State) (f : FieldSlotId) (o : LineId) (x : Bool) : State :=
  s.setFieldSlot f { s.fieldSlot f with outputs := tset (s.fieldSlot f).outputs o x }
def State.sectorHold (s : State) (n : SectorId) : HoldEntry := tget s.sectorHolds n
def State.setSectorHold (s : State) (n : SectorId) (x : HoldEntry) : State := { s with sectorHolds := tset s.sectorHolds n x }

/-- What the management unit keeps for a slot. -/
def State.mgmt (s : State) : MgmtSlot → MgmtState
  | .operator => s.operatorSlot
  | .safety => s.safetySlot

def State.setMgmt (s : State) (slot : MgmtSlot) (x : MgmtState) : State :=
  match slot with
  | .operator => { s with operatorSlot := x }
  | .safety => { s with safetySlot := x }

def State.machine (s : State) (slot : MgmtSlot) : SlotMachine := (s.mgmt slot).machine
def State.setMachine (s : State) (slot : MgmtSlot) (m : SlotMachine) : State :=
  s.setMgmt slot { s.mgmt slot with machine := m }
def State.watch (s : State) (slot : MgmtSlot) : Watch := (s.mgmt slot).watch
def State.setWatch (s : State) (slot : MgmtSlot) (w : Watch) : State :=
  s.setMgmt slot { s.mgmt slot with watch := w }

/-- The other management slot. -/
def otherSlot : MgmtSlot → MgmtSlot
  | .operator => .safety
  | .safety => .operator

/-! ## Views -/

/-- Whether a zone is no-stop (R1). -/
def State.noStop (s : State) (z : ZoneId) : Bool := (s.zone z).noStop

/-- The corridor a zone lies in, where its record is defined (R19). -/
def State.corridorOfZone (s : State) (z : ZoneId) : Option CorridorId :=
  if (s.zone z).defined then (s.zone z).corridor else none

/-- A zone's holder (R7). -/
def State.holder (s : State) (z : ZoneId) : Option CarrierId := (s.zst z).holder

/-- The validated front zone of a carrier (R111). -/
def State.front (s : State) (c : CarrierId) : Option ZoneId := (s.carrier c).report.report.front

/-- The validated rear zone of a carrier (R111). -/
def State.rear (s : State) (c : CarrierId) : Option ZoneId := (s.carrier c).report.report.rear

/-- Whether a carrier stands in a zone: its validated front or rear zone is that zone. NONE is no zone (log 18). -/
def State.standsIn (s : State) (c : CarrierId) (z : ZoneId) : Bool :=
  s.front c == some z || s.rear c == some z

/-- The held-list entry of a carrier for a zone. -/
def State.heldEntry (s : State) (c : CarrierId) (z : ZoneId) : Option HeldEntry :=
  (s.carrier c).held.find? (fun e => e.zone == z)

/-- Whether a zone is an entry of a carrier's held list (R56). -/
def State.holds (s : State) (c : CarrierId) (z : ZoneId) : Bool :=
  (s.carrier c).held.any (fun e => e.zone == z)

/-- Whether a zone is a GRANTED entry of a carrier's held list (R117). -/
def State.holdsGranted (s : State) (c : CarrierId) (z : ZoneId) : Bool :=
  (s.carrier c).held.any (fun e => e.zone == z && e.status == .granted)

/-- Whether a zone is a PENDING entry of a carrier's held list (R91). -/
def State.holdsPending (s : State) (c : CarrierId) (z : ZoneId) : Bool :=
  (s.carrier c).held.any (fun e => e.zone == z && e.status == .pending)

/-- Whether a carrier has a PENDING entry. -/
def State.hasPending (s : State) (c : CarrierId) : Bool :=
  (s.carrier c).held.any (fun e => e.status == .pending)

/-- The zone of the last entry of a held list (R56). -/
def farthestHeld (held : List HeldEntry) : Option ZoneId := held.getLast?.map (·.zone)

/-- The zone of the last GRANTED entry of a held list (R56). -/
def farthestGranted (held : List HeldEntry) : Option ZoneId :=
  (held.filter (fun e => e.status == .granted)).getLast?.map (·.zone)

/-- The place of a zone's entry in a held list, or the list's length when it has none. -/
def heldIndex (held : List HeldEntry) (z : ZoneId) : Nat := held.findIdx (fun e => e.zone == z)

/-- The place of the front entry in a held list, if there is one (R56). -/
def State.frontIndex (s : State) (c : CarrierId) : Option Nat :=
  match s.front c with
  | none => none
  | some z => if s.holds c z then some (heldIndex (s.carrier c).held z) else none

/-- The order the engine and the stamper read for a carrier (R73, R98). -/
def State.orderRead (s : State) (c : CarrierId) : Order :=
  match s.dispatchPort.state with
  | .lost => .hold
  | .synced => (s.carrier c).lastOrder

/-- The zone an order's target names, if it names one (R152). -/
def Order.targetZone (o : Order) : Option ZoneId :=
  if h : o.target.toNat < 240 then some ⟨o.target.toNat, h⟩ else none

/-! ## Hold entries (R139) -/

/-- Whether a sector's hold entry is active (R139). -/
def HoldEntry.active (e : HoldEntry) : Bool := !e.causes.isEmpty || e.manual

/-- Whether the district hold entry is active, its link flag included (R139). -/
def State.districtActive (s : State) : Bool := s.districtHold.active || s.linkFlag

/-- Whether a sector's hold entry is active (R139). -/
def State.sectorActive (s : State) (n : SectorId) : Bool := (s.sectorHold n).active

/-- Coverage (R72, R100): the district entry is active, or the entry of the sector of the validated front zone is. -/
def State.covered (s : State) (c : CarrierId) : Bool :=
  s.districtActive ||
    match s.front c with
    | none => false
    | some z => s.sectorActive (s.zone z).sector

/-! ## Watches (R165) -/

/-- A watch after an event that breaks the watch on a carrier. -/
def Watch.breakFor (w : Watch) (c : CarrierId) : Watch :=
  if w.carrier = some c then { w with intact := false } else w

/-- The watch on a carrier is broken in both management slots (R165). -/
def State.breakWatch (s : State) (c : CarrierId) : State :=
  { s with
    operatorSlot := { s.operatorSlot with watch := s.operatorSlot.watch.breakFor c }
    safetySlot := { s.safetySlot with watch := s.safetySlot.watch.breakFor c } }

/-! ## Blocked flags and request outputs -/

/-- The blocked flag of a zone as R10 gives it. -/
def State.blockedValue (s : State) (z : ZoneId) : Bool :=
  match s.holder z with
  | none => false
  | some c => (s.zst z).field == .unclear && !s.standsIn c z

/-- A zone's blocked flag is recomputed (R10). -/
def State.recomputeBlocked (s : State) (z : ZoneId) : State :=
  s.setZst z { s.zst z with blocked := s.blockedValue z }

/-- Whether a zone calls for its equipment: it is held and not stood in, or a FIELD waiter stands in its queue (R128). -/
def State.zoneCalls (s : State) (z : ZoneId) : Bool :=
  (match s.holder z with
    | none => false
    | some c => !s.standsIn c z)
  || (s.zst z).queue.any (fun w => w.cause == .field)

/-- The value of a request output as R128 gives it. -/
def State.outputValue (s : State) (f : FieldSlotId) (o : LineId) : Bool :=
  allZones.any (fun z => (s.zone z).defined && (s.zone z).requestBinding == some ⟨f, o⟩ && s.zoneCalls z)

/-- A request output is recomputed, if a binding names one (R128). -/
def State.recomputeBinding (s : State) : Option RequestBinding → State
  | none => s
  | some b => s.setOutput b.slot b.output (s.outputValue b.slot b.output)

/-- The request output of a zone's binding is recomputed (R128). -/
def State.recomputeOutput (s : State) (z : ZoneId) : State := s.recomputeBinding (s.zone z).requestBinding

/-- A zone's holder is set, which recomputes its blocked flag and the output of its binding (R7). -/
def State.setHolder (s : State) (z : ZoneId) (h : Option CarrierId) : State :=
  ((s.setZst z { s.zst z with holder := h }).recomputeBlocked z).recomputeOutput z

/-- The zones a carrier holds have their blocked flags and outputs recomputed, as its validated zones have changed (R116, R128). -/
def State.recomputeHeld (s : State) (c : CarrierId) : State :=
  allZones.foldl (fun s z => if s.holder z = some c then (s.recomputeBlocked z).recomputeOutput z else s) s

/-! ## Wait queues (R8, R32, R80) -/

/-- An entry joins a queue at the tail of the group of its class: URGENT entries stand before NORMAL ones. -/
def insertByClass {α : Type} (cls : α → Priority) (e : α) (q : List α) : List α :=
  match cls e with
  | .normal => q ++ [e]
  | .urgent => q.filter (fun x => cls x == .urgent) ++ [e] ++ q.filter (fun x => cls x == .normal)

/-- A carrier's entry leaves the queue of a zone. -/
def State.leaveZoneQueue (s : State) (c : CarrierId) (z : ZoneId) : State :=
  s.setZst z { s.zst z with queue := (s.zst z).queue.filter (fun w => w.slot != c) }

/-- A carrier's entry leaves the queue of a corridor. -/
def State.leaveCorridorQueue (s : State) (c : CarrierId) (k : CorridorId) : State :=
  s.setCst k { s.cst k with queue := (s.cst k).queue.filter (fun w => w.slot != c) }

/-- A carrier's entry leaves the queue its wait names, and the entries behind close up (R8, R32, R80). The zone's output is recomputed, which a FIELD waiter's leaving can change (R128). -/
def State.leaveQueue (s : State) (c : CarrierId) : State :=
  match (s.carrier c).wait with
  | .none => s
  | .zone z => (s.leaveZoneQueue c z).recomputeOutput z
  | .conflict z => (s.leaveZoneQueue c z).recomputeOutput z
  | .field z => (s.leaveZoneQueue c z).recomputeOutput z
  | .corridor k => s.leaveCorridorQueue c k
  | .hold => { s with holdWait := s.holdWait.filter (fun w => w.slot != c) }

/-- A carrier's entry joins the queue of a zone with a cause. -/
def State.joinZoneQueue (s : State) (c : CarrierId) (z : ZoneId) (cause : ZoneCause) : State :=
  { s.setZst z { s.zst z with
      queue := insertByClass (·.priority) ⟨c, cause, (s.carrier c).priority, s.tickets⟩ (s.zst z).queue } with
    tickets := s.tickets + 1 }

/-- A carrier's entry joins the queue that a wait names, at the tail of its class (R79); the direction is the one its claim asked, kept in a corridor's queue. A FIELD waiter's joining recomputes the zone's output (R128). -/
def State.joinQueue (s : State) (c : CarrierId) (w : Wait) (d : Direction) : State :=
  match w with
  | .none => s
  | .zone z => s.joinZoneQueue c z .zone
  | .conflict z => s.joinZoneQueue c z .conflict
  | .field z => (s.joinZoneQueue c z .field).recomputeOutput z
  | .corridor k =>
    { s.setCst k { s.cst k with
        queue := insertByClass (·.priority) ⟨c, d, (s.carrier c).priority, s.tickets⟩ (s.cst k).queue } with
      tickets := s.tickets + 1 }
  | .hold =>
    { s with
      holdWait := insertByClass (·.priority) ⟨c, (s.carrier c).priority, s.tickets⟩ s.holdWait
      tickets := s.tickets + 1 }

end Sys2Proof.Machine
end

