-- ==== Sys2Proof/Machine/Flags.lean ====
section
/-! DEFINITION. The event flags of carriers (R69) and of the district (R170), and the changes of a carrier's state and of a hold entry's activity that set them. -/

namespace Sys2Proof.Machine

/-- A carrier's STATE flag is set (R69). -/
def State.flagState (s : State) (c : CarrierId) : State :=
  s.modCarrier c (fun r => { r with flags := { r.flags with state := true } })

/-- A carrier's FAULT flag is set (R69). -/
def State.flagFault (s : State) (c : CarrierId) : State :=
  s.modCarrier c (fun r => { r with flags := { r.flags with fault := true } })

/-- A carrier's WAIT flag is set (R69). -/
def State.flagWait (s : State) (c : CarrierId) : State :=
  s.modCarrier c (fun r => { r with flags := { r.flags with wait := true } })

/-- A carrier's ROUTE_END flag is set (R69). -/
def State.flagRouteEnd (s : State) (c : CarrierId) : State :=
  s.modCarrier c (fun r => { r with flags := { r.flags with routeEnd := true } })

def State.flagHoldChange (s : State) : State := { s with flags := { s.flags with holdChange := true } }
def State.flagDeadlock (s : State) : State := { s with flags := { s.flags with deadlock := true } }
def State.flagStop (s : State) : State := { s with flags := { s.flags with stop := true } }
def State.flagFloorLink (s : State) : State := { s with flags := { s.flags with floorLink := true } }
def State.flagDispatchLink (s : State) : State := { s with flags := { s.flags with dispatchLink := true } }

/-- A carrier enters a state: the state is written, the STATE flag is set and the watch on it is broken (R69, R165). -/
def State.enterState (s : State) (c : CarrierId) (x : CarrierState) : State :=
  ((s.modCarrier c (fun r => { r with state := x })).flagState c).breakWatch c

/-- A carrier's wait fields become NONE, NONE and 0. -/
def State.clearWait (s : State) (c : CarrierId) : State :=
  s.modCarrier c (fun r => { r with wait := .none, waitAge := 0 })

/-- A hold entry of the hold table (R138). -/
inductive HoldName where
  | district
  | sector (n : SectorId)
  deriving DecidableEq, Repr

/-- A hold entry's cause list and manual flag. -/
def State.holdEntry (s : State) : HoldName → HoldEntry
  | .district => s.districtHold
  | .sector n => s.sectorHold n

/-- Whether a hold entry is active (R139). -/
def State.holdActive (s : State) : HoldName → Bool
  | .district => s.districtActive
  | .sector n => s.sectorActive n

def State.setHoldEntry (s : State) (n : HoldName) (e : HoldEntry) : State :=
  match n with
  | .district => { s with districtHold := e }
  | .sector n => s.setSectorHold n e

/-- A hold entry is written; a change of its activity sets HOLD_CHANGE (R139). -/
def State.writeHoldEntry (s : State) (n : HoldName) (e : HoldEntry) : State :=
  let t := s.setHoldEntry n e
  if t.holdActive n = s.holdActive n then t else t.flagHoldChange

/-- The district entry's link flag is written; a change of the entry's activity sets HOLD_CHANGE (R142, R139). -/
def State.writeLinkFlag (s : State) (x : Bool) : State :=
  let t := { s with linkFlag := x }
  if t.districtActive = s.districtActive then t else t.flagHoldChange

end Sys2Proof.Machine
end

