-- ==== Sys2Proof/Machine/Operands.lean ====
section
/-! DEFINITION. Operand forms: how the bytes of messages and frames name zones, carriers, routes and codes, and how the part's values are written as bytes (R157, R158, R159). -/

namespace Sys2Proof.Machine

/-! ## Reading numbers -/

/-- The number a byte names below a bound, if it names one. -/
def byteBelow (n : Nat) (b : Byte) : Option (Fin n) :=
  if h : b.toNat < n then some ⟨b.toNat, h⟩ else none

def zoneOf (b : Byte) : Option ZoneId := byteBelow 240 b
def corridorOf (b : Byte) : Option CorridorId := byteBelow 32 b
def routeOf (b : Byte) : Option RouteId := byteBelow 128 b
def carrierOf (b : Byte) : Option CarrierId := byteBelow 48 b

/-- The hop index that two bytes name (R35). -/
def hopOf (h : Half) : Option HopIdx := if p : h.toNat < 2048 then some ⟨h.toNat, p⟩ else none

/-- A field that may be NONE, carried as 255 (R157): none when the byte is neither NONE nor in range. -/
def orNone {α : Type} (f : Byte → Option α) (b : Byte) : Option (Option α) :=
  if b = 255 then some none else (f b).map some

/-- A zone field of a report: a value of 240 to 255 is NONE (R111). -/
def reportZone (b : Byte) : Option ZoneId := zoneOf b

/-- A yes-or-no parameter (R159). A byte that is neither 0 nor 1 is no value of the field (log 11). -/
def yesNoOf (b : Byte) : Option Bool :=
  if b = 0 then some false else if b = 1 then some true else none

/-! ## Reading codes (R158, R159) -/

def polarityOf (b : Byte) : Option Polarity :=
  if b = 0 then some .clearWhenSet else if b = 1 then some .clearWhenReset else none

def endActionOf (b : Byte) : Option EndAction :=
  if b = 0 then some .stop else if b = 1 then some .loop else if b = 2 then some .link else none

def claimModeOf (b : Byte) : Option ClaimMode :=
  if b = 0 then some .ahead else if b = 1 then some .onOrder else none

def priorityOf (b : Byte) : Option Priority :=
  if b = 0 then some .normal else if b = 1 then some .urgent else none

def clipModeOf (b : Byte) : Option ClipMode :=
  if b = 0 then some .saturate else if b = 1 then some .refuse else none

def policyActionOf (b : Byte) : Option PolicyAction :=
  if b = 0 then some .holdCarrier else if b = 1 then some .holdSector else if b = 2 then some .holdDistrict else none

/-- A hold entry parameter: 0 to 7 the sector entries, 8 DISTRICT (R159). -/
def holdNameOf (b : Byte) : Option HoldName :=
  if b = 8 then some .district else (byteBelow 8 b).map .sector

/-- The parts of Read Carrier and Read Fault Record (R159). -/
inductive RecordPart where
  | status
  | held
  deriving DecidableEq, Repr

def recordPartOf (b : Byte) : Option RecordPart :=
  if b = 0 then some .status else if b = 1 then some .held else none

/-- A field condition binding as a Write Zone carries it: a field slot of 255 is absent, and the other bytes of an absent binding are ignored (R159). None when a part is out of range (R12). -/
def fieldBindingOf (slot input polarity : Byte) : Option (Option FieldBinding) :=
  if slot = 255 then some none
  else match byteBelow 16 slot, byteBelow 8 input, polarityOf polarity with
    | some f, some i, some p => some (some ⟨f, i, p⟩)
    | _, _, _ => none

/-- A request output binding as a Write Zone carries it (R159, R12). -/
def requestBindingOf (slot output : Byte) : Option (Option RequestBinding) :=
  if slot = 255 then some none
  else match byteBelow 16 slot, byteBelow 8 output with
    | some f, some o => some (some ⟨f, o⟩)
    | _, _ => none

/-- A carrier report slot is read (R157, R111): bit 7 of its last byte is presence, bit 6 motion, bits 2-0 the fault code; an ABSENT report is read as ABSENT alone. -/
def readReport (b : ReportBytes) : ReadReport :=
  if b.status.getLsbD 7 then
    .present
      { front := reportZone b.front
        rear := reportZone b.rear
        motion := if b.status.getLsbD 6 then .moving else .stopped
        code := (b.status.extractLsb' 0 3).toFin }
  else .absent

/-- An order slot of a dispatcher frame is read (R152, R158): kind in bits 1-0 and speed class in bits 5-4 of the first byte, target in the second; a kind code of 3 is stored as HOLD, NONE, 0. -/
def readOrder (b target : Byte) : Order :=
  let speed : Speed := (b.extractLsb' 4 2).toFin
  match (b.extractLsb' 0 2).toNat with
  | 0 => ⟨.hold, target, speed⟩
  | 1 => ⟨.goTo, target, speed⟩
  | 2 => ⟨.goFull, target, speed⟩
  | _ => .hold

/-! ## Writing bytes -/

/-- A count or a number of 0 to 255 in one byte. -/
def byteOf (n : Nat) : Byte := BitVec.ofNat 8 n

/-- A 16-bit quantity, most significant byte first (R157). -/
def halfBytes (h : Half) : List Byte := [h.extractLsb' 8 8, h.extractLsb' 0 8]

/-- A 16-bit quantity from its two bytes, most significant first (R157). -/
def halfOf (msb lsb : Byte) : Half := msb ++ lsb

/-- A number that may be absent, NONE being 255 (R157). -/
def finByte {n : Nat} : Option (Fin n) → Byte
  | none => 255
  | some i => byteOf i.val

def boolByte (b : Bool) : Byte := if b then 1 else 0

/-- A byte whose bit n is the n-th of eight flags. -/
def bitsByte (f : LineId → Bool) : Byte :=
  allLines.foldl (fun b i => if f i then b ||| BitVec.ofNat 8 (2 ^ i.val) else b) 0

def polarityByte : Polarity → Byte
  | .clearWhenSet => 0
  | .clearWhenReset => 1

def endActionByte : EndAction → Byte
  | .stop => 0
  | .loop => 1
  | .link => 2

def claimModeByte : ClaimMode → Byte
  | .ahead => 0
  | .onOrder => 1

def priorityByte : Priority → Byte
  | .normal => 0
  | .urgent => 1

def clipModeByte : ClipMode → Byte
  | .saturate => 0
  | .refuse => 1

def fieldStateByte : FieldState → Byte
  | .unbound => 0
  | .clear => 1
  | .unclear => 2

def heldStatusByte : HeldStatus → Byte
  | .granted => 0
  | .pending => 1

def flowByte : Flow → Byte
  | .free => 0
  | .flowing => 1
  | .draining => 2

def directionByte : Option Direction → Byte
  | none => 0
  | some .ascending => 1
  | some .descending => 2

def faultKindByte : Option FaultKind → Byte
  | none => 0
  | some .drive => 1
  | some .obstacle => 2
  | some .power => 3
  | some .localization => 4
  | some .other => 5
  | some .lost => 6
  | some .unstable => 7
  | some .trespass => 8

def policyActionByte : PolicyAction → Byte
  | .holdCarrier => 0
  | .holdSector => 1
  | .holdDistrict => 2

def modeByte : Mode → Byte
  | .safe => 0
  | .service => 1

def resetCauseByte : ResetCause → Byte
  | .none => 0
  | .powerOn => 1
  | .resetPin => 2
  | .resetCommand => 3

def orderKindByte : OrderKind → Byte
  | .hold => 0
  | .goTo => 1
  | .goFull => 2

def carrierStateByte : CarrierState → Byte
  | .vacant => 0
  | .idle => 1
  | .advancing => 2
  | .waiting => 3
  | .faulted => 4

def clipReasonByte : ClipReason → Byte
  | .none => 0
  | .beyondGrant => 1
  | .offRoute => 2
  | .blocked => 3
  | .covered => 4
  | .stop => 5

/-- The wait cause code (R158). -/
def waitCauseByte : Wait → Byte
  | .none => 0
  | .zone _ => 1
  | .conflict _ => 2
  | .field _ => 3
  | .corridor _ => 4
  | .hold => 5

/-- The wait object: a zone, a corridor, or NONE (R52, R157). -/
def waitObjectByte : Wait → Byte
  | .none => 255
  | .zone z => byteOf z.val
  | .conflict z => byteOf z.val
  | .field z => byteOf z.val
  | .corridor k => byteOf k.val
  | .hold => 255

/-- The wait cause code of a zone queue's entry (R18, R158). -/
def zoneCauseByte : ZoneCause → Byte
  | .zone => 1
  | .conflict => 2
  | .field => 3

def speedByte (v : Speed) : Byte := byteOf v.val

/-- A field condition binding in three bytes (R159). -/
def fieldBindingBytes : Option FieldBinding → List Byte
  | none => [255, 0, 0]
  | some b => [byteOf b.slot.val, byteOf b.input.val, polarityByte b.polarity]

/-- A request output binding in two bytes (R159). -/
def requestBindingBytes : Option RequestBinding → List Byte
  | none => [255, 0]
  | some b => [byteOf b.slot.val, byteOf b.output.val]

/-- A hop reference: a route in one byte and a hop index in two, 255 and FFFFh for NONE (R159). -/
def hopRefBytes : Option HopRef → List Byte
  | none => [255, 0xFF, 0xFF]
  | some r => byteOf r.route.val :: halfBytes (BitVec.ofNat 16 r.hop.val)

/-- A cursor: FFFFh for NONE, FFFEh for END (R159). -/
def cursorBytes : Cursor → List Byte
  | .none => [0xFF, 0xFF]
  | .atEnd => [0xFF, 0xFE]
  | .hop h => halfBytes (BitVec.ofNat 16 h.val)

/-- A validated report in three bytes, laid out as a carrier report slot (R157, R159). -/
def validatedBytes (v : Validated) : List Byte :=
  [finByte v.report.front, finByte v.report.rear,
    (if v.present then 0x80 else 0) ||| (if v.report.motion = .moving then 0x40 else 0) ||| byteOf v.report.code.val]

/-- An order in three bytes: its kind, its target and its speed class (R159). -/
def orderBytes (o : Order) : List Byte := [orderKindByte o.kind, o.target, speedByte o.speed]

/-- The five event flags of a carrier, bits 0 to 4 (R159). -/
def carrierFlagsByte (f : CarrierFlags) : Byte :=
  boolByte f.state ||| (boolByte f.fault <<< 1) ||| (boolByte f.clip <<< 2) ||| (boolByte f.wait <<< 3)
    ||| (boolByte f.routeEnd <<< 4)

/-- The six district flags, bits 0 to 5 (R159). -/
def districtFlagsByte (f : DistrictFlags) : Byte :=
  boolByte f.holdChange ||| (boolByte f.deadlock <<< 1) ||| (boolByte f.stop <<< 2) ||| (boolByte f.floorLink <<< 3)
    ||| (boolByte f.dispatchLink <<< 4) ||| (boolByte f.reset <<< 5)

/-- A held-list entry in a HELD answer: zone, status and hop reference (R70, R159). -/
def heldEntryBytes (e : HeldEntry) : List Byte := byteOf e.zone.val :: heldStatusByte e.status :: hopRefBytes e.ref

end Sys2Proof.Machine
end

