-- ==== Sys2Proof/Machine/Messages.lean ====
section
/-! DEFINITION. Management messages: answer statuses and check kinds, the layout of commands and answers (R159, R160), the check of a whole command (R163), and a command taken by its slot machine (R161). -/

namespace Sys2Proof.Machine

/-- The answer statuses (R159). -/
inductive Status where
  | ok
  | partialWrite
  | notPermitted
  | malformed
  | badItem
  | busyItem
  | wrongState
  | notInService
  | reportMismatch
  | occupied
  | held
  | full
  | checkFailed
  | auditFailed
  | tablesChanged
  | watchBroken
  | causeActive
  | lineActive
  | stale
  deriving DecidableEq, Repr

/-- The status codes of R159; partialWrite is PARTIAL. -/
def Status.code : Status → Byte
  | .ok => 0
  | .partialWrite => 1
  | .notPermitted => 2
  | .malformed => 3
  | .badItem => 4
  | .busyItem => 5
  | .wrongState => 6
  | .notInService => 7
  | .reportMismatch => 8
  | .occupied => 9
  | .held => 10
  | .full => 11
  | .checkFailed => 12
  | .auditFailed => 13
  | .tablesChanged => 14
  | .watchBroken => 15
  | .causeActive => 16
  | .lineActive => 17
  | .stale => 18

/-- The check kinds (R159). -/
inductive CheckKind where
  | zoneUndefined
  | linkUndefined
  | repeatedZone
  | lastNoStop
  | setTooLong
  | corridorTouch
  | corridorTurn
  | linkReference
  | routeReference
  | corridorUndefined
  | positionUsed
  | corridorGap
  | polarityMismatch
  | zoneReference
  | startZone
  deriving DecidableEq, Repr

def CheckKind.code : CheckKind → Byte
  | .zoneUndefined => 1
  | .linkUndefined => 2
  | .repeatedZone => 3
  | .lastNoStop => 4
  | .setTooLong => 5
  | .corridorTouch => 6
  | .corridorTurn => 7
  | .linkReference => 8
  | .routeReference => 9
  | .corridorUndefined => 10
  | .positionUsed => 11
  | .corridorGap => 12
  | .polarityMismatch => 13
  | .zoneReference => 14
  | .startZone => 15

/-- A failed check: its kind and its index (R159). -/
structure CheckFailure where
  kind : CheckKind
  index : Nat
  deriving DecidableEq, Repr

/-- The results of CHECK_FAILED and AUDIT_FAILED: the check kind in one byte and the index in two (R159). -/
def CheckFailure.bytes (f : CheckFailure) : List Byte := f.kind.code :: halfBytes (BitVec.ofNat 16 f.index)

/-- An answer: its status and its results. -/
structure Answer where
  status : Status
  results : List Byte
  deriving DecidableEq, Repr

def Answer.ok : Answer := ⟨.ok, []⟩

/-- An answer with no results. -/
def Answer.bare (x : Status) : Answer := ⟨x, []⟩

def Answer.check (f : CheckFailure) : Answer := ⟨.checkFailed, f.bytes⟩

/-- An answer message: the type repeated, the status, the length of the results and the results (R159). -/
def Answer.message (a : Answer) (code : Byte) : List Byte :=
  code :: a.status.code :: byteOf a.results.length :: a.results

/-- What a command's rule gives back to its slot machine: an answer, a job that stays EXECUTING (R161), or nothing (R172). -/
inductive Reply where
  | answer (a : Answer)
  | executing (job : Job)
  | silent
  deriving DecidableEq, Repr

/-- A list of results with a starting index: as many of the items from the index on as fit beside the fixed results in 61 bytes (R163, log 12). -/
def fitItems (fixed : Nat) (width : Nat) (start : Byte) (items : List (List Byte)) : List Byte :=
  ((items.drop start.toNat).take ((61 - fixed) / width)).flatten

/-- A whole command is taken by its slot's machine (R161): discarded while the machine is EXECUTING or ANSWERING, and otherwise carried out, the machine passing to ANSWERING with its answer or to EXECUTING. Nothing is taken while the reset pin is asserted (log 10). -/
def takeCommand (slot : MgmtSlot) (code : Byte) (s : State) (body : State → State × Reply) : State :=
  if s.resetPin then s
  else match s.machine slot with
    | .executing _ _ _ => s
    | .answering _ _ => s
    | .idle | .receiving _ _ =>
      match body s with
      | (t, .answer a) => t.setMachine slot (.answering (a.message code) 0)
      | (t, .executing job) => t.setMachine slot (.executing job 0 false)
      | (t, .silent) => t

/-- A command that only reads (R18): its answer is taken from the state, which it leaves as it stands. -/
def reading (f : State → Answer) : State → State × Reply := fun s => (s, .answer (f s))

/-- A command that changes the state and answers. -/
def changing (f : State → State × Answer) : State → State × Reply := fun s =>
  match f s with
  | (t, a) => (t, .answer a)

/-- A safety command: sent in the operator slot it is answered NOT_PERMITTED with no effect (R160, R163). -/
def safetyOnly (slot : MgmtSlot) (body : State → State × Reply) : State → State × Reply := fun s =>
  match slot with
  | .operator => (s, .answer (.bare .notPermitted))
  | .safety => body s

/-- A table write taken from a slot is noted by the other slot's machine while a Checksum or Enter Service is EXECUTING there (R167, R168). -/
def State.noteTableWrite (s : State) (slot : MgmtSlot) : State :=
  match s.machine (otherSlot slot) with
  | .executing job n _ => s.setMachine (otherSlot slot) (.executing job n true)
  | .idle | .receiving _ _ | .answering _ _ => s

/-! ## Commands as messages (R159, R160) -/

/-- The pairs of a list of bytes, if it has an even number of them. -/
def bytePairs : List Byte → Option (List (Byte × Byte))
  | [] => some []
  | [_] => none
  | a :: b :: rest => (bytePairs rest).map ((a, b) :: ·)

/-- The command that a type and its parameters name, or none where the type is unknown or does not take that parameter length (R160, R163). Read Holds takes a part out of range with 1, 2 or 3 bytes, to answer it BAD_ITEM (log 14). -/
def decodeCommand (slot : MgmtSlot) (code : Byte) (p : List Byte) : Option Instr :=
  match code.toNat with
  | 0x01 => match p with | [] => some (.identify slot) | _ => none
  | 0x02 => match p with | [z] => some (.readZone slot z) | _ => none
  | 0x03 => match p with
    | [z, d, n, sec, k, pos, fs, fi, fp, rs, ro] => some (.writeZone slot ⟨z, d, n, sec, k, pos, fs, fi, fp, rs, ro⟩)
    | _ => none
  | 0x04 => match p with | [a, b] => some (.setConflictPair slot a b) | _ => none
  | 0x05 => match p with | [a, b] => some (.clearConflictPair slot a b) | _ => none
  | 0x06 => match p with
    | [z] => some (.readZoneState slot z 0)
    | [z, i] => some (.readZoneState slot z i)
    | _ => none
  | 0x08 => match p with | [k] => some (.readCorridor slot k) | _ => none
  | 0x09 => match p with | [k, d, q] => some (.writeCorridor slot k d q) | _ => none
  | 0x0A => match p with
    | [k] => some (.readCorridorState slot k 0)
    | [k, i] => some (.readCorridorState slot k i)
    | _ => none
  | 0x0C => match p with | [r] => some (.readRoute slot r) | _ => none
  | 0x0D => match p with
    | [r, d, f1, f0, n1, n0, e, l1, l0, k] =>
      some (.writeRoute slot ⟨r, d, halfOf f1 f0, halfOf n1 n0, e, halfOf l1 l0, k⟩)
    | _ => none
  | 0x0E => match p with | [h1, h0, n] => some (.readHops slot (halfOf h1 h0) n) | _ => none
  | 0x0F => match p with
    | h1 :: h0 :: n :: rest =>
      match bytePairs rest with
      | some hops => if hops.length = n.toNat then some (.writeHops slot (halfOf h1 h0) hops) else none
      | none => none
    | _ => none
  | 0x10 => match p with | [c, f, r] => some (.admitCarrier slot c f r) | _ => none
  | 0x11 => match p with | [c, r] => some (.assignRoute slot c r) | _ => none
  | 0x12 => match p with | [c] => some (.cancelRoute slot c) | _ => none
  | 0x13 => match p with | [c, m, h, q, l] => some (.setCarrier slot c m h q l) | _ => none
  | 0x14 => match p with | [c] => some (.clearFault slot c) | _ => none
  | 0x15 => match p with | [c] => some (.retireCarrier slot c) | _ => none
  | 0x16 => match p with | [c, x] => some (.readCarrier slot c x) | _ => none
  | 0x17 => match p with | [c, x] => some (.readFaultRecord slot c x) | _ => none
  | 0x18 => match p with | [c] => some (.watchCarrier slot c) | _ => none
  | 0x19 => match p with | [c, r, h1, h0] => some (.replaceRoute slot c r (halfOf h1 h0)) | _ => none
  | 0x1A => match p with
    | [x] => if x = 1 then none else some (.readHolds slot x 0 0)
    | [x, y] => if x = 1 then some (.readHolds slot x y 0) else if x = 0 then none else some (.readHolds slot x 0 y)
    | [x, y, i] => if x = 0 ∨ x = 2 then none else some (.readHolds slot x y i)
    | _ => none
  | 0x1B => match p with | [] => some (.readDeadlockRecord slot) | _ => none
  | 0x1C => match p with | [] => some (.readEvents slot) | _ => none
  | 0x1D => match p with | [m1, m0] => some (.setEventMask slot (halfOf m1 m0)) | _ => none
  | 0x1E => match p with | [] => some (.readDistrictParameters slot) | _ => none
  | 0x1F => match p with
    | [a1, a0, b1, b0, c1, c0] => some (.writeDistrictParameters slot (halfOf a1 a0) (halfOf b1 b0) (halfOf c1 c0))
    | _ => none
  | 0x20 => match p with | [] => some (.checksum slot) | _ => none
  | 0x21 => match p with | [] => some (.enterService slot) | _ => none
  | 0x30 => match p with | [] => some (.armStopLine slot) | _ => none
  | 0x31 => match p with | [] => some (.resume slot) | _ => none
  | 0x32 => match p with | [n] => some (.holdSector slot n) | _ => none
  | 0x33 => match p with | [] => some (.holdDistrict slot) | _ => none
  | 0x34 => match p with | [n] => some (.liftHold slot n) | _ => none
  | 0x35 => match p with
    | [a, b, c, d, e, f, g, h] => some (.writePolicy slot #v[a, b, c, d, e, f, g, h])
    | _ => none
  | 0x36 => match p with | [] => some (.leaveService slot) | _ => none
  | 0x37 => match p with | [] => some (.reset slot) | _ => none
  | _ => none

/-- The command a whole message spells, or none for MALFORMED (R159, R163): type in byte 0, parameter length in byte 1, which may be at most 62 and may not run past the message, parameters from byte 2 on. -/
def decodeMessage (slot : MgmtSlot) (m : List Byte) : Option Instr :=
  match m with
  | code :: len :: rest =>
    if len.toNat ≤ 62 ∧ len.toNat ≤ rest.length then decodeCommand slot code (rest.take len.toNat) else none
  | _ => none

/-- The type and the parameters of a management command (R159, R160); none for the commands that are no message. -/
def commandParts : Instr → Option (Byte × List Byte)
  | .identify _ => some (0x01, [])
  | .readZone _ z => some (0x02, [z])
  | .writeZone _ w => some (0x03, [w.zone, w.defined, w.noStop, w.sector, w.corridor, w.position, w.fieldSlot,
      w.fieldInput, w.fieldPolarity, w.requestSlot, w.requestOutput])
  | .setConflictPair _ a b => some (0x04, [a, b])
  | .clearConflictPair _ a b => some (0x05, [a, b])
  | .readZoneState _ z i => some (0x06, [z, i])
  | .readCorridor _ k => some (0x08, [k])
  | .writeCorridor _ k d q => some (0x09, [k, d, q])
  | .readCorridorState _ k i => some (0x0A, [k, i])
  | .readRoute _ r => some (0x0C, [r])
  | .writeRoute _ w => some (0x0D, [w.route, w.defined] ++ halfBytes w.firstHop ++ halfBytes w.hopCount ++ [w.endAction]
      ++ halfBytes w.lapCount ++ [w.linkRoute])
  | .readHops _ h n => some (0x0E, halfBytes h ++ [n])
  | .writeHops _ h hops => some (0x0F, halfBytes h ++ [byteOf hops.length] ++ (hops.map (fun x => [x.1, x.2])).flatten)
  | .admitCarrier _ c f r => some (0x10, [c, f, r])
  | .assignRoute _ c r => some (0x11, [c, r])
  | .cancelRoute _ c => some (0x12, [c])
  | .setCarrier _ c m h q l => some (0x13, [c, m, h, q, l])
  | .clearFault _ c => some (0x14, [c])
  | .retireCarrier _ c => some (0x15, [c])
  | .readCarrier _ c x => some (0x16, [c, x])
  | .readFaultRecord _ c x => some (0x17, [c, x])
  | .watchCarrier _ c => some (0x18, [c])
  | .replaceRoute _ c r h => some (0x19, [c, r] ++ halfBytes h)
  | .readHolds _ x y i => some (0x1A, if x = 1 then [x, y, i] else if x = 2 then [x, i] else [x])
  | .readDeadlockRecord _ => some (0x1B, [])
  | .readEvents _ => some (0x1C, [])
  | .setEventMask _ m => some (0x1D, halfBytes m)
  | .readDistrictParameters _ => some (0x1E, [])
  | .writeDistrictParameters _ a b c => some (0x1F, halfBytes a ++ halfBytes b ++ halfBytes c)
  | .checksum _ => some (0x20, [])
  | .enterService _ => some (0x21, [])
  | .armStopLine _ => some (0x30, [])
  | .resume _ => some (0x31, [])
  | .holdSector _ n => some (0x32, [n])
  | .holdDistrict _ => some (0x33, [])
  | .liftHold _ n => some (0x34, [n])
  | .writePolicy _ a => some (0x35, a.toList)
  | .leaveService _ => some (0x36, [])
  | .reset _ => some (0x37, [])
  | .checksumCompletion _ | .enterServiceCompletion _ | .resetPin | .resetPinRelease _ | .powerOnReset _
  | .stopLineChange _ | .frameTimerExpiry _ | .floorFrameArrival _ _ | .dispatcherFrameArrival _ | .floorPortLoss
  | .floorPortReturn _ _ | .dispatchPortLoss | .dispatchPortReturn _ | .silenceLimitReached _
  | .instabilityLimitReached _ _ | .clearPersistenceReached _ _ => none

/-- Bytes padded with zeros to the next whole number of 16-byte payloads, one at least (R159). -/
def padPayloads (m : List Byte) : List Byte :=
  m ++ List.replicate ((16 - m.length % 16) % 16 + (if m.length = 0 then 16 else 0)) 0

/-- The message of a management command, as its fragments carry it (R159); none for the commands that are no message. -/
def encodeCommand (i : Instr) : Option (List Byte) :=
  (commandParts i).map (fun (code, p) => padPayloads (code :: byteOf p.length :: p))

end Sys2Proof.Machine
end

