-- ==== Sys2Proof/Machine/Routes.lean ====
section
/-! DEFINITION. Routes: reading a route ahead, passages, claim sets, visits, cursors and seams (Chapters 1-3, 5), the route checks of R46, and the route and hop commands. -/

namespace Sys2Proof.Machine

/-! ## Reading a route -/

/-- The hop a number of places after another; indices of a route lie within 0-2047 (R36). -/
def hopPlus (h : HopIdx) (n : Nat) : HopIdx := Fin.ofNat 2048 (h.val + n)

/-- The zone a hop names (R35). -/
def State.hopZone (s : State) (h : HopIdx) : ZoneId := (s.hop h).zone

/-- The index of a route's last hop (R36). -/
def RouteRecord.lastHop (r : RouteRecord) : Nat := r.firstHop.val + r.hopCount - 1

/-- Whether a hop index lies in a route's hop range (R36). -/
def RouteRecord.inRange (r : RouteRecord) (h : HopIdx) : Bool :=
  r.firstHop.val ≤ h.val && h.val < r.firstHop.val + r.hopCount

/-- The hop range of a route, first to last (R36). -/
def State.hopRange (s : State) (r : RouteId) : List HopRef :=
  (List.range (s.route r).hopCount).map (fun n => ⟨r, hopPlus (s.route r).firstHop n⟩)

/-- A place in the reading of a route: a hop of a route with the laps remaining there (R43). -/
structure ReadPlace where
  ref : HopRef
  laps : Half
  deriving DecidableEq, Repr

/-- What a seam of a route leads to, read with the laps remaining (R38, R41, R42): nothing where the cursor would become END. -/
def State.seamPlace (s : State) (r : RouteId) (laps : Half) : Option ReadPlace :=
  match (s.route r).endAction with
  | .stop => none
  | .loop => if laps - 1 = 0 then none else some ⟨⟨r, (s.route r).firstHop⟩, laps - 1⟩
  | .link =>
    match (s.route r).linkRoute with
    | none => none
    | some q => if (s.route q).defined then some ⟨⟨q, (s.route q).firstHop⟩, (s.route q).lapCount⟩ else none

/-- The place after another in the reading of a route (R38, R43). -/
def State.nextPlace (s : State) (p : ReadPlace) : Option ReadPlace :=
  if p.ref.hop.val < (s.route p.ref.route).lastHop then some ⟨⟨p.ref.route, hopPlus p.ref.hop 1⟩, p.laps⟩
  else s.seamPlace p.ref.route p.laps

/-- The hops read from a place on, at most so many (R43). -/
def State.readFrom (s : State) : Nat → Option ReadPlace → List HopRef
  | 0, _ => []
  | _ + 1, none => []
  | n + 1, some p => p.ref :: s.readFrom n (s.nextPlace p)

/-- The place a carrier's cursor names, if it names a hop (R39). -/
def State.cursorPlace (s : State) (c : CarrierId) : Option ReadPlace :=
  match (s.carrier c).route, (s.carrier c).cursor with
  | some r, .hop h => some ⟨⟨r, h⟩, (s.carrier c).laps⟩
  | _, _ => none

/-- The first 64 hops of a carrier's route ahead (R43). -/
def State.routeAhead (s : State) (c : CarrierId) : List HopRef := s.readFrom 64 (s.cursorPlace c)

/-- Whether a zone is found on the first 64 hops of a carrier's route ahead (R75, R105). -/
def State.onRouteAhead (s : State) (c : CarrierId) (z : ZoneId) : Bool :=
  (s.routeAhead c).any (fun x => s.hopZone x.hop == z)

/-- The claim set at the head of a reading: a stop-allowed zone, or a run of no-stop zones and its exit (R71). -/
def State.takeSet (s : State) : List HopRef → List HopRef
  | [] => []
  | x :: rest => if s.noStop (s.hopZone x.hop) then x :: s.takeSet rest else [x]

/-- A carrier's next claim set (R71). -/
def State.nextSet (s : State) (c : CarrierId) : List HopRef := s.takeSet (s.routeAhead c)

/-! ## Passages and visits -/

/-- A sequence divided into its passages, each with its exit where it has one (R3); the second argument holds the no-stop run in hand, last first. -/
def passages {α : Type} (noStop : α → Bool) : List α → List α → List (List α)
  | [], [] => []
  | [], run => [run.reverse]
  | x :: rest, run =>
    if noStop x then passages noStop rest (x :: run)
    else if run.isEmpty then passages noStop rest []
    else (x :: run).reverse :: passages noStop rest []

/-- The maximal runs of consecutive items that lie in one corridor (section 2.3); the second argument holds the run in hand, last first. -/
def corridorRuns {α : Type} (cor : α → Option CorridorId) : List α → List α → List (List α)
  | [], [] => []
  | [], run => [run.reverse]
  | x :: rest, [] => if (cor x).isSome then corridorRuns cor rest [x] else corridorRuns cor rest []
  | x :: rest, y :: run =>
    if cor x = cor y then corridorRuns cor rest (x :: y :: run)
    else (y :: run).reverse :: (if (cor x).isSome then corridorRuns cor rest [x] else corridorRuns cor rest [])

/-- The corridor a hop's zone lies in. -/
def State.hopCorridor (s : State) (x : HopRef) : Option CorridorId := s.corridorOfZone (s.hopZone x.hop)

/-- The position of a hop's zone in its corridor. -/
def State.hopPosition (s : State) (x : HopRef) : Nat := (s.zone (s.hopZone x.hop)).position.val

/-- The hops of a route before one of its hops, nearest first. -/
def State.hopsBefore (s : State) (x : HopRef) : List HopRef :=
  (List.range (x.hop.val - (s.route x.route).firstHop.val)).map
    (fun n => ⟨x.route, Fin.ofNat 2048 (x.hop.val - 1 - n)⟩)

/-- The hops a carrier read before its cursor, nearest first: those of its own route, and, where it came over a seam whose last hop it still holds, those of the route before the seam while that route is defined: hops of an undefined one have no meaning (R25, R35, log 16). -/
def State.hopsBehindCursor (s : State) (c : CarrierId) : List HopRef :=
  match s.cursorPlace c with
  | none => []
  | some p =>
    s.hopsBefore p.ref ++
      match (s.carrier c).held.reverse.findSome? (fun e =>
          match e.ref with
          | none => none
          | some x =>
            if (s.route x.route).defined && x.hop.val = (s.route x.route).lastHop
                && ((s.route x.route).endAction = .loop && x.route = p.ref.route
                  || (s.route x.route).endAction = .link && (s.route x.route).linkRoute = some p.ref.route)
            then some x else none) with
      | none => []
      | some x => x :: s.hopsBefore x

/-- The visit to a corridor around the n-th hop of a carrier's route ahead: the maximal run of hops in that corridor, in order (R25). -/
def State.visitAt (s : State) (c : CarrierId) (k : CorridorId) (n : Nat) : List HopRef :=
  let ahead := s.routeAhead c
  let behind := (ahead.take n).reverse ++ s.hopsBehindCursor c
  (behind.takeWhile (fun x => s.hopCorridor x == some k)).reverse
    ++ (ahead.drop n).takeWhile (fun x => s.hopCorridor x == some k)

/-- The direction of a visit, from its first hop to its second (R25). A visit of fewer than two hops, or of two at one position, has none in the manual: the free value of Config (log 16). -/
def State.visitDirection (s : State) (visit : List HopRef) : Direction :=
  let open' := fun z : Nat => if Config.unstatedVisitAscends z then Direction.ascending else .descending
  match visit with
  | a :: b :: _ =>
    if s.hopPosition a < s.hopPosition b then .ascending
    else if s.hopPosition b < s.hopPosition a then .descending
    else open' (s.hopZone a.hop).val
  | [a] => open' (s.hopZone a.hop).val
  | [] => open' 0

/-- The direction that a carrier's next claim set asks in a corridor: that of the visit its first zone there belongs to (R25). Where the set makes two visits to the corridor R25 names no single one, and the visit of the set's first zone there is the model's choice (log 27). -/
def State.askedDirection (s : State) (c : CarrierId) (set : List HopRef) (k : CorridorId) : Direction :=
  s.visitDirection (s.visitAt c k (set.findIdx (fun x => s.hopCorridor x == some k)))

/-! ## The cursor and its seams -/

/-- The users count of a route changes by the carriers that join and leave it (R44). -/
def State.addUser (s : State) (r : RouteId) : State :=
  s.setRoute r { s.route r with users := (s.route r).users + 1 }

def State.dropUser (s : State) (r : RouteId) : State :=
  s.setRoute r { s.route r with users := (s.route r).users - 1 }

def State.dropUserOf (s : State) : Option RouteId → State
  | none => s
  | some r => s.dropUser r

def State.setCursor (s : State) (c : CarrierId) (x : Cursor) : State :=
  s.modCarrier c (fun r => { r with cursor := x })

/-- The seam of a carrier's current route is taken (R40, R41, R42). -/
def State.takeSeam (s : State) (c : CarrierId) (r : RouteId) : State :=
  match (s.route r).endAction with
  | .stop => s.setCursor c .atEnd
  | .loop =>
    let laps := (s.carrier c).laps - 1
    s.modCarrier c (fun x =>
      { x with laps := laps, cursor := if laps = 0 then .atEnd else .hop (s.route r).firstHop })
  | .link =>
    match (s.route r).linkRoute with
    | none => s.setCursor c .atEnd
    | some q =>
      if (s.route q).defined then
        ((s.dropUserOf (s.carrier c).route).addUser q).modCarrier c (fun x =>
          { x with route := some q, laps := (s.route q).lapCount, cursor := .hop (s.route q).firstHop })
      else s.setCursor c .atEnd

/-- The cursor moves to the hop after one of its route's hops, taking the seam where that lies past the last hop (R40). The move breaks the watch. -/
def State.moveCursorPast (s : State) (c : CarrierId) (x : HopRef) : State :=
  (if x.hop.val < (s.route x.route).lastHop then s.setCursor c (.hop (hopPlus x.hop 1))
    else s.takeSeam c x.route).breakWatch c

/-! ## The route checks (R46) -/

/-- The least of some numbers, if there is one. -/
def least (l : List Nat) : Option Nat := l.min?

def failureAt (kind : CheckKind) (l : List Nat) : Option CheckFailure :=
  (least l).map (fun i => ⟨kind, i⟩)

/-- The items of a list whose key an earlier item of the list has. -/
def repeats {α : Type} (key : α → ZoneId) : List α → List ZoneId → List α
  | [], _ => []
  | x :: rest, seen => if seen.contains (key x) then x :: repeats key rest seen else repeats key rest (key x :: seen)

/-- The second items of neighbouring pairs with one key. -/
def repeatedNeighbours {α : Type} (key : α → ZoneId) : List α → List α
  | a :: b :: rest =>
    if key a = key b then b :: repeatedNeighbours key (b :: rest) else repeatedNeighbours key (b :: rest)
  | _ => []

/-- The first item that does not go on from the one before it in a direction. -/
def firstOffCourse {α : Type} (onCourse : α → α → Bool) : List α → Option α
  | a :: b :: rest => if onCourse a b then firstOffCourse onCourse (b :: rest) else some b
  | _ => none

/-- The first hop of a visit at which the positions no longer all rise or all fall (R46, log 15). -/
def State.turnOf (s : State) (visit : List HopRef) : Option HopRef :=
  match visit with
  | a :: b :: _ =>
    if s.hopPosition a < s.hopPosition b then firstOffCourse (fun x y => s.hopPosition x < s.hopPosition y) visit
    else firstOffCourse (fun x y => s.hopPosition y < s.hopPosition x) visit
  | _ => none

/-- The hop that follows another where a check reads on: the next of its route, or, past the last, the first hop the seam leads to, a LOOP route being followed by its own first hop whatever its lap count (R46, R38). -/
def State.checkNext (s : State) (x : HopRef) : Option HopRef :=
  if x.hop.val < (s.route x.route).lastHop then some ⟨x.route, hopPlus x.hop 1⟩
  else (s.seamPlace x.route 0).map (·.ref)

/-- The hops from one on, as a check reads them, at most so many. -/
def State.checkFrom (s : State) : Nat → Option HopRef → List HopRef
  | 0, _ => []
  | _ + 1, none => []
  | n + 1, some x => x :: s.checkFrom n (s.checkNext x)

/-- The hops that follow a route's last hop by R38; 17 of them, as a visit of more than 16 hops turns (R46). -/
def State.followingHops (s : State) (r : RouteId) : List HopRef :=
  s.checkFrom 17 ((s.seamPlace r 0).map (·.ref))

/-- The visits of a route's sequence, the last one read on across the seam (R46). -/
def State.visitsAcross (s : State) (r : RouteId) : List (List HopRef) :=
  let own := s.hopRange r
  let ext := match own.getLast? with
    | none => []
    | some x =>
      match s.hopCorridor x with
      | none => []
      | some k => (s.followingHops r).takeWhile (fun y => s.hopCorridor y == some k)
  corridorRuns s.hopCorridor (own ++ ext) []

/-- Whether the last hop of a route names the zone of the hop that follows it across the seam (R46). -/
def State.seamRepeats (s : State) (r : RouteId) : Bool :=
  match (s.hopRange r).getLast?, (s.followingHops r).head? with
  | some a, some b => s.hopZone a.hop == s.hopZone b.hop
  | _, _ => false

/-- Whether the visit that runs across a route's seam turns (R46, LINK_REFERENCE). -/
def State.seamTurns (s : State) (r : RouteId) : Bool :=
  match (s.hopRange r).getLast? with
  | none => false
  | some x =>
    match s.hopCorridor x with
    | none => false
    | some k =>
      let inK := fun y => s.hopCorridor y == some k
      let beyond := (s.followingHops r).takeWhile inK
      !beyond.isEmpty && (s.turnOf (((s.hopRange r).reverse.takeWhile inK).reverse ++ beyond)).isSome

def State.checkZoneUndefined (s : State) (r : RouteId) : Option CheckFailure :=
  failureAt .zoneUndefined
    (((s.hopRange r).filter (fun x => !(s.zone (s.hopZone x.hop)).defined)).map (·.hop.val))

def State.checkLinkUndefined (s : State) (r : RouteId) : Option CheckFailure :=
  match (s.route r).endAction, (s.route r).linkRoute with
  | .link, some q => if (s.route q).defined then none else some ⟨.linkUndefined, q.val⟩
  | _, _ => none

/-- REPEATED_ZONE (R46): neighbours, two hops of one passage, the seam. The passages are those of the route's own hops; one that a no-stop last hop leaves open is not read on over the seam (log 35). -/
def State.checkRepeatedZone (s : State) (r : RouteId) : Option CheckFailure :=
  let own := s.hopRange r
  let key := fun x : HopRef => s.hopZone x.hop
  failureAt .repeatedZone
    ((repeatedNeighbours key own).map (·.hop.val)
      ++ (passages (fun x => s.noStop (key x)) own []).flatMap (fun p => (repeats key p []).map (·.hop.val))
      ++ (if s.seamRepeats r then [(s.route r).lastHop] else []))

def State.checkLastNoStop (s : State) (r : RouteId) : Option CheckFailure :=
  match (s.hopRange r).getLast? with
  | none => none
  | some x => if s.noStop (s.hopZone x.hop) then some ⟨.lastNoStop, x.hop.val⟩ else none

def State.checkSetTooLong (s : State) (r : RouteId) : Option CheckFailure :=
  failureAt .setTooLong
    (((passages (fun x => s.noStop (s.hopZone x.hop)) (s.hopRange r) []).filter (fun p => 6 < p.length)).flatMap
      (fun p => (p.head?.map (·.hop.val)).toList))

def State.checkCorridorTouch (s : State) (r : RouteId) : Option CheckFailure :=
  failureAt .corridorTouch
    (((corridorRuns s.hopCorridor (s.hopRange r) []).filter (fun p => p.length == 1)).flatMap
      (fun p => (p.head?.map (·.hop.val)).toList))

def State.checkCorridorTurn (s : State) (r : RouteId) : Option CheckFailure :=
  failureAt .corridorTurn ((s.visitsAcross r).flatMap (fun v => ((s.turnOf v).map (·.hop.val)).toList))

/-- The first of some checks that fails. -/
def firstFailure (l : List (Option CheckFailure)) : Option CheckFailure := l.findSome? id

/-- The checks of R46 from ZONE_UNDEFINED to CORRIDOR_TURN, in their order, over the tables of the state given. -/
def State.routeCheck (s : State) (r : RouteId) : Option CheckFailure :=
  firstFailure
    [s.checkZoneUndefined r, s.checkLinkUndefined r, s.checkRepeatedZone r, s.checkLastNoStop r,
      s.checkSetTooLong r, s.checkCorridorTouch r, s.checkCorridorTurn r]

/-- The other defined routes that link to a route, in route order (R46). -/
def State.linkersOf (s : State) (r : RouteId) : List RouteId :=
  allRoutes.filter (fun q =>
    q ≠ r && (s.route q).defined && (s.route q).endAction = .link && (s.route q).linkRoute = some r)

/-- LINK_REFERENCE: the lowest route that links to a route and whose seam into it fails REPEATED_ZONE or CORRIDOR_TURN, over the tables of the state given (R46). -/
def State.checkLinkers (s : State) (r : RouteId) : Option CheckFailure :=
  failureAt .linkReference
    (((s.linkersOf r).filter (fun q => s.seamRepeats q || s.seamTurns q)).map (·.val))

/-- LINK_REFERENCE of an undefining write: any linking route fails (R46). -/
def State.checkAnyLinker (s : State) (r : RouteId) : Option CheckFailure :=
  failureAt .linkReference ((s.linkersOf r).map (·.val))

/-! ## Route and hop commands -/

/-- Read Route (R49). The users count is left out where the checksum reads the record (R167). -/
def routeBytes (r : RouteRecord) : List Byte :=
  [boolByte r.defined] ++ halfBytes (BitVec.ofNat 16 r.firstHop.val) ++ halfBytes (BitVec.ofNat 16 r.hopCount)
    ++ [endActionByte r.endAction] ++ halfBytes r.lapCount ++ [finByte r.linkRoute]

def readRouteAnswer (route : Byte) (s : State) : Answer :=
  match routeOf route with
  | none => .bare .badItem
  | some r => ⟨.ok, routeBytes (s.route r) ++ [byteOf (s.route r).users]⟩

/-- Read Hops (R50): the zone and speed cap of each hop, in index order. -/
def readHopsAnswer (start : Half) (count : Byte) (s : State) : Answer :=
  if count.toNat = 0 ∨ 12 < count.toNat ∨ 2047 < start.toNat + count.toNat - 1 then .bare .badItem
  else ⟨.ok, (List.range count.toNat).flatMap (fun n =>
    let h := s.hop (Fin.ofNat 2048 (start.toNat + n))
    [byteOf h.zone.val, speedByte h.cap])⟩

/-- The record a Write Route carries, when it is in range (R45): the lap count is stored as 0 when the end action is not LOOP, the link route as NONE when it is not LINK; the users count is kept. -/
def routeWriteRecord (w : RouteWrite) (users : Nat) : Option RouteRecord :=
  match yesNoOf w.defined, hopOf w.firstHop, endActionOf w.endAction with
  | some d, some f, some e =>
    let n := w.hopCount.toNat
    if n < 2 ∨ 256 < n ∨ 2047 < f.val + n - 1 then none
    else match e, routeOf w.linkRoute with
      | .link, none => none
      | .link, some q => some ⟨d, f, n, .link, 0, some q, users⟩
      | .loop, _ => some ⟨d, f, n, .loop, w.lapCount, none, users⟩
      | .stop, _ => some ⟨d, f, n, .stop, 0, none, users⟩
  | _, _, _ => none

/-- The checks of a Write Route in SERVICE mode (R46): with the record in place, or, for an undefining write, LINK_REFERENCE alone. -/
def State.writeRouteCheck (s : State) (r : RouteId) (x : RouteRecord) : Option CheckFailure :=
  let t := s.setRoute r x
  if x.defined then
    firstFailure [t.routeCheck r, if x.firstHop = (s.route r).firstHop then none else t.checkLinkers r]
  else t.checkAnyLinker r

/-- Write Route (R45). -/
def writeRoute (slot : MgmtSlot) (w : RouteWrite) (s : State) : State × Answer :=
  match routeOf w.route with
  | none => (s, .bare .badItem)
  | some r =>
    match routeWriteRecord w (s.route r).users with
    | none => (s, .bare .badItem)
    | some x =>
      if 0 < (s.route r).users then (s, .bare .busyItem)
      else match (if s.mode = .service then s.writeRouteCheck r x else none) with
        | some f => (s, .check f)
        | none => ((s.setRoute r x).noteTableWrite slot, .ok)

/-- The hops a Write Hops carries, when each is in range (R47). -/
def hopsOf : List (Byte × Byte) → Option (List Hop)
  | [] => some []
  | (z, v) :: rest =>
    match zoneOf z, byteBelow 4 v, hopsOf rest with
    | some zone, some cap, some l => some (⟨zone, cap⟩ :: l)
    | _, _, _ => none

/-- Hops written at an index and the ones after it (R47). -/
def State.writeHopsAt (s : State) : Nat → List Hop → State
  | _, [] => s
  | n, h :: rest => (s.setHop (Fin.ofNat 2048 n) h).writeHopsAt (n + 1) rest

/-- Whether a route's hop range contains one of the indices from a start on (R47). -/
def RouteRecord.overlaps (r : RouteRecord) (start n : Nat) : Bool :=
  r.firstHop.val < start + n && start < r.firstHop.val + r.hopCount

/-- The checks of a Write Hops in SERVICE mode, over the tables with its hops in place (R48). -/
def State.writeHopsCheck (t : State) (start n : Nat) : Option CheckFailure :=
  let touched := allRoutes.filter (fun r => (t.route r).defined && (t.route r).overlaps start n)
  firstFailure (touched.map t.routeCheck ++ touched.map t.checkLinkers)

/-- Write Hops (R47). -/
def writeHops (slot : MgmtSlot) (start : Half) (hops : List (Byte × Byte)) (s : State) : State × Answer :=
  let n := hops.length
  if n = 0 ∨ 12 < n ∨ 2047 < start.toNat + n - 1 then (s, .bare .badItem)
  else match hopsOf hops with
    | none => (s, .bare .badItem)
    | some l =>
      if allRoutes.any (fun r =>
          (s.route r).defined && 0 < (s.route r).users && (s.route r).overlaps start.toNat n) then
        (s, .bare .busyItem)
      else
        let t := s.writeHopsAt start.toNat l
        match (if s.mode = .service then t.writeHopsCheck start.toNat n else none) with
        | some f => (s, .check f)
        | none => (t.noteTableWrite slot, .ok)

/-- READ_ROUTE (R49). -/
def execReadRoute (slot : MgmtSlot) (route : Byte) (s : State) : Host.Outcome State Fault Refusal :=
  .next (takeCommand slot 0x0C s (reading (readRouteAnswer route)))

/-- WRITE_ROUTE (R45). -/
def execWriteRoute (slot : MgmtSlot) (w : RouteWrite) (s : State) : Host.Outcome State Fault Refusal :=
  .next (takeCommand slot 0x0D s (changing (writeRoute slot w)))

/-- READ_HOPS (R50). -/
def execReadHops (slot : MgmtSlot) (start : Half) (count : Byte) (s : State) : Host.Outcome State Fault Refusal :=
  .next (takeCommand slot 0x0E s (reading (readHopsAnswer start count)))

/-- WRITE_HOPS (R47). -/
def execWriteHops (slot : MgmtSlot) (start : Half) (hops : List (Byte × Byte)) (s : State) :
    Host.Outcome State Fault Refusal :=
  .next (takeCommand slot 0x0F s (changing (writeHops slot start hops)))

end Sys2Proof.Machine
end

