-- ==== Sys2Proof/Machine/Corridors.lean ====
section
/-! DEFINITION. Corridors: the corridor test (R26), entering (R27, R28), leaving and turning (R29-R31) without the wakes that follow, and the corridor commands. -/

namespace Sys2Proof.Machine

/-- A carrier's occupant entry in a corridor, if it has one (R22). -/
def CorridorState.occupant (x : CorridorState) (c : CarrierId) : Option Occupant :=
  x.occupants.find? (fun o => o.slot == c)

/-- The corridor test for a carrier asking a direction (R26): true where it passes. -/
def CorridorState.admits (x : CorridorState) (c : CarrierId) (d : Direction) : Bool :=
  match x.occupant c with
  | some ⟨_, some e⟩ => e == d
  | _ =>
    match x.direction with
    | none => true
    | some e => x.flow == .flowing && e == d

/-- A carrier's occupant entry gets a direction where it stands. -/
def directEntry (c : CarrierId) (d : Option Direction) (l : List Occupant) : List Occupant :=
  l.map (fun o => if o.slot = c then (⟨c, d⟩ : Occupant) else o)

/-- Whether a corridor's queue holds an entry asking the direction opposite to one (R27). -/
def CorridorState.opposed (x : CorridorState) (d : Direction) : Bool :=
  x.queue.any (fun w => w.direction != d)

/-- An entry in the corridor's present direction: counted where an opposite waiter stands in the queue, the count draining the corridor when it reaches the quota (R27). -/
def CorridorState.countEntry (x : CorridorState) (quota : Nat) (d : Direction) : CorridorState :=
  if x.opposed d then
    { x with count := x.count + 1, flow := if quota ≤ x.count + 1 then .draining else x.flow }
  else x

/-- A claim that asks a direction brings a carrier into a corridor, or directs it there (the table of R27). -/
def CorridorState.enter (x : CorridorState) (quota : Nat) (c : CarrierId) (d : Direction) : CorridorState :=
  match x.occupant c with
  | some ⟨_, some _⟩ => x
  | some ⟨_, none⟩ =>
    let y : CorridorState := { x with occupants := directEntry c (some d) x.occupants }
    match x.direction with
    | none => { y with direction := some d, flow := .flowing }
    | some _ => y.countEntry quota d
  | none =>
    let y : CorridorState := { x with occupants := x.occupants ++ [(⟨c, some d⟩ : Occupant)] }
    match x.direction with
    | none => { y with direction := some d, flow := .flowing }
    | some _ => y.countEntry quota d

/-- A carrier becomes an UNDIRECTED occupant without a claim, if it is no occupant already (R28). -/
def CorridorState.joinUndirected (x : CorridorState) (c : CarrierId) : CorridorState :=
  match x.occupant c with
  | some _ => x
  | none =>
    { x with
      occupants := x.occupants ++ [(⟨c, none⟩ : Occupant)]
      flow := if x.flow = .free then .flowing else x.flow }

/-- Whether a directed occupant is in the corridor. -/
def CorridorState.hasDirected (x : CorridorState) : Bool := x.occupants.any (fun o => o.direction.isSome)

/-- The flow turns: direction NONE, count 0, FREE or FLOWING by the occupant list (R31). -/
def CorridorState.turned (x : CorridorState) : CorridorState :=
  { x with direction := none, count := 0, flow := if x.occupants.isEmpty then .free else .flowing }

/-- Whether a carrier is a directed occupant of the corridor. -/
def CorridorState.directs (x : CorridorState) (c : CarrierId) : Bool :=
  match x.occupant c with
  | some ⟨_, some _⟩ => true
  | _ => false

/-- A carrier's entry leaves the occupant list; the second part says whether the flow turned (R29, R31). -/
def CorridorState.leave (x : CorridorState) (c : CarrierId) : CorridorState × Bool :=
  let y : CorridorState := { x with occupants := x.occupants.filter (fun o => o.slot != c) }
  if x.directs c && !y.hasDirected then (y.turned, true)
  else ({ y with flow := if y.occupants.isEmpty && y.flow == .flowing then .free else y.flow }, false)

/-- A carrier's entry becomes UNDIRECTED; the second part says whether the flow turned (R30, R31). -/
def CorridorState.undirect (x : CorridorState) (c : CarrierId) : CorridorState × Bool :=
  let y : CorridorState := { x with occupants := directEntry c none x.occupants }
  if x.directs c && !y.hasDirected then (y.turned, true) else (y, false)

/-- Whether a carrier holds a zone of a corridor, GRANTED or PENDING (R22). -/
def State.holdsInCorridor (s : State) (c : CarrierId) (k : CorridorId) : Bool :=
  (s.carrier c).held.any (fun e => s.corridorOfZone e.zone == some k)

/-- A claim brings a zone of a corridor to a carrier in a direction (R27). -/
def State.enterCorridor (s : State) (c : CarrierId) (k : CorridorId) (d : Direction) : State :=
  s.setCst k ((s.cst k).enter (s.corridor k).quota c d)

/-- A zone given without a claim makes a carrier an UNDIRECTED occupant of its corridor (R28). -/
def State.joinZoneCorridor (s : State) (c : CarrierId) (z : ZoneId) : State :=
  match s.corridorOfZone z with
  | none => s
  | some k => s.setCst k ((s.cst k).joinUndirected c)

/-- After a zone was taken from a carrier: its entry leaves the zone's corridor if that was its last zone there; the corridor whose flow turned, if one did (R29). -/
def State.leaveZoneCorridor (s : State) (c : CarrierId) (z : ZoneId) : State × Option CorridorId :=
  match s.corridorOfZone z with
  | none => (s, none)
  | some k =>
    if s.holdsInCorridor c k then (s, none)
    else
      let x := (s.cst k).leave c
      (s.setCst k x.1, if x.2 then some k else none)

/-- Each of a carrier's occupant entries becomes UNDIRECTED; the corridors whose flow turned, in corridor order (R30, log 19). -/
def State.undirectAll (s : State) (c : CarrierId) : State × List CorridorId :=
  allCorridors.foldl
    (fun acc k =>
      let x := (acc.1.cst k).undirect c
      (acc.1.setCst k x.1, if x.2 then acc.2 ++ [k] else acc.2))
    (s, [])

/-! ## Corridor commands -/

/-- Read Corridor (R34): defined, quota and the zone at each position 0-15. -/
def State.corridorBytes (s : State) (k : CorridorId) : List Byte :=
  [boolByte (s.corridor k).defined, byteOf (s.corridor k).quota]
    ++ (List.finRange 16).map (fun p => finByte (allZones.find? (fun z =>
        (s.zone z).defined && (s.zone z).corridor == some k && (s.zone z).position == p)))

def readCorridorAnswer (corridor : Byte) (s : State) : Answer :=
  match corridorOf corridor with
  | none => .bare .badItem
  | some k => ⟨.ok, s.corridorBytes k⟩

/-- Read Corridor State (R34): the occupant list whole, the queue from the starting index (R163). -/
def readCorridorStateAnswer (corridor start : Byte) (s : State) : Answer :=
  match corridorOf corridor with
  | none => .bare .badItem
  | some k =>
    let x := s.cst k
    let fixed :=
      [flowByte x.flow, directionByte x.direction, byteOf x.count, byteOf (s.corridor k).quota, byteOf x.occupants.length]
        ++ x.occupants.flatMap (fun o => [byteOf o.slot.val, directionByte o.direction])
        ++ [byteOf x.queue.length]
    ⟨.ok, fixed ++ fitItems fixed.length 2 start
      (x.queue.map (fun w => [byteOf w.slot.val, directionByte (some w.direction)]))⟩

/-- The lowest defined zone that names a corridor (R21). -/
def State.lowestZoneOf (s : State) (k : CorridorId) : Option ZoneId :=
  allZones.find? (fun z => (s.zone z).defined && (s.zone z).corridor == some k)

/-- A corridor after a quota was written: one that is FLOWING in a direction with a count at or above it becomes DRAINING (R21). -/
def CorridorState.requota (x : CorridorState) (quota : Nat) : CorridorState :=
  if x.flow = .flowing ∧ x.direction.isSome ∧ quota ≤ x.count then { x with flow := .draining } else x

/-- Write Corridor (R21). -/
def writeCorridor (slot : MgmtSlot) (corridor defined quota : Byte) (s : State) : State × Answer :=
  match corridorOf corridor, yesNoOf defined with
  | some k, some d =>
    if quota.toNat = 0 ∨ 15 < quota.toNat then (s, .bare .badItem)
    else if !d && (s.corridor k).defined && (!(s.cst k).occupants.isEmpty || !(s.cst k).queue.isEmpty) then
      (s, .bare .busyItem)
    else match (if !d && (s.corridor k).defined then s.lowestZoneOf k else none) with
      | some z => (s, .check ⟨.zoneReference, z.val⟩)
      | none =>
        (((s.setCorridor k ⟨d, quota.toNat⟩).setCst k ((s.cst k).requota quota.toNat)).noteTableWrite slot, .ok)
  | _, _ => (s, .bare .badItem)

/-- READ_CORRIDOR (R34). -/
def execReadCorridor (slot : MgmtSlot) (corridor : Byte) (s : State) : Host.Outcome State Fault Refusal :=
  .next (takeCommand slot 0x08 s (reading (readCorridorAnswer corridor)))

/-- WRITE_CORRIDOR (R21). -/
def execWriteCorridor (slot : MgmtSlot) (corridor defined quota : Byte) (s : State) :
    Host.Outcome State Fault Refusal :=
  .next (takeCommand slot 0x09 s (changing (writeCorridor slot corridor defined quota)))

/-- READ_CORRIDOR_STATE (R34). -/
def execReadCorridorState (slot : MgmtSlot) (corridor start : Byte) (s : State) :
    Host.Outcome State Fault Refusal :=
  .next (takeCommand slot 0x0A s (reading (readCorridorStateAnswer corridor start)))

end Sys2Proof.Machine
end

