-- ==== Sys2Proof/Machine/Claims.lean ====
section
/-! DEFINITION. The rights engine: need, the claim pass, grants, waits, the pin token, releases, wake passes and the search for cycles (Chapter 5). -/

namespace Sys2Proof.Machine

/-! ## Need (R74, R75) -/

/-- A carrier's count ahead (R74). -/
def State.countAhead (s : State) (c : CarrierId) : Nat :=
  let held := (s.carrier c).held
  match s.frontIndex c with
  | some i => (held.drop (i + 1)).countP (fun e => e.status == .granted)
  | none => held.countP (fun e => e.status == .granted)

/-- Whether the order read for a carrier calls for a claim in claim mode ON_ORDER (R75). -/
def State.orderCalls (s : State) (c : CarrierId) : Bool :=
  match (s.orderRead c).kind with
  | .hold => false
  | .goFull => true
  | .goTo =>
    match (s.orderRead c).targetZone with
    | none => false
    | some z => s.onRouteAhead c z && !s.holds c z

/-- Whether a carrier has need (R74, R75). -/
def State.hasNeed (s : State) (c : CarrierId) : Bool :=
  s.countAhead c < (s.carrier c).horizon
    && match (s.carrier c).claimMode with
      | .ahead => true
      | .onOrder => s.orderCalls c

/-- Whether a claim pass is made for a carrier (R72). -/
def State.passAllowed (s : State) (c : CarrierId) : Bool :=
  ((s.carrier c).state == .advancing || (s.carrier c).state == .waiting)
    && s.mode == .service && !s.stopMarker && !s.covered c

/-! ## The tests (R77) -/

/-- Whether a zone is held by another carrier, GRANTED or PENDING. -/
def State.heldByOther (s : State) (c : CarrierId) (z : ZoneId) : Bool :=
  match s.holder z with
  | none => false
  | some d => d != c

/-- The five tests of a zone of a claim set, in order: the wait of the first that fails (R77). -/
def State.testZone (s : State) (c : CarrierId) (set : List HopRef) (x : HopRef) : Option Wait :=
  let z := s.hopZone x.hop
  if s.districtActive || s.sectorActive (s.zone z).sector then some .hold
  else if s.heldByOther c z then some (.zone z)
  else match (s.zone z).conflicts.find? (s.heldByOther c) with
    | some w => some (.conflict w)
    | none =>
      if (s.zst z).field = .unclear then some (.field z)
      else match s.corridorOfZone z with
        | none => none
        | some k => if (s.cst k).admits c (s.askedDirection c set k) then none else some (.corridor k)

/-! ## Cycles of waiting (R94, R95) -/

/-- The zone a carrier waits on with cause ZONE or CONFLICT (R94). -/
def State.chainedZone (s : State) (c : CarrierId) : Option ZoneId :=
  match (s.carrier c).state, (s.carrier c).wait with
  | .waiting, .zone z => some z
  | .waiting, .conflict z => some z
  | _, _ => none

/-- The wait-for chain from a carrier back to a start, in at most so many steps: the members of the cycle, each with its wait object (R94). -/
def State.chainTo (s : State) (start : CarrierId) : Nat → CarrierId → Option (List (CarrierId × ZoneId))
  | 0, _ => none
  | n + 1, c =>
    match s.chainedZone c with
    | none => none
    | some z =>
      match s.holder z with
      | none => none
      | some d =>
        if d = start then some [(c, z)]
        else (s.chainTo start n d).map ((c, z) :: ·)

/-- The deadlock check after a wait with cause ZONE or CONFLICT: a cycle overwrites the deadlock record and sets DEADLOCK (R94, R95). -/
def State.deadlockCheck (s : State) (c : CarrierId) : State :=
  match s.chainTo c 48 c with
  | none => s
  | some members =>
    { s with deadlock := ⟨s.floorPort.frame, members.length, members.take 8⟩ }.flagDeadlock

/-! ## Ends of a pass -/

/-- A claim that failed leaves its carrier waiting (R79, R55); the direction is the one the claim asked of the corridor it waits on. -/
def State.waitOn (s : State) (c : CarrierId) (w : Wait) (d : Direction) : State :=
  let t :=
    match (s.carrier c).state with
    | .advancing =>
      ((((s.joinQueue c w d).modCarrier c (fun r => { r with wait := w, waitAge := 0 })).flagWait c).enterState c .waiting)
    | .waiting =>
      if (s.carrier c).wait = w then s
      else ((((s.leaveQueue c).joinQueue c w d).modCarrier c (fun r => { r with wait := w })).flagWait c).breakWatch c
    | _ => s
  match w with
  | .zone _ => t.deadlockCheck c
  | .conflict _ => t.deadlockCheck c
  | _ => t

/-- A WAITING carrier leaves its queue and becomes ADVANCING (R55, R78, R84); any other carrier stays as it is. -/
def State.settle (s : State) (c : CarrierId) : State :=
  if (s.carrier c).state = .waiting then ((s.leaveQueue c).clearWait c).enterState c .advancing else s

/-- A token holder with no PENDING entry gives up the token when a pass leaves it not WAITING (R93). -/
def State.endPass (s : State) (c : CarrierId) : State :=
  if s.pinToken = some c ∧ s.hasPending c = false ∧ (s.carrier c).state ≠ .waiting then { s with pinToken := none }
  else s

/-- A carrier's route is detached: users count, current route, cursor and laps (R39, R44). -/
def State.detachRoute (s : State) (c : CarrierId) : State :=
  (s.dropUserOf (s.carrier c).route).modCarrier c (fun r => { r with route := none, cursor := .none, laps := 0 })

/-- The wake pass of a corridor's queue, each entry examined once if it still stands there (R33, R83). -/
def State.wakeCorridorWith (exam : CarrierId → State → State) (s : State) (k : CorridorId) : State :=
  (s.cst k).queue.foldl
    (fun t w => if (t.cst k).queue.any (fun x => x.ticket == w.ticket) then exam w.slot t else t) s

/-- A carrier's occupant entries become UNDIRECTED, and each corridor whose flow turned has its wake pass (R30, R31). -/
def State.undirectWith (exam : CarrierId → State → State) (s : State) (c : CarrierId) : State :=
  (s.undirectAll c).2.foldl (State.wakeCorridorWith exam) (s.undirectAll c).1

/-- An exhausted route is detached and its carrier becomes IDLE with ROUTE_END (R76 step 1, R55); the wakes of the corridors it turns come last (log 28). -/
def State.exhaustWith (exam : CarrierId → State → State) (s : State) (c : CarrierId) : State :=
  let t := if (s.carrier c).state = .waiting then (s.leaveQueue c).clearWait c else s
  State.undirectWith exam (((t.detachRoute c).enterState c .idle).flagRouteEnd c) c

/-! ## Grants (R78, R91, R92) -/

/-- A zone enters a carrier's held list at its far end, and its holder becomes the carrier (R56, R7). -/
def State.enterHeld (s : State) (c : CarrierId) (e : HeldEntry) : State :=
  (s.modCarrier c (fun r => { r with held := r.held ++ [e] })).setHolder e.zone (some c)

/-- The corridors a claim set brings zones of, in the order it meets them, each with the direction asked (R27, log 27). -/
def State.setCorridors (s : State) (c : CarrierId) (set : List HopRef) : List (CorridorId × Direction) :=
  ((set.filterMap (fun x => s.corridorOfZone (s.hopZone x.hop))).eraseDups).map
    (fun k => (k, s.askedDirection c set k))

/-- The cursor moves past a set of hops (R40). -/
def State.moveCursorPastSet (s : State) (c : CarrierId) (set : List HopRef) : State :=
  match set.getLast? with
  | none => s
  | some x => s.moveCursorPast c x

/-- A claim set is granted whole (R78). -/
def State.grantSet (s : State) (c : CarrierId) (set : List HopRef) : State :=
  let t := set.foldl (fun t x => t.enterHeld c ⟨s.hopZone x.hop, .granted, some x⟩) s
  let u := (s.setCorridors c set).foldl (fun u (k, d) => u.enterCorridor c k d) t
  ((u.moveCursorPastSet c set).breakWatch c).settle c

/-- The token holder takes one zone PENDING (R91). -/
def State.pendHold (s : State) (c : CarrierId) (set : List HopRef) (x : HopRef) : State :=
  let z := s.hopZone x.hop
  let t := s.enterHeld c ⟨z, .pending, some x⟩
  (match s.corridorOfZone z with
    | none => t
    | some k => t.enterCorridor c k (s.askedDirection c set k)).breakWatch c

/-- The token holder tests the zones of its set in order, taking each that passes at once (R91); the wait of the first that fails. -/
def State.takePending (s : State) (c : CarrierId) (set : List HopRef) : List HopRef → State × Option Wait
  | [] => (s, none)
  | x :: rest =>
    if s.holdsPending c (s.hopZone x.hop) then s.takePending c set rest
    else match s.testZone c set x with
      | some w => (s, some w)
      | none => (s.pendHold c set x).takePending c set rest

/-- The token holder's set is whole: its PENDING entries become GRANTED, the cursor moves past the set and the token is freed (R92). -/
def State.wholeSet (s : State) (c : CarrierId) (set : List HopRef) : State :=
  let t := s.modCarrier c (fun r => { r with held := r.held.map (fun e => { e with status := .granted }) })
  ({ t.moveCursorPastSet c set with pinToken := none }.breakWatch c).settle c

/-- The zones of a claim set that its carrier does not hold PENDING. -/
def State.leftOfSet (s : State) (c : CarrierId) (set : List HopRef) : List HopRef :=
  set.filter (fun x => !s.holdsPending c (s.hopZone x.hop))

/-- A set held in part, read anew after a write has changed it, that R56 keeps its carrier from completing: a zone left of it is held already, or the held list has no room for those left (log 39). -/
def State.outgrown (s : State) (c : CarrierId) (set : List HopRef) : Bool :=
  (s.leftOfSet c set).any (fun x => s.holds c (s.hopZone x.hop)) || 12 < (s.carrier c).held.length + (s.leftOfSet c set).length

/-! ## The claim pass (R76) -/

/-- The direction to keep with a wait: the one asked of the corridor waited on. -/
def State.waitDirection (s : State) (c : CarrierId) (set : List HopRef) : Wait → Direction
  | .corridor k => s.askedDirection c set k
  | _ => .ascending

/-- Steps 1 to 6 of a claim pass, set after set (R76). The number bounds the sets of one pass: each set granted brings at least one entry to a held list of at most 12 (log 17). The function examines a woken carrier. -/
def claimLoop (exam : CarrierId → State → State) : Nat → CarrierId → State → State
  | 0, _, s => s
  | n + 1, c, s =>
    let set := s.nextSet c
    let pinned := fun (_ : Unit) =>
      match s.takePending c set set with
      | (t, some w) => t.waitOn c w (s.waitDirection c set w)
      | (t, none) => claimLoop exam n c (t.wholeSet c set)
    if (s.carrier c).cursor = .atEnd then s.exhaustWith exam c
    else if s.pinToken = some c ∧ s.hasPending c then (if s.outgrown c set then s.settle c else pinned ())
    else if !s.hasNeed c then s.settle c
    else if set.isEmpty || set.any (fun x => s.holds c (s.hopZone x.hop))
        || 12 < (s.carrier c).held.length + set.length then s.settle c
    else if s.pinToken = some c then pinned ()
    else match set.findSome? (s.testZone c set) with
      | some w => s.waitOn c w (s.waitDirection c set w)
      | none => claimLoop exam n c (s.grantSet c set)

/-- An examined carrier whose pass is not made leaves its queue ADVANCING; otherwise its pass is made (R84). -/
def examineWith (pass : CarrierId → State → State) (c : CarrierId) (s : State) : State :=
  if s.passAllowed c then pass c s else (s.settle c).endPass c

/-- A claim pass whose wakes nest at most so deep: a pass wakes others only by exhausting its own route, which leaves its carrier IDLE, so 48 carriers nest at most 48 deep (log 17). -/
def claimPass : Nat → CarrierId → State → State
  | 0, _, s => s
  | n + 1, c, s => (claimLoop (examineWith (claimPass n)) 16 c s).endPass c

/-- The nesting bound of a claim pass (log 17). -/
def nestBound : Nat := 49

/-- A woken carrier is examined (R83, R84). -/
def examine (c : CarrierId) (s : State) : State := examineWith (claimPass nestBound) c s

/-- A claim pass started by an event of R73, if the conditions of R72 hold. -/
def State.runPass (s : State) (c : CarrierId) : State :=
  if s.passAllowed c then claimPass nestBound c s else s

/-- A claim pass for a carrier that is ADVANCING when its turn comes (R73, log 20). -/
def State.runPassIfAdvancing (s : State) (c : CarrierId) : State :=
  if (s.carrier c).state = .advancing then s.runPass c else s

/-- A claim pass for every ADVANCING carrier, in slot order (R87, R88). -/
def State.claimAll (s : State) : State := allCarriers.foldl State.runPassIfAdvancing s

/-! ## Wakes and releases -/

/-- The wake pass of a zone's queue for some causes (R83, R85, R86). -/
def State.wakeZone (s : State) (z : ZoneId) (causes : List ZoneCause) : State :=
  ((s.zst z).queue.filter (fun w => causes.contains w.cause)).foldl
    (fun t w => if (t.zst z).queue.any (fun x => x.ticket == w.ticket) then examine w.slot t else t) s

/-- The field wake of a zone (R86). -/
def State.fieldWake (s : State) (z : ZoneId) : State := s.wakeZone z [.field]

/-- The wake pass of a corridor's queue (R33). -/
def State.wakeCorridor (s : State) (k : CorridorId) : State := s.wakeCorridorWith examine k

/-- The wake pass of the hold wait list, then a claim pass for every ADVANCING carrier: the engine's work when a hold entry ceases to be active (R87). -/
def State.holdLifted (s : State) : State :=
  (s.holdWait.foldl
    (fun t w => if t.holdWait.any (fun x => x.ticket == w.ticket) then examine w.slot t else t) s).claimAll

/-- A release of a zone from a carrier, with its wakes (R81). -/
def State.release (s : State) (c : CarrierId) (z : ZoneId) : State :=
  let t := (s.modCarrier c (fun r => { r with held := r.held.filter (fun e => e.zone != z) })).setHolder z none
  let u := t.leaveZoneCorridor c z
  let v := match u.2 with
    | none => u.1
    | some k => u.1.wakeCorridor k
  (v.breakWatch c).wakeZone z [.zone, .conflict]

/-- Releases of several zones from a carrier, each complete before the next (R81); a zone that is no entry of its list by its turn is passed over. -/
def State.releaseAll (s : State) (c : CarrierId) (zs : List ZoneId) : State :=
  zs.foldl (fun t z => if t.holds c z then t.release c z else t) s

/-- The token holder leaves its claim: its PENDING entries are released, farthest first, and the token is freed (R93). -/
def State.leaveClaim (s : State) (c : CarrierId) : State :=
  if s.pinToken = some c then
    { s.releaseAll c (((s.carrier c).held.filter (fun e => e.status == .pending)).reverse.map (·.zone)) with
      pinToken := none }
  else s

/-- A carrier's occupant entries become UNDIRECTED, with the turns and wakes that follow (R30, R31). -/
def State.undirect (s : State) (c : CarrierId) : State := s.undirectWith examine c

/-! ## The pin token (R89, R90) -/

/-- A carrier record after an expiry: the wait age of a WAITING carrier whose cause is not HOLD rises by 1, and stays at 65535 (R89). -/
def Carrier.aged (r : Carrier) : Carrier :=
  if r.state = .waiting ∧ r.wait ≠ .hold then { r with waitAge := min (r.waitAge + 1) 65535 } else r

/-- The wait ages are counted at an expiry (R89). -/
def State.countAges (s : State) : State := allCarriers.foldl (fun t c => t.modCarrier c Carrier.aged) s

/-- Whether a carrier is a candidate for the pin token (R90). -/
def State.tokenCandidate (s : State) (c : CarrierId) : Bool :=
  (s.carrier c).state == .waiting && (s.carrier c).wait != .hold && !s.covered c
    && s.starvationLimit ≤ (s.carrier c).waitAge

/-- The candidate with the greatest wait age, the lowest slot among equals (R90). -/
def State.tokenChoice (s : State) : Option CarrierId :=
  allCarriers.foldl
    (fun best c =>
      if s.tokenCandidate c then
        match best with
        | none => some c
        | some b => if (s.carrier b).waitAge < (s.carrier c).waitAge then some c else best
      else best)
    none

/-- The pin token is given at an expiry, if it is free, the mode is SERVICE and the stop marker is clear (R90); a claim pass for its holder follows at once (R91). -/
def State.giveToken (s : State) : State :=
  if s.pinToken = none ∧ s.mode = .service ∧ s.stopMarker = false then
    match s.tokenChoice with
    | none => s
    | some c => { s with pinToken := some c }.runPass c
  else s

/-- The engine's part of an expiry (R89, R90). -/
def State.engineExpiry (s : State) : State := s.countAges.giveToken

end Sys2Proof.Machine
end

