-- ==== Sys2Proof/Machine/Zones.lean ====
section
/-! DEFINITION. The zone commands: reading and writing zone records with every check of R12 to R17, conflict pairs (R5, R6), and the polarity of inputs (R127). -/

namespace Sys2Proof.Machine

/-! ## Field state (R9) -/

/-- The field state a zone has by its binding and the filtered input (R9). -/
def State.fieldValue (s : State) (z : ZoneId) : FieldState :=
  if (s.zone z).defined then
    match (s.zone z).fieldBinding with
    | none => .unbound
    | some b => if (s.input b.slot b.input).clear then .clear else .unclear
  else .unbound

/-- A zone's field state is set anew by R9, and its blocked flag recomputed. -/
def State.setFieldState (s : State) (z : ZoneId) : State :=
  (s.setZst z { s.zst z with field := s.fieldValue z }).recomputeBlocked z

/-- A zone's field wake, where its field state has changed from UNCLEAR to another (R86). -/
def State.wakeIfCleared (s : State) (before : FieldState) (z : ZoneId) : State :=
  if before = .unclear ∧ (s.zst z).field ≠ .unclear then s.fieldWake z else s

/-! ## Reading zones (R18) -/

/-- The results of Read Zone (R18). -/
def zoneBytes (r : ZoneRecord) : List Byte :=
  [boolByte r.defined, boolByte r.noStop, byteOf r.sector.val, finByte r.corridor, byteOf r.position.val,
    byteOf r.conflicts.length] ++ r.conflicts.map (fun z => byteOf z.val)
    ++ fieldBindingBytes r.fieldBinding ++ requestBindingBytes r.requestBinding

/-- Read Zone (R18). -/
def readZoneAnswer (zone : Byte) (s : State) : Answer :=
  match zoneOf zone with
  | none => .bare .badItem
  | some z => ⟨.ok, zoneBytes (s.zone z)⟩

/-- The status of the holder's entry for a zone, 0 where the zone has no holder (R18, R159). -/
def State.entryStatusByte (s : State) (z : ZoneId) : Byte :=
  match s.holder z with
  | none => 0
  | some c =>
    match s.heldEntry c z with
    | none => 0
    | some e => heldStatusByte e.status

/-- Read Zone State (R18), its queue from the starting index (R163). -/
def readZoneStateAnswer (zone start : Byte) (s : State) : Answer :=
  match zoneOf zone with
  | none => .bare .badItem
  | some z =>
    ⟨.ok, [finByte (s.holder z), s.entryStatusByte z, fieldStateByte (s.zst z).field, boolByte (s.zst z).blocked,
        byteOf (s.zst z).queue.length]
      ++ fitItems 5 2 start ((s.zst z).queue.map (fun w => [byteOf w.slot.val, zoneCauseByte w.cause]))⟩

/-! ## Conflict pairs (R4-R6) -/

/-- A zone's conflict list is replaced. -/
def State.setConflicts (s : State) (z : ZoneId) (l : List ZoneId) : State :=
  s.setZone z { s.zone z with conflicts := l }

/-- Whether two zones are held by two different carriers (R5). -/
def State.heldApart (s : State) (a b : ZoneId) : Bool :=
  match s.holder a, s.holder b with
  | some c, some d => c != d
  | _, _ => false

/-- A pair joins the two conflict lists at their ends (R5). -/
def State.addPair (s : State) (a b : ZoneId) : State :=
  (s.setConflicts a ((s.zone a).conflicts ++ [b])).setConflicts b ((s.zone b).conflicts ++ [a])

/-- A pair leaves the two conflict lists, which close up (R6). -/
def State.removePair (s : State) (a b : ZoneId) : State :=
  (s.setConflicts a ((s.zone a).conflicts.filter (· != b))).setConflicts b ((s.zone b).conflicts.filter (· != a))

/-- Set Conflict Pair (R5); a pair already listed is accepted too, and counts as a table write (log 33). -/
def setConflictPair (slot : MgmtSlot) (a b : Byte) (s : State) : State × Answer :=
  match zoneOf a, zoneOf b with
  | some x, some y =>
    if x = y then (s, .bare .badItem)
    else if (s.zone x).conflicts.contains y then (s.noteTableWrite slot, .ok)
    else if 4 ≤ (s.zone x).conflicts.length ∨ 4 ≤ (s.zone y).conflicts.length then (s, .bare .full)
    else if s.heldApart x y then (s, .bare .busyItem)
    else ((s.addPair x y).noteTableWrite slot, .ok)
  | _, _ => (s, .bare .badItem)

/-- Clear Conflict Pair (R6); a pair not listed is accepted too, and counts as a table write (log 33). The wake of the first zone's CONFLICT waiters is complete before that of the second's. -/
def clearConflictPair (slot : MgmtSlot) (a b : Byte) (s : State) : State × Answer :=
  match zoneOf a, zoneOf b with
  | some x, some y =>
    if x = y then (s, .bare .badItem)
    else if !(s.zone x).conflicts.contains y then (s.noteTableWrite slot, .ok)
    else ((((s.removePair x y).noteTableWrite slot).wakeZone x [.conflict]).wakeZone y [.conflict], .ok)
  | _, _ => (s, .bare .badItem)

/-! ## Write Zone (R12-R17) -/

/-- The record a Write Zone writes over another, and whether the bindings it carried were ignored though they differ (R12, R16); none when it is out of range. In the operator slot the present bindings stand in place of those carried. -/
def zoneWriteRecord (slot : MgmtSlot) (w : ZoneWrite) (old : ZoneRecord) : Option (ZoneRecord × Bool) :=
  let field := fieldBindingOf w.fieldSlot w.fieldInput w.fieldPolarity
  let request := requestBindingOf w.requestSlot w.requestOutput
  match yesNoOf w.defined, yesNoOf w.noStop, byteBelow 8 w.sector, orNone corridorOf w.corridor, byteBelow 16 w.position with
  | some d, some n, some sec, some k, some p =>
    match slot with
    | .operator =>
      some (⟨d, n, sec, k, p, old.conflicts, old.fieldBinding, old.requestBinding⟩,
        field ≠ some old.fieldBinding || request ≠ some old.requestBinding)
    | .safety =>
      match field, request with
      | some f, some q => some (⟨d, n, sec, k, p, old.conflicts, f, q⟩, false)
      | _, _ => none
  | _, _, _, _, _ => none

/-- Whether a zone has a holder or a non-empty wait queue (R13). -/
def State.zoneBusy (s : State) (z : ZoneId) : Bool := (s.holder z).isSome || !(s.zst z).queue.isEmpty

/-- Whether a zone lies in the next claim set of a carrier waiting with cause HOLD or CORRIDOR, or, for CORRIDOR, in the visit to that corridor that the set's zones belong to (R13). Of a set that makes two visits there the visit of its first zone there is guarded (log 27), and of one that reaches into a second corridor the visit there is not (the model's choice, log 40). -/
def State.zoneAwaited (s : State) (z : ZoneId) : Bool :=
  allCarriers.any (fun c =>
    (s.carrier c).state == .waiting &&
      match (s.carrier c).wait with
      | .hold => (s.nextSet c).any (fun x => s.hopZone x.hop == z)
      | .corridor k =>
        let set := s.nextSet c
        (set ++ s.visitAt c k (set.findIdx (fun x => s.hopCorridor x == some k))).any (fun x => s.hopZone x.hop == z)
      | _ => false)

/-- Whether two records of a zone differ in the four fields that R13 guards. -/
def ZoneRecord.movesLayout (new old : ZoneRecord) : Bool :=
  new.noStop != old.noStop || new.sector != old.sector || new.corridor != old.corridor || new.position != old.position

/-- The lowest defined route with a hop in its range that names a zone (R13). -/
def State.routeNaming (s : State) (z : ZoneId) : Option RouteId :=
  allRoutes.find? (fun r => (s.route r).defined && (s.hopRange r).any (fun x => s.hopZone x.hop == z))

/-- The refusals of R13. -/
def State.zoneRefusal (s : State) (z : ZoneId) (new : ZoneRecord) : Option Answer :=
  let old := s.zone z
  if !old.defined then none
  else if !new.defined then
    if s.zoneBusy z then some (.bare .busyItem)
    else (s.routeNaming z).map (fun r => .check ⟨.routeReference, r.val⟩)
  else if new.movesLayout old && (s.zoneBusy z || s.zoneAwaited z) then some (.bare .busyItem)
  else none

/-- Whether the positions of a corridor's defined zones run from 0 without a gap (R14, R169). -/
def State.gapFree (s : State) (k : CorridorId) : Bool :=
  let ps := (allZones.filter (fun z => s.corridorOfZone z == some k)).map (fun z => (s.zone z).position.val)
  (List.range ps.length).all (fun p => ps.contains p)

/-- The first zone other than one that satisfies a test. -/
def otherZone (z : ZoneId) (p : ZoneId → Bool) : Option ZoneId := allZones.find? (fun w => w != z && p w)

/-- The checks of R14 for the corridor a record names, over the tables with the record in place: CORRIDOR_UNDEFINED, POSITION_USED, CORRIDOR_GAP. -/
def State.checkNewPlace (s t : State) (z : ZoneId) : Option CheckFailure :=
  let new := t.zone z
  if new.defined then
    match new.corridor with
    | none => none
    | some k =>
      firstFailure
        [ (if (s.corridor k).defined then none else some ⟨.corridorUndefined, k.val⟩),
          (otherZone z (fun w => s.corridorOfZone w == some k && (s.zone w).position == new.position)).map
            (fun w => ⟨.positionUsed, w.val⟩),
          (if s.mode == .service && !t.gapFree k then some ⟨.corridorGap, k.val⟩ else none) ]
  else none

/-- The check of R14 for the corridor a zone leaves, or leaves a position of. -/
def State.checkPlaceLeft (s t : State) (z : ZoneId) : Option CheckFailure :=
  let new := t.zone z
  match s.corridorOfZone z with
  | none => none
  | some k =>
    if s.mode == .service && (!new.defined || new.corridor != some k || new.position != (s.zone z).position)
        && !t.gapFree k then
      some ⟨.corridorGap, k.val⟩
    else none

/-- Whether a defined zone binds the input of a binding with the other polarity (R14). -/
def State.opposes (s : State) (b : FieldBinding) (w : ZoneId) : Bool :=
  (s.zone w).defined &&
    match (s.zone w).fieldBinding with
    | none => false
    | some a => a.slot == b.slot && a.input == b.input && a.polarity != b.polarity

/-- The check of R14 for the polarity of a record's binding. Of several zones that bind the input with the other polarity the lowest gives the index (log 34). -/
def State.checkPolarity (s t : State) (z : ZoneId) : Option CheckFailure :=
  match (t.zone z).fieldBinding with
  | none => none
  | some b => (otherZone z (s.opposes b)).map (fun w => ⟨.polarityMismatch, w.val⟩)

/-- The checks of R14 over the tables with the new record in place, in their order. -/
def State.zoneChecks (s t : State) (z : ZoneId) : Option CheckFailure :=
  firstFailure [s.checkNewPlace t z, s.checkPlaceLeft t z, s.checkPolarity t z]

/-- The routes that a change of a zone's layout is checked against: the defined ones whose hops name it, and the defined ones that link to such a route (R15). -/
def State.routesTouching (s : State) (z : ZoneId) : List RouteId :=
  let names := fun r => (s.route r).defined && (s.hopRange r).any (fun x => s.hopZone x.hop == z)
  allRoutes.filter (fun r => (s.route r).defined &&
    (names r || ((s.route r).endAction == .link &&
      match (s.route r).linkRoute with
      | none => false
      | some q => names q)))

/-- The check of R15 over the tables with the new record in place: the first route that fails gives the index. -/
def State.zoneRouteCheck (s t : State) (z : ZoneId) : Option CheckFailure :=
  let new := t.zone z
  let old := s.zone z
  if s.mode = .service ∧ old.defined ∧
      (new.noStop ≠ old.noStop ∨ new.corridor ≠ old.corridor ∨ new.position ≠ old.position) then
    (t.routesTouching z).findSome? (fun r => (t.routeCheck r).map (fun f => ⟨f.kind, r.val⟩))
  else none

/-- The polarity an input has by the bindings of defined zones (R122). -/
def State.polarityValue (s : State) (f : FieldSlotId) (i : LineId) : Polarity :=
  match allZones.findSome? (fun z =>
      if (s.zone z).defined then
        match (s.zone z).fieldBinding with
        | none => none
        | some b => if b.slot = f ∧ b.input = i then some b.polarity else none
      else none) with
  | none => .clearWhenSet
  | some p => p

/-- The polarity of a binding's input follows the bindings; an input whose polarity changes becomes UNCLEAR with a clear run of 0 (R127). -/
def State.repolarize (s : State) : Option FieldBinding → State
  | none => s
  | some b =>
    let p := s.polarityValue b.slot b.input
    if (s.input b.slot b.input).polarity = p then s else s.setInput b.slot b.input ⟨false, 0, p⟩

/-- The outputs of a zone's old binding and of its new one are recomputed where the binding or the defined field changed (R17, R128). -/
def State.followRequests (s : State) (old new : ZoneRecord) : State :=
  if new.requestBinding ≠ old.requestBinding ∨ new.defined ≠ old.defined then
    (s.recomputeBinding old.requestBinding).recomputeBinding new.requestBinding
  else s

/-- A zone record is written, with the polarity of its inputs, the outputs of its bindings, and the field state where the binding or the defined field changed (R17, R127, R128, R9). -/
def State.layZone (s : State) (z : ZoneId) (new : ZoneRecord) : State :=
  let old := s.zone z
  let t := (((s.setZone z new).repolarize old.fieldBinding).repolarize new.fieldBinding).followRequests old new
  if new.fieldBinding ≠ old.fieldBinding ∨ new.defined ≠ old.defined then t.setFieldState z else t

/-- The effects of an applied Write Zone (R17, R127): the tables follow the record, then the FIELD wake runs. -/
def State.applyZone (s : State) (z : ZoneId) (new : ZoneRecord) : State :=
  (s.layZone z new).wakeIfCleared (s.zst z).field z

/-- Write Zone (R12). -/
def writeZone (slot : MgmtSlot) (w : ZoneWrite) (s : State) : State × Answer :=
  match zoneOf w.zone with
  | none => (s, .bare .badItem)
  | some z =>
    match zoneWriteRecord slot w (s.zone z) with
    | none => (s, .bare .badItem)
    | some (new, ignored) =>
      match s.zoneRefusal z new with
      | some a => (s, a)
      | none =>
        match firstFailure [s.zoneChecks (s.setZone z new) z, s.zoneRouteCheck (s.setZone z new) z] with
        | some f => (s, .check f)
        | none => ((s.noteTableWrite slot).applyZone z new, .bare (if ignored then .partialWrite else .ok))

/-- READ_ZONE (R18). -/
def execReadZone (slot : MgmtSlot) (zone : Byte) (s : State) : Host.Outcome State Fault Refusal :=
  .next (takeCommand slot 0x02 s (reading (readZoneAnswer zone)))

/-- WRITE_ZONE (R12). -/
def execWriteZone (slot : MgmtSlot) (w : ZoneWrite) (s : State) : Host.Outcome State Fault Refusal :=
  .next (takeCommand slot 0x03 s (changing (writeZone slot w)))

/-- SET_CONFLICT_PAIR (R5). -/
def execSetConflictPair (slot : MgmtSlot) (a b : Byte) (s : State) : Host.Outcome State Fault Refusal :=
  .next (takeCommand slot 0x04 s (changing (setConflictPair slot a b)))

/-- CLEAR_CONFLICT_PAIR (R6). -/
def execClearConflictPair (slot : MgmtSlot) (a b : Byte) (s : State) : Host.Outcome State Fault Refusal :=
  .next (takeCommand slot 0x05 s (changing (clearConflictPair slot a b)))

/-- READ_ZONE_STATE (R18). -/
def execReadZoneState (slot : MgmtSlot) (zone start : Byte) (s : State) : Host.Outcome State Fault Refusal :=
  .next (takeCommand slot 0x06 s (reading (readZoneStateAnswer zone start)))

end Sys2Proof.Machine
end

