-- ==== Sys2Proof/Machine/Field.lean ====
section
/-! DEFINITION. The field monitor: readings, filtering, the hand-over of changes to the zones, the loss of the floor port, and the clear persistence being reached (Chapter 8). -/

namespace Sys2Proof.Machine

/-- An input bit read under the input's polarity: true for clear (R122). -/
def Input.readsClear (x : Input) (bit : Bool) : Bool :=
  match x.polarity with
  | .clearWhenSet => bit
  | .clearWhenReset => !bit

/-- An input after a reading, clear or unclear (R124). -/
def Input.take (x : Input) (persistence : Nat) (clearReading : Bool) : Input :=
  if clearReading then
    { x with run := min (x.run + 1) 255, clear := x.clear || persistence ≤ min (x.run + 1) 255 }
  else { x with run := 0, clear := false }

/-- Every input of every slot takes its reading (R126 step 1). -/
def State.filterInputs (s : State) (reading : FieldSlotId → LineId → Bool) : State :=
  allFieldSlots.foldl
    (fun t f => allLines.foldl (fun u i => u.setInput f i ((u.input f i).take s.clearPersistence (reading f i))) t) s

/-- Whether the filtered state of a defined zone's bound input differs between two states (R126). -/
def State.inputChanged (before after : State) (z : ZoneId) : Bool :=
  (after.zone z).defined &&
    match (after.zone z).fieldBinding with
    | none => false
    | some b => (before.input b.slot b.input).clear != (after.input b.slot b.input).clear

/-- The zones whose bound input has changed have their field states and blocked flags set (R126 step 2). -/
def State.fieldsFollow (before after : State) : State :=
  (allZones.filter (before.inputChanged after)).foldl State.setFieldState after

/-- The changes of filtered state are handed to the zones: all field states and blocked flags first, then the field wakes in order of zone number (R126 steps 2 and 3). -/
def State.handOver (before after : State) : State :=
  let t := before.fieldsFollow after
  ((allZones.filter (before.inputChanged after)).filter
    (fun z => (before.zst z).field == .unclear && (t.zst z).field == .clear)).foldl State.fieldWake t

/-- The monitor takes one frame's readings (R126). -/
def State.takeReadings (s : State) (reading : FieldSlotId → LineId → Bool) : State :=
  s.handOver (s.filterInputs reading)

/-- The reading of an input in a good frame, whose field condition slots are bytes 149 to 180: unclear where the slot is ABSENT (R123, R157). -/
def State.frameReading (s : State) (frame : List Byte) (f : FieldSlotId) (i : LineId) : Bool :=
  (frame.getD (149 + 2 * f.val) 0).getLsbD 7 &&
    (s.input f i).readsClear ((frame.getD (150 + 2 * f.val) 0).getLsbD i.val)

/-- The monitor takes a good frame (R123). -/
def State.monitorGood (s : State) (frame : List Byte) : State := s.takeReadings (s.frameReading frame)

/-- The monitor takes a bad frame: every input reads unclear (R123). -/
def State.monitorBad (s : State) : State := s.takeReadings (fun _ _ => false)

/-- The loss of the floor port: every CLEAR input becomes UNCLEAR and every clear run 0, as at an unclear reading, and the changes are handed on (R125). -/
def State.monitorLoss (s : State) : State := s.takeReadings (fun _ _ => false)

/-- CLEAR_PERSISTENCE_REACHED (R124): a clear reading of one UNCLEAR input brings its run to the clear persistence, and the change is handed on. Where the event's conditions do not hold it is no event and changes nothing (log 2). -/
def execClearPersistenceReached (fieldSlot : FieldSlotId) (input : LineId) (s : State) :
    Host.Outcome State Fault Refusal :=
  let x := s.input fieldSlot input
  let y := x.take s.clearPersistence true
  .next
    (if s.resetPin then s
    else if s.floorPort.state = .synced ∧ x.clear = false ∧ y.clear = true then
      s.handOver (s.setInput fieldSlot input y)
    else s)

end Sys2Proof.Machine
end

