-- ==== Sys2Proof/Machine/Faults.lean ====
section
/-! DEFINITION. Carrier faults (sections 9.1-9.4), the freezing of a trespasser (R119), the hold commands and the stop line (sections 9.5-9.7). -/

namespace Sys2Proof.Machine

/-! ## Carrier faults -/

/-- The place of a fault kind in the policy table (R133, in the order of R132). -/
def FaultKind.index : FaultKind → Fin 8
  | .drive => 0
  | .obstacle => 1
  | .power => 2
  | .localization => 3
  | .other => 4
  | .lost => 5
  | .unstable => 6
  | .trespass => 7

/-- The fault record is captured from the carrier record as it stands, and the fault kind set (R66). -/
def State.captureFault (s : State) (c : CarrierId) (k : FaultKind) : State :=
  s.modCarrier c (fun r =>
    { r with
      fault := some k
      faultRecord :=
        { kind := some k, frame := s.floorPort.frame, report := r.report, held := r.held, route := r.route,
          cursor := r.cursor, laps := r.laps, wait := r.wait, order := r.lastOrder, authority := r.authority,
          clip := r.clip, speed := r.speed } })

/-- Whether a zone lies in the conflict list of a zone held by a carrier other than one (R119). -/
def State.conflictsWithOther (s : State) (c : CarrierId) (z : ZoneId) : Bool :=
  allZones.any (fun w => s.heldByOther c w && (s.zone w).conflicts.contains z)

/-- Whether a reported zone may be given to a trespasser: defined, without a holder and free of conflict with other carriers' holds (R119). -/
def State.givable (s : State) (c : CarrierId) (z : ZoneId) : Bool :=
  (s.zone z).defined && s.holder z == none && !s.conflictsWithOther c z

/-- A zone is given to a trespasser, a rear zone at the near end of its held list and a front zone at the far end (R119, R28). -/
def State.giveZone (s : State) (c : CarrierId) (z : ZoneId) (atRear : Bool) : State :=
  let e : HeldEntry := ⟨z, .granted, none⟩
  ((s.modCarrier c (fun r => { r with held := if atRear then e :: r.held else r.held ++ [e] })).setHolder z (some c)
    ).joinZoneCorridor c z

/-- One reported zone of a trespasser is dealt with: a PENDING entry becomes GRANTED, and a zone that may be given is given while the held list has room (R119). -/
def State.freezeZone (s : State) (c : CarrierId) (z : ZoneId) (atRear : Bool) : State :=
  if s.holds c z then
    s.modCarrier c (fun r =>
      { r with held := r.held.map (fun e => if e.zone = z then { e with status := .granted } else e) })
  else if s.givable c z && (s.carrier c).held.length < 12 then s.giveZone c z atRear
  else s

/-- A trespasser's reported rear zone is dealt with; one that is its front zone too joins with it (R119). -/
def State.freezeRear (s : State) (c : CarrierId) : State :=
  match s.rear c with
  | some z => if s.front c = some z then s else s.freezeZone c z true
  | none => s

/-- A trespasser's reported front zone is dealt with (R119). -/
def State.freezeFront (s : State) (c : CarrierId) : State :=
  match s.front c with
  | some z => s.freezeZone c z false
  | none => s

/-- The freezing of a trespasser: its reported rear zone is dealt with, then its front zone (R119); the order is log 37. When they are the same zone it joins at the far end. -/
def State.freeze (s : State) (c : CarrierId) : State := (s.freezeRear c).freezeFront c

/-- The rear zone's entry stands before the front zone's when a trespasser's releases are done (R119, log 21). -/
def State.rearFirst (s : State) (c : CarrierId) : State :=
  s.modCarrier c (fun r =>
    { r with held := r.held.filter (fun e => some e.zone == r.report.report.rear)
        ++ r.held.filter (fun e => some e.zone != r.report.report.rear) })

/-- The granted entries that a first fault releases, farthest first: all but those of the validated front and rear zones (R135). -/
def State.faultReleases (s : State) (c : CarrierId) : List ZoneId :=
  ((s.carrier c).held.filter (fun e => e.status == .granted && !s.standsIn c e.zone)).reverse.map (·.zone)

/-- The pair of a fault is placed in a cause list: in place of its slot's pair, or at the tail (R136). -/
def placeCause (c : CarrierId) (k : FaultKind) (l : List (CarrierId × FaultKind)) : List (CarrierId × FaultKind) :=
  if l.any (fun p => p.1 == c) then l.map (fun p => if p.1 = c then (c, k) else p) else l ++ [(c, k)]

/-- A hold entry is fed by a fault (R136). -/
def State.feedHold (s : State) (n : HoldName) (c : CarrierId) (k : FaultKind) : State :=
  s.writeHoldEntry n { s.holdEntry n with causes := placeCause c k (s.holdEntry n).causes }

/-- The policy action of a first fault (R136). -/
def State.applyPolicy (s : State) (c : CarrierId) (k : FaultKind) : State :=
  match tget s.policy k.index with
  | .holdCarrier => s
  | .holdDistrict => s.feedHold .district c k
  | .holdSector =>
    match s.front c with
    | none => s.feedHold .district c k
    | some z => s.feedHold (.sector (s.zone z).sector) c k

/-- A first fault, step by step (R134). -/
def State.firstFault (s : State) (c : CarrierId) (k : FaultKind) : State :=
  let s1 := s.captureFault c k
  let s2 := if (s1.carrier c).state = .waiting then (s1.leaveQueue c).clearWait c else s1
  let s3 := s2.modCarrier c (fun r => { r with state := .faulted })
  let s4 := if k = .trespass then s3.freeze c else s3
  let s5 := s4.leaveClaim c
  let s6 := s5.releaseAll c (s5.faultReleases c)
  let s7 := if k = .trespass then (s6.freeze c).rearFirst c else s6
  let s8 := if (s7.carrier c).route.isSome then (s7.detachRoute c).undirect c else s7
  (((s8.breakWatch c).flagState c).flagFault c).applyPolicy c k

/-- A repeat fault: the record and the kind are rewritten and FAULT is set (R137). -/
def State.repeatFault (s : State) (c : CarrierId) (k : FaultKind) : State := (s.captureFault c k).flagFault c

/-- A fault is raised for a slot (R132): none for a VACANT one, a repeat fault for a FAULTED one, else a first fault. -/
def State.raiseFault (s : State) (c : CarrierId) (k : FaultKind) : State :=
  match (s.carrier c).state with
  | .vacant => s
  | .faulted => s.repeatFault c k
  | .idle | .advancing | .waiting => s.firstFault c k

/-! ## Hold commands (R138-R142, R171) -/

/-- Hold Sector (R140). -/
def holdSector (sector : Byte) (s : State) : State × Answer :=
  match byteBelow 8 sector with
  | none => (s, .bare .badItem)
  | some n => (s.writeHoldEntry (.sector n) { s.holdEntry (.sector n) with manual := true }, .ok)

/-- Hold District (R140). -/
def holdDistrict (s : State) : State × Answer :=
  (s.writeHoldEntry .district { s.holdEntry .district with manual := true }, .ok)

/-- After a change of the hold table: an entry that has ceased to be active hands the change to the engine (R139, R87). -/
def State.afterLift (t s : State) (n : HoldName) : State :=
  if s.holdActive n && !t.holdActive n then t.holdLifted else t

/-- Lift Hold (R141). -/
def liftHold (entry : Byte) (s : State) : State × Answer :=
  match holdNameOf entry with
  | none => (s, .bare .badItem)
  | some n =>
    match (s.holdEntry n).causes.find? (fun p => (s.carrier p.1).state == .faulted) with
    | some p => (s, ⟨.causeActive, [byteOf p.1.val]⟩)
    | none => ((s.writeHoldEntry n ⟨[], false⟩).afterLift s n, .ok)

/-- The link flag is set when the floor port becomes LOST (R142). -/
def State.setLink (s : State) : State := s.writeLinkFlag true

/-- The link flag is cleared when the floor port becomes SYNCED (R142). -/
def State.clearLink (s : State) : State := (s.writeLinkFlag false).afterLift s .district

/-- The hold entries in the order of their codes: the sectors, then DISTRICT (R159, log 13). -/
def allHoldNames : List HoldName := allSectors.map .sector ++ [.district]

/-- Read Holds (R171). -/
def readHoldsAnswer (part entry start : Byte) (s : State) : Answer :=
  if part = 0 then
    ⟨.ok, allHoldNames.flatMap (fun n =>
        [boolByte (s.holdActive n), boolByte (s.holdEntry n).manual, byteOf (s.holdEntry n).causes.length])
      ++ [boolByte s.linkFlag, boolByte s.armLatch, boolByte s.stopLine, boolByte s.stopMarker]
      ++ s.policy.toList.map policyActionByte ++ [byteOf s.holdWait.length]⟩
  else if part = 1 then
    match holdNameOf entry with
    | none => .bare .badItem
    | some n =>
      ⟨.ok, byteOf (s.holdEntry n).causes.length :: fitItems 1 2 start
        ((s.holdEntry n).causes.map (fun p => [byteOf p.1.val, faultKindByte (some p.2)]))⟩
  else if part = 2 then
    ⟨.ok, byteOf s.holdWait.length :: fitItems 1 2 start
      (s.holdWait.map (fun w => [byteOf w.slot.val, priorityByte w.priority]))⟩
  else .bare .badItem

/-- Write Policy (R133). -/
def writePolicy (actions : Vector Byte 8) (s : State) : State × Answer :=
  let read := fun i : Fin 8 => policyActionOf (tget actions i)
  match read 0, read 1, read 2, read 3, read 4, read 5, read 6, read 7 with
  | some a, some b, some c, some d, some e, some f, some g, some h =>
    ({ s with policy := #v[a, b, c, d, e, f, g, h] }, .ok)
  | _, _, _, _, _, _, _, _ => (s, .bare .badItem)

/-! ## The stop line (R143-R145) -/

/-- The stop marker is set, which sets the STOP flag (R144). -/
def State.setMarker (s : State) : State := { s with stopMarker := true }.flagStop

/-- Arm Stop Line (R143). -/
def armStopLine (s : State) : State × Answer :=
  if s.armLatch then (s, .ok)
  else
    let t := { s with armLatch := true }
    (if s.stopLine && !s.stopMarker then t.setMarker else t, .ok)

/-- Resume (R145). -/
def resume (s : State) : State × Answer :=
  if !s.stopMarker then (s, .bare .wrongState)
  else if s.stopLine then (s, .bare .lineActive)
  else (({ s with stopMarker := false }.flagStop).claimAll, .ok)

/-- HOLD_SECTOR (R140). -/
def execHoldSector (slot : MgmtSlot) (sector : Byte) (s : State) : Host.Outcome State Fault Refusal :=
  .next (takeCommand slot 0x32 s (safetyOnly slot (changing (holdSector sector))))

/-- HOLD_DISTRICT (R140). -/
def execHoldDistrict (slot : MgmtSlot) (s : State) : Host.Outcome State Fault Refusal :=
  .next (takeCommand slot 0x33 s (safetyOnly slot (changing holdDistrict)))

/-- LIFT_HOLD (R141). -/
def execLiftHold (slot : MgmtSlot) (entry : Byte) (s : State) : Host.Outcome State Fault Refusal :=
  .next (takeCommand slot 0x34 s (safetyOnly slot (changing (liftHold entry))))

/-- READ_HOLDS (R171). -/
def execReadHolds (slot : MgmtSlot) (part entry start : Byte) (s : State) : Host.Outcome State Fault Refusal :=
  .next (takeCommand slot 0x1A s (reading (readHoldsAnswer part entry start)))

/-- WRITE_POLICY (R133). -/
def execWritePolicy (slot : MgmtSlot) (actions : Vector Byte 8) (s : State) : Host.Outcome State Fault Refusal :=
  .next (takeCommand slot 0x35 s (safetyOnly slot (changing (writePolicy actions))))

/-- ARM_STOP_LINE (R143). -/
def execArmStopLine (slot : MgmtSlot) (s : State) : Host.Outcome State Fault Refusal :=
  .next (takeCommand slot 0x30 s (safetyOnly slot (changing armStopLine)))

/-- RESUME (R145). -/
def execResume (slot : MgmtSlot) (s : State) : Host.Outcome State Fault Refusal :=
  .next (takeCommand slot 0x31 s (safetyOnly slot (changing resume)))

/-- STOP_LINE_CHANGE (R143, R144): a change to the level the line already has is no change. While the latch is clear a change has no effect but the level itself. -/
def execStopLineChange (active : Bool) (s : State) : Host.Outcome State Fault Refusal :=
  .next
    (let t := { s with stopLine := active }
     if active && !s.stopLine && s.armLatch && !s.stopMarker then t.setMarker else t)

end Sys2Proof.Machine
end

