-- ==== Sys2Proof/Machine/Carriers.lean ====
section
/-! DEFINITION. The carrier commands (sections 4.4-4.12), Watch Carrier and Replace Route (section 11.4). -/

namespace Sys2Proof.Machine

/-! ## Admit Carrier (R58, R59) -/

/-- Whether a carrier's validated report is PRESENT in these zones with fault code 0 (R58). -/
def State.reportsAt (s : State) (c : CarrierId) (front rear : ZoneId) : Bool :=
  let v := (s.carrier c).report
  v.present && v.report.front == some front && v.report.rear == some rear && v.report.code == 0

/-- Whether a zone has a holder or appears in the conflict list of a zone that has one (R58). -/
def State.occupied (s : State) (z : ZoneId) : Bool :=
  (s.holder z).isSome || allZones.any (fun w => (s.holder w).isSome && (s.zone w).conflicts.contains z)

/-- The refusal of an Admit Carrier of a slot in range, the first that applies (R58). -/
def State.admitRefusal (s : State) (c : CarrierId) (front rear : ZoneId) : Option Status :=
  if (s.carrier c).state ≠ .vacant then some .wrongState
  else if !s.reportsAt c front rear then some .reportMismatch
  else if !(s.zone front).defined || !(s.zone rear).defined then some .badItem
  else if s.occupied front || s.occupied rear then some .occupied
  else if s.districtActive || s.sectorActive (s.zone front).sector || s.sectorActive (s.zone rear).sector then some .held
  else none

/-- A carrier record at its admission: IDLE, its zones, no route and no wait, the default parameters and an empty fault record; its report, last order, stamp and event flags are kept (R59). -/
def Carrier.admitted (r : Carrier) (held : List HeldEntry) : Carrier :=
  { r with
    state := .idle, held := held, route := none, cursor := .none, laps := 0, claimMode := .ahead, horizon := 3,
    priority := .normal, clipMode := .saturate, wait := .none, waitAge := 0, fault := none, faultRecord := .cleared }

/-- An admitted zone: its holder becomes the carrier, an UNDIRECTED occupant of its corridor (R59, R28). -/
def State.admitZone (s : State) (c : CarrierId) (z : ZoneId) : State := (s.setHolder z (some c)).joinZoneCorridor c z

/-- The effects of an accepted Admit Carrier (R59, R111). -/
def State.enrol (s : State) (c : CarrierId) (front rear : ZoneId) : State :=
  let held : List HeldEntry :=
    if front = rear then [⟨front, .granted, none⟩] else [⟨rear, .granted, none⟩, ⟨front, .granted, none⟩]
  let s1 := s.modCarrier c (fun r => r.admitted held)
  let s2 := held.foldl (fun t e => t.admitZone c e.zone) s1
  let s3 := s2.setValidator c { s2.validator c with instability := 0, silence := 0 }
  (s3.flagState c).breakWatch c

/-- Admit Carrier (R58). -/
def admitCarrier (carrier front rear : Byte) (s : State) : State × Answer :=
  match carrierOf carrier, zoneOf front, zoneOf rear with
  | some c, some f, some r =>
    match s.admitRefusal c f r with
    | some x => (s, .bare x)
    | none => (s.enrol c f r, .ok)
  | _, _, _ => (s, .bare .badItem)

/-! ## Assign Route (R61) -/

/-- A route becomes a carrier's current route at a start hop: users count, cursor to the hop after it, laps from its lap count, the seam taken where the start hop is the last (R39, R40, R44). -/
def State.takeRoute (s : State) (c : CarrierId) (r : RouteId) (h : HopIdx) : State :=
  (((s.dropUserOf (s.carrier c).route).addUser r).modCarrier c (fun x =>
    { x with route := some r, laps := (s.route r).lapCount })).moveCursorPast c ⟨r, h⟩

/-- Assign Route (R61). -/
def assignRoute (carrier route : Byte) (s : State) : State × Answer :=
  match carrierOf carrier, routeOf route with
  | some c, some r =>
    if s.mode = .safe then (s, .bare .notInService)
    else if (s.carrier c).state ≠ .idle then (s, .bare .wrongState)
    else if !(s.route r).defined then (s, .bare .badItem)
    else if farthestHeld (s.carrier c).held ≠ some (s.hopZone (s.route r).firstHop) then
      (s, .check ⟨.startZone, (s.route r).firstHop.val⟩)
    else (((s.takeRoute c r (s.route r).firstHop).enterState c .advancing).runPass c, .ok)
  | _, _ => (s, .bare .badItem)

/-! ## Cancel Route (R62, R63) -/

/-- The entries a trim releases, farthest first (R63): those ahead of a stop-allowed front, or those after the exit of the passage a no-stop front stands in; none in an open passage. -/
def State.trimReleases (s : State) (c : CarrierId) : List ZoneId :=
  let v := (s.carrier c).report
  let held := (s.carrier c).held
  if v.present && v.report.motion == .stopped then
    match s.front c, s.frontIndex c with
    | some z, some i =>
      let ahead := (held.drop (i + 1)).map (·.zone)
      if s.noStop z then ((ahead.dropWhile s.noStop).drop 1).reverse else ahead.reverse
    | _, _ => []
  else []

/-- The effects of an accepted Cancel Route, in order (R62). -/
def State.cancel (s : State) (c : CarrierId) : State :=
  let s1 := if (s.carrier c).state = .waiting then (s.leaveQueue c).clearWait c else s
  let s2 := if (s1.carrier c).state = .idle then s1 else s1.enterState c .idle
  let s3 := s2.leaveClaim c
  let s4 := if (s3.carrier c).route.isSome then (s3.detachRoute c).undirect c else s3
  (s4.breakWatch c).releaseAll c (s4.trimReleases c)

/-- Cancel Route (R62). -/
def cancelRoute (carrier : Byte) (s : State) : State × Answer :=
  match carrierOf carrier with
  | none => (s, .bare .badItem)
  | some c =>
    match (s.carrier c).state with
    | .vacant | .faulted => (s, .bare .wrongState)
    | .idle | .advancing | .waiting => (s.cancel c, .ok)

/-! ## Set Carrier (R65) -/

/-- Set Carrier (R65): a change of the horizon or the claim mode of an ADVANCING carrier starts a claim pass. -/
def setCarrier (carrier claimMode horizon priority clipMode : Byte) (s : State) : State × Answer :=
  match carrierOf carrier, claimModeOf claimMode, priorityOf priority, clipModeOf clipMode with
  | some c, some m, some p, some l =>
    let h := horizon.toNat
    if h = 0 ∨ 8 < h then (s, .bare .badItem)
    else if (s.carrier c).state = .vacant then (s, .bare .wrongState)
    else
      let t := (s.modCarrier c (fun r =>
        { r with claimMode := m, horizon := h, priority := p, clipMode := l })).breakWatch c
      let changed := (s.carrier c).horizon ≠ h ∨ (s.carrier c).claimMode ≠ m
      (if changed then t.runPassIfAdvancing c else t, .ok)
  | _, _, _, _ => (s, .bare .badItem)

/-! ## Clear Fault and Retire Carrier (R67, R68) -/

/-- The zones of the entries that stand before a zone's entry in a carrier's held list, rearmost first (R67, R118). -/
def State.zonesBehind (s : State) (c : CarrierId) (z : ZoneId) : List ZoneId :=
  ((s.carrier c).held.take (heldIndex (s.carrier c).held z)).map (·.zone)

/-- Whether a FAULTED carrier's validated report lets its fault be cleared: PRESENT, code 0, both zones held, the rear's entry not after the front's (R67). -/
def State.clearable (s : State) (c : CarrierId) : Bool :=
  let v := (s.carrier c).report
  let held := (s.carrier c).held
  v.present && v.report.code == 0 &&
    match v.report.front, v.report.rear with
    | some f, some r => s.holds c f && s.holds c r && heldIndex held r ≤ heldIndex held f
    | _, _ => false

/-- The effects of an accepted Clear Fault (R67). -/
def State.clearFaultOf (s : State) (c : CarrierId) : State :=
  let t := match s.rear c with
    | none => s
    | some r => s.releaseAll c (s.zonesBehind c r)
  (t.modCarrier c (fun x => { x with fault := none })).enterState c .idle

/-- Clear Fault (R67). -/
def clearFault (carrier : Byte) (s : State) : State × Answer :=
  match carrierOf carrier with
  | none => (s, .bare .badItem)
  | some c =>
    if (s.carrier c).state ≠ .faulted then (s, .bare .wrongState)
    else if !s.clearable c then (s, .bare .reportMismatch)
    else (s.clearFaultOf c, .ok)

/-- The effects of an accepted Retire Carrier (R68). -/
def State.retire (s : State) (c : CarrierId) : State :=
  ((s.releaseAll c ((s.carrier c).held.map (·.zone))).modCarrier c (fun x => { x with fault := none })
    ).enterState c .vacant

/-- Retire Carrier (R68): a carrier with a route must have its route cancelled first; an IDLE or FAULTED one has none (R54). -/
def retireCarrier (carrier : Byte) (s : State) : State × Answer :=
  match carrierOf carrier with
  | none => (s, .bare .badItem)
  | some c =>
    match (s.carrier c).state with
    | .vacant | .advancing | .waiting => (s, .bare .wrongState)
    | .idle | .faulted => if (s.carrier c).route.isSome then (s, .bare .wrongState) else (s.retire c, .ok)

/-! ## Reading carriers (R70) -/

/-- The STATUS part of Read Carrier (R70). -/
def State.carrierStatusBytes (s : State) (c : CarrierId) : List Byte :=
  let r := s.carrier c
  [carrierStateByte r.state] ++ validatedBytes r.report ++ [byteOf r.held.length, finByte (farthestGranted r.held)]
    ++ [finByte r.route] ++ cursorBytes r.cursor ++ halfBytes r.laps
    ++ [claimModeByte r.claimMode, byteOf r.horizon, priorityByte r.priority, clipModeByte r.clipMode]
    ++ [waitCauseByte r.wait, waitObjectByte r.wait] ++ halfBytes (BitVec.ofNat 16 r.waitAge)
    ++ orderBytes r.lastOrder ++ [finByte r.authority, clipReasonByte r.clip, speedByte r.speed]
    ++ [faultKindByte r.fault, carrierFlagsByte r.flags, boolByte (s.pinToken == some c)]

/-- Read Carrier (R70). -/
def readCarrierAnswer (carrier part : Byte) (s : State) : Answer :=
  match carrierOf carrier, recordPartOf part with
  | some c, some .status => ⟨.ok, s.carrierStatusBytes c⟩
  | some c, some .held =>
    ⟨.ok, byteOf (s.carrier c).held.length :: (s.carrier c).held.flatMap heldEntryBytes⟩
  | _, _ => .bare .badItem

/-- The STATUS part of a fault record: every field but the held list, with its entry count in the list's place (R70, log 13). -/
def FaultRecord.statusBytes (r : FaultRecord) : List Byte :=
  [faultKindByte r.kind] ++ halfBytes r.frame ++ validatedBytes r.report ++ [byteOf r.held.length]
    ++ [finByte r.route] ++ cursorBytes r.cursor ++ halfBytes r.laps
    ++ [waitCauseByte r.wait, waitObjectByte r.wait] ++ orderBytes r.order
    ++ [finByte r.authority, clipReasonByte r.clip, speedByte r.speed]

/-- Read Fault Record (R70). -/
def readFaultRecordAnswer (carrier part : Byte) (s : State) : Answer :=
  match carrierOf carrier, recordPartOf part with
  | some c, some .status => ⟨.ok, (s.carrier c).faultRecord.statusBytes⟩
  | some c, some .held => ⟨.ok, (s.carrier c).faultRecord.held.flatMap heldEntryBytes⟩
  | _, _ => .bare .badItem

/-! ## The watch (R165, R166) -/

/-- Watch Carrier (R165). -/
def watchCarrier (slot : MgmtSlot) (carrier : Byte) (s : State) : State × Answer :=
  match carrierOf carrier with
  | none => (s, .bare .badItem)
  | some c =>
    let r := s.carrier c
    (s.setWatch slot ⟨some c, true⟩,
      ⟨.ok, [carrierStateByte r.state, finByte r.route] ++ cursorBytes r.cursor ++ [finByte (farthestGranted r.held)]⟩)

/-- The effects of an applied Replace Route, in order (R166). -/
def State.replace (s : State) (c : CarrierId) (r : RouteId) (h : HopIdx) : State :=
  let s1 := if (s.carrier c).state = .waiting then (s.leaveQueue c).clearWait c else s
  let s2 := s1.leaveClaim c
  let s3 := (s2.takeRoute c r h).undirect c
  let s4 := if (s3.carrier c).state = .advancing then s3 else s3.enterState c .advancing
  (s4.breakWatch c).runPass c

/-- Replace Route (R166): whatever the answer, the sending slot's watch becomes NONE. -/
def replaceRoute (slot : MgmtSlot) (carrier route : Byte) (hop : Half) (s : State) : State × Answer :=
  let t := s.setWatch slot ⟨none, false⟩
  match carrierOf carrier, routeOf route, hopOf hop with
  | some c, some r, some h =>
    if s.mode = .safe then (t, .bare .notInService)
    else if s.watch slot ≠ ⟨some c, true⟩ then (t, .bare .watchBroken)
    else if (s.carrier c).state = .vacant ∨ (s.carrier c).state = .faulted then (t, .bare .wrongState)
    else if !(s.route r).defined || !(s.route r).inRange h then (t, .bare .badItem)
    else if farthestGranted (s.carrier c).held ≠ some (s.hopZone h) then (t, .check ⟨.startZone, h.val⟩)
    else (t.replace c r h, .ok)
  | _, _, _ => (t, .bare .badItem)

/-- ADMIT_CARRIER (R58). -/
def execAdmitCarrier (slot : MgmtSlot) (carrier front rear : Byte) (s : State) : Host.Outcome State Fault Refusal :=
  .next (takeCommand slot 0x10 s (changing (admitCarrier carrier front rear)))

/-- ASSIGN_ROUTE (R61). -/
def execAssignRoute (slot : MgmtSlot) (carrier route : Byte) (s : State) : Host.Outcome State Fault Refusal :=
  .next (takeCommand slot 0x11 s (changing (assignRoute carrier route)))

/-- CANCEL_ROUTE (R62). -/
def execCancelRoute (slot : MgmtSlot) (carrier : Byte) (s : State) : Host.Outcome State Fault Refusal :=
  .next (takeCommand slot 0x12 s (changing (cancelRoute carrier)))

/-- SET_CARRIER (R65). -/
def execSetCarrier (slot : MgmtSlot) (carrier claimMode horizon priority clipMode : Byte) (s : State) :
    Host.Outcome State Fault Refusal :=
  .next (takeCommand slot 0x13 s (changing (setCarrier carrier claimMode horizon priority clipMode)))

/-- CLEAR_FAULT (R67). -/
def execClearFault (slot : MgmtSlot) (carrier : Byte) (s : State) : Host.Outcome State Fault Refusal :=
  .next (takeCommand slot 0x14 s (changing (clearFault carrier)))

/-- RETIRE_CARRIER (R68). -/
def execRetireCarrier (slot : MgmtSlot) (carrier : Byte) (s : State) : Host.Outcome State Fault Refusal :=
  .next (takeCommand slot 0x15 s (changing (retireCarrier carrier)))

/-- READ_CARRIER (R70). -/
def execReadCarrier (slot : MgmtSlot) (carrier part : Byte) (s : State) : Host.Outcome State Fault Refusal :=
  .next (takeCommand slot 0x16 s (reading (readCarrierAnswer carrier part)))

/-- READ_FAULT_RECORD (R70). -/
def execReadFaultRecord (slot : MgmtSlot) (carrier part : Byte) (s : State) : Host.Outcome State Fault Refusal :=
  .next (takeCommand slot 0x17 s (reading (readFaultRecordAnswer carrier part)))

/-- WATCH_CARRIER (R165). -/
def execWatchCarrier (slot : MgmtSlot) (carrier : Byte) (s : State) : Host.Outcome State Fault Refusal :=
  .next (takeCommand slot 0x18 s (changing (watchCarrier slot carrier)))

/-- REPLACE_ROUTE (R166). -/
def execReplaceRoute (slot : MgmtSlot) (carrier route : Byte) (hop : Half) (s : State) :
    Host.Outcome State Fault Refusal :=
  .next (takeCommand slot 0x19 s (changing (replaceRoute slot carrier route hop)))

end Sys2Proof.Machine
end

