-- ==== Sys2Proof/Machine/Reports.lean ====
section
/-! DEFINITION. The report validator: comparison, instability, silence, new validated reports, their checks and progress (Chapter 7). -/

namespace Sys2Proof.Machine

/-! ## Acting on a new validated report (R116-R118) -/

/-- The fault that a report's code raises, if it is not 0 (R117). -/
def codeFault (code : Fin 8) : Option FaultKind :=
  match code.val with
  | 0 => none
  | 1 => some .drive
  | 2 => some .obstacle
  | 3 => some .power
  | 4 => some .localization
  | _ => some .other

/-- The first check of R117 that a new PRESENT report fails, as the fault it raises. -/
def State.reportFault (s : State) (c : CarrierId) (r : Report) : Option FaultKind :=
  match r.front, r.rear with
  | some f, some b =>
    if !s.holdsGranted c f || !s.holdsGranted c b then some .trespass
    else if heldIndex (s.carrier c).held f < heldIndex (s.carrier c).held b then some .localization
    else codeFault r.code
  | _, _ => some .localization

/-- Progress: the entries behind the new rear are released, rearmost first, and a carrier that is then ADVANCING has a claim pass (R118); its state is asked after the releases (log 36). -/
def State.progress (s : State) (c : CarrierId) : State :=
  (match s.rear c with
    | none => s
    | some b => s.releaseAll c (s.zonesBehind c b)).runPassIfAdvancing c

/-- A new validated report is acted on by its carrier's state (R116). -/
def State.actOnReport (s : State) (c : CarrierId) : ReadReport → State
  | .absent => s
  | .present r =>
    match (s.carrier c).state with
    | .vacant | .faulted => s
    | .idle | .advancing | .waiting =>
      match s.reportFault c r with
      | some k => s.raiseFault c k
      | none => s.progress c

/-- Whether a report is new beside a validated one (R113). -/
def Validated.isNew (v : Validated) : ReadReport → Bool
  | .absent => v.present
  | .present r => !v.present || v.report != r

/-- A validated report replaced by a new one: an ABSENT one replaces the presence alone (R111, R113). -/
def Validated.replaced (v : Validated) : ReadReport → Validated
  | .absent => { v with present := false }
  | .present r => ⟨true, r⟩

/-- A report is validated: where it is new it replaces the validated report, the flags and outputs of the zones held are recomputed, and it is acted on (R113, R116). -/
def State.validate (s : State) (c : CarrierId) (r : ReadReport) : State :=
  if (s.carrier c).report.isNew r then
    ((s.modCarrier c (fun x => { x with report := x.report.replaced r })).recomputeHeld c).actOnReport c r
  else s

/-! ## Comparison, instability and silence (R113-R115) -/

/-- The report read becomes the candidate after it differed from one: the instability count rises, and a rise to 8 raises UNSTABLE (R113, R114). -/
def State.differ (s : State) (c : CarrierId) (r : ReadReport) : State :=
  let v := s.validator c
  let t := s.setValidator c { v with candidate := some r, instability := min (v.instability + 1) 8 }
  if v.instability = 7 then t.raiseFault c .unstable else t

/-- A slot's report is compared with its candidate (R113). -/
def State.compare (s : State) (c : CarrierId) (r : ReadReport) : State :=
  let v := s.validator c
  match v.candidate with
  | none => s.setValidator c { v with candidate := some r }
  | some x =>
    if x = r then (s.setValidator c { v with instability := 0 }).validate c r else s.differ c r

/-- The silence count after a report (R115). -/
def State.silenceAfter (s : State) (c : CarrierId) : ReadReport → Nat
  | .present _ => 0
  | .absent => min ((s.validator c).silence + 1) s.silenceLimit

/-- A slot's silence count is updated; an ABSENT report that changes it to the limit raises LOST (R115). -/
def State.countSilence (s : State) (c : CarrierId) (r : ReadReport) : State :=
  let n := s.silenceAfter c r
  let t := s.setValidator c { s.validator c with silence := n }
  if r = .absent ∧ n ≠ (s.validator c).silence ∧ n = s.silenceLimit then t.raiseFault c .lost else t

/-- The validator takes one slot's report: the comparison and its effects, then the silence count (R112). -/
def State.takeReport (s : State) (c : CarrierId) (r : ReadReport) : State := (s.compare c r).countSilence c r

/-- A report slot of a floor frame, whose report slots are bytes 5 to 148 (R157). -/
def reportBytesAt (frame : List Byte) (c : CarrierId) : ReportBytes :=
  ⟨frame.getD (5 + 3 * c.val) 0, frame.getD (6 + 3 * c.val) 0, frame.getD (7 + 3 * c.val) 0⟩

/-- The validator takes the 48 report slots of a frame, in slot order (R112). -/
def State.takeReports (s : State) (frame : List Byte) : State :=
  allCarriers.foldl (fun t c => t.takeReport c (readReport (reportBytesAt frame c))) s

/-- The loss of the floor port: every candidate becomes EMPTY (R112, R153). -/
def State.emptyCandidates (s : State) : State :=
  allCarriers.foldl (fun t c => t.setValidator c { t.validator c with candidate := none }) s

/-- SILENCE_LIMIT_REACHED (R115): an ABSENT report of a slot, its comparison made, brings the silence count to the limit. Where the event's conditions do not hold it is no event and changes nothing (log 2). -/
def execSilenceLimitReached (carrier : CarrierId) (s : State) : Host.Outcome State Fault Refusal :=
  let n := s.silenceAfter carrier .absent
  .next
    (if s.resetPin then s
    else if s.floorPort.state = .synced ∧ n ≠ (s.validator carrier).silence ∧ n = s.silenceLimit then
      s.countSilence carrier .absent
    else s)

/-- INSTABILITY_LIMIT_REACHED (R114): a report of a slot differs from its candidate and brings the instability count to 8. The row makes the comparison alone: the silence update that follows it in a frame (R115) is no part of the event (the model's choice, log 2). Where the event's conditions do not hold it is no event and changes nothing (log 2). -/
def execInstabilityLimitReached (carrier : CarrierId) (report : ReportBytes) (s : State) :
    Host.Outcome State Fault Refusal :=
  .next
    (if s.resetPin then s
    else if s.floorPort.state = .synced ∧ (s.validator carrier).instability = 7 then
      match (s.validator carrier).candidate with
      | none => s
      | some x => if x = readReport report then s else s.differ carrier (readReport report)
    else s)

end Sys2Proof.Machine
end

