-- ==== Sys2Proof/Machine/Stamp.lean ====
section
/-! DEFINITION. The authority stamper: base cases, clear-through, the walk and the back-up, the reading of the order, speed and clip reasons (Chapter 6). -/

namespace Sys2Proof.Machine

/-- What the stamper gives a slot beside the order kind (R97). -/
structure Stamp where
  authority : Option ZoneId
  speed : Speed
  clip : ClipReason
  deriving DecidableEq, Repr

/-- The zone of the entry at a place of a held list. -/
def zoneAt (held : List HeldEntry) (i : Nat) : Option ZoneId := held[i]?.map (·.zone)

/-- Whether a zone is blocked (R10). -/
def State.blocked (s : State) (z : ZoneId) : Bool := (s.zst z).blocked

/-- Whether a walk passes an entry: GRANTED and not blocked (R100, R101). -/
def State.passes (s : State) (e : HeldEntry) : Bool := e.status == .granted && !s.blocked e.zone

/-- Whether a walk along some entries stops before a blocked one (R101, log 22). -/
def State.cutByBlock (s : State) (l : List HeldEntry) : Bool :=
  match (l.dropWhile s.passes).head? with
  | none => false
  | some e => s.blocked e.zone

/-- The speed cap of the hop that the front entry refers to, or 3 without a reference (R100, R108). -/
def State.frontCap (s : State) (held : List HeldEntry) (i : Nat) : Speed :=
  match held[i]?.bind (·.ref) with
  | none => 3
  | some x => (s.hop x.hop).cap

/-! ## Clear-through (R100) -/

/-- The rest of a passage: its no-stop entries and its exit, where the list holds it (R3). -/
def State.passageRest (s : State) : List HeldEntry → List HeldEntry
  | [] => []
  | e :: rest => if s.noStop e.zone then e :: s.passageRest rest else [e]

/-- The stamp of a covered carrier whose front entry stands at a place of its held list (R100). -/
def State.coveredStamp (s : State) (held : List HeldEntry) (i : Nat) (front : ZoneId) : Stamp :=
  let rest := s.passageRest (held.drop (i + 1))
  if !s.noStop front then ⟨some front, s.frontCap held i, .covered⟩
  else
    ⟨zoneAt held (i + (rest.takeWhile s.passes).length), s.frontCap held i,
      if s.cutByBlock rest then .blocked else .covered⟩

/-! ## The reach (R101, R102) -/

/-- The place of the walk end, from the front entry at a place of a held list (R101). -/
def State.walkEnd (s : State) (held : List HeldEntry) (i : Nat) : Nat :=
  i + ((held.drop (i + 1)).takeWhile s.passes).length

/-- The place where the run of no-stop entries that ends at a place begins: that place plus 1 when its entry is stop-allowed. -/
def State.runStart (s : State) (held : List HeldEntry) (w : Nat) : Nat :=
  ((held.take (w + 1)).reverse.dropWhile (fun e => s.noStop e.zone)).length

/-- The place of the reach F: the walk end, moved back before a passage it would end in, and never before the front (R102). -/
def State.reach (s : State) (held : List HeldEntry) (i : Nat) : Nat :=
  if i < s.runStart held (s.walkEnd held i) then s.runStart held (s.walkEnd held i) - 1 else i

/-! ## Reading the order (R103-R107) -/

/-- The place of a zone from the front to the reach, both included, if it stands there (R104). -/
def placeBetween (held : List HeldEntry) (i f : Nat) (z : ZoneId) : Option Nat :=
  ((held.take (f + 1)).drop i).findIdx? (fun e => e.zone == z) |>.map (· + i)

/-- The place of the first stop-allowed entry from a place on: the exit of a no-stop zone's passage (R104), or the list's length in an open one, whose missing exit so counts as one beyond the reach (the model's choice, log 38). -/
def State.exitPlace (s : State) (held : List HeldEntry) (j : Nat) : Nat :=
  j + ((held.drop j).takeWhile (fun e => s.noStop e.zone)).length

/-- The authority and clip reason that an order gives a carrier that is in no base case and not covered (R103-R106). -/
def State.readOrderStamp (s : State) (c : CarrierId) (held : List HeldEntry) (i : Nat) (o : Order) :
    Option ZoneId × ClipReason :=
  let f := s.reach held i
  let cut := s.cutByBlock (held.drop (i + 1))
  match o.kind with
  | .hold => (zoneAt held i, .none)
  | .goFull => (zoneAt held f, if cut then .blocked else .none)
  | .goTo =>
    match o.targetZone with
    | none => (zoneAt held i, .offRoute)
    | some z =>
      match placeBetween held i f z with
      | some j =>
        if s.exitPlace held j ≤ f then (zoneAt held (s.exitPlace held j), .none)
        else (zoneAt held f, if cut then .blocked else .none)
      | none =>
        if (held.drop (f + 1)).any (fun e => e.zone == z) || s.onRouteAhead c z then
          (match (s.carrier c).clipMode with
            | .saturate => zoneAt held f
            | .refuse => zoneAt held i,
            if cut then .blocked else .beyondGrant)
        else (zoneAt held i, .offRoute)

/-! ## The stamp of a slot (R97-R99, R108, R109) -/

/-- The lesser of two speed classes (R108). -/
def lesserSpeed (a b : Speed) : Speed := if a.val ≤ b.val then a else b

/-- The stamp of a carrier slot: the first case of R99 that applies, then coverage (R100), then the order (R101-R108). -/
def State.stampOf (s : State) (c : CarrierId) : Stamp :=
  let r := s.carrier c
  if r.state = .vacant then ⟨none, 0, .none⟩
  else if s.stopMarker then ⟨s.front c, 0, .stop⟩
  else if s.mode = .safe then ⟨s.front c, 0, .stop⟩
  else if r.state = .faulted then ⟨s.front c, 0, .stop⟩
  else if s.linkFlag then ⟨s.front c, 0, .covered⟩
  else match s.front c, s.frontIndex c with
    | some z, some i =>
      if s.covered c then s.coveredStamp r.held i z
      else
        let a := s.readOrderStamp c r.held i (s.orderRead c)
        ⟨a.1, lesserSpeed (s.orderRead c).speed (s.frontCap r.held i), a.2⟩
    | _, _ => ⟨s.front c, 0, .stop⟩

/-- A carrier record after its stamp: authority, speed and clip reason written, and CLIP set where the reason leaves NONE (R97, R109). -/
def Carrier.stamped (r : Carrier) (x : Stamp) : Carrier :=
  { r with
    authority := x.authority, speed := x.speed, clip := x.clip,
    flags := if r.clip = .none ∧ x.clip ≠ .none then { r.flags with clip := true } else r.flags }

/-- The 48 slots are stamped (R97). -/
def State.stampAll (s : State) : State :=
  allCarriers.foldl (fun t c => t.modCarrier c (fun r => r.stamped (s.stampOf c))) s

end Sys2Proof.Machine
end

