-- ==== Sys2Proof/Machine/Management.lean ====
section
/-! DEFINITION. The management unit's own commands: Identify, events, district parameters, the deadlock record, Checksum, Enter and Leave Service with the audit (Chapter 11). -/

namespace Sys2Proof.Machine

/-! ## The check word (R149) -/

/-- One bit of the CRC with polynomial x^16+x^12+x^5+1 (R149). -/
def crcShift (c : Half) : Half := if c.msb then (c <<< 1) ^^^ 0x1021 else c <<< 1

/-- A byte enters the CRC, most significant bit first (R149). -/
def crcByte (c : Half) (b : Byte) : Half :=
  crcShift (crcShift (crcShift (crcShift (crcShift (crcShift (crcShift (crcShift (c ^^^ (b ++ (0 : Byte))))))))))

/-- The 16-bit CRC of some bytes, from FFFFh, with no final inversion (R149). -/
def crc (l : List Byte) : Half := l.foldl crcByte 0xFFFF

/-! ## Identify, parameters and events -/

/-- Identify: its answer, and the reset cause becomes NONE (R172). -/
def identify (s : State) : State × Answer :=
  ({ s with resetCause := .none },
    ⟨.ok, [Config.vendorCode] ++ halfBytes Config.partNumber
      ++ [Config.revision, s.districtCode.setWidth 8, modeByte s.mode, resetCauseByte s.resetCause]⟩)

/-- Read District Parameters (R164). -/
def readDistrictParametersAnswer (s : State) : Answer :=
  ⟨.ok, halfBytes (BitVec.ofNat 16 s.silenceLimit) ++ halfBytes (BitVec.ofNat 16 s.clearPersistence)
    ++ halfBytes (BitVec.ofNat 16 s.starvationLimit)⟩

/-- Write District Parameters (R164). -/
def writeDistrictParameters (silence persistence starvation : Half) (s : State) : State × Answer :=
  let a := silence.toNat
  let b := persistence.toNat
  let c := starvation.toNat
  if a < 4 ∨ 255 < a ∨ b < 1 ∨ 255 < b ∨ c < 40 ∨ 2000 < c then (s, .bare .badItem)
  else ({ s with silenceLimit := a, clearPersistence := b, starvationLimit := c }, .ok)

/-- Every event flag is cleared (R170). -/
def State.clearFlags (s : State) : State :=
  allCarriers.foldl (fun t c => t.modCarrier c (fun r => { r with flags := .cleared }))
    { s with flags := ⟨false, false, false, false, false, false⟩ }

/-- Read Events: the flags of the 48 carriers in slot order, then those of the district, all cleared (R170, log 13). -/
def readEvents (s : State) : State × Answer :=
  (s.clearFlags,
    ⟨.ok, allCarriers.map (fun c => carrierFlagsByte (s.carrier c).flags) ++ [districtFlagsByte s.flags]⟩)

/-- Set Event Mask (R170). -/
def setEventMask (masks : Half) (s : State) : State × Answer := ({ s with masks := masks.setWidth 11 }, .ok)

/-- The attention bit: a flag whose mask is enabled is set (R156, R170). -/
def State.attention (s : State) : Bool :=
  districtFlagsByte s.flags &&& (s.masks.extractLsb' 0 6).setWidth 8 != 0
    || allCarriers.any (fun c => carrierFlagsByte (s.carrier c).flags &&& (s.masks.extractLsb' 6 5).setWidth 8 != 0)

/-- Read Deadlock Record: frame number, member count, and eight members, each a slot and its wait object, NONE where there is no such member (R95, R171). -/
def readDeadlockRecordAnswer (s : State) : Answer :=
  ⟨.ok, halfBytes s.deadlock.frame ++ [byteOf s.deadlock.count]
    ++ s.deadlock.members.flatMap (fun m => [byteOf m.1.val, byteOf m.2.val])
    ++ List.replicate (2 * (8 - s.deadlock.members.length)) 255⟩

/-! ## Checksum (R167) -/

/-- The bytes a checksum is taken over: zones, corridors, routes without their users counts, hops (R167). -/
def State.configurationBytes (s : State) : List Byte :=
  allZones.flatMap (fun z => zoneBytes (s.zone z)) ++ allCorridors.flatMap s.corridorBytes
    ++ allRoutes.flatMap (fun r => routeBytes (s.route r))
    ++ (List.finRange 2048).flatMap (fun h => [byteOf (s.hop h).zone.val, speedByte (s.hop h).cap])

/-- The completion of a Checksum: OK, or STALE after a table write from the other slot, with the value (R167). -/
def State.checksumAnswer (s : State) (written : Bool) : Answer :=
  ⟨if written then .stale else .ok, halfBytes (crc s.configurationBytes)⟩

/-! ## Enter and Leave Service (R168, R169) -/

/-- The audit: corridor gaps in corridor order, then the route checks of the defined routes in route order (R169). -/
def State.audit (s : State) : Option CheckFailure :=
  firstFailure
    (allCorridors.map (fun k => if s.gapFree k then none else some ⟨.corridorGap, k.val⟩)
      ++ (allRoutes.filter (fun r => (s.route r).defined)).map s.routeCheck)

/-- Enter Service: WRONG_STATE in SERVICE mode; in SAFE mode the machine stays EXECUTING (R168). -/
def enterService (s : State) : State × Reply :=
  match s.mode with
  | .service => (s, .answer (.bare .wrongState))
  | .safe => (s, .executing .enterService)

/-- The completion of an Enter Service (R168). -/
def State.enterAnswer (s : State) (written : Bool) : State × Answer :=
  if written then (s, .bare .tablesChanged)
  else match s.audit with
    | some f => (s, ⟨.auditFailed, f.bytes⟩)
    | none => ({ s with mode := .service }, .ok)

/-- Leave Service (R168). -/
def leaveService (s : State) : State × Answer :=
  if s.mode = .safe ∨ allCarriers.any (fun c =>
      (s.carrier c).state == .advancing || (s.carrier c).state == .waiting) then (s, .bare .wrongState)
  else ({ s with mode := .safe }, .ok)

/-! ## Completion (R167, R168) -/

/-- The command EXECUTING in a slot completes: its effect is made and its machine passes to ANSWERING (R167, R168). -/
def State.complete (s : State) (slot : MgmtSlot) (job : Job) (written : Bool) : State :=
  match job with
  | .checksum => s.setMachine slot (.answering ((s.checksumAnswer written).message 0x20) 0)
  | .enterService => (s.enterAnswer written).1.setMachine slot (.answering ((s.enterAnswer written).2.message 0x21) 0)

/-- A slot's completion at an expiry: the first expiry after the command is noted, the second completes it (R167, R168). -/
def State.completionPart (s : State) (slot : MgmtSlot) : State :=
  match s.machine slot with
  | .executing job n written => if n = 0 then s.setMachine slot (.executing job 1 written) else s.complete slot job written
  | .idle | .receiving _ _ | .answering _ _ => s

/-- The completion of a job whose first expiry has passed (log 2). -/
def State.completeJob (s : State) (slot : MgmtSlot) (job : Job) : State :=
  if s.resetPin then s
  else match s.machine slot with
    | .executing j n written => if j = job ∧ 1 ≤ n then s.complete slot job written else s
    | .idle | .receiving _ _ | .answering _ _ => s

/-- IDENTIFY (R172). -/
def execIdentify (slot : MgmtSlot) (s : State) : Host.Outcome State Fault Refusal :=
  .next (takeCommand slot 0x01 s (changing identify))

/-- READ_DEADLOCK_RECORD (R171). -/
def execReadDeadlockRecord (slot : MgmtSlot) (s : State) : Host.Outcome State Fault Refusal :=
  .next (takeCommand slot 0x1B s (reading readDeadlockRecordAnswer))

/-- READ_EVENTS (R170). -/
def execReadEvents (slot : MgmtSlot) (s : State) : Host.Outcome State Fault Refusal :=
  .next (takeCommand slot 0x1C s (changing readEvents))

/-- SET_EVENT_MASK (R170). -/
def execSetEventMask (slot : MgmtSlot) (masks : Half) (s : State) : Host.Outcome State Fault Refusal :=
  .next (takeCommand slot 0x1D s (changing (setEventMask masks)))

/-- READ_DISTRICT_PARAMETERS (R164). -/
def execReadDistrictParameters (slot : MgmtSlot) (s : State) : Host.Outcome State Fault Refusal :=
  .next (takeCommand slot 0x1E s (reading readDistrictParametersAnswer))

/-- WRITE_DISTRICT_PARAMETERS (R164). -/
def execWriteDistrictParameters (slot : MgmtSlot) (silence persistence starvation : Half) (s : State) :
    Host.Outcome State Fault Refusal :=
  .next (takeCommand slot 0x1F s (changing (writeDistrictParameters silence persistence starvation)))

/-- CHECKSUM (R167). -/
def execChecksum (slot : MgmtSlot) (s : State) : Host.Outcome State Fault Refusal :=
  .next (takeCommand slot 0x20 s (fun t => (t, .executing .checksum)))

/-- CHECKSUM_COMPLETION (R167). -/
def execChecksumCompletion (slot : MgmtSlot) (s : State) : Host.Outcome State Fault Refusal :=
  .next (s.completeJob slot .checksum)

/-- ENTER_SERVICE (R168). -/
def execEnterService (slot : MgmtSlot) (s : State) : Host.Outcome State Fault Refusal :=
  .next (takeCommand slot 0x21 s enterService)

/-- ENTER_SERVICE_COMPLETION (R168). -/
def execEnterServiceCompletion (slot : MgmtSlot) (s : State) : Host.Outcome State Fault Refusal :=
  .next (s.completeJob slot .enterService)

/-- LEAVE_SERVICE (R168). -/
def execLeaveService (slot : MgmtSlot) (s : State) : Host.Outcome State Fault Refusal :=
  .next (takeCommand slot 0x36 s (safetyOnly slot (changing leaveService)))

end Sys2Proof.Machine
end

