-- ==== Sys2Proof/Machine/Resets.lean ====
section
/-! DEFINITION. The three kinds of reset: power-on, the reset pin and the Reset command (R172, with the reset rule of each chapter). -/

namespace Sys2Proof.Machine

/-- The part at power-on with some levels on the straps; the levels on the other pins stand, and so does the queue of commands (R172, log 25). -/
def State.powerOn (s : State) (straps : BitVec 4) : State :=
  { State.reset with
    districtCode := straps, straps := straps, stopLine := s.stopLine, resetPin := s.resetPin, pending := s.pending }

/-- The users counts are set to 0 (R37). -/
def State.clearUsers (s : State) : State :=
  allRoutes.foldl (fun t r => t.setRoute r { t.route r with users := 0 }) s

/-- Every input becomes UNCLEAR with a clear run of 0, its polarity following the bindings (R130). -/
def State.clearInputs (s : State) : State :=
  allFieldSlots.foldl (fun t f => allLines.foldl (fun u i => u.setInput f i ⟨false, 0, s.polarityValue f i⟩) t) s

/-- Every zone's field state as a reset leaves it: UNCLEAR for a defined zone with a binding, whose input is UNCLEAR (R11). -/
def State.clearFields (s : State) : State :=
  allZones.foldl (fun t z => t.setZst z { t.zst z with field := t.fieldValue z }) s

/-- A pin or command reset: the configuration, the policy, the district parameters and the event masks are kept, the pins and the queue of commands stand, and everything else is as after power-on (R2, R11, R20, R24, R35, R37, R53, R111, R130, R133, R138, R143, R144, R150-R152, R164, R165, R168, R170, R172). -/
def State.restart (s : State) (cause : ResetCause) : State :=
  ({ State.reset with
    zones := s.zones, corridors := s.corridors, routes := s.routes, hops := s.hops, policy := s.policy,
    silenceLimit := s.silenceLimit, clearPersistence := s.clearPersistence, starvationLimit := s.starvationLimit,
    masks := s.masks, resetCause := cause, districtCode := s.districtCode, straps := s.straps, stopLine := s.stopLine,
    resetPin := s.resetPin, pending := s.pending } : State).clearUsers.clearInputs.clearFields

/-- The command reset: it ends at the arrival that takes it, when the straps are read (R172, R149). -/
def State.commandReset (s : State) : State := { s.restart .resetCommand with districtCode := s.straps }

/-- RESET (R172): a safety command that is not answered. -/
def execReset (slot : MgmtSlot) (s : State) : Host.Outcome State Fault Refusal :=
  .next (takeCommand slot 0x37 s (safetyOnly slot (fun t => (t.commandReset, .silent))))

/-- RESET_PIN (R172): at its assertion the part is reset; the reset ends when the pin is released. An assertion of a pin that is asserted already is no event (log 2). -/
def execResetPin (s : State) : Host.Outcome State Fault Refusal :=
  .next (if s.resetPin then s else { s.restart .resetPin with resetPin := true })

/-- RESET_PIN_RELEASE (R172, R149): the pin reset ends and the straps are read. A release of a pin that is not asserted is no event (log 2). -/
def execResetPinRelease (straps : BitVec 4) (s : State) : Host.Outcome State Fault Refusal :=
  .next (if s.resetPin then { s with resetPin := false, straps := straps, districtCode := straps } else s)

/-- POWER_ON_RESET (R172). -/
def execPowerOnReset (straps : BitVec 4) (s : State) : Host.Outcome State Fault Refusal :=
  .next (s.powerOn straps)

end Sys2Proof.Machine
end

