-- ==== Sys2Proof/Machine/Slots.lean ====
section
/-! DEFINITION. The slot machines: fragments gathered into messages, a whole message carried out, and answers sent a fragment at a departure (R161-R163). -/

namespace Sys2Proof.Machine

/-- The state an outcome leaves; a command that answers no next state leaves the one it was given. -/
def stateAfter (s : State) : Host.Outcome State Fault Refusal → State
  | .next t => t
  | _ => s

/-- A management command that a message spells is carried out (R163); the commands that are no message are never spelled. -/
def State.carryOut (s : State) (i : Instr) : State :=
  match i with
  | .identify slot => stateAfter s (execIdentify slot s)
  | .readZone slot z => stateAfter s (execReadZone slot z s)
  | .writeZone slot w => stateAfter s (execWriteZone slot w s)
  | .setConflictPair slot a b => stateAfter s (execSetConflictPair slot a b s)
  | .clearConflictPair slot a b => stateAfter s (execClearConflictPair slot a b s)
  | .readZoneState slot z n => stateAfter s (execReadZoneState slot z n s)
  | .readCorridor slot k => stateAfter s (execReadCorridor slot k s)
  | .writeCorridor slot k d q => stateAfter s (execWriteCorridor slot k d q s)
  | .readCorridorState slot k n => stateAfter s (execReadCorridorState slot k n s)
  | .readRoute slot r => stateAfter s (execReadRoute slot r s)
  | .writeRoute slot w => stateAfter s (execWriteRoute slot w s)
  | .readHops slot h n => stateAfter s (execReadHops slot h n s)
  | .writeHops slot h l => stateAfter s (execWriteHops slot h l s)
  | .admitCarrier slot c f r => stateAfter s (execAdmitCarrier slot c f r s)
  | .assignRoute slot c r => stateAfter s (execAssignRoute slot c r s)
  | .cancelRoute slot c => stateAfter s (execCancelRoute slot c s)
  | .setCarrier slot c m h p l => stateAfter s (execSetCarrier slot c m h p l s)
  | .clearFault slot c => stateAfter s (execClearFault slot c s)
  | .retireCarrier slot c => stateAfter s (execRetireCarrier slot c s)
  | .readCarrier slot c p => stateAfter s (execReadCarrier slot c p s)
  | .readFaultRecord slot c p => stateAfter s (execReadFaultRecord slot c p s)
  | .watchCarrier slot c => stateAfter s (execWatchCarrier slot c s)
  | .replaceRoute slot c r h => stateAfter s (execReplaceRoute slot c r h s)
  | .readHolds slot p e n => stateAfter s (execReadHolds slot p e n s)
  | .readDeadlockRecord slot => stateAfter s (execReadDeadlockRecord slot s)
  | .readEvents slot => stateAfter s (execReadEvents slot s)
  | .setEventMask slot m => stateAfter s (execSetEventMask slot m s)
  | .readDistrictParameters slot => stateAfter s (execReadDistrictParameters slot s)
  | .writeDistrictParameters slot a b c => stateAfter s (execWriteDistrictParameters slot a b c s)
  | .checksum slot => stateAfter s (execChecksum slot s)
  | .enterService slot => stateAfter s (execEnterService slot s)
  | .armStopLine slot => stateAfter s (execArmStopLine slot s)
  | .resume slot => stateAfter s (execResume slot s)
  | .holdSector slot n => stateAfter s (execHoldSector slot n s)
  | .holdDistrict slot => stateAfter s (execHoldDistrict slot s)
  | .liftHold slot e => stateAfter s (execLiftHold slot e s)
  | .writePolicy slot a => stateAfter s (execWritePolicy slot a s)
  | .leaveService slot => stateAfter s (execLeaveService slot s)
  | .reset slot => stateAfter s (execReset slot s)
  | .checksumCompletion _ | .enterServiceCompletion _ | .resetPin | .resetPinRelease _ | .powerOnReset _
  | .stopLineChange _ | .frameTimerExpiry _ | .floorFrameArrival _ _ | .dispatcherFrameArrival _ | .floorPortLoss
  | .floorPortReturn _ _ | .dispatchPortLoss | .dispatchPortReturn _ | .silenceLimitReached _
  | .instabilityLimitReached _ _ | .clearPersistenceReached _ _ => s

/-! ## Fragments of commands (R161) -/

/-- A MALFORMED answer with a type (R161, R163, log 26). -/
def State.answerMalformed (s : State) (slot : MgmtSlot) (code : Byte) : State :=
  s.setMachine slot (.answering ((Answer.bare .malformed).message code) 0)

/-- A message whose LAST fragment was taken is checked and carried out (R161, R163). -/
def State.takeMessage (s : State) (slot : MgmtSlot) (m : List Byte) : State :=
  match decodeMessage slot m with
  | none => s.answerMalformed slot (m.headD 0)
  | some i => s.carryOut i

/-- A message with a fragment more, carried out when that is its LAST (R161). -/
def State.extendMessage (s : State) (slot : MgmtSlot) (m : List Byte) (next : Nat) (last : Bool) : State :=
  if last then s.takeMessage slot m else s.setMachine slot (.receiving m next)

/-- A fragment reaches a slot machine (the table of R161): bit 4 of the control byte marks a fragment, bit 7 FIRST, bit 6 LAST, bits 1-0 its index (R159). -/
def State.takeFragment (s : State) (slot : MgmtSlot) (control : Byte) (payload : List Byte) : State :=
  let first := control.getLsbD 7
  let last := control.getLsbD 6
  let index := (control.extractLsb' 0 2).toNat
  if !control.getLsbD 4 then s
  else match s.machine slot with
    | .executing _ _ _ => s
    | .answering _ _ => s
    | .idle =>
      if !first then s
      else if index = 0 then s.extendMessage slot payload 1 last
      else s.answerMalformed slot 0
    | .receiving m next =>
      if first then
        if index = 0 then s.extendMessage slot payload 1 last else s.answerMalformed slot (m.headD 0)
      else if index = next then s.extendMessage slot (m ++ payload) (next + 1) last
      else s.answerMalformed slot (m.headD 0)

/-! ## Fragments of answers (R162) -/

/-- Whether a machine shows BUSY (R162). -/
def SlotMachine.busy : SlotMachine → Bool
  | .idle => false
  | .receiving _ _ => false
  | .executing _ _ _ => true
  | .answering _ _ => true

/-- The machine after a departure has sent its answer fragment, if it had one (R162). -/
def SlotMachine.afterDeparture : SlotMachine → SlotMachine
  | .answering m n => if m.length ≤ 16 * (n + 1) then .idle else .answering m (n + 1)
  | .idle => .idle
  | .receiving b n => .receiving b n
  | .executing j n w => .executing j n w

/-- The answer slot of a departure: the control byte, BUSY as the machine stands once the fragment is placed, and the 16 payload bytes (R159, R162). -/
def SlotMachine.answerSlot (m : SlotMachine) : List Byte :=
  let busy : Byte := if m.afterDeparture.busy then 0x20 else 0
  match m with
  | .answering b n =>
    let control := 0x10 ||| (if n = 0 then 0x80 else 0) ||| (if b.length ≤ 16 * (n + 1) then 0x40 else 0)
      ||| byteOf (n % 4)
    let part := (b.drop (16 * n)).take 16
    (control ||| busy) :: (part ++ List.replicate (16 - part.length) 0)
  | _ => busy :: List.replicate 16 0

/-- The loss of a slot's port: its machine returns to IDLE from any state (R162). -/
def State.endMessage (s : State) (slot : MgmtSlot) : State := s.setMachine slot .idle

end Sys2Proof.Machine
end

