-- ==== Sys2Proof/WellFormed.lean ====
section
/-! DEFINITION. Which commands a sender can send: what a message can carry (R159) and what an order of blocks can be (R148, R151). The machine gives every command a meaning, well formed or not. -/

namespace Sys2Proof

/-- The parts of an expiry in the order the model takes them where the command names none (R148). -/
def ExpiryPart.all : List ExpiryPart :=
  [.operatorCompletion, .safetyCompletion, .floorClose, .dispatchClose, .engine, .floorDepart, .dispatchDepart]

/-- The blocks of a floor frame in the order the model takes them where the command names none (R151). -/
def FloorBlock.all : List FloorBlock := [.holdUnit, .validator, .monitor, .management]

/-- An order of an expiry's parts names each part once, and each port closes its window before it departs (R148). -/
def expiryOrderOk (order : List ExpiryPart) : Bool :=
  ExpiryPart.all.all (fun p => order.count p == 1) && order.length == 7
    && order.idxOf .floorClose < order.idxOf .floorDepart
    && order.idxOf .dispatchClose < order.idxOf .dispatchDepart

/-- An order of the blocks of a floor frame names each block once (R151). -/
def floorOrderOk (order : List FloorBlock) : Bool :=
  FloorBlock.all.all (fun b => order.count b == 1) && order.length == 4

/-- What a sender can send. A Write Hops message has room for 29 hops, 3 plus twice 29 being at most 62 parameter bytes (R159); the entry of Read Holds is carried for CAUSES only (R171) and 0 is written for it otherwise, and SUMMARY has no list, so no starting index. -/
def Instr.wellFormed : Instr → Bool
  | .writeHops _ _ hops => hops.length ≤ 29
  | .readHolds _ part entry start => (part == 1 || entry == 0) && (part == 1 || part == 2 || start == 0)
  | .frameTimerExpiry order => expiryOrderOk order
  | .floorFrameArrival order _ => floorOrderOk order
  | .floorPortReturn order _ => floorOrderOk order
  | .identify _ | .readZone _ _ | .writeZone _ _ | .setConflictPair _ _ _ | .clearConflictPair _ _ _
  | .readZoneState _ _ _ | .readCorridor _ _ | .writeCorridor _ _ _ _ | .readCorridorState _ _ _
  | .readRoute _ _ | .writeRoute _ _ | .readHops _ _ _ | .admitCarrier _ _ _ _ | .assignRoute _ _ _
  | .cancelRoute _ _ | .setCarrier _ _ _ _ _ _ | .clearFault _ _ | .retireCarrier _ _
  | .readCarrier _ _ _ | .readFaultRecord _ _ _ | .watchCarrier _ _ | .replaceRoute _ _ _ _
  | .readDeadlockRecord _ | .readEvents _ | .setEventMask _ _ | .readDistrictParameters _
  | .writeDistrictParameters _ _ _ _ | .checksum _ | .checksumCompletion _ | .enterService _
  | .enterServiceCompletion _ | .armStopLine _ | .resume _ | .holdSector _ _ | .holdDistrict _
  | .liftHold _ _ | .writePolicy _ _ | .leaveService _ | .reset _ | .resetPin | .resetPinRelease _
  | .powerOnReset _ | .stopLineChange _ | .dispatcherFrameArrival _ | .floorPortLoss
  | .dispatchPortLoss | .dispatchPortReturn _ | .silenceLimitReached _
  | .instabilityLimitReached _ _ | .clearPersistenceReached _ _ => true

end Sys2Proof
end

