-- ==== Sys2Proof/Machine/Link.lean ====
section
/-! DEFINITION. The District Link: good and bad frames, port states, what a frame hands on, loss and return, the frame timer's expiry and the frames the part sends (Chapter 10). -/

namespace Sys2Proof.Machine

/-! ## Frames that arrive (R149, R157, R158) -/

/-- A 16-bit quantity of a frame, most significant byte first (R157). -/
def halfAt (frame : List Byte) (n : Nat) : Half := halfOf (frame.getD n 0) (frame.getD (n + 1) 0)

/-- Whether a frame is good: its length, its check word in its last two bytes, its echo and its district code (R149, log 31). -/
def frameGood (length echoAt codeAt : Nat) (number : Half) (code : BitVec 4) (frame : List Byte) : Bool :=
  frame.length == length && halfAt frame (length - 2) == crc (frame.take (length - 2))
    && halfAt frame echoAt == number && frame.getD codeAt 0 == code.setWidth 8

/-- Whether a frame is a good floor frame as the part stands (R149, R157). -/
def State.floorFrameGood (s : State) (frame : List Byte) : Bool :=
  frameGood 200 2 4 s.floorPort.frame s.districtCode frame

/-- Whether a frame is a good dispatcher frame as the part stands (R149, R158). -/
def State.dispatchFrameGood (s : State) (frame : List Byte) : Bool :=
  frameGood 118 0 2 s.dispatchPort.frame s.districtCode frame

/-! ## Port states (R150) -/

/-- A port after it has counted a good frame (R150). -/
def Port.countGood (p : Port) : Port :=
  match p.state with
  | .synced => { p with badRun := 0 }
  | .lost => if 2 ≤ p.goodRun + 1 then { p with state := .synced, goodRun := 0, badRun := 0 } else { p with goodRun := p.goodRun + 1 }

/-- A port after it has counted a bad frame (R150). -/
def Port.countBad (p : Port) : Port :=
  match p.state with
  | .synced => if 3 ≤ p.badRun + 1 then { p with state := .lost, goodRun := 0, badRun := 0 } else { p with badRun := p.badRun + 1 }
  | .lost => { p with goodRun := 0 }

/-! ## The floor port (R150, R151, R153) -/

/-- The floor port has become LOST: FLOOR_LINK, the link flag, the candidates, the inputs and the safety message (R150, R153). -/
def State.loseFloor (s : State) : State :=
  (s.flagFloorLink.setLink.emptyCandidates.monitorLoss).endMessage .safety

/-- The floor port counts a bad frame, which the field monitor takes first while the port is SYNCED (R150, R123). -/
def State.floorBad (s : State) : State :=
  match s.floorPort.state with
  | .lost => { s with floorPort := s.floorPort.countBad }
  | .synced =>
    let t := s.monitorBad
    let u := { t with floorPort := t.floorPort.countBad }
    if u.floorPort.state = .lost then u.loseFloor else u

/-- One block takes a handed-on floor frame at its moment (R151); the hold unit clears the link flag where the frame made the port SYNCED (R142). A Reset command in the frame ends the hand-on: the port is LOST after it (log 5). -/
def State.floorBlock (s : State) (frame : List Byte) (returned : Bool) (b : FloorBlock) : State :=
  if s.floorPort.state = .lost then s
  else match b with
    | .validator => s.takeReports frame
    | .monitor => s.monitorGood frame
    | .management => s.takeFragment .safety (frame.getD 181 0) ((frame.drop 182).take 16)
    | .holdUnit => if returned then s.clearLink else s

/-- The blocks in the order a command gives, completed by those it does not name (log 5). -/
def floorSchedule (order : List FloorBlock) : List FloorBlock := (order ++ FloorBlock.all).eraseDups

/-- A floor frame is handed on (R151). -/
def State.handOnFloor (s : State) (order : List FloorBlock) (frame : List Byte) (returned : Bool) : State :=
  (floorSchedule order).foldl (fun t b => t.floorBlock frame returned b) { s with floorPartner := halfAt frame 0 }

/-- The floor port counts a good frame (R150). -/
def State.floorGood (s : State) (order : List FloorBlock) (frame : List Byte) : State :=
  let t := { s with floorPort := s.floorPort.countGood }
  match s.floorPort.state, t.floorPort.state with
  | .synced, _ => t.handOnFloor order frame false
  | .lost, .synced => t.flagFloorLink.handOnFloor order frame true
  | .lost, .lost => t

/-- A floor frame arrives: the first in an open reply window is taken; any other is discarded (R149). -/
def State.floorArrival (s : State) (order : List FloorBlock) (frame : List Byte) : State :=
  match s.floorPort.window with
  | .none => s
  | .taken => s
  | .open =>
    let t := { s with floorPort := { s.floorPort with window := .taken } }
    if t.floorFrameGood frame then t.floorGood order frame else t.floorBad

/-! ## The dispatch port (R150, R152, R154) -/

/-- A change of the order read for a carrier starts a claim pass where it is ADVANCING and ON_ORDER (R73); both are asked at the carrier's turn, not at the event (the model's reading, log 20). -/
def State.orderChange (s : State) (c : CarrierId) : State :=
  if (s.carrier c).state = .advancing ∧ (s.carrier c).claimMode = .onOrder then s.runPass c else s

/-- The order changes of some carriers are handed to the engine, in slot order, each pass complete before the next (R73, log 20). -/
def State.orderChanges (s : State) (changed : CarrierId → Bool) : State :=
  allCarriers.foldl (fun t c => if changed c then t.orderChange c else t) s

/-- The dispatch port has become LOST: DISPATCH_LINK, the operator message, and an order change for each carrier whose last order is not HOLD (R150, R154). -/
def State.loseDispatch (s : State) : State :=
  ((s.flagDispatchLink).endMessage .operator).orderChanges (fun c => (s.carrier c).lastOrder.kind != .hold)

/-- The dispatch port counts a bad frame (R150). -/
def State.dispatchBad (s : State) : State :=
  let t := { s with dispatchPort := s.dispatchPort.countBad }
  if s.dispatchPort.state = .synced ∧ t.dispatchPort.state = .lost then t.loseDispatch else t

/-- The order a dispatcher frame carries for a slot (R152, R158). -/
def orderAt (frame : List Byte) (c : CarrierId) : Order :=
  readOrder (frame.getD (3 + 2 * c.val) 0) (frame.getD (4 + 2 * c.val) 0)

/-- The 48 last orders are replaced, in slot order (R152). -/
def State.replaceOrders (s : State) (frame : List Byte) : State :=
  allCarriers.foldl (fun t c => t.modCarrier c (fun r => { r with lastOrder := orderAt frame c })) s

/-- Whether the order read for a carrier changes with a frame: it differs from the last one, or, where the frame made the port SYNCED, it is not HOLD (R73, R152, R154). -/
def State.orderReadChanges (s : State) (frame : List Byte) (returned : Bool) (c : CarrierId) : Bool :=
  if returned then (orderAt frame c).kind != .hold else orderAt frame c != (s.carrier c).lastOrder

/-- A dispatcher frame is handed on: the orders, then the operator slot, then the order changes (R152). -/
def State.handOnDispatch (s : State) (frame : List Byte) (returned : Bool) : State :=
  ((s.replaceOrders frame).takeFragment .operator (frame.getD 99 0) ((frame.drop 100).take 16)).orderChanges
    (s.orderReadChanges frame returned)

/-- The dispatch port counts a good frame (R150). -/
def State.dispatchGood (s : State) (frame : List Byte) : State :=
  let t := { s with dispatchPort := s.dispatchPort.countGood }
  match s.dispatchPort.state, t.dispatchPort.state with
  | .synced, _ => t.handOnDispatch frame false
  | .lost, .synced => t.flagDispatchLink.handOnDispatch frame true
  | .lost, .lost => t

/-- A dispatcher frame arrives (R149). -/
def State.dispatchArrival (s : State) (frame : List Byte) : State :=
  match s.dispatchPort.window with
  | .none => s
  | .taken => s
  | .open =>
    let t := { s with dispatchPort := { s.dispatchPort with window := .taken } }
    if t.dispatchFrameGood frame then t.dispatchGood frame else t.dispatchBad

/-! ## Frames that leave (R155-R158) -/

/-- A frame with its check word (R149). -/
def withCheckWord (l : List Byte) : List Byte := l ++ halfBytes (crc l)

/-- An order slot of the floor frame: the authority, the order kind in bits 1-0 and the speed class in bits 5-4 (R157). -/
def State.orderSlot (s : State) (c : CarrierId) : List Byte :=
  [finByte (s.carrier c).authority, orderKindByte (s.orderRead c).kind ||| (speedByte (s.carrier c).speed <<< 4)]

/-- The floor frame as the part stands, its slots stamped (R155, R157). -/
def State.floorFrame (s : State) : List Byte :=
  withCheckWord
    (halfBytes s.floorPort.frame ++ [s.districtCode.setWidth 8,
        boolByte s.stopMarker ||| (boolByte s.districtActive <<< 1) ||| (boolByte (s.mode == .safe) <<< 2)]
      ++ allCarriers.flatMap s.orderSlot ++ allFieldSlots.map (fun f => bitsByte (s.output f))
      ++ (s.machine .safety).answerSlot)

/-- An annotated slot of the dispatch frame; a VACANT slot shows its validated report and state alone (R156, R158). -/
def State.annotatedSlot (s : State) (c : CarrierId) : List Byte :=
  let r := s.carrier c
  if r.state = .vacant then validatedBytes r.report ++ [0, 255, 0, 255, 255]
  else
    validatedBytes r.report
      ++ [carrierStateByte r.state ||| (clipReasonByte r.clip <<< 4) ||| (boolByte (s.pinToken == some c) <<< 7),
        finByte (farthestGranted r.held), waitCauseByte r.wait, waitObjectByte r.wait, finByte r.authority]

/-- The dispatch frame as the part stands (R156, R158). -/
def State.dispatchFrame (s : State) : List Byte :=
  withCheckWord
    (halfBytes s.dispatchPort.frame ++ [s.districtCode.setWidth 8,
        boolByte s.attention ||| (boolByte (s.floorPort.state == .synced) <<< 1) ||| (boolByte (s.mode == .service) <<< 2)
          ||| (boolByte s.stopMarker <<< 3) ||| (boolByte s.districtActive <<< 4),
        bitsByte s.sectorActive]
      ++ halfBytes s.floorPartner ++ allCarriers.flatMap s.annotatedSlot
      ++ allFieldSlots.map (fun f => bitsByte (fun i => (s.input f i).clear)) ++ (s.machine .operator).answerSlot)

/-! ## The frame timer (R148) -/

/-- The floor port closes its reply window: one in which no frame was taken counts a bad frame (R148). -/
def State.closeFloor (s : State) : State :=
  let t := if s.floorPort.window = .open then s.floorBad else s
  { t with floorPort := { t.floorPort with window := .none } }

/-- The dispatch port closes its reply window (R148). -/
def State.closeDispatch (s : State) : State :=
  let t := if s.dispatchPort.window = .open then s.dispatchBad else s
  { t with dispatchPort := { t.dispatchPort with window := .none } }

/-- The floor port departs: the slots are stamped, the frame number rises, the frame is sent and the reply window opens (R148, R155, R97, R162). -/
def State.departFloor (s : State) : State :=
  let t := s.stampAll
  let u := { t with floorPort := { t.floorPort with frame := t.floorPort.frame + 1, window := .open } }
  { u with floorSent := u.floorFrame }.setMachine .safety (u.machine .safety).afterDeparture

/-- The dispatch port departs (R148, R156, R162). -/
def State.departDispatch (s : State) : State :=
  let u := { s with dispatchPort := { s.dispatchPort with frame := s.dispatchPort.frame + 1, window := .open } }
  { u with dispatchSent := u.dispatchFrame }.setMachine .operator (u.machine .operator).afterDeparture

/-- One part of an expiry. -/
def State.expiryPart (s : State) : ExpiryPart → State
  | .floorClose => s.closeFloor
  | .floorDepart => s.departFloor
  | .dispatchClose => s.closeDispatch
  | .dispatchDepart => s.departDispatch
  | .engine => s.engineExpiry
  | .operatorCompletion => s.completionPart .operator
  | .safetyCompletion => s.completionPart .safety

/-- The parts in the order a command gives, each port closing before it departs, completed by those it does not name (R148, log 4). -/
def expirySchedule (order : List ExpiryPart) : List ExpiryPart :=
  ((order ++ ExpiryPart.all).flatMap (fun p =>
    match p with
    | .floorDepart => [.floorClose, .floorDepart]
    | .dispatchDepart => [.dispatchClose, .dispatchDepart]
    | .floorClose => [.floorClose]
    | .dispatchClose => [.dispatchClose]
    | .engine => [.engine]
    | .operatorCompletion => [.operatorCompletion]
    | .safetyCompletion => [.safetyCompletion])).eraseDups

/-! ## The commands -/

/-- FRAME_TIMER_EXPIRY (R148). The timer does not run while the reset pin is asserted (R172, log 10). -/
def execFrameTimerExpiry (order : List ExpiryPart) (s : State) : Host.Outcome State Fault Refusal :=
  .next (if s.resetPin then s else (expirySchedule order).foldl State.expiryPart s)

/-- FLOOR_FRAME_ARRIVAL (R149, R151). -/
def execFloorFrameArrival (order : List FloorBlock) (frame : List Byte) (s : State) :
    Host.Outcome State Fault Refusal :=
  .next (if s.resetPin then s else s.floorArrival order frame)

/-- DISPATCHER_FRAME_ARRIVAL (R149, R152). -/
def execDispatcherFrameArrival (frame : List Byte) (s : State) : Host.Outcome State Fault Refusal :=
  .next (if s.resetPin then s else s.dispatchArrival frame)

/-- FLOOR_PORT_LOSS (R150, R153): the bad frame of an open window that makes the floor port LOST. Where the event's conditions do not hold it is no event and changes nothing (log 2). -/
def execFloorPortLoss (s : State) : Host.Outcome State Fault Refusal :=
  .next
    (if s.resetPin then s
    else if s.floorPort.state = .synced ∧ s.floorPort.badRun = 2 ∧ s.floorPort.window = .open then
      { s with floorPort := { s.floorPort with window := .taken } }.floorBad
    else s)

/-- FLOOR_PORT_RETURN (R150, R151): the good frame that makes the floor port SYNCED (log 2). -/
def execFloorPortReturn (order : List FloorBlock) (frame : List Byte) (s : State) :
    Host.Outcome State Fault Refusal :=
  .next
    (if s.resetPin then s
    else if s.floorPort.state = .lost ∧ s.floorPort.goodRun = 1 ∧ s.floorPort.window = .open
        ∧ s.floorFrameGood frame then
      { s with floorPort := { s.floorPort with window := .taken } }.floorGood order frame
    else s)

/-- DISPATCH_PORT_LOSS (R150, R154): the bad frame of an open window that makes the dispatch port LOST (log 2). -/
def execDispatchPortLoss (s : State) : Host.Outcome State Fault Refusal :=
  .next
    (if s.resetPin then s
    else if s.dispatchPort.state = .synced ∧ s.dispatchPort.badRun = 2 ∧ s.dispatchPort.window = .open then
      { s with dispatchPort := { s.dispatchPort with window := .taken } }.dispatchBad
    else s)

/-- DISPATCH_PORT_RETURN (R150, R154): the good frame that makes the dispatch port SYNCED (log 2). -/
def execDispatchPortReturn (frame : List Byte) (s : State) : Host.Outcome State Fault Refusal :=
  .next
    (if s.resetPin then s
    else if s.dispatchPort.state = .lost ∧ s.dispatchPort.goodRun = 1 ∧ s.dispatchPort.window = .open
        ∧ s.dispatchFrameGood frame then
      { s with dispatchPort := { s.dispatchPort with window := .taken } }.dispatchGood frame
    else s)

end Sys2Proof.Machine
end

