-- ==== Sys2Proof/Machine/Dispatch.lean ====
section
/-! DEFINITION. The dispatch: one arm per command, each one direct call of its meaning. -/

namespace Sys2Proof.Machine

def exec (i : Instr) (s : State) : Host.Outcome State Fault Refusal :=
  match i with
  | .identify slot => Sys2Proof.Machine.execIdentify slot s
  | .readZone slot zone => Sys2Proof.Machine.execReadZone slot zone s
  | .writeZone slot w => Sys2Proof.Machine.execWriteZone slot w s
  | .setConflictPair slot a b => Sys2Proof.Machine.execSetConflictPair slot a b s
  | .clearConflictPair slot a b => Sys2Proof.Machine.execClearConflictPair slot a b s
  | .readZoneState slot zone start => Sys2Proof.Machine.execReadZoneState slot zone start s
  | .readCorridor slot corridor => Sys2Proof.Machine.execReadCorridor slot corridor s
  | .writeCorridor slot corridor defined quota => Sys2Proof.Machine.execWriteCorridor slot corridor defined quota s
  | .readCorridorState slot corridor start => Sys2Proof.Machine.execReadCorridorState slot corridor start s
  | .readRoute slot route => Sys2Proof.Machine.execReadRoute slot route s
  | .writeRoute slot w => Sys2Proof.Machine.execWriteRoute slot w s
  | .readHops slot start count => Sys2Proof.Machine.execReadHops slot start count s
  | .writeHops slot start hops => Sys2Proof.Machine.execWriteHops slot start hops s
  | .admitCarrier slot carrier front rear => Sys2Proof.Machine.execAdmitCarrier slot carrier front rear s
  | .assignRoute slot carrier route => Sys2Proof.Machine.execAssignRoute slot carrier route s
  | .cancelRoute slot carrier => Sys2Proof.Machine.execCancelRoute slot carrier s
  | .setCarrier slot carrier claimMode horizon priority clipMode => Sys2Proof.Machine.execSetCarrier slot carrier claimMode horizon priority clipMode s
  | .clearFault slot carrier => Sys2Proof.Machine.execClearFault slot carrier s
  | .retireCarrier slot carrier => Sys2Proof.Machine.execRetireCarrier slot carrier s
  | .readCarrier slot carrier part => Sys2Proof.Machine.execReadCarrier slot carrier part s
  | .readFaultRecord slot carrier part => Sys2Proof.Machine.execReadFaultRecord slot carrier part s
  | .watchCarrier slot carrier => Sys2Proof.Machine.execWatchCarrier slot carrier s
  | .replaceRoute slot carrier route hop => Sys2Proof.Machine.execReplaceRoute slot carrier route hop s
  | .readHolds slot part entry start => Sys2Proof.Machine.execReadHolds slot part entry start s
  | .readDeadlockRecord slot => Sys2Proof.Machine.execReadDeadlockRecord slot s
  | .readEvents slot => Sys2Proof.Machine.execReadEvents slot s
  | .setEventMask slot masks => Sys2Proof.Machine.execSetEventMask slot masks s
  | .readDistrictParameters slot => Sys2Proof.Machine.execReadDistrictParameters slot s
  | .writeDistrictParameters slot silence persistence starvation => Sys2Proof.Machine.execWriteDistrictParameters slot silence persistence starvation s
  | .checksum slot => Sys2Proof.Machine.execChecksum slot s
  | .checksumCompletion slot => Sys2Proof.Machine.execChecksumCompletion slot s
  | .enterService slot => Sys2Proof.Machine.execEnterService slot s
  | .enterServiceCompletion slot => Sys2Proof.Machine.execEnterServiceCompletion slot s
  | .armStopLine slot => Sys2Proof.Machine.execArmStopLine slot s
  | .resume slot => Sys2Proof.Machine.execResume slot s
  | .holdSector slot sector => Sys2Proof.Machine.execHoldSector slot sector s
  | .holdDistrict slot => Sys2Proof.Machine.execHoldDistrict slot s
  | .liftHold slot entry => Sys2Proof.Machine.execLiftHold slot entry s
  | .writePolicy slot actions => Sys2Proof.Machine.execWritePolicy slot actions s
  | .leaveService slot => Sys2Proof.Machine.execLeaveService slot s
  | .reset slot => Sys2Proof.Machine.execReset slot s
  | .resetPin => Sys2Proof.Machine.execResetPin s
  | .resetPinRelease straps => Sys2Proof.Machine.execResetPinRelease straps s
  | .powerOnReset straps => Sys2Proof.Machine.execPowerOnReset straps s
  | .stopLineChange active => Sys2Proof.Machine.execStopLineChange active s
  | .frameTimerExpiry order => Sys2Proof.Machine.execFrameTimerExpiry order s
  | .floorFrameArrival order frame => Sys2Proof.Machine.execFloorFrameArrival order frame s
  | .dispatcherFrameArrival frame => Sys2Proof.Machine.execDispatcherFrameArrival frame s
  | .floorPortLoss => Sys2Proof.Machine.execFloorPortLoss s
  | .floorPortReturn order frame => Sys2Proof.Machine.execFloorPortReturn order frame s
  | .dispatchPortLoss => Sys2Proof.Machine.execDispatchPortLoss s
  | .dispatchPortReturn frame => Sys2Proof.Machine.execDispatchPortReturn frame s
  | .silenceLimitReached carrier => Sys2Proof.Machine.execSilenceLimitReached carrier s
  | .instabilityLimitReached carrier report => Sys2Proof.Machine.execInstabilityLimitReached carrier report s
  | .clearPersistenceReached fieldSlot input => Sys2Proof.Machine.execClearPersistenceReached fieldSlot input s

end Sys2Proof.Machine
end

