-- ==== Sys2Proof/Safety.lean ====
section
/-! DEFINITION. The words the statements use: what counts as a safe run, a slot machine that is free, the answer it then holds, what the rights engine may touch, and the invariants of the tables. -/

namespace Sys2Proof

/-- The slot of a management command; none for the commands that are no message, the completions among them. -/
def Instr.slotOf : Instr → Option MgmtSlot
  | .identify slot => some slot
  | .readZone slot _ => some slot
  | .writeZone slot _ => some slot
  | .setConflictPair slot _ _ => some slot
  | .clearConflictPair slot _ _ => some slot
  | .readZoneState slot _ _ => some slot
  | .readCorridor slot _ => some slot
  | .writeCorridor slot _ _ _ => some slot
  | .readCorridorState slot _ _ => some slot
  | .readRoute slot _ => some slot
  | .writeRoute slot _ => some slot
  | .readHops slot _ _ => some slot
  | .writeHops slot _ _ => some slot
  | .admitCarrier slot _ _ _ => some slot
  | .assignRoute slot _ _ => some slot
  | .cancelRoute slot _ => some slot
  | .setCarrier slot _ _ _ _ _ => some slot
  | .clearFault slot _ => some slot
  | .retireCarrier slot _ => some slot
  | .readCarrier slot _ _ => some slot
  | .readFaultRecord slot _ _ => some slot
  | .watchCarrier slot _ => some slot
  | .replaceRoute slot _ _ _ => some slot
  | .readHolds slot _ _ _ => some slot
  | .readDeadlockRecord slot => some slot
  | .readEvents slot => some slot
  | .setEventMask slot _ => some slot
  | .readDistrictParameters slot => some slot
  | .writeDistrictParameters slot _ _ _ => some slot
  | .checksum slot => some slot
  | .enterService slot => some slot
  | .armStopLine slot => some slot
  | .resume slot => some slot
  | .holdSector slot _ => some slot
  | .holdDistrict slot => some slot
  | .liftHold slot _ => some slot
  | .writePolicy slot _ => some slot
  | .leaveService slot => some slot
  | .reset slot => some slot
  | .checksumCompletion _ | .enterServiceCompletion _ | .resetPin | .resetPinRelease _ | .powerOnReset _
  | .stopLineChange _ | .frameTimerExpiry _ | .floorFrameArrival _ _ | .dispatcherFrameArrival _ | .floorPortLoss
  | .floorPortReturn _ _ | .dispatchPortLoss | .dispatchPortReturn _ | .silenceLimitReached _
  | .instabilityLimitReached _ _ | .clearPersistenceReached _ _ => none

/-- The commands that count as table writes when they are applied, the pair commands also where they change nothing (R167, log 33). -/
def Instr.writesTable : Instr → Bool
  | .writeZone _ _ => true
  | .setConflictPair _ _ _ => true
  | .clearConflictPair _ _ _ => true
  | .writeCorridor _ _ _ _ => true
  | .writeRoute _ _ => true
  | .writeHops _ _ _ => true
  | _ => false

/-- The commands that end the slot machines instead of answering: Reset (R172). -/
def Instr.isReset : Instr → Bool
  | .reset _ => true
  | _ => false

end Sys2Proof

namespace Sys2Proof.Machine

/-- A step that answers a next state, neither a fault nor a refusal. -/
def StepSafe (s : State) : Prop := ∃ t, step s = .next t

/-- A slot machine that takes a command: the reset pin is released and the machine is neither EXECUTING nor ANSWERING (R161). -/
def State.ready (s : State) (slot : MgmtSlot) : Prop := s.resetPin = false ∧ (s.machine slot).busy = false

/-- The state with a slot's machine ANSWERING: an answer with the type byte of its command, no fragment sent yet (R161, R162). -/
def State.answered (s : State) (slot : MgmtSlot) (code : Byte) (status : Status) (results : List Byte) : State :=
  s.setMachine slot (.answering (code :: status.code :: byteOf results.length :: results) 0)

/-- A carrier for which claim passes may be made: ADVANCING or WAITING (R72). -/
def State.active (s : State) (c : CarrierId) : Prop :=
  (s.carrier c).state = .advancing ∨ (s.carrier c).state = .waiting

/-! ## Resets -/

/-- A state right after a power-on reset (R172). -/
def AfterPowerOn (s t : State) : Prop := ∃ straps, exec (.powerOnReset straps) s = .next t

/-- A state right after the reset pin is asserted (R172). -/
def AfterPinReset (s t : State) : Prop := s.resetPin = false ∧ exec .resetPin s = .next t

/-- A state right after a Reset command that its slot machine takes (R172). -/
def AfterResetCommand (s t : State) : Prop := s.ready .safety ∧ exec (.reset .safety) s = .next t

/-- A state right after a reset that keeps the configuration. -/
def AfterKeepingReset (s t : State) : Prop := AfterPinReset s t ∨ AfterResetCommand s t

/-- A state right after any reset. -/
def AfterReset (s t : State) : Prop := AfterPowerOn s t ∨ AfterKeepingReset s t

/-! ## Records as writes carry them -/

/-- The Write Zone that carries a record for a zone; the conflict list is not carried (R1, R159). -/
def zoneWriteOf (z : ZoneId) (r : ZoneRecord) : ZoneWrite :=
  { zone := byteOf z.val, defined := boolByte r.defined, noStop := boolByte r.noStop, sector := byteOf r.sector.val,
    corridor := finByte r.corridor, position := byteOf r.position.val,
    fieldSlot := finByte (r.fieldBinding.map (·.slot)), fieldInput := finByte (r.fieldBinding.map (·.input)),
    fieldPolarity := (match r.fieldBinding with | none => 0 | some b => polarityByte b.polarity),
    requestSlot := finByte (r.requestBinding.map (·.slot)), requestOutput := finByte (r.requestBinding.map (·.output)) }

/-- What a Write Zone that carries a record writes over the record in place: its conflict list stays, and in the operator slot its bindings do (R1, R16). -/
def writtenZone (slot : MgmtSlot) (old r : ZoneRecord) : ZoneRecord :=
  match slot with
  | .operator => { r with conflicts := old.conflicts, fieldBinding := old.fieldBinding, requestBinding := old.requestBinding }
  | .safety => { r with conflicts := old.conflicts }

/-! ## When a Write Zone is applied -/

/-- A carrier waits with cause HOLD or CORRIDOR and its next claim set names the zone, or, for CORRIDOR, the visit to that corridor that the set's zones belong to does (R13; of two visits there the first, log 27, and of two corridors the one waited on alone, log 40). -/
def State.awaited (s : State) (z : ZoneId) : Prop :=
  ∃ c, (s.carrier c).state = .waiting ∧
    (((s.carrier c).wait = .hold ∧ ∃ x ∈ s.nextSet c, s.hopZone x.hop = z) ∨
      ∃ k, (s.carrier c).wait = .corridor k ∧
        ∃ x ∈ s.nextSet c ++ s.visitAt c k ((s.nextSet c).findIdx (fun x => s.hopCorridor x == some k)), s.hopZone x.hop = z)

/-- A defined route has a hop in its hop range that names the zone (R13). -/
def State.routeNames (s : State) (q : RouteId) (z : ZoneId) : Prop :=
  (s.route q).defined = true ∧ ∃ x ∈ s.hopRange q, s.hopZone x.hop = z

/-- Two records agree in the four fields that R13 guards. -/
def ZoneRecord.sameLayout (new old : ZoneRecord) : Prop :=
  new.noStop = old.noStop ∧ new.sector = old.sector ∧ new.corridor = old.corridor ∧ new.position = old.position

/-- A write of a record is not refused by R13. -/
def State.passesGuard (s : State) (z : ZoneId) (r : ZoneRecord) : Prop :=
  (s.zone z).defined = true →
    (r.defined = false → s.holder z = none ∧ (s.zst z).queue = [] ∧ ∀ q, ¬s.routeNames q z) ∧
    (r.defined = true → ¬r.sameLayout (s.zone z) → s.holder z = none ∧ (s.zst z).queue = [] ∧ ¬s.awaited z)

/-- The positions of a corridor's defined zones run from 0 without a gap: each position below their number is one of theirs (R14). -/
def State.positionsRun (s : State) (k : CorridorId) : Prop :=
  ∀ p < (allZones.filter (fun z => s.corridorOfZone z == some k)).length,
    ∃ z, s.corridorOfZone z = some k ∧ (s.zone z).position.val = p

/-- The corridor that a record names is defined, and no other defined zone has its position there (R14). -/
def State.placeFree (s : State) (z : ZoneId) (r : ZoneRecord) (k : CorridorId) : Prop :=
  (s.corridor k).defined = true ∧ ∀ w, w ≠ z → s.corridorOfZone w = some k → (s.zone w).position ≠ r.position

/-- A write of a record passes the corridor checks of R14, over the tables with the record in place: for the corridor it names, and for the one the zone leaves. -/
def State.passesCorridorChecks (s t : State) (z : ZoneId) (r : ZoneRecord) : Prop :=
  (∀ k, r.defined = true → r.corridor = some k → s.placeFree z r k ∧ (s.mode = .service → t.positionsRun k)) ∧
  (∀ k, s.mode = .service → s.corridorOfZone z = some k →
    r.defined = false ∨ r.corridor ≠ some k ∨ r.position ≠ (s.zone z).position → t.positionsRun k)

/-- A defined zone binds the input of a binding with the other polarity (R14). -/
def State.bindsAgainst (s : State) (w : ZoneId) (b : FieldBinding) : Prop :=
  (s.zone w).defined = true ∧
    ∃ a, (s.zone w).fieldBinding = some a ∧ a.slot = b.slot ∧ a.input = b.input ∧ a.polarity ≠ b.polarity

/-- A route that R15 checks when a zone's layout changes: a defined one that names the zone, or a defined one that links to such a route. -/
def State.routeTouches (s : State) (q : RouteId) (z : ZoneId) : Prop :=
  s.routeNames q z ∨ ((s.route q).defined = true ∧ (s.route q).endAction = .link ∧
    ∃ p, (s.route q).linkRoute = some p ∧ s.routeNames p z)

/-- The Write Route that carries a record for a route (R45, R159). -/
def routeWriteOf (r : RouteId) (x : RouteRecord) : RouteWrite :=
  { route := byteOf r.val, defined := boolByte x.defined, firstHop := BitVec.ofNat 16 x.firstHop.val,
    hopCount := BitVec.ofNat 16 x.hopCount, endAction := endActionByte x.endAction, lapCount := x.lapCount,
    linkRoute := finByte x.linkRoute }

/-- What a Write Route that carries a record stores: no lap count unless LOOP, no link route unless LINK, the users count as it stands (R45). -/
def storedRoute (old x : RouteRecord) : RouteRecord :=
  { x with
    lapCount := if x.endAction = .loop then x.lapCount else 0
    linkRoute := if x.endAction = .link then x.linkRoute else none
    users := old.users }

/-- A route record within its ranges: its hops lie in the hop store, and a LINK names a route (R36, R45). -/
def RouteRecord.inRanges (x : RouteRecord) : Prop :=
  2 ≤ x.hopCount ∧ x.hopCount ≤ 256 ∧ x.firstHop.val + x.hopCount ≤ 2048 ∧ (x.endAction = .link → x.linkRoute ≠ none)

/-- A hop as a Write Hops carries it (R47). -/
def hopWriteOf (h : Hop) : Byte × Byte := (byteOf h.zone.val, speedByte h.cap)

/-! ## The route checks (R46) -/

/-- The zone that a hop of a route names, by its place in the hop range (R36, R38). -/
def State.routeZone (s : State) (r : RouteId) (n : Nat) : ZoneId := s.hopZone (Fin.ofNat 2048 ((s.route r).firstHop.val + n))

/-- The hop that comes after a route's last hop: none for STOP, its own first for LOOP, whatever the lap count, and a defined link route's first for LINK (R38, R46). -/
def State.hopOverSeam (s : State) (r : RouteId) : Option HopRef :=
  match (s.route r).endAction, (s.route r).linkRoute with
  | .loop, _ => some ⟨r, (s.route r).firstHop⟩
  | .link, some q => if (s.route q).defined = true then some ⟨q, (s.route q).firstHop⟩ else none
  | _, _ => none

/-- The hops of a route as a check reads them, by their number from its first hop, on across its seams (R38, R46). -/
def State.readHop (s : State) (r : RouteId) : Nat → Option HopRef
  | 0 => some ⟨r, (s.route r).firstHop⟩
  | n + 1 => (s.readHop r n).bind (fun x =>
    if x.hop.val + 1 < (s.route x.route).firstHop.val + (s.route x.route).hopCount
      then some ⟨x.route, Fin.ofNat 2048 (x.hop.val + 1)⟩ else s.hopOverSeam x.route)

/-- The hop and the laps that a carrier's route ahead reads at a number of hops past its cursor: the next hop, and past a route's last hop what its seam gives with the laps remaining there; none where the cursor would be END (R38, R43). -/
def State.placeAhead (s : State) (c : CarrierId) : Nat → Option (HopRef × Half)
  | 0 => (match (s.carrier c).route, (s.carrier c).cursor with
    | some r, .hop h => some (⟨r, h⟩, (s.carrier c).laps)
    | _, _ => none)
  | n + 1 => (s.placeAhead c n).bind (fun p =>
    let y := s.route p.1.route
    if p.1.hop.val + 1 < y.firstHop.val + y.hopCount then some (⟨p.1.route, Fin.ofNat 2048 (p.1.hop.val + 1)⟩, p.2)
    else match y.endAction, y.linkRoute with
      | .loop, _ => if p.2 - 1 = 0 then none else some (⟨p.1.route, y.firstHop⟩, p.2 - 1)
      | .link, some q => if (s.route q).defined = true then some (⟨q, (s.route q).firstHop⟩, (s.route q).lapCount) else none
      | _, _ => none)

/-- A hop is the last of a defined route whose seam leads to a route (R25, R38). -/
def State.leadsTo (s : State) (x : HopRef) (r : RouteId) : Prop :=
  (s.route x.route).defined = true ∧ x.hop.val = (s.route x.route).firstHop.val + (s.route x.route).hopCount - 1 ∧
    ((s.route x.route).endAction = .loop ∧ x.route = r ∨ (s.route x.route).endAction = .link ∧ (s.route x.route).linkRoute = some r)

/-- The corridor of a hop of that reading. -/
def State.readCorridor (s : State) (r : RouteId) (n : Nat) : Option CorridorId :=
  (s.readHop r n).bind (fun x => s.corridorOfZone (s.hopZone x.hop))

/-- The position of a hop of that reading. -/
def State.readPosition (s : State) (r : RouteId) (n : Nat) : Nat :=
  ((s.readHop r n).map (fun x => (s.zone (s.hopZone x.hop)).position.val)).getD 0

/-- A visit of a route begins at one of its own hops (section 2.3). -/
def State.visitBegins (s : State) (r : RouteId) (k : CorridorId) (a : Nat) : Prop :=
  a < (s.route r).hopCount ∧ s.readCorridor r a = some k ∧ (a = 0 ∨ s.readCorridor r (a - 1) ≠ some k)

/-- Of the hops of a visit, the first that does not go on in the direction of the visit's first two (R46, log 15). -/
def State.turnsAt (s : State) (r : RouteId) (k : CorridorId) (a m : Nat) : Prop :=
  a < m ∧ (∀ n, a ≤ n → n ≤ m → s.readCorridor r n = some k) ∧
    if s.readPosition r a < s.readPosition r (a + 1) then
      (∀ n, a ≤ n → n + 1 < m → s.readPosition r n < s.readPosition r (n + 1)) ∧ s.readPosition r m ≤ s.readPosition r (m - 1)
    else (∀ n, a ≤ n → n + 1 < m → s.readPosition r (n + 1) < s.readPosition r n) ∧ s.readPosition r (m - 1) ≤ s.readPosition r m

/-- A row of the table of R46 fails for a route with an index; a passage is a run of no-stop zones with its exit, and for REPEATED_ZONE it is one of the route's own hops (log 35). -/
def State.rowFails (s : State) (r : RouteId) (i : Nat) : CheckKind → Prop
  | .zoneUndefined => ∃ n < (s.route r).hopCount, (s.zone (s.routeZone r n)).defined = false ∧ i = (s.route r).firstHop.val + n
  | .linkUndefined => (s.route r).endAction = .link ∧ ∃ q, (s.route r).linkRoute = some q ∧ (s.route q).defined = false ∧ i = q.val
  | .repeatedZone =>
    (∃ n, n + 1 < (s.route r).hopCount ∧ s.routeZone r n = s.routeZone r (n + 1) ∧ i = (s.route r).firstHop.val + (n + 1)) ∨
    (∃ m n, m < n ∧ n < (s.route r).hopCount ∧ (∀ l, m ≤ l → l < n → s.noStop (s.routeZone r l) = true) ∧
      s.routeZone r m = s.routeZone r n ∧ i = (s.route r).firstHop.val + n) ∨
    ∃ x, s.hopOverSeam r = some x ∧ s.hopZone x.hop = s.routeZone r ((s.route r).hopCount - 1) ∧
      i = (s.route r).firstHop.val + ((s.route r).hopCount - 1)
  | .lastNoStop => s.noStop (s.routeZone r ((s.route r).hopCount - 1)) = true ∧ i = (s.route r).firstHop.val + ((s.route r).hopCount - 1)
  | .setTooLong => ∃ a, a + 6 < (s.route r).hopCount ∧ (∀ l, a ≤ l → l < a + 6 → s.noStop (s.routeZone r l) = true) ∧
      (a = 0 ∨ s.noStop (s.routeZone r (a - 1)) = false) ∧ i = (s.route r).firstHop.val + a
  | .corridorTouch => ∃ n k, n < (s.route r).hopCount ∧ s.corridorOfZone (s.routeZone r n) = some k ∧
      (n = 0 ∨ s.corridorOfZone (s.routeZone r (n - 1)) ≠ some k) ∧
      (n + 1 = (s.route r).hopCount ∨ s.corridorOfZone (s.routeZone r (n + 1)) ≠ some k) ∧ i = (s.route r).firstHop.val + n
  | .corridorTurn => ∃ k a m x, s.visitBegins r k a ∧ s.turnsAt r k a m ∧ s.readHop r m = some x ∧ i = x.hop.val
  | _ => False

/-- The rows of the table of R46 that a route itself can fail, in their order. -/
def routeRows : List CheckKind :=
  [.zoneUndefined, .linkUndefined, .repeatedZone, .lastNoStop, .setTooLong, .corridorTouch, .corridorTurn]

/-- A failure is the first of some rows that fails, with its lowest index (R46). -/
def State.firstRow (s : State) (r : RouteId) (f : CheckFailure) : Prop :=
  ∃ before after, routeRows = before ++ f.kind :: after ∧ (∀ k ∈ before, ∀ i, ¬s.rowFails r i k) ∧ s.rowFails r f.index f.kind ∧
    ∀ i < f.index, ¬s.rowFails r i f.kind

/-- A route fails no row of the table of R46. -/
def State.routePasses (s : State) (r : RouteId) : Prop := ∀ k ∈ routeRows, ∀ i, ¬s.rowFails r i k

/-- Another defined route links to a route (R46). -/
def State.linksTo (s : State) (q r : RouteId) : Prop :=
  q ≠ r ∧ (s.route q).defined = true ∧ (s.route q).endAction = .link ∧ (s.route q).linkRoute = some r

/-- A route's seam fails REPEATED_ZONE or CORRIDOR_TURN (R46, LINK_REFERENCE). -/
def State.seamFails (s : State) (q : RouteId) : Prop :=
  (∃ x, s.hopOverSeam q = some x ∧ s.hopZone x.hop = s.routeZone q ((s.route q).hopCount - 1)) ∨
    ∃ k a m, s.visitBegins q k a ∧ s.turnsAt q k a m ∧ ∀ n, a ≤ n → n ≤ (s.route q).hopCount → s.readCorridor q n = some k

/-- A defined route that links to a route and whose seam fails, the lowest there is: the one LINK_REFERENCE names (R46). -/
def State.firstLinker (s : State) (q r : RouteId) : Prop :=
  s.linksTo q r ∧ s.seamFails q ∧ ∀ p < q, s.linksTo p r → ¬s.seamFails p

/-- No seam into a route fails. -/
def State.linkersPass (s : State) (r : RouteId) : Prop := ∀ q, s.linksTo q r → ¬s.seamFails q

/-- A defined route has one of some hops, from an index on, in its hop range (R47, R48). -/
def State.rangeMeets (s : State) (r : RouteId) (start n : Nat) : Prop :=
  (s.route r).defined = true ∧ (s.route r).firstHop.val < start + n ∧ start < (s.route r).firstHop.val + (s.route r).hopCount

/-- A route record's hop range lies in the hop store (R36). -/
def RouteRecord.placed (x : RouteRecord) : Prop := 2 ≤ x.hopCount ∧ x.firstHop.val + x.hopCount ≤ 2048

/-! ## Frames -/

/-- A good floor frame as the part stands (R149, R157). -/
structure GoodFloorFrame (s : State) (frame : List Byte) : Prop where
  length : frame.length = 200
  checkWord : halfOf (frame.getD 198 0) (frame.getD 199 0) = crc (frame.take 198)
  echo : halfOf (frame.getD 2 0) (frame.getD 3 0) = s.floorPort.frame
  code : frame.getD 4 0 = s.districtCode.setWidth 8

/-- A good dispatcher frame as the part stands (R149, R158). -/
structure GoodDispatcherFrame (s : State) (frame : List Byte) : Prop where
  length : frame.length = 118
  checkWord : halfOf (frame.getD 116 0) (frame.getD 117 0) = crc (frame.take 116)
  echo : halfOf (frame.getD 0 0) (frame.getD 1 0) = s.dispatchPort.frame
  code : frame.getD 2 0 = s.districtCode.setWidth 8

/-! ## Frames of the engine -/

/-- What the rights engine leaves of a carrier record: everything but state, held list, route, cursor, laps and wait; an event flag that is set stays set, and FAULT and CLIP stay as they are. -/
structure CarrierEngineFrame (r x : Carrier) : Prop where
  report : x.report = r.report
  claimMode : x.claimMode = r.claimMode
  horizon : x.horizon = r.horizon
  priority : x.priority = r.priority
  clipMode : x.clipMode = r.clipMode
  lastOrder : x.lastOrder = r.lastOrder
  authority : x.authority = r.authority
  clip : x.clip = r.clip
  speed : x.speed = r.speed
  fault : x.fault = r.fault
  faultRecord : x.faultRecord = r.faultRecord
  faultFlag : x.flags.fault = r.flags.fault
  clipFlag : x.flags.clip = r.flags.clip
  stateFlag : r.flags.state = true → x.flags.state = true
  waitFlag : r.flags.wait = true → x.flags.wait = true
  routeEndFlag : r.flags.routeEnd = true → x.flags.routeEnd = true

/-- What the rights engine leaves of the state: it writes holders, zone queues and blocked flags, corridor states, users counts, carrier records (but for what `CarrierEngineFrame` keeps), request outputs, the pin token, the hold wait list, the deadlock record and its flag, and it breaks watches; nothing else changes. -/
structure EngineFrame (s t : State) : Prop where
  zones : t.zones = s.zones
  fields : ∀ z, (t.zst z).field = (s.zst z).field
  corridors : t.corridors = s.corridors
  routes : ∀ r, { t.route r with users := 0 } = { s.route r with users := 0 }
  hops : t.hops = s.hops
  carriers : ∀ c, CarrierEngineFrame (s.carrier c) (t.carrier c)
  validators : t.validators = s.validators
  inputs : ∀ f, (t.fieldSlot f).inputs = (s.fieldSlot f).inputs
  policy : t.policy = s.policy
  districtHold : t.districtHold = s.districtHold
  linkFlag : t.linkFlag = s.linkFlag
  sectorHolds : t.sectorHolds = s.sectorHolds
  armLatch : t.armLatch = s.armLatch
  stopMarker : t.stopMarker = s.stopMarker
  floorPort : t.floorPort = s.floorPort
  dispatchPort : t.dispatchPort = s.dispatchPort
  floorPartner : t.floorPartner = s.floorPartner
  floorSent : t.floorSent = s.floorSent
  dispatchSent : t.dispatchSent = s.dispatchSent
  machines : ∀ slot, t.machine slot = s.machine slot
  watched : ∀ slot, (t.watch slot).carrier = (s.watch slot).carrier
  intact : ∀ slot, (t.watch slot).intact = true → (s.watch slot).intact = true
  silenceLimit : t.silenceLimit = s.silenceLimit
  clearPersistence : t.clearPersistence = s.clearPersistence
  starvationLimit : t.starvationLimit = s.starvationLimit
  mode : t.mode = s.mode
  flags : t.flags = { s.flags with deadlock := t.flags.deadlock }
  deadlockFlag : s.flags.deadlock = true → t.flags.deadlock = true
  masks : t.masks = s.masks
  resetCause : t.resetCause = s.resetCause
  districtCode : t.districtCode = s.districtCode
  straps : t.straps = s.straps
  stopLine : t.stopLine = s.stopLine
  resetPin : t.resetPin = s.resetPin
  pending : t.pending = s.pending

/-! ## Queues and claims -/

/-- What leaving its queue does to a WAITING carrier: its entry goes from the queue its wait names, the entries behind close up, and its wait fields become NONE, NONE and 0 (R8, R32, R80, R55); request outputs may be recomputed (R128). -/
structure Dequeued (s t : State) (c : CarrierId) : Prop where
  carrier : t.carrier c = { s.carrier c with wait := .none, waitAge := 0 }
  others : ∀ d, d ≠ c → t.carrier d = s.carrier d
  zoneQueues : ∀ z, t.zst z = { s.zst z with
    queue := if (s.carrier c).wait = .zone z ∨ (s.carrier c).wait = .conflict z ∨ (s.carrier c).wait = .field z
      then (s.zst z).queue.filter (fun w => w.slot != c) else (s.zst z).queue }
  corridorQueues : ∀ k, t.cst k = { s.cst k with
    queue := if (s.carrier c).wait = .corridor k then (s.cst k).queue.filter (fun w => w.slot != c) else (s.cst k).queue }
  holdWait : t.holdWait = if (s.carrier c).wait = .hold then s.holdWait.filter (fun w => w.slot != c) else s.holdWait
  inputs : ∀ f, (t.fieldSlot f).inputs = (s.fieldSlot f).inputs
  rest : t = { s with
    carriers := t.carriers, zoneStates := t.zoneStates, corridorStates := t.corridorStates, holdWait := t.holdWait,
    fieldSlots := t.fieldSlots }

/-- A zone is given up: its entry leaves the held list and the entries behind close up; its holder becomes NONE, its blocked flag clears, and request outputs are recomputed (R81 step 1, R7, R56). -/
structure GivenUp (s t : State) (c : CarrierId) (z : ZoneId) : Prop where
  carrier : t.carrier c = { s.carrier c with held := (s.carrier c).held.filter (fun e => e.zone != z) }
  others : ∀ d, d ≠ c → t.carrier d = s.carrier d
  zone : t.zst z = { s.zst z with holder := none, blocked := false }
  zones : ∀ w, w ≠ z → t.zst w = s.zst w
  inputs : ∀ f, (t.fieldSlot f).inputs = (s.fieldSlot f).inputs
  rest : t = { s with carriers := t.carriers, zoneStates := t.zoneStates, fieldSlots := t.fieldSlots }

/-- A carrier is the corridor's only directed occupant (R29, R30, R31). -/
def CorridorState.lastDirected (x : CorridorState) (c : CarrierId) : Prop :=
  (∃ o, x.occupant c = some o ∧ o.direction ≠ none) ∧ ∀ o ∈ x.occupants, o.slot ≠ c → o.direction = none

/-- A candidate for the pin token: WAITING with a cause other than HOLD, not covered, its wait age at or above the starvation limit (R90). -/
def State.mayTakeToken (s : State) (c : CarrierId) : Prop :=
  (s.carrier c).state = .waiting ∧ (s.carrier c).wait ≠ .hold ∧ s.covered c = false ∧
    s.starvationLimit ≤ (s.carrier c).waitAge

/-- A carrier enters a state: its record says so with STATE set, and the watches on it are broken (R55, R69, R165). -/
structure StateEntered (s t : State) (c : CarrierId) (x : CarrierState) : Prop where
  carrier : t.carrier c = { s.carrier c with state := x, flags := { (s.carrier c).flags with state := true } }
  others : ∀ d, d ≠ c → t.carrier d = s.carrier d
  watches : ∀ w, t.watch w = (s.watch w).breakFor c
  machines : ∀ w, t.machine w = s.machine w
  rest : t = { s with carriers := t.carriers, operatorSlot := t.operatorSlot, safetySlot := t.safetySlot }

/-- The route, cursor and laps of a carrier that takes a route after one of its hops: the next hop, or past the last hop what the seam gives (R40, R41, R42). -/
def State.placeAfter (s : State) (r : RouteId) (h : HopIdx) : RouteId × Cursor × Half :=
  let x := s.route r
  if h.val + 1 < x.firstHop.val + x.hopCount then (r, .hop (Fin.ofNat 2048 (h.val + 1)), x.lapCount)
  else match x.endAction, x.linkRoute with
    | .loop, _ => (r, if x.lapCount - 1 = 0 then .atEnd else .hop x.firstHop, x.lapCount - 1)
    | .link, some q =>
      if (s.route q).defined = true then (q, .hop (s.route q).firstHop, (s.route q).lapCount) else (r, .atEnd, x.lapCount)
    | _, _ => (r, .atEnd, x.lapCount)

/-- A carrier takes a route after one of its hops: its route, cursor and laps, and the users counts (R40, R44, R166). -/
structure RouteTaken (s t : State) (c : CarrierId) (r : RouteId) (h : HopIdx) : Prop where
  carrier : t.carrier c = { s.carrier c with
    route := some (s.placeAfter r h).1, cursor := (s.placeAfter r h).2.1, laps := (s.placeAfter r h).2.2 }
  others : ∀ d, d ≠ c → t.carrier d = s.carrier d
  users : ∀ q, t.route q = { s.route q with
    users := (s.route q).users - (if (s.carrier c).route = some q then 1 else 0)
      + (if (s.placeAfter r h).1 = q then 1 else 0) }
  watches : ∀ w, t.watch w = (s.watch w).breakFor c
  machines : ∀ w, t.machine w = s.machine w
  rest : t = { s with
    carriers := t.carriers, routes := t.routes, operatorSlot := t.operatorSlot, safetySlot := t.safetySlot }

/-- A carrier's route is left: none is current, the cursor is NONE with no laps, and the route's users count falls (R39, R44). -/
structure RouteLeft (s t : State) (c : CarrierId) : Prop where
  carrier : t.carrier c = { s.carrier c with route := none, cursor := .none, laps := 0 }
  others : ∀ d, d ≠ c → t.carrier d = s.carrier d
  users : ∀ q, t.route q = { s.route q with
    users := (s.route q).users - (if (s.carrier c).route = some q then 1 else 0) }
  rest : t = { s with carriers := t.carriers, routes := t.routes }

/-- The route, cursor and laps of a carrier whose cursor moves past a hop: the next hop, or past the last hop what the seam gives with its laps remaining (R40, R41, R42). -/
def State.placePast (s : State) (c : CarrierId) (x : HopRef) : Option RouteId × Cursor × Half :=
  let r := s.carrier c
  let y := s.route x.route
  if x.hop.val + 1 < y.firstHop.val + y.hopCount then (r.route, .hop (Fin.ofNat 2048 (x.hop.val + 1)), r.laps)
  else match y.endAction, y.linkRoute with
    | .loop, _ => (r.route, if r.laps - 1 = 0 then .atEnd else .hop y.firstHop, r.laps - 1)
    | .link, some q =>
      if (s.route q).defined = true then (some q, .hop (s.route q).firstHop, (s.route q).lapCount) else (r.route, .atEnd, r.laps)
    | _, _ => (r.route, .atEnd, r.laps)

/-- The route that a cursor joins as it moves past a hop over a LINK seam, if it does (R40, R42). -/
def State.linkTaken (s : State) (x : HopRef) : Option RouteId :=
  let y := s.route x.route
  if x.hop.val + 1 < y.firstHop.val + y.hopCount ∨ y.endAction ≠ .link then none
  else y.linkRoute.filter (fun q => (s.route q).defined)

/-- A link of a wait-for chain: the carrier WAITS with cause ZONE or CONFLICT on the zone, which the next one holds (R94). -/
def State.waitsFor (s : State) (m : CarrierId × ZoneId) (next : CarrierId) : Prop :=
  (s.carrier m.1).state = .waiting ∧ ((s.carrier m.1).wait = .zone m.2 ∨ (s.carrier m.1).wait = .conflict m.2) ∧
    s.holder m.2 = some next

/-- A wait-for chain whose last link leads to a carrier (R94). -/
def State.waitChain (s : State) (back : CarrierId) : List (CarrierId × ZoneId) → Prop
  | [] => False
  | [m] => s.waitsFor m back
  | m :: n :: l => s.waitsFor m n.1 ∧ s.waitChain back (n :: l)

/-- A cycle of waiting: a wait-for chain of distinct carriers from a carrier back to itself, each with its wait object (R94, R95). -/
structure WaitCycle (s : State) (c : CarrierId) (members : List (CarrierId × ZoneId)) : Prop where
  starts : members.head?.map (·.1) = some c
  distinct : (members.map (·.1)).Nodup
  chain : s.waitChain c members

/-! ## Stamps -/

/-- A held list read from the front entry: the entries behind it, those a walk passes, GRANTED and not blocked, and the rest, at whose first the walk stops (R101). -/
structure WalkOf (s : State) (held behind : List HeldEntry) (front : HeldEntry) (passed rest : List HeldEntry) : Prop where
  split : held = behind ++ front :: (passed ++ rest)
  first : ∀ e ∈ behind, e.zone ≠ front.zone
  passes : ∀ e ∈ passed, e.status = .granted ∧ (s.zst e.zone).blocked = false
  stops : ∀ e, rest.head? = some e → e.status = .pending ∨ (s.zst e.zone).blocked = true

/-- A walk that stops before some entries is cut by a block (R101). -/
def State.cutAt (s : State) (rest : List HeldEntry) : Prop := ∃ e, rest.head? = some e ∧ (s.zst e.zone).blocked = true

/-- The entries from the front to the reach F, both included: the last stop-allowed entry of the walk, or the front where the walk has none (R102). -/
def State.reaches (s : State) (front : HeldEntry) (passed span : List HeldEntry) : Prop :=
  (∃ l f r, front :: passed = l ++ f :: r ∧ s.noStop f.zone = false ∧ (∀ e ∈ r, s.noStop e.zone = true) ∧ span = l ++ [f]) ∨
    ((∀ e ∈ front :: passed, s.noStop e.zone = true) ∧ span = [front])

/-- The rest of the passage that a no-stop front entry stands in, of the entries after it: up to its exit, or all of them in an open passage (R3, R100). -/
def State.restOfPassage (s : State) (after passage : List HeldEntry) : Prop :=
  (∃ l x r, after = l ++ x :: r ∧ (∀ e ∈ l, s.noStop e.zone = true) ∧ s.noStop x.zone = false ∧ passage = l ++ [x]) ∨
    ((∀ e ∈ after, s.noStop e.zone = true) ∧ passage = after)

/-! ## Faults -/

/-- The pair of a fault placed in a cause list: in place of its carrier's pair where the list has one, else at the tail (R136). -/
def causePlaced (l : List (CarrierId × FaultKind)) (c : CarrierId) (k : FaultKind) : List (CarrierId × FaultKind) :=
  if ∃ p ∈ l, p.1 = c then l.map (fun p => if p.1 = c then (c, k) else p) else l ++ [(c, k)]

/-- The district entry is fed by a fault, and no other (R136). -/
structure DistrictFed (s t : State) (c : CarrierId) (k : FaultKind) : Prop where
  district : t.districtHold = { s.districtHold with causes := causePlaced s.districtHold.causes c k }
  sectors : t.sectorHolds = s.sectorHolds
  flag : t.flags.holdChange = (s.flags.holdChange || !s.districtActive)

/-- A sector's entry is fed by a fault, and no other (R136). -/
structure SectorFed (s t : State) (n : SectorId) (c : CarrierId) (k : FaultKind) : Prop where
  sector : t.sectorHold n = { s.sectorHold n with causes := causePlaced (s.sectorHold n).causes c k }
  others : ∀ m, m ≠ n → t.sectorHold m = s.sectorHold m
  district : t.districtHold = s.districtHold
  flag : t.flags.holdChange = (s.flags.holdChange || !s.sectorActive n)

/-- A validated report is replaced, and the blocked flags and request outputs of the zones held are recomputed (R111, R113, R116). -/
structure ReportReplaced (s t : State) (c : CarrierId) (v : Validated) : Prop where
  carrier : t.carrier c = { s.carrier c with report := v }
  others : ∀ d, d ≠ c → t.carrier d = s.carrier d
  zones : ∀ z, t.zst z = { s.zst z with
    blocked := if s.holder z = some c
      then decide ((s.zst z).field = .unclear ∧ v.report.front ≠ some z ∧ v.report.rear ≠ some z) else (s.zst z).blocked }
  inputs : ∀ f, (t.fieldSlot f).inputs = (s.fieldSlot f).inputs
  rest : t = { s with carriers := t.carriers, zoneStates := t.zoneStates, fieldSlots := t.fieldSlots }

/-- A zone that may be given to a trespasser: defined, without a holder, and in the conflict list of no zone that another carrier holds (R119). -/
def State.mayBeGiven (s : State) (c : CarrierId) (z : ZoneId) : Prop :=
  (s.zone z).defined = true ∧ s.holder z = none ∧ ∀ w d, s.holder w = some d → d ≠ c → z ∉ (s.zone w).conflicts

/-- The fault record is captured from the carrier record as it stands, and the fault kind is set (R66, R134 step 1). -/
structure FaultCaptured (s t : State) (c : CarrierId) (k : FaultKind) : Prop where
  carrier : t.carrier c = { s.carrier c with
    fault := some k
    faultRecord :=
      { kind := some k, frame := s.floorPort.frame, report := (s.carrier c).report, held := (s.carrier c).held,
        route := (s.carrier c).route, cursor := (s.carrier c).cursor, laps := (s.carrier c).laps, wait := (s.carrier c).wait,
        order := (s.carrier c).lastOrder, authority := (s.carrier c).authority, clip := (s.carrier c).clip,
        speed := (s.carrier c).speed } }
  others : ∀ d, d ≠ c → t.carrier d = s.carrier d
  rest : t = { s with carriers := t.carriers }

/-- The watches on a faulted carrier are broken, and its STATE and FAULT flags are set (R134 step 5). -/
structure FaultMarked (s t : State) (c : CarrierId) : Prop where
  carrier : t.carrier c = { s.carrier c with flags := { (s.carrier c).flags with state := true, fault := true } }
  others : ∀ d, d ≠ c → t.carrier d = s.carrier d
  watches : ∀ w, t.watch w = (s.watch w).breakFor c
  machines : ∀ w, t.machine w = s.machine w
  rest : t = { s with carriers := t.carriers, operatorSlot := t.operatorSlot, safetySlot := t.safetySlot }

/-- The steps of a first fault (R134, R135), with the freezing of a trespasser at step 2 and again once the releases are done (R119): the capture; the leaving of a wait queue; FAULTED; the token holder's leaving of its claim; the releases of the GRANTED entries but those of the validated front and rear zones, farthest first; the detachment of a route, the corridor entries becoming UNDIRECTED; the marks; and the policy action. -/
def FaultSteps (s t : State) (c : CarrierId) (k : FaultKind) : Prop :=
  ∃ a b d e g h p q : State,
    FaultCaptured s a c k ∧
    ((s.carrier c).state = .waiting → Dequeued a b c) ∧ ((s.carrier c).state ≠ .waiting → b = a) ∧
    d.carrier c = { b.carrier c with state := .faulted } ∧ (∀ i, i ≠ c → d.carrier i = b.carrier i) ∧ d = { b with carriers := d.carriers } ∧
    e = (if k = .trespass then d.freeze c else d) ∧
    g = (((e.leaveClaim c).carrier c).held.reverse.filter (fun x =>
        x.status == .granted && s.front c != some x.zone && s.rear c != some x.zone)).foldl
      (fun v x => if v.holds c x.zone = true then v.release c x.zone else v) (e.leaveClaim c) ∧
    (k ≠ .trespass → h = g) ∧
    (k = .trespass → (h.carrier c).held =
        ((g.freeze c).carrier c).held.filter (fun x => some x.zone == s.rear c)
          ++ ((g.freeze c).carrier c).held.filter (fun x => some x.zone != s.rear c) ∧
      h.carrier c = { (g.freeze c).carrier c with held := (h.carrier c).held } ∧
      (∀ i, i ≠ c → h.carrier i = (g.freeze c).carrier i) ∧ h = { g.freeze c with carriers := h.carriers }) ∧
    ((s.carrier c).route = none → p = h) ∧
    ((s.carrier c).route ≠ none → ∃ x, RouteLeft h x c ∧ p = x.undirect c) ∧
    FaultMarked p q c ∧ t = q.applyPolicy c k ∧
    t = { q with districtHold := t.districtHold, sectorHolds := t.sectorHolds, flags := t.flags }

/-- What a first fault leaves of its carrier's record: the record and the kind captured, FAULTED with STATE and FAULT set, no route, no token, and no GRANTED zone but those it stands in (R66, R134, R135). -/
structure FirstFaulted (s t : State) (c : CarrierId) (k : FaultKind) : Prop where
  state : (t.carrier c).state = .faulted
  kind : (t.carrier c).fault = some k
  record : (t.carrier c).faultRecord =
    { kind := some k, frame := s.floorPort.frame, report := (s.carrier c).report, held := (s.carrier c).held,
      route := (s.carrier c).route, cursor := (s.carrier c).cursor, laps := (s.carrier c).laps, wait := (s.carrier c).wait,
      order := (s.carrier c).lastOrder, authority := (s.carrier c).authority, clip := (s.carrier c).clip,
      speed := (s.carrier c).speed }
  report : (t.carrier c).report = (s.carrier c).report
  flagged : (t.carrier c).flags.state = true ∧ (t.carrier c).flags.fault = true
  detached : (t.carrier c).route = none
  unqueued : (s.carrier c).state = .waiting → (t.carrier c).wait = .none ∧ (t.carrier c).waitAge = 0
  token : t.pinToken ≠ some c
  ground : ∀ e ∈ (t.carrier c).held, e.status = .granted → s.front c = some e.zone ∨ s.rear c = some e.zone
  unwatched : ∀ slot, (t.watch slot).carrier = some c → (t.watch slot).intact = false

/-! ## Inputs -/

/-- A defined zone other than one binds an input (R122). -/
def State.boundElsewhere (s : State) (z w : ZoneId) (f : FieldSlotId) (i : LineId) (p : Polarity) : Prop :=
  w ≠ z ∧ (s.zone w).defined = true ∧ (s.zone w).fieldBinding = some ⟨f, i, p⟩

/-- The field states and blocked flags of the defined zones whose bound input has changed follow it, before any zone is woken (R126 step 2, R10). -/
structure FieldsFollow (s u v : State) : Prop where
  cleared : ∀ z b, (s.zone z).defined = true → (s.zone z).fieldBinding = some b → (s.input b.slot b.input).clear = false →
    (u.input b.slot b.input).clear = true → v.zst z = { s.zst z with field := .clear, blocked := false }
  uncleared : ∀ z b, (s.zone z).defined = true → (s.zone z).fieldBinding = some b → (s.input b.slot b.input).clear = true →
    (u.input b.slot b.input).clear = false → v.zst z = { s.zst z with
      field := .unclear
      blocked := (match s.holder z with
        | none => false
        | some c => decide (s.front c ≠ some z ∧ s.rear c ≠ some z)) }
  others : ∀ z, (∀ b, (s.zone z).defined = true → (s.zone z).fieldBinding = some b →
    (u.input b.slot b.input).clear = (s.input b.slot b.input).clear) → v.zst z = s.zst z
  rest : v = { u with zoneStates := v.zoneStates }

/-- The changes of some inputs are handed to the zones: all field states first, then the field wakes of the zones that have become CLEAR, in zone order (R126). -/
def HandedOver (s u t : State) : Prop :=
  u = { s with fieldSlots := u.fieldSlots } ∧ (∀ f o, u.output f o = s.output f o) ∧ ∃ v, FieldsFollow s u v ∧
    t = (List.finRange 240).foldl
      (fun w z => if (s.zst z).field = .unclear ∧ (v.zst z).field = .clear then w.fieldWake z else w) v

/-! ## Invariants -/

/-- R4: a conflict list has at most 4 entries, none its own zone and none repeated, the lists are symmetric, and no two zones listed as a pair are held, GRANTED or PENDING, by two different carriers. -/
structure ConflictsOk (s : State) : Prop where
  short : ∀ z, (s.zone z).conflicts.length ≤ 4
  irreflexive : ∀ z, z ∉ (s.zone z).conflicts
  distinct : ∀ z, (s.zone z).conflicts.Nodup
  symmetric : ∀ z w, w ∈ (s.zone z).conflicts → z ∈ (s.zone w).conflicts
  apart : ∀ z w c d, w ∈ (s.zone z).conflicts → s.holder z = some c → s.holder w = some d → c = d

/-- R7: a zone's holder is a carrier exactly when the zone is an entry of that carrier's held list; a VACANT carrier's held list is empty (R54). -/
structure HoldersOk (s : State) : Prop where
  holder_iff : ∀ z c, s.holder z = some c ↔ s.holds c z = true
  vacant : ∀ c, (s.carrier c).state = .vacant → (s.carrier c).held = []

/-- R10: every blocked flag is set exactly while the zone has a holder, its field state is UNCLEAR, and the holder's validated zones are both others. -/
def BlockedOk (s : State) : Prop :=
  ∀ z, (s.zst z).blocked = true ↔
    ∃ c, s.holder z = some c ∧ (s.zst z).field = .unclear ∧ s.front c ≠ some z ∧ s.rear c ≠ some z

/-- R128: every request output is ON exactly while a defined zone that binds it has a holder whose validated zones are both others, or a FIELD waiter. -/
def OutputsOk (s : State) : Prop :=
  ∀ f o, s.output f o = true ↔ ∃ z, (s.zone z).defined = true ∧ (s.zone z).requestBinding = some ⟨f, o⟩ ∧
    ((∃ c, s.holder z = some c ∧ s.front c ≠ some z ∧ s.rear c ≠ some z) ∨ ∃ w ∈ (s.zst z).queue, w.cause = .field)

/-- What R22 and R23 say of a corridor alone (which carriers its list names is `FloorOk`'s): an occupant list names no carrier twice, the direction is that of the directed occupants and NONE without one, a corridor is FREE exactly while it has no occupant, one that is DRAINING has a direction, and the opposed-entry count is 0 without a direction, below the quota while the corridor is not DRAINING, and 15 at most. -/
structure CorridorOk (quota : Nat) (x : CorridorState) : Prop where
  once : (x.occupants.map (·.slot)).Nodup
  directed : ∀ o ∈ x.occupants, o.direction = none ∨ o.direction = x.direction
  kept : x.direction ≠ none → ∃ o ∈ x.occupants, o.direction = x.direction
  free : x.flow = .free ↔ x.occupants = []
  draining : x.flow = .draining → x.direction ≠ none
  unopposed : x.direction = none → x.count = 0
  opposed : x.flow ≠ .draining → x.count < quota
  count : x.count ≤ 15

/-- Every corridor is, taken alone, as R22 and R23 give it. -/
def CorridorsOk (s : State) : Prop := ∀ k, CorridorOk (s.corridor k).quota (s.cst k)

/-- R56: no held list has more than 12 entries. -/
def HeldOk (s : State) : Prop := ∀ c, (s.carrier c).held.length ≤ 12

/-- R168: in SAFE mode no carrier is ADVANCING or WAITING. -/
def SafeModeOk (s : State) : Prop := s.mode = .safe → ∀ c, ¬s.active c

/-- R44: a route's users count equals the number of carriers whose current route it is; a VACANT carrier has none (R54). -/
structure UsersOk (s : State) : Prop where
  count : ∀ r, (s.route r).users = allCarriers.countP (fun c => (s.carrier c).route == some r)
  vacant : ∀ c, (s.carrier c).state = .vacant → (s.carrier c).route = none

/-- A wait queue in its order, read as slots, classes and tickets: no carrier stands in it twice, URGENT entries stand before NORMAL ones, and within a class those that joined earlier, whose tickets are lower, stand first (R8, R32, R80; the tickets are the model's own, log 9). -/
structure QueueOk (tickets : Nat) (q : List (CarrierId × Priority × Nat)) : Prop where
  once : (q.map (·.1)).Nodup
  order : q.Pairwise (fun x y => if x.2.1 = y.2.1 then x.2.2 < y.2.2 else x.2.1 = .urgent)
  issued : ∀ x ∈ q, x.2.2 < tickets

/-- An entry of a carrier stands in the queue that a wait names, with the wait's cause (R8, R32, R80). -/
def State.standsFor (s : State) (c : CarrierId) : Wait → Prop
  | .none => False
  | .zone z => ∃ e ∈ (s.zst z).queue, e.slot = c ∧ e.cause = .zone
  | .conflict z => ∃ e ∈ (s.zst z).queue, e.slot = c ∧ e.cause = .conflict
  | .field z => ∃ e ∈ (s.zst z).queue, e.slot = c ∧ e.cause = .field
  | .corridor k => ∃ e ∈ (s.cst k).queue, e.slot = c
  | .hold => ∃ e ∈ s.holdWait, e.slot = c

/-- R8, R32, R80, R54, R79: the wait queues are in order, a carrier stands in the queue its wait names, with its cause, and in no other, and it is WAITING exactly while it has a wait. -/
structure WaitsOk (s : State) : Prop where
  zones : ∀ z, QueueOk s.tickets ((s.zst z).queue.map (fun e => (e.slot, e.priority, e.ticket)))
  corridors : ∀ k, QueueOk s.tickets ((s.cst k).queue.map (fun e => (e.slot, e.priority, e.ticket)))
  hold : QueueOk s.tickets (s.holdWait.map (fun e => (e.slot, e.priority, e.ticket)))
  stands : ∀ c w, s.standsFor c w ↔ (s.carrier c).wait = w ∧ w ≠ .none
  waiting : ∀ c, (s.carrier c).state = .waiting ↔ (s.carrier c).wait ≠ .none

/-- R90, R91, R134: only the holder of the pin token has PENDING entries, and a FAULTED carrier has none. -/
structure ClaimsOk (s : State) : Prop where
  token : ∀ c, s.hasPending c = true → s.pinToken = some c
  faulted : ∀ c, (s.carrier c).state = .faulted → s.hasPending c = false

/-- The floor as claims find it. In SERVICE mode the zones of each defined route are defined, its last hop is stop-allowed, and no zone stands twice in a run of its no-stop hops with the hop that ends it (three rows of R46). A carrier's current route is defined and its cursor lies in its hop range (R36, R39). The zones held are defined (R7), a held list names none twice (R56), and a corridor's occupant list has an entry for exactly the carriers that hold a zone of it (R22). -/
structure FloorOk (s : State) : Prop where
  routes : s.mode = .service → ∀ r, (s.route r).defined = true →
    (∀ n < (s.route r).hopCount, (s.zone (s.routeZone r n)).defined = true) ∧
    s.noStop (s.routeZone r ((s.route r).hopCount - 1)) = false ∧
    ∀ m n, m < n → n < (s.route r).hopCount → (∀ l, m ≤ l → l < n → s.noStop (s.routeZone r l) = true) → s.routeZone r m ≠ s.routeZone r n
  current : ∀ c r, (s.carrier c).route = some r → (s.route r).defined = true ∧ ∀ h, (s.carrier c).cursor = .hop h →
    (s.route r).firstHop.val ≤ h.val ∧ h.val < (s.route r).firstHop.val + (s.route r).hopCount
  held : ∀ c, ∀ e ∈ (s.carrier c).held, (s.zone e.zone).defined = true
  once : ∀ c, ((s.carrier c).held.map (·.zone)).Nodup
  occupants : ∀ k c, (∃ o ∈ (s.cst k).occupants, o.slot = c) ↔ ∃ e ∈ (s.carrier c).held, s.corridorOfZone e.zone = some k

/-- The ranges of the counts: quotas (R19), hop ranges (R36), horizons and wait ages (R52), the validator's counts (R111), clear runs (R122), port runs (R150) and the district parameters (R164). -/
structure RangesOk (s : State) : Prop where
  quota : ∀ k, 1 ≤ (s.corridor k).quota ∧ (s.corridor k).quota ≤ 15
  hops : ∀ r, 2 ≤ (s.route r).hopCount ∧ (s.route r).hopCount ≤ 256 ∧ (s.route r).firstHop.val + (s.route r).hopCount ≤ 2048
  horizon : ∀ c, 1 ≤ (s.carrier c).horizon ∧ (s.carrier c).horizon ≤ 8
  waitAge : ∀ c, (s.carrier c).waitAge ≤ 65535
  instability : ∀ c, (s.validator c).instability ≤ 8
  silence : ∀ c, (s.validator c).silence ≤ 255
  run : ∀ f i, (s.input f i).run ≤ 255
  floorRuns : s.floorPort.badRun ≤ 3 ∧ s.floorPort.goodRun ≤ 2
  dispatchRuns : s.dispatchPort.badRun ≤ 3 ∧ s.dispatchPort.goodRun ≤ 2
  silenceLimit : 4 ≤ s.silenceLimit ∧ s.silenceLimit ≤ 255
  clearPersistence : 1 ≤ s.clearPersistence ∧ s.clearPersistence ≤ 255
  starvationLimit : 40 ≤ s.starvationLimit ∧ s.starvationLimit ≤ 2000

end Sys2Proof.Machine
end

