-- ==== Sys2Proof/Certificates/Slice0/Obligations.lean ====
section
/-! DEFINITION. The statements for the provers, each a rule of the spec or an invariant of the part; OBLIGATIONS.json gives their titles, tiers and citations. -/

open Sys2Proof Sys2Proof.Machine

/-! ## The queue -/

/-- A step takes the command at the front of the queue and runs it on the state with the queue's rest. -/
def Obligations.StepTakesTheFrontCommand : Prop :=
  ∀ (i : Instr) (rest : List Instr) (s : State), s.pending = i :: rest → step s = exec i { s with pending := rest }

/-- No command stops the part: each answers a next state, whatever the state; and on an empty queue the part idles (the model's choice, log 3). -/
def Obligations.NoStepStops : Prop :=
  (∀ (i : Instr) (s : State), ∃ t, exec i s = .next t) ∧ ∀ s : State, s.pending = [] → step s = .next s

/-! ## Slot machines -/

/-- A slot machine that is EXECUTING or ANSWERING discards the commands that reach it (R161), and so does a part whose reset pin is asserted (log 10). -/
def Obligations.ABusySlotDiscardsItsCommands : Prop :=
  ∀ (i : Instr) (slot : MgmtSlot) (s : State), i.slotOf = some slot →
    (s.machine slot).busy = true ∨ s.resetPin = true → exec i s = .next s

/-- The eight safety commands, sent in the operator slot, are answered NOT_PERMITTED and have no effect (R160, R163). -/
def Obligations.SafetyCommandsAreNotPermittedInTheOperatorSlot : Prop :=
  ∀ (sector entry : Byte) (actions : Vector Byte 8) (s : State), s.ready .operator →
    exec (.armStopLine .operator) s = .next (s.answered .operator 0x30 .notPermitted []) ∧
    exec (.resume .operator) s = .next (s.answered .operator 0x31 .notPermitted []) ∧
    exec (.holdSector .operator sector) s = .next (s.answered .operator 0x32 .notPermitted []) ∧
    exec (.holdDistrict .operator) s = .next (s.answered .operator 0x33 .notPermitted []) ∧
    exec (.liftHold .operator entry) s = .next (s.answered .operator 0x34 .notPermitted []) ∧
    exec (.writePolicy .operator actions) s = .next (s.answered .operator 0x35 .notPermitted []) ∧
    exec (.leaveService .operator) s = .next (s.answered .operator 0x36 .notPermitted []) ∧
    exec (.reset .operator) s = .next (s.answered .operator 0x37 .notPermitted [])

/-! ## Resets -/

/-- The three resets and the release of the pin: each sets its cause, a pin reset lasts until the release, which reads the straps, a command reset ends at once and is not answered, (R172, R149). That no reset changes the other pins or the queue is the model's reading (log 25), and what an event that is none does is its choice (log 2). -/
def Obligations.TheThreeResetsComplete : Prop :=
  ∀ (straps : BitVec 4) (s : State),
    (∃ t : State, exec (.powerOnReset straps) s = .next t ∧ t.resetCause = .powerOn ∧ t.districtCode = straps ∧ t.straps = straps ∧
      t.stopLine = s.stopLine ∧ t.resetPin = s.resetPin ∧ t.pending = s.pending) ∧
    (s.resetPin = false → ∃ t : State, exec .resetPin s = .next t ∧ t.resetCause = .resetPin ∧ t.resetPin = true ∧
      t.districtCode = s.districtCode ∧ t.straps = s.straps ∧ t.stopLine = s.stopLine ∧ t.pending = s.pending) ∧
    (s.resetPin = true → exec .resetPin s = .next s) ∧
    (s.resetPin = true → exec (.resetPinRelease straps) s =
      .next { s with resetPin := false, straps := straps, districtCode := straps }) ∧
    (s.resetPin = false → exec (.resetPinRelease straps) s = .next s) ∧
    (s.ready .safety → ∃ t : State, exec (.reset .safety) s = .next t ∧ t.resetCause = .resetCommand ∧ t.districtCode = s.straps ∧
      t.machine .safety = .idle ∧ t.machine .operator = .idle ∧ t.straps = s.straps ∧ t.stopLine = s.stopLine ∧
      t.resetPin = false ∧ t.pending = s.pending)

/-- What resets leave of the corridors (R20, R24). -/
def Obligations.ResetsOfTheCorridors : Prop :=
  ∀ s t : State,
    (AfterPowerOn s t → ∀ k, t.corridor k = ⟨false, 4⟩) ∧
    (AfterKeepingReset s t → ∀ k, t.corridor k = s.corridor k) ∧
    (AfterReset s t → (∀ k, t.cst k = ⟨.free, none, [], 0, []⟩) ∧ ∀ z, t.holder z = none)

/-- What resets leave of the routes and hops (R37, R35). -/
def Obligations.ResetsOfTheRoutes : Prop :=
  ∀ s t : State,
    (AfterPowerOn s t → (∀ r, t.route r = ⟨false, 0, 2, .stop, 0, none, 0⟩) ∧ ∀ h, t.hop h = ⟨0, 0⟩) ∧
    (AfterKeepingReset s t → (∀ r, t.route r = { s.route r with users := 0 }) ∧ ∀ h, t.hop h = s.hop h) ∧
    (AfterReset s t → ∀ c, (t.carrier c).state = .vacant ∧ (t.carrier c).route = none)

/-- What every reset leaves of the carriers, their validated reports and the validator's counts (R53, R111). -/
def Obligations.ResetsOfTheCarriers : Prop :=
  ∀ (s t : State) (c : CarrierId), AfterReset s t →
    t.carrier c =
      { state := .vacant, report := ⟨false, ⟨none, none, .stopped, 0⟩⟩, held := [], route := none, cursor := .none, laps := 0,
        claimMode := .ahead, horizon := 3, priority := .normal, clipMode := .saturate, wait := .none, waitAge := 0,
        lastOrder := ⟨.hold, 255, 0⟩, authority := none, clip := .none, speed := 0, fault := none,
        faultRecord := ⟨none, 0, ⟨false, ⟨none, none, .stopped, 0⟩⟩, [], none, .none, 0, .none, ⟨.hold, 255, 0⟩, none, .none, 0⟩,
        flags := ⟨false, false, false, false, false⟩ } ∧
    t.validator c = ⟨none, 0, 0⟩

/-- What resets leave of the zones and of the field monitor (R2, R11, R130): records, holders, queues, field states, inputs, outputs, polarities and the clear persistence. -/
def Obligations.ResetsOfTheZonesAndTheFieldMonitor : Prop :=
  ∀ s t : State,
    (AfterReset s t → t.floorPort.state = .lost ∧
      (∀ z, (t.zst z).holder = none ∧ (t.zst z).queue = [] ∧ (t.zst z).blocked = false) ∧
      (∀ f i, (t.input f i).clear = false ∧ (t.input f i).run = 0) ∧ ∀ f o, t.output f o = false) ∧
    (AfterPowerOn s t → t.clearPersistence = 10 ∧
      (∀ z, t.zone z = ⟨false, false, 0, none, 0, [], none, none⟩ ∧ (t.zst z).field = .unbound) ∧
      ∀ f i, (t.input f i).polarity = .clearWhenSet) ∧
    (AfterKeepingReset s t → t.clearPersistence = s.clearPersistence ∧
      (∀ z, t.zone z = s.zone z ∧ (t.zst z).field =
        if (s.zone z).defined = true ∧ (s.zone z).fieldBinding ≠ none then .unclear else .unbound) ∧
      ∀ f i, (t.input f i).polarity = s.polarityValue f i)

/-- What resets leave of the district: holds, stop line, ports, slot machines, mode, flags, queues, and what a pin or command reset keeps (R80, R93, R95, R133, R138, R143, R144, R148, R150, R151, R164, R165, R168, R170, R172). The frames last sent, which are the model's own fields (log 8), are emptied by every reset, as its choice. -/
def Obligations.ResetsOfTheDistrict : Prop :=
  ∀ s t : State,
    (AfterReset s t →
      t.pinToken = none ∧ t.holdWait = [] ∧ t.deadlock = ⟨0, 0, []⟩ ∧
      t.districtHold = ⟨[], false⟩ ∧ t.linkFlag = false ∧ (∀ n, t.sectorHold n = ⟨[], false⟩) ∧
      t.armLatch = false ∧ t.stopMarker = false ∧
      t.floorPort = ⟨.lost, 0, 0, 0, .none⟩ ∧ t.dispatchPort = ⟨.lost, 0, 0, 0, .none⟩ ∧ t.floorPartner = 0 ∧
      t.floorSent = [] ∧ t.dispatchSent = [] ∧
      (∀ slot, t.mgmt slot = ⟨.idle, ⟨none, false⟩⟩) ∧ t.mode = .safe ∧
      t.flags = ⟨false, false, false, false, false, true⟩) ∧
    (AfterPowerOn s t →
      t.policy = #v[.holdCarrier, .holdCarrier, .holdCarrier, .holdSector, .holdCarrier, .holdSector, .holdSector, .holdDistrict] ∧
      t.silenceLimit = 40 ∧ t.clearPersistence = 10 ∧ t.starvationLimit = 400 ∧ t.masks = BitVec.allOnes 11) ∧
    (AfterKeepingReset s t →
      t.policy = s.policy ∧ t.silenceLimit = s.silenceLimit ∧ t.clearPersistence = s.clearPersistence ∧
      t.starvationLimit = s.starvationLimit ∧ t.masks = s.masks)

/-! ## Reads -/

/-- Identify answers vendor 4Ch, part 6148, revision 1, district code, mode and reset cause, and the cause is then NONE (R172); Read and Write District Parameters, with the three ranges (R164). -/
def Obligations.IdentifyAndTheDistrictParameters : Prop :=
  ∀ (slot : MgmtSlot) (a b c : Half) (s : State), s.ready slot →
    exec (.identify slot) s = .next ({ s with resetCause := .none }.answered slot 0x01 .ok
      [0x4C, 0x18, 0x04, 1, s.districtCode.setWidth 8, (if s.mode = Mode.service then 1 else 0),
        (match s.resetCause with | .none => 0 | .powerOn => 1 | .resetPin => 2 | .resetCommand => 3)]) ∧
    exec (.readDistrictParameters slot) s = .next (s.answered slot 0x1E .ok
      (halfBytes (BitVec.ofNat 16 s.silenceLimit) ++ halfBytes (BitVec.ofNat 16 s.clearPersistence)
        ++ halfBytes (BitVec.ofNat 16 s.starvationLimit))) ∧
    (a.toNat < 4 ∨ 255 < a.toNat ∨ b.toNat < 1 ∨ 255 < b.toNat ∨ c.toNat < 40 ∨ 2000 < c.toNat →
      exec (.writeDistrictParameters slot a b c) s = .next (s.answered slot 0x1F .badItem [])) ∧
    (4 ≤ a.toNat → a.toNat ≤ 255 → 1 ≤ b.toNat → b.toNat ≤ 255 → 40 ≤ c.toNat → c.toNat ≤ 2000 →
      exec (.writeDistrictParameters slot a b c) s = .next
        ({ s with silenceLimit := a.toNat, clearPersistence := b.toNat, starvationLimit := c.toNat }.answered slot 0x1F .ok []))

/-- Read Zone and Read Zone State (R18), Read Corridor and Read Corridor State (R34): a number out of range is a BAD_ITEM; else the record as stored, or the state, its queue as far as it fits (R163); that the starting index drops items of a queue that fits whole too is the model's choice (log 12). No read changes anything but the slot machine. -/
def Obligations.ReadsOfTheZonesAndCorridors : Prop :=
  (∀ (slot : MgmtSlot) (start : Byte) (s : State), s.ready slot →
    (∀ b : Byte, 240 ≤ b.toNat →
      exec (.readZone slot b) s = .next (s.answered slot 0x02 .badItem []) ∧
      exec (.readZoneState slot b start) s = .next (s.answered slot 0x06 .badItem [])) ∧
    ∀ z : ZoneId,
      exec (.readZone slot (byteOf z.val)) s = .next (s.answered slot 0x02 .ok
        ([boolByte (s.zone z).defined, boolByte (s.zone z).noStop, byteOf (s.zone z).sector.val, finByte (s.zone z).corridor,
            byteOf (s.zone z).position.val, byteOf (s.zone z).conflicts.length]
          ++ (s.zone z).conflicts.map (fun w => byteOf w.val)
          ++ (match (s.zone z).fieldBinding with
              | none => [255, 0, 0]
              | some b => [byteOf b.slot.val, byteOf b.input.val, polarityByte b.polarity])
          ++ (match (s.zone z).requestBinding with
              | none => [255, 0]
              | some b => [byteOf b.slot.val, byteOf b.output.val]))) ∧
      exec (.readZoneState slot (byteOf z.val) start) s = .next (s.answered slot 0x06 .ok
        ([finByte (s.holder z),
            (match (s.holder z).bind (fun c => s.heldEntry c z) with | none => 0 | some e => heldStatusByte e.status),
            fieldStateByte (s.zst z).field, boolByte (s.zst z).blocked, byteOf (s.zst z).queue.length]
          ++ (((s.zst z).queue.drop start.toNat).take 28).flatMap (fun w => [byteOf w.slot.val, zoneCauseByte w.cause])))) ∧
  (∀ (slot : MgmtSlot) (start : Byte) (s : State), s.ready slot →
    (∀ b : Byte, 32 ≤ b.toNat →
      exec (.readCorridor slot b) s = .next (s.answered slot 0x08 .badItem []) ∧
      exec (.readCorridorState slot b start) s = .next (s.answered slot 0x0A .badItem [])) ∧
    ∀ k : CorridorId,
      exec (.readCorridor slot (byteOf k.val)) s = .next (s.answered slot 0x08 .ok
        ([boolByte (s.corridor k).defined, byteOf (s.corridor k).quota]
          ++ (List.finRange 16).map (fun p => finByte (allZones.find? (fun z =>
            (s.zone z).defined && (s.zone z).corridor == some k && (s.zone z).position == p))))) ∧
      exec (.readCorridorState slot (byteOf k.val) start) s = .next (s.answered slot 0x0A .ok
        ([flowByte (s.cst k).flow, directionByte (s.cst k).direction, byteOf (s.cst k).count, byteOf (s.corridor k).quota,
            byteOf (s.cst k).occupants.length]
          ++ (s.cst k).occupants.flatMap (fun o => [byteOf o.slot.val, directionByte o.direction])
          ++ [byteOf (s.cst k).queue.length]
          ++ (((s.cst k).queue.drop start.toNat).take (27 - (s.cst k).occupants.length)).flatMap
              (fun w => [byteOf w.slot.val, directionByte (some w.direction)]))))

/-- Read Route and Read Hops (R49, R50). -/
def Obligations.ReadsOfTheRoutesAndHops : Prop :=
  ∀ (slot : MgmtSlot) (s : State), s.ready slot →
    (∀ b : Byte, 128 ≤ b.toNat → exec (.readRoute slot b) s = .next (s.answered slot 0x0C .badItem [])) ∧
    (∀ r : RouteId, exec (.readRoute slot (byteOf r.val)) s = .next (s.answered slot 0x0C .ok
      ([boolByte (s.route r).defined] ++ halfBytes (BitVec.ofNat 16 (s.route r).firstHop.val)
        ++ halfBytes (BitVec.ofNat 16 (s.route r).hopCount) ++ [endActionByte (s.route r).endAction]
        ++ halfBytes (s.route r).lapCount ++ [finByte (s.route r).linkRoute, byteOf (s.route r).users]))) ∧
    (∀ (h : Half) (n : Byte), n = 0 ∨ 12 < n.toNat ∨ 2047 < h.toNat + n.toNat - 1 →
      exec (.readHops slot h n) s = .next (s.answered slot 0x0E .badItem [])) ∧
    (∀ (h : Half) (n : Byte), 1 ≤ n.toNat → n.toNat ≤ 12 → h.toNat + n.toNat ≤ 2048 →
      exec (.readHops slot h n) s = .next (s.answered slot 0x0E .ok
        ((List.range n.toNat).flatMap (fun j =>
          [byteOf (s.hop (Fin.ofNat 2048 (h.toNat + j))).zone.val, byteOf (s.hop (Fin.ofNat 2048 (h.toNat + j))).cap.val]))))

/-- Read Carrier and Read Fault Record, both parts (R70); Read Holds, its three parts, and Read Deadlock Record (R171): the order of the results of the last two is the model's choice (log 13), and so is that the starting index drops items of a list that fits whole too (log 12). -/
def Obligations.ReadsOfTheCarriersHoldsAndDeadlockRecord : Prop :=
  (∀ (slot : MgmtSlot) (s : State), s.ready slot →
    (∀ c p : Byte, 48 ≤ c.toNat ∨ 1 < p.toNat →
      exec (.readCarrier slot c p) s = .next (s.answered slot 0x16 .badItem []) ∧
      exec (.readFaultRecord slot c p) s = .next (s.answered slot 0x17 .badItem [])) ∧
    ∀ c : CarrierId, ∀ r, s.carrier c = r → ∀ f, r.faultRecord = f →
      exec (.readCarrier slot (byteOf c.val) 0) s = .next (s.answered slot 0x16 .ok
        ([carrierStateByte r.state] ++ validatedBytes r.report
          ++ [byteOf r.held.length, finByte (farthestGranted r.held), finByte r.route] ++ cursorBytes r.cursor ++ halfBytes r.laps
          ++ [claimModeByte r.claimMode, byteOf r.horizon, priorityByte r.priority, clipModeByte r.clipMode,
              waitCauseByte r.wait, waitObjectByte r.wait] ++ halfBytes (BitVec.ofNat 16 r.waitAge)
          ++ [orderKindByte r.lastOrder.kind, r.lastOrder.target, byteOf r.lastOrder.speed.val,
              finByte r.authority, clipReasonByte r.clip, byteOf r.speed.val, faultKindByte r.fault, carrierFlagsByte r.flags,
              if s.pinToken = some c then 1 else 0])) ∧
      exec (.readCarrier slot (byteOf c.val) 1) s = .next (s.answered slot 0x16 .ok
        (byteOf r.held.length :: r.held.flatMap (fun e => byteOf e.zone.val :: heldStatusByte e.status :: hopRefBytes e.ref))) ∧
      exec (.readFaultRecord slot (byteOf c.val) 0) s = .next (s.answered slot 0x17 .ok
        ([faultKindByte f.kind] ++ halfBytes f.frame ++ validatedBytes f.report ++ [byteOf f.held.length, finByte f.route]
          ++ cursorBytes f.cursor ++ halfBytes f.laps ++ [waitCauseByte f.wait, waitObjectByte f.wait]
          ++ [orderKindByte f.order.kind, f.order.target, byteOf f.order.speed.val,
              finByte f.authority, clipReasonByte f.clip, byteOf f.speed.val])) ∧
      exec (.readFaultRecord slot (byteOf c.val) 1) s = .next (s.answered slot 0x17 .ok
        (f.held.flatMap (fun e => byteOf e.zone.val :: heldStatusByte e.status :: hopRefBytes e.ref)))) ∧
  (∀ (slot : MgmtSlot) (entry start : Byte) (s : State), s.ready slot →
    (∀ part : Byte, 2 < part.toNat → exec (.readHolds slot part entry start) s = .next (s.answered slot 0x1A .badItem [])) ∧
    (8 < entry.toNat → exec (.readHolds slot 1 entry start) s = .next (s.answered slot 0x1A .badItem [])) ∧
    exec (.readHolds slot 0 entry start) s = .next (s.answered slot 0x1A .ok
      (allSectors.flatMap (fun n => [boolByte (s.sectorActive n), boolByte (s.sectorHold n).manual,
          byteOf (s.sectorHold n).causes.length])
        ++ [boolByte s.districtActive, boolByte s.districtHold.manual, byteOf s.districtHold.causes.length,
            boolByte s.linkFlag, boolByte s.armLatch, boolByte s.stopLine, boolByte s.stopMarker]
        ++ s.policy.toList.map policyActionByte ++ [byteOf s.holdWait.length])) ∧
    (∀ n : SectorId, exec (.readHolds slot 1 (byteOf n.val) start) s = .next (s.answered slot 0x1A .ok
      (byteOf (s.sectorHold n).causes.length :: (((s.sectorHold n).causes.drop start.toNat).take 30).flatMap
        (fun p => [byteOf p.1.val, faultKindByte (some p.2)])))) ∧
    exec (.readHolds slot 1 8 start) s = .next (s.answered slot 0x1A .ok
      (byteOf s.districtHold.causes.length :: ((s.districtHold.causes.drop start.toNat).take 30).flatMap
        (fun p => [byteOf p.1.val, faultKindByte (some p.2)]))) ∧
    exec (.readHolds slot 2 entry start) s = .next (s.answered slot 0x1A .ok
      (byteOf s.holdWait.length :: ((s.holdWait.drop start.toNat).take 30).flatMap
        (fun w => [byteOf w.slot.val, priorityByte w.priority]))) ∧
    exec (.readDeadlockRecord slot) s = .next (s.answered slot 0x1B .ok
      (halfBytes s.deadlock.frame ++ [byteOf s.deadlock.count]
        ++ s.deadlock.members.flatMap (fun m => [byteOf m.1.val, byteOf m.2.val])
        ++ List.replicate (2 * (8 - s.deadlock.members.length)) 255)))

/-- Read Events answers every flag and clears it; Set Event Mask writes the eleven masks (R170). -/
def Obligations.EventsAndTheirMasks : Prop :=
  ∀ (slot : MgmtSlot) (masks : Half) (s : State), s.ready slot →
    (∃ t : State, exec (.readEvents slot) s = .next (t.answered slot 0x1C .ok
        (allCarriers.map (fun c => carrierFlagsByte (s.carrier c).flags) ++ [districtFlagsByte s.flags])) ∧
      (∀ c, t.carrier c = { s.carrier c with flags := ⟨false, false, false, false, false⟩ }) ∧
      t = { s with carriers := t.carriers, flags := ⟨false, false, false, false, false, false⟩ }) ∧
    exec (.setEventMask slot masks) s = .next ({ s with masks := masks.setWidth 11 }.answered slot 0x1D .ok [])

/-! ## Table writes -/

/-- Set Conflict Pair: the first case of the table of R5 that applies, and the pair joins both lists at their ends; a pair already listed is accepted too, and counts as a table write (log 33). -/
def Obligations.SetConflictPairFollowsItsTable : Prop :=
  ∀ (slot : MgmtSlot) (s : State), s.ready slot →
    (∀ a b : Byte, 240 ≤ a.toNat ∨ 240 ≤ b.toNat ∨ a = b →
      exec (.setConflictPair slot a b) s = .next (s.answered slot 0x04 .badItem [])) ∧
    ∀ x y : ZoneId, x ≠ y →
      (y ∈ (s.zone x).conflicts →
        exec (.setConflictPair slot (byteOf x.val) (byteOf y.val)) s = .next ((s.noteTableWrite slot).answered slot 0x04 .ok [])) ∧
      (y ∉ (s.zone x).conflicts → 4 ≤ (s.zone x).conflicts.length ∨ 4 ≤ (s.zone y).conflicts.length →
        exec (.setConflictPair slot (byteOf x.val) (byteOf y.val)) s = .next (s.answered slot 0x04 .full [])) ∧
      (y ∉ (s.zone x).conflicts → (s.zone x).conflicts.length < 4 → (s.zone y).conflicts.length < 4 →
        (∃ c d, s.holder x = some c ∧ s.holder y = some d ∧ c ≠ d) →
        exec (.setConflictPair slot (byteOf x.val) (byteOf y.val)) s = .next (s.answered slot 0x04 .busyItem [])) ∧
      (y ∉ (s.zone x).conflicts → (s.zone x).conflicts.length < 4 → (s.zone y).conflicts.length < 4 →
        (¬∃ c d, s.holder x = some c ∧ s.holder y = some d ∧ c ≠ d) →
        ∃ t : State, exec (.setConflictPair slot (byteOf x.val) (byteOf y.val)) s = .next (t.answered slot 0x04 .ok []) ∧
          t.zone x = { s.zone x with conflicts := (s.zone x).conflicts ++ [y] } ∧
          t.zone y = { s.zone y with conflicts := (s.zone y).conflicts ++ [x] } ∧
          (∀ w, w ≠ x → w ≠ y → t.zone w = s.zone w) ∧ t = { s.noteTableWrite slot with zones := t.zones })

/-- Clear Conflict Pair: the pair leaves both lists, then the CONFLICT waiters of the first zone and of the second are woken (R6); a pair not listed is accepted too, and counts as a table write (log 33). -/
def Obligations.ClearConflictPairWakesBothZones : Prop :=
  ∀ (slot : MgmtSlot) (s : State), s.ready slot →
    (∀ a b : Byte, 240 ≤ a.toNat ∨ 240 ≤ b.toNat ∨ a = b →
      exec (.clearConflictPair slot a b) s = .next (s.answered slot 0x05 .badItem [])) ∧
    ∀ x y : ZoneId, x ≠ y →
      (y ∉ (s.zone x).conflicts →
        exec (.clearConflictPair slot (byteOf x.val) (byteOf y.val)) s = .next ((s.noteTableWrite slot).answered slot 0x05 .ok [])) ∧
      (y ∈ (s.zone x).conflicts →
        ∃ t u : State, exec (.clearConflictPair slot (byteOf x.val) (byteOf y.val)) s = .next (u.answered slot 0x05 .ok []) ∧
          t.zone x = { s.zone x with conflicts := (s.zone x).conflicts.filter (· != y) } ∧
          t.zone y = { s.zone y with conflicts := (s.zone y).conflicts.filter (· != x) } ∧
          (∀ w, w ≠ x → w ≠ y → t.zone w = s.zone w) ∧ t = { s.noteTableWrite slot with zones := t.zones } ∧
          u = (t.wakeZone x [.conflict]).wakeZone y [.conflict] ∧ EngineFrame t u ∧
          ((∀ w ∈ (s.zst x).queue ++ (s.zst y).queue, w.cause ≠ .conflict) → u = t))

/-- A Write Zone out of range is a BAD_ITEM (R12). A defined zone that is held or has waiters is not undefined or laid out anew, nor laid out anew while a HOLD or CORRIDOR waiter's next set names it, or for CORRIDOR the visit that its set's zones belong to, nor undefined while a defined route names it (R13). That visit is the one to the corridor waited on (the model's choice, log 40), of two visits there the one of the set's first zone there (its choice, log 27), and it is read back over seams by the held list (its reading, log 16). A defined zone names a defined corridor and a position of its own; in SERVICE mode neither that corridor nor one it leaves has a gap; no other zone binds its input with the other polarity (R14): that this is asked also of a write that leaves the zone undefined is the model's reading (log 23), that the lowest such zone gives the index its choice (log 34). In SERVICE mode no defined route that names the zone, or links to one that does, fails its checks (R15; which checks, and how far they read past a seam, log 29). The first of these that applies is answered. -/
def Obligations.AWriteZoneIsRefused : Prop :=
  ∀ (slot : MgmtSlot) (s : State), s.ready slot →
    (∀ w : ZoneWrite, 240 ≤ w.zone.toNat ∨ 8 ≤ w.sector.toNat ∨ (32 ≤ w.corridor.toNat ∧ w.corridor ≠ 255) ∨ 16 ≤ w.position.toNat →
      exec (.writeZone slot w) s = .next (s.answered slot 0x03 .badItem [])) ∧
    (∀ w : ZoneWrite, slot = .safety →
      (w.fieldSlot ≠ 255 ∧ (16 ≤ w.fieldSlot.toNat ∨ 8 ≤ w.fieldInput.toNat)) ∨
        (w.requestSlot ≠ 255 ∧ (16 ≤ w.requestSlot.toNat ∨ 8 ≤ w.requestOutput.toNat)) →
      exec (.writeZone slot w) s = .next (s.answered slot 0x03 .badItem [])) ∧
    ∀ (z : ZoneId) (r : ZoneRecord) (t : State) (o : Host.Outcome State Fault Refusal),
      t = s.setZone z (writtenZone slot (s.zone z) r) → exec (.writeZone slot (zoneWriteOf z r)) s = o →
      ((s.zone z).defined = true → s.holder z ≠ none ∨ (s.zst z).queue ≠ [] → r.defined = false ∨ ¬r.sameLayout (s.zone z) →
        o = .next (s.answered slot 0x03 .busyItem [])) ∧
      ((s.zone z).defined = true → r.defined = true → ¬r.sameLayout (s.zone z) → s.awaited z →
        o = .next (s.answered slot 0x03 .busyItem [])) ∧
      (∀ q : RouteId, (s.zone z).defined = true → s.holder z = none → (s.zst z).queue = [] → r.defined = false →
        s.routeNames q z → (∀ p < q, ¬s.routeNames p z) → o = .next (s.answered slot 0x03 .checkFailed [9, 0, byteOf q.val])) ∧
      (s.passesGuard z r →
        (∀ k, r.defined = true → r.corridor = some k →
          ((s.corridor k).defined = false → o = .next (s.answered slot 0x03 .checkFailed [10, 0, byteOf k.val])) ∧
          (∀ w, (s.corridor k).defined = true → w ≠ z → s.corridorOfZone w = some k → (s.zone w).position = r.position →
            (∀ v < w, v ≠ z → s.corridorOfZone v = some k → (s.zone v).position ≠ r.position) →
            o = .next (s.answered slot 0x03 .checkFailed [11, 0, byteOf w.val])) ∧
          (s.placeFree z r k → s.mode = .service → ¬t.positionsRun k →
            o = .next (s.answered slot 0x03 .checkFailed [12, 0, byteOf k.val]))) ∧
        (∀ k, s.mode = .service → s.corridorOfZone z = some k →
          r.defined = false ∨ r.corridor ≠ some k ∨ r.position ≠ (s.zone z).position →
          (∀ l, r.defined = true → r.corridor = some l → s.placeFree z r l ∧ t.positionsRun l) → ¬t.positionsRun k →
          o = .next (s.answered slot 0x03 .checkFailed [12, 0, byteOf k.val])) ∧
        (s.passesCorridorChecks t z r →
          (∀ b w, (t.zone z).fieldBinding = some b → w ≠ z → s.bindsAgainst w b → (∀ v < w, v ≠ z → ¬s.bindsAgainst v b) →
            o = .next (s.answered slot 0x03 .checkFailed [13, 0, byteOf w.val])) ∧
          (∀ q f, s.mode = .service → (s.zone z).defined = true →
            r.noStop ≠ (s.zone z).noStop ∨ r.corridor ≠ (s.zone z).corridor ∨ r.position ≠ (s.zone z).position →
            (∀ b w, (t.zone z).fieldBinding = some b → w ≠ z → ¬s.bindsAgainst w b) →
            t.routeTouches q z → t.routeCheck q = some f → (∀ p < q, t.routeTouches p z → t.routeCheck p = none) →
            o = .next (s.answered slot 0x03 .checkFailed [f.kind.code, 0, byteOf q.val]))))

/-- A Write Zone that no check of R13 to R15 refuses is applied (R12, R16, R17): the record is written, the bindings by the safety slot alone, PARTIAL where the operator slot carried others, and the field state set anew where the binding or the defined field changed; where it leaves UNCLEAR by that, and only there, the FIELD waiters of the zone are woken (R86). The checks are said in the rules' own words: the guard, the corridor checks, no other zone that binds the input with the other polarity, and, of the routes that R15 names, none that fails a row of the table of R46; the readings behind them are the model's (logs 16, 23, 27, 29, 40). Before the wake an input that the old or the new binding names follows the bindings of the defined zones: one whose polarity changes becomes UNCLEAR with a clear run of 0, and any other input stays as it is (R122, R127). -/
def Obligations.AWriteZoneIsApplied : Prop :=
  ∀ (slot : MgmtSlot) (z : ZoneId) (r : ZoneRecord) (s : State), s.ready slot →
    ∀ n, n = s.setZone z (writtenZone slot (s.zone z) r) → s.passesGuard z r → s.passesCorridorChecks n z r →
    (∀ b w, (n.zone z).fieldBinding = some b → w ≠ z → ¬s.bindsAgainst w b) →
    (s.mode = .service → (s.zone z).defined = true →
      r.noStop ≠ (s.zone z).noStop ∨ r.corridor ≠ (s.zone z).corridor ∨ r.position ≠ (s.zone z).position →
      ∀ q, n.routeTouches q z → n.routeCheck q = none) →
    (∀ q, (n.route q).placed → (n.routeCheck q = none ↔ n.routePasses q)) ∧
    ∃ u t : State,
      exec (.writeZone slot (zoneWriteOf z r)) s = .next (t.answered slot 0x03
        (if slot = .operator ∧ (r.fieldBinding ≠ (s.zone z).fieldBinding ∨ r.requestBinding ≠ (s.zone z).requestBinding)
          then .partialWrite else .ok) []) ∧
      t.zone z = writtenZone slot (s.zone z) r ∧ (∀ w, w ≠ z → t.zone w = s.zone w ∧ (t.zst w).field = (s.zst w).field) ∧
      (t.zst z).field =
        (if (t.zone z).fieldBinding ≠ (s.zone z).fieldBinding ∨ (t.zone z).defined ≠ (s.zone z).defined then t.fieldValue z
          else (s.zst z).field) ∧
      u = (s.noteTableWrite slot).layZone z (writtenZone slot (s.zone z) r) ∧
      t = (if (s.zst z).field = .unclear ∧ (t.zst z).field ≠ .unclear then u.fieldWake z else u) ∧ EngineFrame u t ∧
      ∀ (f : FieldSlotId) (i : LineId),
        ((∀ p, (s.zone z).fieldBinding ≠ some ⟨f, i, p⟩ ∧ (t.zone z).fieldBinding ≠ some ⟨f, i, p⟩) →
          t.input f i = s.input f i) ∧
        (∀ p, (t.zone z).defined = true → (t.zone z).fieldBinding = some ⟨f, i, p⟩ →
          t.input f i = if (s.input f i).polarity = p then s.input f i else ⟨false, 0, p⟩) ∧
        ((∃ p, (s.zone z).fieldBinding = some ⟨f, i, p⟩ ∨ (t.zone z).fieldBinding = some ⟨f, i, p⟩) →
          (∀ p, (t.zone z).defined = true → (t.zone z).fieldBinding ≠ some ⟨f, i, p⟩) →
          ((∀ w p, ¬s.boundElsewhere z w f i p) →
            t.input f i = if (s.input f i).polarity = .clearWhenSet then s.input f i else ⟨false, 0, .clearWhenSet⟩) ∧
          ∀ w p, s.boundElsewhere z w f i p → (∀ x q, s.boundElsewhere z x f i q → q = p) →
            t.input f i = if (s.input f i).polarity = p then s.input f i else ⟨false, 0, p⟩)

/-- Write Corridor: the first case of the table of R21 that applies; a quota at or below the count of a directed flow drains it at once. -/
def Obligations.WriteCorridorFollowsItsTable : Prop :=
  ∀ (slot : MgmtSlot) (s : State), s.ready slot →
    (∀ k d q : Byte, 32 ≤ k.toNat ∨ q.toNat = 0 ∨ 15 < q.toNat →
      exec (.writeCorridor slot k d q) s = .next (s.answered slot 0x09 .badItem [])) ∧
    ∀ (k : CorridorId) (d : Bool) (q : Nat), 1 ≤ q → q ≤ 15 →
      (d = false → (s.corridor k).defined = true → (s.cst k).occupants ≠ [] ∨ (s.cst k).queue ≠ [] →
        exec (.writeCorridor slot (byteOf k.val) (boolByte d) (byteOf q)) s = .next (s.answered slot 0x09 .busyItem [])) ∧
      (∀ z : ZoneId, d = false → (s.corridor k).defined = true → (s.cst k).occupants = [] → (s.cst k).queue = [] →
        (s.zone z).defined = true → (s.zone z).corridor = some k →
        (∀ w < z, (s.zone w).defined = true → (s.zone w).corridor ≠ some k) →
        exec (.writeCorridor slot (byteOf k.val) (boolByte d) (byteOf q)) s =
          .next (s.answered slot 0x09 .checkFailed [14, 0, byteOf z.val])) ∧
      (d = true ∨ (s.corridor k).defined = false ∨ ((s.cst k).occupants = [] ∧ (s.cst k).queue = [] ∧
          ∀ z, (s.zone z).defined = true → (s.zone z).corridor ≠ some k) →
        ∃ t : State, exec (.writeCorridor slot (byteOf k.val) (boolByte d) (byteOf q)) s = .next (t.answered slot 0x09 .ok []) ∧
          t.corridor k = ⟨d, q⟩ ∧ (∀ l, l ≠ k → t.corridor l = s.corridor l ∧ t.cst l = s.cst l) ∧
          t.cst k = (if (s.cst k).flow = .flowing ∧ (s.cst k).direction ≠ none ∧ q ≤ (s.cst k).count
            then { s.cst k with flow := .draining } else s.cst k) ∧
          t = { s.noteTableWrite slot with corridors := t.corridors, corridorStates := t.corridorStates })

/-- Write Route: the first case of the table of R45 that applies; a lap count is stored for LOOP alone and a link route for LINK alone, and the users count stays. The checks of R46 in SERVICE mode: the record in place fails the first row of the table that it fails, with the row's lowest index (the model's readings of CORRIDOR_TURN and REPEATED_ZONE, logs 15 and 35); LINK_REFERENCE, where the first hop moves, falls on the lowest linking route whose seam fails, and for an undefining write on the lowest linking route. -/
def Obligations.WriteRouteFollowsItsTable : Prop :=
  ∀ (slot : MgmtSlot) (s : State), s.ready slot →
    (∀ w : RouteWrite, 128 ≤ w.route.toNat ∨ w.hopCount.toNat < 2 ∨ 256 < w.hopCount.toNat ∨ 2047 < w.firstHop.toNat ∨
        2047 < w.firstHop.toNat + w.hopCount.toNat - 1 ∨ (w.endAction = 2 ∧ 128 ≤ w.linkRoute.toNat) →
      exec (.writeRoute slot w) s = .next (s.answered slot 0x0D .badItem [])) ∧
    ∀ (r : RouteId) (x : RouteRecord), x.inRanges →
      (0 < (s.route r).users →
        exec (.writeRoute slot (routeWriteOf r x)) s = .next (s.answered slot 0x0D .busyItem [])) ∧
      (∀ f : CheckFailure, (s.route r).users = 0 → s.mode = .service → s.writeRouteCheck r (storedRoute (s.route r) x) = some f →
        exec (.writeRoute slot (routeWriteOf r x)) s =
          .next (s.answered slot 0x0D .checkFailed (f.kind.code :: halfBytes (BitVec.ofNat 16 f.index)))) ∧
      ((s.route r).users = 0 → s.mode = .safe ∨ s.writeRouteCheck r (storedRoute (s.route r) x) = none →
        ∃ t : State, exec (.writeRoute slot (routeWriteOf r x)) s = .next (t.answered slot 0x0D .ok []) ∧
          t.route r = storedRoute (s.route r) x ∧ (∀ q, q ≠ r → t.route q = s.route q) ∧
          t = { s.noteTableWrite slot with routes := t.routes }) ∧
      ∀ t : State, t = s.setRoute r x →
        (∀ f, t.routeCheck r = some f ↔ t.firstRow r f) ∧ (t.routeCheck r = none ↔ t.routePasses r) ∧
        (∀ f, x.defined = true → t.firstRow r f → s.writeRouteCheck r x = some f) ∧
        (x.defined = true → t.routePasses r → x.firstHop = (s.route r).firstHop → s.writeRouteCheck r x = none) ∧
        (x.defined = true → t.routePasses r → x.firstHop ≠ (s.route r).firstHop → (∀ q, (t.route q).placed) →
          (∀ q, t.firstLinker q r → s.writeRouteCheck r x = some ⟨.linkReference, q.val⟩) ∧
          (t.linkersPass r → s.writeRouteCheck r x = none)) ∧
        (∀ q, x.defined = false → s.linksTo q r → (∀ p < q, ¬s.linksTo p r) →
          s.writeRouteCheck r x = some ⟨.linkReference, q.val⟩) ∧
        (x.defined = false → (∀ q, ¬s.linksTo q r) → s.writeRouteCheck r x = none)

/-- Write Hops: 1 to 12 hops within the hop store are written together, none where one is out of range or lies on a used route, or where a check of R48 fails in SERVICE mode (R47). Those checks take the defined routes with one of the hops in their range, in route order: the first that fails a row of the table of R46, and, where none does, the first into which a seam fails, with the lowest linking route (logs 15 and 35). -/
def Obligations.WriteHopsWritesAllOrNone : Prop :=
  ∀ (slot : MgmtSlot) (start : Half) (s : State), s.ready slot →
    (∀ l : List (Byte × Byte), l = [] ∨ 12 < l.length ∨ 2048 < start.toNat + l.length ∨
        (∃ p ∈ l, 240 ≤ p.1.toNat ∨ 4 ≤ p.2.toNat) →
      exec (.writeHops slot start l) s = .next (s.answered slot 0x0F .badItem [])) ∧
    ∀ l : List Hop, 1 ≤ l.length → l.length ≤ 12 → start.toNat + l.length ≤ 2048 →
      ((∃ r, (s.route r).defined = true ∧ 0 < (s.route r).users ∧ (s.route r).firstHop.val < start.toNat + l.length ∧
          start.toNat < (s.route r).firstHop.val + (s.route r).hopCount) →
        exec (.writeHops slot start (l.map hopWriteOf)) s = .next (s.answered slot 0x0F .busyItem [])) ∧
      ((∀ r, (s.route r).defined = true → 0 < (s.route r).users → (s.route r).firstHop.val < start.toNat + l.length →
          (s.route r).firstHop.val + (s.route r).hopCount ≤ start.toNat) →
        ∃ t : State, (∀ i : HopIdx, t.hop i = (l[i.val - start.toNat]?).elim (s.hop i)
            (fun h => if start.toNat ≤ i.val then h else s.hop i)) ∧
          t = { s with hops := t.hops } ∧
          (∀ f : CheckFailure, s.mode = .service → t.writeHopsCheck start.toNat l.length = some f →
            exec (.writeHops slot start (l.map hopWriteOf)) s =
              .next (s.answered slot 0x0F .checkFailed (f.kind.code :: halfBytes (BitVec.ofNat 16 f.index)))) ∧
          (s.mode = .safe ∨ t.writeHopsCheck start.toNat l.length = none →
            exec (.writeHops slot start (l.map hopWriteOf)) s = .next ((t.noteTableWrite slot).answered slot 0x0F .ok [])) ∧
          ((∀ r, (t.route r).placed) →
            (∀ r f, t.rangeMeets r start.toNat l.length → t.firstRow r f →
              (∀ q < r, t.rangeMeets q start.toNat l.length → t.routePasses q) →
              t.writeHopsCheck start.toNat l.length = some f) ∧
            ((∀ r, t.rangeMeets r start.toNat l.length → t.routePasses r) →
              (∀ r q, t.rangeMeets r start.toNat l.length → t.firstLinker q r →
                (∀ p < r, t.rangeMeets p start.toNat l.length → t.linkersPass p) →
                t.writeHopsCheck start.toNat l.length = some ⟨.linkReference, q.val⟩) ∧
              ((∀ r, t.rangeMeets r start.toNat l.length → t.linkersPass r) →
                t.writeHopsCheck start.toNat l.length = none))))

/-- A Checksum or Enter Service that is EXECUTING in one slot learns of every table write applied from the other, also of one that changes nothing (R12, log 33), and of no refused write and no other command there but Reset (R167). -/
def Obligations.TableWritesAreNotedByTheOtherSlot : Prop :=
  ∀ (i : Instr) (slot : MgmtSlot) (job : Job) (n : Nat) (written : Bool) (s t : State),
    i.slotOf = some slot → i.isReset = false → s.ready slot → s.machine (otherSlot slot) = .executing job n written →
    exec i s = .next t →
      (i.writesTable = false → t.machine (otherSlot slot) = .executing job n written) ∧
      (i.writesTable = true → t.zones ≠ s.zones ∨ t.corridors ≠ s.corridors ∨ (∃ r, { t.route r with users := 0 } ≠ { s.route r with users := 0 }) ∨
          t.hops ≠ s.hops → t.machine (otherSlot slot) = .executing job n true) ∧
      (∀ code status results, t.machine slot = .answering (code :: status :: results) 0 →
        (2 ≤ status.toNat → t.machine (otherSlot slot) = .executing job n written) ∧
        (i.writesTable = true → status.toNat < 2 → t.machine (otherSlot slot) = .executing job n true))

/-! ## Carrier commands -/

/-- Admit Carrier: the first case of the table of R58 that applies, and the effects of R59: the carrier IDLE with the reported zones, its parameters at their defaults, and in each corridor of those zones an UNDIRECTED entry for it, which makes a FREE corridor FLOWING and leaves its direction, count and queue (R28). The inputs, the queues and all else stay. -/
def Obligations.AdmitCarrierFollowsItsTable : Prop :=
  ∀ (slot : MgmtSlot) (s : State), s.ready slot →
    (∀ c f r : Byte, 48 ≤ c.toNat ∨ 240 ≤ f.toNat ∨ 240 ≤ r.toNat →
      exec (.admitCarrier slot c f r) s = .next (s.answered slot 0x10 .badItem [])) ∧
    ∀ (c : CarrierId) (f r : ZoneId) (o : Host.Outcome State Fault Refusal),
      exec (.admitCarrier slot (byteOf c.val) (byteOf f.val) (byteOf r.val)) s = o →
      let reported := (s.carrier c).report.present = true ∧ s.front c = some f ∧ s.rear c = some r ∧ (s.carrier c).report.report.code = 0
      let occupied := fun z : ZoneId => s.holder z ≠ none ∨ ∃ w, s.holder w ≠ none ∧ z ∈ (s.zone w).conflicts
      let held := s.districtActive = true ∨ s.sectorActive (s.zone f).sector = true ∨ s.sectorActive (s.zone r).sector = true
      if (s.carrier c).state ≠ .vacant then o = .next (s.answered slot 0x10 .wrongState [])
      else if ¬reported then o = .next (s.answered slot 0x10 .reportMismatch [])
      else if (s.zone f).defined = false ∨ (s.zone r).defined = false then o = .next (s.answered slot 0x10 .badItem [])
      else if occupied f ∨ occupied r then o = .next (s.answered slot 0x10 .occupied [])
      else if held then o = .next (s.answered slot 0x10 .held [])
      else ∃ t : State, o = .next (t.answered slot 0x10 .ok []) ∧
        t.carrier c =
          { s.carrier c with
            state := .idle
            held := if f = r then [⟨f, .granted, none⟩] else [⟨r, .granted, none⟩, ⟨f, .granted, none⟩]
            route := none, cursor := .none, laps := 0, claimMode := .ahead, horizon := 3, priority := .normal,
            clipMode := .saturate, wait := .none, waitAge := 0, fault := none,
            faultRecord := ⟨none, 0, ⟨false, ⟨none, none, .stopped, 0⟩⟩, [], none, .none, 0, .none, ⟨.hold, 255, 0⟩, none, .none, 0⟩
            flags := { (s.carrier c).flags with state := true } } ∧
        (∀ d, d ≠ c → t.carrier d = s.carrier d) ∧
        (∀ z, t.holder z = if z = f ∨ z = r then some c else s.holder z) ∧
        (∀ z, (t.zst z).queue = (s.zst z).queue ∧ (t.zst z).field = (s.zst z).field) ∧
        (∀ x, (t.fieldSlot x).inputs = (s.fieldSlot x).inputs) ∧
        (t.zst f).blocked = false ∧ (t.zst r).blocked = false ∧
        (∀ k, (∃ z, (z = f ∨ z = r) ∧ s.corridorOfZone z = some k) → (∀ x ∈ (s.cst k).occupants, x.slot ≠ c) →
          t.cst k = { s.cst k with
            occupants := (s.cst k).occupants ++ [⟨c, none⟩], flow := if (s.cst k).flow = .free then .flowing else (s.cst k).flow }) ∧
        (∀ k, (∃ x ∈ (s.cst k).occupants, x.slot = c) → t.cst k = s.cst k) ∧
        (∀ k, s.corridorOfZone f ≠ some k → s.corridorOfZone r ≠ some k → t.cst k = s.cst k) ∧
        t.validator c = { s.validator c with instability := 0, silence := 0 } ∧
        (∀ d, d ≠ c → t.validator d = s.validator d) ∧
        (∀ w, t.watch w = (s.watch w).breakFor c) ∧ (∀ w, t.machine w = s.machine w) ∧
        t = { s with zoneStates := t.zoneStates, corridorStates := t.corridorStates, carriers := t.carriers,
                     validators := t.validators, fieldSlots := t.fieldSlots, operatorSlot := t.operatorSlot,
                     safetySlot := t.safetySlot }

/-- Assign Route: the first case of the table of R61 that applies; an accepted one takes the route from its first hop, makes the carrier ADVANCING and runs its claim pass. -/
def Obligations.AssignRouteFollowsItsTable : Prop :=
  ∀ (slot : MgmtSlot) (s : State), s.ready slot →
    (∀ c r : Byte, 48 ≤ c.toNat ∨ 128 ≤ r.toNat →
      exec (.assignRoute slot c r) s = .next (s.answered slot 0x11 .badItem [])) ∧
    ∀ (c : CarrierId) (r : RouteId) (o : Host.Outcome State Fault Refusal),
      exec (.assignRoute slot (byteOf c.val) (byteOf r.val)) s = o →
      if s.mode = .safe then o = .next (s.answered slot 0x11 .notInService [])
      else if (s.carrier c).state ≠ .idle then o = .next (s.answered slot 0x11 .wrongState [])
      else if (s.route r).defined = false then o = .next (s.answered slot 0x11 .badItem [])
      else if farthestHeld (s.carrier c).held ≠ some (s.hop (s.route r).firstHop).zone then
        o = .next (s.answered slot 0x11 .checkFailed (15 :: halfBytes (BitVec.ofNat 16 (s.route r).firstHop.val)))
      else RangesOk s → ∃ u : State, o = .next ((u.runPass c).answered slot 0x11 .ok []) ∧ EngineFrame u (u.runPass c) ∧
        u.carrier c =
          { s.carrier c with
            state := .advancing, route := some r, cursor := .hop (Fin.ofNat 2048 ((s.route r).firstHop.val + 1)),
            laps := (s.route r).lapCount, flags := { (s.carrier c).flags with state := true } } ∧
        (∀ d, d ≠ c → u.carrier d = s.carrier d) ∧
        (∀ q, u.route q = { s.route q with
          users := (s.route q).users - (if (s.carrier c).route = some q then 1 else 0) + (if q = r then 1 else 0) }) ∧
        (∀ w, u.watch w = (s.watch w).breakFor c) ∧ (∀ w, u.machine w = s.machine w) ∧
        u = { s with carriers := u.carriers, routes := u.routes, operatorSlot := u.operatorSlot, safetySlot := u.safetySlot }

/-- Cancel Route (R62, R63): refused for a VACANT or FAULTED carrier; an accepted one leaves the carrier IDLE with no route, no wait, no token, the watches on it broken, and its held list cut after the place that the trim gives, the entries PENDING of a token holder gone. Its steps, in the order of R62: a WAITING carrier leaves its queue; the carrier becomes IDLE; it leaves its claim; its route, cursor and laps go, and its corridor entries become UNDIRECTED; the watches on it break; and, where it is reported STOPPED in a zone that it holds, the zones past that place are released, farthest first. -/
def Obligations.CancelRouteLeavesTheCarrierIdle : Prop :=
  ∀ (slot : MgmtSlot) (s : State), s.ready slot →
    (∀ c : Byte, 48 ≤ c.toNat → exec (.cancelRoute slot c) s = .next (s.answered slot 0x12 .badItem [])) ∧
    ∀ c : CarrierId,
      ((s.carrier c).state = .vacant ∨ (s.carrier c).state = .faulted →
        exec (.cancelRoute slot (byteOf c.val)) s = .next (s.answered slot 0x12 .wrongState [])) ∧
      ((s.carrier c).state ≠ .vacant → (s.carrier c).state ≠ .faulted →
        ∃ t : State, exec (.cancelRoute slot (byteOf c.val)) s = .next (t.answered slot 0x12 .ok []) ∧ EngineFrame s t ∧
          (t.carrier c).state = .idle ∧ (t.carrier c).route = none ∧ t.pinToken ≠ some c ∧
          ((s.carrier c).state = .waiting → (t.carrier c).wait = .none ∧ (t.carrier c).waitAge = 0) ∧
          ((s.carrier c).state ≠ .idle → (t.carrier c).flags.state = true) ∧
          (t.carrier c).flags.routeEnd = (s.carrier c).flags.routeEnd ∧
          (∀ w, (t.watch w).carrier = some c → (t.watch w).intact = false) ∧
          t.carrier c = { s.carrier c with
            state := .idle, held := (t.carrier c).held, route := none
            cursor := if (s.carrier c).route = none then (s.carrier c).cursor else .none
            laps := if (s.carrier c).route = none then (s.carrier c).laps else 0
            wait := if (s.carrier c).state = .waiting then .none else (s.carrier c).wait
            waitAge := if (s.carrier c).state = .waiting then 0 else (s.carrier c).waitAge
            flags := { (s.carrier c).flags with state := (s.carrier c).flags.state || decide ((s.carrier c).state ≠ .idle) } } ∧
          (∀ held, held = (s.carrier c).held.filter (fun e => decide (s.pinToken ≠ some c) || e.status == .granted) →
            ((s.carrier c).held.map (·.zone)).Nodup →
            (∀ l x r, held = l ++ x :: r → s.front c = some x.zone →
              (t.carrier c).held =
                if (s.carrier c).report.present = true ∧ (s.carrier c).report.report.motion = .stopped then
                  (if s.noStop x.zone = false then l ++ [x]
                   else l ++ x :: r.take ((r.takeWhile (fun e => s.noStop e.zone)).length + 1))
                else held) ∧
            ((∀ e ∈ held, s.front c ≠ some e.zone) → (t.carrier c).held = held)) ∧
          ∃ a b d e : State,
            ((s.carrier c).state = .waiting → Dequeued s a c) ∧ ((s.carrier c).state ≠ .waiting → a = s) ∧
            ((s.carrier c).state = .idle → b = a) ∧ ((s.carrier c).state ≠ .idle → StateEntered a b c .idle) ∧
            d = b.leaveClaim c ∧
            ((s.carrier c).route = none → e = d) ∧ ((s.carrier c).route ≠ none → ∃ x, RouteLeft d x c ∧ e = x.undirect c) ∧
            ∀ zs, zs = ((e.carrier c).held.drop (heldIndex (e.carrier c).held ((s.front c).getD 0) + 1)) →
              t = (if (s.carrier c).report.present = true ∧ (s.carrier c).report.report.motion = .stopped ∧
                    ∃ z, s.front c = some z ∧ e.holds c z = true
                  then ((if ((s.front c).map s.noStop) = some true then (zs.dropWhile (fun x => s.noStop x.zone)).drop 1 else zs).reverse).foldl
                    (fun v x => if v.holds c x.zone = true then v.release c x.zone else v) (e.breakWatch c)
                  else e.breakWatch c))

/-- Set Carrier (R65): the four parameters are written, and a change of horizon or claim mode runs the claim pass of an ADVANCING carrier. -/
def Obligations.SetCarrierWritesTheParameters : Prop :=
  ∀ (slot : MgmtSlot) (s : State), s.ready slot →
    (∀ c m h p l : Byte, 48 ≤ c.toNat ∨ 1 < m.toNat ∨ h.toNat = 0 ∨ 8 < h.toNat ∨ 1 < p.toNat ∨ 1 < l.toNat →
      exec (.setCarrier slot c m h p l) s = .next (s.answered slot 0x13 .badItem [])) ∧
    ∀ (c : CarrierId) (m : ClaimMode) (h : Nat) (p : Priority) (l : ClipMode), 1 ≤ h → h ≤ 8 →
      ((s.carrier c).state = .vacant →
        exec (.setCarrier slot (byteOf c.val) (claimModeByte m) (byteOf h) (priorityByte p) (clipModeByte l)) s =
          .next (s.answered slot 0x13 .wrongState [])) ∧
      ((s.carrier c).state ≠ .vacant →
        ∃ u t : State,
          exec (.setCarrier slot (byteOf c.val) (claimModeByte m) (byteOf h) (priorityByte p) (clipModeByte l)) s =
            .next (t.answered slot 0x13 .ok []) ∧
          u.carrier c = { s.carrier c with claimMode := m, horizon := h, priority := p, clipMode := l } ∧
          (∀ d, d ≠ c → u.carrier d = s.carrier d) ∧ (∀ w, u.watch w = (s.watch w).breakFor c) ∧
          (∀ w, u.machine w = s.machine w) ∧
          u = { s with carriers := u.carriers, operatorSlot := u.operatorSlot, safetySlot := u.safetySlot } ∧
          t = (if (s.carrier c).state = .advancing ∧ ((s.carrier c).horizon ≠ h ∨ (s.carrier c).claimMode ≠ m) then u.runPass c else u) ∧
          EngineFrame u t)

/-- Clear Fault: the first case of the table of R67 that applies; the entries before the rear zone's are released, rearmost first, each with its corridor's change and its wakes, complete before the next (R81), and then the carrier becomes IDLE with no fault kind, the rest of its held list kept. Retire Carrier (R68): refused for a VACANT, ADVANCING or WAITING carrier; an accepted one releases every entry in the same way, and then the slot becomes VACANT with no fault kind; its held list is empty, and its parameters, fault record and other flags are kept. -/
def Obligations.FaultsAreClearedAndCarriersRetired : Prop :=
  ∀ (slot : MgmtSlot) (s : State), s.ready slot →
    (∀ c : Byte, 48 ≤ c.toNat → exec (.clearFault slot c) s = .next (s.answered slot 0x14 .badItem [])) ∧
    (∀ c : Byte, 48 ≤ c.toNat → exec (.retireCarrier slot c) s = .next (s.answered slot 0x15 .badItem [])) ∧
    ∀ c : CarrierId,
      ((s.carrier c).state ≠ .faulted →
        exec (.clearFault slot (byteOf c.val)) s = .next (s.answered slot 0x14 .wrongState [])) ∧
      ((s.carrier c).state = .faulted →
        ¬((s.carrier c).report.present = true ∧ (s.carrier c).report.report.code = 0 ∧
          ∃ f r, s.front c = some f ∧ s.rear c = some r ∧ s.holds c f = true ∧ s.holds c r = true ∧
            heldIndex (s.carrier c).held r ≤ heldIndex (s.carrier c).held f) →
        exec (.clearFault slot (byteOf c.val)) s = .next (s.answered slot 0x14 .reportMismatch [])) ∧
      (∀ f r : ZoneId, (s.carrier c).state = .faulted → (s.carrier c).report.present = true →
        (s.carrier c).report.report.code = 0 → s.front c = some f → s.rear c = some r → s.holds c f = true →
        s.holds c r = true → heldIndex (s.carrier c).held r ≤ heldIndex (s.carrier c).held f →
        ∃ t : State, exec (.clearFault slot (byteOf c.val)) s = .next (t.answered slot 0x14 .ok []) ∧
          (t.carrier c).state = .idle ∧ (t.carrier c).fault = none ∧ (t.carrier c).flags.state = true ∧
          (((s.carrier c).held.map (·.zone)).Nodup →
            (t.carrier c).held = (s.carrier c).held.drop (heldIndex (s.carrier c).held r)) ∧
          (∀ w, (t.watch w).carrier = some c → (t.watch w).intact = false) ∧
          EngineFrame (s.modCarrier c (fun x => { x with fault := none })) t ∧
          ∃ u : State, u = ((s.carrier c).held.take (heldIndex (s.carrier c).held r)).foldl
              (fun v e => if v.holds c e.zone = true then v.release c e.zone else v) s ∧
            StateEntered (u.modCarrier c (fun x => { x with fault := none })) t c .idle) ∧
      ((s.carrier c).state ≠ .idle → (s.carrier c).state ≠ .faulted →
        exec (.retireCarrier slot (byteOf c.val)) s = .next (s.answered slot 0x15 .wrongState [])) ∧
      ((s.carrier c).state = .idle ∨ (s.carrier c).state = .faulted → (s.carrier c).route = none →
        ∃ t : State, exec (.retireCarrier slot (byteOf c.val)) s = .next (t.answered slot 0x15 .ok []) ∧
          t.carrier c = { s.carrier c with
            state := .vacant, held := [], fault := none, flags := { (s.carrier c).flags with state := true } } ∧
          (∀ w, (t.watch w).carrier = some c → (t.watch w).intact = false) ∧
          EngineFrame (s.modCarrier c (fun x => { x with fault := none })) t ∧
          ∃ u : State, u = (s.carrier c).held.foldl (fun v e => if v.holds c e.zone = true then v.release c e.zone else v) s ∧
            StateEntered (u.modCarrier c (fun x => { x with fault := none })) t c .vacant)

/-- Watch Carrier: the slot's watch becomes the carrier, intact, and the answer shows its state, route, cursor and farthest granted zone (R165). -/
def Obligations.WatchCarrierSetsTheWatch : Prop :=
  ∀ (slot : MgmtSlot) (s : State), s.ready slot →
    (∀ c : Byte, 48 ≤ c.toNat → exec (.watchCarrier slot c) s = .next (s.answered slot 0x18 .badItem [])) ∧
    ∀ c : CarrierId, ∃ t : State,
      exec (.watchCarrier slot (byteOf c.val)) s = .next (t.answered slot 0x18 .ok
        ([carrierStateByte (s.carrier c).state, finByte (s.carrier c).route] ++ cursorBytes (s.carrier c).cursor
          ++ [finByte (farthestGranted (s.carrier c).held)])) ∧
      t.watch slot = ⟨some c, true⟩ ∧ t.watch (otherSlot slot) = s.watch (otherSlot slot) ∧
      (∀ w, t.machine w = s.machine w) ∧ t = { s with operatorSlot := t.operatorSlot, safetySlot := t.safetySlot }

/-- Replace Route: the first case of the table of R166 that applies, the sending slot's watch becoming NONE whatever the answer; applied, in this order: a WAITING carrier leaves its queue; the token holder leaves its claim; the carrier takes the route after the start hop, over the seam where that is the route's last; its corridor entries become UNDIRECTED; it becomes ADVANCING, with the watches on it broken; and its claim pass runs. An IDLE carrier that a hold covers makes no claim there and keeps its holds. -/
def Obligations.ReplaceRouteFollowsItsTable : Prop :=
  ∀ (slot : MgmtSlot) (s : State), s.ready slot → ∀ n : State, n = s.setWatch slot ⟨none, false⟩ →
    (∀ (c r : Byte) (h : Half), 48 ≤ c.toNat ∨ 128 ≤ r.toNat ∨ 2048 ≤ h.toNat →
      exec (.replaceRoute slot c r h) s = .next (n.answered slot 0x19 .badItem [])) ∧
    ∀ (c : CarrierId) (r : RouteId) (h : HopIdx) (o : Host.Outcome State Fault Refusal),
      exec (.replaceRoute slot (byteOf c.val) (byteOf r.val) (BitVec.ofNat 16 h.val)) s = o →
      if s.mode = .safe then o = .next (n.answered slot 0x19 .notInService [])
      else if s.watch slot ≠ ⟨some c, true⟩ then o = .next (n.answered slot 0x19 .watchBroken [])
      else if (s.carrier c).state = .vacant ∨ (s.carrier c).state = .faulted then
        o = .next (n.answered slot 0x19 .wrongState [])
      else if (s.route r).defined = false ∨ h.val < (s.route r).firstHop.val ∨
          (s.route r).firstHop.val + (s.route r).hopCount ≤ h.val then o = .next (n.answered slot 0x19 .badItem [])
      else if farthestGranted (s.carrier c).held ≠ some (s.hop h).zone then
        o = .next (n.answered slot 0x19 .checkFailed (15 :: halfBytes (BitVec.ofNat 16 h.val)))
      else ∃ t : State, o = .next (t.answered slot 0x19 .ok []) ∧ EngineFrame n t ∧ t.watch slot = ⟨none, false⟩ ∧
        (∀ w, (t.watch w).carrier = some c → (t.watch w).intact = false) ∧
        ((s.carrier c).state = .idle → s.pinToken ≠ some c → s.covered c = true →
          (t.carrier c).state = .advancing ∧ (t.carrier c).flags.state = true ∧
          (t.carrier c).held = (s.carrier c).held ∧
          (h.val + 1 < (s.route r).firstHop.val + (s.route r).hopCount → (t.carrier c).route = some r ∧
            (t.carrier c).laps = (s.route r).lapCount ∧ (t.carrier c).cursor = .hop (Fin.ofNat 2048 (h.val + 1)))) ∧
        ∃ a b g : State,
          ((s.carrier c).state = .waiting → Dequeued n a c) ∧ ((s.carrier c).state ≠ .waiting → a = n) ∧
          RouteTaken (a.leaveClaim c) b c r h ∧
          (((b.undirect c).carrier c).state = .advancing → g = b.undirect c) ∧
          (((b.undirect c).carrier c).state ≠ .advancing → StateEntered (b.undirect c) g c .advancing) ∧
          t = (g.breakWatch c).runPass c

/-! ## Holds, policy and the stop line -/

/-- Hold Sector and Hold District: NOT_PERMITTED in the operator slot; in the safety slot the manual flag is set, and HOLD_CHANGE where the entry was not active (R140). -/
def Obligations.HoldsSetTheManualFlag : Prop :=
  ∀ s : State,
    (s.ready .operator → ∀ b, exec (.holdSector .operator b) s = .next (s.answered .operator 0x32 .notPermitted []) ∧
      exec (.holdDistrict .operator) s = .next (s.answered .operator 0x33 .notPermitted [])) ∧
    (s.ready .safety →
      (∀ b : Byte, 8 ≤ b.toNat → exec (.holdSector .safety b) s = .next (s.answered .safety 0x32 .badItem [])) ∧
      (∀ n : SectorId, exec (.holdSector .safety (byteOf n.val)) s = .next
        ({ s with
            sectorHolds := tset s.sectorHolds n { s.sectorHold n with manual := true }
            flags := { s.flags with holdChange := s.flags.holdChange || !s.sectorActive n } }.answered .safety 0x32 .ok [])) ∧
      exec (.holdDistrict .safety) s = .next
        ({ s with
            districtHold := { s.districtHold with manual := true }
            flags := { s.flags with holdChange := s.flags.holdChange || !s.districtActive } }.answered .safety 0x33 .ok []))

/-- Lift Hold: the first case of the table of R141 that applies; an entry that ceases to be active sets HOLD_CHANGE and hands the change to the engine (R139, R87), and the link flag stays. Write Policy: eight actions, all in range, replace the table whole (R133). -/
def Obligations.HoldsAreLiftedAndThePolicyWritten : Prop :=
  (∀ s : State, s.ready .safety →
    (∀ b : Byte, 8 < b.toNat → exec (.liftHold .safety b) s = .next (s.answered .safety 0x34 .badItem [])) ∧
    (∀ (n : SectorId) (l r : List (CarrierId × FaultKind)) (p : CarrierId × FaultKind),
      (s.sectorHold n).causes = l ++ p :: r → (∀ q ∈ l, (s.carrier q.1).state ≠ .faulted) → (s.carrier p.1).state = .faulted →
      exec (.liftHold .safety (byteOf n.val)) s = .next (s.answered .safety 0x34 .causeActive [byteOf p.1.val])) ∧
    (∀ (l r : List (CarrierId × FaultKind)) (p : CarrierId × FaultKind),
      s.districtHold.causes = l ++ p :: r → (∀ q ∈ l, (s.carrier q.1).state ≠ .faulted) → (s.carrier p.1).state = .faulted →
      exec (.liftHold .safety 8) s = .next (s.answered .safety 0x34 .causeActive [byteOf p.1.val])) ∧
    (∀ n : SectorId, (∀ q ∈ (s.sectorHold n).causes, (s.carrier q.1).state ≠ .faulted) →
      ∃ u t : State, exec (.liftHold .safety (byteOf n.val)) s = .next (t.answered .safety 0x34 .ok []) ∧
        u = { s with
          sectorHolds := tset s.sectorHolds n ⟨[], false⟩
          flags := { s.flags with holdChange := s.flags.holdChange || s.sectorActive n } } ∧
        t = (if s.sectorActive n = true then u.holdLifted else u) ∧ EngineFrame u t) ∧
    ((∀ q ∈ s.districtHold.causes, (s.carrier q.1).state ≠ .faulted) →
      ∃ u t : State, exec (.liftHold .safety 8) s = .next (t.answered .safety 0x34 .ok []) ∧
        u = { s with
          districtHold := ⟨[], false⟩
          flags := { s.flags with holdChange := s.flags.holdChange || (s.districtActive && !s.linkFlag) } } ∧
        t = (if s.districtActive = true ∧ s.linkFlag = false then u.holdLifted else u) ∧ EngineFrame u t)) ∧
  (∀ s : State, s.ready .safety →
    (∀ a : Vector Byte 8, (∃ i : Fin 8, 2 < (tget a i).toNat) →
      exec (.writePolicy .safety a) s = .next (s.answered .safety 0x35 .badItem [])) ∧
    ∀ p : Vector PolicyAction 8, exec (.writePolicy .safety (p.map policyActionByte)) s =
      .next ({ s with policy := p }.answered .safety 0x35 .ok []))

/-- The arm latch: Arm Stop Line is a safety command that sets it and, while the line is active, the stop marker; changes of the line set the marker while the latch is set and are without effect while it is clear; every reset clears it (R143). -/
def Obligations.TheArmLatchAndTheStopLine : Prop :=
  ∀ s : State,
    (s.ready .operator → exec (.armStopLine .operator) s = .next (s.answered .operator 0x30 .notPermitted [])) ∧
    (s.ready .safety → s.armLatch = true → exec (.armStopLine .safety) s = .next (s.answered .safety 0x30 .ok [])) ∧
    (s.ready .safety → s.armLatch = false → s.stopLine = false ∨ s.stopMarker = true →
      exec (.armStopLine .safety) s = .next ({ s with armLatch := true }.answered .safety 0x30 .ok [])) ∧
    (s.ready .safety → s.armLatch = false → s.stopLine = true → s.stopMarker = false →
      exec (.armStopLine .safety) s = .next
        ({ s with armLatch := true, stopMarker := true, flags := { s.flags with stop := true } }.answered .safety 0x30 .ok [])) ∧
    (s.armLatch = true → s.stopLine = false → s.stopMarker = false →
      exec (.stopLineChange true) s = .next { s with stopLine := true, stopMarker := true, flags := { s.flags with stop := true } }) ∧
    (∀ level : Bool, s.armLatch = false ∨ level = false ∨ s.stopLine = true ∨ s.stopMarker = true →
      exec (.stopLineChange level) s = .next { s with stopLine := level }) ∧
    ∀ t, AfterReset s t → t.armLatch = false

/-- Resume (R145): WRONG_STATE without the marker, LINE_ACTIVE while the line is active; else the marker clears, STOP is set, the latch stays, and every ADVANCING carrier has a claim pass in slot order, its state asked at its turn (the model's reading, log 20). -/
def Obligations.ResumeClearsTheStopMarker : Prop :=
  ∀ s : State, s.ready .safety →
    (s.stopMarker = false → exec (.resume .safety) s = .next (s.answered .safety 0x31 .wrongState [])) ∧
    (s.stopMarker = true → s.stopLine = true → exec (.resume .safety) s = .next (s.answered .safety 0x31 .lineActive [])) ∧
    (s.stopMarker = true → s.stopLine = false →
      ∃ u t : State, exec (.resume .safety) s = .next (t.answered .safety 0x31 .ok []) ∧
        u = { s with stopMarker := false, flags := { s.flags with stop := true } } ∧
        t = (List.finRange 48).foldl (fun v c => if (v.carrier c).state = .advancing then v.runPass c else v) u ∧
        t.armLatch = s.armLatch ∧ EngineFrame u t)

/-! ## Faults -/

/-- A fault raised for a slot (R132): none for a VACANT one; a repeat fault rewrites the record and the kind and sets FAULT (R137); a first fault leaves what R134 and R135 say of its carrier, which keeps its GRANTED entries for the validated front and rear zones and, but at a TRESPASS, no other entry, and feeds the hold entry that the policy action names (R136). Its steps, in the order of R134: the record is captured; a WAITING carrier leaves its queue; it becomes FAULTED; at a TRESPASS the reported zones are frozen; a token holder leaves its claim; the other GRANTED zones are released, farthest first, and at a TRESPASS the freezing is completed; a route is detached, the corridor entries becoming UNDIRECTED; the watches break and STATE and FAULT are set; and the policy action follows. At a freezing (R119) a zone held becomes GRANTED, one that may be given is given while the held list has room, the rear zone before the front zone (the model's choice, log 37), and the rear zone's entry stands first (its reading, log 21). -/
def Obligations.AFaultIsFirstOrRepeat : Prop :=
  ([.drive, .obstacle, .power, .localization, .other, .lost, .unstable, .trespass] : List FaultKind).map FaultKind.index =
    List.finRange 8 ∧
  ∀ (s : State) (c : CarrierId) (k : FaultKind),
    ((s.carrier c).state = .vacant → s.raiseFault c k = s) ∧
    ((s.carrier c).state = .faulted → ∃ t : State, s.raiseFault c k = t ∧ t = { s with carriers := t.carriers } ∧
      (∀ d, d ≠ c → t.carrier d = s.carrier d) ∧
      t.carrier c = { s.carrier c with
        fault := some k, flags := { (s.carrier c).flags with fault := true }
        faultRecord :=
          { kind := some k, frame := s.floorPort.frame, report := (s.carrier c).report, held := (s.carrier c).held,
            route := (s.carrier c).route, cursor := (s.carrier c).cursor, laps := (s.carrier c).laps, wait := (s.carrier c).wait,
            order := (s.carrier c).lastOrder, authority := (s.carrier c).authority, clip := (s.carrier c).clip,
            speed := (s.carrier c).speed } }) ∧
    ((s.carrier c).state ≠ .vacant → (s.carrier c).state ≠ .faulted → ∃ t : State, s.raiseFault c k = t ∧ FirstFaulted s t c k ∧
      (s.pinToken = some c ∨ s.hasPending c = false → ∀ e ∈ (t.carrier c).held, e.status = .granted) ∧
      (((s.carrier c).held.map (·.zone)).Nodup →
        (∀ e ∈ (s.carrier c).held, e.status = .granted → s.front c = some e.zone ∨ s.rear c = some e.zone → e ∈ (t.carrier c).held) ∧
        (k ≠ .trespass → s.pinToken = some c ∨ s.hasPending c = false → (t.carrier c).held = (s.carrier c).held.filter (fun e =>
          e.status == .granted && (s.front c == some e.zone || s.rear c == some e.zone)))) ∧
      FaultSteps s t c k ∧
      t.linkFlag = s.linkFlag ∧
      (tget s.policy k.index = .holdCarrier →
        t.sectorHolds = s.sectorHolds ∧ t.districtHold = s.districtHold ∧ t.flags.holdChange = s.flags.holdChange) ∧
      (tget s.policy k.index = .holdDistrict → DistrictFed s t c k) ∧
      (tget s.policy k.index = .holdSector → s.front c = none → DistrictFed s t c k) ∧
      (∀ z, tget s.policy k.index = .holdSector → s.front c = some z → SectorFed s t (s.zone z).sector c k) ∧
      (k = .trespass →
        (∀ z, s.front c = some z ∨ s.rear c = some z →
          (s.holds c z = true → t.holds c z = true) ∧
          (s.holds c z = false → s.mayBeGiven c z → (s.carrier c).held.length + 2 ≤ 12 →
            t.holds c z = true ∧ t.holder z = some c)) ∧
        ∀ b, s.rear c = some b → t.holds c b = true → heldIndex (t.carrier c).held b = 0)) ∧
    (∀ (z : ZoneId) (atRear : Bool) (t : State), s.freezeZone c z atRear = t →
      (s.holds c z = true → t = { s with carriers := t.carriers } ∧ (∀ d, d ≠ c → t.carrier d = s.carrier d) ∧
        t.carrier c = { s.carrier c with
          held := (s.carrier c).held.map (fun e => if e.zone = z then { e with status := .granted } else e) }) ∧
      (s.holds c z = false → s.mayBeGiven c z → (s.carrier c).held.length < 12 →
        t.carrier c = { s.carrier c with
          held := if atRear = true then ⟨z, .granted, none⟩ :: (s.carrier c).held else (s.carrier c).held ++ [⟨z, .granted, none⟩] } ∧
        (∀ d, d ≠ c → t.carrier d = s.carrier d) ∧ (∀ w, t.holder w = if w = z then some c else s.holder w) ∧
        (∀ l, s.corridorOfZone z = some l → (∀ o ∈ (s.cst l).occupants, o.slot ≠ c) →
          (t.cst l).occupants = (s.cst l).occupants ++ [⟨c, none⟩]) ∧
        ∀ l, s.corridorOfZone z ≠ some l → t.cst l = s.cst l) ∧
      (s.holds c z = false → ¬s.mayBeGiven c z ∨ 12 ≤ (s.carrier c).held.length → t = s)) ∧
    (∀ b f, s.rear c = some b → s.front c = some f → b ≠ f →
      s.freeze c = (s.freezeZone c b true).freezeZone c f false) ∧
    (∀ z, s.rear c = some z → s.front c = some z → s.freeze c = s.freezeZone c z false) ∧
    (∀ b, s.rear c = some b → s.front c = none → s.freeze c = s.freezeZone c b true) ∧
    (∀ f, s.rear c = none → s.front c = some f → s.freeze c = s.freezeZone c f false) ∧
    (s.rear c = none → s.front c = none → s.freeze c = s)

/-- The two limits of the report validator (R114, R115): an ABSENT report that brings the silence count to the limit raises LOST, and an eighth difference raises UNSTABLE; where the event's conditions fail nothing changes (log 2). -/
def Obligations.TheValidatorsLimits : Prop :=
  ∀ (c : CarrierId) (report : ReportBytes) (s : State), s.resetPin = false →
    (s.floorPort.state = .synced → (s.validator c).silence + 1 = s.silenceLimit ∨ s.silenceLimit < (s.validator c).silence →
      ∃ u t : State, exec (.silenceLimitReached c) s = .next t ∧ u.validator c = { s.validator c with silence := s.silenceLimit } ∧
        (∀ d, d ≠ c → u.validator d = s.validator d) ∧ u = { s with validators := u.validators } ∧ t = u.raiseFault c .lost) ∧
    (s.floorPort.state = .lost ∨ (s.validator c).silence = s.silenceLimit ∨ (s.validator c).silence + 1 < s.silenceLimit →
      exec (.silenceLimitReached c) s = .next s) ∧
    (∀ x, s.floorPort.state = .synced → (s.validator c).instability = 7 → (s.validator c).candidate = some x →
      x ≠ readReport report →
      ∃ u t : State, exec (.instabilityLimitReached c report) s = .next t ∧
        u.validator c = { s.validator c with candidate := some (readReport report), instability := 8 } ∧
        (∀ d, d ≠ c → u.validator d = s.validator d) ∧ u = { s with validators := u.validators } ∧ t = u.raiseFault c .unstable) ∧
    (s.floorPort.state = .lost ∨ (s.validator c).instability ≠ 7 ∨ (s.validator c).candidate = none ∨
        (s.validator c).candidate = some (readReport report) →
      exec (.instabilityLimitReached c report) s = .next s)

/-! ## Checksum and service mode -/

/-- Checksum: EXECUTING until the second expiry, whose part for the slot is then the completion, the first having been noted: the CRC of zones, corridors, routes without their users counts, and hops, STALE after a table write from the other slot (R167). -/
def Obligations.ChecksumAnswersTheConfigurationsCrc : Prop :=
  ∀ (slot : MgmtSlot) (s : State),
    (s.ready slot → exec (.checksum slot) s = .next (s.setMachine slot (.executing .checksum 0 false))) ∧
    (∀ (n : Nat) (written : Bool), s.resetPin = false → s.machine slot = .executing .checksum n written → 1 ≤ n →
      exec (.checksumCompletion slot) s = .next (s.answered slot 0x20 (if written then .stale else .ok)
        (halfBytes (crc
          (allZones.flatMap (fun z => zoneBytes (s.zone z)) ++ allCorridors.flatMap (fun k => s.corridorBytes k)
            ++ allRoutes.flatMap (fun r => routeBytes (s.route r))
            ++ (List.finRange 2048).flatMap (fun h => [byteOf (s.hop h).zone.val, byteOf (s.hop h).cap.val])))))) ∧
    ((∀ n written, s.machine slot = .executing .checksum n written → n = 0) → exec (.checksumCompletion slot) s = .next s) ∧
    (∀ written, s.machine slot = .executing .checksum 0 written →
      s.completionPart slot = s.setMachine slot (.executing .checksum 1 written)) ∧
    (∀ written, s.resetPin = false → s.machine slot = .executing .checksum 1 written →
      exec (.checksumCompletion slot) s = .next (s.completionPart slot)) ∧
    s.expiryPart (match slot with | .operator => .operatorCompletion | .safety => .safetyCompletion) = s.completionPart slot

/-- Enter Service and Leave Service (R168): WRONG_STATE in SERVICE mode, else EXECUTING until the second expiry, whose part for the slot is the completion, the first having been noted: TABLES_CHANGED, AUDIT_FAILED with the audit's first failure, or SERVICE. The audit fails at the first corridor whose positions have a gap, and else at the first defined route that fails a row of the table of R46, with that row (R169). Leave Service needs SERVICE mode and no carrier ADVANCING or WAITING. -/
def Obligations.EnteringAndLeavingService : Prop :=
  ∀ (slot : MgmtSlot) (s : State),
    (s.ready slot → s.mode = .service → exec (.enterService slot) s = .next (s.answered slot 0x21 .wrongState [])) ∧
    (s.ready slot → s.mode = .safe → exec (.enterService slot) s = .next (s.setMachine slot (.executing .enterService 0 false))) ∧
    (∀ (n : Nat) (written : Bool) (o : Host.Outcome State Fault Refusal), s.resetPin = false →
      s.machine slot = .executing .enterService n written → 1 ≤ n → exec (.enterServiceCompletion slot) s = o →
      (written = true → o = .next (s.answered slot 0x21 .tablesChanged [])) ∧
      (∀ f, written = false → s.audit = some f →
        o = .next (s.answered slot 0x21 .auditFailed (f.kind.code :: halfBytes (BitVec.ofNat 16 f.index)))) ∧
      (written = false → s.audit = none → o = .next ({ s with mode := .service }.answered slot 0x21 .ok []))) ∧
    ((∀ n written, s.machine slot = .executing .enterService n written → n = 0) →
      exec (.enterServiceCompletion slot) s = .next s) ∧
    (∀ written, s.machine slot = .executing .enterService 0 written →
      s.completionPart slot = s.setMachine slot (.executing .enterService 1 written)) ∧
    (∀ written, s.resetPin = false → s.machine slot = .executing .enterService 1 written →
      exec (.enterServiceCompletion slot) s = .next (s.completionPart slot)) ∧
    s.expiryPart (match slot with | .operator => .operatorCompletion | .safety => .safetyCompletion) = s.completionPart slot ∧
    (∀ k, ¬s.positionsRun k → (∀ l < k, s.positionsRun l) → s.audit = some ⟨.corridorGap, k.val⟩) ∧
    ((∀ k, s.positionsRun k) → (∀ r, (s.route r).placed) →
      (∀ r f, (s.route r).defined = true → s.firstRow r f → (∀ p < r, (s.route p).defined = true → s.routePasses p) →
        s.audit = some f) ∧
      ((∀ r, (s.route r).defined = true → s.routePasses r) → s.audit = none)) ∧
    (s.ready .safety → s.mode = .safe ∨ (∃ c, s.active c) →
      exec (.leaveService .safety) s = .next (s.answered .safety 0x36 .wrongState [])) ∧
    (s.ready .safety → s.mode = .service → (∀ c, ¬s.active c) →
      exec (.leaveService .safety) s = .next ({ s with mode := .safe }.answered .safety 0x36 .ok []))

/-! ## The District Link -/

/-- An expiry of the frame timer runs its seven parts in the order that the command gives (log 4): each port closes its reply window and departs, the engine counts the wait ages and gives the pin token (R89, R90), and each EXECUTING job is noted at its first expiry and completes at its second (R167, R168). Both frame numbers rise by 1, both reply windows open, both frames are sent with their lengths and numbers, as the part stands at each departure, and the configuration stays (R148, R155 to R158). A reply window of either port that closes with no frame taken counts a bad frame, the third in a run losing the port with the effects of R153 or R154 (R150; in the passes of the order changes each carrier's state is asked at its turn, the model's reading, log 20), and each wait age but that of a HOLD waiter rises by 1 (R89). A departing frame carries its markers, stamps, outputs or annotations and the answer fragment due, and an ANSWERING machine goes on to its next fragment, or to IDLE after its last (R155, R156, R162). -/
def Obligations.AnExpiryDepartsOnBothPorts : Prop :=
  ∀ (order : List ExpiryPart) (s : State), expiryOrderOk order = true →
    (s.resetPin = true → exec (.frameTimerExpiry order) s = .next s) ∧
    (s.resetPin = false → ∃ t : State, exec (.frameTimerExpiry order) s = .next t ∧
      t.floorPort.frame = s.floorPort.frame + 1 ∧ t.dispatchPort.frame = s.dispatchPort.frame + 1 ∧
      t.floorPort.window = .open ∧ t.dispatchPort.window = .open ∧
      t.floorSent.length = 135 ∧ t.floorSent.take 2 = halfBytes (s.floorPort.frame + 1) ∧
      t.dispatchSent.length = 426 ∧ t.dispatchSent.take 2 = halfBytes (s.dispatchPort.frame + 1) ∧
      t = order.foldl State.expiryPart s ∧
      (∃ l r, order = l ++ .floorDepart :: r ∧ t.floorSent = (l.foldl State.expiryPart s).departFloor.floorSent) ∧
      (∃ l r, order = l ++ .dispatchDepart :: r ∧ t.dispatchSent = (l.foldl State.expiryPart s).departDispatch.dispatchSent) ∧
      t.zones = s.zones ∧ t.corridors = s.corridors ∧ t.hops = s.hops ∧ t.policy = s.policy ∧ t.masks = s.masks ∧
      t.floorPartner = s.floorPartner ∧ t.silenceLimit = s.silenceLimit ∧ t.clearPersistence = s.clearPersistence ∧
      t.starvationLimit = s.starvationLimit ∧ t.armLatch = s.armLatch ∧ t.stopMarker = s.stopMarker ∧ t.stopLine = s.stopLine ∧
      t.districtCode = s.districtCode ∧ t.pending = s.pending) ∧
    (s.expiryPart .floorClose = s.closeFloor ∧ s.expiryPart .floorDepart = s.departFloor ∧
      s.expiryPart .dispatchClose = s.closeDispatch ∧ s.expiryPart .dispatchDepart = s.departDispatch ∧
      s.expiryPart .engine = s.countAges.giveToken ∧ s.expiryPart .operatorCompletion = s.completionPart .operator ∧
      s.expiryPart .safetyCompletion = s.completionPart .safety) ∧
    (∀ slot, ((∀ j n w, s.machine slot ≠ .executing j n w) → s.completionPart slot = s) ∧
      (∀ j w, s.machine slot = .executing j 0 w → s.completionPart slot = s.setMachine slot (.executing j 1 w)) ∧
      ∀ j n w, s.machine slot = .executing j n w → 1 ≤ n → s.resetPin = false →
        (match j with | .checksum => exec (.checksumCompletion slot) s | .enterService => exec (.enterServiceCompletion slot) s) =
          .next (s.completionPart slot)) ∧
    ((s.floorPort.window ≠ .open → s.closeFloor = { s with floorPort := { s.floorPort with window := .none } }) ∧
     (s.floorPort.window = .open → s.floorPort.state = .lost →
        s.closeFloor = { s with floorPort := { s.floorPort with goodRun := 0, window := .none } }) ∧
     (s.floorPort.window = .open → s.floorPort.state = .synced → s.floorPort.badRun < 2 →
        s.closeFloor.floorPort = { s.floorPort with badRun := s.floorPort.badRun + 1, window := .none } ∧
        ∀ f i, s.closeFloor.input f i = { s.input f i with clear := false, run := 0 }) ∧
     (s.floorPort.window = .open → s.floorPort.state = .synced → s.floorPort.badRun = 2 →
        s.closeFloor.floorPort = { s.floorPort with state := .lost, badRun := 0, goodRun := 0, window := .none } ∧
        s.closeFloor.flags.floorLink = true ∧ s.closeFloor.linkFlag = true ∧ s.closeFloor.machine .safety = .idle ∧
        (∀ c, s.closeFloor.validator c = { s.validator c with candidate := none }) ∧
        ∀ f i, s.closeFloor.input f i = { s.input f i with clear := false, run := 0 })) ∧
    ((s.dispatchPort.window ≠ .open → s.closeDispatch = { s with dispatchPort := { s.dispatchPort with window := .none } }) ∧
     (s.dispatchPort.window = .open → s.dispatchPort.state = .lost →
        s.closeDispatch = { s with dispatchPort := { s.dispatchPort with goodRun := 0, window := .none } }) ∧
     (s.dispatchPort.window = .open → s.dispatchPort.state = .synced → s.dispatchPort.badRun < 2 →
        s.closeDispatch = { s with dispatchPort := { s.dispatchPort with badRun := s.dispatchPort.badRun + 1, window := .none } }) ∧
     (s.dispatchPort.window = .open → s.dispatchPort.state = .synced → s.dispatchPort.badRun = 2 →
        s.closeDispatch.dispatchPort = { s.dispatchPort with state := .lost, badRun := 0, goodRun := 0, window := .none } ∧
        s.closeDispatch.flags.dispatchLink = true ∧ s.closeDispatch.machine .operator = .idle ∧
        ∃ u t : State,
          u = { s with
            dispatchPort := { s.dispatchPort with state := .lost, badRun := 0, goodRun := 0 }
            flags := { s.flags with dispatchLink := true }
            operatorSlot := { s.operatorSlot with machine := .idle } } ∧
          t = (List.finRange 48).foldl (fun v c =>
            if (s.carrier c).lastOrder.kind ≠ .hold ∧ (v.carrier c).state = .advancing ∧ (v.carrier c).claimMode = .onOrder
              then v.runPass c else v) u ∧
          EngineFrame u t ∧ s.closeDispatch = { t with dispatchPort := { t.dispatchPort with window := .none } })) ∧
    ((∀ c, s.countAges.carrier c = { s.carrier c with
      waitAge := if (s.carrier c).state = .waiting ∧ (s.carrier c).wait ≠ .hold then min ((s.carrier c).waitAge + 1) 65535
        else (s.carrier c).waitAge }) ∧ s.countAges = { s with carriers := s.countAges.carriers }) ∧
    (∃ body : List Byte, s.departFloor.floorSent = body ++ halfBytes (crc body) ∧ body =
      halfBytes (s.floorPort.frame + 1) ++ [s.districtCode.setWidth 8,
          boolByte s.stopMarker ||| (boolByte s.districtActive <<< 1) ||| (boolByte (s.mode == .safe) <<< 2)]
        ++ allCarriers.flatMap (fun c => [finByte (s.stampOf c).authority,
            orderKindByte (s.orderRead c).kind ||| (byteOf (s.stampOf c).speed.val <<< 4)])
        ++ allFieldSlots.map (fun f => bitsByte (s.output f)) ++ (s.machine .safety).answerSlot) ∧
    (∃ body : List Byte, s.departDispatch.dispatchSent = body ++ halfBytes (crc body) ∧ body =
      halfBytes (s.dispatchPort.frame + 1) ++ [s.districtCode.setWidth 8,
          boolByte s.attention ||| (boolByte (s.floorPort.state == .synced) <<< 1) ||| (boolByte (s.mode == .service) <<< 2)
            ||| (boolByte s.stopMarker <<< 3) ||| (boolByte s.districtActive <<< 4),
          bitsByte s.sectorActive]
        ++ halfBytes s.floorPartner
        ++ allCarriers.flatMap (fun c => validatedBytes (s.carrier c).report ++
            if (s.carrier c).state = .vacant then ([0, 255, 0, 255, 255] : List Byte)
            else [carrierStateByte (s.carrier c).state ||| (clipReasonByte (s.carrier c).clip <<< 4)
                  ||| (boolByte (s.pinToken == some c) <<< 7),
                finByte (farthestGranted (s.carrier c).held), waitCauseByte (s.carrier c).wait,
                waitObjectByte (s.carrier c).wait, finByte (s.carrier c).authority])
        ++ allFieldSlots.map (fun f => bitsByte (fun i => (s.input f i).clear)) ++ (s.machine .operator).answerSlot) ∧
    (∀ (p : LineId → Bool) (i : LineId), (bitsByte p).getLsbD i.val = p i) ∧
    (s.attention = true ↔
      (s.flags.holdChange = true ∧ s.masks.getLsbD 0 = true) ∨ (s.flags.deadlock = true ∧ s.masks.getLsbD 1 = true) ∨
      (s.flags.stop = true ∧ s.masks.getLsbD 2 = true) ∨ (s.flags.floorLink = true ∧ s.masks.getLsbD 3 = true) ∨
      (s.flags.dispatchLink = true ∧ s.masks.getLsbD 4 = true) ∨ (s.flags.reset = true ∧ s.masks.getLsbD 5 = true) ∨
      ∃ c, ((s.carrier c).flags.state = true ∧ s.masks.getLsbD 6 = true) ∨
        ((s.carrier c).flags.fault = true ∧ s.masks.getLsbD 7 = true) ∨
        ((s.carrier c).flags.clip = true ∧ s.masks.getLsbD 8 = true) ∨
        ((s.carrier c).flags.wait = true ∧ s.masks.getLsbD 9 = true) ∨
        ((s.carrier c).flags.routeEnd = true ∧ s.masks.getLsbD 10 = true)) ∧
    (∀ slot, (∀ b n, s.machine slot = .receiving b n → (s.machine slot).answerSlot = 0 :: List.replicate 16 0) ∧
      (s.machine slot = .idle → (s.machine slot).answerSlot = 0 :: List.replicate 16 0) ∧
      (∀ j n w, s.machine slot = .executing j n w → (s.machine slot).answerSlot = 0x20 :: List.replicate 16 0) ∧
      ∀ m n, s.machine slot = .answering m n → ∃ control : Byte,
        (s.machine slot).answerSlot =
          control :: ((m.drop (16 * n)).take 16 ++ List.replicate (16 - ((m.drop (16 * n)).take 16).length) 0) ∧
        control.getLsbD 7 = decide (n = 0) ∧ control.getLsbD 6 = decide (m.length ≤ 16 * (n + 1)) ∧
        control.getLsbD 5 = decide (16 * (n + 1) < m.length) ∧ control.getLsbD 4 = true ∧
        control.extractLsb' 2 2 = 0 ∧ control.extractLsb' 0 2 = BitVec.ofNat 2 n) ∧
    (s.departFloor.machine .safety =
        (match s.machine .safety with
          | .answering m n => if m.length ≤ 16 * (n + 1) then .idle else .answering m (n + 1)
          | x => x) ∧
      s.departFloor.machine .operator = s.machine .operator) ∧
    s.departDispatch.machine .operator =
        (match s.machine .operator with
          | .answering m n => if m.length ≤ 16 * (n + 1) then .idle else .answering m (n + 1)
          | x => x) ∧
      s.departDispatch.machine .safety = s.machine .safety

/-- A floor frame (R149, R150, R151): without an open window it is discarded; a bad one is counted, and read unclear by every input while the port is SYNCED; a good one that carries no management fragment is counted, and while the port is SYNCED its partner number is kept and each slot's report becomes its candidate (R113). The reports, each read from its three bytes by R157, are taken in slot order, each compared with its candidate; a repeated one has its instability count at 0 and is validated, where it is new (R112, R113). The comparison that brings the instability count from 7 to 8 raises UNSTABLE, and at 8 the count stays (R114); the ABSENT report that brings the silence count to its limit raises LOST, and at the limit the count stays (R115). A new report replaces the validated one; a PRESENT one of an IDLE, ADVANCING or WAITING carrier raises the first fault of R117, or, as progress, releases the entries behind the new rear zone, rearmost first, and runs the claim pass of a carrier that is then ADVANCING (R116 to R118, log 36); a validated zone of NONE counts as another zone for the blocked flags (log 18). The four blocks take a good frame of a SYNCED port in the order that the command gives: the validator the reports, the field monitor the inputs, the slot machine the fragment (log 5). The third bad frame in a run is the port's loss, and the second good one its return. -/
def Obligations.AFloorFrameArrives : Prop :=
  (∀ b : ReportBytes,
    (b.status.getLsbD 7 = false → readReport b = .absent) ∧
    (b.status.getLsbD 7 = true → ∃ p : Report, readReport b = .present p ∧
      p.front.map (·.val) = (if b.front.toNat < 240 then some b.front.toNat else none) ∧
      p.rear.map (·.val) = (if b.rear.toNat < 240 then some b.rear.toNat else none) ∧
      p.motion = (if b.status.getLsbD 6 = true then .moving else .stopped) ∧ p.code.val = b.status.toNat % 8)) ∧
  (∀ (s : State) (frame : List Byte), s.takeReports frame = (List.finRange 48).foldl (fun t c =>
    t.takeReport c (readReport ⟨frame.getD (5 + 3 * c.val) 0, frame.getD (6 + 3 * c.val) 0, frame.getD (7 + 3 * c.val) 0⟩)) s) ∧
  (∀ (s : State) (c : CarrierId) (r : ReadReport), s.takeReport c r = (s.compare c r).countSilence c r ∧
    ((s.validator c).candidate = none → s.compare c r = s.setValidator c { s.validator c with candidate := some r }) ∧
    (∀ x, (s.validator c).candidate = some x → x ≠ r → (s.validator c).instability < 7 →
      s.compare c r = s.setValidator c
        { s.validator c with candidate := some r, instability := (s.validator c).instability + 1 }) ∧
    (∀ x, (s.validator c).candidate = some x → x ≠ r → (s.validator c).instability = 7 →
      s.compare c r = (s.setValidator c { s.validator c with candidate := some r, instability := 8 }).raiseFault c .unstable) ∧
    (∀ x, (s.validator c).candidate = some x → x ≠ r → (s.validator c).instability = 8 →
      s.compare c r = s.setValidator c { s.validator c with candidate := some r }) ∧
    ((s.validator c).candidate = some r →
      s.compare c r = (s.setValidator c { s.validator c with instability := 0 }).validate c r) ∧
    (∀ p, s.countSilence c (.present p) = s.setValidator c { s.validator c with silence := 0 }) ∧
    ((s.validator c).silence + 1 < s.silenceLimit →
      s.countSilence c .absent = s.setValidator c { s.validator c with silence := (s.validator c).silence + 1 }) ∧
    ((s.validator c).silence + 1 = s.silenceLimit ∨ s.silenceLimit < (s.validator c).silence →
      s.countSilence c .absent = (s.setValidator c { s.validator c with silence := s.silenceLimit }).raiseFault c .lost) ∧
    ((s.validator c).silence = s.silenceLimit → s.countSilence c .absent = s)) ∧
  (∀ (s : State) (c : CarrierId),
    ((s.carrier c).report.present = false → s.validate c .absent = s) ∧
    ((s.carrier c).report.present = true →
      ReportReplaced s (s.validate c .absent) c { (s.carrier c).report with present := false }) ∧
    ∀ (p : Report) (t : State), s.validate c (.present p) = t →
      ((s.carrier c).report = ⟨true, p⟩ → t = s) ∧
      ((s.carrier c).report ≠ ⟨true, p⟩ → ∃ u, ReportReplaced s u c ⟨true, p⟩ ∧
        ((s.carrier c).state = .vacant ∨ (s.carrier c).state = .faulted → t = u) ∧
        ((s.carrier c).state ≠ .vacant → (s.carrier c).state ≠ .faulted →
          (p.front = none ∨ p.rear = none → t = u.raiseFault c .localization) ∧
          ∀ f b, p.front = some f → p.rear = some b →
            (s.holdsGranted c f = false ∨ s.holdsGranted c b = false → t = u.raiseFault c .trespass) ∧
            (s.holdsGranted c f = true → s.holdsGranted c b = true →
              (heldIndex (s.carrier c).held f < heldIndex (s.carrier c).held b → t = u.raiseFault c .localization) ∧
              (heldIndex (s.carrier c).held b ≤ heldIndex (s.carrier c).held f →
                (p.code.val = 1 → t = u.raiseFault c .drive) ∧ (p.code.val = 2 → t = u.raiseFault c .obstacle) ∧
                (p.code.val = 3 → t = u.raiseFault c .power) ∧ (p.code.val = 4 → t = u.raiseFault c .localization) ∧
                (5 ≤ p.code.val → t = u.raiseFault c .other) ∧
                (p.code.val = 0 → ∃ w : State,
                  w = ((s.carrier c).held.take (heldIndex (s.carrier c).held b)).foldl
                    (fun v e => if v.holds c e.zone = true then v.release c e.zone else v) u ∧
                  t = if (w.carrier c).state = .advancing then w.runPass c else w)))))) ∧
  (∀ (s : State) (frame : List Byte) (returned : Bool),
    (s.floorPort.state = .lost → ∀ b, s.floorBlock frame returned b = s) ∧
    (s.floorPort.state = .synced → s.floorBlock frame returned .validator = s.takeReports frame ∧
      s.floorBlock frame returned .management = s.takeFragment .safety (frame.getD 181 0) ((frame.drop 182).take 16) ∧
      s.floorBlock frame returned .holdUnit = (if returned = true then s.clearLink else s) ∧
      ∃ u : State, (∀ f i, u.input f i = (s.input f i).take s.clearPersistence ((frame.getD (149 + 2 * f.val) 0).getLsbD 7 &&
          (s.input f i).readsClear ((frame.getD (150 + 2 * f.val) 0).getLsbD i.val))) ∧
        HandedOver s u (s.floorBlock frame returned .monitor))) ∧
  ∀ (order : List FloorBlock) (frame : List Byte) (s : State), floorOrderOk order = true → s.resetPin = false →
    (s.floorPort.window ≠ .open → exec (.floorFrameArrival order frame) s = .next s) ∧
    (s.floorPort.window = .open → s.floorPort.state = .lost → ¬GoodFloorFrame s frame →
      exec (.floorFrameArrival order frame) s = .next { s with floorPort := { s.floorPort with window := .taken, goodRun := 0 } }) ∧
    (s.floorPort.window = .open → s.floorPort.state = .lost → s.floorPort.goodRun = 0 → GoodFloorFrame s frame →
      exec (.floorFrameArrival order frame) s = .next { s with floorPort := { s.floorPort with window := .taken, goodRun := 1 } }) ∧
    (s.floorPort.window = .open → s.floorPort.state = .synced → s.floorPort.badRun < 2 → ¬GoodFloorFrame s frame →
      ∃ t : State, exec (.floorFrameArrival order frame) s = .next t ∧
        t.floorPort = { s.floorPort with window := .taken, badRun := s.floorPort.badRun + 1 } ∧
        (∀ f i, t.input f i = { s.input f i with clear := false, run := 0 }) ∧
        (∃ u v : State, (∀ f i, u.input f i = { s.input f i with clear := false, run := 0 }) ∧ HandedOver s u v ∧
          t = { v with floorPort := t.floorPort }) ∧
        t.floorPartner = s.floorPartner ∧ t.validators = s.validators ∧ t.dispatchPort = s.dispatchPort) ∧
    (s.floorPort.window = .open → s.floorPort.state = .synced → s.floorPort.badRun = 2 → ¬GoodFloorFrame s frame →
      exec (.floorFrameArrival order frame) s = exec .floorPortLoss s) ∧
    (s.floorPort.window = .open → s.floorPort.state = .lost → s.floorPort.goodRun = 1 → GoodFloorFrame s frame →
      exec (.floorFrameArrival order frame) s = exec (.floorPortReturn order frame) s) ∧
    (s.floorPort.window = .open → s.floorPort.state = .synced → GoodFloorFrame s frame →
      exec (.floorFrameArrival order frame) s = .next (order.foldl (fun t b => t.floorBlock frame false b)
        { s with
          floorPort := { s.floorPort with window := .taken, badRun := 0 }
          floorPartner := halfOf (frame.getD 0 0) (frame.getD 1 0) })) ∧
    (s.floorPort.window = .open → s.floorPort.state = .synced → GoodFloorFrame s frame → (frame.getD 181 0).getLsbD 4 = false →
      ∃ t : State, exec (.floorFrameArrival order frame) s = .next t ∧
        t.floorPort = { s.floorPort with window := .taken, badRun := 0 } ∧
        t.floorPartner = halfOf (frame.getD 0 0) (frame.getD 1 0) ∧
        (∀ c, (t.validator c).candidate = some (readReport ⟨frame.getD (5 + 3 * c.val) 0, frame.getD (6 + 3 * c.val) 0,
          frame.getD (7 + 3 * c.val) 0⟩)) ∧
        (∀ f i, t.input f i = (s.input f i).take s.clearPersistence ((frame.getD (149 + 2 * f.val) 0).getLsbD 7 &&
          (s.input f i).readsClear ((frame.getD (150 + 2 * f.val) 0).getLsbD i.val))) ∧
        t.dispatchPort = s.dispatchPort ∧ t.mode = s.mode ∧ t.zones = s.zones)

/-- A dispatcher frame (R149, R150, R152): without an open window it is discarded; a bad one is counted, the third in a run being the port's loss; a good one is counted, the second being its return, and while the port is SYNCED it replaces the 48 last orders, each read from its two bytes by R158, then hands its fragment to the operator slot, and then, in slot order, each carrier whose order differs from its last one, and which is ADVANCING and ON_ORDER at its turn, has a claim pass (R73; that this is asked at its turn is the model's reading, log 20). -/
def Obligations.ADispatcherFrameArrives : Prop :=
  (∀ b target : Byte, ∃ v : Speed, v.val = b.toNat / 16 % 4 ∧
    (b.toNat % 4 = 0 → readOrder b target = ⟨.hold, target, v⟩) ∧ (b.toNat % 4 = 1 → readOrder b target = ⟨.goTo, target, v⟩) ∧
    (b.toNat % 4 = 2 → readOrder b target = ⟨.goFull, target, v⟩) ∧ (b.toNat % 4 = 3 → readOrder b target = ⟨.hold, 255, 0⟩)) ∧
  ∀ (frame : List Byte) (s : State), s.resetPin = false →
    (s.dispatchPort.window ≠ .open → exec (.dispatcherFrameArrival frame) s = .next s) ∧
    (s.dispatchPort.window = .open → s.dispatchPort.state = .lost → ¬GoodDispatcherFrame s frame →
      exec (.dispatcherFrameArrival frame) s =
        .next { s with dispatchPort := { s.dispatchPort with window := .taken, goodRun := 0 } }) ∧
    (s.dispatchPort.window = .open → s.dispatchPort.state = .lost → s.dispatchPort.goodRun = 0 → GoodDispatcherFrame s frame →
      exec (.dispatcherFrameArrival frame) s =
        .next { s with dispatchPort := { s.dispatchPort with window := .taken, goodRun := 1 } }) ∧
    (s.dispatchPort.window = .open → s.dispatchPort.state = .synced → s.dispatchPort.badRun < 2 → ¬GoodDispatcherFrame s frame →
      exec (.dispatcherFrameArrival frame) s =
        .next { s with dispatchPort := { s.dispatchPort with window := .taken, badRun := s.dispatchPort.badRun + 1 } }) ∧
    (s.dispatchPort.window = .open → s.dispatchPort.state = .synced → GoodDispatcherFrame s frame →
      (frame.getD 99 0).getLsbD 4 = false →
      ∃ u t : State, exec (.dispatcherFrameArrival frame) s = .next t ∧
        (∀ c, u.carrier c = { s.carrier c with
          lastOrder := readOrder (frame.getD (3 + 2 * c.val) 0) (frame.getD (4 + 2 * c.val) 0) }) ∧
        u = { s with carriers := u.carriers, dispatchPort := { s.dispatchPort with window := .taken, badRun := 0 } } ∧
        EngineFrame u t ∧ ((∀ c, u.carrier c = s.carrier c) → t = u)) ∧
    (s.dispatchPort.window = .open → s.dispatchPort.state = .synced → GoodDispatcherFrame s frame →
      ∃ u : State,
        (∀ c, u.carrier c = { s.carrier c with
          lastOrder := readOrder (frame.getD (3 + 2 * c.val) 0) (frame.getD (4 + 2 * c.val) 0) }) ∧
        u = { s with carriers := u.carriers, dispatchPort := { s.dispatchPort with window := .taken, badRun := 0 } } ∧
        exec (.dispatcherFrameArrival frame) s = .next ((List.finRange 48).foldl
          (fun v c =>
            if readOrder (frame.getD (3 + 2 * c.val) 0) (frame.getD (4 + 2 * c.val) 0) ≠ (s.carrier c).lastOrder ∧
                (v.carrier c).state = .advancing ∧ (v.carrier c).claimMode = .onOrder
              then v.runPass c else v)
          (u.takeFragment .operator (frame.getD 99 0) ((frame.drop 100).take 16)))) ∧
    (s.dispatchPort.window = .open → s.dispatchPort.state = .synced → s.dispatchPort.badRun = 2 → ¬GoodDispatcherFrame s frame →
      exec (.dispatcherFrameArrival frame) s = exec .dispatchPortLoss s) ∧
    (s.dispatchPort.window = .open → s.dispatchPort.state = .lost → s.dispatchPort.goodRun = 1 → GoodDispatcherFrame s frame →
      exec (.dispatcherFrameArrival frame) s = exec (.dispatchPortReturn frame) s)

/-- The floor port's loss and return (R150, R151, R153, R142, R125): the third bad frame sets FLOOR_LINK and the link flag, empties the candidates, makes every input UNCLEAR, the zones following, and ends the safety message; the second good frame sets FLOOR_LINK and is handed on to the blocks in the order that the command gives (log 5), the hold unit's part being to clear the link flag: where that ends the district entry's activity, HOLD_CHANGE is set and the engine takes up its work (R139, R87). -/
def Obligations.TheFloorPortIsLostAndReturns : Prop :=
  ∀ s : State, s.resetPin = false →
    (s.floorPort.state = .synced → s.floorPort.badRun = 2 → s.floorPort.window = .open →
      ∃ t : State, exec .floorPortLoss s = .next t ∧
        t.floorPort = { s.floorPort with state := .lost, badRun := 0, goodRun := 0, window := .taken } ∧
        t.flags.floorLink = true ∧ t.linkFlag = true ∧ t.machine .safety = .idle ∧ t.machine .operator = s.machine .operator ∧
        (∀ c, t.validator c = { s.validator c with candidate := none }) ∧
        (∀ f i, t.input f i = { s.input f i with clear := false, run := 0 }) ∧
        (∀ c, (t.carrier c).report = (s.carrier c).report) ∧ t.dispatchPort = s.dispatchPort ∧
        ∃ u v : State, (∀ f i, u.input f i = { s.input f i with clear := false, run := 0 }) ∧ HandedOver s u v ∧
          t = { v with
            floorPort := t.floorPort, linkFlag := true, validators := t.validators
            flags := { s.flags with floorLink := true, holdChange := s.flags.holdChange || !s.districtActive }
            safetySlot := { s.safetySlot with machine := .idle } }) ∧
    (s.floorPort.state = .lost ∨ s.floorPort.badRun ≠ 2 ∨ s.floorPort.window ≠ .open → exec .floorPortLoss s = .next s) ∧
    (∀ (order : List FloorBlock) (frame : List Byte), floorOrderOk order = true →
      s.floorPort.state = .lost → s.floorPort.goodRun = 1 → s.floorPort.window = .open → GoodFloorFrame s frame →
      (frame.getD 181 0).getLsbD 4 = false →
      ∃ t : State, exec (.floorPortReturn order frame) s = .next t ∧
        t.floorPort = { s.floorPort with state := .synced, badRun := 0, goodRun := 0, window := .taken } ∧
        t.flags.floorLink = true ∧ t.linkFlag = false ∧ t.floorPartner = halfOf (frame.getD 0 0) (frame.getD 1 0) ∧
        (∀ c, (t.validator c).candidate = some (readReport ⟨frame.getD (5 + 3 * c.val) 0, frame.getD (6 + 3 * c.val) 0,
          frame.getD (7 + 3 * c.val) 0⟩)) ∧ t.dispatchPort = s.dispatchPort) ∧
    (∀ (order : List FloorBlock) (frame : List Byte), floorOrderOk order = true →
      s.floorPort.state = .lost → s.floorPort.goodRun = 1 → s.floorPort.window = .open → GoodFloorFrame s frame →
      exec (.floorPortReturn order frame) s = .next (order.foldl (fun t b => t.floorBlock frame true b)
        { s with
          floorPort := { s.floorPort with state := .synced, badRun := 0, goodRun := 0, window := .taken }
          flags := { s.flags with floorLink := true }
          floorPartner := halfOf (frame.getD 0 0) (frame.getD 1 0) })) ∧
    (∀ u : State, u = { s with
        linkFlag := false
        flags := { s.flags with holdChange := s.flags.holdChange || (s.linkFlag && !s.districtHold.active) } } →
      s.clearLink = if s.linkFlag = true ∧ s.districtHold.active = false then u.holdLifted else u) ∧
    (∀ (order : List FloorBlock) (frame : List Byte), s.floorPort.state = .synced ∨ s.floorPort.goodRun ≠ 1 ∨
        s.floorPort.window ≠ .open ∨ ¬GoodFloorFrame s frame → exec (.floorPortReturn order frame) s = .next s)

/-- The dispatch port's loss and return (R150, R152, R154): the third bad frame sets DISPATCH_LINK, ends the operator message and hands the engine the order changes: in slot order, each carrier whose last order is not HOLD, and which is ADVANCING and ON_ORDER at its turn, has a claim pass (R73); the second good frame sets DISPATCH_LINK and replaces the last orders, its fragment goes to the operator slot, and the carriers whose new order is not HOLD follow in the same way. That the state and the mode are asked at the turn is the model's reading (log 20). -/
def Obligations.TheDispatchPortIsLostAndReturns : Prop :=
  ∀ s : State, s.resetPin = false →
    (s.dispatchPort.state = .synced → s.dispatchPort.badRun = 2 → s.dispatchPort.window = .open →
      ∃ u t : State, exec .dispatchPortLoss s = .next t ∧
        u = { s with
          dispatchPort := { s.dispatchPort with state := .lost, badRun := 0, goodRun := 0, window := .taken }
          flags := { s.flags with dispatchLink := true }
          operatorSlot := { s.operatorSlot with machine := .idle } } ∧ EngineFrame u t ∧
        t = (List.finRange 48).foldl (fun v c =>
          if (s.carrier c).lastOrder.kind ≠ .hold ∧ (v.carrier c).state = .advancing ∧ (v.carrier c).claimMode = .onOrder
            then v.runPass c else v) u ∧
        ((∀ c, (s.carrier c).state = .advancing → (s.carrier c).claimMode = .onOrder → (s.carrier c).lastOrder.kind = .hold) → t = u)) ∧
    (s.dispatchPort.state = .lost ∨ s.dispatchPort.badRun ≠ 2 ∨ s.dispatchPort.window ≠ .open →
      exec .dispatchPortLoss s = .next s) ∧
    (∀ frame : List Byte, s.dispatchPort.state = .lost → s.dispatchPort.goodRun = 1 → s.dispatchPort.window = .open →
      GoodDispatcherFrame s frame → (frame.getD 99 0).getLsbD 4 = false →
      ∃ u t : State, exec (.dispatchPortReturn frame) s = .next t ∧
        (∀ c, u.carrier c = { s.carrier c with
          lastOrder := readOrder (frame.getD (3 + 2 * c.val) 0) (frame.getD (4 + 2 * c.val) 0) }) ∧
        u = { s with
          carriers := u.carriers
          dispatchPort := { s.dispatchPort with state := .synced, badRun := 0, goodRun := 0, window := .taken }
          flags := { s.flags with dispatchLink := true } } ∧ EngineFrame u t) ∧
    (∀ frame : List Byte, s.dispatchPort.state = .lost → s.dispatchPort.goodRun = 1 → s.dispatchPort.window = .open →
      GoodDispatcherFrame s frame →
      ∃ u : State,
        (∀ c, u.carrier c = { s.carrier c with
          lastOrder := readOrder (frame.getD (3 + 2 * c.val) 0) (frame.getD (4 + 2 * c.val) 0) }) ∧
        u = { s with
          carriers := u.carriers
          dispatchPort := { s.dispatchPort with state := .synced, badRun := 0, goodRun := 0, window := .taken }
          flags := { s.flags with dispatchLink := true } } ∧
        exec (.dispatchPortReturn frame) s = .next ((List.finRange 48).foldl
          (fun v c =>
            if (readOrder (frame.getD (3 + 2 * c.val) 0) (frame.getD (4 + 2 * c.val) 0)).kind ≠ .hold ∧
                (v.carrier c).state = .advancing ∧ (v.carrier c).claimMode = .onOrder
              then v.runPass c else v)
          (u.takeFragment .operator (frame.getD 99 0) ((frame.drop 100).take 16)))) ∧
    (∀ frame : List Byte, s.dispatchPort.state = .synced ∨ s.dispatchPort.goodRun ≠ 1 ∨ s.dispatchPort.window ≠ .open ∨
        ¬GoodDispatcherFrame s frame → exec (.dispatchPortReturn frame) s = .next s)

/-- What a reading does to an input under its polarity (R122, R124). A clear reading of an UNCLEAR input that brings its run to the clear persistence makes it CLEAR, and the field state of each defined zone bound to it, whose blocked flag clears; all field states are set before the field wakes run, in zone order, of the zones that become CLEAR (R126); else the event is none (log 2). -/
def Obligations.AClearInputReachesItsZones : Prop :=
  (∀ (x : Input) (bit : Bool) (n : Nat),
    (x.readsClear bit = if x.polarity = .clearWhenSet then bit else !bit) ∧
    x.take n false = { x with clear := false, run := 0 } ∧
    x.take n true = { x with clear := x.clear || decide (n ≤ min (x.run + 1) 255), run := min (x.run + 1) 255 }) ∧
  ∀ (f : FieldSlotId) (i : LineId) (s : State), s.resetPin = false →
    (s.floorPort.state = .synced → (s.input f i).clear = false → s.clearPersistence ≤ min ((s.input f i).run + 1) 255 →
      ∃ u t : State, exec (.clearPersistenceReached f i) s = .next t ∧
        u.input f i = { s.input f i with clear := true, run := min ((s.input f i).run + 1) 255 } ∧
        (∀ g j, (g, j) ≠ (f, i) → u.input g j = s.input g j) ∧
        (∀ g o, u.output g o = s.output g o) ∧
        (∀ z b, (s.zone z).defined = true → (s.zone z).fieldBinding = some b → b.slot = f → b.input = i →
          u.zst z = { s.zst z with field := .clear, blocked := false }) ∧
        (∀ z, (∀ b, (s.zone z).defined = true → (s.zone z).fieldBinding = some b → (b.slot, b.input) ≠ (f, i)) →
          u.zst z = s.zst z) ∧
        u = { s with fieldSlots := u.fieldSlots, zoneStates := u.zoneStates } ∧
        t = (List.finRange 240).foldl
          (fun v z => if (s.zst z).field = .unclear ∧ (u.zst z).field = .clear then v.fieldWake z else v) u ∧
        EngineFrame u t) ∧
    (s.floorPort.state = .lost ∨ (s.input f i).clear = true ∨ min ((s.input f i).run + 1) 255 < s.clearPersistence →
      exec (.clearPersistenceReached f i) s = .next s)

/-! ## Messages -/

/-- A fragment at a slot machine: the rows of the table of R161; a whole command is carried out at that arrival. A whole message that no command spells, by its type or its length (R163), is answered MALFORMED with its type byte, and so are a fragment out of turn and a first one with a wrong number (the type byte of the latter 0: log 26). -/
def Obligations.FragmentsReachTheSlotMachine : Prop :=
  ∀ (slot : MgmtSlot) (control : Byte) (p : List Byte) (s : State), s.resetPin = false →
    (control.getLsbD 4 = false → s.takeFragment slot control p = s) ∧
    (control.getLsbD 4 = true → (s.machine slot).busy = true → s.takeFragment slot control p = s) ∧
    (control.getLsbD 4 = true → control.getLsbD 7 = false → s.machine slot = .idle → s.takeFragment slot control p = s) ∧
    (control.getLsbD 4 = true → control.getLsbD 7 = true → control.extractLsb' 0 2 ≠ 0 → s.machine slot = .idle →
      s.takeFragment slot control p = s.answered slot 0 .malformed []) ∧
    (control.getLsbD 4 = true → control.getLsbD 7 = true → control.getLsbD 6 = false → control.extractLsb' 0 2 = 0 →
      (s.machine slot).busy = false → s.takeFragment slot control p = s.setMachine slot (.receiving p 1)) ∧
    (∀ m n, control.getLsbD 4 = true → s.machine slot = .receiving m n →
      (control.getLsbD 7 = true ∧ control.extractLsb' 0 2 ≠ 0) ∨ (control.getLsbD 7 = false ∧ (control.extractLsb' 0 2).toNat ≠ n) →
      s.takeFragment slot control p = s.answered slot (m.headD 0) .malformed []) ∧
    (∀ m n, control.getLsbD 4 = true → control.getLsbD 7 = false → control.getLsbD 6 = false →
      s.machine slot = .receiving m n → (control.extractLsb' 0 2).toNat = n →
      s.takeFragment slot control p = s.setMachine slot (.receiving (m ++ p) (n + 1))) ∧
    (∀ i, control.getLsbD 4 = true → control.getLsbD 7 = true → control.getLsbD 6 = true → control.extractLsb' 0 2 = 0 →
      (s.machine slot).busy = false → decodeMessage slot p = some i → exec i s = .next (s.takeFragment slot control p)) ∧
    (control.getLsbD 4 = true → control.getLsbD 7 = true → control.getLsbD 6 = true → control.extractLsb' 0 2 = 0 →
      (s.machine slot).busy = false → decodeMessage slot p = none →
      s.takeFragment slot control p = s.answered slot (p.headD 0) .malformed []) ∧
    (∀ m n, control.getLsbD 4 = true → control.getLsbD 7 = false → control.getLsbD 6 = true →
      s.machine slot = .receiving m n → (control.extractLsb' 0 2).toNat = n → decodeMessage slot (m ++ p) = none →
      s.takeFragment slot control p = s.answered slot ((m ++ p).headD 0) .malformed []) ∧
    (∀ m n i, control.getLsbD 4 = true → control.getLsbD 7 = false → control.getLsbD 6 = true →
      s.machine slot = .receiving m n → (control.extractLsb' 0 2).toNat = n → decodeMessage slot (m ++ p) = some i →
      exec i s = .next (s.takeFragment slot control p))

/-- Every well-formed management command is read back from its message, which is 1 to 4 whole payloads long (R159, R160). -/
def Obligations.EveryMessageIsReadBack : Prop :=
  ∀ (i : Instr) (slot : MgmtSlot), i.wellFormed = true → i.slotOf = some slot →
    ∃ m, encodeCommand i = some m ∧ decodeMessage slot m = some i ∧ m.length % 16 = 0 ∧ 16 ≤ m.length ∧ m.length ≤ 64

/-! ## The stamper -/

/-- The base cases of the stamp in their order (R99); a walk that stops at an entry both PENDING and blocked counts as cut by a block (the model's reading, log 22); the clear-through of a covered carrier (R100); the reach of a walk, backed up out of a passage it ends in (R101, R102), and what each order gives with it: HOLD, GO_FULL and GO_TO, the target rounded forward, beyond the grant or off the route (R103 to R107), where a GO_TO to a zone of an open passage reads its missing exit as beyond the reach (the model's choice, log 38), at the lesser speed of the order and the front hop's cap (R108); and what a departure writes of a stamp into the carrier record (R97, R109). -/
def Obligations.TheStampersBaseCases : Prop :=
  ∀ (s : State) (c : CarrierId),
    (if (s.carrier c).state = .vacant then s.stampOf c = ⟨none, 0, .none⟩
     else if s.stopMarker = true then s.stampOf c = ⟨s.front c, 0, .stop⟩
     else if s.mode = .safe then s.stampOf c = ⟨s.front c, 0, .stop⟩
     else if (s.carrier c).state = .faulted then s.stampOf c = ⟨s.front c, 0, .stop⟩
     else if s.linkFlag = true then s.stampOf c = ⟨s.front c, 0, .covered⟩
     else (s.front c = none → s.stampOf c = ⟨none, 0, .stop⟩) ∧ ∀ z, s.front c = some z →
       (s.holds c z = false → s.stampOf c = ⟨some z, 0, .stop⟩) ∧
       ∀ (behind passed rest : List HeldEntry) (front : HeldEntry) (cap : Speed) (cut : ClipReason → ClipReason),
         WalkOf s (s.carrier c).held behind front passed rest → front.zone = z →
         cap = (match front.ref with | none => 3 | some x => (s.hop x.hop).cap) →
         (s.cutAt rest → ∀ x, cut x = .blocked) → (¬s.cutAt rest → ∀ x, cut x = x) →
         (s.covered c = true →
           (s.noStop z = false → s.stampOf c = ⟨some z, cap, .covered⟩) ∧
           ∀ passage a b, s.noStop z = true → s.restOfPassage (passed ++ rest) passage → passage = a ++ b →
             (∀ e ∈ a, e.status = .granted ∧ (s.zst e.zone).blocked = false) →
             (∀ e, b.head? = some e → e.status = .pending ∨ (s.zst e.zone).blocked = true) →
             (s.stampOf c).authority = (front :: a).getLast?.map (·.zone) ∧ (s.stampOf c).speed = cap ∧
             (s.cutAt b → (s.stampOf c).clip = .blocked) ∧ (¬s.cutAt b → (s.stampOf c).clip = .covered)) ∧
         (s.covered c = false →
           (s.stampOf c).speed = (if (s.orderRead c).speed.val ≤ cap.val then (s.orderRead c).speed else cap) ∧
           ((s.orderRead c).kind = .hold → (s.stampOf c).authority = some z ∧ (s.stampOf c).clip = .none) ∧
           ∀ span, s.reaches front passed span →
             ((s.orderRead c).kind = .goFull →
               (s.stampOf c).authority = span.getLast?.map (·.zone) ∧ (s.stampOf c).clip = cut .none) ∧
             ((s.orderRead c).kind = .goTo →
               (240 ≤ (s.orderRead c).target.toNat → (s.stampOf c).authority = some z ∧ (s.stampOf c).clip = .offRoute) ∧
               ∀ y : ZoneId, (s.orderRead c).target = byteOf y.val →
                 (∀ l m r, span = l ++ m :: r → m.zone = y → (∀ e ∈ l, e.zone ≠ y) →
                   (∀ v x w, m :: r = v ++ x :: w → (∀ e ∈ v, s.noStop e.zone = true) → s.noStop x.zone = false →
                     (s.stampOf c).authority = some x.zone ∧ (s.stampOf c).clip = .none) ∧
                   ((∀ e ∈ m :: r, s.noStop e.zone = true) →
                     (s.stampOf c).authority = span.getLast?.map (·.zone) ∧ (s.stampOf c).clip = cut .none)) ∧
                 ((∀ e ∈ span, e.zone ≠ y) → ∀ beyond, (s.carrier c).held = behind ++ span ++ beyond →
                   ((∃ e ∈ beyond, e.zone = y) ∨ s.onRouteAhead c y = true →
                     (s.stampOf c).clip = cut .beyondGrant ∧
                     ((s.carrier c).clipMode = .saturate → (s.stampOf c).authority = span.getLast?.map (·.zone)) ∧
                     ((s.carrier c).clipMode = .refuse → (s.stampOf c).authority = some z)) ∧
                   ((∀ e ∈ beyond, e.zone ≠ y) → s.onRouteAhead c y = false →
                     (s.stampOf c).authority = some z ∧ (s.stampOf c).clip = .offRoute))))) ∧
    s.departFloor.carrier c = { s.carrier c with
      authority := (s.stampOf c).authority, speed := (s.stampOf c).speed, clip := (s.stampOf c).clip,
      flags := { (s.carrier c).flags with
        clip := (s.carrier c).flags.clip || decide ((s.carrier c).clip = .none ∧ (s.stampOf c).clip ≠ .none) } }

/-! ## Corridors -/

/-- The corridor test (R26), case by case, and what a grant changes in a corridor (the table of R27): the entry, the direction, and the count against opposite waiters that drains the corridor at its quota. What leaving and becoming undirected change (R29, R30), and the turn of the flow (R31). A release (R81): the zone is given up, the corridor left with its last zone there and woken where its flow turned, the watches broken, and the zone's queue woken (R85); releases in turn; the wakes of the corridors that an undirecting turns (R33), in corridor order (the model's choice, log 19), of a field (R86) and of the hold list (R87), each carrier's state asked at its turn in the passes that follow (the model's reading, log 20); and the examination of a woken carrier (R72, R83, R84). -/
def Obligations.TheCorridorTestAndTheEntry : Prop :=
  (∀ (x : CorridorState) (quota : Nat) (c : CarrierId) (d : Direction),
    (∀ o, x.occupant c = some o → o.direction = some d → x.admits c d = true) ∧
    (∀ o e, x.occupant c = some o → o.direction = some e → e ≠ d → x.admits c d = false) ∧
    ((∀ o, x.occupant c = some o → o.direction = none) →
      (x.direction = none → x.admits c d = true) ∧
      (x.flow = .flowing → x.direction = some d → x.admits c d = true) ∧
      (∀ e, x.direction = some e → x.flow ≠ .flowing ∨ e ≠ d → x.admits c d = false)) ∧
    (∀ o, x.occupant c = some o → o.direction = some d → x.enter quota c d = x) ∧
    (x.occupant c = none → x.direction = none →
      x.enter quota c d = { x with occupants := x.occupants ++ [⟨c, some d⟩], direction := some d, flow := .flowing }) ∧
    (∀ o, x.occupant c = some o → o.direction = none → x.direction = none →
      x.enter quota c d = { x with
        occupants := x.occupants.map (fun p => if p.slot = c then ⟨c, some d⟩ else p), direction := some d, flow := .flowing }) ∧
    (x.direction = some d → (∀ o, x.occupant c = some o → o.direction = none) →
      (x.enter quota c d).occupants = (match x.occupant c with
        | none => x.occupants ++ [⟨c, some d⟩]
        | some _ => x.occupants.map (fun p => if p.slot = c then ⟨c, some d⟩ else p)) ∧
      (x.enter quota c d).direction = some d ∧ (x.enter quota c d).queue = x.queue ∧
      ((∃ w ∈ x.queue, w.direction ≠ d) → (x.enter quota c d).count = x.count + 1 ∧
        (x.enter quota c d).flow = if quota ≤ x.count + 1 then .draining else x.flow) ∧
      ((∀ w ∈ x.queue, w.direction = d) → (x.enter quota c d).count = x.count ∧ (x.enter quota c d).flow = x.flow)) ∧
    (x.lastDirected c →
      x.leave c = ({ x with
        occupants := x.occupants.filter (fun o => o.slot != c), direction := none, count := 0
        flow := if ∀ o ∈ x.occupants, o.slot = c then .free else .flowing }, true) ∧
      x.undirect c = ({ x with
        occupants := x.occupants.map (fun o => if o.slot = c then ⟨c, none⟩ else o), direction := none, count := 0
        flow := .flowing }, true)) ∧
    (¬x.lastDirected c →
      x.leave c = ({ x with
        occupants := x.occupants.filter (fun o => o.slot != c)
        flow := if x.flow = .flowing ∧ ∀ o ∈ x.occupants, o.slot = c then .free else x.flow }, false) ∧
      x.undirect c = ({ x with occupants := x.occupants.map (fun o => if o.slot = c then ⟨c, none⟩ else o) }, false))) ∧
  (∀ (s : State) (c : CarrierId) (z : ZoneId), ∃ u v : State, GivenUp s u c z ∧
    (∀ k, s.corridorOfZone z = some k → (∀ e ∈ (u.carrier c).held, s.corridorOfZone e.zone ≠ some k) →
      v = (if ((s.cst k).leave c).2 = true then (u.setCst k ((s.cst k).leave c).1).wakeCorridor k
        else u.setCst k ((s.cst k).leave c).1)) ∧
    (∀ k, s.corridorOfZone z = some k → (∃ e ∈ (u.carrier c).held, s.corridorOfZone e.zone = some k) → v = u) ∧
    (s.corridorOfZone z = none → v = u) ∧
    s.release c z = (v.breakWatch c).wakeZone z [.zone, .conflict]) ∧
  (∀ (s : State) (c : CarrierId) (zs : List ZoneId),
    s.releaseAll c zs = zs.foldl (fun t z => if t.holds c z = true then t.release c z else t) s) ∧
  (∀ (s : State) (c : CarrierId), ∃ u : State,
    (∀ k, u.cst k = ((s.cst k).undirect c).1) ∧ u = { s with corridorStates := u.corridorStates } ∧
    s.undirect c = (allCorridors.filter (fun k => ((s.cst k).undirect c).2)).foldl State.wakeCorridor u) ∧
  (∀ (s : State) (k : CorridorId), s.wakeCorridor k = (s.cst k).queue.foldl
    (fun t w => if ∃ x ∈ (t.cst k).queue, x.ticket = w.ticket then examine w.slot t else t) s) ∧
  (∀ (s : State) (z : ZoneId) (causes : List ZoneCause),
    s.wakeZone z causes = ((s.zst z).queue.filter (fun w => decide (w.cause ∈ causes))).foldl
      (fun t w => if ∃ x ∈ (t.zst z).queue, x.ticket = w.ticket then examine w.slot t else t) s ∧
    s.fieldWake z = s.wakeZone z [.field]) ∧
  (∀ s : State, s.holdLifted = (List.finRange 48).foldl (fun t c => if (t.carrier c).state = .advancing then t.runPass c else t)
    (s.holdWait.foldl (fun t w => if ∃ x ∈ t.holdWait, x.ticket = w.ticket then examine w.slot t else t) s)) ∧
  ∀ (s : State) (c : CarrierId),
    (s.covered c = true ↔ s.districtActive = true ∨ ∃ z, s.front c = some z ∧ s.sectorActive (s.zone z).sector = true) ∧
    (s.passAllowed c = true ↔ s.active c ∧ s.mode = .service ∧ s.stopMarker = false ∧ s.covered c = false) ∧
    (s.passAllowed c = true → examine c s = s.runPass c) ∧ (s.passAllowed c = false → s.runPass c = s) ∧
    (s.passAllowed c = false → (s.carrier c).state = .waiting → ∃ u v : State,
      Dequeued s u c ∧ StateEntered u v c .advancing ∧
      examine c s = if s.pinToken = some c ∧ s.hasPending c = false then { v with pinToken := none } else v)

/-! ## Claims -/

/-- What a claim reads. The count ahead and the need of a carrier (R74, R75); the order read for it, HOLD while the dispatch port is LOST (R73, R98); which hold entries are active (R139); the zones found on the first 64 hops of its route ahead, read over seams with the laps remaining (R43), and its next claim set, the run of no-stop zones at the cursor with the stop-allowed zone that ends it (R71); the direction a set asks of a corridor, from the first two hops of the visit its zones there belong to (R25): the visit is that of the set's first zone there (the model's choice, log 27), read back over the hops before the cursor and, where the last hop of a route before the seam is still held, over those of that route (log 16); and the five tests of a zone in their order, each with its wait (R77). -/
def Obligations.WhatAClaimAsks : Prop :=
  ∀ (s : State) (c : CarrierId),
    (∀ l e r, (s.carrier c).held = l ++ e :: r → s.front c = some e.zone → (∀ x ∈ l, x.zone ≠ e.zone) →
      s.countAhead c = (r.filter (fun x => x.status == .granted)).length) ∧
    ((∀ e ∈ (s.carrier c).held, s.front c ≠ some e.zone) →
      s.countAhead c = ((s.carrier c).held.filter (fun x => x.status == .granted)).length) ∧
    s.orderRead c = (if s.dispatchPort.state = .lost then ⟨.hold, 255, 0⟩ else (s.carrier c).lastOrder) ∧
    (s.hasNeed c = true ↔ s.countAhead c < (s.carrier c).horizon ∧
      ((s.carrier c).claimMode = .ahead ∨ (s.orderRead c).kind = .goFull ∨
        ((s.orderRead c).kind = .goTo ∧
          ∃ y : ZoneId, (s.orderRead c).target = byteOf y.val ∧ s.onRouteAhead c y = true ∧ s.holds c y = false))) ∧
    (s.districtActive = true ↔ s.districtHold.causes ≠ [] ∨ s.districtHold.manual = true ∨ s.linkFlag = true) ∧
    (∀ n, s.sectorActive n = true ↔ (s.sectorHold n).causes ≠ [] ∨ (s.sectorHold n).manual = true) ∧
    (∀ z, s.onRouteAhead c z = true ↔ ∃ n < 64, ∃ p, s.placeAhead c n = some p ∧ s.hopZone p.1.hop = z) ∧
    (∀ n < 64, (s.routeAhead c)[n]? = (s.placeAhead c n).map (·.1)) ∧ (s.routeAhead c).length ≤ 64 ∧
    (∀ n < 64, (∀ m < n, ∃ p, s.placeAhead c m = some p ∧ s.noStop (s.hopZone p.1.hop) = true) →
      (s.nextSet c)[n]? = (s.placeAhead c n).map (·.1)) ∧
    (∀ n m p, m < n → s.placeAhead c m = some p → s.noStop (s.hopZone p.1.hop) = false → (s.nextSet c)[n]? = none) ∧
    (s.nextSet c).length ≤ 64 ∧
    (∀ (set : List HopRef) (k : CorridorId) (n : Nat), n = set.findIdx (fun x => s.hopCorridor x == some k) →
      (∀ a b l, s.visitAt c k n = a :: b :: l →
        (s.hopPosition a < s.hopPosition b → s.askedDirection c set k = .ascending) ∧
        (s.hopPosition b < s.hopPosition a → s.askedDirection c set k = .descending))) ∧
    (∀ (k : CorridorId) (n : Nat), s.visitAt c k n =
      ((((s.routeAhead c).take n).reverse ++ s.hopsBehindCursor c).takeWhile (fun x => s.hopCorridor x == some k)).reverse
        ++ ((s.routeAhead c).drop n).takeWhile (fun x => s.hopCorridor x == some k)) ∧
    (s.placeAhead c 0 = none → s.hopsBehindCursor c = []) ∧
    (∀ p, s.placeAhead c 0 = some p →
      ((∀ e ∈ (s.carrier c).held, ∀ x, e.ref = some x → ¬s.leadsTo x p.1.route) → s.hopsBehindCursor c = s.hopsBefore p.1) ∧
      ∀ l e r x, (s.carrier c).held = l ++ e :: r → e.ref = some x → s.leadsTo x p.1.route →
        (∀ d ∈ r, ∀ y, d.ref = some y → ¬s.leadsTo y p.1.route) →
        s.hopsBehindCursor c = s.hopsBefore p.1 ++ x :: s.hopsBefore x) ∧
    (∀ (x : HopRef) (n : Nat), (s.hopsBefore x)[n]? =
      if n < x.hop.val - (s.route x.route).firstHop.val then some ⟨x.route, Fin.ofNat 2048 (x.hop.val - 1 - n)⟩ else none) ∧
    ∀ (set : List HopRef) (x : HopRef) (z : ZoneId) (w : Option Wait), s.hopZone x.hop = z → s.testZone c set x = w →
      let other := fun y : ZoneId => ∃ d, s.holder y = some d ∧ d ≠ c
      if s.districtActive = true ∨ s.sectorActive (s.zone z).sector = true then w = some .hold
      else if other z then w = some (.zone z)
      else (∀ l y r, (s.zone z).conflicts = l ++ y :: r → other y → (∀ v ∈ l, ¬other v) → w = some (.conflict y)) ∧
        ((∀ y ∈ (s.zone z).conflicts, ¬other y) →
          if (s.zst z).field = .unclear then w = some (.field z)
          else (s.corridorOfZone z = none → w = none) ∧
            ∀ k, s.corridorOfZone z = some k →
              w = if (s.cst k).admits c (s.askedDirection c set k) = true then none else some (.corridor k))

/-- A claim pass that may be made of a carrier that is not the token holder (R76, R77, R79, R84). At the end of its route the carrier becomes IDLE with STATE and ROUTE_END. Without need, or with a set that is empty, meets itself or has no room, an ADVANCING carrier is left as it is, and a WAITING one leaves its queue and becomes ADVANCING. A set whose first failing test gives a wait leaves an ADVANCING carrier WAITING in that wait's queue; a WAITING one keeps its place where the wait is the same, and else joins the new queue, its wait age kept; and where the cause is ZONE or CONFLICT the deadlock check follows: a cycle of waiting through the carrier overwrites the deadlock record and sets DEADLOCK, and no cycle changes nothing (R94, R95). A set that passes is granted and the pass goes on (R78). The pin token is given at an expiry, after the wait ages, to the candidate that has waited longest, the lowest slot among equals, and its pass follows (R90). -/
def Obligations.AClaimPassEndsOrWaits : Prop :=
  (∀ (s : State) (c : CarrierId), s.passAllowed c = true → s.pinToken ≠ some c →
    ((s.carrier c).cursor = .atEnd →
      (s.runPass c).carrier c = { s.carrier c with
        state := .idle, route := none, cursor := .none, laps := 0
        wait := if (s.carrier c).state = .waiting then .none else (s.carrier c).wait
        waitAge := if (s.carrier c).state = .waiting then 0 else (s.carrier c).waitAge
        flags := { (s.carrier c).flags with state := true, routeEnd := true } }) ∧
    ((s.carrier c).cursor ≠ .atEnd →
      (s.hasNeed c = false ∨ s.nextSet c = [] ∨ (∃ x ∈ s.nextSet c, s.holds c (s.hopZone x.hop) = true) ∨
          12 < (s.carrier c).held.length + (s.nextSet c).length →
        ((s.carrier c).state = .advancing → s.runPass c = s) ∧
        ((s.carrier c).state = .waiting → ∃ u, Dequeued s u c ∧ StateEntered u (s.runPass c) c .advancing)) ∧
      (s.hasNeed c = true → s.nextSet c ≠ [] → (∀ x ∈ s.nextSet c, s.holds c (s.hopZone x.hop) = false) →
        (s.carrier c).held.length + (s.nextSet c).length ≤ 12 →
        ((s.nextSet c).findSome? (s.testZone c (s.nextSet c)) = none →
          s.runPass c = (s.grantSet c (s.nextSet c)).runPass c) ∧
        ∀ w, (s.nextSet c).findSome? (s.testZone c (s.nextSet c)) = some w → ∃ u : State,
          s.runPass c = (match w with
            | .zone _ => u.deadlockCheck c
            | .conflict _ => u.deadlockCheck c
            | _ => u) ∧
          ((s.carrier c).state = .waiting → (s.carrier c).wait = w → u = s) ∧
          ((s.carrier c).state = .advancing → u.carrier c = { s.carrier c with
            state := .waiting, wait := w, waitAge := 0, flags := { (s.carrier c).flags with state := true, wait := true } }) ∧
          ((s.carrier c).state = .waiting → (s.carrier c).wait ≠ w → u.carrier c = { s.carrier c with
            wait := w, flags := { (s.carrier c).flags with wait := true } }) ∧
          (∀ d, d ≠ c → u.carrier d = s.carrier d) ∧ (∀ z, u.holder z = s.holder z) ∧ u.pinToken = s.pinToken ∧
          u.deadlock = s.deadlock ∧ u.flags = s.flags ∧ u.floorPort = s.floorPort ∧
          ((s.carrier c).state = .advancing ∨ (s.carrier c).wait ≠ w →
            ∃ v : State, ((s.carrier c).state = .advancing → v = s) ∧
              ((s.carrier c).state = .waiting → ∃ x, Dequeued s x c ∧ v = { x with carriers := s.carriers }) ∧
              (∀ z x, w = .zone z ∧ x = .zone ∨ w = .conflict z ∧ x = .conflict ∨ w = .field z ∧ x = .field →
                ∃ n, (u.zst z).queue =
                  (if (s.carrier c).priority = .normal then (v.zst z).queue ++ [⟨c, x, .normal, n⟩]
                   else (v.zst z).queue.filter (fun e => e.priority == .urgent) ++ [⟨c, x, .urgent, n⟩]
                    ++ (v.zst z).queue.filter (fun e => e.priority == .normal))) ∧
              (∀ k, w = .corridor k → ∃ n, (u.cst k).queue =
                  (if (s.carrier c).priority = .normal then
                    (v.cst k).queue ++ [⟨c, s.askedDirection c (s.nextSet c) k, .normal, n⟩]
                   else (v.cst k).queue.filter (fun e => e.priority == .urgent)
                    ++ [⟨c, s.askedDirection c (s.nextSet c) k, .urgent, n⟩]
                    ++ (v.cst k).queue.filter (fun e => e.priority == .normal))) ∧
              (w = .hold → ∃ n, u.holdWait =
                  (if (s.carrier c).priority = .normal then v.holdWait ++ [⟨c, .normal, n⟩]
                   else v.holdWait.filter (fun e => e.priority == .urgent) ++ [⟨c, .urgent, n⟩]
                    ++ v.holdWait.filter (fun e => e.priority == .normal))))))) ∧
  (∀ (s : State) (c : CarrierId),
    (∀ l, WaitCycle s c l →
      s.deadlockCheck c = { s with
        deadlock := ⟨s.floorPort.frame, l.length, l.take 8⟩, flags := { s.flags with deadlock := true } }) ∧
    ((∀ l, ¬WaitCycle s c l) → s.deadlockCheck c = s)) ∧
  ∀ s : State, s.engineExpiry = s.countAges.giveToken ∧
    (s.pinToken ≠ none ∨ s.mode = .safe ∨ s.stopMarker = true → s.giveToken = s) ∧
    ((∀ c, ¬s.mayTakeToken c) → s.giveToken = s) ∧
    ∀ c, s.pinToken = none → s.mode = .service → s.stopMarker = false → s.mayTakeToken c →
      (∀ d, s.mayTakeToken d → (s.carrier d).waitAge < (s.carrier c).waitAge ∨
        (s.carrier d).waitAge = (s.carrier c).waitAge ∧ c.val ≤ d.val) →
      s.giveToken = { s with pinToken := some c }.runPass c

/-- A grant takes its claim set whole (R78, R56, R7): every zone of the set enters the held list at the far end, GRANTED with its hop, its holder becomes the carrier, its corridors are entered as R27 gives it, and the cursor goes past the set, over the seam of the route where the set ends with its last hop: END for STOP, the first hop with one lap less for LOOP, the link route for LINK (R40 to R42, R44); a WAITING carrier leaves its queue and becomes ADVANCING. The direction asked of a corridor is that of the set's visit (R25; the model's readings, logs 16 and 27). The token holder's pass takes the zones of its set one by one, PENDING, passing over those it has (R91), unless the set that it holds in part has outgrown what R56 lets a held list take, where it makes no claim and keeps token and pending holds (the model's choice, log 39): at the first that fails it waits and keeps token and pending holds; with the set whole its entries are GRANTED, the cursor goes past the set, the token is freed, and the pass goes on (R92). It gives up the token where it holds nothing PENDING and its pass does not leave it WAITING, and where it leaves its claim, its PENDING entries released farthest first (R93). -/
def Obligations.AGrantTakesTheWholeSet : Prop :=
  (∀ (s : State) (c : CarrierId) (set : List HopRef), (s.carrier c).state = .advancing ∨ (s.carrier c).state = .waiting →
    ((s.grantSet c set).carrier c).held =
      (s.carrier c).held ++ set.map (fun x => ⟨s.hopZone x.hop, .granted, some x⟩) ∧
    ((s.grantSet c set).carrier c).state = .advancing ∧
    ((s.carrier c).state = .waiting → ((s.grantSet c set).carrier c).wait = .none ∧ ((s.grantSet c set).carrier c).waitAge = 0 ∧
      ((s.grantSet c set).carrier c).flags.state = true ∧ (∀ z, (s.carrier c).wait = .zone z ∨ (s.carrier c).wait = .conflict z ∨
        (s.carrier c).wait = .field z → ((s.grantSet c set).zst z).queue = (s.zst z).queue.filter (fun e => e.slot != c))) ∧
    (∀ z, (s.grantSet c set).holder z = if ∃ x ∈ set, s.hopZone x.hop = z then some c else s.holder z) ∧
    (∀ d, d ≠ c → (s.grantSet c set).carrier d = s.carrier d) ∧
    (∀ k, (s.grantSet c set).cst k =
      { (if ∃ x ∈ set, s.corridorOfZone (s.hopZone x.hop) = some k
          then (s.cst k).enter (s.corridor k).quota c (s.askedDirection c set k) else s.cst k) with
        queue := if (s.carrier c).state = .waiting ∧ (s.carrier c).wait = .corridor k
          then (s.cst k).queue.filter (fun e => e.slot != c) else (s.cst k).queue }) ∧
    (∀ x, set.getLast? = some x → x.hop.val < (s.route x.route).firstHop.val + (s.route x.route).hopCount - 1 →
      ((s.grantSet c set).carrier c).cursor = .hop (Fin.ofNat 2048 (x.hop.val + 1)) ∧
      ((s.grantSet c set).carrier c).route = (s.carrier c).route ∧ ((s.grantSet c set).carrier c).laps = (s.carrier c).laps) ∧
    (∀ x, set.getLast? = some x →
      (((s.grantSet c set).carrier c).route, ((s.grantSet c set).carrier c).cursor, ((s.grantSet c set).carrier c).laps) =
        s.placePast c x ∧
      (s.linkTaken x = none → ∀ q, (s.grantSet c set).route q = s.route q) ∧
      ∀ p, s.linkTaken x = some p → ∀ q, (s.grantSet c set).route q = { s.route q with
        users := (s.route q).users - (if (s.carrier c).route = some q then 1 else 0) + (if p = q then 1 else 0) }) ∧
    (∀ w, ((s.grantSet c set).watch w).carrier = some c → ((s.grantSet c set).watch w).intact = false)) ∧
  (∀ (s : State) (c : CarrierId) (set rest : List HopRef) (x : HopRef),
    s.takePending c set [] = (s, none) ∧
    (s.holdsPending c (s.hopZone x.hop) = true → s.takePending c set (x :: rest) = s.takePending c set rest) ∧
    (s.holdsPending c (s.hopZone x.hop) = false → ∀ w, s.testZone c set x = some w →
      s.takePending c set (x :: rest) = (s, some w)) ∧
    (s.holdsPending c (s.hopZone x.hop) = false → s.testZone c set x = none → ∃ u : State,
      s.takePending c set (x :: rest) = u.takePending c set rest ∧
      u.carrier c = { s.carrier c with held := (s.carrier c).held ++ [⟨s.hopZone x.hop, .pending, some x⟩] } ∧
      (∀ d, d ≠ c → u.carrier d = s.carrier d) ∧
      (∀ z, u.holder z = if z = s.hopZone x.hop then some c else s.holder z) ∧
      (∀ k, u.cst k = if s.corridorOfZone (s.hopZone x.hop) = some k
        then (s.cst k).enter (s.corridor k).quota c (s.askedDirection c set k) else s.cst k) ∧
      (∀ w, u.watch w = (s.watch w).breakFor c) ∧ u.pinToken = s.pinToken ∧ EngineFrame s u)) ∧
  (∀ (s : State) (c : CarrierId), s.passAllowed c = true → (s.carrier c).cursor ≠ .atEnd → s.pinToken = some c →
    (s.hasPending c = false → s.hasNeed c = false ∨ s.nextSet c = [] ∨
        (∃ x ∈ s.nextSet c, s.holds c (s.hopZone x.hop) = true) ∨ 12 < (s.carrier c).held.length + (s.nextSet c).length →
      ((s.carrier c).state = .advancing → s.runPass c = { s with pinToken := none }) ∧
      ((s.carrier c).state = .waiting → ∃ u v : State, Dequeued s u c ∧ StateEntered u v c .advancing ∧
        s.runPass c = { v with pinToken := none })) ∧
    (s.hasPending c = true →
      (∃ x ∈ s.nextSet c, s.holdsPending c (s.hopZone x.hop) = false ∧ s.holds c (s.hopZone x.hop) = true) ∨
        12 < (s.carrier c).held.length + ((s.nextSet c).filter (fun x => !s.holdsPending c (s.hopZone x.hop))).length →
      ((s.carrier c).state = .advancing → s.runPass c = s) ∧
      ((s.carrier c).state = .waiting → ∃ u : State, Dequeued s u c ∧ StateEntered u (s.runPass c) c .advancing)) ∧
    (s.hasPending c = true ∧
        (∀ x ∈ s.nextSet c, s.holdsPending c (s.hopZone x.hop) = false → s.holds c (s.hopZone x.hop) = false) ∧
        (s.carrier c).held.length + ((s.nextSet c).filter (fun x => !s.holdsPending c (s.hopZone x.hop))).length ≤ 12 ∨
      s.hasPending c = false ∧ s.hasNeed c = true ∧ s.nextSet c ≠ [] ∧
        (∀ x ∈ s.nextSet c, s.holds c (s.hopZone x.hop) = false) ∧ (s.carrier c).held.length + (s.nextSet c).length ≤ 12 →
      (∀ t w, s.takePending c (s.nextSet c) (s.nextSet c) = (t, some w) →
        ((s.runPass c).carrier c).state = .waiting ∧ ((s.runPass c).carrier c).wait = w ∧
        ((s.runPass c).carrier c).held = (t.carrier c).held ∧ ((s.runPass c).carrier c).cursor = (s.carrier c).cursor ∧
        (∀ z, (s.runPass c).holder z = t.holder z) ∧ (s.runPass c).pinToken = some c) ∧
      ∀ t, s.takePending c (s.nextSet c) (s.nextSet c) = (t, none) → ∃ u : State, s.runPass c = u.runPass c ∧
        u.pinToken = none ∧ (u.carrier c).state = .advancing ∧
        (u.carrier c).held = (t.carrier c).held.map (fun e => { e with status := .granted }) ∧
        (∀ d, d ≠ c → u.carrier d = t.carrier d) ∧ (∀ z, u.holder z = t.holder z) ∧
        ((t.carrier c).state = .waiting → (u.carrier c).wait = .none ∧ (u.carrier c).waitAge = 0 ∧ (u.carrier c).flags.state = true) ∧
        (∀ x, (s.nextSet c).getLast? = some x → x.hop.val < (s.route x.route).firstHop.val + (s.route x.route).hopCount - 1 →
          (u.carrier c).cursor = .hop (Fin.ofNat 2048 (x.hop.val + 1))) ∧
        ∀ x, (s.nextSet c).getLast? = some x →
          ((u.carrier c).route, (u.carrier c).cursor, (u.carrier c).laps) = s.placePast c x)) ∧
  ∀ (s : State) (c : CarrierId),
    (s.pinToken ≠ some c → s.leaveClaim c = s) ∧
    (s.pinToken = some c → s.leaveClaim c = { ((s.carrier c).held.reverse.filter (fun e => e.status == .pending)).foldl
      (fun t e => if t.holds c e.zone = true then t.release c e.zone else t) s with pinToken := none })

/-! ## Invariants -/

/-- The invariants hold right after power-on reset. -/
def Obligations.TheInvariantsHoldAtReset : Prop :=
  ConflictsOk State.reset ∧ HoldersOk State.reset ∧ BlockedOk State.reset ∧ SafeModeOk State.reset ∧ UsersOk State.reset ∧
    RangesOk State.reset ∧ OutputsOk State.reset ∧ CorridorsOk State.reset ∧ HeldOk State.reset ∧ WaitsOk State.reset ∧
    ClaimsOk State.reset ∧ FloorOk State.reset

/-- Every step keeps the conflict lists short, free of their own zone, without repeats and symmetric, and no two zones of a conflict pair held by two carriers (R4). -/
def Obligations.EveryStepKeepsConflictsOk : Prop := ∀ s t : State, ConflictsOk s → step s = .next t → ConflictsOk t

/-- Every step keeps holders and held lists in agreement (R7). -/
def Obligations.EveryStepKeepsHoldersOk : Prop := ∀ s t : State, HoldersOk s → step s = .next t → HoldersOk t

/-- Every step keeps each blocked flag as R10 gives it, and each request output as R128 gives it; a validated zone of NONE counts as another zone (the model's reading, log 18). -/
def Obligations.EveryStepKeepsBlockedOk : Prop :=
  (∀ s t : State, BlockedOk s → step s = .next t → BlockedOk t) ∧ ∀ s t : State, OutputsOk s → step s = .next t → OutputsOk t

/-- Every step keeps the carriers from ADVANCING and WAITING in SAFE mode (R168). -/
def Obligations.EveryStepKeepsSafeModeOk : Prop := ∀ s t : State, SafeModeOk s → step s = .next t → SafeModeOk t

/-- Every step keeps each users count equal to the number of carriers on its route (R44). -/
def Obligations.EveryStepKeepsUsersOk : Prop := ∀ s t : State, UsersOk s → step s = .next t → UsersOk t

/-- Every step keeps the counts in their ranges; of the corridors, where the quotas are in range, what R22 and R23 say of a corridor's own record: its occupant list names no carrier twice, a directed occupant goes in the corridor's direction, and a direction and the FREE state go with the occupants there are, the opposed-entry count below the quota (that the list names exactly the carriers that hold a zone there is the statement on FloorOk); and the held lists at 12 entries at most (R56; where a set held in part has outgrown that, the model's choice of log 39). -/
def Obligations.EveryStepKeepsRangesOk : Prop :=
  (∀ s t : State, RangesOk s → step s = .next t → RangesOk t) ∧
    (∀ s t : State, RangesOk s → CorridorsOk s → step s = .next t → CorridorsOk t) ∧
    ∀ s t : State, HeldOk s → step s = .next t → HeldOk t

/-- Every step keeps the wait queues in order, URGENT before NORMAL and each class in the order of joining (R8, R32, R80; the tickets that tell it are the model's, log 9), and each WAITING carrier, and no other, once in the one queue that its wait names, with its wait's cause (R54, R79); and PENDING entries with the holder of the pin token alone (R90, R91), and none with a FAULTED carrier (R134). -/
def Obligations.EveryStepKeepsWaitsOk : Prop :=
  ∀ s t : State, WaitsOk s → ClaimsOk s → step s = .next t → WaitsOk t ∧ ClaimsOk t

/-- Every step keeps the floor as claims find it: a corridor's occupant list has an entry for exactly the carriers that hold a zone of it, GRANTED or PENDING (R22), no held list names a zone twice (R56), the zones held are defined (R7), each cursor lies in the hop range of its defined route (R36, R39), and in SERVICE mode the defined routes stand the three checks of R46 that claim sets lean on. It leans on the agreement of holders and held lists, the users counts and the hop ranges, which every step keeps too. -/
def Obligations.EveryStepKeepsFloorOk : Prop :=
  ∀ s t : State, HoldersOk s → UsersOk s → RangesOk s → FloorOk s → step s = .next t → FloorOk t
end

