-- ==== Sys2Proof/Laws/State.lean ====
section
/-! SUPPORT. What each setter of the state leaves, field by field and accessor by accessor, and what it writes: the lemmas that later proofs rewrite with instead of unfolding a record update. -/

namespace Sys2Proof

@[simp] theorem tget_tset_self {α : Type} {n : Nat} (t : Vector α n) (i : Fin n) (x : α) : tget (tset t i x) i = x := by
  simp [tget, tset]

theorem tget_tset {α : Type} {n : Nat} (t : Vector α n) (i j : Fin n) (x : α) :
    tget (tset t i x) j = if j = i then x else tget t j := by
  simp only [tget, tset, Vector.getElem_set, Fin.ext_iff, eq_comm]

theorem tget_tset_of_ne {α : Type} {n : Nat} (t : Vector α n) {i j : Fin n} (x : α) (h : j ≠ i) :
    tget (tset t i x) j = tget t j := by
  rw [tget_tset, if_neg h]

@[simp] theorem tget_replicate {α : Type} {n : Nat} (x : α) (i : Fin n) : tget (Vector.replicate n x) i = x := by
  simp [tget]

/-- Two tables with the same entries are equal. -/
theorem table_ext {α : Type} {n : Nat} {t u : Vector α n} (h : ∀ i, tget t i = tget u i) : t = u := by
  apply Vector.ext
  intro i hi
  exact h ⟨i, hi⟩

end Sys2Proof

namespace Sys2Proof.Machine

/-! ## Fields left alone -/

@[simp] theorem setZone_fields (s : State) (z : ZoneId) (r : ZoneRecord) :
    (s.setZone z r).zoneStates = s.zoneStates ∧ (s.setZone z r).corridors = s.corridors ∧ (s.setZone z r).corridorStates = s.corridorStates ∧ (s.setZone z r).routes = s.routes ∧ (s.setZone z r).hops = s.hops ∧ (s.setZone z r).carriers = s.carriers ∧ (s.setZone z r).validators = s.validators ∧ (s.setZone z r).fieldSlots = s.fieldSlots ∧ (s.setZone z r).pinToken = s.pinToken ∧ (s.setZone z r).holdWait = s.holdWait ∧ (s.setZone z r).deadlock = s.deadlock ∧ (s.setZone z r).policy = s.policy ∧ (s.setZone z r).districtHold = s.districtHold ∧ (s.setZone z r).linkFlag = s.linkFlag ∧ (s.setZone z r).sectorHolds = s.sectorHolds ∧ (s.setZone z r).armLatch = s.armLatch ∧ (s.setZone z r).stopMarker = s.stopMarker ∧ (s.setZone z r).floorPort = s.floorPort ∧ (s.setZone z r).dispatchPort = s.dispatchPort ∧ (s.setZone z r).floorPartner = s.floorPartner ∧ (s.setZone z r).floorSent = s.floorSent ∧ (s.setZone z r).dispatchSent = s.dispatchSent ∧ (s.setZone z r).operatorSlot = s.operatorSlot ∧ (s.setZone z r).safetySlot = s.safetySlot ∧ (s.setZone z r).silenceLimit = s.silenceLimit ∧ (s.setZone z r).clearPersistence = s.clearPersistence ∧ (s.setZone z r).starvationLimit = s.starvationLimit ∧ (s.setZone z r).mode = s.mode ∧ (s.setZone z r).flags = s.flags ∧ (s.setZone z r).masks = s.masks ∧ (s.setZone z r).resetCause = s.resetCause ∧ (s.setZone z r).districtCode = s.districtCode ∧ (s.setZone z r).straps = s.straps ∧ (s.setZone z r).stopLine = s.stopLine ∧ (s.setZone z r).resetPin = s.resetPin ∧ (s.setZone z r).tickets = s.tickets ∧ (s.setZone z r).pending = s.pending :=
  by and_intros <;> rfl

@[simp] theorem setZst_fields (s : State) (z : ZoneId) (x : ZoneState) :
    (s.setZst z x).zones = s.zones ∧ (s.setZst z x).corridors = s.corridors ∧ (s.setZst z x).corridorStates = s.corridorStates ∧ (s.setZst z x).routes = s.routes ∧ (s.setZst z x).hops = s.hops ∧ (s.setZst z x).carriers = s.carriers ∧ (s.setZst z x).validators = s.validators ∧ (s.setZst z x).fieldSlots = s.fieldSlots ∧ (s.setZst z x).pinToken = s.pinToken ∧ (s.setZst z x).holdWait = s.holdWait ∧ (s.setZst z x).deadlock = s.deadlock ∧ (s.setZst z x).policy = s.policy ∧ (s.setZst z x).districtHold = s.districtHold ∧ (s.setZst z x).linkFlag = s.linkFlag ∧ (s.setZst z x).sectorHolds = s.sectorHolds ∧ (s.setZst z x).armLatch = s.armLatch ∧ (s.setZst z x).stopMarker = s.stopMarker ∧ (s.setZst z x).floorPort = s.floorPort ∧ (s.setZst z x).dispatchPort = s.dispatchPort ∧ (s.setZst z x).floorPartner = s.floorPartner ∧ (s.setZst z x).floorSent = s.floorSent ∧ (s.setZst z x).dispatchSent = s.dispatchSent ∧ (s.setZst z x).operatorSlot = s.operatorSlot ∧ (s.setZst z x).safetySlot = s.safetySlot ∧ (s.setZst z x).silenceLimit = s.silenceLimit ∧ (s.setZst z x).clearPersistence = s.clearPersistence ∧ (s.setZst z x).starvationLimit = s.starvationLimit ∧ (s.setZst z x).mode = s.mode ∧ (s.setZst z x).flags = s.flags ∧ (s.setZst z x).masks = s.masks ∧ (s.setZst z x).resetCause = s.resetCause ∧ (s.setZst z x).districtCode = s.districtCode ∧ (s.setZst z x).straps = s.straps ∧ (s.setZst z x).stopLine = s.stopLine ∧ (s.setZst z x).resetPin = s.resetPin ∧ (s.setZst z x).tickets = s.tickets ∧ (s.setZst z x).pending = s.pending :=
  by and_intros <;> rfl

@[simp] theorem setCorridor_fields (s : State) (k : CorridorId) (r : CorridorRecord) :
    (s.setCorridor k r).zones = s.zones ∧ (s.setCorridor k r).zoneStates = s.zoneStates ∧ (s.setCorridor k r).corridorStates = s.corridorStates ∧ (s.setCorridor k r).routes = s.routes ∧ (s.setCorridor k r).hops = s.hops ∧ (s.setCorridor k r).carriers = s.carriers ∧ (s.setCorridor k r).validators = s.validators ∧ (s.setCorridor k r).fieldSlots = s.fieldSlots ∧ (s.setCorridor k r).pinToken = s.pinToken ∧ (s.setCorridor k r).holdWait = s.holdWait ∧ (s.setCorridor k r).deadlock = s.deadlock ∧ (s.setCorridor k r).policy = s.policy ∧ (s.setCorridor k r).districtHold = s.districtHold ∧ (s.setCorridor k r).linkFlag = s.linkFlag ∧ (s.setCorridor k r).sectorHolds = s.sectorHolds ∧ (s.setCorridor k r).armLatch = s.armLatch ∧ (s.setCorridor k r).stopMarker = s.stopMarker ∧ (s.setCorridor k r).floorPort = s.floorPort ∧ (s.setCorridor k r).dispatchPort = s.dispatchPort ∧ (s.setCorridor k r).floorPartner = s.floorPartner ∧ (s.setCorridor k r).floorSent = s.floorSent ∧ (s.setCorridor k r).dispatchSent = s.dispatchSent ∧ (s.setCorridor k r).operatorSlot = s.operatorSlot ∧ (s.setCorridor k r).safetySlot = s.safetySlot ∧ (s.setCorridor k r).silenceLimit = s.silenceLimit ∧ (s.setCorridor k r).clearPersistence = s.clearPersistence ∧ (s.setCorridor k r).starvationLimit = s.starvationLimit ∧ (s.setCorridor k r).mode = s.mode ∧ (s.setCorridor k r).flags = s.flags ∧ (s.setCorridor k r).masks = s.masks ∧ (s.setCorridor k r).resetCause = s.resetCause ∧ (s.setCorridor k r).districtCode = s.districtCode ∧ (s.setCorridor k r).straps = s.straps ∧ (s.setCorridor k r).stopLine = s.stopLine ∧ (s.setCorridor k r).resetPin = s.resetPin ∧ (s.setCorridor k r).tickets = s.tickets ∧ (s.setCorridor k r).pending = s.pending :=
  by and_intros <;> rfl

@[simp] theorem setCst_fields (s : State) (k : CorridorId) (x : CorridorState) :
    (s.setCst k x).zones = s.zones ∧ (s.setCst k x).zoneStates = s.zoneStates ∧ (s.setCst k x).corridors = s.corridors ∧ (s.setCst k x).routes = s.routes ∧ (s.setCst k x).hops = s.hops ∧ (s.setCst k x).carriers = s.carriers ∧ (s.setCst k x).validators = s.validators ∧ (s.setCst k x).fieldSlots = s.fieldSlots ∧ (s.setCst k x).pinToken = s.pinToken ∧ (s.setCst k x).holdWait = s.holdWait ∧ (s.setCst k x).deadlock = s.deadlock ∧ (s.setCst k x).policy = s.policy ∧ (s.setCst k x).districtHold = s.districtHold ∧ (s.setCst k x).linkFlag = s.linkFlag ∧ (s.setCst k x).sectorHolds = s.sectorHolds ∧ (s.setCst k x).armLatch = s.armLatch ∧ (s.setCst k x).stopMarker = s.stopMarker ∧ (s.setCst k x).floorPort = s.floorPort ∧ (s.setCst k x).dispatchPort = s.dispatchPort ∧ (s.setCst k x).floorPartner = s.floorPartner ∧ (s.setCst k x).floorSent = s.floorSent ∧ (s.setCst k x).dispatchSent = s.dispatchSent ∧ (s.setCst k x).operatorSlot = s.operatorSlot ∧ (s.setCst k x).safetySlot = s.safetySlot ∧ (s.setCst k x).silenceLimit = s.silenceLimit ∧ (s.setCst k x).clearPersistence = s.clearPersistence ∧ (s.setCst k x).starvationLimit = s.starvationLimit ∧ (s.setCst k x).mode = s.mode ∧ (s.setCst k x).flags = s.flags ∧ (s.setCst k x).masks = s.masks ∧ (s.setCst k x).resetCause = s.resetCause ∧ (s.setCst k x).districtCode = s.districtCode ∧ (s.setCst k x).straps = s.straps ∧ (s.setCst k x).stopLine = s.stopLine ∧ (s.setCst k x).resetPin = s.resetPin ∧ (s.setCst k x).tickets = s.tickets ∧ (s.setCst k x).pending = s.pending :=
  by and_intros <;> rfl

@[simp] theorem setRoute_fields (s : State) (r : RouteId) (x : RouteRecord) :
    (s.setRoute r x).zones = s.zones ∧ (s.setRoute r x).zoneStates = s.zoneStates ∧ (s.setRoute r x).corridors = s.corridors ∧ (s.setRoute r x).corridorStates = s.corridorStates ∧ (s.setRoute r x).hops = s.hops ∧ (s.setRoute r x).carriers = s.carriers ∧ (s.setRoute r x).validators = s.validators ∧ (s.setRoute r x).fieldSlots = s.fieldSlots ∧ (s.setRoute r x).pinToken = s.pinToken ∧ (s.setRoute r x).holdWait = s.holdWait ∧ (s.setRoute r x).deadlock = s.deadlock ∧ (s.setRoute r x).policy = s.policy ∧ (s.setRoute r x).districtHold = s.districtHold ∧ (s.setRoute r x).linkFlag = s.linkFlag ∧ (s.setRoute r x).sectorHolds = s.sectorHolds ∧ (s.setRoute r x).armLatch = s.armLatch ∧ (s.setRoute r x).stopMarker = s.stopMarker ∧ (s.setRoute r x).floorPort = s.floorPort ∧ (s.setRoute r x).dispatchPort = s.dispatchPort ∧ (s.setRoute r x).floorPartner = s.floorPartner ∧ (s.setRoute r x).floorSent = s.floorSent ∧ (s.setRoute r x).dispatchSent = s.dispatchSent ∧ (s.setRoute r x).operatorSlot = s.operatorSlot ∧ (s.setRoute r x).safetySlot = s.safetySlot ∧ (s.setRoute r x).silenceLimit = s.silenceLimit ∧ (s.setRoute r x).clearPersistence = s.clearPersistence ∧ (s.setRoute r x).starvationLimit = s.starvationLimit ∧ (s.setRoute r x).mode = s.mode ∧ (s.setRoute r x).flags = s.flags ∧ (s.setRoute r x).masks = s.masks ∧ (s.setRoute r x).resetCause = s.resetCause ∧ (s.setRoute r x).districtCode = s.districtCode ∧ (s.setRoute r x).straps = s.straps ∧ (s.setRoute r x).stopLine = s.stopLine ∧ (s.setRoute r x).resetPin = s.resetPin ∧ (s.setRoute r x).tickets = s.tickets ∧ (s.setRoute r x).pending = s.pending :=
  by and_intros <;> rfl

@[simp] theorem setHop_fields (s : State) (h : HopIdx) (x : Hop) :
    (s.setHop h x).zones = s.zones ∧ (s.setHop h x).zoneStates = s.zoneStates ∧ (s.setHop h x).corridors = s.corridors ∧ (s.setHop h x).corridorStates = s.corridorStates ∧ (s.setHop h x).routes = s.routes ∧ (s.setHop h x).carriers = s.carriers ∧ (s.setHop h x).validators = s.validators ∧ (s.setHop h x).fieldSlots = s.fieldSlots ∧ (s.setHop h x).pinToken = s.pinToken ∧ (s.setHop h x).holdWait = s.holdWait ∧ (s.setHop h x).deadlock = s.deadlock ∧ (s.setHop h x).policy = s.policy ∧ (s.setHop h x).districtHold = s.districtHold ∧ (s.setHop h x).linkFlag = s.linkFlag ∧ (s.setHop h x).sectorHolds = s.sectorHolds ∧ (s.setHop h x).armLatch = s.armLatch ∧ (s.setHop h x).stopMarker = s.stopMarker ∧ (s.setHop h x).floorPort = s.floorPort ∧ (s.setHop h x).dispatchPort = s.dispatchPort ∧ (s.setHop h x).floorPartner = s.floorPartner ∧ (s.setHop h x).floorSent = s.floorSent ∧ (s.setHop h x).dispatchSent = s.dispatchSent ∧ (s.setHop h x).operatorSlot = s.operatorSlot ∧ (s.setHop h x).safetySlot = s.safetySlot ∧ (s.setHop h x).silenceLimit = s.silenceLimit ∧ (s.setHop h x).clearPersistence = s.clearPersistence ∧ (s.setHop h x).starvationLimit = s.starvationLimit ∧ (s.setHop h x).mode = s.mode ∧ (s.setHop h x).flags = s.flags ∧ (s.setHop h x).masks = s.masks ∧ (s.setHop h x).resetCause = s.resetCause ∧ (s.setHop h x).districtCode = s.districtCode ∧ (s.setHop h x).straps = s.straps ∧ (s.setHop h x).stopLine = s.stopLine ∧ (s.setHop h x).resetPin = s.resetPin ∧ (s.setHop h x).tickets = s.tickets ∧ (s.setHop h x).pending = s.pending :=
  by and_intros <;> rfl

@[simp] theorem setCarrier_fields (s : State) (c : CarrierId) (x : Carrier) :
    (s.setCarrier c x).zones = s.zones ∧ (s.setCarrier c x).zoneStates = s.zoneStates ∧ (s.setCarrier c x).corridors = s.corridors ∧ (s.setCarrier c x).corridorStates = s.corridorStates ∧ (s.setCarrier c x).routes = s.routes ∧ (s.setCarrier c x).hops = s.hops ∧ (s.setCarrier c x).validators = s.validators ∧ (s.setCarrier c x).fieldSlots = s.fieldSlots ∧ (s.setCarrier c x).pinToken = s.pinToken ∧ (s.setCarrier c x).holdWait = s.holdWait ∧ (s.setCarrier c x).deadlock = s.deadlock ∧ (s.setCarrier c x).policy = s.policy ∧ (s.setCarrier c x).districtHold = s.districtHold ∧ (s.setCarrier c x).linkFlag = s.linkFlag ∧ (s.setCarrier c x).sectorHolds = s.sectorHolds ∧ (s.setCarrier c x).armLatch = s.armLatch ∧ (s.setCarrier c x).stopMarker = s.stopMarker ∧ (s.setCarrier c x).floorPort = s.floorPort ∧ (s.setCarrier c x).dispatchPort = s.dispatchPort ∧ (s.setCarrier c x).floorPartner = s.floorPartner ∧ (s.setCarrier c x).floorSent = s.floorSent ∧ (s.setCarrier c x).dispatchSent = s.dispatchSent ∧ (s.setCarrier c x).operatorSlot = s.operatorSlot ∧ (s.setCarrier c x).safetySlot = s.safetySlot ∧ (s.setCarrier c x).silenceLimit = s.silenceLimit ∧ (s.setCarrier c x).clearPersistence = s.clearPersistence ∧ (s.setCarrier c x).starvationLimit = s.starvationLimit ∧ (s.setCarrier c x).mode = s.mode ∧ (s.setCarrier c x).flags = s.flags ∧ (s.setCarrier c x).masks = s.masks ∧ (s.setCarrier c x).resetCause = s.resetCause ∧ (s.setCarrier c x).districtCode = s.districtCode ∧ (s.setCarrier c x).straps = s.straps ∧ (s.setCarrier c x).stopLine = s.stopLine ∧ (s.setCarrier c x).resetPin = s.resetPin ∧ (s.setCarrier c x).tickets = s.tickets ∧ (s.setCarrier c x).pending = s.pending :=
  by and_intros <;> rfl

@[simp] theorem modCarrier_fields (s : State) (c : CarrierId) (f : Carrier → Carrier) :
    (s.modCarrier c f).zones = s.zones ∧ (s.modCarrier c f).zoneStates = s.zoneStates ∧ (s.modCarrier c f).corridors = s.corridors ∧ (s.modCarrier c f).corridorStates = s.corridorStates ∧ (s.modCarrier c f).routes = s.routes ∧ (s.modCarrier c f).hops = s.hops ∧ (s.modCarrier c f).validators = s.validators ∧ (s.modCarrier c f).fieldSlots = s.fieldSlots ∧ (s.modCarrier c f).pinToken = s.pinToken ∧ (s.modCarrier c f).holdWait = s.holdWait ∧ (s.modCarrier c f).deadlock = s.deadlock ∧ (s.modCarrier c f).policy = s.policy ∧ (s.modCarrier c f).districtHold = s.districtHold ∧ (s.modCarrier c f).linkFlag = s.linkFlag ∧ (s.modCarrier c f).sectorHolds = s.sectorHolds ∧ (s.modCarrier c f).armLatch = s.armLatch ∧ (s.modCarrier c f).stopMarker = s.stopMarker ∧ (s.modCarrier c f).floorPort = s.floorPort ∧ (s.modCarrier c f).dispatchPort = s.dispatchPort ∧ (s.modCarrier c f).floorPartner = s.floorPartner ∧ (s.modCarrier c f).floorSent = s.floorSent ∧ (s.modCarrier c f).dispatchSent = s.dispatchSent ∧ (s.modCarrier c f).operatorSlot = s.operatorSlot ∧ (s.modCarrier c f).safetySlot = s.safetySlot ∧ (s.modCarrier c f).silenceLimit = s.silenceLimit ∧ (s.modCarrier c f).clearPersistence = s.clearPersistence ∧ (s.modCarrier c f).starvationLimit = s.starvationLimit ∧ (s.modCarrier c f).mode = s.mode ∧ (s.modCarrier c f).flags = s.flags ∧ (s.modCarrier c f).masks = s.masks ∧ (s.modCarrier c f).resetCause = s.resetCause ∧ (s.modCarrier c f).districtCode = s.districtCode ∧ (s.modCarrier c f).straps = s.straps ∧ (s.modCarrier c f).stopLine = s.stopLine ∧ (s.modCarrier c f).resetPin = s.resetPin ∧ (s.modCarrier c f).tickets = s.tickets ∧ (s.modCarrier c f).pending = s.pending :=
  by and_intros <;> rfl

@[simp] theorem setValidator_fields (s : State) (c : CarrierId) (x : ValidatorSlot) :
    (s.setValidator c x).zones = s.zones ∧ (s.setValidator c x).zoneStates = s.zoneStates ∧ (s.setValidator c x).corridors = s.corridors ∧ (s.setValidator c x).corridorStates = s.corridorStates ∧ (s.setValidator c x).routes = s.routes ∧ (s.setValidator c x).hops = s.hops ∧ (s.setValidator c x).carriers = s.carriers ∧ (s.setValidator c x).fieldSlots = s.fieldSlots ∧ (s.setValidator c x).pinToken = s.pinToken ∧ (s.setValidator c x).holdWait = s.holdWait ∧ (s.setValidator c x).deadlock = s.deadlock ∧ (s.setValidator c x).policy = s.policy ∧ (s.setValidator c x).districtHold = s.districtHold ∧ (s.setValidator c x).linkFlag = s.linkFlag ∧ (s.setValidator c x).sectorHolds = s.sectorHolds ∧ (s.setValidator c x).armLatch = s.armLatch ∧ (s.setValidator c x).stopMarker = s.stopMarker ∧ (s.setValidator c x).floorPort = s.floorPort ∧ (s.setValidator c x).dispatchPort = s.dispatchPort ∧ (s.setValidator c x).floorPartner = s.floorPartner ∧ (s.setValidator c x).floorSent = s.floorSent ∧ (s.setValidator c x).dispatchSent = s.dispatchSent ∧ (s.setValidator c x).operatorSlot = s.operatorSlot ∧ (s.setValidator c x).safetySlot = s.safetySlot ∧ (s.setValidator c x).silenceLimit = s.silenceLimit ∧ (s.setValidator c x).clearPersistence = s.clearPersistence ∧ (s.setValidator c x).starvationLimit = s.starvationLimit ∧ (s.setValidator c x).mode = s.mode ∧ (s.setValidator c x).flags = s.flags ∧ (s.setValidator c x).masks = s.masks ∧ (s.setValidator c x).resetCause = s.resetCause ∧ (s.setValidator c x).districtCode = s.districtCode ∧ (s.setValidator c x).straps = s.straps ∧ (s.setValidator c x).stopLine = s.stopLine ∧ (s.setValidator c x).resetPin = s.resetPin ∧ (s.setValidator c x).tickets = s.tickets ∧ (s.setValidator c x).pending = s.pending :=
  by and_intros <;> rfl

@[simp] theorem setFieldSlot_fields (s : State) (f : FieldSlotId) (x : FieldSlot) :
    (s.setFieldSlot f x).zones = s.zones ∧ (s.setFieldSlot f x).zoneStates = s.zoneStates ∧ (s.setFieldSlot f x).corridors = s.corridors ∧ (s.setFieldSlot f x).corridorStates = s.corridorStates ∧ (s.setFieldSlot f x).routes = s.routes ∧ (s.setFieldSlot f x).hops = s.hops ∧ (s.setFieldSlot f x).carriers = s.carriers ∧ (s.setFieldSlot f x).validators = s.validators ∧ (s.setFieldSlot f x).pinToken = s.pinToken ∧ (s.setFieldSlot f x).holdWait = s.holdWait ∧ (s.setFieldSlot f x).deadlock = s.deadlock ∧ (s.setFieldSlot f x).policy = s.policy ∧ (s.setFieldSlot f x).districtHold = s.districtHold ∧ (s.setFieldSlot f x).linkFlag = s.linkFlag ∧ (s.setFieldSlot f x).sectorHolds = s.sectorHolds ∧ (s.setFieldSlot f x).armLatch = s.armLatch ∧ (s.setFieldSlot f x).stopMarker = s.stopMarker ∧ (s.setFieldSlot f x).floorPort = s.floorPort ∧ (s.setFieldSlot f x).dispatchPort = s.dispatchPort ∧ (s.setFieldSlot f x).floorPartner = s.floorPartner ∧ (s.setFieldSlot f x).floorSent = s.floorSent ∧ (s.setFieldSlot f x).dispatchSent = s.dispatchSent ∧ (s.setFieldSlot f x).operatorSlot = s.operatorSlot ∧ (s.setFieldSlot f x).safetySlot = s.safetySlot ∧ (s.setFieldSlot f x).silenceLimit = s.silenceLimit ∧ (s.setFieldSlot f x).clearPersistence = s.clearPersistence ∧ (s.setFieldSlot f x).starvationLimit = s.starvationLimit ∧ (s.setFieldSlot f x).mode = s.mode ∧ (s.setFieldSlot f x).flags = s.flags ∧ (s.setFieldSlot f x).masks = s.masks ∧ (s.setFieldSlot f x).resetCause = s.resetCause ∧ (s.setFieldSlot f x).districtCode = s.districtCode ∧ (s.setFieldSlot f x).straps = s.straps ∧ (s.setFieldSlot f x).stopLine = s.stopLine ∧ (s.setFieldSlot f x).resetPin = s.resetPin ∧ (s.setFieldSlot f x).tickets = s.tickets ∧ (s.setFieldSlot f x).pending = s.pending :=
  by and_intros <;> rfl

@[simp] theorem setInput_fields (s : State) (f : FieldSlotId) (i : LineId) (x : Input) :
    (s.setInput f i x).zones = s.zones ∧ (s.setInput f i x).zoneStates = s.zoneStates ∧ (s.setInput f i x).corridors = s.corridors ∧ (s.setInput f i x).corridorStates = s.corridorStates ∧ (s.setInput f i x).routes = s.routes ∧ (s.setInput f i x).hops = s.hops ∧ (s.setInput f i x).carriers = s.carriers ∧ (s.setInput f i x).validators = s.validators ∧ (s.setInput f i x).pinToken = s.pinToken ∧ (s.setInput f i x).holdWait = s.holdWait ∧ (s.setInput f i x).deadlock = s.deadlock ∧ (s.setInput f i x).policy = s.policy ∧ (s.setInput f i x).districtHold = s.districtHold ∧ (s.setInput f i x).linkFlag = s.linkFlag ∧ (s.setInput f i x).sectorHolds = s.sectorHolds ∧ (s.setInput f i x).armLatch = s.armLatch ∧ (s.setInput f i x).stopMarker = s.stopMarker ∧ (s.setInput f i x).floorPort = s.floorPort ∧ (s.setInput f i x).dispatchPort = s.dispatchPort ∧ (s.setInput f i x).floorPartner = s.floorPartner ∧ (s.setInput f i x).floorSent = s.floorSent ∧ (s.setInput f i x).dispatchSent = s.dispatchSent ∧ (s.setInput f i x).operatorSlot = s.operatorSlot ∧ (s.setInput f i x).safetySlot = s.safetySlot ∧ (s.setInput f i x).silenceLimit = s.silenceLimit ∧ (s.setInput f i x).clearPersistence = s.clearPersistence ∧ (s.setInput f i x).starvationLimit = s.starvationLimit ∧ (s.setInput f i x).mode = s.mode ∧ (s.setInput f i x).flags = s.flags ∧ (s.setInput f i x).masks = s.masks ∧ (s.setInput f i x).resetCause = s.resetCause ∧ (s.setInput f i x).districtCode = s.districtCode ∧ (s.setInput f i x).straps = s.straps ∧ (s.setInput f i x).stopLine = s.stopLine ∧ (s.setInput f i x).resetPin = s.resetPin ∧ (s.setInput f i x).tickets = s.tickets ∧ (s.setInput f i x).pending = s.pending :=
  by and_intros <;> rfl

@[simp] theorem setOutput_fields (s : State) (f : FieldSlotId) (i : LineId) (x : Bool) :
    (s.setOutput f i x).zones = s.zones ∧ (s.setOutput f i x).zoneStates = s.zoneStates ∧ (s.setOutput f i x).corridors = s.corridors ∧ (s.setOutput f i x).corridorStates = s.corridorStates ∧ (s.setOutput f i x).routes = s.routes ∧ (s.setOutput f i x).hops = s.hops ∧ (s.setOutput f i x).carriers = s.carriers ∧ (s.setOutput f i x).validators = s.validators ∧ (s.setOutput f i x).pinToken = s.pinToken ∧ (s.setOutput f i x).holdWait = s.holdWait ∧ (s.setOutput f i x).deadlock = s.deadlock ∧ (s.setOutput f i x).policy = s.policy ∧ (s.setOutput f i x).districtHold = s.districtHold ∧ (s.setOutput f i x).linkFlag = s.linkFlag ∧ (s.setOutput f i x).sectorHolds = s.sectorHolds ∧ (s.setOutput f i x).armLatch = s.armLatch ∧ (s.setOutput f i x).stopMarker = s.stopMarker ∧ (s.setOutput f i x).floorPort = s.floorPort ∧ (s.setOutput f i x).dispatchPort = s.dispatchPort ∧ (s.setOutput f i x).floorPartner = s.floorPartner ∧ (s.setOutput f i x).floorSent = s.floorSent ∧ (s.setOutput f i x).dispatchSent = s.dispatchSent ∧ (s.setOutput f i x).operatorSlot = s.operatorSlot ∧ (s.setOutput f i x).safetySlot = s.safetySlot ∧ (s.setOutput f i x).silenceLimit = s.silenceLimit ∧ (s.setOutput f i x).clearPersistence = s.clearPersistence ∧ (s.setOutput f i x).starvationLimit = s.starvationLimit ∧ (s.setOutput f i x).mode = s.mode ∧ (s.setOutput f i x).flags = s.flags ∧ (s.setOutput f i x).masks = s.masks ∧ (s.setOutput f i x).resetCause = s.resetCause ∧ (s.setOutput f i x).districtCode = s.districtCode ∧ (s.setOutput f i x).straps = s.straps ∧ (s.setOutput f i x).stopLine = s.stopLine ∧ (s.setOutput f i x).resetPin = s.resetPin ∧ (s.setOutput f i x).tickets = s.tickets ∧ (s.setOutput f i x).pending = s.pending :=
  by and_intros <;> rfl

@[simp] theorem setSectorHold_fields (s : State) (n : SectorId) (x : HoldEntry) :
    (s.setSectorHold n x).zones = s.zones ∧ (s.setSectorHold n x).zoneStates = s.zoneStates ∧ (s.setSectorHold n x).corridors = s.corridors ∧ (s.setSectorHold n x).corridorStates = s.corridorStates ∧ (s.setSectorHold n x).routes = s.routes ∧ (s.setSectorHold n x).hops = s.hops ∧ (s.setSectorHold n x).carriers = s.carriers ∧ (s.setSectorHold n x).validators = s.validators ∧ (s.setSectorHold n x).fieldSlots = s.fieldSlots ∧ (s.setSectorHold n x).pinToken = s.pinToken ∧ (s.setSectorHold n x).holdWait = s.holdWait ∧ (s.setSectorHold n x).deadlock = s.deadlock ∧ (s.setSectorHold n x).policy = s.policy ∧ (s.setSectorHold n x).districtHold = s.districtHold ∧ (s.setSectorHold n x).linkFlag = s.linkFlag ∧ (s.setSectorHold n x).armLatch = s.armLatch ∧ (s.setSectorHold n x).stopMarker = s.stopMarker ∧ (s.setSectorHold n x).floorPort = s.floorPort ∧ (s.setSectorHold n x).dispatchPort = s.dispatchPort ∧ (s.setSectorHold n x).floorPartner = s.floorPartner ∧ (s.setSectorHold n x).floorSent = s.floorSent ∧ (s.setSectorHold n x).dispatchSent = s.dispatchSent ∧ (s.setSectorHold n x).operatorSlot = s.operatorSlot ∧ (s.setSectorHold n x).safetySlot = s.safetySlot ∧ (s.setSectorHold n x).silenceLimit = s.silenceLimit ∧ (s.setSectorHold n x).clearPersistence = s.clearPersistence ∧ (s.setSectorHold n x).starvationLimit = s.starvationLimit ∧ (s.setSectorHold n x).mode = s.mode ∧ (s.setSectorHold n x).flags = s.flags ∧ (s.setSectorHold n x).masks = s.masks ∧ (s.setSectorHold n x).resetCause = s.resetCause ∧ (s.setSectorHold n x).districtCode = s.districtCode ∧ (s.setSectorHold n x).straps = s.straps ∧ (s.setSectorHold n x).stopLine = s.stopLine ∧ (s.setSectorHold n x).resetPin = s.resetPin ∧ (s.setSectorHold n x).tickets = s.tickets ∧ (s.setSectorHold n x).pending = s.pending :=
  by and_intros <;> rfl

@[simp] theorem setMgmt_fields (s : State) (sl : MgmtSlot) (x : MgmtState) :
    (s.setMgmt sl x).zones = s.zones ∧ (s.setMgmt sl x).zoneStates = s.zoneStates ∧ (s.setMgmt sl x).corridors = s.corridors ∧ (s.setMgmt sl x).corridorStates = s.corridorStates ∧ (s.setMgmt sl x).routes = s.routes ∧ (s.setMgmt sl x).hops = s.hops ∧ (s.setMgmt sl x).carriers = s.carriers ∧ (s.setMgmt sl x).validators = s.validators ∧ (s.setMgmt sl x).fieldSlots = s.fieldSlots ∧ (s.setMgmt sl x).pinToken = s.pinToken ∧ (s.setMgmt sl x).holdWait = s.holdWait ∧ (s.setMgmt sl x).deadlock = s.deadlock ∧ (s.setMgmt sl x).policy = s.policy ∧ (s.setMgmt sl x).districtHold = s.districtHold ∧ (s.setMgmt sl x).linkFlag = s.linkFlag ∧ (s.setMgmt sl x).sectorHolds = s.sectorHolds ∧ (s.setMgmt sl x).armLatch = s.armLatch ∧ (s.setMgmt sl x).stopMarker = s.stopMarker ∧ (s.setMgmt sl x).floorPort = s.floorPort ∧ (s.setMgmt sl x).dispatchPort = s.dispatchPort ∧ (s.setMgmt sl x).floorPartner = s.floorPartner ∧ (s.setMgmt sl x).floorSent = s.floorSent ∧ (s.setMgmt sl x).dispatchSent = s.dispatchSent ∧ (s.setMgmt sl x).silenceLimit = s.silenceLimit ∧ (s.setMgmt sl x).clearPersistence = s.clearPersistence ∧ (s.setMgmt sl x).starvationLimit = s.starvationLimit ∧ (s.setMgmt sl x).mode = s.mode ∧ (s.setMgmt sl x).flags = s.flags ∧ (s.setMgmt sl x).masks = s.masks ∧ (s.setMgmt sl x).resetCause = s.resetCause ∧ (s.setMgmt sl x).districtCode = s.districtCode ∧ (s.setMgmt sl x).straps = s.straps ∧ (s.setMgmt sl x).stopLine = s.stopLine ∧ (s.setMgmt sl x).resetPin = s.resetPin ∧ (s.setMgmt sl x).tickets = s.tickets ∧ (s.setMgmt sl x).pending = s.pending :=
  by cases sl <;> and_intros <;> rfl

@[simp] theorem setMachine_fields (s : State) (sl : MgmtSlot) (x : SlotMachine) :
    (s.setMachine sl x).zones = s.zones ∧ (s.setMachine sl x).zoneStates = s.zoneStates ∧ (s.setMachine sl x).corridors = s.corridors ∧ (s.setMachine sl x).corridorStates = s.corridorStates ∧ (s.setMachine sl x).routes = s.routes ∧ (s.setMachine sl x).hops = s.hops ∧ (s.setMachine sl x).carriers = s.carriers ∧ (s.setMachine sl x).validators = s.validators ∧ (s.setMachine sl x).fieldSlots = s.fieldSlots ∧ (s.setMachine sl x).pinToken = s.pinToken ∧ (s.setMachine sl x).holdWait = s.holdWait ∧ (s.setMachine sl x).deadlock = s.deadlock ∧ (s.setMachine sl x).policy = s.policy ∧ (s.setMachine sl x).districtHold = s.districtHold ∧ (s.setMachine sl x).linkFlag = s.linkFlag ∧ (s.setMachine sl x).sectorHolds = s.sectorHolds ∧ (s.setMachine sl x).armLatch = s.armLatch ∧ (s.setMachine sl x).stopMarker = s.stopMarker ∧ (s.setMachine sl x).floorPort = s.floorPort ∧ (s.setMachine sl x).dispatchPort = s.dispatchPort ∧ (s.setMachine sl x).floorPartner = s.floorPartner ∧ (s.setMachine sl x).floorSent = s.floorSent ∧ (s.setMachine sl x).dispatchSent = s.dispatchSent ∧ (s.setMachine sl x).silenceLimit = s.silenceLimit ∧ (s.setMachine sl x).clearPersistence = s.clearPersistence ∧ (s.setMachine sl x).starvationLimit = s.starvationLimit ∧ (s.setMachine sl x).mode = s.mode ∧ (s.setMachine sl x).flags = s.flags ∧ (s.setMachine sl x).masks = s.masks ∧ (s.setMachine sl x).resetCause = s.resetCause ∧ (s.setMachine sl x).districtCode = s.districtCode ∧ (s.setMachine sl x).straps = s.straps ∧ (s.setMachine sl x).stopLine = s.stopLine ∧ (s.setMachine sl x).resetPin = s.resetPin ∧ (s.setMachine sl x).tickets = s.tickets ∧ (s.setMachine sl x).pending = s.pending :=
  by cases sl <;> and_intros <;> rfl

@[simp] theorem setWatch_fields (s : State) (sl : MgmtSlot) (x : Watch) :
    (s.setWatch sl x).zones = s.zones ∧ (s.setWatch sl x).zoneStates = s.zoneStates ∧ (s.setWatch sl x).corridors = s.corridors ∧ (s.setWatch sl x).corridorStates = s.corridorStates ∧ (s.setWatch sl x).routes = s.routes ∧ (s.setWatch sl x).hops = s.hops ∧ (s.setWatch sl x).carriers = s.carriers ∧ (s.setWatch sl x).validators = s.validators ∧ (s.setWatch sl x).fieldSlots = s.fieldSlots ∧ (s.setWatch sl x).pinToken = s.pinToken ∧ (s.setWatch sl x).holdWait = s.holdWait ∧ (s.setWatch sl x).deadlock = s.deadlock ∧ (s.setWatch sl x).policy = s.policy ∧ (s.setWatch sl x).districtHold = s.districtHold ∧ (s.setWatch sl x).linkFlag = s.linkFlag ∧ (s.setWatch sl x).sectorHolds = s.sectorHolds ∧ (s.setWatch sl x).armLatch = s.armLatch ∧ (s.setWatch sl x).stopMarker = s.stopMarker ∧ (s.setWatch sl x).floorPort = s.floorPort ∧ (s.setWatch sl x).dispatchPort = s.dispatchPort ∧ (s.setWatch sl x).floorPartner = s.floorPartner ∧ (s.setWatch sl x).floorSent = s.floorSent ∧ (s.setWatch sl x).dispatchSent = s.dispatchSent ∧ (s.setWatch sl x).silenceLimit = s.silenceLimit ∧ (s.setWatch sl x).clearPersistence = s.clearPersistence ∧ (s.setWatch sl x).starvationLimit = s.starvationLimit ∧ (s.setWatch sl x).mode = s.mode ∧ (s.setWatch sl x).flags = s.flags ∧ (s.setWatch sl x).masks = s.masks ∧ (s.setWatch sl x).resetCause = s.resetCause ∧ (s.setWatch sl x).districtCode = s.districtCode ∧ (s.setWatch sl x).straps = s.straps ∧ (s.setWatch sl x).stopLine = s.stopLine ∧ (s.setWatch sl x).resetPin = s.resetPin ∧ (s.setWatch sl x).tickets = s.tickets ∧ (s.setWatch sl x).pending = s.pending :=
  by cases sl <;> and_intros <;> rfl

@[simp] theorem breakWatch_fields (s : State) (c : CarrierId) :
    (s.breakWatch c).zones = s.zones ∧ (s.breakWatch c).zoneStates = s.zoneStates ∧ (s.breakWatch c).corridors = s.corridors ∧ (s.breakWatch c).corridorStates = s.corridorStates ∧ (s.breakWatch c).routes = s.routes ∧ (s.breakWatch c).hops = s.hops ∧ (s.breakWatch c).carriers = s.carriers ∧ (s.breakWatch c).validators = s.validators ∧ (s.breakWatch c).fieldSlots = s.fieldSlots ∧ (s.breakWatch c).pinToken = s.pinToken ∧ (s.breakWatch c).holdWait = s.holdWait ∧ (s.breakWatch c).deadlock = s.deadlock ∧ (s.breakWatch c).policy = s.policy ∧ (s.breakWatch c).districtHold = s.districtHold ∧ (s.breakWatch c).linkFlag = s.linkFlag ∧ (s.breakWatch c).sectorHolds = s.sectorHolds ∧ (s.breakWatch c).armLatch = s.armLatch ∧ (s.breakWatch c).stopMarker = s.stopMarker ∧ (s.breakWatch c).floorPort = s.floorPort ∧ (s.breakWatch c).dispatchPort = s.dispatchPort ∧ (s.breakWatch c).floorPartner = s.floorPartner ∧ (s.breakWatch c).floorSent = s.floorSent ∧ (s.breakWatch c).dispatchSent = s.dispatchSent ∧ (s.breakWatch c).silenceLimit = s.silenceLimit ∧ (s.breakWatch c).clearPersistence = s.clearPersistence ∧ (s.breakWatch c).starvationLimit = s.starvationLimit ∧ (s.breakWatch c).mode = s.mode ∧ (s.breakWatch c).flags = s.flags ∧ (s.breakWatch c).masks = s.masks ∧ (s.breakWatch c).resetCause = s.resetCause ∧ (s.breakWatch c).districtCode = s.districtCode ∧ (s.breakWatch c).straps = s.straps ∧ (s.breakWatch c).stopLine = s.stopLine ∧ (s.breakWatch c).resetPin = s.resetPin ∧ (s.breakWatch c).tickets = s.tickets ∧ (s.breakWatch c).pending = s.pending :=
  by and_intros <;> rfl

@[simp] theorem flagState_fields (s : State) (c : CarrierId) :
    (s.flagState c).zones = s.zones ∧ (s.flagState c).zoneStates = s.zoneStates ∧ (s.flagState c).corridors = s.corridors ∧ (s.flagState c).corridorStates = s.corridorStates ∧ (s.flagState c).routes = s.routes ∧ (s.flagState c).hops = s.hops ∧ (s.flagState c).validators = s.validators ∧ (s.flagState c).fieldSlots = s.fieldSlots ∧ (s.flagState c).pinToken = s.pinToken ∧ (s.flagState c).holdWait = s.holdWait ∧ (s.flagState c).deadlock = s.deadlock ∧ (s.flagState c).policy = s.policy ∧ (s.flagState c).districtHold = s.districtHold ∧ (s.flagState c).linkFlag = s.linkFlag ∧ (s.flagState c).sectorHolds = s.sectorHolds ∧ (s.flagState c).armLatch = s.armLatch ∧ (s.flagState c).stopMarker = s.stopMarker ∧ (s.flagState c).floorPort = s.floorPort ∧ (s.flagState c).dispatchPort = s.dispatchPort ∧ (s.flagState c).floorPartner = s.floorPartner ∧ (s.flagState c).floorSent = s.floorSent ∧ (s.flagState c).dispatchSent = s.dispatchSent ∧ (s.flagState c).operatorSlot = s.operatorSlot ∧ (s.flagState c).safetySlot = s.safetySlot ∧ (s.flagState c).silenceLimit = s.silenceLimit ∧ (s.flagState c).clearPersistence = s.clearPersistence ∧ (s.flagState c).starvationLimit = s.starvationLimit ∧ (s.flagState c).mode = s.mode ∧ (s.flagState c).flags = s.flags ∧ (s.flagState c).masks = s.masks ∧ (s.flagState c).resetCause = s.resetCause ∧ (s.flagState c).districtCode = s.districtCode ∧ (s.flagState c).straps = s.straps ∧ (s.flagState c).stopLine = s.stopLine ∧ (s.flagState c).resetPin = s.resetPin ∧ (s.flagState c).tickets = s.tickets ∧ (s.flagState c).pending = s.pending :=
  by and_intros <;> rfl

@[simp] theorem flagFault_fields (s : State) (c : CarrierId) :
    (s.flagFault c).zones = s.zones ∧ (s.flagFault c).zoneStates = s.zoneStates ∧ (s.flagFault c).corridors = s.corridors ∧ (s.flagFault c).corridorStates = s.corridorStates ∧ (s.flagFault c).routes = s.routes ∧ (s.flagFault c).hops = s.hops ∧ (s.flagFault c).validators = s.validators ∧ (s.flagFault c).fieldSlots = s.fieldSlots ∧ (s.flagFault c).pinToken = s.pinToken ∧ (s.flagFault c).holdWait = s.holdWait ∧ (s.flagFault c).deadlock = s.deadlock ∧ (s.flagFault c).policy = s.policy ∧ (s.flagFault c).districtHold = s.districtHold ∧ (s.flagFault c).linkFlag = s.linkFlag ∧ (s.flagFault c).sectorHolds = s.sectorHolds ∧ (s.flagFault c).armLatch = s.armLatch ∧ (s.flagFault c).stopMarker = s.stopMarker ∧ (s.flagFault c).floorPort = s.floorPort ∧ (s.flagFault c).dispatchPort = s.dispatchPort ∧ (s.flagFault c).floorPartner = s.floorPartner ∧ (s.flagFault c).floorSent = s.floorSent ∧ (s.flagFault c).dispatchSent = s.dispatchSent ∧ (s.flagFault c).operatorSlot = s.operatorSlot ∧ (s.flagFault c).safetySlot = s.safetySlot ∧ (s.flagFault c).silenceLimit = s.silenceLimit ∧ (s.flagFault c).clearPersistence = s.clearPersistence ∧ (s.flagFault c).starvationLimit = s.starvationLimit ∧ (s.flagFault c).mode = s.mode ∧ (s.flagFault c).flags = s.flags ∧ (s.flagFault c).masks = s.masks ∧ (s.flagFault c).resetCause = s.resetCause ∧ (s.flagFault c).districtCode = s.districtCode ∧ (s.flagFault c).straps = s.straps ∧ (s.flagFault c).stopLine = s.stopLine ∧ (s.flagFault c).resetPin = s.resetPin ∧ (s.flagFault c).tickets = s.tickets ∧ (s.flagFault c).pending = s.pending :=
  by and_intros <;> rfl

@[simp] theorem flagWait_fields (s : State) (c : CarrierId) :
    (s.flagWait c).zones = s.zones ∧ (s.flagWait c).zoneStates = s.zoneStates ∧ (s.flagWait c).corridors = s.corridors ∧ (s.flagWait c).corridorStates = s.corridorStates ∧ (s.flagWait c).routes = s.routes ∧ (s.flagWait c).hops = s.hops ∧ (s.flagWait c).validators = s.validators ∧ (s.flagWait c).fieldSlots = s.fieldSlots ∧ (s.flagWait c).pinToken = s.pinToken ∧ (s.flagWait c).holdWait = s.holdWait ∧ (s.flagWait c).deadlock = s.deadlock ∧ (s.flagWait c).policy = s.policy ∧ (s.flagWait c).districtHold = s.districtHold ∧ (s.flagWait c).linkFlag = s.linkFlag ∧ (s.flagWait c).sectorHolds = s.sectorHolds ∧ (s.flagWait c).armLatch = s.armLatch ∧ (s.flagWait c).stopMarker = s.stopMarker ∧ (s.flagWait c).floorPort = s.floorPort ∧ (s.flagWait c).dispatchPort = s.dispatchPort ∧ (s.flagWait c).floorPartner = s.floorPartner ∧ (s.flagWait c).floorSent = s.floorSent ∧ (s.flagWait c).dispatchSent = s.dispatchSent ∧ (s.flagWait c).operatorSlot = s.operatorSlot ∧ (s.flagWait c).safetySlot = s.safetySlot ∧ (s.flagWait c).silenceLimit = s.silenceLimit ∧ (s.flagWait c).clearPersistence = s.clearPersistence ∧ (s.flagWait c).starvationLimit = s.starvationLimit ∧ (s.flagWait c).mode = s.mode ∧ (s.flagWait c).flags = s.flags ∧ (s.flagWait c).masks = s.masks ∧ (s.flagWait c).resetCause = s.resetCause ∧ (s.flagWait c).districtCode = s.districtCode ∧ (s.flagWait c).straps = s.straps ∧ (s.flagWait c).stopLine = s.stopLine ∧ (s.flagWait c).resetPin = s.resetPin ∧ (s.flagWait c).tickets = s.tickets ∧ (s.flagWait c).pending = s.pending :=
  by and_intros <;> rfl

@[simp] theorem flagRouteEnd_fields (s : State) (c : CarrierId) :
    (s.flagRouteEnd c).zones = s.zones ∧ (s.flagRouteEnd c).zoneStates = s.zoneStates ∧ (s.flagRouteEnd c).corridors = s.corridors ∧ (s.flagRouteEnd c).corridorStates = s.corridorStates ∧ (s.flagRouteEnd c).routes = s.routes ∧ (s.flagRouteEnd c).hops = s.hops ∧ (s.flagRouteEnd c).validators = s.validators ∧ (s.flagRouteEnd c).fieldSlots = s.fieldSlots ∧ (s.flagRouteEnd c).pinToken = s.pinToken ∧ (s.flagRouteEnd c).holdWait = s.holdWait ∧ (s.flagRouteEnd c).deadlock = s.deadlock ∧ (s.flagRouteEnd c).policy = s.policy ∧ (s.flagRouteEnd c).districtHold = s.districtHold ∧ (s.flagRouteEnd c).linkFlag = s.linkFlag ∧ (s.flagRouteEnd c).sectorHolds = s.sectorHolds ∧ (s.flagRouteEnd c).armLatch = s.armLatch ∧ (s.flagRouteEnd c).stopMarker = s.stopMarker ∧ (s.flagRouteEnd c).floorPort = s.floorPort ∧ (s.flagRouteEnd c).dispatchPort = s.dispatchPort ∧ (s.flagRouteEnd c).floorPartner = s.floorPartner ∧ (s.flagRouteEnd c).floorSent = s.floorSent ∧ (s.flagRouteEnd c).dispatchSent = s.dispatchSent ∧ (s.flagRouteEnd c).operatorSlot = s.operatorSlot ∧ (s.flagRouteEnd c).safetySlot = s.safetySlot ∧ (s.flagRouteEnd c).silenceLimit = s.silenceLimit ∧ (s.flagRouteEnd c).clearPersistence = s.clearPersistence ∧ (s.flagRouteEnd c).starvationLimit = s.starvationLimit ∧ (s.flagRouteEnd c).mode = s.mode ∧ (s.flagRouteEnd c).flags = s.flags ∧ (s.flagRouteEnd c).masks = s.masks ∧ (s.flagRouteEnd c).resetCause = s.resetCause ∧ (s.flagRouteEnd c).districtCode = s.districtCode ∧ (s.flagRouteEnd c).straps = s.straps ∧ (s.flagRouteEnd c).stopLine = s.stopLine ∧ (s.flagRouteEnd c).resetPin = s.resetPin ∧ (s.flagRouteEnd c).tickets = s.tickets ∧ (s.flagRouteEnd c).pending = s.pending :=
  by and_intros <;> rfl

@[simp] theorem clearWait_fields (s : State) (c : CarrierId) :
    (s.clearWait c).zones = s.zones ∧ (s.clearWait c).zoneStates = s.zoneStates ∧ (s.clearWait c).corridors = s.corridors ∧ (s.clearWait c).corridorStates = s.corridorStates ∧ (s.clearWait c).routes = s.routes ∧ (s.clearWait c).hops = s.hops ∧ (s.clearWait c).validators = s.validators ∧ (s.clearWait c).fieldSlots = s.fieldSlots ∧ (s.clearWait c).pinToken = s.pinToken ∧ (s.clearWait c).holdWait = s.holdWait ∧ (s.clearWait c).deadlock = s.deadlock ∧ (s.clearWait c).policy = s.policy ∧ (s.clearWait c).districtHold = s.districtHold ∧ (s.clearWait c).linkFlag = s.linkFlag ∧ (s.clearWait c).sectorHolds = s.sectorHolds ∧ (s.clearWait c).armLatch = s.armLatch ∧ (s.clearWait c).stopMarker = s.stopMarker ∧ (s.clearWait c).floorPort = s.floorPort ∧ (s.clearWait c).dispatchPort = s.dispatchPort ∧ (s.clearWait c).floorPartner = s.floorPartner ∧ (s.clearWait c).floorSent = s.floorSent ∧ (s.clearWait c).dispatchSent = s.dispatchSent ∧ (s.clearWait c).operatorSlot = s.operatorSlot ∧ (s.clearWait c).safetySlot = s.safetySlot ∧ (s.clearWait c).silenceLimit = s.silenceLimit ∧ (s.clearWait c).clearPersistence = s.clearPersistence ∧ (s.clearWait c).starvationLimit = s.starvationLimit ∧ (s.clearWait c).mode = s.mode ∧ (s.clearWait c).flags = s.flags ∧ (s.clearWait c).masks = s.masks ∧ (s.clearWait c).resetCause = s.resetCause ∧ (s.clearWait c).districtCode = s.districtCode ∧ (s.clearWait c).straps = s.straps ∧ (s.clearWait c).stopLine = s.stopLine ∧ (s.clearWait c).resetPin = s.resetPin ∧ (s.clearWait c).tickets = s.tickets ∧ (s.clearWait c).pending = s.pending :=
  by and_intros <;> rfl

@[simp] theorem flagHoldChange_fields (s : State)  :
    (s.flagHoldChange).zones = s.zones ∧ (s.flagHoldChange).zoneStates = s.zoneStates ∧ (s.flagHoldChange).corridors = s.corridors ∧ (s.flagHoldChange).corridorStates = s.corridorStates ∧ (s.flagHoldChange).routes = s.routes ∧ (s.flagHoldChange).hops = s.hops ∧ (s.flagHoldChange).carriers = s.carriers ∧ (s.flagHoldChange).validators = s.validators ∧ (s.flagHoldChange).fieldSlots = s.fieldSlots ∧ (s.flagHoldChange).pinToken = s.pinToken ∧ (s.flagHoldChange).holdWait = s.holdWait ∧ (s.flagHoldChange).deadlock = s.deadlock ∧ (s.flagHoldChange).policy = s.policy ∧ (s.flagHoldChange).districtHold = s.districtHold ∧ (s.flagHoldChange).linkFlag = s.linkFlag ∧ (s.flagHoldChange).sectorHolds = s.sectorHolds ∧ (s.flagHoldChange).armLatch = s.armLatch ∧ (s.flagHoldChange).stopMarker = s.stopMarker ∧ (s.flagHoldChange).floorPort = s.floorPort ∧ (s.flagHoldChange).dispatchPort = s.dispatchPort ∧ (s.flagHoldChange).floorPartner = s.floorPartner ∧ (s.flagHoldChange).floorSent = s.floorSent ∧ (s.flagHoldChange).dispatchSent = s.dispatchSent ∧ (s.flagHoldChange).operatorSlot = s.operatorSlot ∧ (s.flagHoldChange).safetySlot = s.safetySlot ∧ (s.flagHoldChange).silenceLimit = s.silenceLimit ∧ (s.flagHoldChange).clearPersistence = s.clearPersistence ∧ (s.flagHoldChange).starvationLimit = s.starvationLimit ∧ (s.flagHoldChange).mode = s.mode ∧ (s.flagHoldChange).masks = s.masks ∧ (s.flagHoldChange).resetCause = s.resetCause ∧ (s.flagHoldChange).districtCode = s.districtCode ∧ (s.flagHoldChange).straps = s.straps ∧ (s.flagHoldChange).stopLine = s.stopLine ∧ (s.flagHoldChange).resetPin = s.resetPin ∧ (s.flagHoldChange).tickets = s.tickets ∧ (s.flagHoldChange).pending = s.pending :=
  by and_intros <;> rfl

@[simp] theorem flagDeadlock_fields (s : State)  :
    (s.flagDeadlock).zones = s.zones ∧ (s.flagDeadlock).zoneStates = s.zoneStates ∧ (s.flagDeadlock).corridors = s.corridors ∧ (s.flagDeadlock).corridorStates = s.corridorStates ∧ (s.flagDeadlock).routes = s.routes ∧ (s.flagDeadlock).hops = s.hops ∧ (s.flagDeadlock).carriers = s.carriers ∧ (s.flagDeadlock).validators = s.validators ∧ (s.flagDeadlock).fieldSlots = s.fieldSlots ∧ (s.flagDeadlock).pinToken = s.pinToken ∧ (s.flagDeadlock).holdWait = s.holdWait ∧ (s.flagDeadlock).deadlock = s.deadlock ∧ (s.flagDeadlock).policy = s.policy ∧ (s.flagDeadlock).districtHold = s.districtHold ∧ (s.flagDeadlock).linkFlag = s.linkFlag ∧ (s.flagDeadlock).sectorHolds = s.sectorHolds ∧ (s.flagDeadlock).armLatch = s.armLatch ∧ (s.flagDeadlock).stopMarker = s.stopMarker ∧ (s.flagDeadlock).floorPort = s.floorPort ∧ (s.flagDeadlock).dispatchPort = s.dispatchPort ∧ (s.flagDeadlock).floorPartner = s.floorPartner ∧ (s.flagDeadlock).floorSent = s.floorSent ∧ (s.flagDeadlock).dispatchSent = s.dispatchSent ∧ (s.flagDeadlock).operatorSlot = s.operatorSlot ∧ (s.flagDeadlock).safetySlot = s.safetySlot ∧ (s.flagDeadlock).silenceLimit = s.silenceLimit ∧ (s.flagDeadlock).clearPersistence = s.clearPersistence ∧ (s.flagDeadlock).starvationLimit = s.starvationLimit ∧ (s.flagDeadlock).mode = s.mode ∧ (s.flagDeadlock).masks = s.masks ∧ (s.flagDeadlock).resetCause = s.resetCause ∧ (s.flagDeadlock).districtCode = s.districtCode ∧ (s.flagDeadlock).straps = s.straps ∧ (s.flagDeadlock).stopLine = s.stopLine ∧ (s.flagDeadlock).resetPin = s.resetPin ∧ (s.flagDeadlock).tickets = s.tickets ∧ (s.flagDeadlock).pending = s.pending :=
  by and_intros <;> rfl

@[simp] theorem flagStop_fields (s : State)  :
    (s.flagStop).zones = s.zones ∧ (s.flagStop).zoneStates = s.zoneStates ∧ (s.flagStop).corridors = s.corridors ∧ (s.flagStop).corridorStates = s.corridorStates ∧ (s.flagStop).routes = s.routes ∧ (s.flagStop).hops = s.hops ∧ (s.flagStop).carriers = s.carriers ∧ (s.flagStop).validators = s.validators ∧ (s.flagStop).fieldSlots = s.fieldSlots ∧ (s.flagStop).pinToken = s.pinToken ∧ (s.flagStop).holdWait = s.holdWait ∧ (s.flagStop).deadlock = s.deadlock ∧ (s.flagStop).policy = s.policy ∧ (s.flagStop).districtHold = s.districtHold ∧ (s.flagStop).linkFlag = s.linkFlag ∧ (s.flagStop).sectorHolds = s.sectorHolds ∧ (s.flagStop).armLatch = s.armLatch ∧ (s.flagStop).stopMarker = s.stopMarker ∧ (s.flagStop).floorPort = s.floorPort ∧ (s.flagStop).dispatchPort = s.dispatchPort ∧ (s.flagStop).floorPartner = s.floorPartner ∧ (s.flagStop).floorSent = s.floorSent ∧ (s.flagStop).dispatchSent = s.dispatchSent ∧ (s.flagStop).operatorSlot = s.operatorSlot ∧ (s.flagStop).safetySlot = s.safetySlot ∧ (s.flagStop).silenceLimit = s.silenceLimit ∧ (s.flagStop).clearPersistence = s.clearPersistence ∧ (s.flagStop).starvationLimit = s.starvationLimit ∧ (s.flagStop).mode = s.mode ∧ (s.flagStop).masks = s.masks ∧ (s.flagStop).resetCause = s.resetCause ∧ (s.flagStop).districtCode = s.districtCode ∧ (s.flagStop).straps = s.straps ∧ (s.flagStop).stopLine = s.stopLine ∧ (s.flagStop).resetPin = s.resetPin ∧ (s.flagStop).tickets = s.tickets ∧ (s.flagStop).pending = s.pending :=
  by and_intros <;> rfl

@[simp] theorem flagFloorLink_fields (s : State)  :
    (s.flagFloorLink).zones = s.zones ∧ (s.flagFloorLink).zoneStates = s.zoneStates ∧ (s.flagFloorLink).corridors = s.corridors ∧ (s.flagFloorLink).corridorStates = s.corridorStates ∧ (s.flagFloorLink).routes = s.routes ∧ (s.flagFloorLink).hops = s.hops ∧ (s.flagFloorLink).carriers = s.carriers ∧ (s.flagFloorLink).validators = s.validators ∧ (s.flagFloorLink).fieldSlots = s.fieldSlots ∧ (s.flagFloorLink).pinToken = s.pinToken ∧ (s.flagFloorLink).holdWait = s.holdWait ∧ (s.flagFloorLink).deadlock = s.deadlock ∧ (s.flagFloorLink).policy = s.policy ∧ (s.flagFloorLink).districtHold = s.districtHold ∧ (s.flagFloorLink).linkFlag = s.linkFlag ∧ (s.flagFloorLink).sectorHolds = s.sectorHolds ∧ (s.flagFloorLink).armLatch = s.armLatch ∧ (s.flagFloorLink).stopMarker = s.stopMarker ∧ (s.flagFloorLink).floorPort = s.floorPort ∧ (s.flagFloorLink).dispatchPort = s.dispatchPort ∧ (s.flagFloorLink).floorPartner = s.floorPartner ∧ (s.flagFloorLink).floorSent = s.floorSent ∧ (s.flagFloorLink).dispatchSent = s.dispatchSent ∧ (s.flagFloorLink).operatorSlot = s.operatorSlot ∧ (s.flagFloorLink).safetySlot = s.safetySlot ∧ (s.flagFloorLink).silenceLimit = s.silenceLimit ∧ (s.flagFloorLink).clearPersistence = s.clearPersistence ∧ (s.flagFloorLink).starvationLimit = s.starvationLimit ∧ (s.flagFloorLink).mode = s.mode ∧ (s.flagFloorLink).masks = s.masks ∧ (s.flagFloorLink).resetCause = s.resetCause ∧ (s.flagFloorLink).districtCode = s.districtCode ∧ (s.flagFloorLink).straps = s.straps ∧ (s.flagFloorLink).stopLine = s.stopLine ∧ (s.flagFloorLink).resetPin = s.resetPin ∧ (s.flagFloorLink).tickets = s.tickets ∧ (s.flagFloorLink).pending = s.pending :=
  by and_intros <;> rfl

@[simp] theorem flagDispatchLink_fields (s : State)  :
    (s.flagDispatchLink).zones = s.zones ∧ (s.flagDispatchLink).zoneStates = s.zoneStates ∧ (s.flagDispatchLink).corridors = s.corridors ∧ (s.flagDispatchLink).corridorStates = s.corridorStates ∧ (s.flagDispatchLink).routes = s.routes ∧ (s.flagDispatchLink).hops = s.hops ∧ (s.flagDispatchLink).carriers = s.carriers ∧ (s.flagDispatchLink).validators = s.validators ∧ (s.flagDispatchLink).fieldSlots = s.fieldSlots ∧ (s.flagDispatchLink).pinToken = s.pinToken ∧ (s.flagDispatchLink).holdWait = s.holdWait ∧ (s.flagDispatchLink).deadlock = s.deadlock ∧ (s.flagDispatchLink).policy = s.policy ∧ (s.flagDispatchLink).districtHold = s.districtHold ∧ (s.flagDispatchLink).linkFlag = s.linkFlag ∧ (s.flagDispatchLink).sectorHolds = s.sectorHolds ∧ (s.flagDispatchLink).armLatch = s.armLatch ∧ (s.flagDispatchLink).stopMarker = s.stopMarker ∧ (s.flagDispatchLink).floorPort = s.floorPort ∧ (s.flagDispatchLink).dispatchPort = s.dispatchPort ∧ (s.flagDispatchLink).floorPartner = s.floorPartner ∧ (s.flagDispatchLink).floorSent = s.floorSent ∧ (s.flagDispatchLink).dispatchSent = s.dispatchSent ∧ (s.flagDispatchLink).operatorSlot = s.operatorSlot ∧ (s.flagDispatchLink).safetySlot = s.safetySlot ∧ (s.flagDispatchLink).silenceLimit = s.silenceLimit ∧ (s.flagDispatchLink).clearPersistence = s.clearPersistence ∧ (s.flagDispatchLink).starvationLimit = s.starvationLimit ∧ (s.flagDispatchLink).mode = s.mode ∧ (s.flagDispatchLink).masks = s.masks ∧ (s.flagDispatchLink).resetCause = s.resetCause ∧ (s.flagDispatchLink).districtCode = s.districtCode ∧ (s.flagDispatchLink).straps = s.straps ∧ (s.flagDispatchLink).stopLine = s.stopLine ∧ (s.flagDispatchLink).resetPin = s.resetPin ∧ (s.flagDispatchLink).tickets = s.tickets ∧ (s.flagDispatchLink).pending = s.pending :=
  by and_intros <;> rfl

/-! ## Accessors left alone -/

@[simp] theorem setZone_accessors (s : State) (z : ZoneId) (r : ZoneRecord) :
    (∀ (a : ZoneId), (s.setZone z r).zst a = s.zst a) ∧ (∀ (a : CorridorId), (s.setZone z r).corridor a = s.corridor a) ∧ (∀ (a : CorridorId), (s.setZone z r).cst a = s.cst a) ∧ (∀ (a : RouteId), (s.setZone z r).route a = s.route a) ∧ (∀ (a : HopIdx), (s.setZone z r).hop a = s.hop a) ∧ (∀ (a : CarrierId), (s.setZone z r).carrier a = s.carrier a) ∧ (∀ (a : CarrierId), (s.setZone z r).validator a = s.validator a) ∧ (∀ (a : FieldSlotId), (s.setZone z r).fieldSlot a = s.fieldSlot a) ∧ (∀ (a : FieldSlotId) (b : LineId), (s.setZone z r).input a b = s.input a b) ∧ (∀ (a : FieldSlotId) (b : LineId), (s.setZone z r).output a b = s.output a b) ∧ (∀ (a : SectorId), (s.setZone z r).sectorHold a = s.sectorHold a) ∧ (∀ (a : MgmtSlot), (s.setZone z r).mgmt a = s.mgmt a) ∧ (∀ (a : MgmtSlot), (s.setZone z r).machine a = s.machine a) ∧ (∀ (a : MgmtSlot), (s.setZone z r).watch a = s.watch a) ∧ ((s.setZone z r).districtActive = s.districtActive) ∧ (∀ (a : SectorId), (s.setZone z r).sectorActive a = s.sectorActive a) ∧ (∀ (a : HopIdx), (s.setZone z r).hopZone a = s.hopZone a) :=
  by and_intros <;> intros <;> first | rfl | (rename_i a; cases a <;> rfl)

@[simp] theorem setZst_accessors (s : State) (z : ZoneId) (x : ZoneState) :
    (∀ (a : ZoneId), (s.setZst z x).zone a = s.zone a) ∧ (∀ (a : CorridorId), (s.setZst z x).corridor a = s.corridor a) ∧ (∀ (a : CorridorId), (s.setZst z x).cst a = s.cst a) ∧ (∀ (a : RouteId), (s.setZst z x).route a = s.route a) ∧ (∀ (a : HopIdx), (s.setZst z x).hop a = s.hop a) ∧ (∀ (a : CarrierId), (s.setZst z x).carrier a = s.carrier a) ∧ (∀ (a : CarrierId), (s.setZst z x).validator a = s.validator a) ∧ (∀ (a : FieldSlotId), (s.setZst z x).fieldSlot a = s.fieldSlot a) ∧ (∀ (a : FieldSlotId) (b : LineId), (s.setZst z x).input a b = s.input a b) ∧ (∀ (a : FieldSlotId) (b : LineId), (s.setZst z x).output a b = s.output a b) ∧ (∀ (a : SectorId), (s.setZst z x).sectorHold a = s.sectorHold a) ∧ (∀ (a : MgmtSlot), (s.setZst z x).mgmt a = s.mgmt a) ∧ (∀ (a : MgmtSlot), (s.setZst z x).machine a = s.machine a) ∧ (∀ (a : MgmtSlot), (s.setZst z x).watch a = s.watch a) ∧ (∀ (a : ZoneId), (s.setZst z x).corridorOfZone a = s.corridorOfZone a) ∧ (∀ (a : ZoneId), (s.setZst z x).noStop a = s.noStop a) ∧ ((s.setZst z x).districtActive = s.districtActive) ∧ (∀ (a : SectorId), (s.setZst z x).sectorActive a = s.sectorActive a) ∧ (∀ (a : HopIdx), (s.setZst z x).hopZone a = s.hopZone a) :=
  by and_intros <;> intros <;> first | rfl | (rename_i a; cases a <;> rfl)

@[simp] theorem setCorridor_accessors (s : State) (k : CorridorId) (r : CorridorRecord) :
    (∀ (a : ZoneId), (s.setCorridor k r).zone a = s.zone a) ∧ (∀ (a : ZoneId), (s.setCorridor k r).zst a = s.zst a) ∧ (∀ (a : CorridorId), (s.setCorridor k r).cst a = s.cst a) ∧ (∀ (a : RouteId), (s.setCorridor k r).route a = s.route a) ∧ (∀ (a : HopIdx), (s.setCorridor k r).hop a = s.hop a) ∧ (∀ (a : CarrierId), (s.setCorridor k r).carrier a = s.carrier a) ∧ (∀ (a : CarrierId), (s.setCorridor k r).validator a = s.validator a) ∧ (∀ (a : FieldSlotId), (s.setCorridor k r).fieldSlot a = s.fieldSlot a) ∧ (∀ (a : FieldSlotId) (b : LineId), (s.setCorridor k r).input a b = s.input a b) ∧ (∀ (a : FieldSlotId) (b : LineId), (s.setCorridor k r).output a b = s.output a b) ∧ (∀ (a : SectorId), (s.setCorridor k r).sectorHold a = s.sectorHold a) ∧ (∀ (a : MgmtSlot), (s.setCorridor k r).mgmt a = s.mgmt a) ∧ (∀ (a : MgmtSlot), (s.setCorridor k r).machine a = s.machine a) ∧ (∀ (a : MgmtSlot), (s.setCorridor k r).watch a = s.watch a) ∧ (∀ (a : ZoneId), (s.setCorridor k r).corridorOfZone a = s.corridorOfZone a) ∧ (∀ (a : ZoneId), (s.setCorridor k r).noStop a = s.noStop a) ∧ ((s.setCorridor k r).districtActive = s.districtActive) ∧ (∀ (a : SectorId), (s.setCorridor k r).sectorActive a = s.sectorActive a) ∧ (∀ (a : HopIdx), (s.setCorridor k r).hopZone a = s.hopZone a) :=
  by and_intros <;> intros <;> first | rfl | (rename_i a; cases a <;> rfl)

@[simp] theorem setCst_accessors (s : State) (k : CorridorId) (x : CorridorState) :
    (∀ (a : ZoneId), (s.setCst k x).zone a = s.zone a) ∧ (∀ (a : ZoneId), (s.setCst k x).zst a = s.zst a) ∧ (∀ (a : CorridorId), (s.setCst k x).corridor a = s.corridor a) ∧ (∀ (a : RouteId), (s.setCst k x).route a = s.route a) ∧ (∀ (a : HopIdx), (s.setCst k x).hop a = s.hop a) ∧ (∀ (a : CarrierId), (s.setCst k x).carrier a = s.carrier a) ∧ (∀ (a : CarrierId), (s.setCst k x).validator a = s.validator a) ∧ (∀ (a : FieldSlotId), (s.setCst k x).fieldSlot a = s.fieldSlot a) ∧ (∀ (a : FieldSlotId) (b : LineId), (s.setCst k x).input a b = s.input a b) ∧ (∀ (a : FieldSlotId) (b : LineId), (s.setCst k x).output a b = s.output a b) ∧ (∀ (a : SectorId), (s.setCst k x).sectorHold a = s.sectorHold a) ∧ (∀ (a : MgmtSlot), (s.setCst k x).mgmt a = s.mgmt a) ∧ (∀ (a : MgmtSlot), (s.setCst k x).machine a = s.machine a) ∧ (∀ (a : MgmtSlot), (s.setCst k x).watch a = s.watch a) ∧ (∀ (a : ZoneId), (s.setCst k x).corridorOfZone a = s.corridorOfZone a) ∧ (∀ (a : ZoneId), (s.setCst k x).noStop a = s.noStop a) ∧ ((s.setCst k x).districtActive = s.districtActive) ∧ (∀ (a : SectorId), (s.setCst k x).sectorActive a = s.sectorActive a) ∧ (∀ (a : HopIdx), (s.setCst k x).hopZone a = s.hopZone a) :=
  by and_intros <;> intros <;> first | rfl | (rename_i a; cases a <;> rfl)

@[simp] theorem setRoute_accessors (s : State) (r : RouteId) (x : RouteRecord) :
    (∀ (a : ZoneId), (s.setRoute r x).zone a = s.zone a) ∧ (∀ (a : ZoneId), (s.setRoute r x).zst a = s.zst a) ∧ (∀ (a : CorridorId), (s.setRoute r x).corridor a = s.corridor a) ∧ (∀ (a : CorridorId), (s.setRoute r x).cst a = s.cst a) ∧ (∀ (a : HopIdx), (s.setRoute r x).hop a = s.hop a) ∧ (∀ (a : CarrierId), (s.setRoute r x).carrier a = s.carrier a) ∧ (∀ (a : CarrierId), (s.setRoute r x).validator a = s.validator a) ∧ (∀ (a : FieldSlotId), (s.setRoute r x).fieldSlot a = s.fieldSlot a) ∧ (∀ (a : FieldSlotId) (b : LineId), (s.setRoute r x).input a b = s.input a b) ∧ (∀ (a : FieldSlotId) (b : LineId), (s.setRoute r x).output a b = s.output a b) ∧ (∀ (a : SectorId), (s.setRoute r x).sectorHold a = s.sectorHold a) ∧ (∀ (a : MgmtSlot), (s.setRoute r x).mgmt a = s.mgmt a) ∧ (∀ (a : MgmtSlot), (s.setRoute r x).machine a = s.machine a) ∧ (∀ (a : MgmtSlot), (s.setRoute r x).watch a = s.watch a) ∧ (∀ (a : ZoneId), (s.setRoute r x).corridorOfZone a = s.corridorOfZone a) ∧ (∀ (a : ZoneId), (s.setRoute r x).noStop a = s.noStop a) ∧ ((s.setRoute r x).districtActive = s.districtActive) ∧ (∀ (a : SectorId), (s.setRoute r x).sectorActive a = s.sectorActive a) ∧ (∀ (a : HopIdx), (s.setRoute r x).hopZone a = s.hopZone a) :=
  by and_intros <;> intros <;> first | rfl | (rename_i a; cases a <;> rfl)

@[simp] theorem setHop_accessors (s : State) (h : HopIdx) (x : Hop) :
    (∀ (a : ZoneId), (s.setHop h x).zone a = s.zone a) ∧ (∀ (a : ZoneId), (s.setHop h x).zst a = s.zst a) ∧ (∀ (a : CorridorId), (s.setHop h x).corridor a = s.corridor a) ∧ (∀ (a : CorridorId), (s.setHop h x).cst a = s.cst a) ∧ (∀ (a : RouteId), (s.setHop h x).route a = s.route a) ∧ (∀ (a : CarrierId), (s.setHop h x).carrier a = s.carrier a) ∧ (∀ (a : CarrierId), (s.setHop h x).validator a = s.validator a) ∧ (∀ (a : FieldSlotId), (s.setHop h x).fieldSlot a = s.fieldSlot a) ∧ (∀ (a : FieldSlotId) (b : LineId), (s.setHop h x).input a b = s.input a b) ∧ (∀ (a : FieldSlotId) (b : LineId), (s.setHop h x).output a b = s.output a b) ∧ (∀ (a : SectorId), (s.setHop h x).sectorHold a = s.sectorHold a) ∧ (∀ (a : MgmtSlot), (s.setHop h x).mgmt a = s.mgmt a) ∧ (∀ (a : MgmtSlot), (s.setHop h x).machine a = s.machine a) ∧ (∀ (a : MgmtSlot), (s.setHop h x).watch a = s.watch a) ∧ (∀ (a : ZoneId), (s.setHop h x).corridorOfZone a = s.corridorOfZone a) ∧ (∀ (a : ZoneId), (s.setHop h x).noStop a = s.noStop a) ∧ ((s.setHop h x).districtActive = s.districtActive) ∧ (∀ (a : SectorId), (s.setHop h x).sectorActive a = s.sectorActive a) :=
  by and_intros <;> intros <;> first | rfl | (rename_i a; cases a <;> rfl)

@[simp] theorem setCarrier_accessors (s : State) (c : CarrierId) (x : Carrier) :
    (∀ (a : ZoneId), (s.setCarrier c x).zone a = s.zone a) ∧ (∀ (a : ZoneId), (s.setCarrier c x).zst a = s.zst a) ∧ (∀ (a : CorridorId), (s.setCarrier c x).corridor a = s.corridor a) ∧ (∀ (a : CorridorId), (s.setCarrier c x).cst a = s.cst a) ∧ (∀ (a : RouteId), (s.setCarrier c x).route a = s.route a) ∧ (∀ (a : HopIdx), (s.setCarrier c x).hop a = s.hop a) ∧ (∀ (a : CarrierId), (s.setCarrier c x).validator a = s.validator a) ∧ (∀ (a : FieldSlotId), (s.setCarrier c x).fieldSlot a = s.fieldSlot a) ∧ (∀ (a : FieldSlotId) (b : LineId), (s.setCarrier c x).input a b = s.input a b) ∧ (∀ (a : FieldSlotId) (b : LineId), (s.setCarrier c x).output a b = s.output a b) ∧ (∀ (a : SectorId), (s.setCarrier c x).sectorHold a = s.sectorHold a) ∧ (∀ (a : MgmtSlot), (s.setCarrier c x).mgmt a = s.mgmt a) ∧ (∀ (a : MgmtSlot), (s.setCarrier c x).machine a = s.machine a) ∧ (∀ (a : MgmtSlot), (s.setCarrier c x).watch a = s.watch a) ∧ (∀ (a : ZoneId), (s.setCarrier c x).corridorOfZone a = s.corridorOfZone a) ∧ (∀ (a : ZoneId), (s.setCarrier c x).noStop a = s.noStop a) ∧ ((s.setCarrier c x).districtActive = s.districtActive) ∧ (∀ (a : SectorId), (s.setCarrier c x).sectorActive a = s.sectorActive a) ∧ (∀ (a : HopIdx), (s.setCarrier c x).hopZone a = s.hopZone a) :=
  by and_intros <;> intros <;> first | rfl | (rename_i a; cases a <;> rfl)

@[simp] theorem modCarrier_accessors (s : State) (c : CarrierId) (f : Carrier → Carrier) :
    (∀ (a : ZoneId), (s.modCarrier c f).zone a = s.zone a) ∧ (∀ (a : ZoneId), (s.modCarrier c f).zst a = s.zst a) ∧ (∀ (a : CorridorId), (s.modCarrier c f).corridor a = s.corridor a) ∧ (∀ (a : CorridorId), (s.modCarrier c f).cst a = s.cst a) ∧ (∀ (a : RouteId), (s.modCarrier c f).route a = s.route a) ∧ (∀ (a : HopIdx), (s.modCarrier c f).hop a = s.hop a) ∧ (∀ (a : CarrierId), (s.modCarrier c f).validator a = s.validator a) ∧ (∀ (a : FieldSlotId), (s.modCarrier c f).fieldSlot a = s.fieldSlot a) ∧ (∀ (a : FieldSlotId) (b : LineId), (s.modCarrier c f).input a b = s.input a b) ∧ (∀ (a : FieldSlotId) (b : LineId), (s.modCarrier c f).output a b = s.output a b) ∧ (∀ (a : SectorId), (s.modCarrier c f).sectorHold a = s.sectorHold a) ∧ (∀ (a : MgmtSlot), (s.modCarrier c f).mgmt a = s.mgmt a) ∧ (∀ (a : MgmtSlot), (s.modCarrier c f).machine a = s.machine a) ∧ (∀ (a : MgmtSlot), (s.modCarrier c f).watch a = s.watch a) ∧ (∀ (a : ZoneId), (s.modCarrier c f).corridorOfZone a = s.corridorOfZone a) ∧ (∀ (a : ZoneId), (s.modCarrier c f).noStop a = s.noStop a) ∧ ((s.modCarrier c f).districtActive = s.districtActive) ∧ (∀ (a : SectorId), (s.modCarrier c f).sectorActive a = s.sectorActive a) ∧ (∀ (a : HopIdx), (s.modCarrier c f).hopZone a = s.hopZone a) :=
  by and_intros <;> intros <;> first | rfl | (rename_i a; cases a <;> rfl)

@[simp] theorem setValidator_accessors (s : State) (c : CarrierId) (x : ValidatorSlot) :
    (∀ (a : ZoneId), (s.setValidator c x).zone a = s.zone a) ∧ (∀ (a : ZoneId), (s.setValidator c x).zst a = s.zst a) ∧ (∀ (a : CorridorId), (s.setValidator c x).corridor a = s.corridor a) ∧ (∀ (a : CorridorId), (s.setValidator c x).cst a = s.cst a) ∧ (∀ (a : RouteId), (s.setValidator c x).route a = s.route a) ∧ (∀ (a : HopIdx), (s.setValidator c x).hop a = s.hop a) ∧ (∀ (a : CarrierId), (s.setValidator c x).carrier a = s.carrier a) ∧ (∀ (a : FieldSlotId), (s.setValidator c x).fieldSlot a = s.fieldSlot a) ∧ (∀ (a : FieldSlotId) (b : LineId), (s.setValidator c x).input a b = s.input a b) ∧ (∀ (a : FieldSlotId) (b : LineId), (s.setValidator c x).output a b = s.output a b) ∧ (∀ (a : SectorId), (s.setValidator c x).sectorHold a = s.sectorHold a) ∧ (∀ (a : MgmtSlot), (s.setValidator c x).mgmt a = s.mgmt a) ∧ (∀ (a : MgmtSlot), (s.setValidator c x).machine a = s.machine a) ∧ (∀ (a : MgmtSlot), (s.setValidator c x).watch a = s.watch a) ∧ (∀ (a : ZoneId), (s.setValidator c x).corridorOfZone a = s.corridorOfZone a) ∧ (∀ (a : ZoneId), (s.setValidator c x).noStop a = s.noStop a) ∧ ((s.setValidator c x).districtActive = s.districtActive) ∧ (∀ (a : SectorId), (s.setValidator c x).sectorActive a = s.sectorActive a) ∧ (∀ (a : HopIdx), (s.setValidator c x).hopZone a = s.hopZone a) :=
  by and_intros <;> intros <;> first | rfl | (rename_i a; cases a <;> rfl)

@[simp] theorem setFieldSlot_accessors (s : State) (f : FieldSlotId) (x : FieldSlot) :
    (∀ (a : ZoneId), (s.setFieldSlot f x).zone a = s.zone a) ∧ (∀ (a : ZoneId), (s.setFieldSlot f x).zst a = s.zst a) ∧ (∀ (a : CorridorId), (s.setFieldSlot f x).corridor a = s.corridor a) ∧ (∀ (a : CorridorId), (s.setFieldSlot f x).cst a = s.cst a) ∧ (∀ (a : RouteId), (s.setFieldSlot f x).route a = s.route a) ∧ (∀ (a : HopIdx), (s.setFieldSlot f x).hop a = s.hop a) ∧ (∀ (a : CarrierId), (s.setFieldSlot f x).carrier a = s.carrier a) ∧ (∀ (a : CarrierId), (s.setFieldSlot f x).validator a = s.validator a) ∧ (∀ (a : SectorId), (s.setFieldSlot f x).sectorHold a = s.sectorHold a) ∧ (∀ (a : MgmtSlot), (s.setFieldSlot f x).mgmt a = s.mgmt a) ∧ (∀ (a : MgmtSlot), (s.setFieldSlot f x).machine a = s.machine a) ∧ (∀ (a : MgmtSlot), (s.setFieldSlot f x).watch a = s.watch a) ∧ (∀ (a : ZoneId), (s.setFieldSlot f x).corridorOfZone a = s.corridorOfZone a) ∧ (∀ (a : ZoneId), (s.setFieldSlot f x).noStop a = s.noStop a) ∧ ((s.setFieldSlot f x).districtActive = s.districtActive) ∧ (∀ (a : SectorId), (s.setFieldSlot f x).sectorActive a = s.sectorActive a) ∧ (∀ (a : HopIdx), (s.setFieldSlot f x).hopZone a = s.hopZone a) :=
  by and_intros <;> intros <;> first | rfl | (rename_i a; cases a <;> rfl)

@[simp] theorem setInput_accessors (s : State) (f : FieldSlotId) (i : LineId) (x : Input) :
    (∀ (a : ZoneId), (s.setInput f i x).zone a = s.zone a) ∧ (∀ (a : ZoneId), (s.setInput f i x).zst a = s.zst a) ∧ (∀ (a : CorridorId), (s.setInput f i x).corridor a = s.corridor a) ∧ (∀ (a : CorridorId), (s.setInput f i x).cst a = s.cst a) ∧ (∀ (a : RouteId), (s.setInput f i x).route a = s.route a) ∧ (∀ (a : HopIdx), (s.setInput f i x).hop a = s.hop a) ∧ (∀ (a : CarrierId), (s.setInput f i x).carrier a = s.carrier a) ∧ (∀ (a : CarrierId), (s.setInput f i x).validator a = s.validator a) ∧ (∀ (a : SectorId), (s.setInput f i x).sectorHold a = s.sectorHold a) ∧ (∀ (a : MgmtSlot), (s.setInput f i x).mgmt a = s.mgmt a) ∧ (∀ (a : MgmtSlot), (s.setInput f i x).machine a = s.machine a) ∧ (∀ (a : MgmtSlot), (s.setInput f i x).watch a = s.watch a) ∧ (∀ (a : ZoneId), (s.setInput f i x).corridorOfZone a = s.corridorOfZone a) ∧ (∀ (a : ZoneId), (s.setInput f i x).noStop a = s.noStop a) ∧ ((s.setInput f i x).districtActive = s.districtActive) ∧ (∀ (a : SectorId), (s.setInput f i x).sectorActive a = s.sectorActive a) ∧ (∀ (a : HopIdx), (s.setInput f i x).hopZone a = s.hopZone a) :=
  by and_intros <;> intros <;> first | rfl | (rename_i a; cases a <;> rfl)

@[simp] theorem setOutput_accessors (s : State) (f : FieldSlotId) (i : LineId) (x : Bool) :
    (∀ (a : ZoneId), (s.setOutput f i x).zone a = s.zone a) ∧ (∀ (a : ZoneId), (s.setOutput f i x).zst a = s.zst a) ∧ (∀ (a : CorridorId), (s.setOutput f i x).corridor a = s.corridor a) ∧ (∀ (a : CorridorId), (s.setOutput f i x).cst a = s.cst a) ∧ (∀ (a : RouteId), (s.setOutput f i x).route a = s.route a) ∧ (∀ (a : HopIdx), (s.setOutput f i x).hop a = s.hop a) ∧ (∀ (a : CarrierId), (s.setOutput f i x).carrier a = s.carrier a) ∧ (∀ (a : CarrierId), (s.setOutput f i x).validator a = s.validator a) ∧ (∀ (a : SectorId), (s.setOutput f i x).sectorHold a = s.sectorHold a) ∧ (∀ (a : MgmtSlot), (s.setOutput f i x).mgmt a = s.mgmt a) ∧ (∀ (a : MgmtSlot), (s.setOutput f i x).machine a = s.machine a) ∧ (∀ (a : MgmtSlot), (s.setOutput f i x).watch a = s.watch a) ∧ (∀ (a : ZoneId), (s.setOutput f i x).corridorOfZone a = s.corridorOfZone a) ∧ (∀ (a : ZoneId), (s.setOutput f i x).noStop a = s.noStop a) ∧ ((s.setOutput f i x).districtActive = s.districtActive) ∧ (∀ (a : SectorId), (s.setOutput f i x).sectorActive a = s.sectorActive a) ∧ (∀ (a : HopIdx), (s.setOutput f i x).hopZone a = s.hopZone a) :=
  by and_intros <;> intros <;> first | rfl | (rename_i a; cases a <;> rfl)

@[simp] theorem setSectorHold_accessors (s : State) (n : SectorId) (x : HoldEntry) :
    (∀ (a : ZoneId), (s.setSectorHold n x).zone a = s.zone a) ∧ (∀ (a : ZoneId), (s.setSectorHold n x).zst a = s.zst a) ∧ (∀ (a : CorridorId), (s.setSectorHold n x).corridor a = s.corridor a) ∧ (∀ (a : CorridorId), (s.setSectorHold n x).cst a = s.cst a) ∧ (∀ (a : RouteId), (s.setSectorHold n x).route a = s.route a) ∧ (∀ (a : HopIdx), (s.setSectorHold n x).hop a = s.hop a) ∧ (∀ (a : CarrierId), (s.setSectorHold n x).carrier a = s.carrier a) ∧ (∀ (a : CarrierId), (s.setSectorHold n x).validator a = s.validator a) ∧ (∀ (a : FieldSlotId), (s.setSectorHold n x).fieldSlot a = s.fieldSlot a) ∧ (∀ (a : FieldSlotId) (b : LineId), (s.setSectorHold n x).input a b = s.input a b) ∧ (∀ (a : FieldSlotId) (b : LineId), (s.setSectorHold n x).output a b = s.output a b) ∧ (∀ (a : MgmtSlot), (s.setSectorHold n x).mgmt a = s.mgmt a) ∧ (∀ (a : MgmtSlot), (s.setSectorHold n x).machine a = s.machine a) ∧ (∀ (a : MgmtSlot), (s.setSectorHold n x).watch a = s.watch a) ∧ (∀ (a : ZoneId), (s.setSectorHold n x).corridorOfZone a = s.corridorOfZone a) ∧ (∀ (a : ZoneId), (s.setSectorHold n x).noStop a = s.noStop a) ∧ ((s.setSectorHold n x).districtActive = s.districtActive) ∧ (∀ (a : HopIdx), (s.setSectorHold n x).hopZone a = s.hopZone a) :=
  by and_intros <;> intros <;> first | rfl | (rename_i a; cases a <;> rfl)

@[simp] theorem setMgmt_accessors (s : State) (sl : MgmtSlot) (x : MgmtState) :
    (∀ (a : ZoneId), (s.setMgmt sl x).zone a = s.zone a) ∧ (∀ (a : ZoneId), (s.setMgmt sl x).zst a = s.zst a) ∧ (∀ (a : CorridorId), (s.setMgmt sl x).corridor a = s.corridor a) ∧ (∀ (a : CorridorId), (s.setMgmt sl x).cst a = s.cst a) ∧ (∀ (a : RouteId), (s.setMgmt sl x).route a = s.route a) ∧ (∀ (a : HopIdx), (s.setMgmt sl x).hop a = s.hop a) ∧ (∀ (a : CarrierId), (s.setMgmt sl x).carrier a = s.carrier a) ∧ (∀ (a : CarrierId), (s.setMgmt sl x).validator a = s.validator a) ∧ (∀ (a : FieldSlotId), (s.setMgmt sl x).fieldSlot a = s.fieldSlot a) ∧ (∀ (a : FieldSlotId) (b : LineId), (s.setMgmt sl x).input a b = s.input a b) ∧ (∀ (a : FieldSlotId) (b : LineId), (s.setMgmt sl x).output a b = s.output a b) ∧ (∀ (a : SectorId), (s.setMgmt sl x).sectorHold a = s.sectorHold a) ∧ (∀ (a : ZoneId), (s.setMgmt sl x).corridorOfZone a = s.corridorOfZone a) ∧ (∀ (a : ZoneId), (s.setMgmt sl x).noStop a = s.noStop a) ∧ ((s.setMgmt sl x).districtActive = s.districtActive) ∧ (∀ (a : SectorId), (s.setMgmt sl x).sectorActive a = s.sectorActive a) ∧ (∀ (a : HopIdx), (s.setMgmt sl x).hopZone a = s.hopZone a) :=
  by cases sl <;> and_intros <;> intros <;> rfl

@[simp] theorem setMachine_accessors (s : State) (sl : MgmtSlot) (x : SlotMachine) :
    (∀ (a : ZoneId), (s.setMachine sl x).zone a = s.zone a) ∧ (∀ (a : ZoneId), (s.setMachine sl x).zst a = s.zst a) ∧ (∀ (a : CorridorId), (s.setMachine sl x).corridor a = s.corridor a) ∧ (∀ (a : CorridorId), (s.setMachine sl x).cst a = s.cst a) ∧ (∀ (a : RouteId), (s.setMachine sl x).route a = s.route a) ∧ (∀ (a : HopIdx), (s.setMachine sl x).hop a = s.hop a) ∧ (∀ (a : CarrierId), (s.setMachine sl x).carrier a = s.carrier a) ∧ (∀ (a : CarrierId), (s.setMachine sl x).validator a = s.validator a) ∧ (∀ (a : FieldSlotId), (s.setMachine sl x).fieldSlot a = s.fieldSlot a) ∧ (∀ (a : FieldSlotId) (b : LineId), (s.setMachine sl x).input a b = s.input a b) ∧ (∀ (a : FieldSlotId) (b : LineId), (s.setMachine sl x).output a b = s.output a b) ∧ (∀ (a : SectorId), (s.setMachine sl x).sectorHold a = s.sectorHold a) ∧ (∀ (a : ZoneId), (s.setMachine sl x).corridorOfZone a = s.corridorOfZone a) ∧ (∀ (a : ZoneId), (s.setMachine sl x).noStop a = s.noStop a) ∧ ((s.setMachine sl x).districtActive = s.districtActive) ∧ (∀ (a : SectorId), (s.setMachine sl x).sectorActive a = s.sectorActive a) ∧ (∀ (a : HopIdx), (s.setMachine sl x).hopZone a = s.hopZone a) :=
  by cases sl <;> and_intros <;> intros <;> rfl

@[simp] theorem setWatch_accessors (s : State) (sl : MgmtSlot) (x : Watch) :
    (∀ (a : ZoneId), (s.setWatch sl x).zone a = s.zone a) ∧ (∀ (a : ZoneId), (s.setWatch sl x).zst a = s.zst a) ∧ (∀ (a : CorridorId), (s.setWatch sl x).corridor a = s.corridor a) ∧ (∀ (a : CorridorId), (s.setWatch sl x).cst a = s.cst a) ∧ (∀ (a : RouteId), (s.setWatch sl x).route a = s.route a) ∧ (∀ (a : HopIdx), (s.setWatch sl x).hop a = s.hop a) ∧ (∀ (a : CarrierId), (s.setWatch sl x).carrier a = s.carrier a) ∧ (∀ (a : CarrierId), (s.setWatch sl x).validator a = s.validator a) ∧ (∀ (a : FieldSlotId), (s.setWatch sl x).fieldSlot a = s.fieldSlot a) ∧ (∀ (a : FieldSlotId) (b : LineId), (s.setWatch sl x).input a b = s.input a b) ∧ (∀ (a : FieldSlotId) (b : LineId), (s.setWatch sl x).output a b = s.output a b) ∧ (∀ (a : SectorId), (s.setWatch sl x).sectorHold a = s.sectorHold a) ∧ (∀ (a : ZoneId), (s.setWatch sl x).corridorOfZone a = s.corridorOfZone a) ∧ (∀ (a : ZoneId), (s.setWatch sl x).noStop a = s.noStop a) ∧ ((s.setWatch sl x).districtActive = s.districtActive) ∧ (∀ (a : SectorId), (s.setWatch sl x).sectorActive a = s.sectorActive a) ∧ (∀ (a : HopIdx), (s.setWatch sl x).hopZone a = s.hopZone a) :=
  by cases sl <;> and_intros <;> intros <;> rfl

@[simp] theorem breakWatch_accessors (s : State) (c : CarrierId) :
    (∀ (a : ZoneId), (s.breakWatch c).zone a = s.zone a) ∧ (∀ (a : ZoneId), (s.breakWatch c).zst a = s.zst a) ∧ (∀ (a : CorridorId), (s.breakWatch c).corridor a = s.corridor a) ∧ (∀ (a : CorridorId), (s.breakWatch c).cst a = s.cst a) ∧ (∀ (a : RouteId), (s.breakWatch c).route a = s.route a) ∧ (∀ (a : HopIdx), (s.breakWatch c).hop a = s.hop a) ∧ (∀ (a : CarrierId), (s.breakWatch c).carrier a = s.carrier a) ∧ (∀ (a : CarrierId), (s.breakWatch c).validator a = s.validator a) ∧ (∀ (a : FieldSlotId), (s.breakWatch c).fieldSlot a = s.fieldSlot a) ∧ (∀ (a : FieldSlotId) (b : LineId), (s.breakWatch c).input a b = s.input a b) ∧ (∀ (a : FieldSlotId) (b : LineId), (s.breakWatch c).output a b = s.output a b) ∧ (∀ (a : SectorId), (s.breakWatch c).sectorHold a = s.sectorHold a) ∧ (∀ (a : ZoneId), (s.breakWatch c).corridorOfZone a = s.corridorOfZone a) ∧ (∀ (a : ZoneId), (s.breakWatch c).noStop a = s.noStop a) ∧ ((s.breakWatch c).districtActive = s.districtActive) ∧ (∀ (a : SectorId), (s.breakWatch c).sectorActive a = s.sectorActive a) ∧ (∀ (a : HopIdx), (s.breakWatch c).hopZone a = s.hopZone a) :=
  by and_intros <;> intros <;> rfl

@[simp] theorem flagState_accessors (s : State) (c : CarrierId) :
    (∀ (a : ZoneId), (s.flagState c).zone a = s.zone a) ∧ (∀ (a : ZoneId), (s.flagState c).zst a = s.zst a) ∧ (∀ (a : CorridorId), (s.flagState c).corridor a = s.corridor a) ∧ (∀ (a : CorridorId), (s.flagState c).cst a = s.cst a) ∧ (∀ (a : RouteId), (s.flagState c).route a = s.route a) ∧ (∀ (a : HopIdx), (s.flagState c).hop a = s.hop a) ∧ (∀ (a : CarrierId), (s.flagState c).validator a = s.validator a) ∧ (∀ (a : FieldSlotId), (s.flagState c).fieldSlot a = s.fieldSlot a) ∧ (∀ (a : FieldSlotId) (b : LineId), (s.flagState c).input a b = s.input a b) ∧ (∀ (a : FieldSlotId) (b : LineId), (s.flagState c).output a b = s.output a b) ∧ (∀ (a : SectorId), (s.flagState c).sectorHold a = s.sectorHold a) ∧ (∀ (a : MgmtSlot), (s.flagState c).mgmt a = s.mgmt a) ∧ (∀ (a : MgmtSlot), (s.flagState c).machine a = s.machine a) ∧ (∀ (a : MgmtSlot), (s.flagState c).watch a = s.watch a) ∧ (∀ (a : ZoneId), (s.flagState c).corridorOfZone a = s.corridorOfZone a) ∧ (∀ (a : ZoneId), (s.flagState c).noStop a = s.noStop a) ∧ ((s.flagState c).districtActive = s.districtActive) ∧ (∀ (a : SectorId), (s.flagState c).sectorActive a = s.sectorActive a) ∧ (∀ (a : HopIdx), (s.flagState c).hopZone a = s.hopZone a) :=
  by and_intros <;> intros <;> first | rfl | (rename_i a; cases a <;> rfl)

@[simp] theorem flagFault_accessors (s : State) (c : CarrierId) :
    (∀ (a : ZoneId), (s.flagFault c).zone a = s.zone a) ∧ (∀ (a : ZoneId), (s.flagFault c).zst a = s.zst a) ∧ (∀ (a : CorridorId), (s.flagFault c).corridor a = s.corridor a) ∧ (∀ (a : CorridorId), (s.flagFault c).cst a = s.cst a) ∧ (∀ (a : RouteId), (s.flagFault c).route a = s.route a) ∧ (∀ (a : HopIdx), (s.flagFault c).hop a = s.hop a) ∧ (∀ (a : CarrierId), (s.flagFault c).validator a = s.validator a) ∧ (∀ (a : FieldSlotId), (s.flagFault c).fieldSlot a = s.fieldSlot a) ∧ (∀ (a : FieldSlotId) (b : LineId), (s.flagFault c).input a b = s.input a b) ∧ (∀ (a : FieldSlotId) (b : LineId), (s.flagFault c).output a b = s.output a b) ∧ (∀ (a : SectorId), (s.flagFault c).sectorHold a = s.sectorHold a) ∧ (∀ (a : MgmtSlot), (s.flagFault c).mgmt a = s.mgmt a) ∧ (∀ (a : MgmtSlot), (s.flagFault c).machine a = s.machine a) ∧ (∀ (a : MgmtSlot), (s.flagFault c).watch a = s.watch a) ∧ (∀ (a : ZoneId), (s.flagFault c).corridorOfZone a = s.corridorOfZone a) ∧ (∀ (a : ZoneId), (s.flagFault c).noStop a = s.noStop a) ∧ ((s.flagFault c).districtActive = s.districtActive) ∧ (∀ (a : SectorId), (s.flagFault c).sectorActive a = s.sectorActive a) ∧ (∀ (a : HopIdx), (s.flagFault c).hopZone a = s.hopZone a) :=
  by and_intros <;> intros <;> first | rfl | (rename_i a; cases a <;> rfl)

@[simp] theorem flagWait_accessors (s : State) (c : CarrierId) :
    (∀ (a : ZoneId), (s.flagWait c).zone a = s.zone a) ∧ (∀ (a : ZoneId), (s.flagWait c).zst a = s.zst a) ∧ (∀ (a : CorridorId), (s.flagWait c).corridor a = s.corridor a) ∧ (∀ (a : CorridorId), (s.flagWait c).cst a = s.cst a) ∧ (∀ (a : RouteId), (s.flagWait c).route a = s.route a) ∧ (∀ (a : HopIdx), (s.flagWait c).hop a = s.hop a) ∧ (∀ (a : CarrierId), (s.flagWait c).validator a = s.validator a) ∧ (∀ (a : FieldSlotId), (s.flagWait c).fieldSlot a = s.fieldSlot a) ∧ (∀ (a : FieldSlotId) (b : LineId), (s.flagWait c).input a b = s.input a b) ∧ (∀ (a : FieldSlotId) (b : LineId), (s.flagWait c).output a b = s.output a b) ∧ (∀ (a : SectorId), (s.flagWait c).sectorHold a = s.sectorHold a) ∧ (∀ (a : MgmtSlot), (s.flagWait c).mgmt a = s.mgmt a) ∧ (∀ (a : MgmtSlot), (s.flagWait c).machine a = s.machine a) ∧ (∀ (a : MgmtSlot), (s.flagWait c).watch a = s.watch a) ∧ (∀ (a : ZoneId), (s.flagWait c).corridorOfZone a = s.corridorOfZone a) ∧ (∀ (a : ZoneId), (s.flagWait c).noStop a = s.noStop a) ∧ ((s.flagWait c).districtActive = s.districtActive) ∧ (∀ (a : SectorId), (s.flagWait c).sectorActive a = s.sectorActive a) ∧ (∀ (a : HopIdx), (s.flagWait c).hopZone a = s.hopZone a) :=
  by and_intros <;> intros <;> first | rfl | (rename_i a; cases a <;> rfl)

@[simp] theorem flagRouteEnd_accessors (s : State) (c : CarrierId) :
    (∀ (a : ZoneId), (s.flagRouteEnd c).zone a = s.zone a) ∧ (∀ (a : ZoneId), (s.flagRouteEnd c).zst a = s.zst a) ∧ (∀ (a : CorridorId), (s.flagRouteEnd c).corridor a = s.corridor a) ∧ (∀ (a : CorridorId), (s.flagRouteEnd c).cst a = s.cst a) ∧ (∀ (a : RouteId), (s.flagRouteEnd c).route a = s.route a) ∧ (∀ (a : HopIdx), (s.flagRouteEnd c).hop a = s.hop a) ∧ (∀ (a : CarrierId), (s.flagRouteEnd c).validator a = s.validator a) ∧ (∀ (a : FieldSlotId), (s.flagRouteEnd c).fieldSlot a = s.fieldSlot a) ∧ (∀ (a : FieldSlotId) (b : LineId), (s.flagRouteEnd c).input a b = s.input a b) ∧ (∀ (a : FieldSlotId) (b : LineId), (s.flagRouteEnd c).output a b = s.output a b) ∧ (∀ (a : SectorId), (s.flagRouteEnd c).sectorHold a = s.sectorHold a) ∧ (∀ (a : MgmtSlot), (s.flagRouteEnd c).mgmt a = s.mgmt a) ∧ (∀ (a : MgmtSlot), (s.flagRouteEnd c).machine a = s.machine a) ∧ (∀ (a : MgmtSlot), (s.flagRouteEnd c).watch a = s.watch a) ∧ (∀ (a : ZoneId), (s.flagRouteEnd c).corridorOfZone a = s.corridorOfZone a) ∧ (∀ (a : ZoneId), (s.flagRouteEnd c).noStop a = s.noStop a) ∧ ((s.flagRouteEnd c).districtActive = s.districtActive) ∧ (∀ (a : SectorId), (s.flagRouteEnd c).sectorActive a = s.sectorActive a) ∧ (∀ (a : HopIdx), (s.flagRouteEnd c).hopZone a = s.hopZone a) :=
  by and_intros <;> intros <;> first | rfl | (rename_i a; cases a <;> rfl)

@[simp] theorem clearWait_accessors (s : State) (c : CarrierId) :
    (∀ (a : ZoneId), (s.clearWait c).zone a = s.zone a) ∧ (∀ (a : ZoneId), (s.clearWait c).zst a = s.zst a) ∧ (∀ (a : CorridorId), (s.clearWait c).corridor a = s.corridor a) ∧ (∀ (a : CorridorId), (s.clearWait c).cst a = s.cst a) ∧ (∀ (a : RouteId), (s.clearWait c).route a = s.route a) ∧ (∀ (a : HopIdx), (s.clearWait c).hop a = s.hop a) ∧ (∀ (a : CarrierId), (s.clearWait c).validator a = s.validator a) ∧ (∀ (a : FieldSlotId), (s.clearWait c).fieldSlot a = s.fieldSlot a) ∧ (∀ (a : FieldSlotId) (b : LineId), (s.clearWait c).input a b = s.input a b) ∧ (∀ (a : FieldSlotId) (b : LineId), (s.clearWait c).output a b = s.output a b) ∧ (∀ (a : SectorId), (s.clearWait c).sectorHold a = s.sectorHold a) ∧ (∀ (a : MgmtSlot), (s.clearWait c).mgmt a = s.mgmt a) ∧ (∀ (a : MgmtSlot), (s.clearWait c).machine a = s.machine a) ∧ (∀ (a : MgmtSlot), (s.clearWait c).watch a = s.watch a) ∧ (∀ (a : ZoneId), (s.clearWait c).corridorOfZone a = s.corridorOfZone a) ∧ (∀ (a : ZoneId), (s.clearWait c).noStop a = s.noStop a) ∧ ((s.clearWait c).districtActive = s.districtActive) ∧ (∀ (a : SectorId), (s.clearWait c).sectorActive a = s.sectorActive a) ∧ (∀ (a : HopIdx), (s.clearWait c).hopZone a = s.hopZone a) :=
  by and_intros <;> intros <;> first | rfl | (rename_i a; cases a <;> rfl)

@[simp] theorem flagHoldChange_accessors (s : State)  :
    (∀ (a : ZoneId), (s.flagHoldChange).zone a = s.zone a) ∧ (∀ (a : ZoneId), (s.flagHoldChange).zst a = s.zst a) ∧ (∀ (a : CorridorId), (s.flagHoldChange).corridor a = s.corridor a) ∧ (∀ (a : CorridorId), (s.flagHoldChange).cst a = s.cst a) ∧ (∀ (a : RouteId), (s.flagHoldChange).route a = s.route a) ∧ (∀ (a : HopIdx), (s.flagHoldChange).hop a = s.hop a) ∧ (∀ (a : CarrierId), (s.flagHoldChange).carrier a = s.carrier a) ∧ (∀ (a : CarrierId), (s.flagHoldChange).validator a = s.validator a) ∧ (∀ (a : FieldSlotId), (s.flagHoldChange).fieldSlot a = s.fieldSlot a) ∧ (∀ (a : FieldSlotId) (b : LineId), (s.flagHoldChange).input a b = s.input a b) ∧ (∀ (a : FieldSlotId) (b : LineId), (s.flagHoldChange).output a b = s.output a b) ∧ (∀ (a : SectorId), (s.flagHoldChange).sectorHold a = s.sectorHold a) ∧ (∀ (a : MgmtSlot), (s.flagHoldChange).mgmt a = s.mgmt a) ∧ (∀ (a : MgmtSlot), (s.flagHoldChange).machine a = s.machine a) ∧ (∀ (a : MgmtSlot), (s.flagHoldChange).watch a = s.watch a) ∧ (∀ (a : ZoneId), (s.flagHoldChange).corridorOfZone a = s.corridorOfZone a) ∧ (∀ (a : ZoneId), (s.flagHoldChange).noStop a = s.noStop a) ∧ ((s.flagHoldChange).districtActive = s.districtActive) ∧ (∀ (a : SectorId), (s.flagHoldChange).sectorActive a = s.sectorActive a) ∧ (∀ (a : HopIdx), (s.flagHoldChange).hopZone a = s.hopZone a) :=
  by and_intros <;> intros <;> first | rfl | (rename_i a; cases a <;> rfl)

@[simp] theorem flagDeadlock_accessors (s : State)  :
    (∀ (a : ZoneId), (s.flagDeadlock).zone a = s.zone a) ∧ (∀ (a : ZoneId), (s.flagDeadlock).zst a = s.zst a) ∧ (∀ (a : CorridorId), (s.flagDeadlock).corridor a = s.corridor a) ∧ (∀ (a : CorridorId), (s.flagDeadlock).cst a = s.cst a) ∧ (∀ (a : RouteId), (s.flagDeadlock).route a = s.route a) ∧ (∀ (a : HopIdx), (s.flagDeadlock).hop a = s.hop a) ∧ (∀ (a : CarrierId), (s.flagDeadlock).carrier a = s.carrier a) ∧ (∀ (a : CarrierId), (s.flagDeadlock).validator a = s.validator a) ∧ (∀ (a : FieldSlotId), (s.flagDeadlock).fieldSlot a = s.fieldSlot a) ∧ (∀ (a : FieldSlotId) (b : LineId), (s.flagDeadlock).input a b = s.input a b) ∧ (∀ (a : FieldSlotId) (b : LineId), (s.flagDeadlock).output a b = s.output a b) ∧ (∀ (a : SectorId), (s.flagDeadlock).sectorHold a = s.sectorHold a) ∧ (∀ (a : MgmtSlot), (s.flagDeadlock).mgmt a = s.mgmt a) ∧ (∀ (a : MgmtSlot), (s.flagDeadlock).machine a = s.machine a) ∧ (∀ (a : MgmtSlot), (s.flagDeadlock).watch a = s.watch a) ∧ (∀ (a : ZoneId), (s.flagDeadlock).corridorOfZone a = s.corridorOfZone a) ∧ (∀ (a : ZoneId), (s.flagDeadlock).noStop a = s.noStop a) ∧ ((s.flagDeadlock).districtActive = s.districtActive) ∧ (∀ (a : SectorId), (s.flagDeadlock).sectorActive a = s.sectorActive a) ∧ (∀ (a : HopIdx), (s.flagDeadlock).hopZone a = s.hopZone a) :=
  by and_intros <;> intros <;> first | rfl | (rename_i a; cases a <;> rfl)

@[simp] theorem flagStop_accessors (s : State)  :
    (∀ (a : ZoneId), (s.flagStop).zone a = s.zone a) ∧ (∀ (a : ZoneId), (s.flagStop).zst a = s.zst a) ∧ (∀ (a : CorridorId), (s.flagStop).corridor a = s.corridor a) ∧ (∀ (a : CorridorId), (s.flagStop).cst a = s.cst a) ∧ (∀ (a : RouteId), (s.flagStop).route a = s.route a) ∧ (∀ (a : HopIdx), (s.flagStop).hop a = s.hop a) ∧ (∀ (a : CarrierId), (s.flagStop).carrier a = s.carrier a) ∧ (∀ (a : CarrierId), (s.flagStop).validator a = s.validator a) ∧ (∀ (a : FieldSlotId), (s.flagStop).fieldSlot a = s.fieldSlot a) ∧ (∀ (a : FieldSlotId) (b : LineId), (s.flagStop).input a b = s.input a b) ∧ (∀ (a : FieldSlotId) (b : LineId), (s.flagStop).output a b = s.output a b) ∧ (∀ (a : SectorId), (s.flagStop).sectorHold a = s.sectorHold a) ∧ (∀ (a : MgmtSlot), (s.flagStop).mgmt a = s.mgmt a) ∧ (∀ (a : MgmtSlot), (s.flagStop).machine a = s.machine a) ∧ (∀ (a : MgmtSlot), (s.flagStop).watch a = s.watch a) ∧ (∀ (a : ZoneId), (s.flagStop).corridorOfZone a = s.corridorOfZone a) ∧ (∀ (a : ZoneId), (s.flagStop).noStop a = s.noStop a) ∧ ((s.flagStop).districtActive = s.districtActive) ∧ (∀ (a : SectorId), (s.flagStop).sectorActive a = s.sectorActive a) ∧ (∀ (a : HopIdx), (s.flagStop).hopZone a = s.hopZone a) :=
  by and_intros <;> intros <;> first | rfl | (rename_i a; cases a <;> rfl)

@[simp] theorem flagFloorLink_accessors (s : State)  :
    (∀ (a : ZoneId), (s.flagFloorLink).zone a = s.zone a) ∧ (∀ (a : ZoneId), (s.flagFloorLink).zst a = s.zst a) ∧ (∀ (a : CorridorId), (s.flagFloorLink).corridor a = s.corridor a) ∧ (∀ (a : CorridorId), (s.flagFloorLink).cst a = s.cst a) ∧ (∀ (a : RouteId), (s.flagFloorLink).route a = s.route a) ∧ (∀ (a : HopIdx), (s.flagFloorLink).hop a = s.hop a) ∧ (∀ (a : CarrierId), (s.flagFloorLink).carrier a = s.carrier a) ∧ (∀ (a : CarrierId), (s.flagFloorLink).validator a = s.validator a) ∧ (∀ (a : FieldSlotId), (s.flagFloorLink).fieldSlot a = s.fieldSlot a) ∧ (∀ (a : FieldSlotId) (b : LineId), (s.flagFloorLink).input a b = s.input a b) ∧ (∀ (a : FieldSlotId) (b : LineId), (s.flagFloorLink).output a b = s.output a b) ∧ (∀ (a : SectorId), (s.flagFloorLink).sectorHold a = s.sectorHold a) ∧ (∀ (a : MgmtSlot), (s.flagFloorLink).mgmt a = s.mgmt a) ∧ (∀ (a : MgmtSlot), (s.flagFloorLink).machine a = s.machine a) ∧ (∀ (a : MgmtSlot), (s.flagFloorLink).watch a = s.watch a) ∧ (∀ (a : ZoneId), (s.flagFloorLink).corridorOfZone a = s.corridorOfZone a) ∧ (∀ (a : ZoneId), (s.flagFloorLink).noStop a = s.noStop a) ∧ ((s.flagFloorLink).districtActive = s.districtActive) ∧ (∀ (a : SectorId), (s.flagFloorLink).sectorActive a = s.sectorActive a) ∧ (∀ (a : HopIdx), (s.flagFloorLink).hopZone a = s.hopZone a) :=
  by and_intros <;> intros <;> first | rfl | (rename_i a; cases a <;> rfl)

@[simp] theorem flagDispatchLink_accessors (s : State)  :
    (∀ (a : ZoneId), (s.flagDispatchLink).zone a = s.zone a) ∧ (∀ (a : ZoneId), (s.flagDispatchLink).zst a = s.zst a) ∧ (∀ (a : CorridorId), (s.flagDispatchLink).corridor a = s.corridor a) ∧ (∀ (a : CorridorId), (s.flagDispatchLink).cst a = s.cst a) ∧ (∀ (a : RouteId), (s.flagDispatchLink).route a = s.route a) ∧ (∀ (a : HopIdx), (s.flagDispatchLink).hop a = s.hop a) ∧ (∀ (a : CarrierId), (s.flagDispatchLink).carrier a = s.carrier a) ∧ (∀ (a : CarrierId), (s.flagDispatchLink).validator a = s.validator a) ∧ (∀ (a : FieldSlotId), (s.flagDispatchLink).fieldSlot a = s.fieldSlot a) ∧ (∀ (a : FieldSlotId) (b : LineId), (s.flagDispatchLink).input a b = s.input a b) ∧ (∀ (a : FieldSlotId) (b : LineId), (s.flagDispatchLink).output a b = s.output a b) ∧ (∀ (a : SectorId), (s.flagDispatchLink).sectorHold a = s.sectorHold a) ∧ (∀ (a : MgmtSlot), (s.flagDispatchLink).mgmt a = s.mgmt a) ∧ (∀ (a : MgmtSlot), (s.flagDispatchLink).machine a = s.machine a) ∧ (∀ (a : MgmtSlot), (s.flagDispatchLink).watch a = s.watch a) ∧ (∀ (a : ZoneId), (s.flagDispatchLink).corridorOfZone a = s.corridorOfZone a) ∧ (∀ (a : ZoneId), (s.flagDispatchLink).noStop a = s.noStop a) ∧ ((s.flagDispatchLink).districtActive = s.districtActive) ∧ (∀ (a : SectorId), (s.flagDispatchLink).sectorActive a = s.sectorActive a) ∧ (∀ (a : HopIdx), (s.flagDispatchLink).hopZone a = s.hopZone a) :=
  by and_intros <;> intros <;> first | rfl | (rename_i a; cases a <;> rfl)

/-! ## Entries written -/

theorem zone_setZone (s : State) (z w : ZoneId) (r : ZoneRecord) : (s.setZone z r).zone w = if w = z then r else s.zone w := tget_tset ..
theorem zst_setZst (s : State) (z w : ZoneId) (x : ZoneState) : (s.setZst z x).zst w = if w = z then x else s.zst w := tget_tset ..
theorem corridor_setCorridor (s : State) (k l : CorridorId) (r : CorridorRecord) : (s.setCorridor k r).corridor l = if l = k then r else s.corridor l := tget_tset ..
theorem cst_setCst (s : State) (k l : CorridorId) (x : CorridorState) : (s.setCst k x).cst l = if l = k then x else s.cst l := tget_tset ..
theorem route_setRoute (s : State) (r q : RouteId) (x : RouteRecord) : (s.setRoute r x).route q = if q = r then x else s.route q := tget_tset ..
theorem hop_setHop (s : State) (h g : HopIdx) (x : Hop) : (s.setHop h x).hop g = if g = h then x else s.hop g := tget_tset ..
theorem carrier_setCarrier (s : State) (c d : CarrierId) (x : Carrier) : (s.setCarrier c x).carrier d = if d = c then x else s.carrier d := tget_tset ..
theorem carrier_modCarrier (s : State) (c d : CarrierId) (f : Carrier → Carrier) : (s.modCarrier c f).carrier d = if d = c then f (s.carrier c) else s.carrier d := tget_tset ..
theorem validator_setValidator (s : State) (c d : CarrierId) (x : ValidatorSlot) : (s.setValidator c x).validator d = if d = c then x else s.validator d := tget_tset ..
theorem fieldSlot_setFieldSlot (s : State) (f g : FieldSlotId) (x : FieldSlot) : (s.setFieldSlot f x).fieldSlot g = if g = f then x else s.fieldSlot g := tget_tset ..
theorem sectorHold_setSectorHold (s : State) (n m : SectorId) (x : HoldEntry) : (s.setSectorHold n x).sectorHold m = if m = n then x else s.sectorHold m := tget_tset ..

@[simp] theorem zone_setZone_self (s : State) (z : ZoneId) (r : ZoneRecord) : (s.setZone z r).zone z = r := tget_tset_self ..
@[simp] theorem zst_setZst_self (s : State) (z : ZoneId) (x : ZoneState) : (s.setZst z x).zst z = x := tget_tset_self ..
@[simp] theorem corridor_setCorridor_self (s : State) (k : CorridorId) (r : CorridorRecord) : (s.setCorridor k r).corridor k = r := tget_tset_self ..
@[simp] theorem cst_setCst_self (s : State) (k : CorridorId) (x : CorridorState) : (s.setCst k x).cst k = x := tget_tset_self ..
@[simp] theorem route_setRoute_self (s : State) (r : RouteId) (x : RouteRecord) : (s.setRoute r x).route r = x := tget_tset_self ..
@[simp] theorem hop_setHop_self (s : State) (h : HopIdx) (x : Hop) : (s.setHop h x).hop h = x := tget_tset_self ..
@[simp] theorem carrier_setCarrier_self (s : State) (c : CarrierId) (x : Carrier) : (s.setCarrier c x).carrier c = x := tget_tset_self ..
@[simp] theorem carrier_modCarrier_self (s : State) (c : CarrierId) (f : Carrier → Carrier) : (s.modCarrier c f).carrier c = f (s.carrier c) := tget_tset_self ..
@[simp] theorem validator_setValidator_self (s : State) (c : CarrierId) (x : ValidatorSlot) : (s.setValidator c x).validator c = x := tget_tset_self ..
@[simp] theorem fieldSlot_setFieldSlot_self (s : State) (f : FieldSlotId) (x : FieldSlot) : (s.setFieldSlot f x).fieldSlot f = x := tget_tset_self ..
@[simp] theorem sectorHold_setSectorHold_self (s : State) (n : SectorId) (x : HoldEntry) : (s.setSectorHold n x).sectorHold n = x := tget_tset_self ..

theorem carrier_modCarrier_of_ne (s : State) {c d : CarrierId} (f : Carrier → Carrier) (h : d ≠ c) :
    (s.modCarrier c f).carrier d = s.carrier d := tget_tset_of_ne _ _ h

@[simp] theorem mgmt_setMgmt (s : State) (sl : MgmtSlot) (x : MgmtState) : (s.setMgmt sl x).mgmt sl = x := by cases sl <;> rfl
@[simp] theorem mgmt_setMgmt_other (s : State) (sl : MgmtSlot) (x : MgmtState) : (s.setMgmt sl x).mgmt (otherSlot sl) = s.mgmt (otherSlot sl) := by cases sl <;> rfl
@[simp] theorem machine_setMachine (s : State) (sl : MgmtSlot) (x : SlotMachine) : (s.setMachine sl x).machine sl = x := by cases sl <;> rfl
@[simp] theorem machine_setMachine_other (s : State) (sl : MgmtSlot) (x : SlotMachine) : (s.setMachine sl x).machine (otherSlot sl) = s.machine (otherSlot sl) := by cases sl <;> rfl
@[simp] theorem watch_setMachine (s : State) (sl a : MgmtSlot) (x : SlotMachine) : (s.setMachine sl x).watch a = s.watch a := by cases sl <;> cases a <;> rfl
@[simp] theorem watch_setWatch (s : State) (sl : MgmtSlot) (x : Watch) : (s.setWatch sl x).watch sl = x := by cases sl <;> rfl
@[simp] theorem watch_setWatch_other (s : State) (sl : MgmtSlot) (x : Watch) : (s.setWatch sl x).watch (otherSlot sl) = s.watch (otherSlot sl) := by cases sl <;> rfl
@[simp] theorem machine_setWatch (s : State) (sl a : MgmtSlot) (x : Watch) : (s.setWatch sl x).machine a = s.machine a := by cases sl <;> cases a <;> rfl
@[simp] theorem machine_breakWatch (s : State) (c : CarrierId) (a : MgmtSlot) : (s.breakWatch c).machine a = s.machine a := by cases a <;> rfl
@[simp] theorem watch_breakWatch (s : State) (c : CarrierId) (a : MgmtSlot) : (s.breakWatch c).watch a = (s.watch a).breakFor c := by cases a <;> rfl
@[simp] theorem inputs_setOutput (s : State) (f : FieldSlotId) (o : LineId) (x : Bool) (g : FieldSlotId) :
    ((s.setOutput f o x).fieldSlot g).inputs = (s.fieldSlot g).inputs := by
  simp only [State.setOutput, fieldSlot_setFieldSlot]
  split
  · next h => subst h; rfl
  · rfl

end Sys2Proof.Machine
end

