-- ==== Sys2Proof/Laws/Engine.lean ====
section
/-! SUPPORT. The rights engine as a closure: a property kept by each of the engine's elementary changes is kept by claim passes, wake passes and releases. Later proofs about the engine instantiate `EngineClosed` instead of unfolding the passes. -/

namespace Sys2Proof.Machine

/-- A zone that a carrier's claim may take: neither it nor a zone of its conflict list is held by another (R77). -/
def State.freeFor (s : State) (c : CarrierId) (z : ZoneId) : Prop :=
  s.heldByOther c z = false ∧ ∀ w ∈ (s.zone z).conflicts, s.heldByOther c w = false

/-- The changes of a corridor that claims, releases, detachments and gifts of zones make: an entry that the corridor test lets pass, and leaving, becoming and joining UNDIRECTED (R26 to R30). -/
inductive CorridorStep (quota : Nat) (x : CorridorState) : CorridorState → Prop
  | enter (c : CarrierId) (d : Direction) : x.admits c d = true → CorridorStep quota x (x.enter quota c d)
  | leave (c : CarrierId) : CorridorStep quota x (x.leave c).1
  | undirect (c : CarrierId) : CorridorStep quota x (x.undirect c).1
  | join (c : CarrierId) : CorridorStep quota x (x.joinUndirected c)

/-- A property of states that each elementary change of the rights engine keeps. -/
structure EngineClosed (P : State → Prop) : Prop where
  breakWatch : ∀ {s} c, P s → P (s.breakWatch c)
  freeToken : ∀ {s}, P s → P { s with pinToken := none }
  takeToken : ∀ {s} c, P s → s.active c → P { s with pinToken := some c }
  join : ∀ {s} c w d, P s → (s.carrier c).state = .advancing →
    P ((((s.joinQueue c w d).modCarrier c (fun r => { r with wait := w, waitAge := 0 })).flagWait c).enterState c .waiting)
  rejoin : ∀ {s} c w d, P s → (s.carrier c).state = .waiting →
    P (((((s.leaveQueue c).joinQueue c w d).modCarrier c (fun r => { r with wait := w })).flagWait c).breakWatch c)
  recordDeadlock : ∀ {s} d, P s → P ({ s with deadlock := d }.flagDeadlock)
  settle : ∀ {s} c, P s → (s.carrier c).state = .waiting →
    P (((s.leaveQueue c).clearWait c).enterState c .advancing)
  exhaustAdvancing : ∀ {s} c, P s → (s.carrier c).state = .advancing →
    P (((s.detachRoute c).enterState c .idle).flagRouteEnd c)
  exhaustWaiting : ∀ {s} c, P s → (s.carrier c).state = .waiting →
    P (((((s.leaveQueue c).clearWait c).detachRoute c).enterState c .idle).flagRouteEnd c)
  setCst : ∀ {s} k x, P s → CorridorStep (s.corridor k).quota (s.cst k) x → P (s.setCst k x)
  enterHeld : ∀ {s} c e, P s → s.active c → s.freeFor c e.zone → (s.carrier c).held.length < 12 → P (s.enterHeld c e)
  moveCursorPast : ∀ {s} c x, P s → s.active c → P (s.moveCursorPast c x)
  grantPending : ∀ {s} c, P s → s.active c →
    P (s.modCarrier c (fun r => { r with held := r.held.map (fun e => { e with status := .granted }) }))

/-- A property that the giving up of a zone by a carrier keeps as well. -/
structure ReleaseClosed (P : State → Prop) : Prop extends EngineClosed P where
  giveUp : ∀ {s} c z, P s → s.holds c z = true →
    P ((s.modCarrier c (fun r => { r with held := r.held.filter (fun e => e.zone != z) })).setHolder z none)

/-! ## Which changes keep a carrier's state -/

@[simp] theorem state_recomputeBinding (s : State) (b : Option RequestBinding) : (s.recomputeBinding b).carriers = s.carriers := by
  cases b <;> rfl

@[simp] theorem carriers_setHolder (s : State) (z : ZoneId) (h : Option CarrierId) : (s.setHolder z h).carriers = s.carriers := by
  simp [State.setHolder, State.recomputeOutput, State.recomputeBlocked]

@[simp] theorem carriers_leaveQueue (s : State) (c : CarrierId) : (s.leaveQueue c).carriers = s.carriers := by
  unfold State.leaveQueue
  split <;> simp [State.leaveZoneQueue, State.leaveCorridorQueue, State.recomputeOutput]

@[simp] theorem carriers_joinQueue (s : State) (c : CarrierId) (w : Wait) (d : Direction) : (s.joinQueue c w d).carriers = s.carriers := by
  cases w <;> simp [State.joinQueue, State.joinZoneQueue, State.recomputeOutput]

@[simp] theorem carriers_dropUserOf (s : State) (r : Option RouteId) : (s.dropUserOf r).carriers = s.carriers := by
  cases r <;> rfl

theorem carrier_of_carriers {s t : State} (h : t.carriers = s.carriers) (c : CarrierId) : t.carrier c = s.carrier c := by
  unfold State.carrier; rw [h]

@[simp] theorem carrier_setHolder (s : State) (z : ZoneId) (h : Option CarrierId) (c : CarrierId) :
    (s.setHolder z h).carrier c = s.carrier c := carrier_of_carriers (carriers_setHolder ..) c

@[simp] theorem carrier_leaveQueue (s : State) (c d : CarrierId) : (s.leaveQueue c).carrier d = s.carrier d :=
  carrier_of_carriers (carriers_leaveQueue ..) d

@[simp] theorem carrier_joinQueue (s : State) (c : CarrierId) (w : Wait) (k : Direction) (d : CarrierId) :
    (s.joinQueue c w k).carrier d = s.carrier d := carrier_of_carriers (carriers_joinQueue ..) d

@[simp] theorem carrier_dropUserOf (s : State) (r : Option RouteId) (d : CarrierId) :
    (s.dropUserOf r).carrier d = s.carrier d := carrier_of_carriers (carriers_dropUserOf ..) d

@[simp] theorem carrier_addUser (s : State) (r : RouteId) (d : CarrierId) : (s.addUser r).carrier d = s.carrier d := rfl

@[simp] theorem carrier_dropUser (s : State) (r : RouteId) (d : CarrierId) : (s.dropUser r).carrier d = s.carrier d := rfl

@[simp] theorem carrier_withToken (s : State) (p : Option CarrierId) (d : CarrierId) :
    State.carrier { s with pinToken := p } d = s.carrier d := rfl

/-- A carrier's state after its record was changed. -/
theorem state_modCarrier (s : State) (c d : CarrierId) (f : Carrier → Carrier) (h : (f (s.carrier c)).state = (s.carrier c).state) :
    ((s.modCarrier c f).carrier d).state = (s.carrier d).state := by
  rw [carrier_modCarrier]
  split
  · next e => rw [h, e]
  · rfl

@[simp] theorem state_takeSeam (s : State) (c : CarrierId) (r : RouteId) (d : CarrierId) :
    ((s.takeSeam c r).carrier d).state = (s.carrier d).state := by
  unfold State.takeSeam
  split
  · exact state_modCarrier _ _ _ _ rfl
  · exact state_modCarrier _ _ _ _ rfl
  · split
    · exact state_modCarrier _ _ _ _ rfl
    · split
      · rw [state_modCarrier _ _ _ _ rfl]; simp
      · exact state_modCarrier _ _ _ _ rfl

@[simp] theorem state_moveCursorPast (s : State) (c : CarrierId) (x : HopRef) (d : CarrierId) :
    ((s.moveCursorPast c x).carrier d).state = (s.carrier d).state := by
  unfold State.moveCursorPast
  simp only [breakWatch_accessors]
  split
  · exact state_modCarrier _ _ _ _ rfl
  · exact state_takeSeam ..

@[simp] theorem state_moveCursorPastSet (s : State) (c : CarrierId) (set : List HopRef) (d : CarrierId) :
    ((s.moveCursorPastSet c set).carrier d).state = (s.carrier d).state := by
  unfold State.moveCursorPastSet; split <;> simp

@[simp] theorem state_enterHeld (s : State) (c : CarrierId) (e : HeldEntry) (d : CarrierId) :
    ((s.enterHeld c e).carrier d).state = (s.carrier d).state := by
  unfold State.enterHeld; simp only [carrier_setHolder]; exact state_modCarrier _ _ _ _ rfl

theorem active_congr {s t : State} {c : CarrierId} (h : (t.carrier c).state = (s.carrier c).state) : t.active c ↔ s.active c := by
  unfold State.active; rw [h]

/-! ## Holders through the entering of a zone -/

@[simp] theorem zst_recomputeBinding (s : State) (b : Option RequestBinding) (z : ZoneId) : (s.recomputeBinding b).zst z = s.zst z := by
  cases b <;> rfl

theorem holder_setHolder (s : State) (z w : ZoneId) (h : Option CarrierId) :
    (s.setHolder z h).holder w = if w = z then h else s.holder w := by
  unfold State.setHolder State.holder State.recomputeOutput State.recomputeBlocked
  rw [zst_recomputeBinding, zst_setZst]
  split
  · next e => subst e; simp
  · next e => rw [zst_setZst, if_neg e]

theorem holder_enterHeld (s : State) (c : CarrierId) (e : HeldEntry) (w : ZoneId) :
    (s.enterHeld c e).holder w = if w = e.zone then some c else s.holder w := by
  unfold State.enterHeld
  rw [holder_setHolder]; rfl

theorem heldByOther_enterHeld {s : State} {c : CarrierId} {e : HeldEntry} {w : ZoneId} (h : s.heldByOther c w = false) :
    (s.enterHeld c e).heldByOther c w = false := by
  unfold State.heldByOther at h ⊢
  rw [holder_enterHeld]
  by_cases e' : w = e.zone
  · simp [e']
  · rw [if_neg e']; exact h

theorem zones_recomputeBinding (s : State) (b : Option RequestBinding) : (s.recomputeBinding b).zones = s.zones := by
  cases b <;> rfl

theorem zone_enterHeld (s : State) (c : CarrierId) (e : HeldEntry) (z : ZoneId) : (s.enterHeld c e).zone z = s.zone z := by
  unfold State.enterHeld State.setHolder State.recomputeOutput State.zone
  rw [zones_recomputeBinding]
  rfl

/-- A zone that a carrier may take stays so while the carrier takes others. -/
theorem freeFor_enterHeld {s : State} {c : CarrierId} {e : HeldEntry} {z : ZoneId} (h : s.freeFor c z) :
    (s.enterHeld c e).freeFor c z := by
  refine ⟨heldByOther_enterHeld h.1, fun w hw => heldByOther_enterHeld (h.2 w ?_)⟩
  rwa [zone_enterHeld] at hw

/-- A zone that a carrier enters stands at the far end of its held list. -/
theorem held_enterHeld (s : State) (c : CarrierId) (e : HeldEntry) :
    ((s.enterHeld c e).carrier c).held = (s.carrier c).held ++ [e] := by
  unfold State.enterHeld; rw [carrier_setHolder, carrier_modCarrier_self]

/-- A zone that passes the five tests has a corridor that admits its carrier, if it has one. -/
theorem admits_of_testZone {s : State} {c : CarrierId} {set : List HopRef} {x : HopRef} {k : CorridorId}
    (h : s.testZone c set x = none) (e : s.corridorOfZone (s.hopZone x.hop) = some k) :
    (s.cst k).admits c (s.askedDirection c set k) = true := by
  unfold State.testZone at h
  simp only [e] at h
  repeat' split at h
  all_goals first | assumption | cases h

/-- A zone that passes the five tests may be taken. -/
theorem freeFor_of_testZone {s : State} {c : CarrierId} {set : List HopRef} {x : HopRef} (h : s.testZone c set x = none) :
    s.freeFor c (s.hopZone x.hop) := by
  unfold State.testZone at h
  simp only at h
  split at h
  · cases h
  · split at h
    · cases h
    · next g =>
      refine ⟨by simpa using g, fun w hw => ?_⟩
      split at h
      · cases h
      · next k =>
        have := List.find?_eq_none.1 k w hw
        simpa using this

/-! ## The passes -/

section
variable {P : State → Prop} (H : EngineClosed P)
include H

theorem EngineClosed.deadlockCheck {s : State} (c : CarrierId) (h : P s) : P (s.deadlockCheck c) := by
  unfold State.deadlockCheck
  split
  · exact h
  · exact H.recordDeadlock _ h

theorem EngineClosed.waitOn {s : State} (c : CarrierId) (w : Wait) (d : Direction) (h : P s) : P (s.waitOn c w d) := by
  have key : P (match (s.carrier c).state with
      | .advancing =>
        ((((s.joinQueue c w d).modCarrier c (fun r => { r with wait := w, waitAge := 0 })).flagWait c).enterState c .waiting)
      | .waiting =>
        if (s.carrier c).wait = w then s
        else ((((s.leaveQueue c).joinQueue c w d).modCarrier c (fun r => { r with wait := w })).flagWait c).breakWatch c
      | _ => s) := by
    split
    · next e => exact H.join c w d h e
    · next e =>
      split
      · exact h
      · exact H.rejoin c w d h e
    · exact h
  unfold State.waitOn
  simp only
  split
  · exact H.deadlockCheck c key
  · exact H.deadlockCheck c key
  · exact key

theorem EngineClosed.settleIf {s : State} (c : CarrierId) (h : P s) : P (s.settle c) := by
  unfold State.settle
  split
  · next e => exact H.settle c h e
  · exact h

theorem EngineClosed.endPass {s : State} (c : CarrierId) (h : P s) : P (s.endPass c) := by
  unfold State.endPass
  split
  · exact H.freeToken h
  · exact h

theorem EngineClosed.undirectAll {s : State} (c : CarrierId) (h : P s) : P (s.undirectAll c).1 := by
  have fold : ∀ (l : List CorridorId) (acc : State × List CorridorId), P acc.1 →
      P (l.foldl (fun acc k =>
        let x := (acc.1.cst k).undirect c
        (acc.1.setCst k x.1, if x.2 then acc.2 ++ [k] else acc.2)) acc).1 := by
    intro l
    induction l with
    | nil => exact fun _ h => h
    | cons k l ih => exact fun acc h => ih _ (H.setCst k _ h (.undirect c))
  exact fold allCorridors (s, []) h

omit H in
theorem wakeFold {ε : Type} {exam : CarrierId → State → State} (he : ∀ c s, P s → P (exam c s))
    (slot : ε → CarrierId) (stands : State → ε → Bool) (l : List ε) {s : State} (h : P s) :
    P (l.foldl (fun t w => if stands t w then exam (slot w) t else t) s) := by
  induction l generalizing s with
  | nil => exact h
  | cons w l ih =>
    refine ih ?_
    dsimp only
    split
    · exact he _ _ h
    · exact h

omit H in
theorem wakeCorridorWith_keeps {exam : CarrierId → State → State} (he : ∀ c s, P s → P (exam c s)) {s : State}
    (k : CorridorId) (h : P s) : P (s.wakeCorridorWith exam k) :=
  Machine.wakeFold he (fun w : CorridorWaiter => w.slot) (fun t w => (t.cst k).queue.any (fun x => x.ticket == w.ticket)) _ h

theorem EngineClosed.undirectWith {exam : CarrierId → State → State} (he : ∀ c s, P s → P (exam c s)) {s : State}
    (c : CarrierId) (h : P s) : P (s.undirectWith exam c) := by
  unfold State.undirectWith
  generalize (s.undirectAll c).2 = l
  have h := H.undirectAll c h
  generalize (s.undirectAll c).1 = t at h
  induction l generalizing t with
  | nil => exact h
  | cons k l ih => exact ih _ (wakeCorridorWith_keeps he k h)

theorem EngineClosed.exhaustWith {exam : CarrierId → State → State} (he : ∀ c s, P s → P (exam c s)) {s : State}
    (c : CarrierId) (h : P s) (a : s.active c) : P (s.exhaustWith exam c) := by
  unfold State.exhaustWith
  refine H.undirectWith he c ?_
  split
  · next e => exact H.exhaustWaiting c h e
  · next e =>
    rcases a with a | a
    · exact H.exhaustAdvancing c h a
    · exact absurd a e

theorem EngineClosed.enterCorridors {s : State} (c : CarrierId) (l : List (CorridorId × Direction)) (h : P s)
    (nd : (l.map (·.1)).Nodup) (g : ∀ p ∈ l, (s.cst p.1).admits c p.2 = true) :
    P (l.foldl (fun u (k, d) => u.enterCorridor c k d) s) := by
  induction l generalizing s with
  | nil => exact h
  | cons p l ih =>
    rw [List.map_cons, List.nodup_cons] at nd
    refine ih (H.setCst p.1 _ h (.enter c p.2 (g p (by simp)))) nd.2 (fun q hq => ?_)
    have n : q.1 ≠ p.1 := fun e => nd.1 (e ▸ List.mem_map_of_mem hq)
    have e : (s.enterCorridor c p.1 p.2).cst q.1 = s.cst q.1 := by unfold State.enterCorridor; rw [cst_setCst, if_neg n]
    exact (congrArg (fun x => CorridorState.admits x c q.2) e).trans (g q (by simp [hq]))

theorem EngineClosed.moveCursorPastSet {s : State} (c : CarrierId) (set : List HopRef) (h : P s) (a : s.active c) :
    P (s.moveCursorPastSet c set) := by
  unfold State.moveCursorPastSet
  split
  · exact h
  · exact H.moveCursorPast c _ h a

end

theorem active_enterCorridors {s : State} (c : CarrierId) (l : List (CorridorId × Direction)) (d : CarrierId) :
    ((l.foldl (fun u (k, d) => u.enterCorridor c k d) s).carrier d).state = (s.carrier d).state := by
  induction l generalizing s with
  | nil => rfl
  | cons p l ih => exact ih

theorem enterAll_spec {P : State → Prop} (H : EngineClosed P) (c : CarrierId) (f : HopRef → HeldEntry)
    (set : List HopRef) {s : State} (h : P s) (a : s.active c)
    (g : ∀ x ∈ set, s.freeFor c (f x).zone) (room : (s.carrier c).held.length + set.length ≤ 12) :
    P (set.foldl (fun t x => t.enterHeld c (f x)) s) ∧ (set.foldl (fun t x => t.enterHeld c (f x)) s).active c := by
  induction set generalizing s with
  | nil => exact ⟨h, a⟩
  | cons x l ih =>
    rw [List.length_cons] at room
    refine ih (H.enterHeld c _ h a (g x (by simp)) (by omega)) ((active_congr (by simp)).2 a) ?_ ?_
    · intro y hy
      exact freeFor_enterHeld (g y (by simp [hy]))
    · rw [held_enterHeld, List.length_append, List.length_singleton]
      omega

@[simp] theorem hops_recomputeBinding (s : State) (b : Option RequestBinding) : (s.recomputeBinding b).hops = s.hops := by
  cases b <;> rfl

@[simp] theorem hops_setHolder (s : State) (z : ZoneId) (h : Option CarrierId) : (s.setHolder z h).hops = s.hops := by
  simp [State.setHolder, State.recomputeOutput, State.recomputeBlocked]

theorem hopZone_enterHeld (s : State) (c : CarrierId) (e : HeldEntry) (i : HopIdx) : (s.enterHeld c e).hopZone i = s.hopZone i := by
  simp [State.hopZone, State.hop, State.enterHeld]

theorem nodup_eraseDups {α : Type} [DecidableEq α] (l : List α) : l.eraseDups.Nodup := by
  suffices h : ∀ n (l : List α), l.length ≤ n → l.eraseDups.Nodup from h _ l (Nat.le_refl _)
  intro n
  induction n with
  | zero =>
    intro l h
    rw [List.eq_nil_of_length_eq_zero (Nat.le_zero.1 h)]
    exact List.nodup_nil
  | succ n ih =>
    intro l h
    cases l with
    | nil => exact List.nodup_nil
    | cons a l =>
      rw [List.eraseDups_cons, List.nodup_cons]
      refine ⟨fun m => ?_, ih _ (Nat.le_trans (List.length_filter_le ..) (by simpa using h))⟩
      rw [List.mem_eraseDups, List.mem_filter] at m
      simp at m

theorem setCorridors_nodup (s : State) (c : CarrierId) (set : List HopRef) : ((s.setCorridors c set).map (·.1)).Nodup := by
  unfold State.setCorridors
  rw [List.map_map]
  have e : ((fun p : CorridorId × Direction => p.1) ∘ fun k => (k, s.askedDirection c set k)) = id := rfl
  rw [e, List.map_id]
  exact nodup_eraseDups _

theorem cst_recomputeBinding (s : State) (b : Option RequestBinding) (k : CorridorId) : (s.recomputeBinding b).cst k = s.cst k := by
  cases b <;> rfl

theorem cst_enterHeld (s : State) (c : CarrierId) (e : HeldEntry) (k : CorridorId) : (s.enterHeld c e).cst k = s.cst k := by
  unfold State.enterHeld State.setHolder State.recomputeOutput
  rw [cst_recomputeBinding]; rfl

theorem cst_enterAll (c : CarrierId) (f : HopRef → HeldEntry) (set : List HopRef) (s : State) (k : CorridorId) :
    (set.foldl (fun t x => t.enterHeld c (f x)) s).cst k = s.cst k := by
  induction set generalizing s with
  | nil => rfl
  | cons x l ih => exact (ih _).trans (cst_enterHeld ..)

theorem leftOfSet_cons (s : State) (c : CarrierId) (x : HopRef) (l : List HopRef) : s.leftOfSet c (x :: l) =
    if s.holdsPending c (s.hopZone x.hop) = true then s.leftOfSet c l else x :: s.leftOfSet c l := by
  unfold State.leftOfSet
  rw [List.filter_cons]
  cases s.holdsPending c (s.hopZone x.hop) <;> rfl

theorem hopZone_pendHold (s : State) (c : CarrierId) (set : List HopRef) (x : HopRef) (i : HopIdx) :
    (s.pendHold c set x).hopZone i = s.hopZone i := by
  unfold State.pendHold
  simp only
  have e : ∀ t : State, (t.breakWatch c).hopZone i = t.hopZone i := fun t => rfl
  rw [e]
  split
  · exact hopZone_enterHeld ..
  · exact hopZone_enterHeld ..

theorem held_pendHold (s : State) (c : CarrierId) (set : List HopRef) (x : HopRef) :
    ((s.pendHold c set x).carrier c).held = (s.carrier c).held ++ [⟨s.hopZone x.hop, .pending, some x⟩] := by
  unfold State.pendHold
  simp only
  have e : ∀ t : State, (t.breakWatch c).carrier c = t.carrier c := fun t => rfl
  rw [e]
  split
  · exact held_enterHeld ..
  · exact held_enterHeld ..

/-- No zone more is left of a set once one was taken PENDING. -/
theorem leftOfSet_pendHold (s : State) (c : CarrierId) (set : List HopRef) (x : HopRef) (l : List HopRef) :
    ((s.pendHold c set x).leftOfSet c l).length ≤ (s.leftOfSet c l).length := by
  unfold State.leftOfSet
  rw [← List.countP_eq_length_filter, ← List.countP_eq_length_filter]
  refine List.countP_mono_left (fun y _ h => ?_)
  rw [hopZone_pendHold] at h
  unfold State.holdsPending at h ⊢
  rw [held_pendHold, List.any_append] at h
  cases e : (s.carrier c).held.any (fun e => e.zone == s.hopZone y.hop && e.status == .pending)
  · rfl
  · rw [e] at h; exact h

theorem room_of_not_outgrown {s : State} {c : CarrierId} {set : List HopRef} (h : s.outgrown c set = false) :
    (s.carrier c).held.length + (s.leftOfSet c set).length ≤ 12 := by
  unfold State.outgrown at h
  simp only [Bool.or_eq_false_iff, decide_eq_false_iff_not] at h
  omega

/-- The zones of a set enter a held list as their hops name them when the grant begins. -/
theorem enterAll_hopZone (c : CarrierId) (st : HeldStatus) (set : List HopRef) (s t : State) (h : ∀ i, t.hopZone i = s.hopZone i) :
    set.foldl (fun t x => t.enterHeld c ⟨s.hopZone x.hop, st, some x⟩) t
      = set.foldl (fun t x => t.enterHeld c ⟨t.hopZone x.hop, st, some x⟩) t := by
  induction set generalizing t with
  | nil => rfl
  | cons x l ih =>
    simp only [List.foldl_cons, h]
    exact ih _ (fun i => by rw [hopZone_enterHeld, h])

theorem active_settle {s : State} {c : CarrierId} (a : s.active c) : (s.settle c).active c := by
  unfold State.settle
  split
  · exact Or.inl (by simp [State.enterState, State.flagState])
  · exact a

section
variable {P : State → Prop} (H : EngineClosed P)
include H

theorem EngineClosed.grantSet {s : State} (c : CarrierId) (set : List HopRef) (h : P s) (a : s.active c)
    (g : ∀ x ∈ set, s.testZone c set x = none) (room : (s.carrier c).held.length + set.length ≤ 12) : P (s.grantSet c set) ∧ (s.grantSet c set).active c := by
  unfold State.grantSet
  simp only
  have k := enterAll_spec H c (fun x => ⟨s.hopZone x.hop, .granted, some x⟩) set h a
    (fun x hx => freeFor_of_testZone (g x hx)) room
  have u := H.enterCorridors c (s.setCorridors c set) k.1 (setCorridors_nodup s c set) (fun p hp => by
    rw [cst_enterAll]
    unfold State.setCorridors at hp
    obtain ⟨j, hj, rfl⟩ := List.mem_map.1 hp
    rw [List.mem_eraseDups, List.mem_filterMap] at hj
    obtain ⟨x, hx, e⟩ := hj
    exact admits_of_testZone (g x hx) e)
  have ua := (active_congr (active_enterCorridors c (s.setCorridors c set) c)).2 k.2
  have v := H.moveCursorPastSet c set u ua
  have va := (active_congr (state_moveCursorPastSet _ c set c)).2 ua
  have w := H.breakWatch c v
  exact ⟨H.settleIf c w, active_settle (by simpa [State.active] using va)⟩

theorem EngineClosed.pendHold {s : State} (c : CarrierId) (set : List HopRef) (x : HopRef) (h : P s) (a : s.active c)
    (g : s.testZone c set x = none) (room : (s.carrier c).held.length < 12) : P (s.pendHold c set x) ∧ (s.pendHold c set x).active c := by
  have t := H.enterHeld c ⟨s.hopZone x.hop, .pending, some x⟩ h a (freeFor_of_testZone g) room
  have ta : (s.enterHeld c ⟨s.hopZone x.hop, .pending, some x⟩).active c := (active_congr (by simp)).2 a
  unfold State.pendHold
  simp only
  split
  · exact ⟨H.breakWatch c t, by simpa [State.active] using ta⟩
  · next k e =>
    refine ⟨H.breakWatch c (H.setCst _ _ t (.enter c _ ?_)), by simpa [State.active, State.enterCorridor] using ta⟩
    rw [cst_enterHeld]
    exact admits_of_testZone g e

theorem EngineClosed.takePending (c : CarrierId) (set rest : List HopRef) {s : State} (h : P s) (a : s.active c)
    (room : (s.carrier c).held.length + (s.leftOfSet c rest).length ≤ 12) :
    P (s.takePending c set rest).1 ∧ (s.takePending c set rest).1.active c := by
  induction rest generalizing s with
  | nil => exact ⟨h, a⟩
  | cons x l ih =>
    unfold State.takePending
    split
    · next p => exact ih h a (by rwa [leftOfSet_cons, if_pos p] at room)
    · next p =>
      rw [leftOfSet_cons, if_neg p, List.length_cons] at room
      split
      · exact ⟨h, a⟩
      · next g =>
        have k := H.pendHold c set x h a g (by omega)
        refine ih k.1 k.2 ?_
        have := leftOfSet_pendHold s c set x l
        rw [held_pendHold, List.length_append, List.length_singleton]
        omega

theorem EngineClosed.wholeSet {s : State} (c : CarrierId) (set : List HopRef) (h : P s) (a : s.active c) :
    P (s.wholeSet c set) ∧ (s.wholeSet c set).active c := by
  unfold State.wholeSet
  simp only
  have t := H.grantPending c h a
  have ta : (s.modCarrier c (fun r => { r with held := r.held.map (fun e => { e with status := .granted }) })).active c :=
    (active_congr (state_modCarrier _ _ _ _ rfl)).2 a
  have u := H.moveCursorPastSet c set t ta
  have ua := (active_congr (state_moveCursorPastSet _ c set c)).2 ta
  exact ⟨H.settleIf c (H.breakWatch c (H.freeToken u)), active_settle (by simpa [State.active] using ua)⟩

theorem EngineClosed.claimLoop {exam : CarrierId → State → State} (he : ∀ c s, P s → P (exam c s)) (n : Nat) (c : CarrierId)
    {s : State} (h : P s) (a : s.active c) : P (claimLoop exam n c s) := by
  induction n generalizing s with
  | zero => exact h
  | succ n ih =>
    have pinned (room : (s.carrier c).held.length + (s.leftOfSet c (s.nextSet c)).length ≤ 12) : P (match s.takePending c (s.nextSet c) (s.nextSet c) with
        | (t, some w) => t.waitOn c w (s.waitDirection c (s.nextSet c) w)
        | (t, none) => Machine.claimLoop exam n c (t.wholeSet c (s.nextSet c))) := by
      have k := H.takePending c (s.nextSet c) (s.nextSet c) h a room
      generalize s.takePending c (s.nextSet c) (s.nextSet c) = p at k
      obtain ⟨t, w⟩ := p
      cases w with
      | some w => exact H.waitOn c w _ k.1
      | none =>
        have j := H.wholeSet c (s.nextSet c) k.1 k.2
        exact ih j.1 j.2
    unfold Machine.claimLoop
    simp only
    split
    · exact H.exhaustWith he c h a
    · split
      · split
        · exact H.settleIf c h
        · next o => exact pinned (room_of_not_outgrown (by simpa using o))
      · split
        · exact H.settleIf c h
        · split
          · exact H.settleIf c h
          · next o =>
            have room : (s.carrier c).held.length + (s.nextSet c).length ≤ 12 := by
              simp only [Bool.or_eq_true, decide_eq_true_eq, not_or] at o
              omega
            split
            · have := List.length_filter_le (fun x => !s.holdsPending c (s.hopZone x.hop)) (s.nextSet c)
              exact pinned (by unfold State.leftOfSet; omega)
            · split
              · exact H.waitOn c _ _ h
              · next g =>
                have k := H.grantSet c (s.nextSet c) h a (by simpa [List.findSome?_eq_none_iff] using g) room
                exact ih k.1 k.2

omit H in
theorem active_of_passAllowed {s : State} {c : CarrierId} (h : s.passAllowed c = true) : s.active c := by
  unfold State.passAllowed at h
  simp only [Bool.and_eq_true, Bool.or_eq_true, beq_iff_eq] at h
  exact h.1.1.1

theorem EngineClosed.examineWith {pass : CarrierId → State → State} (hp : ∀ c s, P s → s.active c → P (pass c s))
    (c : CarrierId) {s : State} (h : P s) : P (examineWith pass c s) := by
  unfold Machine.examineWith
  split
  · next g => exact hp c s h (active_of_passAllowed g)
  · exact H.endPass c (H.settleIf c h)

theorem EngineClosed.claimPass (n : Nat) (c : CarrierId) {s : State} (h : P s) (a : s.active c) : P (claimPass n c s) := by
  induction n generalizing c s with
  | zero => exact h
  | succ n ih =>
    exact H.endPass c (H.claimLoop (fun d t ht => H.examineWith (fun c s hs as => ih c hs as) d ht) 16 c h a)

theorem EngineClosed.examine (c : CarrierId) {s : State} (h : P s) : P (examine c s) :=
  H.examineWith (fun c _ hs as => H.claimPass nestBound c hs as) c h

theorem EngineClosed.runPass (c : CarrierId) {s : State} (h : P s) : P (s.runPass c) := by
  unfold State.runPass
  split
  · next g => exact H.claimPass nestBound c h (active_of_passAllowed g)
  · exact h

theorem EngineClosed.runPassIfAdvancing (c : CarrierId) {s : State} (h : P s) : P (s.runPassIfAdvancing c) := by
  unfold State.runPassIfAdvancing
  split
  · exact H.runPass c h
  · exact h

theorem EngineClosed.claimAll {s : State} (h : P s) : P s.claimAll := by
  unfold State.claimAll
  generalize allCarriers = l
  induction l generalizing s with
  | nil => exact h
  | cons c l ih => exact ih (H.runPassIfAdvancing c h)

theorem EngineClosed.wakeZone {s : State} (z : ZoneId) (causes : List ZoneCause) (h : P s) : P (s.wakeZone z causes) :=
  Machine.wakeFold (fun c _ hs => H.examine c hs) (fun w : ZoneWaiter => w.slot)
    (fun t w => (t.zst z).queue.any (fun x => x.ticket == w.ticket)) _ h

theorem EngineClosed.fieldWake {s : State} (z : ZoneId) (h : P s) : P (s.fieldWake z) := H.wakeZone z _ h

theorem EngineClosed.wakeCorridor {s : State} (k : CorridorId) (h : P s) : P (s.wakeCorridor k) :=
  wakeCorridorWith_keeps (fun c _ hs => H.examine c hs) k h

theorem EngineClosed.holdLifted {s : State} (h : P s) : P s.holdLifted :=
  H.claimAll (Machine.wakeFold (fun c _ hs => H.examine c hs) (fun w : HoldWaiter => w.slot)
    (fun t w => t.holdWait.any (fun x => x.ticket == w.ticket)) _ h)

theorem EngineClosed.undirect {s : State} (c : CarrierId) (h : P s) : P (s.undirect c) :=
  H.undirectWith (fun c _ hs => H.examine c hs) c h

theorem EngineClosed.giveToken {s : State} (h : P s) : P s.giveToken := by
  unfold State.giveToken
  split
  · split
    · exact h
    · next c e =>
      refine H.runPass c (H.takeToken c h ?_)
      have mem : ∀ (l : List CarrierId) (b : Option CarrierId), (∀ c, b = some c → s.active c) →
          ∀ c, (l.foldl (fun best c => if s.tokenCandidate c then
            match best with
            | none => some c
            | some b => if (s.carrier b).waitAge < (s.carrier c).waitAge then some c else best
            else best) b) = some c → s.active c := by
        intro l
        induction l with
        | nil => exact fun b hb => hb
        | cons x l ih =>
          intro b hb
          refine ih _ ?_
          intro c hc
          have cand : s.tokenCandidate x = true → s.active x := by
            intro hx
            unfold State.tokenCandidate at hx
            simp only [Bool.and_eq_true, beq_iff_eq] at hx
            exact Or.inr hx.1.1.1
          dsimp only at hc
          split at hc
          · next hx =>
            split at hc
            · cases hc; exact cand hx
            · split at hc
              · cases hc; exact cand hx
              · exact hb c hc
          · exact hb c hc
      exact mem allCarriers none (by simp) c e
  · exact h

end

section
variable {P : State → Prop} (H : ReleaseClosed P)
include H

theorem ReleaseClosed.release {s : State} (c : CarrierId) (z : ZoneId) (h : P s) (g : s.holds c z = true) : P (s.release c z) := by
  unfold State.release
  simp only
  refine H.wakeZone z _ (H.breakWatch c ?_)
  have k := H.giveUp c z h g
  generalize (s.modCarrier c (fun r => { r with held := r.held.filter (fun e => e.zone != z) })).setHolder z none = t at *
  have u : P (t.leaveZoneCorridor c z).1 := by
    unfold State.leaveZoneCorridor
    split
    · exact k
    · split
      · exact k
      · exact H.setCst _ _ k (.leave c)
  split
  · exact u
  · exact H.wakeCorridor _ u

theorem ReleaseClosed.releaseAll {s : State} (c : CarrierId) (zs : List ZoneId) (h : P s) : P (s.releaseAll c zs) := by
  unfold State.releaseAll
  induction zs generalizing s with
  | nil => exact h
  | cons z l ih =>
    refine ih ?_
    dsimp only
    split
    · next g => exact H.release c z h g
    · exact h

theorem ReleaseClosed.leaveClaim {s : State} (c : CarrierId) (h : P s) : P (s.leaveClaim c) := by
  unfold State.leaveClaim
  split
  · exact H.freeToken (H.releaseAll c _ h)
  · exact h

end

end Sys2Proof.Machine
end

