-- ==== Sys2Proof/Laws/Frame.lean ====
section
/-! SUPPORT. The rights engine's frame: every pass, wake and release leaves what `EngineFrame` says it leaves; and a carrier that is neither ADVANCING nor WAITING keeps its record through every pass and wake. -/

namespace Sys2Proof.Machine

theorem CarrierEngineFrame.refl (r : Carrier) : CarrierEngineFrame r r :=
  ⟨rfl, rfl, rfl, rfl, rfl, rfl, rfl, rfl, rfl, rfl, rfl, rfl, rfl, id, id, id⟩

theorem CarrierEngineFrame.trans {a b c : Carrier} (h : CarrierEngineFrame a b) (k : CarrierEngineFrame b c) : CarrierEngineFrame a c where
  report := k.report.trans h.report
  claimMode := k.claimMode.trans h.claimMode
  horizon := k.horizon.trans h.horizon
  priority := k.priority.trans h.priority
  clipMode := k.clipMode.trans h.clipMode
  lastOrder := k.lastOrder.trans h.lastOrder
  authority := k.authority.trans h.authority
  clip := k.clip.trans h.clip
  speed := k.speed.trans h.speed
  fault := k.fault.trans h.fault
  faultRecord := k.faultRecord.trans h.faultRecord
  faultFlag := k.faultFlag.trans h.faultFlag
  clipFlag := k.clipFlag.trans h.clipFlag
  stateFlag := fun x => k.stateFlag (h.stateFlag x)
  waitFlag := fun x => k.waitFlag (h.waitFlag x)
  routeEndFlag := fun x => k.routeEndFlag (h.routeEndFlag x)

namespace EngineFrame

theorem refl (s : State) : EngineFrame s s := by
  constructor <;> intros <;> first | rfl | assumption | exact .refl _

theorem trans {a b c : State} (h : EngineFrame a b) (k : EngineFrame b c) : EngineFrame a c where
  zones := k.zones.trans h.zones
  fields := fun z => (k.fields z).trans (h.fields z)
  corridors := k.corridors.trans h.corridors
  routes := fun r => (k.routes r).trans (h.routes r)
  hops := k.hops.trans h.hops
  carriers := fun c => (h.carriers c).trans (k.carriers c)
  validators := k.validators.trans h.validators
  inputs := fun f => (k.inputs f).trans (h.inputs f)
  policy := k.policy.trans h.policy
  districtHold := k.districtHold.trans h.districtHold
  linkFlag := k.linkFlag.trans h.linkFlag
  sectorHolds := k.sectorHolds.trans h.sectorHolds
  armLatch := k.armLatch.trans h.armLatch
  stopMarker := k.stopMarker.trans h.stopMarker
  floorPort := k.floorPort.trans h.floorPort
  dispatchPort := k.dispatchPort.trans h.dispatchPort
  floorPartner := k.floorPartner.trans h.floorPartner
  floorSent := k.floorSent.trans h.floorSent
  dispatchSent := k.dispatchSent.trans h.dispatchSent
  machines := fun sl => (k.machines sl).trans (h.machines sl)
  watched := fun sl => (k.watched sl).trans (h.watched sl)
  intact := fun sl x => h.intact sl (k.intact sl x)
  silenceLimit := k.silenceLimit.trans h.silenceLimit
  clearPersistence := k.clearPersistence.trans h.clearPersistence
  starvationLimit := k.starvationLimit.trans h.starvationLimit
  mode := k.mode.trans h.mode
  flags := by rw [k.flags, h.flags]
  deadlockFlag := fun x => k.deadlockFlag (h.deadlockFlag x)
  masks := k.masks.trans h.masks
  resetCause := k.resetCause.trans h.resetCause
  districtCode := k.districtCode.trans h.districtCode
  straps := k.straps.trans h.straps
  stopLine := k.stopLine.trans h.stopLine
  resetPin := k.resetPin.trans h.resetPin
  pending := k.pending.trans h.pending

/-! ## The elementary changes -/

theorem setZst (s : State) (z : ZoneId) (x : ZoneState) (h : x.field = (s.zst z).field) : EngineFrame s (s.setZst z x) :=
  { refl s with
    fields := fun w => by
      rw [zst_setZst]
      split
      · next e => rw [h, e]
      · rfl }

theorem setCst (s : State) (k : CorridorId) (x : CorridorState) : EngineFrame s (s.setCst k x) := { refl s with }

theorem setUsers (s : State) (r : RouteId) (n : Nat) : EngineFrame s (s.setRoute r { s.route r with users := n }) :=
  { refl s with
    routes := fun q => by
      rw [route_setRoute]
      split
      · next e => rw [e]
      · rfl }

theorem modCarrier (s : State) (c : CarrierId) (f : Carrier → Carrier) (h : CarrierEngineFrame (s.carrier c) (f (s.carrier c))) :
    EngineFrame s (s.modCarrier c f) :=
  { refl s with
    carriers := fun d => by
      rw [carrier_modCarrier]
      split
      · next e => rw [e]; exact h
      · exact .refl _ }

theorem setOutput (s : State) (f : FieldSlotId) (o : LineId) (x : Bool) : EngineFrame s (s.setOutput f o x) :=
  { refl s with inputs := fun g => inputs_setOutput s f o x g }

theorem breakWatch (s : State) (c : CarrierId) : EngineFrame s (s.breakWatch c) :=
  { refl s with
    machines := fun sl => machine_breakWatch s c sl
    watched := fun sl => by
      rw [watch_breakWatch]; unfold Watch.breakFor; split <;> rfl
    intact := fun sl => by
      rw [watch_breakWatch]; unfold Watch.breakFor; split
      · simp
      · exact id }

theorem setToken (s : State) (p : Option CarrierId) : EngineFrame s { s with pinToken := p } := { refl s with }

theorem setHoldWait (s : State) (l : List HoldWaiter) (n : Nat) : EngineFrame s { s with holdWait := l, tickets := n } := { refl s with }

theorem setTickets (s : State) (n : Nat) : EngineFrame s { s with tickets := n } := { refl s with }

theorem recordDeadlock (s : State) (d : DeadlockRecord) : EngineFrame s { s with deadlock := d }.flagDeadlock :=
  { refl s with flags := rfl, deadlockFlag := fun _ => rfl }

/-! ## The shared operations -/

theorem recomputeBlocked (s : State) (z : ZoneId) : EngineFrame s (s.recomputeBlocked z) := setZst s z _ rfl

theorem recomputeBinding (s : State) (b : Option RequestBinding) : EngineFrame s (s.recomputeBinding b) := by
  cases b
  · exact refl s
  · exact setOutput ..

theorem recomputeOutput (s : State) (z : ZoneId) : EngineFrame s (s.recomputeOutput z) := recomputeBinding ..

theorem setHolder (s : State) (z : ZoneId) (h : Option CarrierId) : EngineFrame s (s.setHolder z h) :=
  ((setZst s z { s.zst z with holder := h } rfl).trans (recomputeBlocked _ z)).trans (recomputeOutput _ z)

theorem leaveZoneQueue (s : State) (c : CarrierId) (z : ZoneId) : EngineFrame s (s.leaveZoneQueue c z) := setZst s z _ rfl

theorem leaveQueue (s : State) (c : CarrierId) : EngineFrame s (s.leaveQueue c) := by
  unfold State.leaveQueue
  split
  · exact refl s
  · exact (leaveZoneQueue ..).trans (recomputeOutput ..)
  · exact (leaveZoneQueue ..).trans (recomputeOutput ..)
  · exact (leaveZoneQueue ..).trans (recomputeOutput ..)
  · exact setCst ..
  · exact setHoldWait s _ _

theorem joinZoneQueue (s : State) (c : CarrierId) (z : ZoneId) (x : ZoneCause) : EngineFrame s (s.joinZoneQueue c z x) :=
  (setZst s z { s.zst z with queue := insertByClass (·.priority) ⟨c, x, (s.carrier c).priority, s.tickets⟩ (s.zst z).queue } rfl).trans
    (setTickets _ _)

theorem joinQueue (s : State) (c : CarrierId) (w : Wait) (d : Direction) : EngineFrame s (s.joinQueue c w d) := by
  cases w
  · exact refl s
  · exact joinZoneQueue ..
  · exact joinZoneQueue ..
  · exact (joinZoneQueue ..).trans (recomputeOutput ..)
  · exact (setCst s _ _).trans (setTickets _ _)
  · exact setHoldWait s _ _

theorem dropUserOf (s : State) (r : Option RouteId) : EngineFrame s (s.dropUserOf r) := by
  cases r
  · exact refl s
  · exact setUsers ..

theorem flagState (s : State) (c : CarrierId) : EngineFrame s (s.flagState c) :=
  modCarrier s c _ ⟨rfl, rfl, rfl, rfl, rfl, rfl, rfl, rfl, rfl, rfl, rfl, rfl, rfl, fun _ => rfl, id, id⟩

theorem flagWait (s : State) (c : CarrierId) : EngineFrame s (s.flagWait c) :=
  modCarrier s c _ ⟨rfl, rfl, rfl, rfl, rfl, rfl, rfl, rfl, rfl, rfl, rfl, rfl, rfl, id, fun _ => rfl, id⟩

theorem flagRouteEnd (s : State) (c : CarrierId) : EngineFrame s (s.flagRouteEnd c) :=
  modCarrier s c _ ⟨rfl, rfl, rfl, rfl, rfl, rfl, rfl, rfl, rfl, rfl, rfl, rfl, rfl, id, id, fun _ => rfl⟩

theorem enterState (s : State) (c : CarrierId) (x : CarrierState) : EngineFrame s (s.enterState c x) :=
  ((modCarrier s c (fun r => { r with state := x }) ⟨rfl, rfl, rfl, rfl, rfl, rfl, rfl, rfl, rfl, rfl, rfl, rfl, rfl, id, id, id⟩).trans
    (flagState ..)).trans (breakWatch ..)

theorem clearWait (s : State) (c : CarrierId) : EngineFrame s (s.clearWait c) :=
  modCarrier s c _ ⟨rfl, rfl, rfl, rfl, rfl, rfl, rfl, rfl, rfl, rfl, rfl, rfl, rfl, id, id, id⟩

theorem setWait (s : State) (c : CarrierId) (w : Wait) : EngineFrame s (s.modCarrier c (fun r => { r with wait := w })) :=
  modCarrier s c _ ⟨rfl, rfl, rfl, rfl, rfl, rfl, rfl, rfl, rfl, rfl, rfl, rfl, rfl, id, id, id⟩

theorem startWait (s : State) (c : CarrierId) (w : Wait) :
    EngineFrame s (s.modCarrier c (fun r => { r with wait := w, waitAge := 0 })) :=
  modCarrier s c _ ⟨rfl, rfl, rfl, rfl, rfl, rfl, rfl, rfl, rfl, rfl, rfl, rfl, rfl, id, id, id⟩

theorem setHeld (s : State) (c : CarrierId) (f : List HeldEntry → List HeldEntry) :
    EngineFrame s (s.modCarrier c (fun r => { r with held := f r.held })) :=
  modCarrier s c _ ⟨rfl, rfl, rfl, rfl, rfl, rfl, rfl, rfl, rfl, rfl, rfl, rfl, rfl, id, id, id⟩

theorem setCursor (s : State) (c : CarrierId) (x : Cursor) : EngineFrame s (s.setCursor c x) :=
  modCarrier s c _ ⟨rfl, rfl, rfl, rfl, rfl, rfl, rfl, rfl, rfl, rfl, rfl, rfl, rfl, id, id, id⟩

theorem setPlace (s : State) (c : CarrierId) (r : Option RouteId) (l : Half) (x : Cursor) :
    EngineFrame s (s.modCarrier c (fun y => { y with route := r, laps := l, cursor := x })) :=
  modCarrier s c _ ⟨rfl, rfl, rfl, rfl, rfl, rfl, rfl, rfl, rfl, rfl, rfl, rfl, rfl, id, id, id⟩

theorem detachRoute (s : State) (c : CarrierId) : EngineFrame s (s.detachRoute c) :=
  (dropUserOf ..).trans (modCarrier _ c _ ⟨rfl, rfl, rfl, rfl, rfl, rfl, rfl, rfl, rfl, rfl, rfl, rfl, rfl, id, id, id⟩)

theorem takeSeam (s : State) (c : CarrierId) (r : RouteId) : EngineFrame s (s.takeSeam c r) := by
  unfold State.takeSeam
  split
  · exact setCursor ..
  · exact modCarrier _ c _ ⟨rfl, rfl, rfl, rfl, rfl, rfl, rfl, rfl, rfl, rfl, rfl, rfl, rfl, id, id, id⟩
  · split
    · exact setCursor ..
    · split
      · exact ((dropUserOf ..).trans (setUsers ..)).trans (setPlace ..)
      · exact setCursor ..

theorem moveCursorPast (s : State) (c : CarrierId) (x : HopRef) : EngineFrame s (s.moveCursorPast c x) := by
  unfold State.moveCursorPast
  refine trans ?_ (breakWatch _ c)
  split
  · exact setCursor ..
  · exact takeSeam ..

theorem addUser (s : State) (r : RouteId) : EngineFrame s (s.addUser r) := setUsers ..

theorem takeRoute (s : State) (c : CarrierId) (r : RouteId) (h : HopIdx) : EngineFrame s (s.takeRoute c r h) := by
  unfold State.takeRoute
  refine trans ?_ (moveCursorPast ..)
  refine trans ((dropUserOf s (s.carrier c).route).trans (addUser _ r)) ?_
  exact modCarrier _ c _ ⟨rfl, rfl, rfl, rfl, rfl, rfl, rfl, rfl, rfl, rfl, rfl, rfl, rfl, id, id, id⟩

theorem enterHeld (s : State) (c : CarrierId) (e : HeldEntry) : EngineFrame s (s.enterHeld c e) :=
  (setHeld s c (fun l => l ++ [e])).trans (setHolder ..)

/-- Everything the engine does stays within its frame. -/
theorem closed (s₀ : State) : ReleaseClosed (EngineFrame s₀) where
  breakWatch _ h := h.trans (breakWatch ..)
  freeToken h := h.trans (setToken ..)
  takeToken _ h _ := h.trans (setToken ..)
  join _ _ _ h _ := h.trans ((((joinQueue ..).trans (startWait ..)).trans (flagWait ..)).trans (enterState ..))
  rejoin _ _ _ h _ := h.trans (((((leaveQueue ..).trans (joinQueue ..)).trans (setWait ..)).trans (flagWait ..)).trans (breakWatch ..))
  recordDeadlock _ h := h.trans (recordDeadlock ..)
  settle _ h _ := h.trans (((leaveQueue ..).trans (clearWait ..)).trans (enterState ..))
  exhaustAdvancing _ h _ := h.trans (((detachRoute ..).trans (enterState ..)).trans (flagRouteEnd ..))
  exhaustWaiting _ h _ := h.trans (((((leaveQueue ..).trans (clearWait ..)).trans (detachRoute ..)).trans (enterState ..)).trans (flagRouteEnd ..))
  setCst _ _ h _ := h.trans (setCst ..)
  enterHeld _ _ h _ _ _ := h.trans (enterHeld ..)
  moveCursorPast _ _ h _ := h.trans (moveCursorPast ..)
  grantPending c h _ := h.trans (setHeld _ c (fun l => l.map (fun e => { e with status := .granted })))
  giveUp c z h _ := h.trans ((setHeld _ c (fun l => l.filter (fun e => e.zone != z))).trans (setHolder ..))

theorem runPass (s : State) (c : CarrierId) : EngineFrame s (s.runPass c) := (closed s).toEngineClosed.runPass c (refl s)
theorem runPassIfAdvancing (s : State) (c : CarrierId) : EngineFrame s (s.runPassIfAdvancing c) :=
  (closed s).toEngineClosed.runPassIfAdvancing c (refl s)
theorem claimAll (s : State) : EngineFrame s s.claimAll := (closed s).toEngineClosed.claimAll (refl s)
theorem wakeZone (s : State) (z : ZoneId) (l : List ZoneCause) : EngineFrame s (s.wakeZone z l) :=
  (closed s).toEngineClosed.wakeZone z l (refl s)
theorem wakeCorridor (s : State) (k : CorridorId) : EngineFrame s (s.wakeCorridor k) := (closed s).toEngineClosed.wakeCorridor k (refl s)
theorem holdLifted (s : State) : EngineFrame s s.holdLifted := (closed s).toEngineClosed.holdLifted (refl s)
theorem undirect (s : State) (c : CarrierId) : EngineFrame s (s.undirect c) := (closed s).toEngineClosed.undirect c (refl s)
theorem giveToken (s : State) : EngineFrame s s.giveToken := (closed s).toEngineClosed.giveToken (refl s)
theorem releaseAll (s : State) (c : CarrierId) (zs : List ZoneId) : EngineFrame s (s.releaseAll c zs) := (closed s).releaseAll c zs (refl s)
theorem leaveClaim (s : State) (c : CarrierId) : EngineFrame s (s.leaveClaim c) := (closed s).leaveClaim c (refl s)

end EngineFrame

/-! ## Parked carriers -/

/-- The carriers that were neither ADVANCING nor WAITING have the records they had. -/
def ParkedKept (s t : State) : Prop := ∀ c, ¬s.active c → t.carrier c = s.carrier c

theorem ParkedKept.refl (s : State) : ParkedKept s s := fun _ _ => rfl

/-- A change of one active carrier's record leaves the parked ones. -/
theorem ParkedKept.step {s₀ s t : State} (h : ParkedKept s₀ s) (c : CarrierId) (a : s.active c)
    (k : ∀ d, d ≠ c → t.carrier d = s.carrier d) : ParkedKept s₀ t := by
  intro d hd
  by_cases e : d = c
  · subst e
    exact absurd ((active_congr (by rw [h d hd])).1 a) hd
  · rw [k d e]; exact h d hd

theorem carrier_enterState_of_ne (s : State) {c d : CarrierId} (x : CarrierState) (h : d ≠ c) :
    (s.enterState c x).carrier d = s.carrier d := by
  simp [State.enterState, State.flagState, carrier_modCarrier, h]

theorem carrier_detachRoute_of_ne (s : State) {c d : CarrierId} (h : d ≠ c) : (s.detachRoute c).carrier d = s.carrier d := by
  simp [State.detachRoute, carrier_modCarrier, h]

theorem carrier_takeSeam_of_ne (s : State) {c d : CarrierId} (r : RouteId) (h : d ≠ c) : (s.takeSeam c r).carrier d = s.carrier d := by
  unfold State.takeSeam
  split
  · simp [State.setCursor, carrier_modCarrier, h]
  · simp [carrier_modCarrier, h]
  · split
    · simp [State.setCursor, carrier_modCarrier, h]
    · split <;> simp [State.setCursor, carrier_modCarrier, h]

theorem carrier_moveCursorPast_of_ne (s : State) {c d : CarrierId} (x : HopRef) (h : d ≠ c) :
    (s.moveCursorPast c x).carrier d = s.carrier d := by
  unfold State.moveCursorPast
  split
  · simp [State.setCursor, carrier_modCarrier, h]
  · simp [carrier_takeSeam_of_ne s x.route h]

theorem carrier_enterHeld_of_ne (s : State) {c d : CarrierId} (e : HeldEntry) (h : d ≠ c) :
    (s.enterHeld c e).carrier d = s.carrier d := by
  simp [State.enterHeld, carrier_modCarrier, h]

/-- No pass and no wake touches a parked carrier. -/
theorem ParkedKept.closed (s₀ : State) : EngineClosed (ParkedKept s₀) where
  breakWatch c h := h
  freeToken h := h
  takeToken c h _ := h
  join c w d h a := h.step c (Or.inl a) (fun x hx => by
    simp [carrier_enterState_of_ne _ _ hx, State.flagWait, carrier_modCarrier, hx])
  rejoin c w d h a := h.step c (Or.inr a) (fun x hx => by simp [State.flagWait, carrier_modCarrier, hx])
  recordDeadlock d h := h
  settle c h a := h.step c (Or.inr a) (fun x hx => by
    simp [carrier_enterState_of_ne _ _ hx, State.clearWait, carrier_modCarrier, hx])
  exhaustAdvancing c h a := h.step c (Or.inl a) (fun x hx => by
    simp [State.flagRouteEnd, carrier_modCarrier, hx, carrier_enterState_of_ne _ _ hx, carrier_detachRoute_of_ne _ hx])
  exhaustWaiting c h a := h.step c (Or.inr a) (fun x hx => by
    simp [State.flagRouteEnd, State.clearWait, carrier_modCarrier, hx, carrier_enterState_of_ne _ _ hx, carrier_detachRoute_of_ne _ hx])
  setCst k x h _ := h
  enterHeld c e h a _ _ := h.step c a (fun x hx => carrier_enterHeld_of_ne _ _ hx)
  moveCursorPast c x h a := h.step c a (fun y hy => carrier_moveCursorPast_of_ne _ _ hy)
  grantPending c h a := h.step c a (fun x hx => by simp [carrier_modCarrier, hx])

end Sys2Proof.Machine
end

