-- ==== Sys2Proof/Laws/Part.lean ====
section
/-! SUPPORT. The whole part as a closure: a property of the tables that each of the part's elementary changes keeps is kept by every command. Invariant proofs instantiate `PartClosed` and cite `PartClosed.exec`. -/

namespace Sys2Proof.Machine

/-- Two states with the same tables, validators, token, hold wait list, mode and parameters, and with ports whose runs are as well bounded. -/
structure TablesSame (s t : State) : Prop where
  zones : t.zones = s.zones
  zoneStates : t.zoneStates = s.zoneStates
  corridors : t.corridors = s.corridors
  corridorStates : t.corridorStates = s.corridorStates
  routes : t.routes = s.routes
  hops : t.hops = s.hops
  carriers : t.carriers = s.carriers
  validators : t.validators = s.validators
  fieldSlots : t.fieldSlots = s.fieldSlots
  pinToken : t.pinToken = s.pinToken
  holdWait : t.holdWait = s.holdWait
  tickets : t.tickets = s.tickets
  mode : t.mode = s.mode
  silenceLimit : t.silenceLimit = s.silenceLimit
  clearPersistence : t.clearPersistence = s.clearPersistence
  starvationLimit : t.starvationLimit = s.starvationLimit
  floorPort : s.floorPort.badRun ≤ 3 ∧ s.floorPort.goodRun ≤ 2 → t.floorPort.badRun ≤ 3 ∧ t.floorPort.goodRun ≤ 2
  dispatchPort : s.dispatchPort.badRun ≤ 3 ∧ s.dispatchPort.goodRun ≤ 2 → t.dispatchPort.badRun ≤ 3 ∧ t.dispatchPort.goodRun ≤ 2

theorem TablesSame.refl (s : State) : TablesSame s s := by constructor <;> first | rfl | exact id

theorem TablesSame.setMgmt (s : State) (slot : MgmtSlot) (x : MgmtState) : TablesSame s (s.setMgmt slot x) := by
  cases slot <;> exact { TablesSame.refl s with }

/-- A change of a carrier record that leaves its place on the floor and on its route, and keeps the bounds of its counts. -/
structure SoftUpdate (f : Carrier → Carrier) : Prop where
  state : ∀ r, (f r).state = r.state
  report : ∀ r, (f r).report = r.report
  held : ∀ r, (f r).held = r.held
  route : ∀ r, (f r).route = r.route
  cursor : ∀ r, (f r).cursor = r.cursor
  wait : ∀ r, (f r).wait = r.wait
  horizon : ∀ r, 1 ≤ r.horizon ∧ r.horizon ≤ 8 → 1 ≤ (f r).horizon ∧ (f r).horizon ≤ 8
  waitAge : ∀ r, r.waitAge ≤ 65535 → (f r).waitAge ≤ 65535

/-- The record a zone's Write Zone may write: within range, not refused and past the checks of R14. -/
def State.mayWriteZone (s : State) (slot : MgmtSlot) (w : ZoneWrite) (z : ZoneId) (new : ZoneRecord) : Prop :=
  (∃ ignored, zoneWriteRecord slot w (s.zone z) = some (new, ignored)) ∧ s.zoneRefusal z new = none
    ∧ s.zoneChecks (s.setZone z new) z = none

/-- A property that the changes beside the tables keep: of ports, slots, holds and flags, and of a carrier record in its place. -/
structure OutsideClosed (P : State → Prop) : Prop where
  outside : ∀ {s t}, P s → TablesSame s t → P t
  touch : ∀ {s} c f, P s → SoftUpdate f → P (s.modCarrier c f)

/-- A property of states that each elementary change of the part keeps. -/
structure PartClosed (P : State → Prop) : Prop extends ReleaseClosed P, OutsideClosed P where
  setValidator : ∀ {s} c x, P s → (x.instability ≤ 8 ∨ x.instability ≤ (s.validator c).instability) →
    (x.silence ≤ s.silenceLimit ∨ x.silence ≤ (s.validator c).silence) → P (s.setValidator c x)
  setReport : ∀ {s} c r, P s → P ((s.modCarrier c (fun x => { x with report := x.report.replaced r })).recomputeHeld c)
  dequeue : ∀ {s} c, P s → (s.carrier c).state = .waiting → P ((s.leaveQueue c).clearWait c)
  park : ∀ {s} c x, P s → (s.carrier c).state ≠ .vacant → x = .idle ∨ x = .faulted → P (s.modCarrier c (fun r => { r with state := x }))
  advance : ∀ {s} c, P s → (s.carrier c).state ≠ .vacant → s.mode = .service → P (s.modCarrier c (fun r => { r with state := .advancing }))
  vacate : ∀ {s} c, P s → (s.carrier c).held = [] → (s.carrier c).route = none →
    P (s.modCarrier c (fun r => { r with state := .vacant }))
  detach : ∀ {s} c, P s → P (s.detachRoute c)
  dropUser : ∀ {s} c r, P s → (s.carrier c).state ≠ .vacant →
    P (((s.dropUserOf (s.carrier c).route).addUser r).modCarrier c (fun x => { x with route := some r, laps := (s.route r).lapCount }))
  moveCursor : ∀ {s} c x, P s → (s.carrier c).state ≠ .vacant → P (s.moveCursorPast c x)
  grantOne : ∀ {s} c z, P s → P (s.modCarrier c (fun r =>
    { r with held := r.held.map (fun e => if e.zone = z then { e with status := .granted } else e) }))
  giveZone : ∀ {s} c z (atRear : Bool), P s → (s.carrier c).state ≠ .vacant → s.holder z = none → s.holds c z = false →
    s.conflictsWithOther c z = false → (s.carrier c).held.length < 12 → P ((s.modCarrier c (fun r => { r with held := if atRear then (⟨z, .granted, none⟩ : HeldEntry) :: r.held
      else r.held ++ [⟨z, .granted, none⟩] })).setHolder z (some c))
  rearFirst : ∀ {s} c, P s → P (s.rearFirst c)
  enrol : ∀ {s} c f r, P s → s.admitRefusal c f r = none →
    P ((if f = r then [(⟨f, .granted, none⟩ : HeldEntry)] else [⟨r, .granted, none⟩, ⟨f, .granted, none⟩]).foldl
      (fun t e => t.admitZone c e.zone) (s.modCarrier c (fun x => x.admitted
        (if f = r then [⟨f, .granted, none⟩] else [⟨r, .granted, none⟩, ⟨f, .granted, none⟩]))))
  layZone : ∀ {s} slot w z new, P s → s.mayWriteZone slot w z new →
    P ((s.noteTableWrite slot).layZone z new)
  addPair : ∀ {s} x y, P s → x ≠ y → y ∉ (s.zone x).conflicts → (s.zone x).conflicts.length < 4 →
    (s.zone y).conflicts.length < 4 → s.heldApart x y = false → P (s.addPair x y)
  removePair : ∀ {s} x y, P s → x ≠ y → P (s.removePair x y)
  setCorridor : ∀ {s} k d q, P s → 1 ≤ q → q ≤ 15 → P ((s.setCorridor k ⟨d, q⟩).setCst k ((s.cst k).requota q))
  setRoute : ∀ {s} r w x, P s → (s.route r).users = 0 → routeWriteRecord w (s.route r).users = some x → P (s.setRoute r x)
  setHop : ∀ {s} h x, P s → P (s.setHop h x)
  fieldsFollow : ∀ {s} read, P s → P (s.fieldsFollow (s.filterInputs read))
  clearReached : ∀ {s} f i, P s → P (s.fieldsFollow (s.setInput f i ((s.input f i).take s.clearPersistence true)))
  setParameters : ∀ {s} a b c, P s → 4 ≤ a → a ≤ 255 → 1 ≤ b → b ≤ 255 → 40 ≤ c → c ≤ 2000 →
    P { s with silenceLimit := a, clearPersistence := b, starvationLimit := c }
  toService : ∀ {s}, P s → s.audit = none → P { s with mode := .service }
  toSafe : ∀ {s}, P s → (∀ c, ¬s.active c) → P { s with mode := .safe }
  restart : ∀ {s} x, P s → P (s.restart x)
  powerOn : ∀ {s} x, P s → P (s.powerOn x)

/-! ## Conjunctions -/

theorem EngineClosed.and {P Q : State → Prop} (H : EngineClosed P) (K : EngineClosed Q) : EngineClosed (fun s => P s ∧ Q s) where
  breakWatch c h := ⟨H.breakWatch c h.1, K.breakWatch c h.2⟩
  freeToken h := ⟨H.freeToken h.1, K.freeToken h.2⟩
  takeToken c h a := ⟨H.takeToken c h.1 a, K.takeToken c h.2 a⟩
  join c w d h a := ⟨H.join c w d h.1 a, K.join c w d h.2 a⟩
  rejoin c w d h a := ⟨H.rejoin c w d h.1 a, K.rejoin c w d h.2 a⟩
  recordDeadlock d h := ⟨H.recordDeadlock d h.1, K.recordDeadlock d h.2⟩
  settle c h a := ⟨H.settle c h.1 a, K.settle c h.2 a⟩
  exhaustAdvancing c h a := ⟨H.exhaustAdvancing c h.1 a, K.exhaustAdvancing c h.2 a⟩
  exhaustWaiting c h a := ⟨H.exhaustWaiting c h.1 a, K.exhaustWaiting c h.2 a⟩
  setCst k x h w := ⟨H.setCst k x h.1 w, K.setCst k x h.2 w⟩
  enterHeld c e h a g r := ⟨H.enterHeld c e h.1 a g r, K.enterHeld c e h.2 a g r⟩
  moveCursorPast c x h a := ⟨H.moveCursorPast c x h.1 a, K.moveCursorPast c x h.2 a⟩
  grantPending c h a := ⟨H.grantPending c h.1 a, K.grantPending c h.2 a⟩

theorem ReleaseClosed.and {P Q : State → Prop} (H : ReleaseClosed P) (K : ReleaseClosed Q) : ReleaseClosed (fun s => P s ∧ Q s) where
  toEngineClosed := H.toEngineClosed.and K.toEngineClosed
  giveUp c z h g := ⟨H.giveUp c z h.1 g, K.giveUp c z h.2 g⟩

/-! ## What passes, wakes and releases keep of one carrier -/

/-- A carrier that is not VACANT stays so through passes, wakes and releases. -/
theorem notVacant_closed (c₀ : CarrierId) : ReleaseClosed (fun s => (s.carrier c₀).state ≠ .vacant) where
  breakWatch c h := h
  freeToken h := h
  takeToken c h _ := h
  join c w d h a := by
    by_cases e : c₀ = c
    · subst e; simp [State.enterState, State.flagState]
    · simpa [carrier_enterState_of_ne _ _ e, State.flagWait, carrier_modCarrier, e] using h
  rejoin c w d h a := by
    by_cases e : c₀ = c
    · subst e; simpa [State.flagWait] using h
    · simpa [State.flagWait, carrier_modCarrier, e] using h
  recordDeadlock d h := h
  settle c h a := by
    by_cases e : c₀ = c
    · subst e; simp [State.enterState, State.flagState]
    · simpa [carrier_enterState_of_ne _ _ e, State.clearWait, carrier_modCarrier, e] using h
  exhaustAdvancing c h a := by
    by_cases e : c₀ = c
    · subst e; simp [State.flagRouteEnd, State.enterState, State.flagState]
    · simpa [State.flagRouteEnd, carrier_modCarrier, e, carrier_enterState_of_ne _ _ e, carrier_detachRoute_of_ne _ e] using h
  exhaustWaiting c h a := by
    by_cases e : c₀ = c
    · subst e; simp [State.flagRouteEnd, State.enterState, State.flagState]
    · simpa [State.flagRouteEnd, State.clearWait, carrier_modCarrier, e, carrier_enterState_of_ne _ _ e,
        carrier_detachRoute_of_ne _ e] using h
  setCst k x h _ := h
  enterHeld c e h a _ _ := by simpa using h
  moveCursorPast c x h a := by simpa using h
  grantPending c h a := by rw [state_modCarrier _ _ _ _ (by rfl)]; exact h
  giveUp c z h _ := by rw [carrier_setHolder, state_modCarrier _ _ _ _ (by rfl)]; exact h

/-- A carrier that is neither ADVANCING nor WAITING keeps its record through another's passes; releases of its own zones take their entries and no more. -/
theorem release_parked {s : State} {c : CarrierId} (a : ¬s.active c) (z : ZoneId) :
    (s.release c z).carrier c = { s.carrier c with held := (s.carrier c).held.filter (fun e => e.zone != z) } := by
  unfold State.release
  simp only
  have start : ((s.modCarrier c (fun r => { r with held := r.held.filter (fun e => e.zone != z) })).setHolder z none).carrier c
      = { s.carrier c with held := (s.carrier c).held.filter (fun e => e.zone != z) } := by simp
  generalize ((s.modCarrier c (fun r => { r with held := r.held.filter (fun e => e.zone != z) })).setHolder z none) = t at *
  have at' : ¬t.active c := by
    unfold State.active at a ⊢; rw [start]; exact a
  have u : (t.leaveZoneCorridor c z).1.carrier c = t.carrier c := by
    unfold State.leaveZoneCorridor
    split
    · rfl
    · split
      · rfl
      · rfl
  have keep : ∀ (v w : State), v.carrier c = t.carrier c → ParkedKept v w → w.carrier c = t.carrier c := by
    intro v w hv hw
    rw [← hv]
    refine hw c ?_
    unfold State.active at at' ⊢; rw [hv]; exact at'
  rw [← start]
  split
  · exact keep _ _ (by simpa using u) ((ParkedKept.closed _).wakeZone z _ (.refl _))
  · next k _ =>
    have v := keep _ _ u ((ParkedKept.closed _).wakeCorridor k (.refl _))
    exact keep _ _ (by simpa using v) ((ParkedKept.closed _).wakeZone z _ (.refl _))

theorem releaseAll_parked {s : State} {c : CarrierId} (a : ¬s.active c) (zs : List ZoneId) :
    (s.releaseAll c zs).carrier c
      = { s.carrier c with held := (s.carrier c).held.filter (fun e => !zs.contains e.zone) } := by
  unfold State.releaseAll
  induction zs generalizing s with
  | nil =>
    have : (s.carrier c).held.filter (fun e => !(([] : List ZoneId).contains e.zone)) = (s.carrier c).held := by simp
    rw [this]; rfl
  | cons z l ih =>
    have step : (if s.holds c z then s.release c z else s).carrier c
        = { s.carrier c with held := (s.carrier c).held.filter (fun e => e.zone != z) } := by
      split
      · exact release_parked a z
      · next g =>
        have : (s.carrier c).held.filter (fun e => e.zone != z) = (s.carrier c).held := by
          rw [List.filter_eq_self]
          intro e he
          simp only [State.holds, List.any_eq_true, not_exists, not_and] at g
          simpa using g e he
        rw [this]
    have a' : ¬(if s.holds c z then s.release c z else s).active c := by
      unfold State.active at a ⊢; rw [step]; exact a
    rw [List.foldl_cons, ih a', step]
    simp only [List.filter_filter, List.contains_cons, Bool.not_or, bne]
    congr 1
    apply List.filter_congr
    intro e _
    rw [Bool.and_comm]

/-! ## Composite operations -/

section
variable {P : State → Prop} (H : OutsideClosed P)
include H

theorem OutsideClosed.setMachine {s : State} (slot : MgmtSlot) (m : SlotMachine) (h : P s) : P (s.setMachine slot m) :=
  H.outside h (TablesSame.setMgmt ..)

theorem OutsideClosed.setWatch {s : State} (slot : MgmtSlot) (w : Watch) (h : P s) : P (s.setWatch slot w) :=
  H.outside h (TablesSame.setMgmt ..)

theorem OutsideClosed.noteTableWrite {s : State} (slot : MgmtSlot) (h : P s) : P (s.noteTableWrite slot) := by
  unfold State.noteTableWrite
  split
  · exact H.setMachine _ _ h
  all_goals exact h

theorem OutsideClosed.flagState {s : State} (c : CarrierId) (h : P s) : P (s.flagState c) :=
  H.touch c _ h (by constructor <;> intros <;> first | rfl | assumption)

theorem OutsideClosed.flagFault {s : State} (c : CarrierId) (h : P s) : P (s.flagFault c) :=
  H.touch c _ h (by constructor <;> intros <;> first | rfl | assumption)

theorem OutsideClosed.writeHoldEntry {s : State} (n : HoldName) (e : HoldEntry) (h : P s) : P (s.writeHoldEntry n e) := by
  unfold State.writeHoldEntry
  have k : P (s.setHoldEntry n e) := by
    cases n
    · exact H.outside h { TablesSame.refl s with }
    · exact H.outside h { TablesSame.refl s with }
  simp only
  split
  · exact k
  · exact H.outside k { TablesSame.refl _ with }

theorem OutsideClosed.writeLinkFlag {s : State} (x : Bool) (h : P s) : P (s.writeLinkFlag x) := by
  unfold State.writeLinkFlag
  simp only
  split
  · exact H.outside h { TablesSame.refl s with }
  · exact H.outside h { TablesSame.refl s with }

theorem OutsideClosed.capture {s : State} (c : CarrierId) (k : FaultKind) (h : P s) : P (s.captureFault c k) :=
  H.touch c _ h (by constructor <;> intros <;> first | rfl | assumption)

theorem OutsideClosed.feedHold {s : State} (n : HoldName) (c : CarrierId) (k : FaultKind) (h : P s) : P (s.feedHold n c k) :=
  H.writeHoldEntry n _ h

theorem OutsideClosed.applyPolicy {s : State} (c : CarrierId) (k : FaultKind) (h : P s) : P (s.applyPolicy c k) := by
  unfold State.applyPolicy
  split
  · exact h
  · exact H.feedHold _ _ _ h
  · split
    · exact H.feedHold _ _ _ h
    · exact H.feedHold _ _ _ h

theorem OutsideClosed.setMarker {s : State} (h : P s) : P s.setMarker := H.outside h { TablesSame.refl s with }

end

/-- A property kept for each carrier is kept over all of them. -/
theorem foldCarriers_keeps {P : State → Prop} (f : State → CarrierId → State) (hf : ∀ t c, P t → P (f t c)) {s : State} (h : P s) :
    P (allCarriers.foldl f s) := by
  generalize allCarriers = l
  induction l generalizing s with
  | nil => exact h
  | cons c l ih => exact ih (hf _ _ h)

theorem dequeueIf_state (s : State) (c d : CarrierId) :
    ((if (s.carrier c).state = .waiting then (s.leaveQueue c).clearWait c else s).carrier d).state = (s.carrier d).state := by
  split
  · unfold State.clearWait; rw [state_modCarrier _ _ _ _ (by rfl)]; simp
  · rfl

theorem clear_of_givable {s : State} {c : CarrierId} {z : ZoneId} (h : s.givable c z = true) : s.conflictsWithOther c z = false := by
  unfold State.givable at h
  simp only [Bool.and_eq_true, Bool.not_eq_true'] at h
  exact h.2

theorem holds_holder_none_of_givable {s : State} {c : CarrierId} {z : ZoneId} (h : s.givable c z = true) : s.holder z = none := by
  unfold State.givable at h
  simp only [Bool.and_eq_true, beq_iff_eq] at h
  exact h.1.2

theorem state_giveZone (s : State) (c : CarrierId) (z : ZoneId) (b : Bool) (d : CarrierId) :
    ((s.giveZone c z b).carrier d).state = (s.carrier d).state := by
  unfold State.giveZone
  simp only
  have k : ∀ t : State, ((t.joinZoneCorridor c z).carrier d).state = (t.carrier d).state := by
    intro t; unfold State.joinZoneCorridor; split <;> rfl
  rw [k, carrier_setHolder, state_modCarrier _ _ _ _ (by rfl)]

theorem state_freezeZone (s : State) (c : CarrierId) (z : ZoneId) (b : Bool) (d : CarrierId) :
    ((s.freezeZone c z b).carrier d).state = (s.carrier d).state := by
  unfold State.freezeZone
  split
  · exact state_modCarrier _ _ _ _ rfl
  · split
    · exact state_giveZone ..
    · rfl

theorem state_freezeRear (s : State) (c d : CarrierId) : ((s.freezeRear c).carrier d).state = (s.carrier d).state := by
  unfold State.freezeRear
  split
  · split
    · rfl
    · exact state_freezeZone ..
  · rfl

theorem state_freeze (s : State) (c d : CarrierId) : ((s.freeze c).carrier d).state = (s.carrier d).state := by
  unfold State.freeze State.freezeFront
  split
  · rw [state_freezeZone, state_freezeRear]
  · exact state_freezeRear ..

section
variable {P : State → Prop} (H : PartClosed P)
include H

theorem PartClosed.enterParked {s : State} (c : CarrierId) (x : CarrierState) (h : P s) (v : (s.carrier c).state ≠ .vacant)
    (k : x = .idle ∨ x = .faulted) : P (s.enterState c x) :=
  H.breakWatch c (H.flagState c (H.park c x h v k))

theorem PartClosed.enterAdvancing {s : State} (c : CarrierId) (h : P s) (v : (s.carrier c).state ≠ .vacant)
    (m : s.mode = .service) : P (s.enterState c .advancing) :=
  H.breakWatch c (H.flagState c (H.advance c h v m))

theorem PartClosed.takeRoute {s : State} (c : CarrierId) (r : RouteId) (i : HopIdx) (h : P s)
    (v : (s.carrier c).state ≠ .vacant) : P (s.takeRoute c r i) := by
  refine H.moveCursor c _ (H.dropUser c r h v) ?_
  rw [state_modCarrier _ _ _ _ (by rfl)]; simpa using v

theorem PartClosed.joinZoneCorridor {s : State} (c : CarrierId) (z : ZoneId) (h : P s) : P (s.joinZoneCorridor c z) := by
  unfold State.joinZoneCorridor
  split
  · exact h
  · exact H.setCst _ _ h (.join c)

theorem PartClosed.freezeZone {s : State} (c : CarrierId) (z : ZoneId) (b : Bool) (h : P s)
    (v : (s.carrier c).state ≠ .vacant) : P (s.freezeZone c z b) := by
  unfold State.freezeZone
  split
  · exact H.grantOne c z h
  · next g =>
    split
    · next k =>
      exact H.joinZoneCorridor c z (H.giveZone c z b h v
        (holds_holder_none_of_givable (by simp only [Bool.and_eq_true] at k; exact k.1)) (by simpa using g)
        (clear_of_givable (by simp only [Bool.and_eq_true] at k; exact k.1))
        (by simp only [Bool.and_eq_true, decide_eq_true_eq] at k; exact k.2))
    · exact h

theorem PartClosed.freeze {s : State} (c : CarrierId) (h : P s) (v : (s.carrier c).state ≠ .vacant) : P (s.freeze c) := by
  have k : P (s.freezeRear c) := by
    unfold State.freezeRear
    split
    · split
      · exact h
      · exact H.freezeZone c _ _ h v
    · exact h
  unfold State.freeze State.freezeFront
  split
  · exact H.freezeZone c _ _ k (by rw [state_freezeRear]; exact v)
  · exact k

theorem PartClosed.dequeueIf {s : State} (c : CarrierId) (h : P s) :
    P (if (s.carrier c).state = .waiting then (s.leaveQueue c).clearWait c else s) := by
  split
  · next e => exact H.dequeue c h e
  · exact h

theorem PartClosed.detachUndirect {s : State} (c : CarrierId) (h : P s) :
    P (if (s.carrier c).route.isSome then (s.detachRoute c).undirect c else s) := by
  split
  · exact H.undirect c (H.detach c h)
  · exact h

theorem PartClosed.firstFault {s : State} (c : CarrierId) (k : FaultKind) (h : P s) (v : (s.carrier c).state ≠ .vacant) :
    P (s.firstFault c k) := by
  unfold State.firstFault
  simp only
  have h1 := H.capture c k h
  have v1 : ((s.captureFault c k).carrier c).state ≠ .vacant := by
    unfold State.captureFault; rw [state_modCarrier _ _ _ _ (by rfl)]; exact v
  generalize s.captureFault c k = s1 at *
  have h2 := H.dequeueIf c h1
  have v2 : ((if (s1.carrier c).state = .waiting then (s1.leaveQueue c).clearWait c else s1).carrier c).state ≠ .vacant := by
    rw [dequeueIf_state]; exact v1
  generalize (if (s1.carrier c).state = .waiting then (s1.leaveQueue c).clearWait c else s1) = s2 at *
  have h3 := H.park c .faulted h2 v2 (Or.inr rfl)
  have v3 : ((s2.modCarrier c (fun r => { r with state := .faulted })).carrier c).state ≠ .vacant := by simp
  generalize s2.modCarrier c (fun r => { r with state := .faulted }) = s3 at *
  have hv4 : P (if k = .trespass then s3.freeze c else s3)
      ∧ ((if k = .trespass then s3.freeze c else s3).carrier c).state ≠ .vacant := by
    split
    · exact ⟨H.freeze c h3 v3, by rw [state_freeze]; exact v3⟩
    · exact ⟨h3, v3⟩
  generalize (if k = .trespass then s3.freeze c else s3) = s4 at *
  have K := H.toReleaseClosed.and (notVacant_closed c)
  have hv6 := K.releaseAll c ((s4.leaveClaim c).faultReleases c) (K.leaveClaim c hv4)
  generalize (s4.leaveClaim c).releaseAll c ((s4.leaveClaim c).faultReleases c) = s6 at *
  have h7 : P (if k = .trespass then (s6.freeze c).rearFirst c else s6) := by
    split
    · exact H.rearFirst c (H.freeze c hv6.1 hv6.2)
    · exact hv6.1
  generalize (if k = .trespass then (s6.freeze c).rearFirst c else s6) = s7 at *
  exact H.applyPolicy c k (H.flagFault c (H.flagState c (H.breakWatch c (H.detachUndirect c h7))))

/-! ### Carrier commands -/

theorem PartClosed.admitted {s : State} (c : CarrierId) (f r : ZoneId) (h : P s) (g : s.admitRefusal c f r = none) :
    P (s.enrol c f r) := by
  unfold State.enrol
  simp only
  exact H.breakWatch c (H.flagState c (H.setValidator c _ (H.enrol c f r h g) (Or.inl (Nat.zero_le _)) (Or.inl (Nat.zero_le _))))

theorem PartClosed.cancel {s : State} (c : CarrierId) (h : P s) (v : (s.carrier c).state ≠ .vacant) : P (s.cancel c) := by
  unfold State.cancel
  simp only
  have h1 := H.dequeueIf c h
  have v1 := dequeueIf_state s c c
  rw [← v1] at v
  generalize (if (s.carrier c).state = .waiting then (s.leaveQueue c).clearWait c else s) = s1 at *
  have h2 : P (if (s1.carrier c).state = .idle then s1 else s1.enterState c .idle) := by
    split
    · exact h1
    · exact H.enterParked c _ h1 v (Or.inl rfl)
  generalize (if (s1.carrier c).state = .idle then s1 else s1.enterState c .idle) = s2 at *
  exact H.releaseAll c _ (H.breakWatch c (H.detachUndirect c (H.leaveClaim c h2)))

theorem PartClosed.clearFaultOf {s : State} (c : CarrierId) (h : P s) (v : (s.carrier c).state ≠ .vacant) : P (s.clearFaultOf c) := by
  unfold State.clearFaultOf
  simp only
  have K := H.toReleaseClosed.and (notVacant_closed c)
  have fin : ∀ t, P t ∧ (t.carrier c).state ≠ .vacant → P ((t.modCarrier c (fun x => { x with fault := none })).enterState c .idle) := by
    intro t k
    refine H.enterParked c .idle (H.touch c _ k.1 ?_) ?_ (Or.inl rfl)
    · constructor <;> intros <;> first | rfl | assumption
    · rw [state_modCarrier _ _ _ _ (by rfl)]; exact k.2
  split
  · exact fin _ ⟨h, v⟩
  · exact fin _ (K.releaseAll c _ ⟨h, v⟩)

theorem PartClosed.retire {s : State} (c : CarrierId) (h : P s) (a : ¬s.active c) (r : (s.carrier c).route = none) : P (s.retire c) := by
  unfold State.retire
  have k := H.releaseAll c ((s.carrier c).held.map (·.zone)) h
  have e := releaseAll_parked a ((s.carrier c).held.map (·.zone))
  generalize s.releaseAll c ((s.carrier c).held.map (·.zone)) = t at *
  have empty : (s.carrier c).held.filter (fun e => !((s.carrier c).held.map (·.zone)).contains e.zone) = [] := by
    rw [List.filter_eq_nil_iff]
    intro x hx
    simp only [Bool.not_eq_true', Bool.not_eq_false]
    simp only [List.contains_eq_mem, List.mem_map, decide_eq_true_eq]
    exact ⟨x, hx, rfl⟩
  rw [empty] at e
  have m : P (t.modCarrier c (fun x => { x with fault := none })) :=
    H.touch c _ k (by constructor <;> intros <;> first | rfl | assumption)
  refine H.breakWatch c (H.flagState c (H.vacate c m ?_ ?_))
  · simp [e]
  · simp [e, r]

theorem PartClosed.replace {s : State} (c : CarrierId) (r : RouteId) (i : HopIdx) (h : P s)
    (v : (s.carrier c).state ≠ .vacant) (m : s.mode = .service) : P (s.replace c r i) := by
  unfold State.replace
  simp only
  have modeClosed : ReleaseClosed (fun t => EngineFrame s t) := EngineFrame.closed s
  have K := (H.toReleaseClosed.and (notVacant_closed c)).and modeClosed
  have h1 := H.dequeueIf c h
  have v1 := dequeueIf_state s c c
  have f1 : EngineFrame s (if (s.carrier c).state = .waiting then (s.leaveQueue c).clearWait c else s) := by
    split
    · exact (EngineFrame.leaveQueue ..).trans (EngineFrame.clearWait ..)
    · exact .refl s
  rw [← v1] at v
  generalize (if (s.carrier c).state = .waiting then (s.leaveQueue c).clearWait c else s) = s1 at *
  have h2 := K.leaveClaim c ⟨⟨h1, v⟩, f1⟩
  generalize s1.leaveClaim c = s2 at *
  have h3 := H.takeRoute c r i h2.1.1 h2.1.2
  have v3 : ((s2.takeRoute c r i).carrier c).state ≠ .vacant := by
    unfold State.takeRoute
    rw [state_moveCursorPast, state_modCarrier _ _ _ _ (by rfl)]
    simpa using h2.1.2
  have m3 : EngineFrame s (s2.takeRoute c r i) := h2.2.trans (EngineFrame.takeRoute ..)
  have h4 := K.undirect c ⟨⟨h3, v3⟩, m3⟩
  generalize (s2.takeRoute c r i).undirect c = s3 at *
  have h5 : P (if (s3.carrier c).state = .advancing then s3 else s3.enterState c .advancing) := by
    split
    · exact h4.1.1
    · exact H.enterAdvancing c h4.1.1 h4.1.2 (by rw [h4.2.mode]; exact m)
  exact H.runPass c (H.breakWatch c h5)

/-! ### Tables -/

theorem PartClosed.writeHopsAt {s : State} (n : Nat) (l : List Hop) (h : P s) : P (s.writeHopsAt n l) := by
  induction l generalizing s n with
  | nil => exact h
  | cons x l ih => exact ih _ (H.setHop _ x h)

end

end Sys2Proof.Machine
end

