-- ==== Sys2Proof/Laws/Windows.lean ====
section
/-! SUPPORT. The rights engine's passes as a closure over whole operations, for the carriers that the queues name: what `EngineClosed` says of elementary changes, `PassClosed` says of a pass's grants, waits and ends, so that a property that fails between two elementary changes, or of one carrier while its command is carried out, can still be followed. -/

namespace Sys2Proof.Machine

/-- Every carrier that stands in a wait queue is one of some (R8, R32, R80). -/
def State.queuedAre (s : State) (A : CarrierId → Prop) : Prop :=
  (∀ z, ∀ w ∈ (s.zst z).queue, A w.slot) ∧ (∀ k, ∀ w ∈ (s.cst k).queue, A w.slot) ∧ ∀ w ∈ s.holdWait, A w.slot

/-- The route of a carrier ends: the change of its exhaustion before its corridor entries become UNDIRECTED (R76 step 1). -/
def State.routeEnds (s : State) (c : CarrierId) : State :=
  (((if (s.carrier c).state = .waiting then (s.leaveQueue c).clearWait c else s).detachRoute c).enterState c .idle).flagRouteEnd c

/-- A property that the passes of some carriers keep, in which only they stand in the queues. -/
structure PassClosed (A : CarrierId → Prop) (P : State → Prop) : Prop where
  queued : ∀ {s}, P s → s.queuedAre A
  breakWatch : ∀ {s} c, P s → P (s.breakWatch c)
  waitOn : ∀ {s} c w d, P s → A c → s.active c → w ≠ .none → P (s.waitOn c w d)
  settle : ∀ {s} c, P s → A c → P (s.settle c)
  endPass : ∀ {s} c, P s → A c → P (s.endPass c)
  routeEnds : ∀ {s} c, P s → A c → s.active c → P (s.routeEnds c)
  undirectAll : ∀ {s} c, P s → P (s.undirectAll c).1
  grantSet : ∀ {s} c, P s → A c → s.active c → s.mode = .service → (s.carrier c).cursor ≠ .atEnd →
    (∀ x ∈ s.nextSet c, s.testZone c (s.nextSet c) x = none) → (∀ x ∈ s.nextSet c, s.holds c (s.hopZone x.hop) = false) →
    (s.carrier c).held.length + (s.nextSet c).length ≤ 12 → P (s.grantSet c (s.nextSet c))
  pendHold : ∀ {s} c x, P s → A c → s.active c → s.mode = .service → s.pinToken = some c → x ∈ s.nextSet c →
    s.testZone c (s.nextSet c) x = none → s.holds c (s.hopZone x.hop) = false → (s.carrier c).held.length < 12 →
    P (s.pendHold c (s.nextSet c) x)
  wholeSet : ∀ {s} c, P s → A c → s.active c → s.mode = .service → s.pinToken = some c → (s.carrier c).cursor ≠ .atEnd →
    P (s.wholeSet c (s.nextSet c))

/-- A property that the releases of any carrier keep as well. -/
structure LeaveClosed (A : CarrierId → Prop) (P : State → Prop) : Prop extends PassClosed A P where
  giveUp : ∀ {s} c z, P s → s.holds c z = true →
    P (((s.modCarrier c (fun r => { r with held := r.held.filter (fun e => e.zone != z) })).setHolder z none).leaveZoneCorridor c z).1

/-! ## Elementary properties are such -/

/-- The changes of the engine keep the mode. -/
theorem mode_closed (m : Mode) : EngineClosed (fun s => s.mode = m) where
  breakWatch c h := h
  freeToken h := h
  takeToken c h _ := h
  join c w d h _ := ((((EngineFrame.joinQueue ..).trans (EngineFrame.startWait ..)).trans (EngineFrame.flagWait ..)).trans
    (EngineFrame.enterState ..)).mode.trans h
  rejoin c w d h _ := (((((EngineFrame.leaveQueue ..).trans (EngineFrame.joinQueue ..)).trans (EngineFrame.setWait ..)).trans
    (EngineFrame.flagWait ..)).trans (EngineFrame.breakWatch ..)).mode.trans h
  recordDeadlock d h := h
  settle c h _ := (((EngineFrame.leaveQueue ..).trans (EngineFrame.clearWait ..)).trans (EngineFrame.enterState ..)).mode.trans h
  exhaustAdvancing c h _ :=
    (((EngineFrame.detachRoute ..).trans (EngineFrame.enterState ..)).trans (EngineFrame.flagRouteEnd ..)).mode.trans h
  exhaustWaiting c h _ := (((((EngineFrame.leaveQueue ..).trans (EngineFrame.clearWait ..)).trans (EngineFrame.detachRoute ..)).trans
    (EngineFrame.enterState ..)).trans (EngineFrame.flagRouteEnd ..)).mode.trans h
  setCst k x h _ := h
  enterHeld c e h _ _ _ := (EngineFrame.enterHeld ..).mode.trans h
  moveCursorPast c x h _ := (EngineFrame.moveCursorPast ..).mode.trans h
  grantPending c h _ := h

/-- A property that each elementary change of the engine keeps is kept by the passes of all carriers. -/
theorem EngineClosed.pass {P : State → Prop} (H : EngineClosed P) : PassClosed (fun _ => True) P where
  queued _ := ⟨fun _ _ _ => trivial, fun _ _ _ => trivial, fun _ _ => trivial⟩
  breakWatch := H.breakWatch
  waitOn c w d h _ _ _ := H.waitOn c w d h
  settle c h _ := H.settleIf c h
  endPass c h _ := H.endPass c h
  routeEnds {s} c h _ a := by
    unfold State.routeEnds
    split
    · next e => exact H.exhaustWaiting c h e
    · next e =>
      rcases a with a | a
      · exact H.exhaustAdvancing c h a
      · exact absurd a e
  undirectAll := H.undirectAll
  grantSet c h _ a _ _ t _ r := (H.grantSet c _ h a t r).1
  pendHold c x h _ a _ _ _ t _ r := (H.pendHold c _ x h a t r).1
  wholeSet c h _ a _ _ _ := (H.wholeSet c _ h a).1

theorem ReleaseClosed.leave {P : State → Prop} (H : ReleaseClosed P) : LeaveClosed (fun _ => True) P where
  toPassClosed := H.toEngineClosed.pass
  giveUp {s} c z h g := by
    have k := H.giveUp c z h g
    unfold State.leaveZoneCorridor
    split
    · exact k
    · split
      · exact k
      · exact H.setCst _ _ k (.leave c)

/-! ## What a pass leaves for its next set -/

theorem true_closed : EngineClosed (fun _ => True) := by constructor <;> intros <;> trivial

theorem readFrom_congr {s t : State} (h : ∀ p, t.nextPlace p = s.nextPlace p) (n : Nat) (p : Option ReadPlace) :
    t.readFrom n p = s.readFrom n p := by
  induction n generalizing p with
  | zero => rfl
  | succ n ih =>
    cases p with
    | none => rfl
    | some p => rw [State.readFrom, State.readFrom, h, ih]

theorem takeSet_congr {s t : State} (h : t.zones = s.zones) (k : t.hops = s.hops) (l : List HopRef) : t.takeSet l = s.takeSet l := by
  induction l with
  | nil => rfl
  | cons x l ih =>
    unfold State.takeSet State.noStop State.zone State.hopZone State.hop
    rw [h, k, ih]

/-- The next set of a carrier reads the routes, the hops, the zones and its own place. -/
theorem nextSet_congr {s t : State} {c : CarrierId} (z : t.zones = s.zones) (r : t.routes = s.routes) (k : t.hops = s.hops)
    (p : (t.carrier c).route = (s.carrier c).route ∧ (t.carrier c).cursor = (s.carrier c).cursor ∧ (t.carrier c).laps = (s.carrier c).laps) :
    t.nextSet c = s.nextSet c := by
  have n : ∀ p, t.nextPlace p = s.nextPlace p := by
    intro p
    unfold State.nextPlace State.seamPlace State.route
    rw [r]
  have cp : t.cursorPlace c = s.cursorPlace c := by unfold State.cursorPlace; rw [p.1, p.2.1, p.2.2]
  unfold State.nextSet State.routeAhead
  rw [takeSet_congr z k, readFrom_congr n, cp]

theorem routes_recomputeBinding (s : State) (b : Option RequestBinding) : (s.recomputeBinding b).routes = s.routes := by
  cases b <;> rfl

theorem routes_enterHeld (s : State) (c : CarrierId) (e : HeldEntry) : (s.enterHeld c e).routes = s.routes := by
  unfold State.enterHeld State.setHolder State.recomputeOutput
  rw [routes_recomputeBinding]; rfl

theorem token_recomputeBinding (s : State) (b : Option RequestBinding) : (s.recomputeBinding b).pinToken = s.pinToken := by
  cases b <;> rfl

theorem token_enterHeld (s : State) (c : CarrierId) (e : HeldEntry) : (s.enterHeld c e).pinToken = s.pinToken := by
  unfold State.enterHeld State.setHolder State.recomputeOutput
  rw [token_recomputeBinding]; rfl

/-- What a zone taken PENDING leaves: the place of the carrier, its next set, the token and the mode, and the rest of its record but for the entry that joins its held list (R91). -/
theorem pendHold_leaves (s : State) (c : CarrierId) (set : List HopRef) (x : HopRef) :
    (s.pendHold c set x).carrier c = { s.carrier c with held := (s.carrier c).held ++ [⟨s.hopZone x.hop, .pending, some x⟩] } ∧
    (s.pendHold c set x).nextSet c = s.nextSet c ∧ (s.pendHold c set x).pinToken = s.pinToken ∧ (s.pendHold c set x).mode = s.mode := by
  have cc : (s.enterHeld c ⟨s.hopZone x.hop, .pending, some x⟩).carrier c
      = { s.carrier c with held := (s.carrier c).held ++ [⟨s.hopZone x.hop, .pending, some x⟩] } := by
    unfold State.enterHeld; rw [carrier_setHolder, carrier_modCarrier_self]
  have key : ∃ t : State, (s.pendHold c set x) = t.breakWatch c ∧ t.carriers = (s.enterHeld c ⟨s.hopZone x.hop, .pending, some x⟩).carriers ∧
      t.zones = s.zones ∧ t.routes = s.routes ∧ t.hops = s.hops ∧ t.pinToken = s.pinToken ∧ t.mode = s.mode := by
    have z : (s.enterHeld c ⟨s.hopZone x.hop, .pending, some x⟩).zones = s.zones := (EngineFrame.enterHeld ..).zones
    have h : (s.enterHeld c ⟨s.hopZone x.hop, .pending, some x⟩).hops = s.hops := (EngineFrame.enterHeld ..).hops
    have m : (s.enterHeld c ⟨s.hopZone x.hop, .pending, some x⟩).mode = s.mode := (EngineFrame.enterHeld ..).mode
    unfold State.pendHold
    simp only
    split
    · exact ⟨_, rfl, rfl, z, routes_enterHeld .., h, token_enterHeld .., m⟩
    · exact ⟨_, rfl, rfl, z, routes_enterHeld .., h, token_enterHeld .., m⟩
  obtain ⟨t, e, ca, z, r, h, p, m⟩ := key
  have ct : (t.breakWatch c).carrier c = { s.carrier c with held := (s.carrier c).held ++ [⟨s.hopZone x.hop, .pending, some x⟩] } := by
    rw [← cc]; exact carrier_of_carriers ca c
  rw [e]
  refine ⟨ct, nextSet_congr (c := c) z r h ?_, p, m⟩
  rw [ct]; exact ⟨rfl, rfl, rfl⟩

/-! ## The passes -/

section
variable {A : CarrierId → Prop} {P : State → Prop} (H : PassClosed A P)
include H

theorem PassClosed.wakeFold {ε : Type} {exam : CarrierId → State → State} (he : ∀ c s, P s → A c → P (exam c s))
    (slot : ε → CarrierId) (stands : State → ε → Bool) (l : List ε) (hl : ∀ w ∈ l, A (slot w)) {s : State} (h : P s) :
    P (l.foldl (fun t w => if stands t w then exam (slot w) t else t) s) := by
  induction l generalizing s with
  | nil => exact h
  | cons w l ih =>
    refine ih (fun x hx => hl x (by simp [hx])) ?_
    dsimp only
    split
    · exact he _ _ h (hl w (by simp))
    · exact h

theorem PassClosed.wakeCorridorWith {exam : CarrierId → State → State} (he : ∀ c s, P s → A c → P (exam c s)) {s : State}
    (k : CorridorId) (h : P s) : P (s.wakeCorridorWith exam k) :=
  H.wakeFold he (fun w : CorridorWaiter => w.slot) (fun t w => (t.cst k).queue.any (fun x => x.ticket == w.ticket)) _
    ((H.queued h).2.1 k) h

theorem PassClosed.undirectWith {exam : CarrierId → State → State} (he : ∀ c s, P s → A c → P (exam c s)) {s : State}
    (c : CarrierId) (h : P s) : P (s.undirectWith exam c) := by
  unfold State.undirectWith
  generalize (s.undirectAll c).2 = l
  have h := H.undirectAll c h
  generalize (s.undirectAll c).1 = t at h
  induction l generalizing t with
  | nil => exact h
  | cons k l ih => exact ih _ (H.wakeCorridorWith he k h)

theorem PassClosed.exhaustWith {exam : CarrierId → State → State} (he : ∀ c s, P s → A c → P (exam c s)) {s : State}
    (c : CarrierId) (h : P s) (a : s.active c) (ac : A c) : P (s.exhaustWith exam c) :=
  H.undirectWith he c (H.routeEnds c h ac a)

/-- The token holder's taking of its set, with what the pass that goes on from it needs. -/
theorem PassClosed.takePending (c : CarrierId) (rest : List HopRef) {s : State} (h : P s) (ac : A c) (a : s.active c)
    (m : s.mode = .service) (p : s.pinToken = some c) (sub : ∀ x ∈ rest, x ∈ s.nextSet c)
    (fresh : ∀ x ∈ rest, s.holdsPending c (s.hopZone x.hop) = false → s.holds c (s.hopZone x.hop) = false)
    (room : (s.carrier c).held.length + (s.leftOfSet c rest).length ≤ 12) :
    ∃ t, (s.takePending c (s.nextSet c) rest).1 = t ∧ P t ∧ t.active c ∧ t.mode = .service ∧ t.pinToken = some c ∧
      t.nextSet c = s.nextSet c ∧ (t.carrier c).cursor = (s.carrier c).cursor := by
  refine ⟨_, rfl, ?_⟩
  induction rest generalizing s with
  | nil => exact ⟨h, a, m, p, rfl, rfl⟩
  | cons x l ih =>
    unfold State.takePending
    split
    · next q =>
      exact ih h a m p (fun y hy => sub y (by simp [hy])) (fun y hy => fresh y (by simp [hy])) (by rwa [leftOfSet_cons, if_pos q] at room)
    · next q =>
      rw [leftOfSet_cons, if_neg q, List.length_cons] at room
      split
      · exact ⟨h, a, m, p, rfl, rfl⟩
      · next g =>
        have k := H.pendHold c x h ac a m p (sub x (by simp)) g (fresh x (by simp) (by simpa using q)) (by omega)
        obtain ⟨ca, ns, tk, mo⟩ := pendHold_leaves s c (s.nextSet c) x
        have hz : ∀ i, (s.pendHold c (s.nextSet c) x).hopZone i = s.hopZone i := hopZone_pendHold s c (s.nextSet c) x
        have le := leftOfSet_pendHold s c (s.nextSet c) x l
        have := ih k ((active_congr (by rw [ca])).2 a) (by rw [mo]; exact m) (by rw [tk]; exact p)
          (fun y hy => by rw [ns]; exact sub y (by simp [hy]))
          (fun y hy np => by
            have old : s.holdsPending c (s.hopZone y.hop) = false := by
              unfold State.holdsPending at np ⊢
              rw [hz, ca, List.any_append] at np
              simp only [Bool.or_eq_false_iff] at np
              exact np.1
            have := fresh y (by simp [hy]) old
            rw [hz] at np ⊢
            unfold State.holds State.holdsPending at *
            rw [ca] at np ⊢
            rw [List.any_append, Bool.or_eq_false_iff] at np ⊢
            refine ⟨this, ?_⟩
            simpa using np.2)
          (by rw [ca]; simp only [List.length_append, List.length_singleton]; omega)
        rw [ns] at this
        obtain ⟨b, d, e, f, g', i⟩ := this
        exact ⟨b, d, e, f, g', by rw [i, ca]⟩

theorem PassClosed.claimLoop {exam : CarrierId → State → State} (he : ∀ c s, P s → A c → P (exam c s)) (n : Nat) (c : CarrierId)
    {s : State} (h : P s) (ac : A c) (a : s.active c) (m : s.mode = .service) : P (claimLoop exam n c s) := by
  induction n generalizing s with
  | zero => exact h
  | succ n ih =>
    have wait : ∀ {x : HopRef} {t : State} {w}, t.testZone c (s.nextSet c) x = some w → w ≠ .none := by
      intro x t w e q
      subst q
      unfold State.testZone at e
      simp only at e
      repeat' split at e
      all_goals cases e
    have pinned (ne : (s.carrier c).cursor ≠ .atEnd) (p : s.pinToken = some c)
        (fresh : ∀ x ∈ s.nextSet c, s.holdsPending c (s.hopZone x.hop) = false → s.holds c (s.hopZone x.hop) = false)
        (room : (s.carrier c).held.length + (s.leftOfSet c (s.nextSet c)).length ≤ 12) :
        P (match s.takePending c (s.nextSet c) (s.nextSet c) with
          | (t, some w) => t.waitOn c w (s.waitDirection c (s.nextSet c) w)
          | (t, none) => Machine.claimLoop exam n c (t.wholeSet c (s.nextSet c))) := by
      have some_ne : ∀ (rest : List HopRef) (u : State) t w, u.takePending c (s.nextSet c) rest = (t, some w) → w ≠ .none := by
        intro rest
        induction rest with
        | nil => intro u t w e; cases e
        | cons x l ihl =>
          intro u t w e
          unfold State.takePending at e
          split at e
          · exact ihl _ _ _ e
          · split at e
            · next g => cases e; exact wait g
            · exact ihl _ _ _ e
      obtain ⟨t, et, k, at', mt, pt, ns, cu⟩ := H.takePending c (s.nextSet c) h ac a m p (fun _ hx => hx) fresh room
      generalize hq : s.takePending c (s.nextSet c) (s.nextSet c) = q at et ⊢
      obtain ⟨u, w⟩ := q
      simp only at et
      subst et
      cases w with
      | some w => exact H.waitOn c w _ k ac at' (some_ne _ _ _ _ hq)
      | none =>
        have nt : (u.carrier c).cursor ≠ .atEnd := by rw [cu]; exact ne
        have j := H.wholeSet c k ac at' mt pt nt
        rw [ns] at j
        exact ih j (true_closed.wholeSet c _ trivial at').2 ((mode_closed .service).wholeSet c _ mt at').1
    unfold Machine.claimLoop
    simp only
    split
    · exact H.exhaustWith he c h a ac
    · next ne =>
      split
      · next q =>
        split
        · exact H.settle c h ac
        · next o =>
          have o : s.outgrown c (s.nextSet c) = false := by simpa using o
          refine pinned ne q.1 (fun x hx np => ?_) (room_of_not_outgrown o)
          unfold State.outgrown State.leftOfSet at o
          simp only [Bool.or_eq_false_iff, List.any_eq_false] at o
          have := o.1 x (List.mem_filter.2 ⟨hx, by simp [np]⟩)
          simpa using this
      · split
        · exact H.settle c h ac
        · split
          · exact H.settle c h ac
          · next o =>
            simp only [Bool.or_eq_true, decide_eq_true_eq, not_or, List.any_eq_true, not_exists, not_and] at o
            have no : ∀ x ∈ s.nextSet c, s.holds c (s.hopZone x.hop) = false := fun x hx => by simpa using o.1.2 x hx
            have room : (s.carrier c).held.length + (s.nextSet c).length ≤ 12 := by omega
            split
            · next p =>
              have := List.length_filter_le (fun x => !s.holdsPending c (s.hopZone x.hop)) (s.nextSet c)
              exact pinned ne p (fun x hx _ => no x hx) (by unfold State.leftOfSet; omega)
            · split
              · next w e =>
                obtain ⟨x, -, hx⟩ := List.exists_of_findSome?_eq_some e
                exact H.waitOn c w _ h ac a (wait hx)
              · next g =>
                have t : ∀ x ∈ s.nextSet c, s.testZone c (s.nextSet c) x = none := by simpa [List.findSome?_eq_none_iff] using g
                exact ih (H.grantSet c h ac a m ne t no room) (true_closed.grantSet c _ trivial a t room).2
                  ((mode_closed .service).grantSet c _ m a t room).1

omit H in
theorem service_of_passAllowed {s : State} {c : CarrierId} (h : s.passAllowed c = true) : s.mode = .service := by
  unfold State.passAllowed at h
  simp only [Bool.and_eq_true, beq_iff_eq] at h
  exact h.1.1.2

theorem PassClosed.examineWith {pass : CarrierId → State → State}
    (hp : ∀ c s, P s → A c → s.active c → s.mode = .service → P (pass c s)) (c : CarrierId) {s : State} (h : P s) (ac : A c) :
    P (examineWith pass c s) := by
  unfold Machine.examineWith
  split
  · next g => exact hp c s h ac (active_of_passAllowed g) (service_of_passAllowed g)
  · exact H.endPass c (H.settle c h ac) ac

theorem PassClosed.claimPass (n : Nat) (c : CarrierId) {s : State} (h : P s) (ac : A c) (a : s.active c) (m : s.mode = .service) :
    P (claimPass n c s) := by
  induction n generalizing c s with
  | zero => exact h
  | succ n ih =>
    exact H.endPass c (H.claimLoop (fun d t ht ad => H.examineWith (fun c s hs ac as ms => ih c hs ac as ms) d ht ad) 16 c h ac a m) ac

theorem PassClosed.examine (c : CarrierId) {s : State} (h : P s) (ac : A c) : P (examine c s) :=
  H.examineWith (fun c _ hs ac as ms => H.claimPass nestBound c hs ac as ms) c h ac

theorem PassClosed.runPass (c : CarrierId) {s : State} (h : P s) (ac : A c) : P (s.runPass c) := by
  unfold State.runPass
  split
  · next g => exact H.claimPass nestBound c h ac (active_of_passAllowed g) (service_of_passAllowed g)
  · exact h

theorem PassClosed.wakeZone {s : State} (z : ZoneId) (causes : List ZoneCause) (h : P s) : P (s.wakeZone z causes) :=
  H.wakeFold (fun c _ hs ac => H.examine c hs ac) (fun w : ZoneWaiter => w.slot)
    (fun t w => (t.zst z).queue.any (fun x => x.ticket == w.ticket)) _
    (fun w hw => (H.queued h).1 z w (List.mem_filter.1 hw).1) h

theorem PassClosed.wakeCorridor {s : State} (k : CorridorId) (h : P s) : P (s.wakeCorridor k) :=
  H.wakeCorridorWith (fun c _ hs ac => H.examine c hs ac) k h

theorem PassClosed.wakeHold {s : State} (h : P s) : P (s.holdWait.foldl
    (fun t w => if t.holdWait.any (fun x => x.ticket == w.ticket) then Machine.examine w.slot t else t) s) :=
  H.wakeFold (fun c _ hs ac => H.examine c hs ac) (fun w : HoldWaiter => w.slot)
    (fun t w => t.holdWait.any (fun x => x.ticket == w.ticket)) _ (H.queued h).2.2 h

theorem PassClosed.undirect {s : State} (c : CarrierId) (h : P s) : P (s.undirect c) :=
  H.undirectWith (fun c _ hs ac => H.examine c hs ac) c h

end

section
variable {A : CarrierId → Prop} {P : State → Prop} (H : LeaveClosed A P)
include H

theorem LeaveClosed.release {s : State} (c : CarrierId) (z : ZoneId) (h : P s) (g : s.holds c z = true) : P (s.release c z) := by
  unfold State.release
  simp only
  refine H.wakeZone z _ (H.breakWatch c ?_)
  have u := H.giveUp c z h g
  split
  · exact u
  · exact H.wakeCorridor _ u

theorem LeaveClosed.releaseAll {s : State} (c : CarrierId) (zs : List ZoneId) (h : P s) : P (s.releaseAll c zs) := by
  unfold State.releaseAll
  induction zs generalizing s with
  | nil => exact h
  | cons z l ih =>
    refine ih ?_
    dsimp only
    split
    · next g => exact H.release c z h g
    · exact h

end

end Sys2Proof.Machine
end

