-- ==== Sys2Proof/Laws/Steps.lean ====
section
/-! SUPPORT. The whole part as a closure over whole operations: what `PartClosed` says of elementary changes, `StepClosed` says of a command's or an event's operations, so that a property that fails inside one of them can still be carried through every step. -/

namespace Sys2Proof.Machine

/-- A property of states that each of the part's operations keeps. -/
structure StepClosed (P : State → Prop) : Prop extends LeaveClosed (fun _ => True) P, OutsideClosed P where
  takeToken : ∀ {s} c, P s → s.pinToken = none → s.tokenCandidate c = true → P { s with pinToken := some c }
  setValidator : ∀ {s} c x, P s → (x.instability ≤ 8 ∨ x.instability ≤ (s.validator c).instability) →
    (x.silence ≤ s.silenceLimit ∨ x.silence ≤ (s.validator c).silence) → P (s.setValidator c x)
  setReport : ∀ {s} c r, P s → P ((s.modCarrier c (fun x => { x with report := x.report.replaced r })).recomputeHeld c)
  firstFault : ∀ {s} c k, P s → (s.carrier c).state ≠ .vacant → (s.carrier c).state ≠ .faulted → P (s.firstFault c k)
  enrol : ∀ {s} c f r, P s → s.admitRefusal c f r = none → P (s.enrol c f r)
  assign : ∀ {s} c r, P s → s.mode = .service → (s.carrier c).state = .idle → (s.route r).defined = true →
    P ((s.takeRoute c r (s.route r).firstHop).enterState c .advancing)
  cancel : ∀ {s} c, P s → (s.carrier c).state ≠ .vacant → (s.carrier c).state ≠ .faulted → P (s.cancel c)
  clearFaultOf : ∀ {s} c, P s → (s.carrier c).state = .faulted → P (s.clearFaultOf c)
  retire : ∀ {s} c, P s → ¬s.active c → (s.carrier c).state ≠ .vacant → (s.carrier c).route = none → P (s.retire c)
  replace : ∀ {s} c r h, P s → s.mode = .service → (s.carrier c).state ≠ .vacant → (s.carrier c).state ≠ .faulted →
    (s.route r).defined = true → (s.route r).inRange h = true → P (s.replace c r h)
  layZone : ∀ {s} slot w z new, P s → s.mayWriteZone slot w z new → s.zoneRouteCheck (s.setZone z new) z = none →
    P ((s.noteTableWrite slot).layZone z new)
  addPair : ∀ {s} x y, P s → x ≠ y → y ∉ (s.zone x).conflicts → (s.zone x).conflicts.length < 4 →
    (s.zone y).conflicts.length < 4 → s.heldApart x y = false → P (s.addPair x y)
  removePair : ∀ {s} x y, P s → x ≠ y → P (s.removePair x y)
  setCorridor : ∀ {s} k d q, P s → 1 ≤ q → q ≤ 15 → P ((s.setCorridor k ⟨d, q⟩).setCst k ((s.cst k).requota q))
  setRoute : ∀ {s} r w x, P s → (s.route r).users = 0 → routeWriteRecord w (s.route r).users = some x →
    (s.mode = .service → s.writeRouteCheck r x = none) → P (s.setRoute r x)
  setHops : ∀ {s} n l, P s → 1 ≤ l.length → n + l.length ≤ 2048 →
    (s.mode = .service → (s.writeHopsAt n l).writeHopsCheck n l.length = none) → P (s.writeHopsAt n l)
  fieldsFollow : ∀ {s} read, P s → P (s.fieldsFollow (s.filterInputs read))
  clearReached : ∀ {s} f i, P s → P (s.fieldsFollow (s.setInput f i ((s.input f i).take s.clearPersistence true)))
  setParameters : ∀ {s} a b c, P s → 4 ≤ a → a ≤ 255 → 1 ≤ b → b ≤ 255 → 40 ≤ c → c ≤ 2000 →
    P { s with silenceLimit := a, clearPersistence := b, starvationLimit := c }
  toService : ∀ {s}, P s → s.audit = none → P { s with mode := .service }
  toSafe : ∀ {s}, P s → (∀ c, ¬s.active c) → P { s with mode := .safe }
  restart : ∀ {s} x, P s → P (s.restart x)
  powerOn : ∀ {s} x, P s → P (s.powerOn x)

/-- A property that each elementary change of the part keeps is kept by its operations. -/
theorem PartClosed.toStep {P : State → Prop} (H : PartClosed P) : StepClosed P where
  toLeaveClosed := H.toReleaseClosed.leave
  toOutsideClosed := H.toOutsideClosed
  takeToken c h _ t := H.takeToken c h (by
    unfold State.tokenCandidate at t
    simp only [Bool.and_eq_true, beq_iff_eq] at t
    exact Or.inr t.1.1.1)
  setValidator := H.setValidator
  setReport := H.setReport
  firstFault c k h v _ := H.firstFault c k h v
  enrol c f r h g := H.admitted c f r h g
  assign {s} c r h m i _ := by
    have v : (s.carrier c).state ≠ .vacant := by rw [i]; decide
    have v' : ((s.takeRoute c r (s.route r).firstHop).carrier c).state ≠ .vacant := by
      unfold State.takeRoute
      rw [state_moveCursorPast, state_modCarrier _ _ _ _ (by rfl)]
      simpa using v
    exact H.enterAdvancing c (H.takeRoute c r _ h v) v' ((EngineFrame.takeRoute s c r _).mode.trans m)
  cancel c h v _ := H.cancel c h v
  clearFaultOf c h f := H.clearFaultOf c h (by rw [f]; decide)
  retire c h a _ r := H.retire c h a r
  replace c r i h m v _ _ _ := H.replace c r i h v m
  layZone slot w z new h g _ := H.layZone slot w z new h g
  addPair := H.addPair
  removePair := H.removePair
  setCorridor := H.setCorridor
  setRoute r w x h u e _ := H.setRoute r w x h u e
  setHops n l h _ _ _ := H.writeHopsAt n l h
  fieldsFollow := H.fieldsFollow
  clearReached := H.clearReached
  setParameters := H.setParameters
  toService := H.toService
  toSafe := H.toSafe
  restart := H.restart
  powerOn := H.powerOn

/-! ## Passes -/

section
variable {P : State → Prop} (H : StepClosed P)
include H

theorem StepClosed.runPass {s : State} (c : CarrierId) (h : P s) : P (s.runPass c) := H.toPassClosed.runPass c h trivial

theorem StepClosed.examine {s : State} (c : CarrierId) (h : P s) : P (examine c s) := H.toPassClosed.examine c h trivial

theorem StepClosed.runPassIfAdvancing {s : State} (c : CarrierId) (h : P s) : P (s.runPassIfAdvancing c) := by
  unfold State.runPassIfAdvancing
  split
  · exact H.runPass c h
  · exact h

theorem StepClosed.claimAll {s : State} (h : P s) : P s.claimAll :=
  foldCarriers_keeps State.runPassIfAdvancing (fun _ c ht => H.runPassIfAdvancing c ht) h

theorem StepClosed.holdLifted {s : State} (h : P s) : P s.holdLifted := H.claimAll (H.wakeHold h)

theorem StepClosed.fieldWake {s : State} (z : ZoneId) (h : P s) : P (s.fieldWake z) := H.wakeZone z _ h

omit H in
/-- The carrier that the pin token is given to is a candidate (R90). -/
theorem tokenChoice_candidate {s : State} {c : CarrierId} (h : s.tokenChoice = some c) : s.tokenCandidate c = true := by
  unfold State.tokenChoice at h
  have mem : ∀ (l : List CarrierId) (b : Option CarrierId), (∀ c, b = some c → s.tokenCandidate c = true) →
      ∀ c, (l.foldl (fun best c => if s.tokenCandidate c then
        match best with
        | none => some c
        | some b => if (s.carrier b).waitAge < (s.carrier c).waitAge then some c else best
        else best) b) = some c → s.tokenCandidate c = true := by
    intro l
    induction l with
    | nil => exact fun b hb => hb
    | cons x l ih =>
      intro b hb
      refine ih _ (fun c hc => ?_)
      dsimp only at hc
      split at hc
      · next hx =>
        split at hc
        · cases hc; exact hx
        · split at hc
          · cases hc; exact hx
          · exact hb c hc
      · exact hb c hc
  exact mem allCarriers none (by simp) c h

theorem StepClosed.giveToken {s : State} (h : P s) : P s.giveToken := by
  unfold State.giveToken
  split
  · next g =>
    split
    · exact h
    · next c e => exact H.runPass c (H.takeToken c h g.1 (tokenChoice_candidate e))
  · exact h

/-! ## Faults, reports and field equipment -/

theorem StepClosed.raiseFault {s : State} (c : CarrierId) (k : FaultKind) (h : P s) : P (s.raiseFault c k) := by
  unfold State.raiseFault
  split
  · exact h
  · exact H.flagFault c (H.capture c k h)
  all_goals next e => exact H.firstFault c k h (by rw [e]; simp) (by rw [e]; simp)

theorem StepClosed.afterLift {s t : State} (n : HoldName) (h : P t) : P (t.afterLift s n) := by
  unfold State.afterLift
  split
  · exact H.holdLifted h
  · exact h

theorem StepClosed.actOnReport {s : State} (c : CarrierId) (r : ReadReport) (h : P s) : P (s.actOnReport c r) := by
  unfold State.actOnReport
  have go : ∀ r : Report, P (match s.reportFault c r with
      | some k => s.raiseFault c k
      | none => s.progress c) := by
    intro r
    split
    · exact H.raiseFault c _ h
    · unfold State.progress
      refine H.runPassIfAdvancing c ?_
      split
      · exact h
      · exact H.releaseAll c _ h
  split
  · exact h
  · split
    · exact h
    · exact h
    all_goals exact go _

theorem StepClosed.validate {s : State} (c : CarrierId) (r : ReadReport) (h : P s) : P (s.validate c r) := by
  unfold State.validate
  split
  · exact H.actOnReport c r (H.setReport c r h)
  · exact h

theorem StepClosed.differ {s : State} (c : CarrierId) (r : ReadReport) (h : P s) : P (s.differ c r) := by
  unfold State.differ
  simp only
  have k : P (s.setValidator c { s.validator c with candidate := some r, instability := min ((s.validator c).instability + 1) 8 }) :=
    H.setValidator c _ h (Or.inl (Nat.min_le_right ..)) (Or.inr (Nat.le_refl _))
  split
  · exact H.raiseFault c _ k
  · exact k

theorem StepClosed.compare {s : State} (c : CarrierId) (r : ReadReport) (h : P s) : P (s.compare c r) := by
  unfold State.compare
  simp only
  split
  · exact H.setValidator c _ h (Or.inr (Nat.le_refl _)) (Or.inr (Nat.le_refl _))
  · split
    · exact H.validate c r (H.setValidator c _ h (Or.inl (Nat.zero_le _)) (Or.inr (Nat.le_refl _)))
    · exact H.differ c r h

theorem StepClosed.countSilence {s : State} (c : CarrierId) (r : ReadReport) (h : P s) : P (s.countSilence c r) := by
  unfold State.countSilence
  simp only
  have k : P (s.setValidator c { s.validator c with silence := s.silenceAfter c r }) := by
    refine H.setValidator c _ h (Or.inr (Nat.le_refl _)) (Or.inl ?_)
    unfold State.silenceAfter
    split
    · exact Nat.zero_le _
    · exact Nat.min_le_right ..
  split
  · exact H.raiseFault c _ k
  · exact k

theorem StepClosed.takeReports {s : State} (frame : List Byte) (h : P s) : P (s.takeReports frame) := by
  unfold State.takeReports
  exact foldCarriers_keeps (fun t c => t.takeReport c (readReport (reportBytesAt frame c)))
    (fun t c (ht : P t) => H.countSilence c _ (H.compare c _ ht)) h

theorem StepClosed.emptyCandidates {s : State} (h : P s) : P s.emptyCandidates := by
  unfold State.emptyCandidates
  exact foldCarriers_keeps (fun t c => t.setValidator c { t.validator c with candidate := none })
    (fun t c (ht : P t) => H.setValidator c _ ht (Or.inr (Nat.le_refl _)) (Or.inr (Nat.le_refl _))) h

theorem StepClosed.fieldWakes {s : State} (l : List ZoneId) (h : P s) : P (l.foldl State.fieldWake s) := by
  induction l generalizing s with
  | nil => exact h
  | cons z l ih => exact ih (H.fieldWake z h)

theorem StepClosed.takeReadings {s : State} (read : FieldSlotId → LineId → Bool) (h : P s) : P (s.takeReadings read) :=
  H.fieldWakes _ (H.fieldsFollow read h)

theorem StepClosed.applyZone {s : State} (slot : MgmtSlot) (w : ZoneWrite) (z : ZoneId) (new : ZoneRecord) (h : P s)
    (g : s.mayWriteZone slot w z new) (r : s.zoneRouteCheck (s.setZone z new) z = none) : P ((s.noteTableWrite slot).applyZone z new) := by
  unfold State.applyZone State.wakeIfCleared
  have k := H.layZone slot w z new h g r
  split
  · exact H.fieldWake z k
  · exact k

end

end Sys2Proof.Machine
end

