-- ==== Sys2Proof/Laws/Command.lean ====
section
/-! SUPPORT. Commands: what a slot machine makes of a command, and that a property closed under the part's operations is kept by every command (`StepClosed.exec`), and so is one closed under its elementary changes (`PartClosed.exec`). -/

namespace Sys2Proof.Machine

/-! ## A command at its slot machine -/

theorem machine_idle_or_receiving {m : SlotMachine} (h : m.busy = false) : m = .idle ∨ ∃ b n, m = .receiving b n := by
  cases m <;> simp_all [SlotMachine.busy]

/-- A ready machine carries out an answered command and passes to ANSWERING (R161). -/
theorem takeCommand_answer {slot : MgmtSlot} {code : Byte} {s t : State} {a : Answer} {body : State → State × Reply}
    (r : s.ready slot) (h : body s = (t, .answer a)) :
    takeCommand slot code s body = t.answered slot code a.status a.results := by
  unfold takeCommand
  rcases machine_idle_or_receiving r.2 with m | ⟨b, n, m⟩ <;> simp [r.1, m, h, State.answered, Answer.message]

/-- A ready machine stays EXECUTING with a job (R161). -/
theorem takeCommand_executing {slot : MgmtSlot} {code : Byte} {s t : State} {job : Job} {body : State → State × Reply}
    (r : s.ready slot) (h : body s = (t, .executing job)) :
    takeCommand slot code s body = t.setMachine slot (.executing job 0 false) := by
  unfold takeCommand
  rcases machine_idle_or_receiving r.2 with m | ⟨b, n, m⟩ <;> simp [r.1, m, h]

/-- A ready machine carries out a command that is not answered (R172). -/
theorem takeCommand_silent {slot : MgmtSlot} {code : Byte} {s t : State} {body : State → State × Reply}
    (r : s.ready slot) (h : body s = (t, .silent)) : takeCommand slot code s body = t := by
  unfold takeCommand
  rcases machine_idle_or_receiving r.2 with m | ⟨b, n, m⟩ <;> simp [r.1, m, h]

/-- A ready machine answers a read (R161). -/
theorem takeCommand_reading {slot : MgmtSlot} {code : Byte} {s : State} (r : s.ready slot) (f : State → Answer) :
    takeCommand slot code s (reading f) = s.answered slot code (f s).status (f s).results := takeCommand_answer r rfl

/-- A ready machine carries out and answers a command that changes the state (R161). -/
theorem takeCommand_changing {slot : MgmtSlot} {code : Byte} {s : State} (r : s.ready slot) (f : State → State × Answer) :
    takeCommand slot code s (changing f) = (f s).1.answered slot code (f s).2.status (f s).2.results := takeCommand_answer r rfl

/-- The safety slot carries out a safety command as any other (R163). -/
theorem takeCommand_safety (code : Byte) (s : State) (body : State → State × Reply) :
    takeCommand .safety code s (safetyOnly .safety body) = takeCommand .safety code s body := rfl

/-- A Reset that its slot machine takes resets the part at once and is not answered (R172). -/
theorem exec_reset {s : State} (r : s.ready .safety) : exec (.reset .safety) s = .next s.commandReset := by
  have b := r.2
  unfold exec execReset
  dsimp only
  rw [takeCommand_safety]
  unfold takeCommand
  rw [if_neg (by rw [r.1]; decide)]
  generalize s.machine .safety = m at *
  cases m <;> first | (cases b; done) | dsimp only

/-- The operator slot answers a safety command NOT_PERMITTED (R160, R163). -/
theorem takeCommand_notPermitted {code : Byte} {s : State} (r : s.ready .operator) (body : State → State × Reply) :
    takeCommand .operator code s (safetyOnly .operator body) = s.answered .operator code .notPermitted [] :=
  takeCommand_answer (a := .bare .notPermitted) r rfl

/-- A busy machine discards a command (R161). -/
theorem takeCommand_busy {slot : MgmtSlot} {code : Byte} {s : State} {body : State → State × Reply}
    (h : (s.machine slot).busy = true) : takeCommand slot code s body = s := by
  unfold takeCommand
  split
  · rfl
  · cases m : s.machine slot <;> simp_all [SlotMachine.busy]

/-- While the reset pin is asserted no command is taken (log 10). -/
theorem takeCommand_reset {slot : MgmtSlot} {code : Byte} {s : State} {body : State → State × Reply} (h : s.resetPin = true) :
    takeCommand slot code s body = s := by
  simp [takeCommand, h]

/-! ## Every command -/

section
variable {P : State → Prop} (H : StepClosed P)
include H

theorem StepClosed.takeCommand {slot : MgmtSlot} {code : Byte} {s : State} {body : State → State × Reply} (h : P s)
    (k : P (body s).1) : P (takeCommand slot code s body) := by
  unfold Machine.takeCommand
  split
  · exact h
  · split
    · exact h
    · exact h
    all_goals
      generalize body s = p at k
      obtain ⟨t, r⟩ := p
      cases r
      · exact H.setMachine _ _ k
      · exact H.setMachine _ _ k
      · exact k

omit H in
theorem changing_keeps {f : State → State × Answer} {s : State} (k : P (f s).1) : P (changing f s).1 := k

omit H in
theorem safetyOnly_keeps {slot : MgmtSlot} {body : State → State × Reply} {s : State} (h : P s) (k : P (body s).1) :
    P (safetyOnly slot body s).1 := by
  cases slot
  · exact h
  · exact k

theorem StepClosed.writeZone {s : State} (slot : MgmtSlot) (w : ZoneWrite) (h : P s) : P (writeZone slot w s).1 := by
  unfold Machine.writeZone
  split
  · exact h
  · next z _ =>
    split
    · exact h
    · next new ignored e =>
      split
      · exact h
      · next g =>
        split
        · exact h
        · next c =>
          simp only [firstFailure, List.findSome?_cons, id_eq] at c
          cases k : s.zoneChecks (s.setZone z new) z with
          | some f => rw [k] at c; cases c
          | none =>
            refine H.applyZone slot w z new h ⟨⟨ignored, e⟩, g, k⟩ ?_
            rw [k] at c
            cases r : s.zoneRouteCheck (s.setZone z new) z
            · rfl
            · rw [r] at c; cases c

theorem StepClosed.setConflictPair {s : State} (slot : MgmtSlot) (a b : Byte) (h : P s) : P (setConflictPair slot a b s).1 := by
  unfold Machine.setConflictPair
  split
  · next x y _ _ =>
    split
    · exact h
    · next n =>
      split
      · exact H.noteTableWrite slot h
      · next l =>
        split
        · exact h
        · next f =>
          split
          · exact h
          · next a => refine H.noteTableWrite slot (H.addPair x y h n (by simpa using l) ?_ ?_ (by simpa using a)) <;> omega
  · exact h

theorem StepClosed.clearConflictPair {s : State} (slot : MgmtSlot) (a b : Byte) (h : P s) : P (clearConflictPair slot a b s).1 := by
  unfold Machine.clearConflictPair
  split
  · next x y _ _ =>
    split
    · exact h
    · next n =>
      split
      · exact H.noteTableWrite slot h
      · exact H.wakeZone _ _ (H.wakeZone _ _ (H.noteTableWrite slot (H.removePair x y h n)))
  · exact h

theorem StepClosed.writeCorridor {s : State} (slot : MgmtSlot) (a b c : Byte) (h : P s) : P (writeCorridor slot a b c s).1 := by
  unfold Machine.writeCorridor
  split
  · split
    · exact h
    · split
      · exact h
      · split
        · exact h
        · refine H.noteTableWrite slot (H.setCorridor _ _ _ h ?_ ?_) <;> omega
  · exact h

theorem StepClosed.writeRoute {s : State} (slot : MgmtSlot) (w : RouteWrite) (h : P s) : P (writeRoute slot w s).1 := by
  unfold Machine.writeRoute
  split
  · exact h
  · split
    · exact h
    · next x e =>
      split
      · exact h
      · next u =>
        split
        · exact h
        · next n => exact H.noteTableWrite slot (H.setRoute _ w x h (by omega) e (fun m => by rwa [if_pos m] at n))

omit H in
theorem hopsOf_length (l : List (Byte × Byte)) {k : List Hop} (h : hopsOf l = some k) : k.length = l.length := by
  induction l generalizing k with
  | nil => cases h; rfl
  | cons p l ih =>
    obtain ⟨z, v⟩ := p
    unfold hopsOf at h
    split at h
    · next e => cases h; rw [List.length_cons, List.length_cons, ih e]
    · cases h

theorem StepClosed.writeHops {s : State} (slot : MgmtSlot) (a : Half) (l : List (Byte × Byte)) (h : P s) : P (writeHops slot a l s).1 := by
  unfold Machine.writeHops
  simp only
  split
  · exact h
  · next g =>
    split
    · exact h
    · next l' e =>
      have len := hopsOf_length l e
      split
      · exact h
      · split
        · exact h
        · next n => exact H.noteTableWrite slot (H.setHops _ _ h (by omega) (by omega) (fun m => by rw [if_pos m, ← len] at n; exact n))

theorem StepClosed.admitCarrier {s : State} (a b c : Byte) (h : P s) : P (admitCarrier a b c s).1 := by
  unfold Machine.admitCarrier
  split
  · split
    · exact h
    · next g => exact H.enrol _ _ _ h g
  · exact h

theorem StepClosed.assignRoute {s : State} (a b : Byte) (h : P s) : P (assignRoute a b s).1 := by
  unfold Machine.assignRoute
  split
  · next c r _ _ =>
    split
    · exact h
    · next m =>
      split
      · exact h
      · next i =>
        split
        · exact h
        · next d =>
          split
          · exact h
          · refine H.runPass c (H.assign c r h ?_ (by simpa using i) (by simpa using d))
            cases e : s.mode
            · exact absurd e m
            · rfl
  · exact h

theorem StepClosed.cancelRoute {s : State} (a : Byte) (h : P s) : P (cancelRoute a s).1 := by
  unfold Machine.cancelRoute
  split
  · exact h
  · next c _ =>
    have k : (s.carrier c).state ≠ .vacant → (s.carrier c).state ≠ .faulted → P (s.cancel c) := H.cancel c h
    split
    · exact h
    · exact h
    all_goals next e => exact k (by rw [e]; decide) (by rw [e]; decide)

theorem StepClosed.setCarrierOf {s : State} (a b c d e : Byte) (h : P s) : P (setCarrier a b c d e s).1 := by
  unfold Machine.setCarrier
  split
  · simp only
    split
    · exact h
    · next r =>
      split
      · exact h
      · have k : ∀ (x : CarrierId) (m : ClaimMode) (p : Priority) (l : ClipMode), P ((s.modCarrier x (fun r =>
            { r with claimMode := m, horizon := c.toNat, priority := p, clipMode := l })).breakWatch x) := by
          intro x m p l
          refine H.breakWatch x (H.touch x _ h ?_)
          constructor <;> intros <;> first | rfl | assumption | (constructor <;> simp only <;> omega)
        split
        · exact H.runPassIfAdvancing _ (k _ _ _ _)
        · exact k _ _ _ _
  · exact h

theorem StepClosed.clearFault {s : State} (a : Byte) (h : P s) : P (clearFault a s).1 := by
  unfold Machine.clearFault
  split
  · exact h
  · next c _ =>
    split
    · exact h
    · next f =>
      split
      · exact h
      · exact H.clearFaultOf c h (by simpa using f)

theorem StepClosed.retireCarrier {s : State} (a : Byte) (h : P s) : P (retireCarrier a s).1 := by
  unfold Machine.retireCarrier
  split
  · exact h
  · next c _ =>
    split
    · exact h
    · exact h
    · exact h
    all_goals
      next e =>
      split
      · exact h
      · next r =>
        refine H.retire c h ?_ (by rw [e]; decide) (by simpa using r)
        unfold State.active
        rw [e]; decide

theorem StepClosed.watchCarrier {s : State} (slot : MgmtSlot) (a : Byte) (h : P s) : P (watchCarrier slot a s).1 := by
  unfold Machine.watchCarrier
  split
  · exact h
  · exact H.setWatch _ _ h

theorem StepClosed.replaceRoute {s : State} (slot : MgmtSlot) (a b : Byte) (i : Half) (h : P s) : P (replaceRoute slot a b i s).1 := by
  unfold Machine.replaceRoute
  simp only
  have t := H.setWatch slot ⟨none, false⟩ h
  split
  · next c r i' _ _ _ =>
    split
    · exact t
    · next m =>
      split
      · exact t
      · split
        · exact t
        · next v =>
          split
          · exact t
          · next d =>
            split
            · exact t
            · have ca : ((s.setWatch slot ⟨none, false⟩).carrier c) = s.carrier c := by cases slot <;> rfl
              have mo : (s.setWatch slot ⟨none, false⟩).mode = s.mode := by cases slot <;> rfl
              have ro : (s.setWatch slot ⟨none, false⟩).route r = s.route r := by cases slot <;> rfl
              simp only [Bool.or_eq_true, Bool.not_eq_true', not_or, Bool.not_eq_false] at d
              dsimp only
              refine H.replace c r i' t ?_ ?_ ?_ ?_ ?_
              · rw [mo]
                cases k : s.mode
                · exact absurd k m
                · rfl
              · rw [ca]; exact fun x => v (Or.inl x)
              · rw [ca]; exact fun x => v (Or.inr x)
              · rw [ro]; exact d.1
              · rw [ro]; exact d.2
  · exact t

theorem StepClosed.clearFlags {s : State} (h : P s) : P s.clearFlags := by
  unfold State.clearFlags
  refine foldCarriers_keeps (fun t c => t.modCarrier c (fun r => { r with flags := .cleared })) ?_ ?_
  · intro t c ht
    exact H.touch c _ ht (by constructor <;> intros <;> first | rfl | assumption)
  · exact H.outside h { TablesSame.refl s with }

theorem StepClosed.writeDistrictParameters {s : State} (a b c : Half) (h : P s) : P (writeDistrictParameters a b c s).1 := by
  unfold Machine.writeDistrictParameters
  simp only
  split
  · exact h
  · refine H.setParameters _ _ _ h ?_ ?_ ?_ ?_ ?_ ?_ <;> omega

theorem StepClosed.leaveService {s : State} (h : P s) : P (leaveService s).1 := by
  unfold Machine.leaveService
  split
  · exact h
  · next g =>
    refine H.toSafe h ?_
    intro c a
    apply g
    refine Or.inr ?_
    rw [List.any_eq_true]
    refine ⟨c, List.mem_finRange c, ?_⟩
    unfold State.active at a
    simpa using a

omit H in
theorem enterService_keeps {s : State} (h : P s) : P (enterService s).1 := by
  unfold Machine.enterService; split <;> exact h

theorem StepClosed.enterAnswer {s : State} (w : Bool) (h : P s) : P (s.enterAnswer w).1 := by
  unfold State.enterAnswer
  split
  · exact h
  · split
    · exact h
    · next e => exact H.toService h e

theorem StepClosed.complete {s : State} (slot : MgmtSlot) (j : Job) (w : Bool) (h : P s) : P (s.complete slot j w) := by
  unfold State.complete
  split
  · exact H.setMachine _ _ h
  · exact H.setMachine _ _ (H.enterAnswer w h)

theorem StepClosed.completionPart {s : State} (slot : MgmtSlot) (h : P s) : P (s.completionPart slot) := by
  unfold State.completionPart
  split
  · split
    · exact H.setMachine _ _ h
    · exact H.complete _ _ _ h
  all_goals exact h

theorem StepClosed.completeJob {s : State} (slot : MgmtSlot) (j : Job) (h : P s) : P (s.completeJob slot j) := by
  unfold State.completeJob
  split
  · exact h
  · split
    · split
      · exact H.complete _ _ _ h
      · exact h
    all_goals exact h

theorem StepClosed.armStopLine {s : State} (h : P s) : P (armStopLine s).1 := by
  unfold Machine.armStopLine
  split
  · exact h
  · have k : P { s with armLatch := true } := H.outside h { TablesSame.refl s with }
    simp only
    split
    · exact H.setMarker k
    · exact k

theorem StepClosed.resume {s : State} (h : P s) : P (resume s).1 := by
  unfold Machine.resume
  split
  · exact h
  · split
    · exact h
    · dsimp only
      exact H.claimAll (H.outside h { TablesSame.refl s with })

theorem StepClosed.holdSector {s : State} (a : Byte) (h : P s) : P (holdSector a s).1 := by
  unfold Machine.holdSector
  split
  · exact h
  · exact H.writeHoldEntry _ _ h

theorem StepClosed.liftHold {s : State} (a : Byte) (h : P s) : P (liftHold a s).1 := by
  unfold Machine.liftHold
  split
  · exact h
  · split
    · exact h
    · dsimp only
      exact H.afterLift _ (H.writeHoldEntry _ _ h)

theorem StepClosed.writePolicy {s : State} (a : Vector Byte 8) (h : P s) : P (writePolicy a s).1 := by
  unfold Machine.writePolicy
  simp only
  split
  · exact H.outside h { TablesSame.refl s with }
  · exact h

theorem StepClosed.commandReset {s : State} (h : P s) : P s.commandReset := by
  unfold State.commandReset
  have k := H.restart .resetCommand h
  generalize s.restart .resetCommand = t at *
  exact H.outside k { TablesSame.refl t with }

/-- Every management command. -/
theorem StepClosed.carryOut {s : State} (i : Instr) (h : P s) : P (s.carryOut i) := by
  cases i with
  | identify _ =>
    exact H.takeCommand (body := changing (Machine.identify)) h (H.outside h (t := (Machine.identify s).1) { TablesSame.refl s with })
  | readZone _ _ =>
    exact H.takeCommand (body := reading _) h h
  | writeZone slot w =>
    exact H.takeCommand (body := changing (Machine.writeZone slot w)) h (changing_keeps (H.writeZone _ _ h))
  | setConflictPair slot a b =>
    exact H.takeCommand (body := changing (Machine.setConflictPair slot a b)) h (changing_keeps (H.setConflictPair _ _ _ h))
  | clearConflictPair slot a b =>
    exact H.takeCommand (body := changing (Machine.clearConflictPair slot a b)) h (changing_keeps (H.clearConflictPair _ _ _ h))
  | readZoneState _ _ _ =>
    exact H.takeCommand (body := reading _) h h
  | readCorridor _ _ =>
    exact H.takeCommand (body := reading _) h h
  | writeCorridor slot corridor defined quota =>
    exact H.takeCommand (body := changing (Machine.writeCorridor slot corridor defined quota)) h (changing_keeps (H.writeCorridor _ _ _ _ h))
  | readCorridorState _ _ _ =>
    exact H.takeCommand (body := reading _) h h
  | readRoute _ _ =>
    exact H.takeCommand (body := reading _) h h
  | writeRoute slot w =>
    exact H.takeCommand (body := changing (Machine.writeRoute slot w)) h (changing_keeps (H.writeRoute _ _ h))
  | readHops _ _ _ =>
    exact H.takeCommand (body := reading _) h h
  | writeHops slot start hops =>
    exact H.takeCommand (body := changing (Machine.writeHops slot start hops)) h (changing_keeps (H.writeHops _ _ _ h))
  | admitCarrier _ carrier front rear =>
    exact H.takeCommand (body := changing (Machine.admitCarrier carrier front rear)) h (changing_keeps (H.admitCarrier _ _ _ h))
  | assignRoute _ carrier route =>
    exact H.takeCommand (body := changing (Machine.assignRoute carrier route)) h (changing_keeps (H.assignRoute _ _ h))
  | cancelRoute _ carrier =>
    exact H.takeCommand (body := changing (Machine.cancelRoute carrier)) h (changing_keeps (H.cancelRoute _ h))
  | setCarrier _ carrier claimMode horizon priority clipMode =>
    exact H.takeCommand (body := changing (Machine.setCarrier carrier claimMode horizon priority clipMode)) h (changing_keeps (H.setCarrierOf _ _ _ _ _ h))
  | clearFault _ carrier =>
    exact H.takeCommand (body := changing (Machine.clearFault carrier)) h (changing_keeps (H.clearFault _ h))
  | retireCarrier _ carrier =>
    exact H.takeCommand (body := changing (Machine.retireCarrier carrier)) h (changing_keeps (H.retireCarrier _ h))
  | readCarrier _ _ _ =>
    exact H.takeCommand (body := reading _) h h
  | readFaultRecord _ _ _ =>
    exact H.takeCommand (body := reading _) h h
  | watchCarrier slot carrier =>
    exact H.takeCommand (body := changing (Machine.watchCarrier slot carrier)) h (changing_keeps (H.watchCarrier _ _ h))
  | replaceRoute slot carrier route hop =>
    exact H.takeCommand (body := changing (Machine.replaceRoute slot carrier route hop)) h (changing_keeps (H.replaceRoute _ _ _ _ h))
  | readHolds _ _ _ _ =>
    exact H.takeCommand (body := reading _) h h
  | readDeadlockRecord _ =>
    exact H.takeCommand (body := reading _) h h
  | readEvents _ =>
    exact H.takeCommand (body := changing (Machine.readEvents)) h (changing_keeps (H.clearFlags h))
  | setEventMask _ masks =>
    exact H.takeCommand (body := changing (Machine.setEventMask masks)) h (H.outside h (t := (Machine.setEventMask masks s).1) { TablesSame.refl s with })
  | readDistrictParameters _ =>
    exact H.takeCommand (body := reading _) h h
  | writeDistrictParameters _ silence persistence starvation =>
    exact H.takeCommand (body := changing (Machine.writeDistrictParameters silence persistence starvation)) h (changing_keeps (H.writeDistrictParameters _ _ _ h))
  | checksum _ =>
    exact H.takeCommand (code := 0x20) (body := fun t => (t, .executing .checksum)) h h
  | checksumCompletion _ =>
    exact h
  | enterService _ =>
    exact H.takeCommand (body := Machine.enterService) h (enterService_keeps h)
  | enterServiceCompletion _ =>
    exact h
  | armStopLine slot =>
    exact H.takeCommand (body := safetyOnly slot (changing (Machine.armStopLine))) h (safetyOnly_keeps h (changing_keeps (H.armStopLine h)))
  | resume slot =>
    exact H.takeCommand (body := safetyOnly slot (changing (Machine.resume))) h (safetyOnly_keeps h (changing_keeps (H.resume h)))
  | holdSector slot sector =>
    exact H.takeCommand (body := safetyOnly slot (changing (Machine.holdSector sector))) h (safetyOnly_keeps h (changing_keeps (H.holdSector _ h)))
  | holdDistrict slot =>
    exact H.takeCommand (body := safetyOnly slot (changing (Machine.holdDistrict))) h (safetyOnly_keeps h (changing_keeps (H.writeHoldEntry _ _ h)))
  | liftHold slot entry =>
    exact H.takeCommand (body := safetyOnly slot (changing (Machine.liftHold entry))) h (safetyOnly_keeps h (changing_keeps (H.liftHold _ h)))
  | writePolicy slot actions =>
    exact H.takeCommand (body := safetyOnly slot (changing (Machine.writePolicy actions))) h (safetyOnly_keeps h (changing_keeps (H.writePolicy _ h)))
  | leaveService slot =>
    exact H.takeCommand (body := safetyOnly slot (changing (Machine.leaveService))) h (safetyOnly_keeps h (changing_keeps (H.leaveService h)))
  | reset slot =>
    exact H.takeCommand (body := safetyOnly slot (fun t => (t.commandReset, .silent))) h (safetyOnly_keeps h (H.commandReset h))
  | resetPin =>
    exact h
  | resetPinRelease _ =>
    exact h
  | powerOnReset _ =>
    exact h
  | stopLineChange _ =>
    exact h
  | frameTimerExpiry _ =>
    exact h
  | floorFrameArrival _ _ =>
    exact h
  | dispatcherFrameArrival _ =>
    exact h
  | floorPortLoss =>
    exact h
  | floorPortReturn _ _ =>
    exact h
  | dispatchPortLoss =>
    exact h
  | dispatchPortReturn _ =>
    exact h
  | silenceLimitReached _ =>
    exact h
  | instabilityLimitReached _ _ =>
    exact h
  | clearPersistenceReached _ _ =>
    exact h

/-! ## Frames -/

theorem StepClosed.takeMessage {s : State} (slot : MgmtSlot) (m : List Byte) (h : P s) : P (s.takeMessage slot m) := by
  unfold State.takeMessage
  split
  · exact H.setMachine _ _ h
  · exact H.carryOut _ h

theorem StepClosed.extendMessage {s : State} (slot : MgmtSlot) (m : List Byte) (n : Nat) (l : Bool) (h : P s) :
    P (s.extendMessage slot m n l) := by
  unfold State.extendMessage
  split
  · exact H.takeMessage _ _ h
  · exact H.setMachine _ _ h

theorem StepClosed.takeFragment {s : State} (slot : MgmtSlot) (b : Byte) (p : List Byte) (h : P s) : P (s.takeFragment slot b p) := by
  unfold State.takeFragment
  simp only
  repeat' split
  all_goals first
    | exact h
    | exact H.extendMessage _ _ _ _ h
    | exact H.setMachine _ _ h

theorem StepClosed.clearLink {s : State} (h : P s) : P s.clearLink := H.afterLift _ (H.writeLinkFlag false h)

theorem StepClosed.floorBlock {s : State} (frame : List Byte) (r : Bool) (b : FloorBlock) (h : P s) : P (s.floorBlock frame r b) := by
  unfold State.floorBlock
  split
  · exact h
  · split
    · exact H.takeReports frame h
    · exact H.takeReadings _ h
    · exact H.takeFragment _ _ _ h
    · split
      · exact H.clearLink h
      · exact h

omit H in
/-- A property kept by each item is kept over a list of them. -/
theorem foldList_keeps {α : Type} (f : State → α → State) (hf : ∀ t a, P t → P (f t a)) (l : List α) {s : State} (h : P s) : P (l.foldl f s) := by
  induction l generalizing s with
  | nil => exact h
  | cons a l ih => exact ih (hf _ _ h)

theorem StepClosed.handOnFloor {s : State} (order : List FloorBlock) (frame : List Byte) (r : Bool) (h : P s) :
    P (s.handOnFloor order frame r) := by
  unfold State.handOnFloor
  exact foldList_keeps (fun t b => t.floorBlock frame r b) (fun _ b ht => H.floorBlock frame r b ht) _
    (H.outside h { TablesSame.refl s with })

omit H in
theorem countGood_runs {p : Port} (h : p.badRun ≤ 3 ∧ p.goodRun ≤ 2) : p.countGood.badRun ≤ 3 ∧ p.countGood.goodRun ≤ 2 := by
  unfold Port.countGood
  cases p.state
  · exact ⟨Nat.zero_le _, h.2⟩
  · simp only
    split
    · exact ⟨Nat.zero_le _, Nat.zero_le _⟩
    · exact ⟨h.1, by simp only; omega⟩

omit H in
theorem countBad_runs {p : Port} (h : p.badRun ≤ 3 ∧ p.goodRun ≤ 2) : p.countBad.badRun ≤ 3 ∧ p.countBad.goodRun ≤ 2 := by
  unfold Port.countBad
  cases p.state
  · simp only
    split
    · exact ⟨Nat.zero_le _, Nat.zero_le _⟩
    · exact ⟨by simp only; omega, h.2⟩
  · exact ⟨h.1, Nat.zero_le _⟩

theorem StepClosed.floorGood {s : State} (order : List FloorBlock) (frame : List Byte) (h : P s) : P (s.floorGood order frame) := by
  unfold State.floorGood
  have k : P { s with floorPort := s.floorPort.countGood } := H.outside h { TablesSame.refl s with floorPort := countGood_runs }
  simp only
  split
  · exact H.handOnFloor _ _ _ k
  · exact H.handOnFloor _ _ _ (H.outside k { TablesSame.refl _ with })
  · exact k

theorem StepClosed.setMachineIdle {s : State} (slot : MgmtSlot) (h : P s) : P (s.endMessage slot) := H.setMachine _ _ h

theorem StepClosed.floorBad {s : State} (h : P s) : P s.floorBad := by
  unfold State.floorBad
  split
  · exact H.outside h { TablesSame.refl s with floorPort := countBad_runs }
  · have t := H.takeReadings (fun _ _ => false) h
    have u : P { s.monitorBad with floorPort := s.monitorBad.floorPort.countBad } :=
      H.outside (s := s.monitorBad) t { TablesSame.refl _ with floorPort := countBad_runs }
    simp only
    split
    · refine H.setMachineIdle _ (H.takeReadings _ (H.emptyCandidates (H.writeLinkFlag true ?_)))
      exact H.outside u { TablesSame.refl _ with }
    · exact u

theorem StepClosed.floorArrival {s : State} (order : List FloorBlock) (frame : List Byte) (h : P s) : P (s.floorArrival order frame) := by
  unfold State.floorArrival
  split
  · exact h
  · exact h
  · have k : P { s with floorPort := { s.floorPort with window := .taken } } := H.outside h { TablesSame.refl s with }
    simp only
    split
    · exact H.floorGood _ _ k
    · exact H.floorBad k

theorem StepClosed.orderChanges {s : State} (f : CarrierId → Bool) (h : P s) : P (s.orderChanges f) := by
  unfold State.orderChanges
  refine foldCarriers_keeps (fun t c => if f c then t.orderChange c else t) ?_ h
  intro t c ht
  split
  · unfold State.orderChange
    split
    · exact H.runPass c ht
    · exact ht
  · exact ht

theorem StepClosed.dispatchBad {s : State} (h : P s) : P s.dispatchBad := by
  unfold State.dispatchBad
  have k : P { s with dispatchPort := s.dispatchPort.countBad } := H.outside h { TablesSame.refl s with dispatchPort := countBad_runs }
  simp only
  split
  · unfold State.loseDispatch
    exact H.orderChanges _ (H.setMachineIdle _ (H.outside k { TablesSame.refl _ with }))
  · exact k

theorem StepClosed.handOnDispatch {s : State} (frame : List Byte) (r : Bool) (h : P s) : P (s.handOnDispatch frame r) := by
  unfold State.handOnDispatch
  refine H.orderChanges _ (H.takeFragment _ _ _ ?_)
  refine foldCarriers_keeps (fun t c => t.modCarrier c (fun r => { r with lastOrder := orderAt frame c })) ?_ h
  intro t c ht
  exact H.touch c _ ht (by constructor <;> intros <;> first | rfl | assumption)

theorem StepClosed.dispatchGood {s : State} (frame : List Byte) (h : P s) : P (s.dispatchGood frame) := by
  unfold State.dispatchGood
  have k : P { s with dispatchPort := s.dispatchPort.countGood } := H.outside h { TablesSame.refl s with dispatchPort := countGood_runs }
  simp only
  split
  · exact H.handOnDispatch _ _ k
  · exact H.handOnDispatch _ _ (H.outside k { TablesSame.refl _ with })
  · exact k

theorem StepClosed.dispatchArrival {s : State} (frame : List Byte) (h : P s) : P (s.dispatchArrival frame) := by
  unfold State.dispatchArrival
  split
  · exact h
  · exact h
  · have k : P { s with dispatchPort := { s.dispatchPort with window := .taken } } := H.outside h { TablesSame.refl s with }
    simp only
    split
    · exact H.dispatchGood _ k
    · exact H.dispatchBad k

/-! ## The frame timer -/

theorem StepClosed.closeFloor {s : State} (h : P s) : P s.closeFloor := by
  unfold State.closeFloor
  simp only
  split
  · exact H.outside (H.floorBad h) { TablesSame.refl _ with }
  · exact H.outside h { TablesSame.refl _ with }

theorem StepClosed.closeDispatch {s : State} (h : P s) : P s.closeDispatch := by
  unfold State.closeDispatch
  simp only
  split
  · exact H.outside (H.dispatchBad h) { TablesSame.refl _ with }
  · exact H.outside h { TablesSame.refl _ with }

theorem StepClosed.stampAll {s : State} (h : P s) : P s.stampAll := by
  unfold State.stampAll
  refine foldCarriers_keeps (fun t c => t.modCarrier c (fun r => r.stamped (s.stampOf c))) ?_ h
  intro t c ht
  exact H.touch c _ ht (by constructor <;> intros <;> first | rfl | assumption)

theorem StepClosed.departFloor {s : State} (h : P s) : P s.departFloor := by
  unfold State.departFloor
  have k := H.stampAll h
  generalize s.stampAll = t at *
  exact H.setMachine _ _ (H.outside k { TablesSame.refl t with })

theorem StepClosed.departDispatch {s : State} (h : P s) : P s.departDispatch := by
  unfold State.departDispatch
  exact H.setMachine _ _ (H.outside h { TablesSame.refl s with })

omit H in
theorem aged_soft : SoftUpdate Carrier.aged := by
  have same : ∀ r : Carrier, r.aged = { r with waitAge := r.aged.waitAge } := by
    intro r; unfold Carrier.aged; split <;> rfl
  constructor
  case waitAge =>
    intro r k
    unfold Carrier.aged
    split
    · exact Nat.min_le_right ..
    · exact k
  all_goals intro r; rw [same]
  exact id

theorem StepClosed.countAges {s : State} (h : P s) : P s.countAges := by
  unfold State.countAges
  exact foldCarriers_keeps (fun t c => t.modCarrier c Carrier.aged) (fun t c (ht : P t) => H.touch c _ ht aged_soft) h

theorem StepClosed.expiryPart {s : State} (x : ExpiryPart) (h : P s) : P (s.expiryPart x) := by
  cases x
  · exact H.closeFloor h
  · exact H.departFloor h
  · exact H.closeDispatch h
  · exact H.departDispatch h
  · have k : P s.engineExpiry := by
      unfold State.engineExpiry
      exact H.giveToken (H.countAges h)
    exact k
  · exact H.completionPart _ h
  · exact H.completionPart _ h

/-! ## exec -/

omit H in
/-- The commands that are messages are carried out as their rows are (R161). -/
theorem carryOut_of_exec {s t : State} (i : Instr) (m : (commandParts i).isSome = true) (e : exec i s = .next t) : s.carryOut i = t := by
  cases i <;> first
    | (simp [commandParts] at m; done)
    | (simp only [exec] at e; simp only [State.carryOut, e, stateAfter])

/-- A property closed under the part's operations is kept by every command. -/
theorem StepClosed.exec {s t : State} (i : Instr) (h : P s) (e : exec i s = .next t) : P t := by
  by_cases m : (commandParts i).isSome = true
  · have k := H.carryOut i h
    rwa [carryOut_of_exec i m e] at k
  · cases i <;> first
      | (exact absurd rfl m)
      | (simp only [Machine.exec] at e)
    case checksumCompletion slot => cases e; exact H.completeJob _ _ h
    case enterServiceCompletion slot => cases e; exact H.completeJob _ _ h
    case resetPin =>
      cases e
      split
      · exact h
      · have k := H.restart .resetPin h
        generalize s.restart .resetPin = u at *
        exact H.outside k { TablesSame.refl u with }
    case resetPinRelease x =>
      cases e
      split
      · exact H.outside h { TablesSame.refl _ with }
      · exact h
    case powerOnReset x => cases e; exact H.powerOn x h
    case stopLineChange x =>
      cases e
      have k : P { s with stopLine := x } := H.outside h { TablesSame.refl s with }
      simp only
      split
      · exact H.setMarker k
      · exact k
    case frameTimerExpiry order =>
      cases e
      split
      · exact h
      · exact foldList_keeps State.expiryPart (fun _ x ht => H.expiryPart x ht) _ h
    case floorFrameArrival order frame =>
      cases e
      split
      · exact h
      · exact H.floorArrival _ _ h
    case dispatcherFrameArrival frame =>
      cases e
      split
      · exact h
      · exact H.dispatchArrival _ h
    case floorPortLoss =>
      cases e
      split
      · exact h
      · split
        · exact H.floorBad (H.outside h { TablesSame.refl s with })
        · exact h
    case floorPortReturn order frame =>
      cases e
      split
      · exact h
      · split
        · exact H.floorGood _ _ (H.outside h { TablesSame.refl s with })
        · exact h
    case dispatchPortLoss =>
      cases e
      split
      · exact h
      · split
        · exact H.dispatchBad (H.outside h { TablesSame.refl s with })
        · exact h
    case dispatchPortReturn frame =>
      cases e
      split
      · exact h
      · split
        · exact H.dispatchGood _ (H.outside h { TablesSame.refl s with })
        · exact h
    case silenceLimitReached c =>
      cases e
      split
      · exact h
      · split
        · exact H.countSilence _ _ h
        · exact h
    case instabilityLimitReached c r =>
      cases e
      split
      · exact h
      · split
        · split
          · exact h
          · split
            · exact h
            · exact H.differ _ _ h
        · exact h
    case clearPersistenceReached f i =>
      cases e
      split
      · exact h
      · split
        · exact H.fieldWakes _ (H.clearReached f i h)
        · exact h

/-- A property closed under the part's operations is kept by every step. -/
theorem StepClosed.step {s t : State} (h : P s) (e : step s = .next t) : P t := by
  unfold Machine.step at e
  split at e
  · cases e; exact h
  · next c rest _ =>
    exact H.exec (s := { s with pending := rest }) c (H.outside h { TablesSame.refl s with }) e

end

section
variable {P : State → Prop} (H : PartClosed P)
include H

/-- A property closed under the part's elementary changes is kept by every command. -/
theorem PartClosed.exec {s t : State} (i : Instr) (h : P s) (e : exec i s = .next t) : P t := H.toStep.exec i h e

/-- A property closed under the part's elementary changes is kept by every step. -/
theorem PartClosed.step {s t : State} (h : P s) (e : step s = .next t) : P t := H.toStep.step h e

end

end Sys2Proof.Machine
end

