-- ==== Sys2Proof/Laws/Field.lean ====
section
/-! SUPPORT. The field monitor and the resets: what taking readings, following the inputs and a reset leave and write. -/

namespace Sys2Proof.Machine

/-! ## One fold of updates leaves a field that each update leaves -/

theorem fold_field {α β : Type} (g : State → β) (f : State → α → State) (hf : ∀ t a, g (f t a) = g t) (l : List α) (s : State) :
    g (l.foldl f s) = g s := by
  induction l generalizing s with
  | nil => rfl
  | cons a l ih => rw [List.foldl_cons, ih, hf]

/-- Updates that touch only the field slots. -/
structure OnlyFieldSlots (s t : State) : Prop where
  eq : t = { s with fieldSlots := t.fieldSlots }

/-- Updates that touch only the zone states. -/
structure OnlyZoneStates (s t : State) : Prop where
  eq : t = { s with zoneStates := t.zoneStates }

theorem OnlyFieldSlots.trans {a b c : State} (h : OnlyFieldSlots a b) (k : OnlyFieldSlots b c) : OnlyFieldSlots a c := by
  constructor
  rw [k.eq, h.eq]

theorem OnlyZoneStates.trans {a b c : State} (h : OnlyZoneStates a b) (k : OnlyZoneStates b c) : OnlyZoneStates a c := by
  constructor
  rw [k.eq, h.eq]

theorem onlyFieldSlots_fold {α : Type} (f : State → α → State) (hf : ∀ t a, OnlyFieldSlots t (f t a)) (l : List α) (s : State) :
    OnlyFieldSlots s (l.foldl f s) := by
  induction l generalizing s with
  | nil => exact ⟨rfl⟩
  | cons a l ih => exact (hf s a).trans (ih _)

theorem onlyZoneStates_fold {α : Type} (f : State → α → State) (hf : ∀ t a, OnlyZoneStates t (f t a)) (l : List α) (s : State) :
    OnlyZoneStates s (l.foldl f s) := by
  induction l generalizing s with
  | nil => exact ⟨rfl⟩
  | cons a l ih => exact (hf s a).trans (ih _)

/-- Filtering the inputs touches the field slots alone (R124). -/
theorem filterInputs_only (s : State) (read : FieldSlotId → LineId → Bool) : OnlyFieldSlots s (s.filterInputs read) :=
  onlyFieldSlots_fold (fun t f => allLines.foldl (fun u i => u.setInput f i ((u.input f i).take s.clearPersistence (read f i))) t)
    (fun t f => onlyFieldSlots_fold (fun u i => u.setInput f i ((u.input f i).take s.clearPersistence (read f i)))
      (fun _ _ => ⟨rfl⟩) allLines t) allFieldSlots s

/-- Following the inputs touches the zone states alone (R126 step 2). -/
theorem fieldsFollow_only (before after : State) : OnlyZoneStates after (before.fieldsFollow after) :=
  onlyZoneStates_fold State.setFieldState (fun _ _ => ⟨rfl⟩) _ _

theorem clearInputs_only (s : State) : OnlyFieldSlots s s.clearInputs :=
  onlyFieldSlots_fold (fun t f => allLines.foldl (fun u i => u.setInput f i ⟨false, 0, s.polarityValue f i⟩) t)
    (fun t f => onlyFieldSlots_fold (fun u i => u.setInput f i ⟨false, 0, s.polarityValue f i⟩) (fun _ _ => ⟨rfl⟩) allLines t)
    allFieldSlots s

theorem clearFields_only (s : State) : OnlyZoneStates s s.clearFields :=
  onlyZoneStates_fold (fun t z => t.setZst z { t.zst z with field := t.fieldValue z }) (fun _ _ => ⟨rfl⟩) allZones s

theorem clearUsers_only (s : State) : s.clearUsers = { s with routes := s.clearUsers.routes } := by
  unfold State.clearUsers
  generalize allRoutes = l
  induction l generalizing s with
  | nil => rfl
  | cons r l ih => rw [List.foldl_cons, ih]; rfl

/-! ## Entries after a pass over a table -/

/-- After a pass that rewrites each entry of a table once, by what no rewriting changes, each entry is rewritten. -/
theorem fold_entry {ι β γ : Type} [DecidableEq ι] (get : State → ι → β) (keep : State → γ) (f : State → ι → State)
    (new : γ → ι → β → β) (hit : ∀ t i, get (f t i) i = new (keep t) i (get t i))
    (miss : ∀ t i j, j ≠ i → get (f t i) j = get t j) (kept : ∀ t i, keep (f t i) = keep t)
    (l : List ι) (nd : l.Nodup) (s : State) (i : ι) :
    get (l.foldl f s) i = if i ∈ l then new (keep s) i (get s i) else get s i := by
  induction l generalizing s with
  | nil => rfl
  | cons j l ih =>
    rw [List.foldl_cons, ih (List.nodup_cons.1 nd).2, kept]
    by_cases e : i = j
    · subst e
      rw [if_neg (List.nodup_cons.1 nd).1, if_pos List.mem_cons_self, hit]
    · rw [miss s j i e]
      by_cases m : i ∈ l
      · rw [if_pos m, if_pos (List.mem_cons_of_mem _ m)]
      · rw [if_neg m, if_neg]
        intro h
        rcases List.mem_cons.1 h with h | h
        · exact e h
        · exact m h

theorem fieldValue_congr {s t : State} (hz : t.zones = s.zones) (hf : t.fieldSlots = s.fieldSlots) (z : ZoneId) :
    t.fieldValue z = s.fieldValue z := by
  unfold State.fieldValue State.zone State.input State.fieldSlot
  rw [hz, hf]

/-- Each zone state after the fields were set anew. -/
theorem zst_clearFields (s : State) (z : ZoneId) : s.clearFields.zst z = { s.zst z with field := s.fieldValue z } := by
  have h := fold_entry State.zst State.fieldValue (fun t z => t.setZst z { t.zst z with field := t.fieldValue z })
    (fun g z x => { x with field := g z }) (fun t z => zst_setZst_self ..)
    (fun t i j e => by rw [zst_setZst, if_neg e]) (fun t i => funext (fun w => fieldValue_congr rfl rfl w))
    allZones (List.nodup_finRange 240) s z
  rw [if_pos (show z ∈ allZones from List.mem_finRange z)] at h
  exact h

/-- Each route record after the users counts were cleared. -/
theorem route_clearUsers (s : State) (r : RouteId) : s.clearUsers.route r = { s.route r with users := 0 } := by
  have h := fold_entry State.route (fun _ => ()) (fun t r => t.setRoute r { t.route r with users := 0 })
    (fun _ _ x => { x with users := 0 }) (fun t r => route_setRoute_self ..)
    (fun t i j e => by rw [route_setRoute, if_neg e]) (fun t i => rfl) allRoutes (List.nodup_finRange 128) s r
  rw [if_pos (show r ∈ allRoutes from List.mem_finRange r)] at h
  exact h

end Sys2Proof.Machine
end

