-- ==== Sys2Proof/Laws/Resets.lean ====
section
/-! SUPPORT. The resets, table by table: what power-on and a pin or command reset leave of each record, proved once so that no later proof unfolds the reset state. -/

namespace Sys2Proof.Machine

/-! ## The reset state -/

theorem reset_zone (z : ZoneId) : State.reset.zone z = .cleared := by
  unfold State.zone
  rw [show State.reset.zones = Vector.replicate 240 .cleared from rfl, tget_replicate]

theorem reset_zst (z : ZoneId) : State.reset.zst z = .cleared := by
  unfold State.zst
  rw [show State.reset.zoneStates = Vector.replicate 240 .cleared from rfl, tget_replicate]

theorem reset_corridor (k : CorridorId) : State.reset.corridor k = .cleared := by
  unfold State.corridor
  rw [show State.reset.corridors = Vector.replicate 32 .cleared from rfl, tget_replicate]

theorem reset_cst (k : CorridorId) : State.reset.cst k = .cleared := by
  unfold State.cst
  rw [show State.reset.corridorStates = Vector.replicate 32 .cleared from rfl, tget_replicate]

theorem reset_route (r : RouteId) : State.reset.route r = .cleared := by
  unfold State.route
  rw [show State.reset.routes = Vector.replicate 128 .cleared from rfl, tget_replicate]

theorem reset_hop (h : HopIdx) : State.reset.hop h = ⟨0, 0⟩ := by
  unfold State.hop
  rw [show State.reset.hops = Vector.replicate 2048 ⟨0, 0⟩ from rfl, tget_replicate]

theorem reset_carrier (c : CarrierId) : State.reset.carrier c = .cleared := by
  unfold State.carrier
  rw [show State.reset.carriers = Vector.replicate 48 .cleared from rfl, tget_replicate]

theorem reset_validator (c : CarrierId) : State.reset.validator c = ⟨none, 0, 0⟩ := by
  unfold State.validator
  rw [show State.reset.validators = Vector.replicate 48 ⟨none, 0, 0⟩ from rfl, tget_replicate]

theorem reset_fieldSlot (f : FieldSlotId) : State.reset.fieldSlot f = .cleared := by
  unfold State.fieldSlot
  rw [show State.reset.fieldSlots = Vector.replicate 16 .cleared from rfl, tget_replicate]

theorem reset_input (f : FieldSlotId) (i : LineId) : State.reset.input f i = ⟨false, 0, .clearWhenSet⟩ := by
  unfold State.input
  rw [reset_fieldSlot]
  exact tget_replicate ..

theorem reset_output (f : FieldSlotId) (o : LineId) : State.reset.output f o = false := by
  unfold State.output
  rw [reset_fieldSlot]
  exact tget_replicate ..

theorem reset_sectorHold (n : SectorId) : State.reset.sectorHold n = .cleared := by
  unfold State.sectorHold
  rw [show State.reset.sectorHolds = Vector.replicate 8 .cleared from rfl, tget_replicate]

/-- A state with the tables of another has its entries. -/
structure TablesOf (s t : State) : Prop where
  zone : ∀ z, t.zone z = s.zone z
  zst : ∀ z, t.zst z = s.zst z
  corridor : ∀ k, t.corridor k = s.corridor k
  cst : ∀ k, t.cst k = s.cst k
  route : ∀ r, t.route r = s.route r
  hop : ∀ h, t.hop h = s.hop h
  carrier : ∀ c, t.carrier c = s.carrier c
  validator : ∀ c, t.validator c = s.validator c
  fieldSlot : ∀ f, t.fieldSlot f = s.fieldSlot f
  sectorHold : ∀ n, t.sectorHold n = s.sectorHold n

/-- After power-on every table reads as the reset state's (R172). -/
theorem powerOn_tables (s : State) (straps : BitVec 4) : TablesOf State.reset (s.powerOn straps) := by
  unfold State.powerOn
  generalize State.reset = u
  constructor <;> intro <;> rfl

/-! ## Resets that keep the configuration -/

/-- Every input after the inputs were cleared: UNCLEAR, its polarity by the bindings (R130). -/
theorem input_clearInputs (s : State) (f : FieldSlotId) (i : LineId) : s.clearInputs.input f i = ⟨false, 0, s.polarityValue f i⟩ := by
  have line : ∀ (t : State) (g : FieldSlotId), t.zones = s.zones →
      ∀ h j, (allLines.foldl (fun u i => u.setInput g i ⟨false, 0, s.polarityValue g i⟩) t).input h j
        = if h = g then ⟨false, 0, s.polarityValue g j⟩ else t.input h j := by
    intro t g _ h j
    by_cases e : h = g
    · subst e
      rw [if_pos rfl]
      have k := fold_entry (fun u j => u.input h j) (fun _ => ()) (fun u i => u.setInput h i ⟨false, 0, s.polarityValue h i⟩)
        (fun _ i _ => ⟨false, 0, s.polarityValue h i⟩) (fun u i => by simp [State.input, State.setInput])
        (fun u i j e => by simp [State.input, State.setInput, tget_tset, e]) (fun _ _ => rfl) allLines (List.nodup_finRange 8) t j
      rw [if_pos (show j ∈ allLines from List.mem_finRange j)] at k
      exact k
    · rw [if_neg e]
      exact fold_field (fun u => u.input h j) (fun u i => u.setInput g i ⟨false, 0, s.polarityValue g i⟩)
        (fun u i => by simp [State.input, State.setInput, fieldSlot_setFieldSlot, e]) allLines t
  have all : ∀ (l : List FieldSlotId) (t : State), t.zones = s.zones → ∀ h j,
      (l.foldl (fun t f => allLines.foldl (fun u i => u.setInput f i ⟨false, 0, s.polarityValue f i⟩) t) t).input h j
        = if h ∈ l then ⟨false, 0, s.polarityValue h j⟩ else t.input h j := by
    intro l
    induction l with
    | nil => intro t _ h j; rfl
    | cons g l ih =>
      intro t ht h j
      rw [List.foldl_cons, ih]
      · rw [line t g ht]
        by_cases m : h ∈ l
        · rw [if_pos m, if_pos (List.mem_cons_of_mem _ m)]
        · rw [if_neg m]
          by_cases e : h = g
          · subst e; rw [if_pos rfl, if_pos List.mem_cons_self]
          · rw [if_neg e, if_neg (by simp [e, m])]
      · exact (fold_field State.zones (fun u i => u.setInput g i ⟨false, 0, s.polarityValue g i⟩) (fun _ _ => rfl) allLines t).trans ht
  have k := all allFieldSlots s rfl f i
  rw [if_pos (show f ∈ allFieldSlots from List.mem_finRange f)] at k
  exact k

theorem outputs_clearInputs (s : State) (f : FieldSlotId) (o : LineId) : s.clearInputs.output f o = s.output f o := by
  have line : ∀ (t : State) (g : FieldSlotId),
      (allLines.foldl (fun u i => u.setInput g i ⟨false, 0, s.polarityValue g i⟩) t).output f o = t.output f o := by
    intro t g
    refine fold_field (fun u => u.output f o) (fun u i => u.setInput g i ⟨false, 0, s.polarityValue g i⟩) (fun u i => ?_) allLines t
    by_cases e : f = g
    · subst e; simp [State.output, State.setInput]
    · simp [State.output, State.setInput, fieldSlot_setFieldSlot, e]
  exact fold_field (fun u => u.output f o) (fun t g => allLines.foldl (fun u i => u.setInput g i ⟨false, 0, s.polarityValue g i⟩) t)
    line allFieldSlots s

/-- What a pin or command reset leaves of the tables (R2, R11, R20, R24, R35, R37, R53, R111, R130, R138). -/
structure RestartTables (s t : State) : Prop where
  zones : t.zones = s.zones
  corridors : t.corridors = s.corridors
  hops : t.hops = s.hops
  zst : ∀ z, t.zst z = { ZoneState.cleared with field := if (s.zone z).defined = true ∧ (s.zone z).fieldBinding ≠ none then .unclear else .unbound }
  cst : ∀ k, t.cst k = .cleared
  route : ∀ r, t.route r = { s.route r with users := 0 }
  carrier : ∀ c, t.carrier c = .cleared
  validator : ∀ c, t.validator c = ⟨none, 0, 0⟩
  input : ∀ f i, t.input f i = ⟨false, 0, s.polarityValue f i⟩
  output : ∀ f o, t.output f o = false
  sectorHold : ∀ n, t.sectorHold n = .cleared

/-- What a pin or command reset leaves of the rest: the parameters, masks, policy, pins and queue as they stood, the rest as after power-on (R133, R164, R170, R172). -/
structure RestartFields (s t : State) (cause : ResetCause) : Prop where
  policy : t.policy = s.policy
  silenceLimit : t.silenceLimit = s.silenceLimit
  clearPersistence : t.clearPersistence = s.clearPersistence
  starvationLimit : t.starvationLimit = s.starvationLimit
  masks : t.masks = s.masks
  straps : t.straps = s.straps
  stopLine : t.stopLine = s.stopLine
  pending : t.pending = s.pending
  districtCode : t.districtCode = s.districtCode
  resetPin : t.resetPin = s.resetPin
  cause : t.resetCause = cause
  pinToken : t.pinToken = none
  holdWait : t.holdWait = []
  deadlock : t.deadlock = ⟨0, 0, []⟩
  districtHold : t.districtHold = .cleared
  linkFlag : t.linkFlag = false
  armLatch : t.armLatch = false
  stopMarker : t.stopMarker = false
  floorPort : t.floorPort = .cleared
  dispatchPort : t.dispatchPort = .cleared
  floorPartner : t.floorPartner = 0
  floorSent : t.floorSent = []
  dispatchSent : t.dispatchSent = []
  operatorSlot : t.operatorSlot = .cleared
  safetySlot : t.safetySlot = .cleared
  mode : t.mode = .safe
  flags : t.flags = ⟨false, false, false, false, false, true⟩

theorem polarityValue_congr {s t : State} (h : t.zones = s.zones) (f : FieldSlotId) (i : LineId) : t.polarityValue f i = s.polarityValue f i := by
  unfold State.polarityValue State.zone
  rw [h]

/-- What the keeping of the configuration leaves of another state's tables. -/
structure Rebased (s u b : State) (cause : ResetCause) : Prop where
  tables : b.zones = s.zones ∧ b.corridors = s.corridors ∧ b.hops = s.hops
  route : ∀ r, b.route r = s.route r
  zst : ∀ z, b.zst z = u.zst z
  cst : ∀ k, b.cst k = u.cst k
  carrier : ∀ c, b.carrier c = u.carrier c
  validator : ∀ c, b.validator c = u.validator c
  output : ∀ f o, b.output f o = u.output f o
  sectorHold : ∀ n, b.sectorHold n = u.sectorHold n

theorem rebased (s u : State) (cause : ResetCause) : Rebased s u { u with
    zones := s.zones, corridors := s.corridors, routes := s.routes, hops := s.hops, policy := s.policy,
    silenceLimit := s.silenceLimit, clearPersistence := s.clearPersistence, starvationLimit := s.starvationLimit,
    masks := s.masks, resetCause := cause, districtCode := s.districtCode, straps := s.straps, stopLine := s.stopLine,
    resetPin := s.resetPin, pending := s.pending } cause := by
  constructor <;> and_intros <;> intros <;> rfl

theorem rebased_tables {s b : State} {cause : ResetCause} (start : Rebased s State.reset b cause) :
    RestartTables s b.clearUsers.clearInputs.clearFields := by
  obtain ⟨⟨z, k, h⟩, r, zs, cs, ca, va, ou, sh⟩ := start
  simp only [reset_zst, reset_cst, reset_carrier, reset_validator, reset_output, reset_sectorHold] at zs cs ca va ou sh
  obtain ⟨x, cu⟩ : ∃ x, b.clearUsers = { b with routes := x } := ⟨_, clearUsers_only b⟩
  obtain ⟨y, ci⟩ : ∃ y, b.clearUsers.clearInputs = { b.clearUsers with fieldSlots := y } := ⟨_, (clearInputs_only b.clearUsers).eq⟩
  obtain ⟨v, cf⟩ : ∃ v, b.clearUsers.clearInputs.clearFields = { b.clearUsers.clearInputs with zoneStates := v } :=
    ⟨_, (clearFields_only b.clearUsers.clearInputs).eq⟩
  have hr := route_clearUsers b
  have hi := input_clearInputs b.clearUsers
  have ho := outputs_clearInputs b.clearUsers
  have hz := zst_clearFields b.clearUsers.clearInputs
  have pv : ∀ f i, b.clearUsers.polarityValue f i = s.polarityValue f i :=
    fun f i => polarityValue_congr (by rw [cu]; exact z) f i
  have fv : ∀ w, b.clearUsers.clearInputs.fieldValue w
      = if (s.zone w).defined = true ∧ (s.zone w).fieldBinding ≠ none then .unclear else .unbound := by
    intro w
    have zw : b.clearUsers.clearInputs.zone w = s.zone w := by unfold State.zone; rw [ci]; dsimp only; rw [cu]; dsimp only; rw [z]
    unfold State.fieldValue
    rw [zw]
    cases d : (s.zone w).defined
    · simp
    · cases f : (s.zone w).fieldBinding with
      | none => simp
      | some x => simp [hi]
  generalize b.clearUsers.clearInputs.clearFields = t at *
  generalize b.clearUsers.clearInputs = t₂ at *
  generalize b.clearUsers = t₁ at *
  subst cf
  exact {
    zones := by subst ci; subst cu; exact z
    corridors := by subst ci; subst cu; exact k
    hops := by subst ci; subst cu; exact h
    zst := fun w => by rw [hz, fv]; subst ci; subst cu; rw [← zs w]; rfl
    cst := fun w => by subst ci; subst cu; exact cs w
    route := fun q => by subst ci; rw [← r q, ← hr q]; rfl
    carrier := fun w => by subst ci; subst cu; exact ca w
    validator := fun w => by subst ci; subst cu; exact va w
    input := fun f i => by rw [← pv, ← hi]; unfold State.input State.fieldSlot; dsimp only
    output := fun f o => by
      rw [← ou f o]
      have e := ho f o
      subst cu
      unfold State.output State.fieldSlot at e ⊢
      dsimp only at e ⊢
      exact e
    sectorHold := fun n => by subst ci; subst cu; exact sh n }

/-- A pin or command reset, table by table. -/
theorem restart_tables (s : State) (cause : ResetCause) : RestartTables s (s.restart cause) :=
  rebased_tables (rebased s State.reset cause)

/-- A pin or command reset, field by field. -/
theorem restart_fields (s : State) (cause : ResetCause) : RestartFields s (s.restart cause) cause := by
  unfold State.restart
  generalize base : ({ State.reset with
    zones := s.zones, corridors := s.corridors, routes := s.routes, hops := s.hops, policy := s.policy,
    silenceLimit := s.silenceLimit, clearPersistence := s.clearPersistence, starvationLimit := s.starvationLimit,
    masks := s.masks, resetCause := cause, districtCode := s.districtCode, straps := s.straps, stopLine := s.stopLine,
    resetPin := s.resetPin, pending := s.pending } : State) = b
  have k : RestartFields s b cause := by
    rw [← base]
    constructor <;> rfl
  have f : ∀ u v : State, (v = { u with routes := v.routes } ∨ v = { u with fieldSlots := v.fieldSlots } ∨ v = { u with zoneStates := v.zoneStates }) →
      RestartFields s u cause → RestartFields s v cause := by
    intro u v h k
    rcases h with h | h | h <;> rw [h] <;>
      exact ⟨k.policy, k.silenceLimit, k.clearPersistence, k.starvationLimit, k.masks, k.straps, k.stopLine, k.pending, k.districtCode,
        k.resetPin, k.cause, k.pinToken, k.holdWait, k.deadlock, k.districtHold, k.linkFlag, k.armLatch, k.stopMarker, k.floorPort,
        k.dispatchPort, k.floorPartner, k.floorSent, k.dispatchSent, k.operatorSlot, k.safetySlot, k.mode, k.flags⟩
  exact f _ _ (Or.inr (Or.inr (clearFields_only _).eq)) (f _ _ (Or.inr (Or.inl (clearInputs_only _).eq)) (f _ _ (Or.inl (clearUsers_only _)) k))

end Sys2Proof.Machine
end

