-- ==== Sys2Proof/Laws/Holding.lean ====
section
/-! SUPPORT. The elementary changes of the engine that leave every zone record and every holder. -/

namespace Sys2Proof.Machine

/-- Two states with the same zone records and the same holders. -/
structure HoldingSame (s t : State) : Prop where
  zones : t.zones = s.zones
  holder : ∀ z, t.holder z = s.holder z

theorem HoldingSame.refl (s : State) : HoldingSame s s := ⟨rfl, fun _ => rfl⟩

theorem HoldingSame.trans {a b c : State} (h : HoldingSame a b) (k : HoldingSame b c) : HoldingSame a c :=
  ⟨k.zones.trans h.zones, fun z => (k.holder z).trans (h.holder z)⟩

theorem HoldingSame.zs {s t : State} (h : t.zones = s.zones) (k : t.zoneStates = s.zoneStates) : HoldingSame s t :=
  ⟨h, fun z => by unfold State.holder State.zst; rw [k]⟩

theorem HoldingSame.zst (s : State) (z) (x : ZoneState) (h : x.holder = s.holder z) : HoldingSame s (s.setZst z x) :=
  ⟨rfl, fun w => by unfold State.holder; rw [zst_setZst]; split; (next e => rw [h, e]; rfl); rfl⟩

theorem HoldingSame.binding (s : State) (b) : HoldingSame s (s.recomputeBinding b) := by cases b <;> exact .zs rfl rfl

theorem HoldingSame.output (s : State) (z) : HoldingSame s (s.recomputeOutput z) := .binding ..

theorem HoldingSame.blocked (s : State) (z) : HoldingSame s (s.recomputeBlocked z) := .zst _ _ _ rfl

theorem HoldingSame.fieldState (s : State) (z) : HoldingSame s (s.setFieldState z) := by
  have := HoldingSame.zst s z { s.zst z with field := s.fieldValue z } rfl
  exact this.trans (.blocked ..)

theorem HoldingSame.leaveQueue (s : State) (c) : HoldingSame s (s.leaveQueue c) := by
  unfold State.leaveQueue
  split
  · exact .refl s
  · exact (HoldingSame.zst s _ { s.zst _ with queue := (s.zst _).queue.filter (fun w => w.slot != c) } rfl).trans (.output ..)
  · exact (HoldingSame.zst s _ { s.zst _ with queue := (s.zst _).queue.filter (fun w => w.slot != c) } rfl).trans (.output ..)
  · exact (HoldingSame.zst s _ { s.zst _ with queue := (s.zst _).queue.filter (fun w => w.slot != c) } rfl).trans (.output ..)
  · exact .zs rfl rfl
  · exact .zs rfl rfl

theorem HoldingSame.joinQueue (s : State) (c w d) : HoldingSame s (s.joinQueue c w d) := by
  have j : ∀ z x, HoldingSame s (s.joinZoneQueue c z x) := fun z x => by
    have := HoldingSame.zst s z { s.zst z with queue := insertByClass (·.priority) ⟨c, x, (s.carrier c).priority, s.tickets⟩ (s.zst z).queue } rfl
    exact this.trans (.zs rfl rfl)
  unfold State.joinQueue
  split
  · exact .refl s
  · exact j ..
  · exact j ..
  · exact (j ..).trans (.output ..)
  · exact .zs rfl rfl
  · exact .zs rfl rfl

theorem HoldingSame.users (s : State) (r) : HoldingSame s (s.dropUserOf r) := by cases r <;> exact .zs rfl rfl

theorem HoldingSame.moveCursorPast (s : State) (c x) : HoldingSame s (s.moveCursorPast c x) := by
  have z : (s.moveCursorPast c x).zoneStates = s.zoneStates := by
    unfold State.moveCursorPast
    split
    · rfl
    · unfold State.takeSeam
      split
      · rfl
      · rfl
      · split
        · rfl
        · split
          · cases (s.carrier c).route <;> rfl
          · rfl
  exact .zs (EngineFrame.moveCursorPast ..).zones z

theorem HoldingSame.detach (s : State) (c) : HoldingSame s (s.detachRoute c) := (HoldingSame.users s _).trans (.zs rfl rfl)

end Sys2Proof.Machine
end

