-- ==== Sys2Proof/Laws/Operands.lean ====
section
/-! SUPPORT. Operands: what each reading of a byte gives for a byte in range, for a byte out of range, and for the byte a value is written as. -/

namespace Sys2Proof.Machine

/-- A byte at or above a bound names nothing below it. -/
theorem byteBelow_of_le {n : Nat} {b : Byte} (h : n ≤ b.toNat) : byteBelow n b = none := by
  unfold byteBelow; rw [dif_neg (by omega)]

/-- A number below 256 is read back from its byte. -/
theorem byteBelow_byteOf {n : Nat} (i : Fin n) (h : n ≤ 256) : byteBelow n (byteOf i.val) = some i := by
  have e : (byteOf i.val).toNat = i.val := by simp [byteOf]; omega
  unfold byteBelow
  rw [dif_pos (by omega)]
  exact congrArg some (Fin.ext e)

theorem zoneOf_of_le {b : Byte} (h : 240 ≤ b.toNat) : zoneOf b = none := byteBelow_of_le h
theorem corridorOf_of_le {b : Byte} (h : 32 ≤ b.toNat) : corridorOf b = none := byteBelow_of_le h
theorem routeOf_of_le {b : Byte} (h : 128 ≤ b.toNat) : routeOf b = none := byteBelow_of_le h
theorem carrierOf_of_le {b : Byte} (h : 48 ≤ b.toNat) : carrierOf b = none := byteBelow_of_le h
@[simp] theorem zoneOf_byteOf (z : ZoneId) : zoneOf (byteOf z.val) = some z := byteBelow_byteOf z (by decide)
@[simp] theorem corridorOf_byteOf (k : CorridorId) : corridorOf (byteOf k.val) = some k := byteBelow_byteOf k (by decide)
@[simp] theorem routeOf_byteOf (r : RouteId) : routeOf (byteOf r.val) = some r := byteBelow_byteOf r (by decide)
@[simp] theorem carrierOf_byteOf (c : CarrierId) : carrierOf (byteOf c.val) = some c := byteBelow_byteOf c (by decide)

/-- A hop index is read back from its two bytes. -/
@[simp] theorem hopOf_ofNat (h : HopIdx) : hopOf (BitVec.ofNat 16 h.val) = some h := by
  have e : (BitVec.ofNat 16 h.val).toNat = h.val := by simp; omega
  unfold hopOf
  rw [dif_pos (by omega)]
  exact congrArg some (Fin.ext e)

theorem hopOf_of_le {h : Half} (k : 2048 ≤ h.toNat) : hopOf h = none := by unfold hopOf; rw [dif_neg (by omega)]

theorem toNat_byteOf {n : Nat} (h : n < 256) : (byteOf n).toNat = n := by simp [byteOf]; omega

@[simp] theorem yesNoOf_boolByte (b : Bool) : yesNoOf (boolByte b) = some b := by cases b <;> rfl
@[simp] theorem polarityOf_polarityByte (p : Polarity) : polarityOf (polarityByte p) = some p := by cases p <;> rfl
@[simp] theorem endActionOf_endActionByte (e : EndAction) : endActionOf (endActionByte e) = some e := by cases e <;> rfl
@[simp] theorem claimModeOf_claimModeByte (m : ClaimMode) : claimModeOf (claimModeByte m) = some m := by cases m <;> rfl
@[simp] theorem priorityOf_priorityByte (p : Priority) : priorityOf (priorityByte p) = some p := by cases p <;> rfl
@[simp] theorem clipModeOf_clipModeByte (m : ClipMode) : clipModeOf (clipModeByte m) = some m := by cases m <;> rfl
@[simp] theorem policyActionOf_policyActionByte (a : PolicyAction) : policyActionOf (policyActionByte a) = some a := by cases a <;> rfl

/-- A byte above a bound is none of the codes up to it. -/
theorem ne_of_above {b : Byte} {n : Nat} (above : n < b.toNat) (code : Byte) (small : code.toNat ≤ n) : ¬b = code := by
  rintro rfl
  omega

/-- A two-valued code above 1 is no code. -/
theorem twoCodes_of_lt {α : Type} {b : Byte} (h : 1 < b.toNat) (x y : α) :
    (if b = 0 then some x else if b = 1 then some y else none) = none := by
  rw [if_neg (ne_of_above h 0 (by decide)), if_neg (ne_of_above h 1 (by decide))]

theorem policyActionOf_of_lt {b : Byte} (h : 2 < b.toNat) : policyActionOf b = none := by
  unfold policyActionOf
  simp only [ne_of_above h 0 (by decide), ne_of_above h 1 (by decide), ne_of_above h 2 (by decide), if_false]

@[simp] theorem holdNameOf_sector (n : SectorId) : holdNameOf (byteOf n.val) = some (.sector n) := by
  unfold holdNameOf
  rw [byteBelow_byteOf n (by decide), if_neg]
  · rfl
  · intro e
    have k := congrArg BitVec.toNat e
    rw [toNat_byteOf (by omega)] at k
    have : (8 : Byte).toNat = 8 := rfl
    omega

@[simp] theorem holdNameOf_district : holdNameOf 8 = some .district := rfl

theorem holdNameOf_of_lt {b : Byte} (h : 8 < b.toNat) : holdNameOf b = none := by
  unfold holdNameOf
  rw [if_neg (ne_of_above h 8 (by decide)), byteBelow_of_le (by omega)]
  rfl

/-- A list of results of two bytes each from a starting index (R163). -/
theorem fitItems_pairs {α : Type} (fixed : Nat) (start : Byte) (l : List α) (f : α → List Byte) (n : Nat) (h : (61 - fixed) / 2 = n) :
    fitItems fixed 2 start (l.map f) = ((l.drop start.toNat).take n).flatMap f := by
  unfold fitItems
  rw [h, ← List.map_drop, ← List.map_take, List.flatMap_def]

end Sys2Proof.Machine
end

