-- ==== Sys2Proof/Laws/Writes.lean ====
section
/-! SUPPORT. Table writes: the records that writes carry are read back from their bytes, what Write Hops writes, and what the note of a table write touches. -/

namespace Sys2Proof.Machine

/-! ## The first number that satisfies a test -/

/-- The lowest number that satisfies a test is the one the search finds. -/
theorem find_lowest {n : Nat} (p : Fin n → Bool) (i : Fin n) (h : p i = true) (k : ∀ j < i, p j = false) : (List.finRange n).find? p = some i := by
  rw [List.find?_eq_some_iff_append]
  refine ⟨h, ?_⟩
  refine ⟨(List.finRange n).take i.val, (List.finRange n).drop (i.val+1), ?_, ?_⟩
  · have : (List.finRange n)[i.val]'(by simp) = i := by simp
    conv => lhs; rw [← List.take_append_drop i.val (List.finRange n)]
    congr 1
    rw [List.drop_eq_getElem_cons (by simp), this]
  · intro a ha
    rw [List.mem_take_iff_getElem] at ha
    obtain ⟨j, hj, e⟩ := ha
    simp at e hj
    rw [k a]; rfl
    rw [← e]; exact Fin.lt_def.2 (by simp; omega)

/-! ## The note of a table write -/

/-- The note of a table write touches the other slot's machine alone, and commutes with any update of the rest. -/
theorem noteTableWrite_of_machine {s t : State} (slot : MgmtSlot) (h : ∀ x, t.mgmt x = s.mgmt x) :
    t.noteTableWrite slot = { t with operatorSlot := (s.noteTableWrite slot).operatorSlot, safetySlot := (s.noteTableWrite slot).safetySlot } := by
  have h1 := h .operator
  have h2 := h .safety
  simp only [State.mgmt] at h1 h2
  have k : t.machine (otherSlot slot) = s.machine (otherSlot slot) := by unfold State.machine; rw [h]
  unfold State.noteTableWrite
  rw [k]
  cases slot <;> simp only [otherSlot] <;> split <;> (try simp only [State.setMachine, State.setMgmt, State.mgmt]) <;> (rw [← h1, ← h2])

theorem noteTableWrite_only (s : State) (slot : MgmtSlot) : ∃ a b, s.noteTableWrite slot = { s with operatorSlot := a, safetySlot := b } :=
  ⟨_, _, noteTableWrite_of_machine (s := s) slot (fun _ => rfl)⟩

theorem zone_noteTableWrite (s : State) (slot : MgmtSlot) (z : ZoneId) : (s.noteTableWrite slot).zone z = s.zone z := by
  obtain ⟨a, b, e⟩ := noteTableWrite_only s slot
  rw [e]
  rfl

/-! ## Zone records -/
theorem byteOf_ne_255 {n : Nat} (i : Fin n) (h : n ≤ 255) : byteOf i.val ≠ (255 : Byte) := by
  intro e
  have k := congrArg BitVec.toNat e
  rw [toNat_byteOf (by omega)] at k
  have : (255 : Byte).toNat = 255 := rfl
  omega

/-- A field condition binding is read back from the bytes a Write Zone carries (R159). -/
theorem fieldBindingOf_write (b : Option FieldBinding) :
    fieldBindingOf (finByte (b.map (·.slot))) (finByte (b.map (·.input))) (match b with | none => 0 | some b => polarityByte b.polarity) = some b := by
  cases b with
  | none => rfl
  | some b =>
    show fieldBindingOf (byteOf b.slot.val) (byteOf b.input.val) (polarityByte b.polarity) = _
    unfold fieldBindingOf
    rw [if_neg (byteOf_ne_255 _ (by decide)), byteBelow_byteOf _ (by decide), byteBelow_byteOf _ (by decide), polarityOf_polarityByte]

/-- A request output binding is read back from its bytes (R159). -/
theorem requestBindingOf_write (b : Option RequestBinding) :
    requestBindingOf (finByte (b.map (·.slot))) (finByte (b.map (·.output))) = some b := by
  cases b with
  | none => rfl
  | some b =>
    show requestBindingOf (byteOf b.slot.val) (byteOf b.output.val) = _
    unfold requestBindingOf
    rw [if_neg (byteOf_ne_255 _ (by decide)), byteBelow_byteOf _ (by decide), byteBelow_byteOf _ (by decide)]

theorem orNone_corridor (k : Option CorridorId) : orNone corridorOf (finByte k) = some k := by
  cases k with
  | none => rfl
  | some k =>
    show orNone corridorOf (byteOf k.val) = _
    unfold orNone
    rw [if_neg (byteOf_ne_255 _ (by decide)), corridorOf_byteOf]; rfl

/-- The record a Write Zone writes, read back from the write that carries it, and whether bindings were ignored (R12, R16). -/
theorem zoneWriteRecord_write (slot : MgmtSlot) (z : ZoneId) (r old : ZoneRecord) :
    zoneWriteRecord slot (zoneWriteOf z r) old = some (writtenZone slot old r,
      decide (slot = .operator ∧ (r.fieldBinding ≠ old.fieldBinding ∨ r.requestBinding ≠ old.requestBinding))) := by
  have f : fieldBindingOf (zoneWriteOf z r).fieldSlot (zoneWriteOf z r).fieldInput (zoneWriteOf z r).fieldPolarity = some r.fieldBinding :=
    fieldBindingOf_write r.fieldBinding
  have q : requestBindingOf (zoneWriteOf z r).requestSlot (zoneWriteOf z r).requestOutput = some r.requestBinding :=
    requestBindingOf_write r.requestBinding
  unfold zoneWriteRecord
  rw [f, q, show yesNoOf (zoneWriteOf z r).defined = some r.defined from yesNoOf_boolByte _,
    show yesNoOf (zoneWriteOf z r).noStop = some r.noStop from yesNoOf_boolByte _,
    show byteBelow 8 (zoneWriteOf z r).sector = some r.sector from byteBelow_byteOf _ (by decide),
    show orNone corridorOf (zoneWriteOf z r).corridor = some r.corridor from orNone_corridor _,
    show byteBelow 16 (zoneWriteOf z r).position = some r.position from byteBelow_byteOf _ (by decide)]
  cases slot
  · simp [writtenZone, Bool.decide_or]
  · simp [writtenZone]

/-- A Write Zone of a record in range: its refusal, its failed check, or its effects (R12). -/
theorem writeZone_of_write (slot : MgmtSlot) (z : ZoneId) (r : ZoneRecord) (s : State) :
   writeZone slot (zoneWriteOf z r) s = (match s.zoneRefusal z (writtenZone slot (s.zone z) r) with
      | some a => (s, a)
      | none =>
        match firstFailure [s.zoneChecks (s.setZone z (writtenZone slot (s.zone z) r)) z, s.zoneRouteCheck (s.setZone z (writtenZone slot (s.zone z) r)) z] with
        | some f => (s, .check f)
        | none => ((s.noteTableWrite slot).applyZone z (writtenZone slot (s.zone z) r), .bare (if slot = .operator ∧ (r.fieldBinding ≠ (s.zone z).fieldBinding ∨ r.requestBinding ≠ (s.zone z).requestBinding) then .partialWrite else .ok))) := by
  unfold writeZone
  have : zoneOf (zoneWriteOf z r).zone = some z := zoneOf_byteOf z
  rw [this]
  simp only [zoneWriteRecord_write, decide_eq_true_eq]
  try rfl

theorem writtenZone_fields (slot old r) : (writtenZone slot old r).defined = r.defined ∧ (writtenZone slot old r).noStop = r.noStop ∧ (writtenZone slot old r).sector = r.sector ∧ (writtenZone slot old r).corridor = r.corridor ∧ (writtenZone slot old r).position = r.position ∧ (writtenZone slot old r).conflicts = old.conflicts := by
  cases slot <;> exact ⟨rfl, rfl, rfl, rfl, rfl, rfl⟩

/-! ## Route records and hops -/

/-- A Write Route out of range carries no record (R45). -/
theorem routeWriteRecord_out (w : RouteWrite) (n : Nat) (h : w.hopCount.toNat < 2 ∨ 256 < w.hopCount.toNat ∨ 2047 < w.firstHop.toNat ∨
        2047 < w.firstHop.toNat + w.hopCount.toNat - 1 ∨ (w.endAction = 2 ∧ 128 ≤ w.linkRoute.toNat)) : routeWriteRecord w n = none := by
  unfold routeWriteRecord
  by_cases f : w.firstHop.toNat < 2048
  · unfold hopOf
    rw [dif_pos f]
    cases yesNoOf w.defined with
    | none => rfl
    | some d =>
    cases e : endActionOf w.endAction with
    | none => rfl
    | some e' =>
      dsimp only
      by_cases g : w.hopCount.toNat < 2 ∨ 256 < w.hopCount.toNat ∨ 2047 < w.firstHop.toNat + w.hopCount.toNat - 1
      · rw [if_pos g]
      · rw [if_neg g]
        have : w.endAction = 2 ∧ 128 ≤ w.linkRoute.toNat := by
          rcases h with h | h | h | h | h
          · omega
          · omega
          · omega
          · omega
          · exact h
        rw [this.1] at e
        cases e
        rw [routeOf_of_le this.2]
  · rw [hopOf_of_le (by omega)]
    cases yesNoOf w.defined <;> rfl

/-- A route record in range is read back from the write that carries it (R45). -/
theorem routeWriteRecord_write (r : RouteId) (x old : RouteRecord) (h : x.inRanges) : routeWriteRecord (routeWriteOf r x) old.users = some (storedRoute old x) := by
  obtain ⟨h1, h2, h3, h4⟩ := h
  unfold routeWriteRecord
  have n : (routeWriteOf r x).hopCount.toNat = x.hopCount := by simp [routeWriteOf]; omega
  rw [show yesNoOf (routeWriteOf r x).defined = some x.defined from yesNoOf_boolByte _,
    show hopOf (routeWriteOf r x).firstHop = some x.firstHop from hopOf_ofNat _,
    show endActionOf (routeWriteOf r x).endAction = some x.endAction from endActionOf_endActionByte _, n]
  dsimp only
  rw [if_neg (by omega)]
  obtain ⟨d, f, c, e, l, k, u⟩ := x
  cases e
  · simp [storedRoute]
  · simp [storedRoute, routeWriteOf]
  · cases k with
    | none => exact absurd rfl (h4 rfl)
    | some k =>
      have : routeOf (routeWriteOf r ⟨d, f, c, .link, l, some k, u⟩).linkRoute = some k := routeOf_byteOf k
      rw [this]
      simp [storedRoute]

/-- A hop out of range leaves nothing to write (R47). -/
theorem hopsOf_out (l : List (Byte × Byte)) (h : ∃ p ∈ l, 240 ≤ p.1.toNat ∨ 4 ≤ p.2.toNat) : hopsOf l = none := by
  induction l with
  | nil => obtain ⟨p, hp, _⟩ := h; cases hp
  | cons q l ih =>
    obtain ⟨z, v⟩ := q
    obtain ⟨p, hp, g⟩ := h
    unfold hopsOf
    rcases List.mem_cons.1 hp with e | e
    · subst e
      rcases g with g | g
      · rw [zoneOf_of_le g]
      · rw [byteBelow_of_le g]; cases zoneOf z <;> rfl
    · rw [ih ⟨p, e, g⟩]; cases zoneOf z <;> cases byteBelow 4 v <;> rfl

theorem hopsOf_write (l : List Hop) : hopsOf (l.map hopWriteOf) = some l := by
  induction l with
  | nil => rfl
  | cons x l ih =>
    obtain ⟨z, v⟩ := x
    show hopsOf ((byteOf z.val, byteOf v.val) :: l.map hopWriteOf) = _
    unfold hopsOf
    rw [zoneOf_byteOf, byteBelow_byteOf v (by decide), ih]

/-- The hops after a Write Hops within the store (R47). -/
theorem hop_writeHopsAt (l : List Hop) (n : Nat) (h : n + l.length ≤ 2048) (s : State) :
   (∀ i : HopIdx, (s.writeHopsAt n l).hop i = (l[i.val - n]?).elim (s.hop i) (fun h => if n ≤ i.val then h else s.hop i)) ∧
   s.writeHopsAt n l = { s with hops := (s.writeHopsAt n l).hops } := by
  induction l generalizing s n with
  | nil => exact ⟨fun i => rfl, rfl⟩
  | cons x l ih =>
    simp only [List.length_cons] at h
    obtain ⟨a, b⟩ := ih (n+1) (by omega) (s.setHop (Fin.ofNat 2048 n) x)
    have u : s.writeHopsAt n (x :: l) = (s.setHop (Fin.ofNat 2048 n) x).writeHopsAt (n+1) l := rfl
    rw [u]
    refine ⟨?_, ?_⟩
    · intro i
      rw [a i, hop_setHop]
      have fn : (Fin.ofNat 2048 n).val = n := by simp; omega
      by_cases c : i.val < n
      · have e1 : i.val - (n+1) = 0 := by omega
        have e2 : i.val - n = 0 := by omega
        rw [e1, e2, if_neg (by intro e; rw [e, fn] at c; omega)]
        simp only [show ¬ n ≤ i.val by omega, show ¬ n+1 ≤ i.val by omega, if_false]
        cases l[0]? <;> simp
      · by_cases d : i.val = n
        · have e1 : i.val - (n+1) = 0 := by omega
          have e2 : i.val - n = 0 := by omega
          rw [e1, e2, if_pos (Fin.ext (by rw [fn, d]))]
          simp only [show n ≤ i.val by omega, show ¬ n+1 ≤ i.val by omega, if_false, if_true]
          cases l[0]? <;> simp
        · obtain ⟨j, hj⟩ : ∃ j, i.val = n + 1 + j := ⟨i.val - (n+1), by omega⟩
          have e1 : i.val - (n+1) = j := by omega
          have e2 : i.val - n = j+1 := by omega
          rw [e1, e2, if_neg (by intro e; rw [e, fn] at d; exact d rfl)]
          simp only [show n ≤ i.val by omega, show n+1 ≤ i.val by omega, if_true, List.getElem?_cons_succ]
    · rw [b]; rfl

end Sys2Proof.Machine
end

