-- ==== Sys2Proof/Laws/Zones.lean ====
section
/-! SUPPORT. The refusals and checks of a Write Zone (R13 to R15) as the statements say them: what the guard, the corridor checks, the polarity check and the route check each come to. -/

namespace Sys2Proof.Machine

/-- A number below 256 in two bytes. -/
theorem halfBytes_small {n : Nat} (h : n < 256) : halfBytes (BitVec.ofNat 16 n) = [0, byteOf n] := by
  have hi : (BitVec.ofNat 16 n).extractLsb' 8 8 = 0 := by
    apply BitVec.eq_of_toNat_eq
    simp [Nat.shiftRight_eq_div_pow]
    omega
  have lo : (BitVec.ofNat 16 n).extractLsb' 0 8 = byteOf n := by
    apply BitVec.eq_of_toNat_eq
    simp [byteOf]
  unfold halfBytes
  rw [hi, lo]

/-- The positions of a corridor's zones run from 0 exactly when the check of R14 finds no gap. -/
theorem gapFree_iff (s : State) (k : CorridorId) : s.gapFree k = true ↔ s.positionsRun k := by
  unfold State.gapFree State.positionsRun
  simp only [List.all_eq_true, List.mem_range, List.length_map, List.contains_eq_mem, decide_eq_true_eq, List.mem_map,
    List.mem_filter, beq_iff_eq]
  refine forall_congr' fun p => forall_congr' fun _ => exists_congr fun z => ?_
  simp [allZones]

theorem gapFree_false {s : State} {k : CorridorId} (h : ¬s.positionsRun k) : s.gapFree k = false := by
  cases e : s.gapFree k
  · rfl
  · exact absurd ((gapFree_iff s k).1 e) h

/-- Which zones a HOLD or CORRIDOR waiter guards (R13). -/
theorem zoneAwaited_iff (s : State) (z : ZoneId) : s.zoneAwaited z = true ↔ s.awaited z := by
  unfold State.zoneAwaited State.awaited allCarriers
  simp only [List.any_eq_true, List.mem_finRange, true_and, Bool.and_eq_true, beq_iff_eq]
  refine exists_congr fun c => and_congr_right fun _ => ?_
  cases h : (s.carrier c).wait with
  | hold => simp
  | corridor k =>
    simp only [List.any_eq_true, beq_iff_eq]
    constructor
    · exact fun g => .inr ⟨k, rfl, g⟩
    · rintro (⟨e, _⟩ | ⟨l, e, g⟩)
      · cases e
      · cases e; exact g
  | _ => simp

/-- A zone is busy exactly while it has a holder or waiters (R13). -/
theorem zoneBusy_iff (s : State) (z : ZoneId) : s.zoneBusy z = true ↔ s.holder z ≠ none ∨ (s.zst z).queue ≠ [] := by
  unfold State.zoneBusy
  cases s.holder z <;> cases (s.zst z).queue <;> simp

theorem zoneBusy_false {s : State} {z : ZoneId} (h : s.holder z = none) (q : (s.zst z).queue = []) : s.zoneBusy z = false := by
  simp [State.zoneBusy, h, q]

theorem movesLayout_iff (slot : MgmtSlot) (r old : ZoneRecord) :
    (writtenZone slot old r).movesLayout old = true ↔ ¬r.sameLayout old := by
  obtain ⟨w1, w2, w3, w4, w5, w6⟩ := writtenZone_fields slot old r
  unfold ZoneRecord.movesLayout ZoneRecord.sameLayout
  rw [w2, w3, w4, w5]
  simp only [Bool.or_eq_true, bne_iff_ne, ne_eq, Classical.not_and_iff_not_or_not, or_assoc]

theorem routeNames_iff (s : State) (z : ZoneId) (q : RouteId) :
    ((s.route q).defined && (s.hopRange q).any (fun x => s.hopZone x.hop == z)) = true ↔ s.routeNames q z := by
  unfold State.routeNames
  simp

/-- A write that passes R13 is not refused. -/
theorem zoneRefusal_none (slot : MgmtSlot) {s : State} {z : ZoneId} {r : ZoneRecord} (h : s.passesGuard z r) :
    s.zoneRefusal z (writtenZone slot (s.zone z) r) = none := by
  obtain ⟨w1, w2, w3, w4, w5, w6⟩ := writtenZone_fields slot (s.zone z) r
  unfold State.zoneRefusal
  simp only [w1]
  cases d : (s.zone z).defined with
  | false => simp
  | true =>
    obtain ⟨u, k⟩ := h d
    cases e : r.defined with
    | false =>
      obtain ⟨h1, h2, h3⟩ := u e
      have n : s.routeNaming z = none := by
        unfold State.routeNaming
        rw [List.find?_eq_none]
        intro q _
        exact fun g => h3 q ((routeNames_iff s z q).1 g)
      simp [zoneBusy_false h1 h2, n]
    | true =>
      by_cases m : r.sameLayout (s.zone z)
      · have : (writtenZone slot (s.zone z) r).movesLayout (s.zone z) = false := by
          cases x : (writtenZone slot (s.zone z) r).movesLayout (s.zone z)
          · rfl
          · exact absurd m ((movesLayout_iff ..).1 x)
        simp [this]
      · obtain ⟨h1, h2, h3⟩ := k e m
        have : s.zoneAwaited z = false := by
          cases x : s.zoneAwaited z
          · rfl
          · exact absurd ((zoneAwaited_iff s z).1 x) h3
        simp [zoneBusy_false h1 h2, this]

/-- The first other zone that satisfies a test, where one does and no lower one. -/
theorem otherZone_eq {z w : ZoneId} {p : ZoneId → Bool} (ne : w ≠ z) (h : p w = true) (k : ∀ v < w, v ≠ z → p v = false) :
    otherZone z p = some w := by
  refine find_lowest _ w (by simp [ne, h]) ?_
  intro v hv
  by_cases e : v = z
  · simp [e]
  · simp [k v hv e]

theorem otherZone_none {z : ZoneId} {p : ZoneId → Bool} (h : ∀ w, w ≠ z → p w = false) : otherZone z p = none := by
  unfold otherZone
  rw [List.find?_eq_none]
  intro w _
  by_cases e : w = z
  · simp [e]
  · simp [h w e]

theorem opposes_iff (s : State) (w : ZoneId) (b : FieldBinding) : s.opposes b w = true ↔ s.bindsAgainst w b := by
  unfold State.bindsAgainst State.opposes
  cases (s.zone w).fieldBinding <;> simp [and_assoc]

theorem opposes_false {s : State} {w : ZoneId} {b : FieldBinding} (h : ¬s.bindsAgainst w b) : s.opposes b w = false := by
  cases e : s.opposes b w
  · rfl
  · exact absurd ((opposes_iff s w b).1 e) h

/-- No other zone stands at a position that is free for the zone written. -/
theorem placeFree_other {s : State} {z : ZoneId} {r : ZoneRecord} {k : CorridorId} (h : s.placeFree z r k) :
    otherZone z (fun w => s.corridorOfZone w == some k && (s.zone w).position == r.position) = none := by
  refine otherZone_none fun w ne => ?_
  by_cases e : s.corridorOfZone w = some k
  · simp [e, h.2 w ne e]
  · simp [e]

/-- The check for the corridor named finds nothing where the place is free and, in SERVICE mode, the positions run. -/
theorem checkNewPlace_none {s t : State} {z : ZoneId} {slot : MgmtSlot} {old r : ZoneRecord} (tz : t.zone z = writtenZone slot old r)
    (h : ∀ k, r.defined = true → r.corridor = some k → s.placeFree z r k ∧ (s.mode = .service → t.positionsRun k)) :
    s.checkNewPlace t z = none := by
  obtain ⟨w1, w2, w3, w4, w5, w6⟩ := writtenZone_fields slot old r
  unfold State.checkNewPlace
  simp only [tz, w1, w4, w5]
  cases d : r.defined with
  | false => rfl
  | true =>
    cases c : r.corridor with
    | none => rfl
    | some l =>
      obtain ⟨pl, gl⟩ := h l d c
      simp only [if_true]
      simp only [firstFailure, pl.1, placeFree_other pl]
      cases m : s.mode with
      | safe => simp
      | service => simp [(gapFree_iff t l).2 (gl m)]

/-- The check for the corridor left finds nothing where, in SERVICE mode, its positions still run. -/
theorem checkPlaceLeft_none {s t : State} {z : ZoneId} {slot : MgmtSlot} {old r : ZoneRecord} (tz : t.zone z = writtenZone slot old r)
    (h : ∀ k, s.mode = .service → s.corridorOfZone z = some k →
      r.defined = false ∨ r.corridor ≠ some k ∨ r.position ≠ (s.zone z).position → t.positionsRun k) :
    s.checkPlaceLeft t z = none := by
  obtain ⟨w1, w2, w3, w4, w5, w6⟩ := writtenZone_fields slot old r
  unfold State.checkPlaceLeft
  simp only [tz, w1, w4, w5]
  cases c : s.corridorOfZone z with
  | none => rfl
  | some k =>
    simp only
    rw [if_neg]
    simp only [Bool.and_eq_true, beq_iff_eq, Bool.or_eq_true, Bool.not_eq_true', bne_iff_ne]
    rintro ⟨⟨m, x⟩, y⟩
    have := (gapFree_iff t k).2 (h k m c (or_assoc.1 x))
    rw [this] at y
    cases y

/-- The routes of R15, as the statements name them. -/
theorem mem_routesTouching (s : State) (z : ZoneId) (q : RouteId) : q ∈ s.routesTouching z ↔ s.routeTouches q z := by
  unfold State.routesTouching State.routeTouches
  simp only [List.mem_filter, allRoutes, List.mem_finRange, true_and, Bool.and_eq_true, Bool.or_eq_true, beq_iff_eq]
  simp only [← routeNames_iff, Bool.and_eq_true]
  constructor
  · rintro ⟨a, b | ⟨c, e⟩⟩
    · exact .inl b
    · refine .inr ⟨a, c, ?_⟩
      cases l : (s.route q).linkRoute with
      | none => rw [l] at e; cases e
      | some y => rw [l] at e; exact ⟨y, rfl, by simpa using e⟩
  · rintro (b | ⟨a, c, y, l, e⟩)
    · exact ⟨b.1, .inl b⟩
    · refine ⟨a, .inr ⟨c, ?_⟩⟩
      rw [l]; simpa using e

/-- The first touching route that fails gives the index (R15). -/
theorem findSome_routesTouching {t : State} {z : ZoneId} {q : RouteId} {f : CheckFailure} (tq : t.routeTouches q z)
    (fq : t.routeCheck q = some f) (lq : ∀ p < q, t.routeTouches p z → t.routeCheck p = none) :
    (t.routesTouching z).findSome? (fun r => (t.routeCheck r).map (fun f => (⟨f.kind, r.val⟩ : CheckFailure)))
      = some ⟨f.kind, q.val⟩ := by
  obtain ⟨a, b, e⟩ := List.append_of_mem ((mem_routesTouching t z q).2 tq)
  have sub : (t.routesTouching z).Pairwise (· < ·) := by
    unfold State.routesTouching allRoutes
    exact List.Pairwise.filter _ (List.pairwise_lt_finRange 128)
  have none : a.findSome? (fun r => (t.routeCheck r).map (fun f => (⟨f.kind, r.val⟩ : CheckFailure))) = none := by
    rw [List.findSome?_eq_none_iff]
    intro x hx
    rw [e, List.pairwise_append] at sub
    rw [lq x (sub.2.2 x hx q (by simp)) ((mem_routesTouching t z x).1 (by rw [e]; simp [hx]))]
    rfl
  rw [e, List.findSome?_append, List.findSome?_cons, fq, none]
  rfl

end Sys2Proof.Machine
end

