-- ==== Sys2Proof/Laws/Passes.lean ====
section
/-! SUPPORT. What leaving and undirecting change in a corridor, the small effects of the engine as the statements name them, and the wakes as folds. -/

namespace Sys2Proof.Machine

/-! ## Corridors -/

theorem lastDirected_iff (x : CorridorState) (c : CarrierId) : x.lastDirected c ↔
    (x.directs c && !({ x with occupants := x.occupants.filter (fun o => o.slot != c) } : CorridorState).hasDirected) = true := by
  have key : (∃ o, x.occupant c = some o ∧ o.direction ≠ none) ↔ x.directs c = true := by
    unfold CorridorState.directs
    constructor
    · rintro ⟨⟨a, d⟩, h, k⟩
      rw [h]
      cases d <;> simp_all
    · intro h
      split at h
      · next a e g => exact ⟨_, g, by simp⟩
      · cases h
  unfold CorridorState.lastDirected
  rw [key, Bool.and_eq_true]
  refine and_congr Iff.rfl ?_
  simp only [CorridorState.hasDirected, Bool.not_eq_true', List.any_eq_false, List.mem_filter, bne_iff_ne, Option.isSome_iff_ne_none, ne_eq, Decidable.not_not, and_imp]

theorem hasDirected_directEntry (x : CorridorState) (c : CarrierId) :
    ({ x with occupants := directEntry c none x.occupants } : CorridorState).hasDirected
      = ({ x with occupants := x.occupants.filter (fun o => o.slot != c) } : CorridorState).hasDirected := by
  unfold CorridorState.hasDirected directEntry
  simp only
  induction x.occupants with
  | nil => rfl
  | cons o l ih =>
    rw [List.map_cons, List.any_cons, List.filter_cons]
    by_cases h : o.slot = c
    · simp [h, ih]
    · simp [h, ih]

theorem leave_of_last {x : CorridorState} {c : CarrierId} (h : x.lastDirected c) :
    x.leave c = ({ x with
        occupants := x.occupants.filter (fun o => o.slot != c), direction := none, count := 0
        flow := if ∀ o ∈ x.occupants, o.slot = c then .free else .flowing }, true) := by
  have e := (lastDirected_iff x c).1 h
  unfold CorridorState.leave
  simp only [e, if_true, CorridorState.turned]
  simp [List.isEmpty_iff, List.filter_eq_nil_iff]

theorem leave_of_not_last {x : CorridorState} {c : CarrierId} (h : ¬x.lastDirected c) :
    x.leave c = ({ x with
        occupants := x.occupants.filter (fun o => o.slot != c)
        flow := if x.flow = .flowing ∧ ∀ o ∈ x.occupants, o.slot = c then .free else x.flow }, false) := by
  unfold CorridorState.leave
  simp only
  rw [if_neg (fun k => h ((lastDirected_iff x c).2 k))]
  simp only [Bool.and_eq_true, List.isEmpty_iff, List.filter_eq_nil_iff, bne_iff_ne, ne_eq, Decidable.not_not, beq_iff_eq, and_comm]

theorem undirect_of_last {x : CorridorState} {c : CarrierId} (h : x.lastDirected c) :
    x.undirect c = ({ x with
        occupants := x.occupants.map (fun o => if o.slot = c then ⟨c, none⟩ else o), direction := none, count := 0
        flow := .flowing }, true) := by
  have e := (lastDirected_iff x c).1 h
  obtain ⟨⟨o, ho, -⟩, -⟩ := h
  have ne : x.occupants ≠ [] := by
    intro k; rw [CorridorState.occupant, k] at ho; cases ho
  unfold CorridorState.undirect
  simp only [hasDirected_directEntry, e, if_true, CorridorState.turned]
  simp [directEntry, List.isEmpty_iff, ne]

theorem undirect_of_not_last {x : CorridorState} {c : CarrierId} (h : ¬x.lastDirected c) :
    x.undirect c = ({ x with occupants := x.occupants.map (fun o => if o.slot = c then ⟨c, none⟩ else o) }, false) := by
  unfold CorridorState.undirect
  simp only
  rw [hasDirected_directEntry, if_neg (fun k => h ((lastDirected_iff x c).2 k))]
  rfl

theorem queue_enter (x : CorridorState) (q : Nat) (c : CarrierId) (d : Direction) : (x.enter q c d).queue = x.queue := by
  have k : ∀ y : CorridorState, (y.countEntry q d).queue = y.queue := by
    intro y; unfold CorridorState.countEntry; split <;> rfl
  unfold CorridorState.enter
  split
  · rfl
  · dsimp only; split
    · rfl
    · exact k _
  · dsimp only; split
    · rfl
    · exact k _

/-! ## Small effects -/

theorem inputs_recomputeBinding (s : State) (b : Option RequestBinding) (f : FieldSlotId) :
    ((s.recomputeBinding b).fieldSlot f).inputs = (s.fieldSlot f).inputs := by
  cases b with
  | none => rfl
  | some b => exact inputs_setOutput ..

theorem recomputeBinding_only (s : State) (b : Option RequestBinding) : s.recomputeBinding b = { s with fieldSlots := (s.recomputeBinding b).fieldSlots } := by
  cases b <;> rfl

theorem setHolder_only (s : State) (z : ZoneId) (h : Option CarrierId) :
    s.setHolder z h = { s with zoneStates := (s.setHolder z h).zoneStates, fieldSlots := (s.setHolder z h).fieldSlots } := by
  unfold State.setHolder State.recomputeOutput
  rw [recomputeBinding_only]
  rfl

theorem zst_setHolder (s : State) (z w : ZoneId) (h : Option CarrierId) : (s.setHolder z h).zst w =
    if w = z then { s.zst z with holder := h, blocked := (s.setZst z { s.zst z with holder := h }).blockedValue z } else s.zst w := by
  unfold State.setHolder State.recomputeOutput State.recomputeBlocked
  rw [zst_recomputeBinding, zst_setZst]
  split
  · simp
  · next e => rw [zst_setZst, if_neg e]

/-- Giving up a zone (R81 step 1). -/
theorem givenUp (s : State) (c : CarrierId) (z : ZoneId) :
    GivenUp s ((s.modCarrier c (fun r => { r with held := r.held.filter (fun e => e.zone != z) })).setHolder z none) c z where
  carrier := by rw [carrier_setHolder, carrier_modCarrier_self]
  others d h := by rw [carrier_setHolder, carrier_modCarrier, if_neg h]
  zone := by
    rw [zst_setHolder, if_pos rfl]
    simp [State.blockedValue, State.holder]
  zones w h := by rw [zst_setHolder, if_neg h]; rfl
  inputs f := by unfold State.setHolder State.recomputeOutput; rw [inputs_recomputeBinding]; rfl
  rest := by rw [setHolder_only]; rfl

/-- What leaving its queue writes of the state: the queues and request outputs. -/
theorem leaveQueue_only (s : State) (c : CarrierId) : s.leaveQueue c = { s with
    zoneStates := (s.leaveQueue c).zoneStates, corridorStates := (s.leaveQueue c).corridorStates
    holdWait := (s.leaveQueue c).holdWait, fieldSlots := (s.leaveQueue c).fieldSlots } := by
  unfold State.leaveQueue
  split <;> first | rfl | (unfold State.recomputeOutput; rw [recomputeBinding_only]; rfl)

theorem zst_leaveQueue (s : State) (c : CarrierId) (z : ZoneId) : (s.leaveQueue c).zst z = { s.zst z with
    queue := if (s.carrier c).wait = .zone z ∨ (s.carrier c).wait = .conflict z ∨ (s.carrier c).wait = .field z
      then (s.zst z).queue.filter (fun w => w.slot != c) else (s.zst z).queue } := by
  have key : ∀ w, (s.leaveZoneQueue c w).zst z = { s.zst z with
      queue := if z = w then (s.zst z).queue.filter (fun x => x.slot != c) else (s.zst z).queue } := by
    intro w
    unfold State.leaveZoneQueue
    rw [zst_setZst]
    split
    · next e => rw [e]
    · rfl
  unfold State.leaveQueue
  split
  · next e => simp [e]
  · next w e => unfold State.recomputeOutput; rw [zst_recomputeBinding, key]; simp [e, eq_comm]
  · next w e => unfold State.recomputeOutput; rw [zst_recomputeBinding, key]; simp [e, eq_comm]
  · next w e => unfold State.recomputeOutput; rw [zst_recomputeBinding, key]; simp [e, eq_comm]
  · next k e => simp [e, State.leaveCorridorQueue]
  · next e =>
    rw [e]
    rfl

theorem cst_leaveQueue (s : State) (c : CarrierId) (k : CorridorId) : (s.leaveQueue c).cst k = { s.cst k with
    queue := if (s.carrier c).wait = .corridor k then (s.cst k).queue.filter (fun w => w.slot != c) else (s.cst k).queue } := by
  have out : ∀ (t : State) (z : ZoneId), (t.recomputeOutput z).cst k = t.cst k := by
    intro t z
    unfold State.recomputeOutput
    rw [recomputeBinding_only]
    rfl
  unfold State.leaveQueue
  split
  · next e => simp [e]
  · next w e => rw [out]; simp [e, State.leaveZoneQueue]
  · next w e => rw [out]; simp [e, State.leaveZoneQueue]
  · next w e => rw [out]; simp [e, State.leaveZoneQueue]
  · next j e =>
    unfold State.leaveCorridorQueue
    rw [cst_setCst]
    by_cases h : k = j
    · rw [if_pos h, e, h, if_pos rfl]
    · rw [if_neg h, e, if_neg (fun x => h (by injection x with x; exact x.symm))]
  · next e => rw [e]; rfl

theorem holdWait_leaveQueue (s : State) (c : CarrierId) : (s.leaveQueue c).holdWait =
    if (s.carrier c).wait = .hold then s.holdWait.filter (fun w => w.slot != c) else s.holdWait := by
  have out : ∀ (t : State) (z : ZoneId), (t.recomputeOutput z).holdWait = t.holdWait := by
    intro t z
    unfold State.recomputeOutput
    rw [recomputeBinding_only]
  unfold State.leaveQueue
  split
  · next e => simp [e]
  · next w e => rw [out]; simp [e, State.leaveZoneQueue]
  · next w e => rw [out]; simp [e, State.leaveZoneQueue]
  · next w e => rw [out]; simp [e, State.leaveZoneQueue]
  · next j e => simp [e, State.leaveCorridorQueue]
  · next e => simp [e]

theorem inputs_leaveQueue (s : State) (c : CarrierId) (f : FieldSlotId) :
    ((s.leaveQueue c).fieldSlot f).inputs = (s.fieldSlot f).inputs := EngineFrame.inputs (EngineFrame.leaveQueue s c) f

/-- Leaving a queue, the wait cleared (R8, R32, R80, R55). -/
theorem dequeued (s : State) (c : CarrierId) : Dequeued s ((s.leaveQueue c).clearWait c) c where
  carrier := by rw [State.clearWait, carrier_modCarrier_self, carrier_leaveQueue]
  others d h := by rw [State.clearWait, carrier_modCarrier, if_neg h, carrier_leaveQueue]
  zoneQueues z := zst_leaveQueue s c z
  corridorQueues k := cst_leaveQueue s c k
  holdWait := holdWait_leaveQueue s c
  inputs f := inputs_leaveQueue s c f
  rest := by
    unfold State.clearWait State.modCarrier
    rw [leaveQueue_only]
    rfl

/-- Entering a state (R55, R69, R165). -/
theorem stateEntered (s : State) (c : CarrierId) (x : CarrierState) : StateEntered s (s.enterState c x) c x where
  carrier := by simp [State.enterState, State.flagState, carrier_modCarrier_self]
  others d h := carrier_enterState_of_ne s x h
  watches w := by rw [State.enterState, watch_breakWatch]; rfl
  machines w := by rw [State.enterState, machine_breakWatch]; rfl
  rest := rfl

/-- A WAITING carrier settled leaves its queue and becomes ADVANCING (R55, R84). -/
theorem settle_of_waiting {s : State} {c : CarrierId} (h : (s.carrier c).state = .waiting) :
    ∃ u, Dequeued s u c ∧ StateEntered u (s.settle c) c .advancing :=
  ⟨_, dequeued s c, by unfold State.settle; rw [if_pos h]; exact stateEntered ..⟩

theorem settle_of_advancing {s : State} {c : CarrierId} (h : (s.carrier c).state = .advancing) : s.settle c = s := by
  unfold State.settle
  rw [if_neg (by rw [h]; simp)]

theorem carrier_settle {t : State} {c : CarrierId} (a : t.active c) : ((t.settle c).carrier c) = { t.carrier c with
    state := .advancing
    wait := if (t.carrier c).state = .waiting then .none else (t.carrier c).wait
    waitAge := if (t.carrier c).state = .waiting then 0 else (t.carrier c).waitAge
    flags := { (t.carrier c).flags with state := (t.carrier c).flags.state || decide ((t.carrier c).state = .waiting) } } := by
  rcases a with a | a
  · rw [settle_of_advancing a]
    generalize t.carrier c = x at a ⊢
    cases x
    simp only at a
    subst a
    simp
  · obtain ⟨u, d, e⟩ := settle_of_waiting a
    rw [e.carrier, d.carrier, a]
    simp

theorem settle_others (t : State) (c : CarrierId) : (∀ d, d ≠ c → (t.settle c).carrier d = t.carrier d) ∧
    (∀ z, (t.settle c).zst z = { t.zst z with
      queue := if (t.carrier c).state = .waiting ∧
          ((t.carrier c).wait = .zone z ∨ (t.carrier c).wait = .conflict z ∨ (t.carrier c).wait = .field z)
        then (t.zst z).queue.filter (fun w => w.slot != c) else (t.zst z).queue }) ∧
    (∀ k, (t.settle c).cst k = { t.cst k with
      queue := if (t.carrier c).state = .waiting ∧ (t.carrier c).wait = .corridor k then (t.cst k).queue.filter (fun w => w.slot != c) else (t.cst k).queue }) ∧
    (∀ w, (t.settle c).watch w = t.watch w ∨ (t.settle c).watch w = (t.watch w).breakFor c) := by
  by_cases a : (t.carrier c).state = .waiting
  · obtain ⟨u, d, e⟩ := settle_of_waiting a
    refine ⟨fun x h => by rw [e.others x h, d.others x h], fun z => ?_, fun k => ?_, fun w => Or.inr ?_⟩
    · have : (t.settle c).zst z = u.zst z := by rw [e.rest]; rfl
      rw [this, d.zoneQueues]; simp only [a, true_and]
    · have : (t.settle c).cst k = u.cst k := by rw [e.rest]; rfl
      rw [this, d.corridorQueues]; simp only [a, true_and]
    · rw [e.watches, d.rest]; cases w <;> rfl
  · have : t.settle c = t := by unfold State.settle; rw [if_neg a]
    rw [this]
    refine ⟨fun _ _ => rfl, fun z => by simp only [a, false_and, if_false], fun k => by simp only [a, false_and, if_false], fun w => Or.inl rfl⟩

theorem holder_settle (t : State) (c : CarrierId) (z : ZoneId) : (t.settle c).holder z = t.holder z := by
  unfold State.holder; rw [(settle_others t c).2.1]

/-! ## Coverage and the conditions of a pass -/

theorem covered_iff (s : State) (c : CarrierId) : s.covered c = true ↔
    s.districtActive = true ∨ ∃ z, s.front c = some z ∧ s.sectorActive (s.zone z).sector = true := by
  unfold State.covered
  rw [Bool.or_eq_true]
  refine or_congr Iff.rfl ?_
  split
  · next e => simp [e]
  · next z e => simp [e]

theorem passAllowed_iff (s : State) (c : CarrierId) : s.passAllowed c = true ↔
    s.active c ∧ s.mode = .service ∧ s.stopMarker = false ∧ s.covered c = false := by
  unfold State.passAllowed State.active
  simp only [Bool.and_eq_true, Bool.or_eq_true, beq_iff_eq, Bool.not_eq_true', and_assoc]

theorem runPass_of_not {s : State} {c : CarrierId} (h : s.passAllowed c = false) : s.runPass c = s := by
  unfold State.runPass; rw [h]; rfl

theorem examine_of_allowed {s : State} {c : CarrierId} (h : s.passAllowed c = true) : examine c s = s.runPass c := by
  unfold examine examineWith State.runPass; rw [h]; rfl

/-- A pass that is not made (R84): the carrier leaves its queue, and a token holder without PENDING entries its token. -/
theorem examine_of_not {s : State} {c : CarrierId} (h : s.passAllowed c = false) (w : (s.carrier c).state = .waiting) :
    ∃ u v : State, Dequeued s u c ∧ StateEntered u v c .advancing ∧
      examine c s = if s.pinToken = some c ∧ s.hasPending c = false then { v with pinToken := none } else v := by
  obtain ⟨u, hu, hv⟩ := settle_of_waiting w
  refine ⟨u, s.settle c, hu, hv, ?_⟩
  have p : (s.settle c).pinToken = s.pinToken := by rw [hv.rest, hu.rest]
  have q : (s.settle c).hasPending c = s.hasPending c := by
    unfold State.hasPending; rw [hv.carrier, hu.carrier]
  have st : ((s.settle c).carrier c).state ≠ .waiting := by rw [hv.carrier]; simp
  unfold examine examineWith State.endPass
  rw [h, p, q]
  simp only [Bool.false_eq_true, if_false, st, ne_eq, not_false_eq_true, and_true]

/-! ## Wakes -/

theorem any_ticket {α : Type} (ticket : α → Nat) (l : List α) (n : Nat) :
    (l.any (fun x => ticket x == n) = true) = ∃ x ∈ l, ticket x = n := by
  simp

theorem wakeCorridor_fold (s : State) (k : CorridorId) : s.wakeCorridor k = (s.cst k).queue.foldl
    (fun t w => if ∃ x ∈ (t.cst k).queue, x.ticket = w.ticket then examine w.slot t else t) s := by
  unfold State.wakeCorridor State.wakeCorridorWith
  simp only [any_ticket]

theorem wakeZone_fold (s : State) (z : ZoneId) (causes : List ZoneCause) :
    s.wakeZone z causes = ((s.zst z).queue.filter (fun w => decide (w.cause ∈ causes))).foldl
      (fun t w => if ∃ x ∈ (t.zst z).queue, x.ticket = w.ticket then examine w.slot t else t) s := by
  unfold State.wakeZone
  simp only [any_ticket, List.contains_eq_mem]

theorem holdLifted_fold (s : State) : s.holdLifted =
    (List.finRange 48).foldl (fun t c => if (t.carrier c).state = .advancing then t.runPass c else t)
      (s.holdWait.foldl (fun t w => if ∃ x ∈ t.holdWait, x.ticket = w.ticket then examine w.slot t else t) s) := by
  unfold State.holdLifted State.claimAll
  simp only [any_ticket]
  rfl

/-! ## Releases and undirecting -/

theorem corridorOfZone_setHolder (s : State) (z w : ZoneId) (h : Option CarrierId) :
    (s.setHolder z h).corridorOfZone w = s.corridorOfZone w := by
  rw [setHolder_only]; rfl

/-- A release, part by part (R81). -/
theorem release_parts (s : State) (c : CarrierId) (z : ZoneId) : ∃ u v : State, GivenUp s u c z ∧
    (∀ k, s.corridorOfZone z = some k → (∀ e ∈ (u.carrier c).held, s.corridorOfZone e.zone ≠ some k) →
      v = (if ((s.cst k).leave c).2 = true then (u.setCst k ((s.cst k).leave c).1).wakeCorridor k
        else u.setCst k ((s.cst k).leave c).1)) ∧
    (∀ k, s.corridorOfZone z = some k → (∃ e ∈ (u.carrier c).held, s.corridorOfZone e.zone = some k) → v = u) ∧
    (s.corridorOfZone z = none → v = u) ∧
    s.release c z = (v.breakWatch c).wakeZone z [.zone, .conflict] := by
  have g := givenUp s c z
  have zc : ∀ w, ((s.modCarrier c (fun r => { r with held := r.held.filter (fun e => e.zone != z) })).setHolder z none).corridorOfZone w
      = s.corridorOfZone w := fun w => corridorOfZone_setHolder ..
  unfold State.release
  simp only
  generalize (s.modCarrier c (fun r => { r with held := r.held.filter (fun e => e.zone != z) })).setHolder z none = u at *
  have cs : ∀ k, u.cst k = s.cst k := by intro k; rw [g.rest]; rfl
  refine ⟨u, _, g, ?_, ?_, ?_, rfl⟩
  · intro k hk no
    have h : u.holdsInCorridor c k = false := by
      unfold State.holdsInCorridor
      rw [List.any_eq_false]
      intro e he
      simpa [zc] using no e he
    unfold State.leaveZoneCorridor
    rw [zc, hk, ← cs]
    simp only [h, Bool.false_eq_true, if_false]
    split
    · next e => split at e; cases e; next n => rw [if_neg n]
    · next j e =>
      split at e
      · next n => cases e; rw [if_pos n]
      · cases e
  · rintro k hk ⟨e, he, hz⟩
    have h : u.holdsInCorridor c k = true := by
      unfold State.holdsInCorridor
      rw [List.any_eq_true]
      exact ⟨e, he, by simpa [zc] using hz⟩
    unfold State.leaveZoneCorridor
    rw [zc, hk]
    simp only [h, if_true]
  · intro hk
    unfold State.leaveZoneCorridor
    rw [zc, hk]

theorem releaseAll_fold (s : State) (c : CarrierId) (zs : List ZoneId) :
    s.releaseAll c zs = zs.foldl (fun t z => if t.holds c z = true then t.release c z else t) s := rfl

/-- The releases of some held-list entries, in their order (R81). -/
theorem releaseAll_entries (s : State) (c : CarrierId) (l : List HeldEntry) :
    s.releaseAll c (l.map (·.zone)) = l.foldl (fun t e => if t.holds c e.zone = true then t.release c e.zone else t) s :=
  (releaseAll_fold s c _).trans List.foldl_map

/-- Clear Fault by its steps (R67): the releases of the entries before the rear zone's, then IDLE with no fault kind. -/
theorem clearFaultOf_steps {s : State} {c : CarrierId} {r : ZoneId} (h : s.rear c = some r) : ∃ u : State,
    u = ((s.carrier c).held.take (heldIndex (s.carrier c).held r)).foldl
      (fun v e => if v.holds c e.zone = true then v.release c e.zone else v) s ∧
    StateEntered (u.modCarrier c (fun x => { x with fault := none })) (s.clearFaultOf c) c .idle := by
  refine ⟨_, rfl, ?_⟩
  rw [← releaseAll_entries]
  unfold State.clearFaultOf State.zonesBehind
  rw [h]
  exact stateEntered _ c .idle

/-- Retire Carrier by its steps (R68): the releases of all entries, then VACANT with no fault kind. -/
theorem retire_steps (s : State) (c : CarrierId) : ∃ u : State,
    u = (s.carrier c).held.foldl (fun v e => if v.holds c e.zone = true then v.release c e.zone else v) s ∧
    StateEntered (u.modCarrier c (fun x => { x with fault := none })) (s.retire c) c .vacant :=
  ⟨_, rfl, by rw [← releaseAll_entries]; exact stateEntered _ c .vacant⟩

/-- Undirecting, part by part (R30, R31, R33). -/
theorem undirect_parts (s : State) (c : CarrierId) : ∃ u : State,
    (∀ k, u.cst k = ((s.cst k).undirect c).1) ∧ u = { s with corridorStates := u.corridorStates } ∧
    s.undirect c = (allCorridors.filter (fun k => ((s.cst k).undirect c).2)).foldl State.wakeCorridor u := by
  have key : ∀ (l : List CorridorId) (t : State) (acc : List CorridorId), l.Nodup → (∀ k ∈ l, t.cst k = s.cst k) →
      ∀ r, l.foldl (fun acc k =>
        let x := (acc.1.cst k).undirect c
        (acc.1.setCst k x.1, if x.2 then acc.2 ++ [k] else acc.2)) (t, acc) = r →
      (∀ k, r.1.cst k = if k ∈ l then ((s.cst k).undirect c).1 else t.cst k) ∧
      r.1 = { t with corridorStates := r.1.corridorStates } ∧ r.2 = acc ++ l.filter (fun k => ((s.cst k).undirect c).2) := by
    intro l
    induction l with
    | nil =>
      rintro t acc - - r rfl
      exact ⟨fun k => by simp, rfl, by simp⟩
    | cons j l ih =>
      intro t acc nd same r hr
      rw [List.nodup_cons] at nd
      rw [List.foldl_cons] at hr
      have sj := same j (by simp)
      obtain ⟨a, b, d⟩ := ih (t.setCst j ((s.cst j).undirect c).1) (if ((s.cst j).undirect c).2 then acc ++ [j] else acc) nd.2
        (fun k hk => by
          rw [cst_setCst, if_neg (fun e => by rw [e] at hk; exact nd.1 hk)]
          exact same k (by simp [hk])) r (by rw [← hr, sj])
      refine ⟨fun k => ?_, ?_, ?_⟩
      · rw [a, cst_setCst]
        by_cases hk : k ∈ l
        · simp [hk]
        · by_cases e : k = j
          · simp [e, nd.1]
          · simp [hk, e]
      · rw [b]; rfl
      · rw [d, List.filter_cons]
        by_cases h : ((s.cst j).undirect c).2 = true
        · simp [h]
        · simp [h]
  obtain ⟨a, b, d⟩ := key allCorridors s [] (List.nodup_finRange 32) (fun _ _ => rfl) _ rfl
  refine ⟨(s.undirectAll c).1, fun k => ?_, b, ?_⟩
  · rw [State.undirectAll, a k, if_pos (show k ∈ allCorridors from List.mem_finRange k)]
  · have e : (s.undirectAll c).2 = _ := d
    unfold State.undirect State.undirectWith
    rw [e]
    rfl

end Sys2Proof.Machine
end

