-- ==== Sys2Proof/Laws/Granting.lean ====
section
/-! SUPPORT. What a grant, a pending hold and a whole set leave of the state, part by part (R78, R91, R92). -/

namespace Sys2Proof.Machine

/-! ## Zones taken into a held list -/

theorem enterHeld_only (s : State) (c : CarrierId) (e : HeldEntry) : s.enterHeld c e = { s with
    carriers := (s.enterHeld c e).carriers, zoneStates := (s.enterHeld c e).zoneStates
    fieldSlots := (s.enterHeld c e).fieldSlots } := by
  unfold State.enterHeld
  rw [setHolder_only]
  rfl

theorem carrier_enterHeld (s : State) (c : CarrierId) (e : HeldEntry) :
    (s.enterHeld c e).carrier c = { s.carrier c with held := (s.carrier c).held ++ [e] } := by
  unfold State.enterHeld
  rw [carrier_setHolder, carrier_modCarrier_self]

theorem queue_enterHeld (s : State) (c : CarrierId) (e : HeldEntry) (z : ZoneId) :
    ((s.enterHeld c e).zst z).queue = (s.zst z).queue := by
  unfold State.enterHeld
  rw [zst_setHolder]
  split
  · next h => rw [h]; rfl
  · rfl

/-- Zones that entered a carrier's held list one after the other (R56, R7). -/
structure Entered (s t : State) (c : CarrierId) (l : List HeldEntry) : Prop where
  carrier : t.carrier c = { s.carrier c with held := (s.carrier c).held ++ l }
  others : ∀ d, d ≠ c → t.carrier d = s.carrier d
  holder : ∀ z, t.holder z = if ∃ e ∈ l, e.zone = z then some c else s.holder z
  queue : ∀ z, (t.zst z).queue = (s.zst z).queue
  rest : t = { s with carriers := t.carriers, zoneStates := t.zoneStates, fieldSlots := t.fieldSlots }

theorem entered_one (s : State) (c : CarrierId) (e : HeldEntry) : Entered s (s.enterHeld c e) c [e] where
  carrier := carrier_enterHeld s c e
  others d h := carrier_enterHeld_of_ne s e h
  holder z := by
    rw [holder_enterHeld]
    simp [eq_comm]
  queue := queue_enterHeld s c e
  rest := enterHeld_only s c e

theorem Entered.append {s t u : State} {c : CarrierId} {l m : List HeldEntry} (h : Entered s t c l) (k : Entered t u c m) :
    Entered s u c (l ++ m) where
  carrier := by rw [k.carrier, h.carrier, List.append_assoc]
  others d n := by rw [k.others d n, h.others d n]
  holder z := by
    rw [k.holder, h.holder]
    by_cases a : ∃ e ∈ m, e.zone = z
    · rw [if_pos a, if_pos (by obtain ⟨e, p, q⟩ := a; exact ⟨e, by simp [p], q⟩)]
    · rw [if_neg a]
      by_cases b : ∃ e ∈ l, e.zone = z
      · rw [if_pos b, if_pos (by obtain ⟨e, p, q⟩ := b; exact ⟨e, by simp [p], q⟩)]
      · rw [if_neg b, if_neg]
        rintro ⟨e, p, q⟩
        rw [List.mem_append] at p
        rcases p with p | p
        · exact b ⟨e, p, q⟩
        · exact a ⟨e, p, q⟩
  queue z := by rw [k.queue, h.queue]
  rest := by rw [k.rest, h.rest]

theorem entered_all (c : CarrierId) (f : HopRef → HeldEntry) (set : List HopRef) (s : State) :
    Entered s (set.foldl (fun t x => t.enterHeld c (f x)) s) c (set.map f) := by
  induction set generalizing s with
  | nil => exact ⟨by simp, fun _ _ => rfl, fun z => by simp, fun _ => rfl, rfl⟩
  | cons x l ih => exact (entered_one s c (f x)).append (ih _)

/-! ## Corridors entered -/

theorem entered_corridors (c : CarrierId) (l : List (CorridorId × Direction)) (nd : (l.map (·.1)).Nodup) (s : State) (k : CorridorId) :
    ((l.foldl (fun u (k, d) => u.enterCorridor c k d) s).cst k =
      match l.find? (fun p => p.1 == k) with
      | none => s.cst k
      | some p => (s.cst k).enter (s.corridor k).quota c p.2) ∧
    l.foldl (fun u (k, d) => u.enterCorridor c k d) s =
      { s with corridorStates := (l.foldl (fun u (k, d) => u.enterCorridor c k d) s).corridorStates } := by
  induction l generalizing s with
  | nil => exact ⟨rfl, rfl⟩
  | cons p l ih =>
    obtain ⟨j, d⟩ := p
    rw [List.map_cons, List.nodup_cons] at nd
    obtain ⟨a, b⟩ := ih nd.2 (s.enterCorridor c j d)
    rw [List.foldl_cons]
    refine ⟨?_, b.trans rfl⟩
    rw [a, List.find?_cons]
    by_cases h : j = k
    · subst h
      have none : l.find? (fun p => p.1 == j) = none := by
        rw [List.find?_eq_none]
        intro p hp e
        exact nd.1 (List.mem_map.2 ⟨p, hp, by simpa using e⟩)
      rw [none, beq_self_eq_true]
      simp [State.enterCorridor]
    · rw [show (j == k) = false by simpa using h]
      have e : (s.enterCorridor c j d).cst k = s.cst k := by
        unfold State.enterCorridor; rw [cst_setCst, if_neg (Ne.symm h)]
      split
      · next f => rw [f]; exact e
      · next f => rw [f]; simp only [e]; rfl

theorem find_setCorridors (s : State) (c : CarrierId) (set : List HopRef) (k : CorridorId) :
    (s.setCorridors c set).find? (fun p => p.1 == k) =
      if ∃ x ∈ set, s.corridorOfZone (s.hopZone x.hop) = some k then some (k, s.askedDirection c set k) else none := by
  unfold State.setCorridors
  rw [List.find?_map]
  by_cases h : ∃ x ∈ set, s.corridorOfZone (s.hopZone x.hop) = some k
  · rw [if_pos h]
    have m : k ∈ (set.filterMap (fun x => s.corridorOfZone (s.hopZone x.hop))).eraseDups := by
      rw [List.mem_eraseDups, List.mem_filterMap]
      exact h
    have f : ((set.filterMap (fun x => s.corridorOfZone (s.hopZone x.hop))).eraseDups).find?
        ((fun p : CorridorId × Direction => p.1 == k) ∘ fun k => (k, s.askedDirection c set k)) = some k := by
      cases e : ((set.filterMap (fun x => s.corridorOfZone (s.hopZone x.hop))).eraseDups).find?
        ((fun p : CorridorId × Direction => p.1 == k) ∘ fun k => (k, s.askedDirection c set k)) with
      | none => exact absurd (List.find?_eq_none.1 e k m) (by simp)
      | some j =>
        have := List.find?_some e
        simp only [Function.comp, beq_iff_eq] at this
        rw [this]
    rw [f]
    rfl
  · rw [if_neg h, List.find?_eq_none.2]
    · rfl
    · intro j hj
      rw [List.mem_eraseDups, List.mem_filterMap] at hj
      simp only [Function.comp, beq_iff_eq]
      intro e
      exact h (e ▸ hj)

/-! ## The cursor -/

theorem dropUserOf_only (s : State) (r : Option RouteId) : s.dropUserOf r = { s with routes := (s.dropUserOf r).routes } := by
  cases r <;> rfl

theorem takeSeam_only (s : State) (c : CarrierId) (r : RouteId) :
    s.takeSeam c r = { s with carriers := (s.takeSeam c r).carriers, routes := (s.takeSeam c r).routes } := by
  unfold State.takeSeam
  split
  · rfl
  · rfl
  · split
    · rfl
    · split
      · rw [dropUserOf_only]; rfl
      · rfl

theorem moveCursorPast_only (s : State) (c : CarrierId) (x : HopRef) : s.moveCursorPast c x = { s with
    carriers := (s.moveCursorPast c x).carriers, routes := (s.moveCursorPast c x).routes
    operatorSlot := (s.moveCursorPast c x).operatorSlot, safetySlot := (s.moveCursorPast c x).safetySlot } := by
  unfold State.moveCursorPast
  split
  · rfl
  · rw [takeSeam_only]; rfl

theorem carrier_moveCursorPast (s : State) (c : CarrierId) (x : HopRef) : ∃ r i n,
    (s.moveCursorPast c x).carrier c = { s.carrier c with route := r, cursor := i, laps := n } := by
  unfold State.moveCursorPast
  rw [(breakWatch_accessors _ c).2.2.2.2.2.2.1]
  split
  · exact ⟨_, _, _, carrier_modCarrier_self ..⟩
  · unfold State.takeSeam
    split
    · exact ⟨_, _, _, carrier_modCarrier_self ..⟩
    · exact ⟨_, _, _, carrier_modCarrier_self ..⟩
    · split
      · exact ⟨_, _, _, carrier_modCarrier_self ..⟩
      · split
        · simp only [carrier_modCarrier_self, carrier_addUser, carrier_dropUserOf]
          exact ⟨_, _, _, rfl⟩
        · exact ⟨_, _, _, carrier_modCarrier_self ..⟩

/-- A cursor moved past a set of hops: the carrier's route, cursor and laps, the users counts, and the watches on it (R40, R44, R165). -/
structure Moved (s t : State) (c : CarrierId) (set : List HopRef) : Prop where
  carrier : ∃ r i n, t.carrier c = { s.carrier c with route := r, cursor := i, laps := n }
  next : ∀ x, set.getLast? = some x → x.hop.val < (s.route x.route).lastHop →
    t.carrier c = { s.carrier c with cursor := .hop (hopPlus x.hop 1) }
  others : ∀ d, d ≠ c → t.carrier d = s.carrier d
  rest : t = { s with carriers := t.carriers, routes := t.routes, operatorSlot := t.operatorSlot, safetySlot := t.safetySlot }

theorem moved (s : State) (c : CarrierId) (set : List HopRef) : Moved s (s.moveCursorPastSet c set) c set := by
  unfold State.moveCursorPastSet
  split
  · next e => exact ⟨⟨_, _, _, rfl⟩, fun x h => (by rw [e] at h; cases h), fun _ _ => rfl, rfl⟩
  · next x e =>
    refine ⟨carrier_moveCursorPast s c x, fun y h l => ?_, fun d h => carrier_moveCursorPast_of_ne s x h, moveCursorPast_only s c x⟩
    rw [e] at h
    cases h
    unfold State.moveCursorPast
    rw [if_pos l, (breakWatch_accessors _ c).2.2.2.2.2.2.1]
    exact carrier_modCarrier_self ..

theorem watch_moveCursorPastSet_broken (s : State) (c : CarrierId) (set : List HopRef) (w : MgmtSlot)
    (h : (((s.moveCursorPastSet c set).breakWatch c).watch w).carrier = some c) :
    (((s.moveCursorPastSet c set).breakWatch c).watch w).intact = false := by
  rw [watch_breakWatch] at h ⊢
  unfold Watch.breakFor at h ⊢
  split
  · rfl
  · next n => rw [if_neg n] at h; exact absurd h n

theorem users_dropUserOf (s : State) (r : Option RouteId) (q : RouteId) :
    (s.dropUserOf r).route q = { s.route q with users := (s.route q).users - (if r = some q then 1 else 0) } := by
  cases r with
  | none => simp [State.dropUserOf]
  | some p =>
    unfold State.dropUserOf State.dropUser
    rw [route_setRoute]
    by_cases h : q = p
    · rw [if_pos h, h, if_pos rfl]
    · rw [if_neg h, if_neg (fun e => h (by injection e with e; exact e.symm))]; rfl

theorem users_addUser (s : State) (r q : RouteId) :
    (s.addUser r).route q = { s.route q with users := (s.route q).users + (if r = q then 1 else 0) } := by
  unfold State.addUser
  rw [route_setRoute]
  by_cases h : q = r
  · rw [if_pos h, h, if_pos rfl]
  · rw [if_neg h, if_neg (fun e => h e.symm)]; rfl

theorem lastHop_iff (x : RouteRecord) (h : HopIdx) : h.val < x.lastHop ↔ h.val + 1 < x.firstHop.val + x.hopCount := by
  unfold RouteRecord.lastHop; omega

/-- Taking a route after one of its hops (R40-R42, R44, R166). -/
theorem routeTaken (s : State) (c : CarrierId) (r : RouteId) (h : HopIdx) : RouteTaken s (s.takeRoute c r h) c r h := by
  have base : ∃ b : State, b = ((s.dropUserOf (s.carrier c).route).addUser r).modCarrier c (fun x =>
      { x with route := some r, laps := (s.route r).lapCount }) ∧
      b.carrier c = { s.carrier c with route := some r, laps := (s.route r).lapCount } ∧
      (∀ d, d ≠ c → b.carrier d = s.carrier d) ∧
      (∀ q, b.route q = { s.route q with
        users := (s.route q).users - (if (s.carrier c).route = some q then 1 else 0) + (if r = q then 1 else 0) }) ∧
      b = { s with carriers := b.carriers, routes := b.routes } := by
    refine ⟨_, rfl, ?_, ?_, ?_, ?_⟩
    · simp [carrier_modCarrier_self]
    · intro d n; simp [carrier_modCarrier, n]
    · intro q
      have : ∀ (t : State) f, (t.modCarrier c f).route q = t.route q := fun _ _ => rfl
      rw [this, users_addUser, users_dropUserOf]
    · rw [dropUserOf_only]; rfl
  obtain ⟨b, hb, bc, bo, bu, br⟩ := base
  have bf : ∀ q, (b.route q).firstHop = (s.route q).firstHop := fun q => by rw [bu]
  have bl : ∀ q, (b.route q).lapCount = (s.route q).lapCount := fun q => by rw [bu]
  have bd : ∀ q, (b.route q).defined = (s.route q).defined := fun q => by rw [bu]
  unfold State.takeRoute
  rw [← hb]
  -- the cursor's move
  have mv : ∃ t : State, b.moveCursorPast c ⟨r, h⟩ = t.breakWatch c ∧
      t.carrier c = { s.carrier c with
        route := some (s.placeAfter r h).1, cursor := (s.placeAfter r h).2.1, laps := (s.placeAfter r h).2.2 } ∧
      (∀ d, d ≠ c → t.carrier d = s.carrier d) ∧
      (∀ q, t.route q = { s.route q with
        users := (s.route q).users - (if (s.carrier c).route = some q then 1 else 0) + (if (s.placeAfter r h).1 = q then 1 else 0) }) ∧
      t = { s with carriers := t.carriers, routes := t.routes } := by
    refine ⟨_, rfl, ?_⟩
    have lh : h.val < (b.route r).lastHop ↔ h.val + 1 < (s.route r).firstHop.val + (s.route r).hopCount := by
      rw [lastHop_iff, bu]
    unfold State.placeAfter
    simp only
    by_cases l : h.val + 1 < (s.route r).firstHop.val + (s.route r).hopCount
    · simp only [if_pos (lh.2 l), if_pos l]
      refine ⟨?_, ?_, ?_, ?_⟩
      · unfold State.setCursor; rw [carrier_modCarrier_self, bc]; rfl
      · intro d n; unfold State.setCursor; rw [carrier_modCarrier, if_neg n, bo d n]
      · exact bu
      · unfold State.setCursor State.modCarrier State.setCarrier; rw [br]
    · simp only [if_neg (fun x => l (lh.1 x)), if_neg l]
      unfold State.takeSeam
      rw [show (b.route r).endAction = (s.route r).endAction by rw [bu], show (b.route r).linkRoute = (s.route r).linkRoute by rw [bu]]
      cases ea : (s.route r).endAction with
      | stop =>
        simp only
        refine ⟨?_, ?_, bu, ?_⟩
        · unfold State.setCursor; rw [carrier_modCarrier_self, bc]
        · intro d n; unfold State.setCursor; rw [carrier_modCarrier, if_neg n, bo d n]
        · unfold State.setCursor State.modCarrier State.setCarrier; rw [br]
      | loop =>
        simp only
        refine ⟨?_, ?_, bu, ?_⟩
        · rw [carrier_modCarrier_self, bc, bf]
        · intro d n; rw [carrier_modCarrier, if_neg n, bo d n]
        · unfold State.modCarrier State.setCarrier; rw [br]
      | link =>
        cases lr : (s.route r).linkRoute with
        | none =>
          simp only
          refine ⟨?_, ?_, bu, ?_⟩
          · unfold State.setCursor; rw [carrier_modCarrier_self, bc]
          · intro d n; unfold State.setCursor; rw [carrier_modCarrier, if_neg n, bo d n]
          · unfold State.setCursor State.modCarrier State.setCarrier; rw [br]
        | some q =>
          simp only
          by_cases df : (s.route q).defined = true
          · simp only [bd, df, if_true]
            refine ⟨?_, ?_, ?_, ?_⟩
            · simp only [carrier_modCarrier_self, carrier_addUser, carrier_dropUserOf, bc, bl, bf]
            · intro d n; simp only [carrier_modCarrier, n, if_false, carrier_addUser, carrier_dropUserOf]; exact bo d n
            · intro p
              have : ∀ (t : State) f, (t.modCarrier c f).route p = t.route p := fun _ _ => rfl
              rw [this, users_addUser, users_dropUserOf, bc, bu]
              simp only [Option.some.injEq, Nat.add_sub_cancel]
            · rw [dropUserOf_only]
              unfold State.modCarrier State.setCarrier State.addUser State.setRoute
              generalize b.dropUserOf (b.carrier c).route = x
              rw [br]
          · simp only [bd, df]
            refine ⟨?_, ?_, bu, ?_⟩
            · unfold State.setCursor
              simp only [Bool.false_eq_true, if_false]
              rw [carrier_modCarrier_self, bc]
            · intro d n; unfold State.setCursor; simp only [Bool.false_eq_true, if_false]; rw [carrier_modCarrier, if_neg n, bo d n]
            · unfold State.setCursor State.modCarrier State.setCarrier; simp only [Bool.false_eq_true, if_false]; rw [br]
  obtain ⟨t, e, tc, ta, tu, tr⟩ := mv
  rw [e]
  exact ⟨tc, ta, tu, fun w => by rw [watch_breakWatch, tr]; cases w <;> rfl, fun w => by rw [machine_breakWatch, tr]; cases w <;> rfl,
    by unfold State.breakWatch; rw [tr]⟩

/-- An applied Replace Route, step by step (R166). -/
theorem replace_parts (n : State) (c : CarrierId) (r : RouteId) (h : HopIdx) : ∃ a b g : State,
    ((n.carrier c).state = .waiting → Dequeued n a c) ∧ ((n.carrier c).state ≠ .waiting → a = n) ∧
    RouteTaken (a.leaveClaim c) b c r h ∧
    (((b.undirect c).carrier c).state = .advancing → g = b.undirect c) ∧
    (((b.undirect c).carrier c).state ≠ .advancing → StateEntered (b.undirect c) g c .advancing) ∧
    n.replace c r h = (g.breakWatch c).runPass c := by
  unfold State.replace
  simp only
  generalize ha : (if (n.carrier c).state = .waiting then (n.leaveQueue c).clearWait c else n) = a
  refine ⟨a, _, _, fun w => by rw [← ha, if_pos w]; exact dequeued n c, fun w => by rw [← ha, if_neg w], routeTaken .., ?_, ?_, rfl⟩
  · intro w; rw [if_pos w]
  · intro w; rw [if_neg w]; exact stateEntered ..
/-! ## The grant (R78) -/

/-- A set granted, the carrier not yet settled (R78). -/
structure SetTaken (s t : State) (c : CarrierId) (set : List HopRef) : Prop where
  carrier : ∃ r i n, t.carrier c = { s.carrier c with
    held := (s.carrier c).held ++ set.map (fun x => ⟨s.hopZone x.hop, .granted, some x⟩), route := r, cursor := i, laps := n }
  next : ∀ x, set.getLast? = some x → x.hop.val < (s.route x.route).lastHop →
    t.carrier c = { s.carrier c with
      held := (s.carrier c).held ++ set.map (fun x => ⟨s.hopZone x.hop, .granted, some x⟩), cursor := .hop (hopPlus x.hop 1) }
  others : ∀ d, d ≠ c → t.carrier d = s.carrier d
  holder : ∀ z, t.holder z = if ∃ x ∈ set, s.hopZone x.hop = z then some c else s.holder z
  queue : ∀ z, (t.zst z).queue = (s.zst z).queue
  corridors : ∀ k, t.cst k = if ∃ x ∈ set, s.corridorOfZone (s.hopZone x.hop) = some k
    then (s.cst k).enter (s.corridor k).quota c (s.askedDirection c set k) else s.cst k
  watches : ∀ w, (t.watch w).carrier = some c → (t.watch w).intact = false
  rest : t = { s with
    carriers := t.carriers, zoneStates := t.zoneStates, fieldSlots := t.fieldSlots, corridorStates := t.corridorStates
    routes := t.routes, operatorSlot := t.operatorSlot, safetySlot := t.safetySlot }

theorem grantSet_parts (s : State) (c : CarrierId) (set : List HopRef) :
    ∃ t, SetTaken s t c set ∧ s.grantSet c set = t.settle c := by
  have e := entered_all c (fun x => (⟨s.hopZone x.hop, .granted, some x⟩ : HeldEntry)) set s
  unfold State.grantSet
  simp only
  generalize set.foldl (fun t x => t.enterHeld c ⟨s.hopZone x.hop, .granted, some x⟩) s = t at e ⊢
  have f := fun k => entered_corridors c (s.setCorridors c set) (setCorridors_nodup s c set) t k
  generalize (s.setCorridors c set).foldl (fun u (k, d) => u.enterCorridor c k d) t = u at f ⊢
  have fr := (f 0).2
  have m := moved u c set
  have w := watch_moveCursorPastSet_broken u c set
  generalize u.moveCursorPastSet c set = v at m w ⊢
  have uc : ∀ d, u.carrier d = t.carrier d := by intro d; rw [fr]; rfl
  have ur : ∀ r, u.route r = s.route r := by intro r; rw [fr, e.rest]; rfl
  refine ⟨v.breakWatch c, ?_, rfl⟩
  constructor
  · obtain ⟨r, i, n, h⟩ := m.carrier
    exact ⟨r, i, n, by rw [(breakWatch_accessors _ c).2.2.2.2.2.2.1, h, uc, e.carrier]⟩
  · intro x hx l
    rw [(breakWatch_accessors _ c).2.2.2.2.2.2.1, m.next x hx (by unfold RouteRecord.lastHop at l ⊢; rw [ur]; exact l), uc, e.carrier]
  · intro d h
    rw [(breakWatch_accessors _ c).2.2.2.2.2.2.1, m.others d h, uc, e.others d h]
  · intro z
    have : (v.breakWatch c).holder z = t.holder z := by unfold State.breakWatch; rw [m.rest, fr]; rfl
    rw [this, e.holder]
    have iff : (∃ e ∈ set.map (fun x => (⟨s.hopZone x.hop, .granted, some x⟩ : HeldEntry)), e.zone = z) ↔ ∃ x ∈ set, s.hopZone x.hop = z := by
      constructor
      · rintro ⟨e, h, q⟩
        obtain ⟨x, hx, rfl⟩ := List.mem_map.1 h
        exact ⟨x, hx, q⟩
      · rintro ⟨x, hx, q⟩
        exact ⟨_, List.mem_map.2 ⟨x, hx, rfl⟩, q⟩
    by_cases h : ∃ x ∈ set, s.hopZone x.hop = z
    · rw [if_pos h, if_pos (iff.2 h)]
    · rw [if_neg h, if_neg (fun n => h (iff.1 n))]
  · intro z
    have : (v.breakWatch c).zst z = t.zst z := by unfold State.breakWatch; rw [m.rest, fr]; rfl
    rw [this, e.queue]
  · intro k
    have : (v.breakWatch c).cst k = u.cst k := by unfold State.breakWatch; rw [m.rest]; rfl
    have tk : t.cst k = s.cst k := by rw [e.rest]; rfl
    have tq : t.corridor k = s.corridor k := by rw [e.rest]; rfl
    rw [this, (f k).1, find_setCorridors, tk, tq]
    split
    · next h => split at h; cases h; next n => rw [if_neg n]
    · next p h =>
      split at h
      · next y => cases h; rw [if_pos y]
      · cases h
  · exact w
  · unfold State.breakWatch; rw [m.rest, fr, e.rest]

/-! ## Pending holds (R91) -/

/-- A pending hold taken (R91). -/
structure PendTaken (s t : State) (c : CarrierId) (set : List HopRef) (x : HopRef) : Prop where
  carrier : t.carrier c = { s.carrier c with held := (s.carrier c).held ++ [⟨s.hopZone x.hop, .pending, some x⟩] }
  others : ∀ d, d ≠ c → t.carrier d = s.carrier d
  holder : ∀ z, t.holder z = if z = s.hopZone x.hop then some c else s.holder z
  corridors : ∀ k, t.cst k = if s.corridorOfZone (s.hopZone x.hop) = some k
    then (s.cst k).enter (s.corridor k).quota c (s.askedDirection c set k) else s.cst k
  watches : ∀ w, t.watch w = (s.watch w).breakFor c
  rest : t = { s with
    carriers := t.carriers, zoneStates := t.zoneStates, fieldSlots := t.fieldSlots, corridorStates := t.corridorStates
    operatorSlot := t.operatorSlot, safetySlot := t.safetySlot }
  frame : EngineFrame s t

theorem pendTaken (s : State) (c : CarrierId) (set : List HopRef) (x : HopRef) : PendTaken s (s.pendHold c set x) c set x := by
  have e := entered_one s c ⟨s.hopZone x.hop, .pending, some x⟩
  have fr := EngineFrame.enterHeld s c ⟨s.hopZone x.hop, .pending, some x⟩
  unfold State.pendHold
  simp only
  generalize s.enterHeld c ⟨s.hopZone x.hop, .pending, some x⟩ = t at e fr ⊢
  have tk : ∀ k, t.cst k = s.cst k := by intro k; rw [e.rest]; rfl
  have tq : ∀ k, t.corridor k = s.corridor k := by intro k; rw [e.rest]; rfl
  have tw : ∀ w, t.watch w = s.watch w := by intro w; rw [e.rest]; cases w <;> rfl
  have hol : ∀ z, t.holder z = if z = s.hopZone x.hop then some c else s.holder z := by
    intro z; rw [e.holder]; simp [eq_comm]
  split
  · next h =>
    refine ⟨?_, ?_, ?_, ?_, ?_, ?_, fr.trans (EngineFrame.breakWatch ..)⟩
    · rw [(breakWatch_accessors _ c).2.2.2.2.2.2.1, e.carrier]
    · intro d n; rw [(breakWatch_accessors _ c).2.2.2.2.2.2.1, e.others d n]
    · exact hol
    · intro k; rw [h, if_neg (by simp)]; exact tk k
    · intro w; rw [watch_breakWatch, tw]
    · unfold State.breakWatch; rw [e.rest]
  · next j h =>
    refine ⟨?_, ?_, ?_, ?_, ?_, ?_, (fr.trans (EngineFrame.setCst ..)).trans (EngineFrame.breakWatch ..)⟩
    · rw [(breakWatch_accessors _ c).2.2.2.2.2.2.1]; exact e.carrier
    · intro d n; rw [(breakWatch_accessors _ c).2.2.2.2.2.2.1]; exact e.others d n
    · exact hol
    · intro k
      rw [(breakWatch_accessors _ c).2.2.2.1, h]
      unfold State.enterCorridor
      rw [cst_setCst]
      by_cases i : k = j
      · rw [if_pos i, if_pos (by rw [i]), i, tk, tq]
      · rw [if_neg i, if_neg (fun x => i (by injection x with x; exact x.symm)), tk]
    · intro w; rw [watch_breakWatch]; exact congrArg (fun x => x.breakFor c) (tw w)
    · unfold State.breakWatch State.enterCorridor State.setCst; rw [e.rest]

/-- The token holder's zones taken one after the other: the carrier's held list grows, and nothing else of it changes. -/
theorem takePending_parts (c : CarrierId) (set rest : List HopRef) (s : State) : ∃ l,
    (s.takePending c set rest).1.carrier c = { s.carrier c with held := (s.carrier c).held ++ l } ∧
    (∀ d, d ≠ c → (s.takePending c set rest).1.carrier d = s.carrier d) ∧
    (s.takePending c set rest).1.pinToken = s.pinToken ∧ EngineFrame s (s.takePending c set rest).1 ∧
    (s.takePending c set rest).1.routes = s.routes := by
  induction rest generalizing s with
  | nil => exact ⟨[], by simp [State.takePending], fun _ _ => rfl, rfl, EngineFrame.refl s, rfl⟩
  | cons x l ih =>
    unfold State.takePending
    split
    · exact ih s
    · split
      · exact ⟨[], by simp, fun _ _ => rfl, rfl, EngineFrame.refl s, rfl⟩
      · have p := pendTaken s c set x
        generalize s.pendHold c set x = t at p ⊢
        obtain ⟨m, a, b, d, f, g⟩ := ih t
        refine ⟨⟨s.hopZone x.hop, .pending, some x⟩ :: m, ?_, ?_, ?_, p.frame.trans f, ?_⟩
        · rw [a, p.carrier]; simp
        · intro d n; rw [b d n, p.others d n]
        · rw [d, p.rest]
        · rw [g, p.rest]

/-! ## The whole set (R92) -/

/-- A whole set, the carrier not yet settled (R92). -/
structure SetWhole (s t : State) (c : CarrierId) (set : List HopRef) : Prop where
  carrier : ∃ r i n, t.carrier c = { s.carrier c with
    held := (s.carrier c).held.map (fun e => { e with status := .granted }), route := r, cursor := i, laps := n }
  next : ∀ x, set.getLast? = some x → x.hop.val < (s.route x.route).lastHop →
    (t.carrier c).cursor = .hop (hopPlus x.hop 1)
  others : ∀ d, d ≠ c → t.carrier d = s.carrier d
  token : t.pinToken = none
  rest : t = { s with
    carriers := t.carriers, routes := t.routes, pinToken := none, operatorSlot := t.operatorSlot, safetySlot := t.safetySlot }

theorem wholeSet_parts (s : State) (c : CarrierId) (set : List HopRef) :
    ∃ t, SetWhole s t c set ∧ s.wholeSet c set = t.settle c := by
  unfold State.wholeSet
  simp only
  have m := moved (s.modCarrier c (fun r => { r with held := r.held.map (fun e => { e with status := .granted }) })) c set
  generalize State.moveCursorPastSet _ c set = v at m ⊢
  refine ⟨_, ?_, rfl⟩
  constructor
  · obtain ⟨r, i, n, h⟩ := m.carrier
    refine ⟨r, i, n, ?_⟩
    rw [(breakWatch_accessors _ c).2.2.2.2.2.2.1, carrier_withToken, h, carrier_modCarrier_self]
  · intro x hx l
    rw [(breakWatch_accessors _ c).2.2.2.2.2.2.1, carrier_withToken, m.next x hx l]
  · intro d n
    rw [(breakWatch_accessors _ c).2.2.2.2.2.2.1, carrier_withToken, m.others d n, carrier_modCarrier, if_neg n]
  · rfl
  · unfold State.breakWatch; rw [m.rest]; rfl

end Sys2Proof.Machine
end

