-- ==== Sys2Proof/Laws/Faulting.lean ====
section
/-! SUPPORT. A first fault, step by step: the freezing of a trespasser, the releases, and the hold entry that the policy feeds (R119, R134-R136). -/

namespace Sys2Proof.Machine

/-! ## A held zone stays held through the wakes of others -/

theorem zst_modCarrier (s : State) (c : CarrierId) (f : Carrier → Carrier) (z : ZoneId) : (s.modCarrier c f).zst z = s.zst z := rfl

theorem zst_enterState (s : State) (c : CarrierId) (x : CarrierState) (z : ZoneId) : (s.enterState c x).zst z = s.zst z := rfl

theorem holder_leaveQueue (s : State) (c : CarrierId) (z : ZoneId) : (s.leaveQueue c).holder z = s.holder z :=
  (HoldingSame.leaveQueue s c).holder z

theorem holder_joinQueue (s : State) (c : CarrierId) (w : Wait) (d : Direction) (z : ZoneId) : (s.joinQueue c w d).holder z = s.holder z :=
  (HoldingSame.joinQueue s c w d).holder z

theorem holder_detachRoute (s : State) (c : CarrierId) (z : ZoneId) : (s.detachRoute c).holder z = s.holder z :=
  (HoldingSame.detach s c).holder z

theorem holder_modCarrier (s : State) (c : CarrierId) (f : Carrier → Carrier) (z : ZoneId) : (s.modCarrier c f).holder z = s.holder z := rfl

theorem holder_breakWatch (s : State) (c : CarrierId) (z : ZoneId) : (s.breakWatch c).holder z = s.holder z := rfl

theorem holder_closed (z : ZoneId) (c : CarrierId) : EngineClosed (fun s => s.holder z = some c) where
  breakWatch c h := h
  freeToken h := h
  takeToken c h _ := h
  join d w k h _ := by
    simp only [State.enterState, State.flagState, State.flagWait, holder_breakWatch, holder_modCarrier, holder_joinQueue]; exact h
  rejoin d w k h _ := by
    simp only [State.flagWait, holder_breakWatch, holder_modCarrier, holder_joinQueue, holder_leaveQueue]; exact h
  recordDeadlock d h := h
  settle d h _ := by
    simp only [State.enterState, State.flagState, State.clearWait, holder_breakWatch, holder_modCarrier, holder_leaveQueue]; exact h
  exhaustAdvancing d h _ := by
    simp only [State.flagRouteEnd, State.enterState, State.flagState, holder_breakWatch, holder_modCarrier, holder_detachRoute]; exact h
  exhaustWaiting d h _ := by
    simp only [State.flagRouteEnd, State.enterState, State.flagState, State.clearWait, holder_breakWatch, holder_modCarrier, holder_detachRoute, holder_leaveQueue]; exact h
  setCst k x h _ := h
  enterHeld d e h a f _ := by
    rw [holder_enterHeld]
    by_cases g : z = e.zone
    · rw [if_pos g]
      have := f.1
      unfold State.heldByOther at this
      rw [← g, h] at this
      simp at this
      rw [this]
    · rw [if_neg g]; exact h
  moveCursorPast d x h _ := by
    rw [(HoldingSame.moveCursorPast _ d x).holder]; exact h
  grantPending d h _ := h

theorem holder_leaveZoneCorridor (s : State) (c : CarrierId) (w z : ZoneId) : (s.leaveZoneCorridor c w).1.holder z = s.holder z := by
  unfold State.leaveZoneCorridor
  split
  · rfl
  · split <;> rfl

theorem holder_release {s : State} {c : CarrierId} {z w : ZoneId} (h : s.holder z = some c) (n : w ≠ z) : (s.release c w).holder z = some c := by
  have H := holder_closed z c
  unfold State.release
  simp only
  have k : ((s.modCarrier c (fun r => { r with held := r.held.filter (fun e => e.zone != w) })).setHolder w none).holder z = some c := by
    rw [holder_setHolder, if_neg (Ne.symm n)]; exact h
  generalize (s.modCarrier c (fun r => { r with held := r.held.filter (fun e => e.zone != w) })).setHolder w none = t at k ⊢
  have u : (t.leaveZoneCorridor c w).1.holder z = some c := by rw [holder_leaveZoneCorridor]; exact k
  refine H.wakeZone w _ (H.breakWatch c ?_)
  split
  · exact u
  · exact H.wakeCorridor _ u

theorem holder_releaseAll {c : CarrierId} {z : ZoneId} (zs : List ZoneId) (n : z ∉ zs) {s : State} (h : s.holder z = some c) :
    (s.releaseAll c zs).holder z = some c := by
  unfold State.releaseAll
  induction zs generalizing s with
  | nil => exact h
  | cons w l ih =>
    rw [List.foldl_cons]
    refine ih (fun m => n (by simp [m])) ?_
    split
    · exact holder_release h (fun e => n (by simp [e]))
    · exact h

/-! ## Freezing (R119) -/

theorem givable_iff (s : State) (c : CarrierId) (z : ZoneId) : s.givable c z = true ↔ s.mayBeGiven c z := by
  have k : s.conflictsWithOther c z = false ↔ ∀ w d, s.holder w = some d → d ≠ c → z ∉ (s.zone w).conflicts := by
    unfold State.conflictsWithOther State.heldByOther
    rw [List.any_eq_false]
    constructor
    · intro h w d hw ne m
      have := h w (List.mem_finRange w)
      rw [hw] at this
      simp [ne, m] at this
    · intro h w _
      cases hw : s.holder w with
      | none => simp
      | some d =>
        by_cases e : d = c
        · simp [e]
        · simp [h w d hw e]
  unfold State.givable State.mayBeGiven
  simp only [Bool.and_eq_true, Bool.not_eq_true', beq_iff_eq, k, and_assoc]

theorem joinZoneCorridor_only (s : State) (c : CarrierId) (z : ZoneId) :
    s.joinZoneCorridor c z = { s with corridorStates := (s.joinZoneCorridor c z).corridorStates } := by
  unfold State.joinZoneCorridor
  split <;> rfl

theorem cst_joinZoneCorridor (s : State) (c : CarrierId) (z : ZoneId) :
    (∀ l, s.corridorOfZone z = some l → (∀ o ∈ (s.cst l).occupants, o.slot ≠ c) →
      ((s.joinZoneCorridor c z).cst l).occupants = (s.cst l).occupants ++ [⟨c, none⟩]) ∧
    ∀ l, s.corridorOfZone z ≠ some l → (s.joinZoneCorridor c z).cst l = s.cst l := by
  unfold State.joinZoneCorridor
  constructor
  · intro l h no
    rw [h]
    simp only [cst_setCst, if_true]
    have : (s.cst l).occupant c = none := by
      unfold CorridorState.occupant
      rw [List.find?_eq_none]
      intro o ho; simpa using no o ho
    unfold CorridorState.joinUndirected
    rw [this]
  · intro l h
    split
    · rfl
    · next k e => rw [cst_setCst, if_neg]; intro x; rw [e, x] at h; exact h rfl

theorem freezeZone_held {s : State} {c : CarrierId} {z : ZoneId} (b : Bool) (h : s.holds c z = true) :
    s.freezeZone c z b = { s with carriers := (s.freezeZone c z b).carriers } ∧
    (∀ d, d ≠ c → (s.freezeZone c z b).carrier d = s.carrier d) ∧
    (s.freezeZone c z b).carrier c = { s.carrier c with
      held := (s.carrier c).held.map (fun e => if e.zone = z then { e with status := .granted } else e) } := by
  unfold State.freezeZone
  rw [if_pos h]
  exact ⟨rfl, fun d n => by rw [carrier_modCarrier, if_neg n], carrier_modCarrier_self ..⟩

theorem freezeZone_given {s : State} {c : CarrierId} {z : ZoneId} (b : Bool) (h : s.holds c z = false) (g : s.mayBeGiven c z)
    (l : (s.carrier c).held.length < 12) :
    (s.freezeZone c z b).carrier c = { s.carrier c with
      held := if b = true then ⟨z, .granted, none⟩ :: (s.carrier c).held else (s.carrier c).held ++ [⟨z, .granted, none⟩] } ∧
    (∀ d, d ≠ c → (s.freezeZone c z b).carrier d = s.carrier d) ∧
    (∀ w, (s.freezeZone c z b).holder w = if w = z then some c else s.holder w) ∧
    (∀ l, s.corridorOfZone z = some l → (∀ o ∈ (s.cst l).occupants, o.slot ≠ c) →
      ((s.freezeZone c z b).cst l).occupants = (s.cst l).occupants ++ [⟨c, none⟩]) ∧
    (∀ l, s.corridorOfZone z ≠ some l → (s.freezeZone c z b).cst l = s.cst l) ∧
    (s.freezeZone c z b).zones = s.zones := by
  unfold State.freezeZone
  rw [h]
  simp only [Bool.false_eq_true, if_false, (givable_iff s c z).2 g, decide_eq_true l, Bool.and_self, if_true]
  unfold State.giveZone
  simp only
  have st : ∀ f, ((s.modCarrier c f).setHolder z (some c)).corridorOfZone = s.corridorOfZone := by
    intro f; funext w; rw [corridorOfZone_setHolder]; rfl
  have cs : ∀ f l, ((s.modCarrier c f).setHolder z (some c)).cst l = s.cst l := by
    intro f l; rw [setHolder_only]; rfl
  have cc : ∀ f, ((s.modCarrier c f).setHolder z (some c)).carrier c = f (s.carrier c) := by
    intro f; rw [carrier_setHolder, carrier_modCarrier_self]
  have co : ∀ f d, d ≠ c → ((s.modCarrier c f).setHolder z (some c)).carrier d = s.carrier d := by
    intro f d n; rw [carrier_setHolder, carrier_modCarrier, if_neg n]
  have ch : ∀ f w, ((s.modCarrier c f).setHolder z (some c)).holder w = if w = z then some c else s.holder w := by
    intro f w; rw [holder_setHolder]; rfl
  have cz : ∀ f, ((s.modCarrier c f).setHolder z (some c)).zones = s.zones := by
    intro f; rw [setHolder_only]; rfl
  have f1 := cc (fun r => { r with held := if b = true then ⟨z, .granted, none⟩ :: r.held else r.held ++ [⟨z, .granted, none⟩] })
  have f2 := co (fun r => { r with held := if b = true then ⟨z, .granted, none⟩ :: r.held else r.held ++ [⟨z, .granted, none⟩] })
  have f3 := ch (fun r => { r with held := if b = true then ⟨z, .granted, none⟩ :: r.held else r.held ++ [⟨z, .granted, none⟩] })
  have f4 := cs (fun r => { r with held := if b = true then ⟨z, .granted, none⟩ :: r.held else r.held ++ [⟨z, .granted, none⟩] })
  have f5 := cz (fun r => { r with held := if b = true then ⟨z, .granted, none⟩ :: r.held else r.held ++ [⟨z, .granted, none⟩] })
  have f6 := st (fun r => { r with held := if b = true then ⟨z, .granted, none⟩ :: r.held else r.held ++ [⟨z, .granted, none⟩] })
  generalize (s.modCarrier c _).setHolder z (some c) = x at f1 f2 f3 f4 f5 f6 ⊢
  obtain ⟨k1, k2⟩ := cst_joinZoneCorridor x c z
  have only := joinZoneCorridor_only x c z
  refine ⟨?_, ?_, ?_, ?_, ?_, ?_⟩
  · rw [only]; exact f1
  · intro d n; rw [only]; exact f2 d n
  · intro w; rw [only]; exact f3 w
  · intro l hl no; rw [k1 l (by rw [f6]; exact hl) (by rw [f4]; exact no), f4]
  · intro l hl; rw [k2 l (by rw [f6]; exact hl), f4]
  · rw [only]; exact f5

theorem freezeZone_not {s : State} {c : CarrierId} {z : ZoneId} (b : Bool) (h : s.holds c z = false)
    (g : ¬s.mayBeGiven c z ∨ 12 ≤ (s.carrier c).held.length) : s.freezeZone c z b = s := by
  unfold State.freezeZone
  rw [h, if_neg (by simp), if_neg]
  simp only [Bool.and_eq_true, decide_eq_true_eq, not_and]
  intro k
  rcases g with g | g
  · exact absurd ((givable_iff s c z).1 k) g
  · omega

/-- What dealing with one reported zone makes of a held list: each entry keeps its zone, a new one is the zone's, the zone's entries are GRANTED, and the list grows by one at most (R119). -/
structure HeldFrozen (old new : List HeldEntry) (z : ZoneId) : Prop where
  source : ∀ e ∈ new, e ∈ old ∨ e.zone = z ∧ e.status = .granted
  granted : ∀ e ∈ new, e.zone = z → e.status = .granted
  kept : ∀ w, (∃ e ∈ old, e.zone = w) → ∃ e ∈ new, e.zone = w
  room : new.length ≤ old.length + 1

theorem freezeZone_carrier (s : State) (c : CarrierId) (z : ZoneId) (b : Bool) : ∃ l,
    (s.freezeZone c z b).carrier c = { s.carrier c with held := l } ∧ HeldFrozen (s.carrier c).held l z := by
  by_cases h : s.holds c z = true
  · refine ⟨_, (freezeZone_held b h).2.2, ?_, ?_, ?_, by simp⟩
    · intro e he
      obtain ⟨x, hx, rfl⟩ := List.mem_map.1 he
      by_cases q : x.zone = z
      · rw [if_pos q]; exact Or.inr ⟨q, rfl⟩
      · rw [if_neg q]; exact Or.inl hx
    · intro e he q
      obtain ⟨x, hx, rfl⟩ := List.mem_map.1 he
      by_cases r : x.zone = z
      · rw [if_pos r]
      · rw [if_neg r] at q; exact absurd q r
    · rintro w ⟨e, he, q⟩
      refine ⟨_, List.mem_map.2 ⟨e, he, rfl⟩, ?_⟩
      split <;> exact q
  · have h : s.holds c z = false := by simpa using h
    have none : ∀ e ∈ (s.carrier c).held, e.zone ≠ z := by
      unfold State.holds at h
      rw [List.any_eq_false] at h
      intro e he; simpa using h e he
    by_cases g : s.mayBeGiven c z ∧ (s.carrier c).held.length < 12
    · refine ⟨_, (freezeZone_given b h g.1 g.2).1, ?_, ?_, ?_, ?_⟩
      · intro e he
        cases b
        · simp only [Bool.false_eq_true, if_false, List.mem_append, List.mem_singleton] at he
          rcases he with he | rfl
          · exact Or.inl he
          · exact Or.inr ⟨rfl, rfl⟩
        · simp only [if_true, List.mem_cons] at he
          rcases he with rfl | he
          · exact Or.inr ⟨rfl, rfl⟩
          · exact Or.inl he
      · intro e he q
        cases b
        · simp only [Bool.false_eq_true, if_false, List.mem_append, List.mem_singleton] at he
          rcases he with he | rfl
          · exact absurd q (none e he)
          · rfl
        · simp only [if_true, List.mem_cons] at he
          rcases he with rfl | he
          · rfl
          · exact absurd q (none e he)
      · rintro w ⟨e, he, q⟩
        exact ⟨e, by cases b <;> simp [he], q⟩
      · cases b <;> simp
    · have : s.freezeZone c z b = s := freezeZone_not b h (by
        by_cases m : s.mayBeGiven c z
        · exact Or.inr (Nat.le_of_not_lt (fun l => g ⟨m, l⟩))
        · exact Or.inl m)
      rw [this]
      exact ⟨_, rfl, fun e he => Or.inl he, fun e he q => absurd q (none e he), fun w k => k, Nat.le_succ _⟩

theorem holds_iff (s : State) (c : CarrierId) (z : ZoneId) : s.holds c z = true ↔ ∃ e ∈ (s.carrier c).held, e.zone = z := by
  unfold State.holds; simp

theorem freeze_two {s : State} {c : CarrierId} {b f : ZoneId} (hb : s.rear c = some b) (hf : s.front c = some f) (n : b ≠ f) :
    s.freeze c = (s.freezeZone c b true).freezeZone c f false := by
  obtain ⟨l, k, -⟩ := freezeZone_carrier s c b true
  have fr : (s.freezeZone c b true).front c = some f := by unfold State.front at hf ⊢; rw [k]; exact hf
  unfold State.freeze State.freezeRear
  rw [hb]
  simp only
  rw [if_neg (by rw [hf]; exact fun e => n (by injection e with e; exact e.symm))]
  unfold State.freezeFront
  rw [fr]

theorem freeze_one {s : State} {c : CarrierId} {z : ZoneId} (hb : s.rear c = some z) (hf : s.front c = some z) :
    s.freeze c = s.freezeZone c z false := by
  unfold State.freeze State.freezeRear
  rw [hb]
  simp only
  rw [if_pos hf]
  unfold State.freezeFront
  rw [hf]

/-! ## The policy (R136) -/

theorem placeCause_eq (c : CarrierId) (k : FaultKind) (l : List (CarrierId × FaultKind)) : placeCause c k l = causePlaced l c k := by
  unfold placeCause causePlaced
  simp only [List.any_eq_true, beq_iff_eq]

theorem causePlaced_ne_nil (l : List (CarrierId × FaultKind)) (c : CarrierId) (k : FaultKind) : causePlaced l c k ≠ [] := by
  unfold causePlaced
  split
  · next h =>
    obtain ⟨p, hp, -⟩ := h
    intro e
    rw [List.map_eq_nil_iff] at e
    rw [e] at hp; cases hp
  · simp

theorem active_causePlaced (e : HoldEntry) (c : CarrierId) (k : FaultKind) : HoldEntry.active { e with causes := causePlaced e.causes c k } = true := by
  unfold HoldEntry.active
  cases h : causePlaced e.causes c k with
  | nil => exact absurd h (causePlaced_ne_nil e.causes c k)
  | cons p l => simp

theorem feedDistrict (s : State) (c : CarrierId) (k : FaultKind) :
    DistrictFed s (s.feedHold .district c k) c k ∧ (s.feedHold .district c k).carriers = s.carriers := by
  have a : State.districtActive { s with districtHold := { s.districtHold with causes := causePlaced s.districtHold.causes c k } } = true := by
    unfold State.districtActive
    simp only [active_causePlaced, Bool.true_or]
  unfold State.feedHold State.writeHoldEntry
  simp only [State.setHoldEntry, State.holdEntry, State.holdActive, placeCause_eq, a]
  split
  · next h => exact ⟨⟨rfl, rfl, by rw [← h]; simp⟩, rfl⟩
  · next h => exact ⟨⟨rfl, rfl, by simp only [State.flagHoldChange]; cases q : s.districtActive <;> simp_all⟩, rfl⟩

theorem feedSector (s : State) (n : SectorId) (c : CarrierId) (k : FaultKind) :
    SectorFed s (s.feedHold (.sector n) c k) n c k ∧ (s.feedHold (.sector n) c k).carriers = s.carriers := by
  have a : (s.setSectorHold n { s.sectorHold n with causes := causePlaced (s.sectorHold n).causes c k }).sectorActive n = true := by
    unfold State.sectorActive
    rw [sectorHold_setSectorHold, if_pos rfl, active_causePlaced]
  unfold State.feedHold State.writeHoldEntry
  simp only [State.setHoldEntry, State.holdEntry, State.holdActive, placeCause_eq, a]
  have o : ∀ m, m ≠ n → (s.setSectorHold n { s.sectorHold n with causes := causePlaced (s.sectorHold n).causes c k }).sectorHold m = s.sectorHold m :=
    fun m h => by rw [sectorHold_setSectorHold, if_neg h]
  have g : (s.setSectorHold n { s.sectorHold n with causes := causePlaced (s.sectorHold n).causes c k }).sectorHold n
      = { s.sectorHold n with causes := causePlaced (s.sectorHold n).causes c k } := by rw [sectorHold_setSectorHold, if_pos rfl]
  split
  · next h => exact ⟨⟨g, o, rfl, by rw [← h]; simp [State.setSectorHold]⟩, rfl⟩
  · next h => exact ⟨⟨g, o, rfl, by simp only [State.flagHoldChange]; cases q : s.sectorActive n <;> simp_all⟩, rfl⟩

/-! ## The first fault (R134, R135) -/

/-- What freezing makes of a carrier's held list: no entry but the old ones and GRANTED ones of the reported zones, which are then all GRANTED; no zone is lost. -/
structure ListFrozen (s : State) (c : CarrierId) (old new : List HeldEntry) : Prop where
  source : ∀ e ∈ new, e ∈ old ∨ s.standsIn c e.zone = true ∧ e.status = .granted
  granted : ∀ e ∈ new, s.standsIn c e.zone = true → e.status = .granted
  kept : ∀ w, (∃ e ∈ old, e.zone = w) → ∃ e ∈ new, e.zone = w

theorem standsIn_iff (s : State) (c : CarrierId) (z : ZoneId) : s.standsIn c z = true ↔ s.front c = some z ∨ s.rear c = some z := by
  unfold State.standsIn; simp

theorem freeze_carrier (s : State) (c : CarrierId) : ∃ l,
    (s.freeze c).carrier c = { s.carrier c with held := l } ∧ ListFrozen s c (s.carrier c).held l := by
  have rearPart : ∃ l, (s.freezeRear c).carrier c = { s.carrier c with held := l } ∧
      (∀ e ∈ l, e ∈ (s.carrier c).held ∨ s.standsIn c e.zone = true ∧ e.status = .granted) ∧
      (∀ e ∈ l, s.rear c = some e.zone → s.front c ≠ some e.zone → e.status = .granted) ∧
      (∀ w, (∃ e ∈ (s.carrier c).held, e.zone = w) → ∃ e ∈ l, e.zone = w) := by
    unfold State.freezeRear
    split
    · next z hz =>
      split
      · next hf => exact ⟨_, rfl, fun e he => Or.inl he, fun e he r f => absurd (by rw [hz] at r; cases r; exact hf) f, fun w k => k⟩
      · next hf =>
        obtain ⟨l, k, fz⟩ := freezeZone_carrier s c z true
        refine ⟨l, k, fun e he => ?_, fun e he r _ => fz.granted e he (by rw [hz] at r; cases r; rfl), fz.kept⟩
        rcases fz.source e he with x | ⟨x, y⟩
        · exact Or.inl x
        · exact Or.inr ⟨(standsIn_iff ..).2 (Or.inr (by rw [x]; exact hz)), y⟩
    · next hz => exact ⟨_, rfl, fun e he => Or.inl he, fun e he r f => (by rw [hz] at r; cases r), fun w k => k⟩
  obtain ⟨l, k, so, gr, ke⟩ := rearPart
  have fr : (s.freezeRear c).front c = s.front c := by unfold State.front; rw [k]
  unfold State.freeze State.freezeFront
  rw [fr]
  split
  · next z hz =>
    obtain ⟨m, km, fz⟩ := freezeZone_carrier (s.freezeRear c) c z false
    rw [k] at fz
    refine ⟨m, by rw [km, k], ?_, ?_, fun w h => fz.kept w (ke w h)⟩
    · intro e he
      rcases fz.source e he with x | ⟨x, y⟩
      · exact so e x
      · exact Or.inr ⟨(standsIn_iff ..).2 (Or.inl (by rw [x]; exact hz)), y⟩
    · intro e he st
      by_cases q : e.zone = z
      · exact fz.granted e he q
      · rcases fz.source e he with x | ⟨x, -⟩
        · rcases (standsIn_iff ..).1 st with f | r
          · rw [hz] at f; cases f; exact absurd rfl q
          · exact gr e x r (fun f => by rw [hz] at f; cases f; exact q rfl)
        · exact absurd x q
  · next hz =>
    refine ⟨l, k, so, ?_, ke⟩
    intro e he st
    rcases (standsIn_iff ..).1 st with f | r
    · rw [hz] at f; cases f
    · exact gr e he r (fun f => by rw [hz] at f; cases f)

theorem mayBeGiven_freezeZone {s : State} {c : CarrierId} {z w : ZoneId} (b : Bool) (n : w ≠ z) (g : s.mayBeGiven c w) :
    (s.freezeZone c z b).mayBeGiven c w := by
  by_cases h : s.holds c z = true
  · obtain ⟨e, -, -⟩ := freezeZone_held b h
    rw [e]; exact g
  · have h : s.holds c z = false := by simpa using h
    by_cases m : s.mayBeGiven c z ∧ (s.carrier c).held.length < 12
    · obtain ⟨-, -, hol, -, -, zs⟩ := freezeZone_given b h m.1 m.2
      unfold State.mayBeGiven State.zone at g ⊢
      rw [zs]
      simp only [hol]
      refine ⟨g.1, by rw [if_neg n]; exact g.2.1, fun v d hv => ?_⟩
      by_cases e : v = z
      · rw [if_pos e] at hv; cases hv; exact fun x => absurd rfl x
      · rw [if_neg e] at hv; exact g.2.2 v d hv
    · rw [freezeZone_not b h (by
        by_cases k : s.mayBeGiven c z
        · exact Or.inr (Nat.le_of_not_lt (fun l => m ⟨k, l⟩))
        · exact Or.inl k)]
      exact g

/-- A reported zone that may be given is given, where the list has room for both (R119). -/
theorem freeze_gives {s : State} {c : CarrierId} {z : ZoneId} (st : s.front c = some z ∨ s.rear c = some z) (no : s.holds c z = false)
    (g : s.mayBeGiven c z) (room : (s.carrier c).held.length + 2 ≤ 12) : (s.freeze c).holds c z = true ∧ (s.freeze c).holder z = some c := by
  have here : ∀ (t : State) b, t.holds c z = false → t.mayBeGiven c z → (t.carrier c).held.length < 12 →
      (t.freezeZone c z b).holds c z = true ∧ (t.freezeZone c z b).holder z = some c := by
    intro t b x y l
    obtain ⟨a, -, h, -, -, -⟩ := freezeZone_given b x y l
    refine ⟨?_, by rw [h, if_pos rfl]⟩
    rw [holds_iff, a]
    exact ⟨⟨z, .granted, none⟩, by cases b <;> simp, rfl⟩
  have stays : ∀ (t : State) w b, w ≠ z → t.holds c z = true → t.holder z = some c →
      (t.freezeZone c w b).holds c z = true ∧ (t.freezeZone c w b).holder z = some c := by
    intro t w b n x y
    obtain ⟨l, k, fz⟩ := freezeZone_carrier t c w b
    refine ⟨?_, ?_⟩
    · rw [holds_iff, k]; exact fz.kept z ((holds_iff ..).1 x)
    · by_cases h : t.holds c w = true
      · rw [(freezeZone_held b h).1]; exact y
      · have h : t.holds c w = false := by simpa using h
        by_cases m : t.mayBeGiven c w ∧ (t.carrier c).held.length < 12
        · rw [(freezeZone_given b h m.1 m.2).2.2.1, if_neg (Ne.symm n)]; exact y
        · rw [freezeZone_not b h (by
            by_cases k : t.mayBeGiven c w
            · exact Or.inr (Nat.le_of_not_lt (fun l => m ⟨k, l⟩))
            · exact Or.inl k)]
          exact y
  cases hf : s.front c with
  | none =>
    rw [hf] at st
    have hb := st.resolve_left (by simp)
    have e : s.freeze c = s.freezeZone c z true := by
      unfold State.freeze State.freezeRear
      rw [hb]; simp only
      rw [if_neg (by rw [hf]; simp)]
      obtain ⟨l, k, -⟩ := freezeZone_carrier s c z true
      unfold State.freezeFront
      rw [show (s.freezeZone c z true).front c = none by unfold State.front at hf ⊢; rw [k]; exact hf]
    rw [e]; exact here s true no g (by omega)
  | some f =>
    cases hb : s.rear c with
    | none =>
      rw [hf, hb] at st
      have hz := st.resolve_right (by simp)
      cases hz
      have e : s.freeze c = s.freezeZone c z false := by
        unfold State.freeze State.freezeRear
        rw [hb]; simp only
        unfold State.freezeFront
        rw [hf]
      rw [e]; exact here s false no g (by omega)
    | some b =>
      by_cases n : b = f
      · subst n
        have hz : b = z := by rw [hf, hb] at st; rcases st with x | x <;> (cases x; rfl)
        subst hz
        rw [freeze_one hb hf]; exact here s false no g (by omega)
      · rw [freeze_two hb hf n]
        obtain ⟨l, k, fz⟩ := freezeZone_carrier s c b true
        by_cases e : b = z
        · subst e
          have x := here s true no g (by omega)
          exact stays _ f false (Ne.symm n) x.1 x.2
        · have hz : f = z := by
            rw [hf, hb] at st
            rcases st with x | x
            · cases x; rfl
            · cases x; exact absurd rfl e
          subst hz
          refine here _ false ?_ (mayBeGiven_freezeZone true (Ne.symm e) g) (by rw [k]; have := fz.room; simp only; omega)
          cases q : (s.freezeZone c b true).holds c f with
          | false => rfl
          | true =>
            obtain ⟨x, hx, hz⟩ := (holds_iff ..).1 q
            rw [k] at hx
            rcases fz.source x hx with y | ⟨y, -⟩
            · have : s.holds c f = true := (holds_iff ..).2 ⟨x, y, hz⟩
              rw [no] at this; cases this
            · rw [hz] at y; exact absurd y.symm e

/-- The held list of a FAULTED carrier after the releases of its fault: the pending holds are gone, and of the GRANTED zones the reported ones stay (R134 step 3, R135). -/
theorem faultReleases_carrier {s : State} {c : CarrierId} (a : ¬s.active c) : ∃ l,
    (((s.leaveClaim c).releaseAll c ((s.leaveClaim c).faultReleases c)).carrier c) = { s.carrier c with held := l } ∧
    (∀ e ∈ l, e ∈ (s.carrier c).held) ∧ (∀ e ∈ l, e.status = .granted → s.standsIn c e.zone = true) ∧
    (s.pinToken = some c → ∀ e ∈ l, e.status = .granted) ∧
    (∀ e ∈ (s.carrier c).held, s.standsIn c e.zone = true →
      (∀ x ∈ (s.carrier c).held, x.zone = e.zone → x.status = .granted) → e ∈ l) ∧
    (∀ z, s.standsIn c z = true → (∀ x ∈ (s.carrier c).held, x.zone = z → x.status = .granted) → s.holder z = some c →
      ((s.leaveClaim c).releaseAll c ((s.leaveClaim c).faultReleases c)).holder z = some c) ∧
    (s.leaveClaim c).pinToken ≠ some c := by
  have one : ∃ l, (s.leaveClaim c).carrier c = { s.carrier c with held := l } ∧ (∀ e ∈ l, e ∈ (s.carrier c).held) ∧
      (s.pinToken = some c → ∀ e ∈ l, e.status = .granted) ∧
      (∀ e ∈ (s.carrier c).held, (∀ x ∈ (s.carrier c).held, x.zone = e.zone → x.status = .granted) → e ∈ l) ∧
      (∀ z, (∀ x ∈ (s.carrier c).held, x.zone = z → x.status = .granted) → s.holder z = some c → (s.leaveClaim c).holder z = some c) ∧
      (s.leaveClaim c).pinToken ≠ some c := by
    unfold State.leaveClaim
    by_cases t : s.pinToken = some c
    · rw [if_pos t]
      have mem : ∀ z, z ∈ ((s.carrier c).held.filter (fun e => e.status == .pending)).reverse.map (·.zone) ↔
          ∃ e ∈ (s.carrier c).held, e.status = .pending ∧ e.zone = z := by
        intro z
        constructor
        · intro m
          obtain ⟨e, he, q⟩ := List.mem_map.1 m
          rw [List.mem_reverse, List.mem_filter] at he
          exact ⟨e, he.1, by simpa using he.2, q⟩
        · rintro ⟨e, he, p, q⟩
          exact List.mem_map.2 ⟨e, by rw [List.mem_reverse, List.mem_filter]; exact ⟨he, by simpa using p⟩, q⟩
      refine ⟨_, releaseAll_parked a _, fun e he => (List.mem_filter.1 he).1, fun _ e he => ?_, fun e he all => ?_, fun z all h => ?_, by simp⟩
      · obtain ⟨x, y⟩ := List.mem_filter.1 he
        cases st : e.status with
        | granted => rfl
        | pending =>
          have : e.zone ∈ ((s.carrier c).held.filter (fun e => e.status == .pending)).reverse.map (·.zone) := (mem _).2 ⟨e, x, st, rfl⟩
          simp only [Bool.not_eq_true', List.contains_eq_mem, decide_eq_false_iff_not] at y
          exact absurd this y
      · rw [List.mem_filter]
        refine ⟨he, ?_⟩
        simp only [Bool.not_eq_true', List.contains_eq_mem, decide_eq_false_iff_not]
        intro m
        obtain ⟨x, hx, p, q⟩ := (mem _).1 m
        rw [all x hx q] at p; cases p
      · refine holder_releaseAll _ ?_ h
        intro m
        obtain ⟨x, hx, p, q⟩ := (mem _).1 m
        rw [all x hx q] at p; cases p
    · rw [if_neg t]
      exact ⟨_, rfl, fun e h => h, fun x => absurd x t, fun e h _ => h, fun z _ h => h, t⟩
  obtain ⟨l, k, sub, gr, ke, ho, tk⟩ := one
  have a' : ¬(s.leaveClaim c).active c := by unfold State.active at a ⊢; rw [k]; exact a
  have stand : ∀ z, (s.leaveClaim c).standsIn c z = s.standsIn c z := by
    intro z; unfold State.standsIn State.front State.rear; rw [k]
  have rel := releaseAll_parked a' ((s.leaveClaim c).faultReleases c)
  have mem : ∀ z, z ∈ (s.leaveClaim c).faultReleases c ↔ ∃ e ∈ l, e.status = .granted ∧ s.standsIn c e.zone = false ∧ e.zone = z := by
    intro z
    unfold State.faultReleases
    rw [k]
    constructor
    · intro m
      obtain ⟨e, he, q⟩ := List.mem_map.1 m
      rw [List.mem_reverse, List.mem_filter] at he
      have := he.2
      rw [stand] at this
      simp only [Bool.and_eq_true, beq_iff_eq, Bool.not_eq_true'] at this
      exact ⟨e, he.1, this.1, this.2, q⟩
    · rintro ⟨e, he, p, st, q⟩
      exact List.mem_map.2 ⟨e, by
        rw [List.mem_reverse, List.mem_filter]
        exact ⟨he, by rw [stand]; simp [p, st]⟩, q⟩
  refine ⟨_, by rw [rel, k], fun e he => sub e (List.mem_filter.1 he).1, fun e he g => ?_, fun t e he => gr t e (List.mem_filter.1 he).1,
    fun e he st all => ?_, fun z st all h => ?_, tk⟩
  · obtain ⟨x, y⟩ := List.mem_filter.1 he
    cases st : s.standsIn c e.zone with
    | true => rfl
    | false =>
      have := (mem e.zone).2 ⟨e, x, g, st, rfl⟩
      simp only [Bool.not_eq_true', List.contains_eq_mem, decide_eq_false_iff_not] at y
      exact absurd this y
  · rw [List.mem_filter]
    refine ⟨ke e he all, ?_⟩
    simp only [Bool.not_eq_true', List.contains_eq_mem, decide_eq_false_iff_not]
    intro m
    obtain ⟨x, -, -, f, q⟩ := (mem _).1 m
    rw [q, st] at f; cases f
  · refine holder_releaseAll _ ?_ (ho z all h)
    intro m
    obtain ⟨x, -, -, f, q⟩ := (mem _).1 m
    rw [q, st] at f; cases f

/-! ## The steps of a first fault -/

/-- A route detached (R39, R44). -/
theorem routeLeft (s : State) (c : CarrierId) : RouteLeft s (s.detachRoute c) c where
  carrier := by simp [State.detachRoute]
  others d n := by simp [State.detachRoute, carrier_modCarrier, n]
  users q := by
    unfold State.detachRoute
    exact users_dropUserOf s _ q
  rest := by
    unfold State.detachRoute
    rw [dropUserOf_only s (s.carrier c).route]
    rfl

/-- The capture of a fault (R66). -/
theorem faultCaptured (s : State) (c : CarrierId) (k : FaultKind) : FaultCaptured s (s.captureFault c k) c k where
  carrier := by simp [State.captureFault]
  others d n := by simp [State.captureFault, carrier_modCarrier, n]
  rest := rfl

/-- The marks of a first fault (R134 step 5). -/
theorem faultMarked (s : State) (c : CarrierId) : FaultMarked s (((s.breakWatch c).flagState c).flagFault c) c where
  carrier := by simp [State.flagState, State.flagFault]
  others d n := by simp [State.flagState, State.flagFault, carrier_modCarrier, n]
  watches w := by cases w <;> rfl
  machines w := by cases w <;> rfl
  rest := rfl

/-- The releases of a fault, as the entries they take (R135). -/
theorem faultReleases_fold {u s : State} {c : CarrierId} (r : (u.carrier c).report = (s.carrier c).report) :
    u.releaseAll c (u.faultReleases c) = ((u.carrier c).held.reverse.filter (fun x =>
        x.status == .granted && s.front c != some x.zone && s.rear c != some x.zone)).foldl
      (fun v x => if v.holds c x.zone = true then v.release c x.zone else v) u := by
  rw [releaseAll_fold]
  unfold State.faultReleases
  rw [List.foldl_map, List.filter_reverse]
  congr 3
  funext x
  unfold State.standsIn State.front State.rear
  rw [r, Bool.not_or, ← Bool.and_assoc]
  rfl

/-- Freezing leaves the report. -/
theorem report_freeze (s : State) (c : CarrierId) : ((s.freeze c).carrier c).report = (s.carrier c).report := by
  obtain ⟨l, k, -⟩ := freeze_carrier s c
  rw [k]

/-- What a policy action writes: hold entries and HOLD_CHANGE (R136). -/
theorem applyPolicy_only (s : State) (c : CarrierId) (k : FaultKind) : s.applyPolicy c k = { s with
    districtHold := (s.applyPolicy c k).districtHold, sectorHolds := (s.applyPolicy c k).sectorHolds
    flags := (s.applyPolicy c k).flags } := by
  have w : ∀ n e, s.writeHoldEntry n e = { s with
      districtHold := (s.writeHoldEntry n e).districtHold, sectorHolds := (s.writeHoldEntry n e).sectorHolds
      flags := (s.writeHoldEntry n e).flags } := by
    intro n e
    unfold State.writeHoldEntry
    cases n <;> simp only <;> split <;> rfl
  unfold State.applyPolicy
  split
  · rfl
  · exact w _ _
  · split <;> exact w _ _

end Sys2Proof.Machine
end

