-- ==== Sys2Proof/Laws/Ahead.lean ====
section
/-! SUPPORT. What a claim reads: the count ahead and the need (R74, R75), the route ahead hop by hop (R43), and the claim set at its head (R71). -/

namespace Sys2Proof.Machine

/-- The count ahead of a carrier with a front entry (R74). -/
theorem countAhead_front {s : State} {c : CarrierId} {l r : List HeldEntry} {e : HeldEntry}
    (h : (s.carrier c).held = l ++ e :: r) (f : s.front c = some e.zone) (n : ∀ x ∈ l, x.zone ≠ e.zone) :
    s.countAhead c = (r.filter (fun x => x.status == .granted)).length := by
  have hi : s.frontIndex c = some l.length := by
    unfold State.frontIndex
    rw [f]
    have : s.holds c e.zone = true := by unfold State.holds; rw [h]; simp
    simp only [this, if_true]
    unfold heldIndex
    rw [h, List.findIdx_append]
    have : l.findIdx (fun x => x.zone == e.zone) = l.length := by
      rw [List.findIdx_eq_length]; intro x hx; simpa using n x hx
    simp [this, List.findIdx_cons]
  unfold State.countAhead
  simp only [hi]
  rw [h, List.countP_eq_length_filter]
  congr 2
  simp

/-- The count ahead of a carrier without a front entry (R74). -/
theorem countAhead_unfronted {s : State} {c : CarrierId} (n : ∀ e ∈ (s.carrier c).held, s.front c ≠ some e.zone) :
    s.countAhead c = ((s.carrier c).held.filter (fun x => x.status == .granted)).length := by
  have hi : s.frontIndex c = none := by
    unfold State.frontIndex
    split
    · rfl
    · next z hz =>
      rw [if_neg]
      intro k
      rw [holds_iff] at k
      obtain ⟨e, he, rfl⟩ := k
      exact n e he hz
  unfold State.countAhead
  simp only [hi, List.countP_eq_length_filter]

/-- The zone that an order's target names (R152). -/
theorem targetZone_iff (o : Order) (y : ZoneId) : o.targetZone = some y ↔ o.target = byteOf y.val := by
  unfold Order.targetZone byteOf
  constructor
  · intro h
    split at h
    · cases h
      apply BitVec.eq_of_toNat_eq
      simp
    · cases h
  · intro h
    have : o.target.toNat = y.val := by rw [h]; simp; omega
    rw [dif_pos (by omega)]
    simp [this]

/-- When a carrier has need (R74, R75). -/
theorem hasNeed_iff (s : State) (c : CarrierId) : s.hasNeed c = true ↔ s.countAhead c < (s.carrier c).horizon ∧
      ((s.carrier c).claimMode = .ahead ∨ (s.orderRead c).kind = .goFull ∨
        ((s.orderRead c).kind = .goTo ∧
          ∃ y : ZoneId, (s.orderRead c).target = byteOf y.val ∧ s.onRouteAhead c y = true ∧ s.holds c y = false)) := by
  unfold State.hasNeed State.orderCalls
  cases m : (s.carrier c).claimMode <;> cases k : (s.orderRead c).kind <;> simp [m]
  intro _
  constructor
  · intro h
    split at h
    · cases h
    · next y e => exact ⟨y, (targetZone_iff _ _).1 e, by simpa using h⟩
  · rintro ⟨y, e, h⟩
    rw [(targetZone_iff _ _).2 e]
    simpa using h

/-- The place a number of hops after another in the reading of a route (R38, R43). -/
def State.placesOn (s : State) (p : Option ReadPlace) : Nat → Option ReadPlace
  | 0 => p
  | n+1 => (s.placesOn p n).bind s.nextPlace

theorem placesOn_succ (s : State) (p : ReadPlace) (n : Nat) : State.placesOn s (some p) (n+1) = State.placesOn s (s.nextPlace p) n := by
  induction n with
  | zero => rfl
  | succ n ih => rw [State.placesOn, ih]; rfl

theorem placesOn_none (s : State) (n : Nat) : State.placesOn s none n = none := by
  induction n with
  | zero => rfl
  | succ n ih => rw [State.placesOn, ih]; rfl

/-- The route ahead, place by place, as the statements read it and as the part does (R43). -/
theorem placeAhead_eq (s : State) (c : CarrierId) (n : Nat) : s.placeAhead c n = (State.placesOn s (s.cursorPlace c) n).map (fun p => (p.ref, p.laps)) := by
  induction n with
  | zero => 
    simp only [State.placeAhead, State.placesOn, State.cursorPlace]
    cases (s.carrier c).route <;> cases (s.carrier c).cursor <;> rfl
  | succ n ih =>
    rw [State.placesOn, State.placeAhead, ih]
    cases State.placesOn s (s.cursorPlace c) n with
    | none => rfl
    | some p =>
      simp only [Option.map_some, Option.bind_some]
      unfold State.nextPlace State.seamPlace
      by_cases l : p.ref.hop.val + 1 < (s.route p.ref.route).firstHop.val + (s.route p.ref.route).hopCount
      · rw [if_pos l, if_pos ((lastHop_iff _ _).2 l)]; rfl
      · rw [if_neg l, if_neg (fun q => l ((lastHop_iff _ _).1 q))]
        cases (s.route p.ref.route).endAction
        · rfl
        · simp only; split <;> rfl
        · simp only
          cases (s.route p.ref.route).linkRoute
          · rfl
          · simp only; split <;> rfl

/-- A hop of a reading. -/
theorem readFrom_getElem (s : State) : ∀ n k p, n < k → (s.readFrom k p)[n]? = (s.placesOn p n).map (·.ref) := by
  intro n
  induction n with
  | zero =>
    intro k p h
    cases k with
    | zero => omega
    | succ k => cases p <;> rfl
  | succ n ih =>
    intro k p h
    cases k with
    | zero => omega
    | succ k =>
      cases p with
      | none => rw [placesOn_none]; rfl
      | some p => rw [State.readFrom, List.getElem?_cons_succ, ih k _ (by omega), placesOn_succ]

/-- A hop of a carrier's reading, as the statements name it. -/
theorem readFrom_placeAhead (s : State) (c : CarrierId) (n k : Nat) (h : n < k) :
    (s.readFrom k (s.cursorPlace c))[n]? = (s.placeAhead c n).map (·.1) := by
  rw [readFrom_getElem s n k _ h, placeAhead_eq]
  simp [Function.comp_def]

/-- A reading is as long as was asked at most. -/
theorem readFrom_length (s : State) (k : Nat) (p : Option ReadPlace) : (s.readFrom k p).length ≤ k := by
  induction k generalizing p with
  | zero => simp [State.readFrom]
  | succ k ih => cases p <;> simp [State.readFrom]; exact ih _

/-- A claim set goes on through no-stop zones (R71). -/
theorem takeSet_getElem (s : State) (l : List HopRef) (n : Nat) (h : ∀ m < n, ∃ x, l[m]? = some x ∧ s.noStop (s.hopZone x.hop) = true) :
    (s.takeSet l)[n]? = l[n]? := by
  induction l generalizing n with
  | nil => rfl
  | cons x l ih =>
    unfold State.takeSet
    cases n with
    | zero => split <;> rfl
    | succ n =>
      have := h 0 (by omega)
      simp at this
      rw [if_pos this]
      simp only [List.getElem?_cons_succ]
      exact ih n (fun m hm => by simpa using h (m+1) (by omega))

/-- A claim set ends with its first stop-allowed zone (R71). -/
theorem takeSet_stops (s : State) (l : List HopRef) (n m : Nat) (x : HopRef) (h : l[m]? = some x) (st : s.noStop (s.hopZone x.hop) = false) (k : m < n) :
    (s.takeSet l)[n]? = none := by
  induction l generalizing n m with
  | nil => rfl
  | cons y l ih =>
    unfold State.takeSet
    cases n with
    | zero => omega
    | succ n =>
      split
      · next q =>
        cases m with
        | zero => simp at h; rw [h, st] at q; cases q
        | succ m => simp only [List.getElem?_cons_succ] at h ⊢; exact ih n m h (by omega)
      · simp

/-- A claim set is no longer than what it is read from. -/
theorem takeSet_length (s : State) (l : List HopRef) : (s.takeSet l).length ≤ l.length := by
  induction l with
  | nil => exact Nat.le_refl _
  | cons y l ih => unfold State.takeSet; split <;> simp; exact ih

end Sys2Proof.Machine
end

