-- ==== Sys2Proof/Laws/Claiming.lean ====
section
/-! SUPPORT. A claim pass, end by end (R76, R79, R84, R91, R92): its bound never binds, and what each way through it answers. -/

namespace Sys2Proof.Machine

/-! ## The bound of a pass (log 17) -/

/-- The sets that a pass may still go through. -/
def State.setsLeft (s : State) (c : CarrierId) : Nat :=
  if s.pinToken = some c then 14 else 13 - (s.carrier c).held.length

theorem settle_held (s : State) (c : CarrierId) : ((s.settle c).carrier c).held = (s.carrier c).held ∧ (s.settle c).pinToken = s.pinToken := by
  unfold State.settle
  split
  · have d := dequeued s c
    have e := stateEntered ((s.leaveQueue c).clearWait c) c .advancing
    exact ⟨by rw [e.carrier, d.carrier], by rw [e.rest, d.rest]⟩
  · exact ⟨rfl, rfl⟩

theorem setsLeft_grantSet {s : State} {c : CarrierId} (set : List HopRef) (h : s.pinToken ≠ some c) :
    (s.grantSet c set).setsLeft c = 13 - ((s.carrier c).held.length + set.length) := by
  obtain ⟨t, p, e⟩ := grantSet_parts s c set
  obtain ⟨a, b⟩ := settle_held t c
  obtain ⟨r, i, n, q⟩ := p.carrier
  have k : t.pinToken = s.pinToken := by rw [p.rest]
  unfold State.setsLeft
  rw [e, a, b, k, if_neg h, q]
  simp

theorem setsLeft_wholeSet (s : State) (c : CarrierId) (set : List HopRef) : (s.wholeSet c set).setsLeft c ≤ 13 := by
  obtain ⟨t, p, e⟩ := wholeSet_parts s c set
  obtain ⟨a, b⟩ := settle_held t c
  unfold State.setsLeft
  rw [e, b, p.token, if_neg (by simp)]
  omega

/-- Any two bounds that cover the sets left give the same pass. -/
theorem claimLoop_bound (exam : CarrierId → State → State) (c : CarrierId) (n : Nat) : ∀ (m : Nat) (s : State), 1 ≤ n → 1 ≤ m →
    s.setsLeft c ≤ n → s.setsLeft c ≤ m → claimLoop exam n c s = claimLoop exam m c s := by
  induction n with
  | zero => intro m s h; omega
  | succ n ih =>
    intro m s _ hm ln lm
    obtain ⟨m, rfl⟩ : ∃ k, m = k + 1 := ⟨m - 1, by omega⟩
    have pinned : s.pinToken = some c → ∀ t : State, claimLoop exam n c (t.wholeSet c (s.nextSet c)) = claimLoop exam m c (t.wholeSet c (s.nextSet c)) := by
      intro p t
      unfold State.setsLeft at ln lm
      rw [if_pos p] at ln lm
      have := setsLeft_wholeSet t c (s.nextSet c)
      exact ih m _ (by omega) (by omega) (by omega) (by omega)
    have go : s.pinToken = some c → (match s.takePending c (s.nextSet c) (s.nextSet c) with
        | (t, some w) => t.waitOn c w (s.waitDirection c (s.nextSet c) w)
        | (t, none) => claimLoop exam n c (t.wholeSet c (s.nextSet c))) =
        (match s.takePending c (s.nextSet c) (s.nextSet c) with
        | (t, some w) => t.waitOn c w (s.waitDirection c (s.nextSet c) w)
        | (t, none) => claimLoop exam m c (t.wholeSet c (s.nextSet c))) := by
      intro p
      split
      · rfl
      · exact pinned p _
    unfold claimLoop
    simp only
    split
    · rfl
    · split
      · next h =>
        split
        · rfl
        · exact go h.1
      · split
        · rfl
        · split
          · rfl
          · next cap =>
            split
            · next h => exact go h
            · next h =>
              split
              · rfl
              · have g := setsLeft_grantSet (s.nextSet c) h
                simp only [Bool.or_eq_true, List.isEmpty_iff, List.any_eq_true, decide_eq_true_eq, not_or] at cap
                have l : (s.nextSet c).length ≠ 0 := fun x => cap.1.1 (List.eq_nil_of_length_eq_zero x)
                unfold State.setsLeft at ln lm
                rw [if_neg h] at ln lm
                exact ih m _ (by omega) (by omega) (by omega) (by omega)

theorem setsLeft_le (s : State) (c : CarrierId) : s.setsLeft c ≤ 14 := by
  unfold State.setsLeft; split <;> omega

/-! ## The conditions of a pass go on -/

theorem passAllowed_of_frame {s t : State} {c : CarrierId} (f : EngineFrame s t) (a : t.active c) (h : s.passAllowed c = true) :
    t.passAllowed c = true := by
  rw [passAllowed_iff] at h ⊢
  refine ⟨a, by rw [f.mode]; exact h.2.1, by rw [f.stopMarker]; exact h.2.2.1, ?_⟩
  have fr : t.front c = s.front c := by unfold State.front; rw [(f.carriers c).report]
  have e : t.covered c = s.covered c := by
    unfold State.covered State.districtActive State.sectorActive State.sectorHold State.zone
    rw [f.districtHold, f.linkFlag, f.sectorHolds, f.zones, fr]
  rw [e]; exact h.2.2.2

/-- The examination that a pass started from outside makes of the carriers it wakes. -/
def innerExam : CarrierId → State → State := examineWith (claimPass 48)

theorem runPass_eq {s : State} {c : CarrierId} (h : s.passAllowed c = true) : s.runPass c = (claimLoop innerExam 16 c s).endPass c := by
  unfold State.runPass; rw [if_pos h]; rfl

theorem runPass_next {s t : State} {c : CarrierId} (h : s.passAllowed c = true) (k : t.passAllowed c = true)
    (e : claimLoop innerExam 16 c s = claimLoop innerExam 15 c t) : s.runPass c = t.runPass c := by
  have := setsLeft_le t c
  rw [runPass_eq h, runPass_eq k, e, claimLoop_bound innerExam c 15 16 t (by omega) (by omega) (by omega) (by omega)]

/-! ## Passes without the token -/

/-- A carrier at a set that it may ask for: it has need, and the set is there, meets nothing held and has room (R76 steps 3 and 4). -/
structure Asks (s : State) (c : CarrierId) : Prop where
  need : s.hasNeed c = true
  some : s.nextSet c ≠ []
  new : ∀ x ∈ s.nextSet c, s.holds c (s.hopZone x.hop) = false
  room : (s.carrier c).held.length + (s.nextSet c).length ≤ 12

theorem Asks.guard {s : State} {c : CarrierId} (h : Asks s c) : ((s.nextSet c).isEmpty || (s.nextSet c).any (fun x => s.holds c (s.hopZone x.hop))
    || decide (12 < (s.carrier c).held.length + (s.nextSet c).length)) = false := by
  have a : (s.nextSet c).isEmpty = false := by simpa using h.some
  have b : (s.nextSet c).any (fun x => s.holds c (s.hopZone x.hop)) = false := by
    rw [List.any_eq_false]; intro x hx; rw [h.new x hx]; simp
  have d : decide (12 < (s.carrier c).held.length + (s.nextSet c).length) = false := by
    have := h.room; simp; omega
  rw [a, b, d]; rfl

/-- A pass that ends at steps 3 or 4 of R76. -/
structure Rests (s : State) (c : CarrierId) : Prop where
  out : s.hasNeed c = false ∨ s.nextSet c = [] ∨ (∃ x ∈ s.nextSet c, s.holds c (s.hopZone x.hop) = true) ∨
    12 < (s.carrier c).held.length + (s.nextSet c).length

theorem claimLoop_rests {s : State} {c : CarrierId} (n : Nat) (exam : CarrierId → State → State) (e : (s.carrier c).cursor ≠ .atEnd)
    (p : s.pinToken ≠ some c ∨ s.hasPending c = false) (h : Rests s c) : claimLoop exam (n + 1) c s = s.settle c := by
  unfold claimLoop
  simp only
  rw [if_neg e, if_neg (by rcases p with p | p <;> simp [p])]
  by_cases need : s.hasNeed c = true
  · have g : ((s.nextSet c).isEmpty || (s.nextSet c).any (fun x => s.holds c (s.hopZone x.hop))
        || decide (12 < (s.carrier c).held.length + (s.nextSet c).length)) = true := by
      rcases h.out with o | o | o | o
      · rw [need] at o; cases o
      · simp [o]
      · simp [o]
      · simp [o]
    rw [need, if_neg (by simp), if_pos g]
  · rw [if_pos (by simpa using need)]

theorem endPass_of_not {s : State} {c : CarrierId} (h : s.pinToken ≠ some c) : s.endPass c = s := by
  unfold State.endPass; rw [if_neg (fun x => h x.1)]

/-- A pass without the token that ends at steps 3 or 4 (R76, R84). -/
theorem runPass_rests {s : State} {c : CarrierId} (h : s.passAllowed c = true) (e : (s.carrier c).cursor ≠ .atEnd)
    (p : s.pinToken ≠ some c) (r : Rests s c) : s.runPass c = s.settle c := by
  rw [runPass_eq h, claimLoop_rests 15 _ e (Or.inl p) r, endPass_of_not (by rw [(settle_held s c).2]; exact p)]

/-- A pass whose set passes every test is granted it and goes on (R76 step 6, R78). -/
theorem runPass_grants {s : State} {c : CarrierId} (h : s.passAllowed c = true) (e : (s.carrier c).cursor ≠ .atEnd)
    (p : s.pinToken ≠ some c) (k : Asks s c) (g : (s.nextSet c).findSome? (s.testZone c (s.nextSet c)) = none) :
    s.runPass c = (s.grantSet c (s.nextSet c)).runPass c := by
  have cl := (EngineFrame.closed s).toEngineClosed.grantSet c (s.nextSet c) (EngineFrame.refl s)
    (active_of_passAllowed h) (by simpa [List.findSome?_eq_none_iff] using g) k.room
  refine runPass_next h (passAllowed_of_frame cl.1 cl.2 h) ?_
  rw [show (16 : Nat) = 15 + 1 from rfl, claimLoop]
  simp only
  rw [if_neg e, if_neg (fun x => p x.1), k.need, if_neg (by simp), if_neg (by rw [k.guard]; simp), if_neg p, g]

/-- A pass whose set fails a test ends in that wait (R76 step 6, R79). -/
theorem claimLoop_waits {s : State} {c : CarrierId} (n : Nat) (exam : CarrierId → State → State) (e : (s.carrier c).cursor ≠ .atEnd)
    (p : s.pinToken ≠ some c) (k : Asks s c) {w : Wait} (g : (s.nextSet c).findSome? (s.testZone c (s.nextSet c)) = some w) :
    claimLoop exam (n + 1) c s = s.waitOn c w (s.waitDirection c (s.nextSet c) w) := by
  rw [claimLoop]
  simp only
  rw [if_neg e, if_neg (fun x => p x.1), k.need, if_neg (by simp), if_neg (by rw [k.guard]; simp), if_neg p, g]

/-! ## Waits (R79) -/

theorem zst_joinZoneQueue (s : State) (c : CarrierId) (z w : ZoneId) (x : ZoneCause) : ((s.joinZoneQueue c z x).zst w) =
    if w = z then { s.zst z with queue := insertByClass (·.priority) ⟨c, x, (s.carrier c).priority, s.tickets⟩ (s.zst z).queue } else s.zst w := by
  exact zst_setZst ..

theorem recomputeOutput_keeps (t : State) (z : ZoneId) : t.recomputeOutput z = { t with fieldSlots := (t.recomputeOutput z).fieldSlots } :=
  recomputeBinding_only ..

/-- What joining a queue writes: the queue its wait names, the ticket, and for a FIELD wait request outputs. -/
structure Joined (s t : State) (c : CarrierId) (w : Wait) (d : Direction) : Prop where
  zone : ∀ z x, w = .zone z ∧ x = .zone ∨ w = .conflict z ∧ x = .conflict ∨ w = .field z ∧ x = .field →
    (t.zst z).queue = insertByClass (·.priority) ⟨c, x, (s.carrier c).priority, s.tickets⟩ (s.zst z).queue
  corridor : ∀ k, w = .corridor k →
    (t.cst k).queue = insertByClass (·.priority) ⟨c, d, (s.carrier c).priority, s.tickets⟩ (s.cst k).queue
  hold : w = .hold → t.holdWait = insertByClass (·.priority) ⟨c, (s.carrier c).priority, s.tickets⟩ s.holdWait
  holder : ∀ z, t.holder z = s.holder z
  rest : t = { s with
    zoneStates := t.zoneStates, corridorStates := t.corridorStates, fieldSlots := t.fieldSlots, holdWait := t.holdWait
    tickets := t.tickets }

theorem joined (s : State) (c : CarrierId) (w : Wait) (d : Direction) : Joined s (s.joinQueue c w d) c w d := by
  have hol := (HoldingSame.joinQueue s c w d).holder
  unfold State.joinQueue at hol ⊢
  cases w with
  | none =>
    refine ⟨?_, by simp, by simp, hol, rfl⟩
    rintro z x (⟨h, -⟩ | ⟨h, -⟩ | ⟨h, -⟩) <;> cases h
  | zone y =>
    refine ⟨?_, by simp, by simp, hol, rfl⟩
    rintro z x (⟨h, rfl⟩ | ⟨h, -⟩ | ⟨h, -⟩) <;> cases h
    simp only [zst_joinZoneQueue, if_true]
  | conflict y =>
    refine ⟨?_, by simp, by simp, hol, rfl⟩
    rintro z x (⟨h, -⟩ | ⟨h, rfl⟩ | ⟨h, -⟩) <;> cases h
    simp only [zst_joinZoneQueue, if_true]
  | field y =>
    refine ⟨?_, by simp, by simp, hol, ?_⟩
    · rintro z x (⟨h, -⟩ | ⟨h, -⟩ | ⟨h, rfl⟩) <;> cases h
      simp only [State.recomputeOutput, zst_recomputeBinding, zst_joinZoneQueue, if_true]
    · dsimp only
      rw [recomputeOutput_keeps]; rfl
  | corridor j =>
    refine ⟨?_, ?_, by simp, hol, rfl⟩
    · rintro z x (⟨h, -⟩ | ⟨h, -⟩ | ⟨h, -⟩) <;> cases h
    · intro k h
      cases h
      have : (State.cst { s.setCst j { s.cst j with queue := insertByClass (·.priority) ⟨c, d, (s.carrier c).priority, s.tickets⟩ (s.cst j).queue } with
        tickets := s.tickets + 1 } j) = { s.cst j with queue := insertByClass (·.priority) ⟨c, d, (s.carrier c).priority, s.tickets⟩ (s.cst j).queue } :=
        (cst_setCst ..).trans (if_pos rfl)
      dsimp only
      rw [this]
  | hold =>
    refine ⟨?_, by simp, fun _ => rfl, hol, rfl⟩
    rintro z x (⟨h, -⟩ | ⟨h, -⟩ | ⟨h, -⟩) <;> cases h

/-- The deadlock check where the cause calls for it (R79, R94). -/
def State.checkedFor (u : State) (c : CarrierId) (w : Wait) : State :=
  match w with
  | .zone _ => u.deadlockCheck c
  | .conflict _ => u.deadlockCheck c
  | _ => u

/-- A carrier put into a wait, the deadlock check not yet made (R79). -/
structure PutWaiting (s u : State) (c : CarrierId) (w : Wait) (d : Direction) : Prop where
  same : (s.carrier c).state = .waiting → (s.carrier c).wait = w → u = s
  fresh : (s.carrier c).state = .advancing → u.carrier c = { s.carrier c with
    state := .waiting, wait := w, waitAge := 0, flags := { (s.carrier c).flags with state := true, wait := true } }
  moved : (s.carrier c).state = .waiting → (s.carrier c).wait ≠ w → u.carrier c = { s.carrier c with
    wait := w, flags := { (s.carrier c).flags with wait := true } }
  others : ∀ d, d ≠ c → u.carrier d = s.carrier d
  holder : ∀ z, u.holder z = s.holder z
  queues : (s.carrier c).state = .advancing ∨ (s.carrier c).wait ≠ w → ∃ v : State,
    ((s.carrier c).state = .advancing → v = s) ∧
    ((s.carrier c).state = .waiting → ∃ x, Dequeued s x c ∧ v = { x with carriers := s.carriers }) ∧
    ∃ t, Joined v t c w d ∧ u.zoneStates = t.zoneStates ∧ u.corridorStates = t.corridorStates ∧ u.holdWait = t.holdWait
  rest : u = { s with
    carriers := u.carriers, zoneStates := u.zoneStates, corridorStates := u.corridorStates, fieldSlots := u.fieldSlots
    holdWait := u.holdWait, tickets := u.tickets, operatorSlot := u.operatorSlot, safetySlot := u.safetySlot }

theorem waitOn_parts {s : State} {c : CarrierId} (w : Wait) (d : Direction) (a : s.active c) :
    ∃ u, PutWaiting s u c w d ∧ s.waitOn c w d = u.checkedFor c w := by
  rcases a with a | a
  · refine ⟨((((s.joinQueue c w d).modCarrier c (fun r => { r with wait := w, waitAge := 0 })).flagWait c).enterState c .waiting), ?_, ?_⟩
    · have j := joined s c w d
      have k : ∀ x, (s.joinQueue c w d).carrier x = s.carrier x := fun x => carrier_joinQueue ..
      generalize s.joinQueue c w d = t at j k ⊢
      constructor
      · intro x; rw [a] at x; cases x
      · intro _
        simp [State.enterState, State.flagState, State.flagWait, carrier_modCarrier_self, k]
      · intro x; rw [a] at x; cases x
      · intro x h
        simp [State.enterState, State.flagState, State.flagWait, carrier_modCarrier, h, k]
      · exact j.holder
      · intro _
        exact ⟨s, fun _ => rfl, fun x => (by rw [a] at x; cases x), t, j, rfl, rfl, rfl⟩
      · unfold State.enterState State.breakWatch State.flagState State.flagWait State.modCarrier State.setCarrier
        rw [j.rest]
    · unfold State.waitOn
      simp only [a]
      rfl
  · by_cases e : (s.carrier c).wait = w
    · refine ⟨s, ?_, ?_⟩
      · exact ⟨fun _ _ => rfl, fun x => by (rw [a] at x; cases x), fun _ n => absurd e n, fun _ _ => rfl, fun _ => rfl,
          fun x => by (rcases x with x | x; (rw [a] at x; cases x); exact absurd e x), rfl⟩
      · unfold State.waitOn
        simp only [a, e, if_true]
        rfl
    · have dq := dequeued s c
      have lc : ∀ x, (s.leaveQueue c).carrier x = s.carrier x := fun x => carrier_leaveQueue ..
      have lo := leaveQueue_only s c
      have lh := (HoldingSame.leaveQueue s c).holder
      refine ⟨((((s.leaveQueue c).joinQueue c w d).modCarrier c (fun r => { r with wait := w })).flagWait c).breakWatch c, ?_, ?_⟩
      · have j := joined (s.leaveQueue c) c w d
        have k : ∀ x, ((s.leaveQueue c).joinQueue c w d).carrier x = s.carrier x := fun x => (carrier_joinQueue ..).trans (lc x)
        have tr : (s.leaveQueue c).joinQueue c w d = { s with
            zoneStates := ((s.leaveQueue c).joinQueue c w d).zoneStates
            corridorStates := ((s.leaveQueue c).joinQueue c w d).corridorStates
            fieldSlots := ((s.leaveQueue c).joinQueue c w d).fieldSlots
            holdWait := ((s.leaveQueue c).joinQueue c w d).holdWait, tickets := ((s.leaveQueue c).joinQueue c w d).tickets } := by
          generalize (s.leaveQueue c).joinQueue c w d = t at j ⊢
          rw [j.rest]
          generalize s.leaveQueue c = q at lo ⊢
          rw [lo]
        generalize (s.leaveQueue c).joinQueue c w d = t at j k tr ⊢
        constructor
        · intro _ x; exact absurd x e
        · intro x; rw [a] at x; cases x
        · intro _ _
          simp [State.flagWait, carrier_modCarrier_self, k]
        · intro x h
          simp [State.flagWait, carrier_modCarrier, h, k]
        · intro z; exact (j.holder z).trans (lh z)
        · intro _
          refine ⟨s.leaveQueue c, fun x => by (rw [a] at x; cases x), fun _ => ⟨_, dq, ?_⟩, t, j, rfl, rfl, rfl⟩
          rw [leaveQueue_only]; rfl
        · unfold State.breakWatch State.flagWait State.modCarrier State.setCarrier
          rw [tr]
      · unfold State.waitOn
        simp only [a, e, if_false]
        rfl

/-- The deadlock check writes the deadlock record and its flag alone (R95). -/
theorem checkedFor_only (u : State) (c : CarrierId) (w : Wait) :
    u.checkedFor c w = { u with deadlock := (u.checkedFor c w).deadlock, flags := (u.checkedFor c w).flags } := by
  have k : u.deadlockCheck c = { u with deadlock := (u.deadlockCheck c).deadlock, flags := (u.deadlockCheck c).flags } := by
    unfold State.deadlockCheck
    split <;> rfl
  unfold State.checkedFor
  split
  · exact k
  · exact k
  · rfl

theorem putWaiting_token {s u : State} {c : CarrierId} {w : Wait} {d : Direction} (p : PutWaiting s u c w d) :
    u.pinToken = s.pinToken := by rw [p.rest]

/-- A pass without the token that ends in a wait (R79). -/
theorem runPass_waits {s : State} {c : CarrierId} (h : s.passAllowed c = true) (e : (s.carrier c).cursor ≠ .atEnd)
    (p : s.pinToken ≠ some c) (k : Asks s c) {w : Wait} (g : (s.nextSet c).findSome? (s.testZone c (s.nextSet c)) = some w) :
    ∃ u, PutWaiting s u c w (s.waitDirection c (s.nextSet c) w) ∧ s.runPass c = u.checkedFor c w := by
  obtain ⟨u, pw, q⟩ := waitOn_parts (s := s) w (s.waitDirection c (s.nextSet c) w) (active_of_passAllowed h)
  refine ⟨u, pw, ?_⟩
  rw [runPass_eq h, claimLoop_waits 15 _ e p k g, q, endPass_of_not]
  rw [checkedFor_only]
  show u.pinToken ≠ some c
  rw [putWaiting_token pw]
  exact p

/-! ## The end of a route (R76 step 1) -/

theorem carrier_detachRoute (s : State) (c : CarrierId) :
    (s.detachRoute c).carrier c = { s.carrier c with route := none, cursor := .none, laps := 0 } := by
  unfold State.detachRoute
  rw [carrier_modCarrier_self, carrier_dropUserOf]

/-- The carrier of an exhausted route (R76 step 1, R55). -/
theorem runPass_exhausts {s : State} {c : CarrierId} (h : s.passAllowed c = true) (e : (s.carrier c).cursor = .atEnd) :
    (s.runPass c).carrier c = { s.carrier c with
      state := .idle, route := none, cursor := .none, laps := 0
      wait := if (s.carrier c).state = .waiting then .none else (s.carrier c).wait
      waitAge := if (s.carrier c).state = .waiting then 0 else (s.carrier c).waitAge
      flags := { (s.carrier c).flags with state := true, routeEnd := true } } := by
  have ep : ∀ t : State, (t.endPass c).carrier c = t.carrier c := by
    intro t; unfold State.endPass; split <;> rfl
  have step : claimLoop innerExam 16 c s = s.exhaustWith innerExam c := by
    unfold claimLoop
    simp only
    rw [if_pos e]
  rw [runPass_eq h, ep, step]
  unfold State.exhaustWith
  simp only
  have base : ∃ t, t = (if (s.carrier c).state = .waiting then (s.leaveQueue c).clearWait c else s) ∧
      t.carrier c = { s.carrier c with
        wait := if (s.carrier c).state = .waiting then .none else (s.carrier c).wait
        waitAge := if (s.carrier c).state = .waiting then 0 else (s.carrier c).waitAge } := by
    refine ⟨_, rfl, ?_⟩
    by_cases w : (s.carrier c).state = .waiting
    · rw [if_pos w, (dequeued s c).carrier, if_pos w, if_pos w]
    · rw [if_neg w, if_neg w, if_neg w]
  obtain ⟨t, ht, tc⟩ := base
  rw [← ht]
  have vc : (((t.detachRoute c).enterState c .idle).flagRouteEnd c).carrier c = { s.carrier c with
      state := .idle, route := none, cursor := .none, laps := 0
      wait := if (s.carrier c).state = .waiting then .none else (s.carrier c).wait
      waitAge := if (s.carrier c).state = .waiting then 0 else (s.carrier c).waitAge
      flags := { (s.carrier c).flags with state := true, routeEnd := true } } := by
    rw [State.flagRouteEnd, carrier_modCarrier_self, (stateEntered (t.detachRoute c) c .idle).carrier, carrier_detachRoute, tc]
  generalize ((t.detachRoute c).enterState c .idle).flagRouteEnd c = v at vc ⊢
  have H := ParkedKept.closed v
  have idle : ¬v.active c := by unfold State.active; rw [vc]; simp
  have kept : ParkedKept v (v.undirectWith innerExam c) :=
    H.undirectWith (fun d t ht => H.examineWith (fun d u hu a => H.claimPass 48 d hu a) d ht) c (ParkedKept.refl v)
  rw [kept c idle, vc]

/-! ## The token holder's pass (R91, R92, R93) -/

/-- A token holder in the middle of a set that it may complete (R76 step 2, log 39). -/
structure MidSet (s : State) (c : CarrierId) : Prop where
  some : s.hasPending c = true
  fits : s.outgrown c (s.nextSet c) = false

/-- A token holder's pass that goes on with its set (R76 steps 2 and 5). -/
theorem claimLoop_pinned {s : State} {c : CarrierId} (n : Nat) (exam : CarrierId → State → State) (e : (s.carrier c).cursor ≠ .atEnd)
    (p : s.pinToken = some c) (k : MidSet s c ∨ s.hasPending c = false ∧ Asks s c) : claimLoop exam (n + 1) c s =
      match s.takePending c (s.nextSet c) (s.nextSet c) with
      | (t, some w) => t.waitOn c w (s.waitDirection c (s.nextSet c) w)
      | (t, none) => claimLoop exam n c (t.wholeSet c (s.nextSet c)) := by
  rw [claimLoop]
  simp only
  rw [if_neg e]
  by_cases h : s.hasPending c = true
  · have o : s.outgrown c (s.nextSet c) = false := k.elim (·.fits) (fun x => absurd h (by rw [x.1]; simp))
    rw [if_pos ⟨p, h⟩]
    exact (if_neg (by rw [o]; simp)).trans rfl
  · have a := (k.resolve_left (fun x => h x.some)).2
    rw [if_neg (fun x => h x.2), a.need, if_neg (by simp), if_neg (by rw [a.guard]; simp)]
    exact (if_pos p).trans rfl

theorem endPass_of_waiting {s : State} {c : CarrierId} (h : (s.carrier c).state = .waiting) : s.endPass c = s := by
  unfold State.endPass; rw [if_neg (fun x => x.2.2 h)]

theorem putWaiting_state {s u : State} {c : CarrierId} {w : Wait} {d : Direction} (p : PutWaiting s u c w d) (a : s.active c) :
    (u.carrier c).state = .waiting ∧ (u.carrier c).wait = w ∧ (u.carrier c).held = (s.carrier c).held ∧
      (u.carrier c).cursor = (s.carrier c).cursor := by
  rcases a with a | a
  · rw [p.fresh a]; exact ⟨rfl, rfl, rfl, rfl⟩
  · by_cases e : (s.carrier c).wait = w
    · rw [p.same a e]; exact ⟨a, e, rfl, rfl⟩
    · rw [p.moved a e]; exact ⟨a, rfl, rfl, rfl⟩

/-- A token holder's pass that fails at one of its set's zones (R91). -/
theorem runPass_pinned_waits {s t : State} {c : CarrierId} {w : Wait} (h : s.passAllowed c = true) (e : (s.carrier c).cursor ≠ .atEnd)
    (p : s.pinToken = some c) (k : MidSet s c ∨ s.hasPending c = false ∧ Asks s c)
    (q : s.takePending c (s.nextSet c) (s.nextSet c) = (t, some w)) :
    ∃ u, PutWaiting t u c w (s.waitDirection c (s.nextSet c) w) ∧ s.runPass c = u.checkedFor c w := by
  obtain ⟨l, a, b, d, f, -⟩ := takePending_parts c (s.nextSet c) (s.nextSet c) s
  rw [q] at a b d f
  have act : t.active c := by
    have := active_of_passAllowed h
    unfold State.active at this ⊢
    rw [show (t.carrier c).state = (s.carrier c).state by rw [a]]
    exact this
  obtain ⟨u, pw, r⟩ := waitOn_parts (s := t) w (s.waitDirection c (s.nextSet c) w) act
  refine ⟨u, pw, ?_⟩
  rw [runPass_eq h, claimLoop_pinned 15 _ e p k, q]
  simp only
  rw [r, endPass_of_waiting]
  rw [checkedFor_only]
  exact (putWaiting_state pw act).1

/-- A token holder's pass that takes its set whole (R92). -/
theorem runPass_pinned_whole {s t : State} {c : CarrierId} (h : s.passAllowed c = true) (e : (s.carrier c).cursor ≠ .atEnd)
    (p : s.pinToken = some c) (k : MidSet s c ∨ s.hasPending c = false ∧ Asks s c)
    (q : s.takePending c (s.nextSet c) (s.nextSet c) = (t, none)) :
    s.runPass c = (t.wholeSet c (s.nextSet c)).runPass c := by
  obtain ⟨l, a, b, d, f, -⟩ := takePending_parts c (s.nextSet c) (s.nextSet c) s
  rw [q] at a b d f
  have act : t.active c := by
    have := active_of_passAllowed h
    unfold State.active at this ⊢
    rw [show (t.carrier c).state = (s.carrier c).state by rw [a]]
    exact this
  have cl := (EngineFrame.closed t).toEngineClosed.wholeSet c (s.nextSet c) (EngineFrame.refl t) act
  refine runPass_next h (passAllowed_of_frame (EngineFrame.trans f cl.1) cl.2 h) ?_
  rw [show (16 : Nat) = 15 + 1 from rfl, claimLoop_pinned 15 _ e p k, q]

/-- A token holder whose set has outgrown its list: it is left ADVANCING with the token and its PENDING entries (log 39). -/
theorem runPass_outgrown {s : State} {c : CarrierId} (h : s.passAllowed c = true) (e : (s.carrier c).cursor ≠ .atEnd)
    (p : s.pinToken = some c) (k : s.hasPending c = true) (o : s.outgrown c (s.nextSet c) = true) : s.runPass c = s.settle c := by
  have l : claimLoop innerExam (15 + 1) c s = s.settle c := by
    rw [claimLoop]
    simp only
    rw [if_neg e, if_pos ⟨p, k⟩]
    exact (if_pos o).trans rfl
  rw [runPass_eq h, l]
  unfold State.endPass
  rw [if_neg]
  rintro ⟨-, x, -⟩
  unfold State.hasPending at k x
  rw [(settle_held s c).1, k] at x
  cases x

/-- A token holder that holds nothing PENDING and whose pass ends without a wait (R93). -/
theorem runPass_pinned_rests {s : State} {c : CarrierId} (h : s.passAllowed c = true) (e : (s.carrier c).cursor ≠ .atEnd)
    (p : s.pinToken = some c) (k : s.hasPending c = false) (r : Rests s c) :
    s.runPass c = { s.settle c with pinToken := none } := by
  rw [runPass_eq h, claimLoop_rests 15 _ e (Or.inr k) r]
  unfold State.endPass
  rw [if_pos]
  refine ⟨by rw [(settle_held s c).2]; exact p, ?_, ?_⟩
  · unfold State.hasPending at k ⊢
    rw [(settle_held s c).1]; exact k
  · unfold State.settle
    split
    · rw [(stateEntered _ c .advancing).carrier]; simp
    · next w => exact w

end Sys2Proof.Machine
end

