-- ==== Sys2Proof/Laws/Corridors.lean ====
section
/-! SUPPORT. Corridors as R22 and R23 give them: each change of a corridor's state keeps it so. -/

namespace Sys2Proof.Machine

theorem occupant_spec {x : CorridorState} {c : CarrierId} {o : Occupant} (h : x.occupant c = some o) : o.slot = c ∧ o ∈ x.occupants := by
  unfold CorridorState.occupant at h
  exact ⟨by simpa using List.find?_some h, List.mem_of_find?_eq_some h⟩

theorem occupant_none {x : CorridorState} {c : CarrierId} (h : x.occupant c = none) : ∀ o ∈ x.occupants, o.slot ≠ c := by
  unfold CorridorState.occupant at h
  intro o ho e
  have := List.find?_eq_none.1 h o ho
  simp [e] at this

/-- An occupant list stays without repeats as a carrier that has no entry joins it. -/
theorem once_append {x : CorridorState} {c : CarrierId} (h : (x.occupants.map (·.slot)).Nodup) (e : x.occupant c = none) (d : Option Direction) :
    ((x.occupants ++ [(⟨c, d⟩ : Occupant)]).map (·.slot)).Nodup := by
  rw [List.map_append, List.nodup_append]
  refine ⟨h, List.nodup_cons.2 ⟨List.not_mem_nil, List.nodup_nil⟩, fun a ha b hb => ?_⟩
  obtain ⟨o, ho, rfl⟩ := List.mem_map.1 ha
  rw [List.mem_singleton.1 hb]
  exact occupant_none e o ho

theorem unique_slot {l : List Occupant} (h : (l.map (·.slot)).Nodup) {a b : Occupant} (ha : a ∈ l) (hb : b ∈ l) (e : a.slot = b.slot) : a = b := by
  induction l with
  | nil => cases ha
  | cons x l ih =>
    rw [List.map_cons, List.nodup_cons] at h
    rcases List.mem_cons.1 ha with p | p <;> rcases List.mem_cons.1 hb with q | q
    · rw [p, q]
    · exact absurd (List.mem_map.2 ⟨b, q, e.symm.trans (congrArg _ p)⟩) h.1
    · exact absurd (List.mem_map.2 ⟨a, p, e.trans (congrArg _ q)⟩) h.1
    · exact ih h.2 p q

theorem directEntry_slots (c : CarrierId) (d : Option Direction) (l : List Occupant) : (directEntry c d l).map (·.slot) = l.map (·.slot) := by
  unfold directEntry
  rw [List.map_map]
  apply List.map_congr_left
  intro o _
  simp only [Function.comp]
  split
  · next e => exact e.symm
  · rfl

theorem mem_directEntry {c : CarrierId} {d : Option Direction} {l : List Occupant} {o : Occupant} (h : o ∈ directEntry c d l) :
    (o.slot = c ∧ o.direction = d) ∨ (o ∈ l ∧ o.slot ≠ c) := by
  unfold directEntry at h
  obtain ⟨a, ha, rfl⟩ := List.mem_map.1 h
  split
  · exact .inl ⟨rfl, rfl⟩
  · next e => exact .inr ⟨ha, e⟩

theorem directs_of {x : CorridorState} (nd : (x.occupants.map (·.slot)).Nodup) {o : Occupant} (h : o ∈ x.occupants) (d : o.direction ≠ none) : x.directs o.slot = true := by
  unfold CorridorState.directs
  cases e : x.occupant o.slot with
  | none => exact absurd rfl (occupant_none e o h)
  | some p =>
    have := unique_slot nd (occupant_spec e).2 h (occupant_spec e).1
    subst this
    obtain ⟨sl, dd⟩ := p
    cases dd with
    | none => exact absurd rfl d
    | some _ => rfl

/-- A corridor without a directed occupant is right once its flow has turned (R31). -/
theorem CorridorOk.turned {q : Nat} {x : CorridorState} (hq : 1 ≤ q) (once : (x.occupants.map (·.slot)).Nodup) (h : x.hasDirected = false) : CorridorOk q x.turned := by
  unfold CorridorState.hasDirected at h
  rw [List.any_eq_false] at h
  constructor <;> unfold CorridorState.turned
  · exact once
  · intro o ho; have := h o ho; left; simpa using this
  · intro h; exact absurd rfl h
  · cases e : x.occupants <;> simp
  · intro h
    cases e : x.occupants <;> simp [e] at h
  · intro _; rfl
  · intro _; exact hq
  · exact Nat.zero_le _

/-- A directed entry keeps a corridor right: into a corridor without direction, or along its direction while it is FLOWING (R27). -/
theorem CorridorOk.direct {q : Nat} {x : CorridorState} {l : List Occupant} {d : Direction} (hq : 1 ≤ q) (hq' : q ≤ 15) (h : CorridorOk q x)
    (once : (l.map (·.slot)).Nodup) (mem : ∃ o ∈ l, o.direction = some d) (sub : ∀ o ∈ l, o.direction = some d ∨ o ∈ x.occupants) :
    (x.direction = none → CorridorOk q { x with occupants := l, direction := some d, flow := .flowing }) ∧
      (x.direction = some d → x.flow = .flowing → CorridorOk q (({ x with occupants := l } : CorridorState).countEntry q d)) := by
  have ne : l ≠ [] := by
    obtain ⟨o, ho, _⟩ := mem
    intro z
    rw [z] at ho
    cases ho
  refine ⟨fun dn => ?_, fun ds fl => ?_⟩
  · constructor
    · exact once
    · intro o ho
      rcases sub o ho with g | g
      · exact .inr g
      · rcases h.directed o g with j | j
        · exact .inl j
        · exact .inl (j.trans dn)
    · intro _; exact mem
    · exact ⟨fun z => (nomatch z), fun z => absurd z ne⟩
    · intro z; cases z
    · intro z; cases z
    · intro _; show x.count < q; rw [h.unopposed dn]; exact hq
    · exact h.count
  · have lt := h.opposed (by rw [fl]; decide)
    have base : CorridorOk q { x with occupants := l } := by
      constructor
      · exact once
      · intro o ho
        rcases sub o ho with g | g
        · exact .inr (g.trans ds.symm)
        · exact h.directed o g
      · intro _
        obtain ⟨o, ho, e⟩ := mem
        exact ⟨o, ho, e.trans ds.symm⟩
      · exact ⟨fun z => (nomatch fl.symm.trans z), fun z => absurd z ne⟩
      · exact h.draining
      · exact h.unopposed
      · exact h.opposed
      · exact h.count
    unfold CorridorState.countEntry
    split
    · constructor
      · exact base.once
      · exact base.directed
      · exact base.kept
      · show (if q ≤ x.count + 1 then Flow.draining else x.flow) = .free ↔ _
        refine ⟨fun z => ?_, fun z => absurd z ne⟩
        split at z
        · cases z
        · rw [z] at fl; cases fl
      · intro _ z; rw [show x.direction = none from z] at ds; cases ds
      · intro z; rw [show x.direction = none from z] at ds; cases ds
      · show (if q ≤ x.count + 1 then Flow.draining else x.flow) ≠ .draining → x.count + 1 < q
        split
        · intro z; exact absurd rfl z
        · omega
      · show x.count + 1 ≤ 15; omega
    · exact base

/-- Each change that claims, releases, detachments and gifts make keeps a corridor as R22 and R23 give it. -/
theorem CorridorOk.step {q : Nat} {x y : CorridorState} (hq : 1 ≤ q) (hq' : q ≤ 15) (h : CorridorOk q x) (k : CorridorStep q x y) :
    CorridorOk q y := by
  cases k with
  | enter c d a =>
    unfold CorridorState.admits at a
    have flowing : ∀ e, x.direction = some e → (match x.direction with
        | none => true
        | some e => x.flow == .flowing && e == d) = true → x.direction = some d ∧ x.flow = .flowing := by
      intro e de g
      rw [de] at g
      have f : (x.flow == .flowing && e == d) = true := g
      rw [Bool.and_eq_true, beq_iff_eq, beq_iff_eq] at f
      exact ⟨de.trans (congrArg some f.2), f.1⟩
    unfold CorridorState.enter
    split
    · exact h
    · next s e =>
      rw [e] at a
      obtain ⟨so, mo⟩ := occupant_spec e
      have k := h.direct (l := directEntry c (some d) x.occupants) (d := d) hq hq' (by rw [directEntry_slots]; exact h.once)
        ⟨⟨c, some d⟩, List.mem_map.2 ⟨_, mo, if_pos so⟩, rfl⟩
        (fun o ho => (mem_directEntry ho).imp (fun g => g.2) (fun g => g.1))
      split
      · next dn => exact k.1 dn
      · next e de => exact k.2 (flowing e de a).1 (flowing e de a).2
    · next e =>
      rw [e] at a
      have k := h.direct (l := x.occupants ++ [(⟨c, some d⟩ : Occupant)]) (d := d) hq hq' (once_append h.once e _)
        ⟨⟨c, some d⟩, List.mem_append_right _ (List.mem_singleton.2 rfl), rfl⟩
        (fun o ho => (List.mem_append.1 ho).elim .inr (fun g => .inl (by rw [List.mem_singleton.1 g])))
      split
      · next dn => exact k.1 dn
      · next e de => exact k.2 (flowing e de a).1 (flowing e de a).2
  | leave c =>
    unfold CorridorState.leave
    simp only
    have nd : ((x.occupants.filter (fun o => o.slot != c)).map (·.slot)).Nodup :=
      List.Nodup.sublist (List.Sublist.map _ List.filter_sublist) h.once
    split
    · next g =>
      simp only [Bool.and_eq_true, Bool.not_eq_true'] at g
      exact CorridorOk.turned hq nd g.2
    · next g =>
      simp only [Bool.and_eq_true, Bool.not_eq_true', not_and, Bool.not_eq_false] at g
      have kept : x.direction ≠ none → ∃ o ∈ x.occupants.filter (fun o => o.slot != c), o.direction = x.direction := by
        intro dn
        obtain ⟨o, ho, e⟩ := h.kept dn
        by_cases s : o.slot = c
        · subst s
          have := g (directs_of h.once ho (by rw [e]; exact dn))
          unfold CorridorState.hasDirected at this
          rw [List.any_eq_true] at this
          obtain ⟨p, hp, pd⟩ := this
          refine ⟨p, hp, ?_⟩
          rcases h.directed p (List.mem_filter.1 hp).1 with j | j
          · rw [j] at pd; cases pd
          · exact j
        · exact ⟨o, List.mem_filter.2 ⟨ho, by simpa using s⟩, e⟩
      constructor
      · exact nd
      · intro o ho; exact h.directed o (List.mem_filter.1 ho).1
      · exact kept
      · show (if _ then Flow.free else x.flow) = .free ↔ _
        split
        · next z => simp at z; simpa using z.1
        · next z =>
          simp only [Bool.and_eq_true, List.isEmpty_iff, beq_iff_eq, not_and] at z
          constructor
          · intro f; have := h.free.1 f; rw [this]; rfl
          · intro em
            have nf := z em
            cases fl : x.flow with
            | free => rfl
            | flowing => exact absurd fl nf
            | draining =>
              obtain ⟨o, ho, _⟩ := kept (h.draining fl)
              exact absurd (show o ∈ ([] : List Occupant) from em ▸ ho) (by simp)
      · show (if _ then Flow.free else x.flow) = .draining → _
        split
        · intro z; cases z
        · exact h.draining
      · exact h.unopposed
      · show (if _ then Flow.free else x.flow) ≠ .draining → _
        split
        · next z => simp at z; intro _; exact h.opposed (by rw [z.2]; simp)
        · exact h.opposed
      · exact h.count
  | undirect c =>
    unfold CorridorState.undirect
    simp only
    have nd : ((directEntry c none x.occupants).map (·.slot)).Nodup := by rw [directEntry_slots]; exact h.once
    split
    · next g =>
      simp only [Bool.and_eq_true, Bool.not_eq_true'] at g
      exact CorridorOk.turned hq nd g.2
    · next g =>
      simp only [Bool.and_eq_true, Bool.not_eq_true', not_and, Bool.not_eq_false] at g
      have em : directEntry c none x.occupants = [] ↔ x.occupants = [] := by unfold directEntry; simp
      constructor
      · exact nd
      · intro o ho
        rcases mem_directEntry ho with j | j
        · exact .inl j.2
        · exact h.directed o j.1
      · intro dn
        obtain ⟨o, ho, e⟩ := h.kept dn
        by_cases s : o.slot = c
        · subst s
          have := g (directs_of h.once ho (by rw [e]; exact dn))
          unfold CorridorState.hasDirected at this
          rw [List.any_eq_true] at this
          obtain ⟨p, hp, pd⟩ := this
          refine ⟨p, hp, ?_⟩
          rcases mem_directEntry hp with j | j
          · rw [j.2] at pd; cases pd
          · rcases h.directed p j.1 with k | k
            · rw [k] at pd; cases pd
            · exact k
        · exact ⟨o, by unfold directEntry; exact List.mem_map.2 ⟨o, ho, by simp [s]⟩, e⟩
      · rw [show (directEntry c none x.occupants = []) = (x.occupants = []) from propext em]; exact h.free
      · exact h.draining
      · exact h.unopposed
      · exact h.opposed
      · exact h.count
  | join c =>
    unfold CorridorState.joinUndirected
    split
    · exact h
    · next e =>
      constructor
      · exact once_append h.once e none
      · intro o ho
        rcases List.mem_append.1 ho with g | g
        · exact h.directed o g
        · simp at g; subst g; exact .inl rfl
      · intro dn
        obtain ⟨o, ho, e⟩ := h.kept dn
        exact ⟨o, List.mem_append_left _ ho, e⟩
      · show (if x.flow = .free then Flow.flowing else x.flow) = .free ↔ _
        split <;> simp_all
      · show (if x.flow = .free then Flow.flowing else x.flow) = .draining → _
        split
        · intro z; cases z
        · exact h.draining
      · exact h.unopposed
      · show (if x.flow = .free then Flow.flowing else x.flow) ≠ .draining → _
        split
        · next z => intro _; exact h.opposed (by rw [z]; simp)
        · exact h.opposed
      · exact h.count

/-- A quota written over a corridor keeps it right (R21). -/
theorem CorridorOk.requota {q r : Nat} {x : CorridorState} (hr : 1 ≤ r) (h : CorridorOk q x) : CorridorOk r (x.requota r) := by
  unfold CorridorState.requota
  split
  · next g =>
    constructor
    · exact h.once
    · exact h.directed
    · exact h.kept
    · constructor
      · intro z; cases z
      · intro z; have := h.free.2 z; rw [this] at g; cases g.1
    · intro _ z; rw [show x.direction = none from z] at g; exact absurd g.2.1 (by simp)
    · exact h.unopposed
    · intro z; exact absurd rfl z
    · exact h.count
  · next g =>
    refine { h with opposed := ?_ }
    intro nd
    by_cases dn : x.direction = none
    · rw [h.unopposed dn]; exact hr
    · apply Nat.lt_of_not_le
      intro le
      apply g
      refine ⟨?_, by cases e : x.direction <;> simp_all, le⟩
      cases fl : x.flow with
      | flowing => rfl
      | draining => exact absurd fl nd
      | free => 
        obtain ⟨o, ho, _⟩ := h.kept dn
        rw [h.free.1 fl] at ho; cases ho
end Sys2Proof.Machine
end

