-- ==== Sys2Proof/Laws/Cycles.lean ====
section
/-! SUPPORT. The search for cycles of waiting answers the cycle through a carrier where there is one (R94, R95), and the pin token goes to the candidate that has waited longest (R90). -/

namespace Sys2Proof.Machine

/-! ## Cycles (R94) -/

theorem length_le_of_nodup {α : Type} [DecidableEq α] (l m : List α) (nd : l.Nodup) (sub : ∀ x ∈ l, x ∈ m) : l.length ≤ m.length := by
  induction l generalizing m with
  | nil => exact Nat.zero_le _
  | cons a l ih =>
    rw [List.nodup_cons] at nd
    have ha := sub a (by simp)
    have := ih (m.erase a) nd.2 (fun x hx => (List.mem_erase_of_ne (fun e => nd.1 (by rw [← e]; exact hx))).2 (sub x (by simp [hx])))
    rw [List.length_erase_of_mem ha] at this
    have := List.length_pos_of_mem ha
    simp only [List.length_cons]
    omega

theorem waitsFor_iff (s : State) (c : CarrierId) (z : ZoneId) (d : CarrierId) :
    s.waitsFor (c, z) d ↔ s.chainedZone c = some z ∧ s.holder z = some d := by
  unfold State.waitsFor State.chainedZone
  constructor
  · rintro ⟨a, b | b, h⟩
    · rw [a, b]; exact ⟨rfl, h⟩
    · rw [a, b]; exact ⟨rfl, h⟩
  · rintro ⟨a, h⟩
    split at a
    · next p q => cases a; exact ⟨p, Or.inl q, h⟩
    · next p q => cases a; exact ⟨p, Or.inr q, h⟩
    · cases a

/-- A chain back to its start is found with any bound from its length on. -/
theorem chainTo_of_chain {s : State} {start : CarrierId} (l : List (CarrierId × ZoneId)) : ∀ (c : CarrierId) (z : ZoneId) (n : Nat),
    s.waitChain start ((c, z) :: l) → (∀ m ∈ l, m.1 ≠ start) → l.length + 1 ≤ n → s.chainTo start n c = some ((c, z) :: l) := by
  induction l with
  | nil =>
    intro c z n h _ hn
    obtain ⟨n, rfl⟩ : ∃ k, n = k + 1 := ⟨n - 1, by simp at hn; omega⟩
    obtain ⟨a, b⟩ := (waitsFor_iff ..).1 h
    unfold State.chainTo
    rw [a]
    simp only [b, if_true]
  | cons m l ih =>
    intro c z n h ne hn
    obtain ⟨n, rfl⟩ : ∃ k, n = k + 1 := ⟨n - 1, by simp at hn; omega⟩
    obtain ⟨d, y⟩ := m
    obtain ⟨a, b⟩ := (waitsFor_iff ..).1 h.1
    have k := ih d y n h.2 (fun m hm => ne m (by simp [hm])) (by simp at hn; omega)
    unfold State.chainTo
    rw [a]
    simp only [b, if_neg (ne (d, y) (by simp)), k]
    rfl

/-- A chain found is one, and only its first carrier may be the start. -/
theorem chain_of_chainTo {s : State} {start : CarrierId} (n : Nat) : ∀ (c : CarrierId) (l : List (CarrierId × ZoneId)),
    s.chainTo start n c = some l → ∃ z r, l = (c, z) :: r ∧ s.waitChain start l ∧ ∀ m ∈ r, m.1 ≠ start := by
  induction n with
  | zero => intro c l h; cases h
  | succ n ih =>
    intro c l h
    unfold State.chainTo at h
    split at h
    · cases h
    · next z hz =>
      split at h
      · cases h
      · next d hd =>
        have w := (waitsFor_iff s c z d).2 ⟨hz, hd⟩
        split at h
        · next e =>
          cases h
          exact ⟨z, [], rfl, by rw [e] at w; exact w, by simp⟩
        · next e =>
          rw [Option.map_eq_some_iff] at h
          obtain ⟨r, hr, rfl⟩ := h
          obtain ⟨y, q, rfl, ch, ne⟩ := ih d r hr
          refine ⟨z, _, rfl, ⟨w, ch⟩, ?_⟩
          intro m hm
          rw [List.mem_cons] at hm
          rcases hm with rfl | hm
          · exact e
          · exact ne m hm

/-- Two chains back to a start from one carrier are the same. -/
theorem chain_unique {s : State} {start c : CarrierId} {y z : ZoneId} {l m : List (CarrierId × ZoneId)}
    (a : s.waitChain start ((c, y) :: l)) (al : ∀ x ∈ l, x.1 ≠ start) (b : s.waitChain start ((c, z) :: m)) (bm : ∀ x ∈ m, x.1 ≠ start) :
    (c, y) :: l = (c, z) :: m := by
  have p := chainTo_of_chain l c y (l.length + m.length + 1) a al (by omega)
  have q := chainTo_of_chain m c z (l.length + m.length + 1) b bm (by omega)
  rw [p] at q
  exact Option.some.inj q

theorem waitChain_suffix {s : State} {start : CarrierId} (a : List (CarrierId × ZoneId)) (m : CarrierId × ZoneId)
    (b : List (CarrierId × ZoneId)) (h : s.waitChain start (a ++ m :: b)) : s.waitChain start (m :: b) := by
  induction a with
  | nil => exact h
  | cons x a ih =>
    apply ih
    cases a with
    | nil => exact h.2
    | cons y a => exact h.2

/-- The carriers of a chain back to its start are distinct. -/
theorem chain_nodup {s : State} {start : CarrierId} (l : List (CarrierId × ZoneId)) : ∀ (m : CarrierId × ZoneId),
    s.waitChain start (m :: l) → (∀ x ∈ l, x.1 ≠ start) → ((m :: l).map (·.1)).Nodup := by
  induction l with
  | nil => intro m _ _; simp
  | cons x l ih =>
    intro m h ne
    rw [List.map_cons, List.nodup_cons]
    refine ⟨?_, ih x h.2 (fun y hy => ne y (by simp [hy]))⟩
    intro mem
    obtain ⟨y, hy, e⟩ := List.mem_map.1 mem
    obtain ⟨a, b, split⟩ := List.append_of_mem hy
    have suf : s.waitChain start (y :: b) := by
      have := waitChain_suffix (m :: a) y b (by rw [List.cons_append, ← split]; exact h)
      exact this
    obtain ⟨c, z⟩ := m
    obtain ⟨d, w⟩ := y
    simp only at e
    subst e
    have u := chain_unique h ne suf (fun v hv => ne v (by rw [split]; simp [hv]))
    have len : (x :: l).length = b.length := by injection u with _ u; rw [u]
    rw [split] at len
    simp at len
    omega

/-- The search answers exactly the cycle through the carrier (R94, R95). -/
theorem chainTo_iff (s : State) (c : CarrierId) (l : List (CarrierId × ZoneId)) : s.chainTo c 48 c = some l ↔ WaitCycle s c l := by
  constructor
  · intro h
    obtain ⟨z, r, rfl, ch, ne⟩ := chain_of_chainTo 48 c l h
    exact ⟨rfl, chain_nodup r (c, z) ch ne, ch⟩
  · rintro ⟨hd, nd, ch⟩
    cases l with
    | nil => cases hd
    | cons m l =>
      obtain ⟨d, z⟩ := m
      cases hd
      have len := length_le_of_nodup (((d, z) :: l).map (·.1)) (List.finRange 48) nd (fun x _ => List.mem_finRange x)
      simp at len
      refine chainTo_of_chain l d z 48 ch ?_ (by omega)
      intro m hm e
      rw [List.map_cons, List.nodup_cons] at nd
      exact nd.1 (List.mem_map.2 ⟨m, hm, e⟩)

theorem deadlockCheck_cycle {s : State} {c : CarrierId} {l : List (CarrierId × ZoneId)} (h : WaitCycle s c l) : s.deadlockCheck c =
    { s with deadlock := ⟨s.floorPort.frame, l.length, l.take 8⟩, flags := { s.flags with deadlock := true } } := by
  unfold State.deadlockCheck
  rw [(chainTo_iff s c l).2 h]
  rfl

theorem deadlockCheck_none {s : State} {c : CarrierId} (h : ∀ l, ¬WaitCycle s c l) : s.deadlockCheck c = s := by
  unfold State.deadlockCheck
  split
  · rfl
  · next l e => exact absurd ((chainTo_iff s c l).1 e) (h l)

/-! ## The pin token (R90) -/

theorem tokenCandidate_iff (s : State) (c : CarrierId) : s.tokenCandidate c = true ↔ s.mayTakeToken c := by
  unfold State.tokenCandidate State.mayTakeToken
  simp only [Bool.and_eq_true, beq_iff_eq, bne_iff_ne, Bool.not_eq_true', decide_eq_true_eq, and_assoc]

/-- What the choice among the first carriers of a list is: none where none of them is a candidate, else one of them that no other betters. -/
theorem tokenChoice_fold (s : State) (l : List CarrierId) (sorted : l.Pairwise (fun a b => a.val < b.val)) : ∀ (best : Option CarrierId),
    (∀ b, best = some b → s.mayTakeToken b ∧ ∀ x ∈ l, b.val < x.val) →
    ∀ r, l.foldl (fun best c =>
      if s.tokenCandidate c then
        match best with
        | none => some c
        | some b => if (s.carrier b).waitAge < (s.carrier c).waitAge then some c else best
      else best) best = r →
    (r = none → best = none ∧ ∀ x ∈ l, ¬s.mayTakeToken x) ∧
    (∀ c, r = some c → s.mayTakeToken c ∧ ∀ d, best = some d ∨ d ∈ l → s.mayTakeToken d →
      (s.carrier d).waitAge < (s.carrier c).waitAge ∨ (s.carrier d).waitAge = (s.carrier c).waitAge ∧ c.val ≤ d.val) := by
  induction l with
  | nil =>
    rintro best hb r rfl
    refine ⟨fun e => ⟨e, by simp⟩, fun c e => ⟨(hb c e).1, ?_⟩⟩
    rintro d (h | h) _
    · rw [List.foldl_nil] at e; rw [e] at h; cases h; exact Or.inr ⟨rfl, Nat.le_refl _⟩
    · cases h
  | cons x l ih =>
    intro best hb r hr
    rw [List.pairwise_cons] at sorted
    rw [List.foldl_cons] at hr
    by_cases cand : s.mayTakeToken x
    · rw [if_pos ((tokenCandidate_iff s x).2 cand)] at hr
      cases best with
      | none =>
        obtain ⟨a, b⟩ := ih sorted.2 (some x) (by rintro y ⟨⟩; exact ⟨cand, sorted.1⟩) r hr
        refine ⟨fun e => absurd (a e).1 (by simp), fun c e => ⟨(b c e).1, ?_⟩⟩
        rintro d (h | h) hd
        · cases h
        · rw [List.mem_cons] at h
          rcases h with rfl | h
          · exact (b c e).2 d (Or.inl rfl) hd
          · exact (b c e).2 d (Or.inr h) hd
      | some y =>
        obtain ⟨cy, lt⟩ := hb y rfl
        simp only at hr
        by_cases age : (s.carrier y).waitAge < (s.carrier x).waitAge
        · rw [if_pos age] at hr
          obtain ⟨a, b⟩ := ih sorted.2 (some x) (by rintro y ⟨⟩; exact ⟨cand, sorted.1⟩) r hr
          refine ⟨fun e => absurd (a e).1 (by simp), fun c e => ⟨(b c e).1, ?_⟩⟩
          have bx := (b c e).2 x (Or.inl rfl) cand
          rintro d (h | h) hd
          · cases h
            rcases bx with bx | bx
            · left; omega
            · left; omega
          · rw [List.mem_cons] at h
            rcases h with rfl | h
            · exact bx
            · exact (b c e).2 d (Or.inr h) hd
        · rw [if_neg age] at hr
          obtain ⟨a, b⟩ := ih sorted.2 (some y) (by rintro z ⟨⟩; exact ⟨cy, fun w hw => lt w (by simp [hw])⟩) r hr
          refine ⟨fun e => absurd (a e).1 (by simp), fun c e => ⟨(b c e).1, ?_⟩⟩
          have bc := (b c e).2 y (Or.inl rfl) cy
          rintro d (h | h) hd
          · cases h; exact bc
          · rw [List.mem_cons] at h
            rcases h with rfl | h
            · have := lt d (by simp)
              rcases bc with bc | bc
              · left; omega
              · by_cases k : (s.carrier d).waitAge = (s.carrier y).waitAge
                · right; omega
                · left; omega
            · exact (b c e).2 d (Or.inr h) hd
    · rw [if_neg (fun h => cand ((tokenCandidate_iff s x).1 h))] at hr
      obtain ⟨a, b⟩ := ih sorted.2 best (fun y hy => ⟨(hb y hy).1, fun w hw => (hb y hy).2 w (by simp [hw])⟩) r hr
      refine ⟨fun e => ⟨(a e).1, ?_⟩, fun c e => ⟨(b c e).1, ?_⟩⟩
      · intro y hy
        rw [List.mem_cons] at hy
        rcases hy with rfl | hy
        · exact cand
        · exact (a e).2 y hy
      · rintro d (h | h) hd
        · exact (b c e).2 d (Or.inl h) hd
        · rw [List.mem_cons] at h
          rcases h with rfl | h
          · exact absurd hd cand
          · exact (b c e).2 d (Or.inr h) hd

theorem finRange_sorted (n : Nat) : (List.finRange n).Pairwise (fun a b => a.val < b.val) := by
  have := List.pairwise_lt_finRange n
  exact this

theorem tokenChoice_none {s : State} (h : ∀ c, ¬s.mayTakeToken c) : s.tokenChoice = none := by
  cases e : s.tokenChoice with
  | none => rfl
  | some c => exact absurd ((tokenChoice_fold s allCarriers (finRange_sorted 48) none (by simp) _ e).2 c rfl).1 (h c)

theorem tokenChoice_some {s : State} {c : CarrierId} (h : s.mayTakeToken c) (best : ∀ d, s.mayTakeToken d →
    (s.carrier d).waitAge < (s.carrier c).waitAge ∨ (s.carrier d).waitAge = (s.carrier c).waitAge ∧ c.val ≤ d.val) :
    s.tokenChoice = some c := by
  have key := tokenChoice_fold s allCarriers (finRange_sorted 48) none (by simp) s.tokenChoice rfl
  cases e : s.tokenChoice with
  | none => exact absurd h ((key.1 e).2 c (List.mem_finRange c))
  | some b =>
    obtain ⟨cb, kb⟩ := key.2 b e
    have x := kb c (Or.inr (List.mem_finRange c)) h
    have y := best b cb
    have : b = c := Fin.ext (by omega)
    rw [this]

theorem giveToken_not {s : State} (h : s.pinToken ≠ none ∨ s.mode = .safe ∨ s.stopMarker = true) : s.giveToken = s := by
  unfold State.giveToken
  rw [if_neg]
  rintro ⟨a, b, d⟩
  rcases h with h | h | h
  · exact h a
  · rw [b] at h; cases h
  · rw [d] at h; cases h

theorem giveToken_none {s : State} (h : ∀ c, ¬s.mayTakeToken c) : s.giveToken = s := by
  unfold State.giveToken
  rw [tokenChoice_none h]
  split <;> rfl

theorem giveToken_some {s : State} {c : CarrierId} (p : s.pinToken = none) (m : s.mode = .service) (k : s.stopMarker = false)
    (h : s.mayTakeToken c) (best : ∀ d, s.mayTakeToken d →
      (s.carrier d).waitAge < (s.carrier c).waitAge ∨ (s.carrier d).waitAge = (s.carrier c).waitAge ∧ c.val ≤ d.val) :
    s.giveToken = { s with pinToken := some c }.runPass c := by
  unfold State.giveToken
  rw [if_pos ⟨p, m, k⟩, tokenChoice_some h best]

end Sys2Proof.Machine
end

