-- ==== Sys2Proof/Laws/Floor.lean ====
section
/-! SUPPORT. The floor as claims find it (`FloorOk`): which operations change nothing it reads, who is an occupant after each change of a corridor (R27 to R30), what passing the route checks says of a route's hops (R46), and where a claim set lies (R71). -/

namespace Sys2Proof.Machine

/-! ## What the floor reads -/

theorem routeZone_of {s t : State} (h : t.hops = s.hops) {r : RouteId} (f : (t.route r).firstHop = (s.route r).firstHop) (n : Nat) :
    t.routeZone r n = s.routeZone r n := by
  unfold State.routeZone State.hopZone State.hop; rw [h, f]

theorem noStop_of {s t : State} (h : t.zones = s.zones) (z : ZoneId) : t.noStop z = s.noStop z := by
  unfold State.noStop State.zone; rw [h]

theorem zone_of {s t : State} (h : t.zones = s.zones) (z : ZoneId) : t.zone z = s.zone z := by
  unfold State.zone; rw [h]

theorem corridorOfZone_of {s t : State} (h : t.zones = s.zones) (z : ZoneId) : t.corridorOfZone z = s.corridorOfZone z := by
  unfold State.corridorOfZone; rw [zone_of h]

/-- What the routes clause reads. -/
theorem routes_of {s t : State} (m : t.mode = s.mode) (z : t.zones = s.zones) (h : t.hops = s.hops)
    (r : ∀ r, (t.route r).defined = (s.route r).defined ∧ (t.route r).firstHop = (s.route r).firstHop ∧ (t.route r).hopCount = (s.route r).hopCount)
    (f : FloorOk s) : t.mode = .service → ∀ r, (t.route r).defined = true →
    (∀ n < (t.route r).hopCount, (t.zone (t.routeZone r n)).defined = true) ∧ t.noStop (t.routeZone r ((t.route r).hopCount - 1)) = false ∧
    ∀ m n, m < n → n < (t.route r).hopCount → (∀ l, m ≤ l → l < n → t.noStop (t.routeZone r l) = true) → t.routeZone r m ≠ t.routeZone r n := by
  intro mt q d
  rw [m] at mt; rw [(r q).1] at d
  have := f.routes mt q d
  simp only [routeZone_of h (r q).2.1, noStop_of z, zone_of z, (r q).2.2]
  exact this

/-- A change of nothing that the floor reads, but that routes may be left and held lists reordered. -/
structure FloorSeen (s t : State) : Prop where
  mode : t.mode = s.mode
  zones : t.zones = s.zones
  hops : t.hops = s.hops
  route : ∀ r, (t.route r).defined = (s.route r).defined ∧ (t.route r).firstHop = (s.route r).firstHop ∧ (t.route r).hopCount = (s.route r).hopCount
  place : ∀ c, ((t.carrier c).route = (s.carrier c).route ∧ (t.carrier c).cursor = (s.carrier c).cursor) ∨ (t.carrier c).route = none
  held : ∀ c, ((t.carrier c).held.map (·.zone)).Perm ((s.carrier c).held.map (·.zone))
  occ : ∀ k, (t.cst k).occupants.map (·.slot) = (s.cst k).occupants.map (·.slot)

theorem FloorSeen.refl (s : State) : FloorSeen s s := ⟨rfl, rfl, rfl, fun _ => ⟨rfl, rfl, rfl⟩, fun _ => Or.inl ⟨rfl, rfl⟩, fun _ => .refl _, fun _ => rfl⟩

theorem FloorSeen.trans {a b c : State} (h : FloorSeen a b) (k : FloorSeen b c) : FloorSeen a c where
  mode := k.mode.trans h.mode
  zones := k.zones.trans h.zones
  hops := k.hops.trans h.hops
  route r := ⟨(k.route r).1.trans (h.route r).1, (k.route r).2.1.trans (h.route r).2.1, (k.route r).2.2.trans (h.route r).2.2⟩
  place d := by
    rcases k.place d with x | x
    · rcases h.place d with y | y
      · exact Or.inl ⟨x.1.trans y.1, x.2.trans y.2⟩
      · exact Or.inr (x.1.trans y)
    · exact Or.inr x
  held d := (k.held d).trans (h.held d)
  occ j := (k.occ j).trans (h.occ j)

/-- The floor stands where nothing it reads changes. -/
theorem FloorOk.seen {s t : State} (f : FloorOk s) (k : FloorSeen s t) : FloorOk t where
  routes := routes_of k.mode k.zones k.hops k.route f
  current c r h := by
    rcases k.place c with x | x
    · rw [x.1] at h
      obtain ⟨a, b⟩ := f.current c r h
      rw [(k.route r).1, (k.route r).2.1, (k.route r).2.2, x.2]
      exact ⟨a, b⟩
    · rw [x] at h; cases h
  held c e he := by
    rw [zone_of k.zones]
    have : e.zone ∈ (s.carrier c).held.map (·.zone) := (k.held c).mem_iff.1 (List.mem_map_of_mem he)
    obtain ⟨d, hd, q⟩ := List.mem_map.1 this
    rw [← q]; exact f.held c d hd
  once c := (k.held c).nodup_iff.2 (f.once c)
  occupants j c := by
    have a : (∃ o ∈ (t.cst j).occupants, o.slot = c) ↔ ∃ o ∈ (s.cst j).occupants, o.slot = c := by
      have := k.occ j
      rw [← List.mem_map, ← List.mem_map, this]
    have onZones : ∀ u : State, (∃ e ∈ (u.carrier c).held, s.corridorOfZone e.zone = some j) ↔ ∃ z ∈ (u.carrier c).held.map (·.zone), s.corridorOfZone z = some j :=
      fun u => ⟨fun ⟨e, he, q⟩ => ⟨_, List.mem_map_of_mem he, q⟩, fun ⟨z, hz, q⟩ => by
        obtain ⟨e, he, rfl⟩ := List.mem_map.1 hz; exact ⟨e, he, q⟩⟩
    have b : ∀ (u : State), (∃ e ∈ (u.carrier c).held, t.corridorOfZone e.zone = some j) ↔ ∃ z ∈ (u.carrier c).held.map (·.zone), s.corridorOfZone z = some j := by
      intro u; simp only [corridorOfZone_of k.zones]; exact onZones u
    rw [a, f.occupants, b t]
    have c' : (∃ e ∈ (s.carrier c).held, s.corridorOfZone e.zone = some j) ↔ ∃ z ∈ (s.carrier c).held.map (·.zone), s.corridorOfZone z = some j := onZones s
    rw [c']
    constructor
    · rintro ⟨z, hz, q⟩; exact ⟨z, (k.held c).mem_iff.2 hz, q⟩
    · rintro ⟨z, hz, q⟩; exact ⟨z, (k.held c).mem_iff.1 hz, q⟩

theorem routeSame {s t : State} (e : EngineFrame s t) (r : RouteId) :
    (t.route r).defined = (s.route r).defined ∧ (t.route r).firstHop = (s.route r).firstHop ∧ (t.route r).hopCount = (s.route r).hopCount := by
  have := e.routes r
  have a := congrArg RouteRecord.defined this
  have b := congrArg RouteRecord.firstHop this
  have c := congrArg RouteRecord.hopCount this
  exact ⟨a, b, c⟩

theorem FloorSeen.engine {s t : State} (e : EngineFrame s t) (p : ∀ c, ((t.carrier c).route = (s.carrier c).route ∧ (t.carrier c).cursor = (s.carrier c).cursor) ∨ (t.carrier c).route = none)
    (h : ∀ c, ((t.carrier c).held.map (·.zone)).Perm ((s.carrier c).held.map (·.zone))) (o : ∀ k, (t.cst k).occupants.map (·.slot) = (s.cst k).occupants.map (·.slot)) : FloorSeen s t where
  mode := e.mode
  zones := e.zones
  hops := e.hops
  route r := by
    have := e.routes r
    have a := congrArg RouteRecord.defined this
    have b := congrArg RouteRecord.firstHop this
    have c := congrArg RouteRecord.hopCount this
    exact ⟨a, b, c⟩
  place := p
  held := h
  occ := o

/-- A change of one carrier's record that leaves its place and the zones it holds. -/
theorem FloorSeen.modCarrier (s : State) (c : CarrierId) (f : Carrier → Carrier) (p : (f (s.carrier c)).route = (s.carrier c).route ∧ (f (s.carrier c)).cursor = (s.carrier c).cursor ∨ (f (s.carrier c)).route = none)
    (h : ((f (s.carrier c)).held.map (·.zone)).Perm ((s.carrier c).held.map (·.zone))) : FloorSeen s (s.modCarrier c f) where
  mode := rfl
  zones := rfl
  hops := rfl
  route _ := ⟨rfl, rfl, rfl⟩
  place d := by rw [carrier_modCarrier]; split
                · next e => rw [e]; exact p
                · exact Or.inl ⟨rfl, rfl⟩
  held d := by rw [carrier_modCarrier]; split
               · next e => rw [e]; exact h
               · exact .refl _
  occ _ := rfl

/-- A change beside what the floor reads. -/
theorem FloorSeen.same {s t : State} (m : t.mode = s.mode) (z : t.zones = s.zones) (h : t.hops = s.hops) (r : t.routes = s.routes) (c : t.carriers = s.carriers)
    (k : ∀ k, (t.cst k).occupants = (s.cst k).occupants) : FloorSeen s t where
  mode := m
  zones := z
  hops := h
  route q := by unfold State.route; rw [r]; exact ⟨rfl, rfl, rfl⟩
  place d := Or.inl (by rw [carrier_of_carriers c]; exact ⟨rfl, rfl⟩)
  held d := by rw [carrier_of_carriers c]
  occ j := by rw [k]

theorem FloorSeen.breakWatch (s : State) (c : CarrierId) : FloorSeen s (s.breakWatch c) := .same rfl rfl rfl rfl rfl (fun _ => rfl)

theorem FloorSeen.flagDeadlock (s : State) (d : DeadlockRecord) : FloorSeen s { s with deadlock := d }.flagDeadlock := .same rfl rfl rfl rfl rfl (fun _ => rfl)

theorem FloorSeen.enterState (s : State) (c : CarrierId) (x : CarrierState) : FloorSeen s (s.enterState c x) := by
  unfold State.enterState State.flagState
  exact ((FloorSeen.modCarrier s c _ (Or.inl ⟨rfl, rfl⟩) (.refl _)).trans (.modCarrier _ c _ (Or.inl ⟨rfl, rfl⟩) (.refl _))).trans (.breakWatch _ c)

theorem FloorSeen.leaveQueue (s : State) (c : CarrierId) : FloorSeen s (s.leaveQueue c) := by
  have k := fun k => congrArg CorridorState.occupants (cst_leaveQueue s c k)
  have e := leaveQueue_only s c
  generalize s.leaveQueue c = t at *
  exact .same (by rw [e]) (by rw [e]) (by rw [e]) (by rw [e]) (by rw [e]) k

theorem FloorSeen.joinQueue (s : State) (c : CarrierId) (w : Wait) (d : Direction) : FloorSeen s (s.joinQueue c w d) := by
  refine .engine (EngineFrame.joinQueue s c w d) (fun x => Or.inl ?_) (fun x => ?_) (fun k => ?_)
  · rw [carrier_of_carriers (carriers_joinQueue ..)]; exact ⟨rfl, rfl⟩
  · rw [carrier_of_carriers (carriers_joinQueue ..)]
  · cases w <;> simp only [State.joinQueue, State.joinZoneQueue, State.recomputeOutput]
    · rfl
    · rfl
    · rw [recomputeBinding_only]; rfl
    · show (State.cst { s.setCst _ _ with tickets := s.tickets + 1 } k).occupants.map _ = _
      rw [show ∀ (u : State) n, State.cst { u with tickets := n } k = u.cst k from fun _ _ => rfl, cst_setCst]
      split
      · next e => rw [e]
      · rfl
    · rfl

theorem FloorSeen.clearWait (s : State) (c : CarrierId) : FloorSeen s (s.clearWait c) := .modCarrier s c _ (Or.inl ⟨rfl, rfl⟩) (.refl _)

theorem FloorSeen.flagWait (s : State) (c : CarrierId) : FloorSeen s (s.flagWait c) := .modCarrier s c _ (Or.inl ⟨rfl, rfl⟩) (.refl _)

theorem FloorSeen.dequeue (s : State) (c : CarrierId) : FloorSeen s ((s.leaveQueue c).clearWait c) := (FloorSeen.leaveQueue s c).trans (.clearWait _ c)

theorem FloorSeen.settle (s : State) (c : CarrierId) : FloorSeen s (s.settle c) := by
  unfold State.settle
  split
  · exact (FloorSeen.dequeue s c).trans (.enterState _ c _)
  · exact .refl s

theorem FloorSeen.endPass (s : State) (c : CarrierId) : FloorSeen s (s.endPass c) := by
  unfold State.endPass
  split
  · exact .same rfl rfl rfl rfl rfl (fun _ => rfl)
  · exact .refl s

theorem FloorSeen.deadlockCheck (s : State) (c : CarrierId) : FloorSeen s (s.deadlockCheck c) := by
  unfold State.deadlockCheck
  split
  · exact .refl s
  · exact .flagDeadlock s _

theorem FloorSeen.waitOn (s : State) (c : CarrierId) (w : Wait) (d : Direction) : FloorSeen s (s.waitOn c w d) := by
  have key : FloorSeen s (match (s.carrier c).state with
      | .advancing =>
        ((((s.joinQueue c w d).modCarrier c (fun r => { r with wait := w, waitAge := 0 })).flagWait c).enterState c .waiting)
      | .waiting =>
        if (s.carrier c).wait = w then s
        else ((((s.leaveQueue c).joinQueue c w d).modCarrier c (fun r => { r with wait := w })).flagWait c).breakWatch c
      | _ => s) := by
    split
    · exact (((FloorSeen.joinQueue s c w d).trans (.modCarrier _ c _ (Or.inl ⟨rfl, rfl⟩) (.refl _))).trans (.flagWait _ c)).trans (.enterState _ c _)
    · split
      · exact .refl s
      · exact ((((FloorSeen.leaveQueue s c).trans (.joinQueue _ c w d)).trans (.modCarrier _ c _ (Or.inl ⟨rfl, rfl⟩) (.refl _))).trans (.flagWait _ c)).trans (.breakWatch _ c)
    · exact .refl s
  unfold State.waitOn
  simp only
  split
  · exact key.trans (.deadlockCheck _ c)
  · exact key.trans (.deadlockCheck _ c)
  · exact key

theorem FloorSeen.detach (s : State) (c : CarrierId) : FloorSeen s (s.detachRoute c) := by
  refine .engine (EngineFrame.detachRoute s c) (fun d => ?_) (fun d => ?_) (fun k => ?_)
  · by_cases e : d = c
    · subst e; right; rw [carrier_detachRoute]
    · left; rw [carrier_detachRoute_of_ne _ e]; exact ⟨rfl, rfl⟩
  · by_cases e : d = c
    · subst e; rw [carrier_detachRoute]
    · rw [carrier_detachRoute_of_ne _ e]
  · unfold State.detachRoute; rw [dropUserOf_only]; rfl

theorem FloorSeen.routeEnds (s : State) (c : CarrierId) : FloorSeen s (s.routeEnds c) := by
  unfold State.routeEnds
  have a : FloorSeen s (if (s.carrier c).state = .waiting then (s.leaveQueue c).clearWait c else s) := by
    split
    · exact .dequeue s c
    · exact .refl s
  exact ((a.trans (.detach _ c)).trans (.enterState _ c _)).trans (.modCarrier _ c _ (Or.inl ⟨rfl, rfl⟩) (.refl _))

/-- Becoming UNDIRECTED leaves the occupants (R30). -/
theorem occ_undirect (x : CorridorState) (c : CarrierId) : (x.undirect c).1.occupants.map (·.slot) = x.occupants.map (·.slot) := by
  unfold CorridorState.undirect
  simp only
  split <;> exact directEntry_slots c none x.occupants

theorem FloorSeen.setCst (s : State) (k : CorridorId) (x : CorridorState) (h : x.occupants.map (·.slot) = (s.cst k).occupants.map (·.slot)) : FloorSeen s (s.setCst k x) where
  mode := rfl
  zones := rfl
  hops := rfl
  route _ := ⟨rfl, rfl, rfl⟩
  place _ := Or.inl ⟨rfl, rfl⟩
  held _ := .refl _
  occ j := by rw [cst_setCst]; split
              · next e => rw [h, e]
              · rfl

theorem FloorSeen.undirectAll (s : State) (c : CarrierId) : FloorSeen s (s.undirectAll c).1 := by
  have fold : ∀ (l : List CorridorId) (acc : State × List CorridorId), FloorSeen s acc.1 →
      FloorSeen s (l.foldl (fun acc k =>
        let x := (acc.1.cst k).undirect c
        (acc.1.setCst k x.1, if x.2 then acc.2 ++ [k] else acc.2)) acc).1 := by
    intro l
    induction l with
    | nil => exact fun _ h => h
    | cons k l ih => exact fun acc h => ih _ (h.trans (.setCst _ k _ (occ_undirect _ c)))
  exact fold allCorridors (s, []) (.refl s)

theorem FloorSeen.setHolder (s : State) (z : ZoneId) (h : Option CarrierId) : FloorSeen s (s.setHolder z h) := by
  rw [setHolder_only]
  exact .same rfl rfl rfl rfl rfl (fun _ => rfl)

theorem FloorSeen.rearFirst (s : State) (c : CarrierId) : FloorSeen s (s.rearFirst c) :=
  .modCarrier s c _ (Or.inl ⟨rfl, rfl⟩) (by
    refine List.Perm.map _ ?_
    have := List.filter_append_perm (fun e : HeldEntry => some e.zone == (s.carrier c).report.report.rear) (s.carrier c).held
    exact this)

theorem FloorSeen.recomputeHeld (s : State) (c : CarrierId) : FloorSeen s (s.recomputeHeld c) := by
  unfold State.recomputeHeld
  generalize allZones = l
  induction l generalizing s with
  | nil => exact .refl s
  | cons z l ih =>
    rw [List.foldl_cons]
    refine FloorSeen.trans ?_ (ih _)
    split
    · have a : FloorSeen s (s.recomputeBlocked z) := .same rfl rfl rfl rfl rfl (fun _ => rfl)
      refine a.trans ?_
      unfold State.recomputeOutput
      rw [recomputeBinding_only]
      exact .same rfl rfl rfl rfl rfl (fun _ => rfl)
    · exact .refl s

theorem OnlyZoneStates.seen {s t : State} (h : OnlyZoneStates s t) : FloorSeen s t := by
  rw [h.1]; exact .same rfl rfl rfl rfl rfl (fun _ => rfl)

theorem OnlyFieldSlots.seen {s t : State} (h : OnlyFieldSlots s t) : FloorSeen s t := by
  rw [h.1]; exact .same rfl rfl rfl rfl rfl (fun _ => rfl)

/-- The tables a Write Zone leaves, as the floor reads them. -/
theorem layZone_seen (s : State) (z : ZoneId) (new : ZoneRecord) : FloorSeen (s.setZone z new) (s.layZone z new) := by
  unfold State.layZone
  simp only
  have rp : ∀ (u : State) (b : Option FieldBinding), FloorSeen u (u.repolarize b) := by
    intro u b
    unfold State.repolarize
    split
    · exact .refl u
    · simp only; split
      · exact .refl u
      · exact .same rfl rfl rfl rfl rfl (fun _ => rfl)
  have bd : ∀ (u : State) (b : Option RequestBinding), FloorSeen u (u.recomputeBinding b) := by
    intro u b
    rw [recomputeBinding_only]
    exact .same rfl rfl rfl rfl rfl (fun _ => rfl)
  have fr : ∀ (u : State) (o n : ZoneRecord), FloorSeen u (u.followRequests o n) := by
    intro u o n
    unfold State.followRequests
    split
    · exact (bd _ _).trans (bd _ _)
    · exact .refl u
  have fs : ∀ (u : State), FloorSeen u (u.setFieldState z) := fun u => .same rfl rfl rfl rfl rfl (fun _ => rfl)
  have a := ((rp (s.setZone z new) (s.zone z).fieldBinding).trans (rp _ new.fieldBinding)).trans (fr _ (s.zone z) new)
  generalize (((s.setZone z new).repolarize (s.zone z).fieldBinding).repolarize new.fieldBinding).followRequests (s.zone z) new = t at a ⊢
  split
  · exact a.trans (fs t)
  · exact a

/-! ## Occupants -/

/-- Who is an occupant after one has left (R29). -/
theorem occ_leave (x : CorridorState) (c d : CarrierId) : (∃ o ∈ (x.leave c).1.occupants, o.slot = d) ↔ d ≠ c ∧ ∃ o ∈ x.occupants, o.slot = d := by
  have : (x.leave c).1.occupants = x.occupants.filter (fun o => o.slot != c) := by
    unfold CorridorState.leave; simp only; split <;> rfl
  rw [this]
  simp only [List.mem_filter, bne_iff_ne]
  constructor
  · rintro ⟨o, ⟨ho, n⟩, rfl⟩; exact ⟨n, o, ho, rfl⟩
  · rintro ⟨n, o, ho, rfl⟩; exact ⟨o, ⟨ho, n⟩, rfl⟩

/-- Who is an occupant after an entry (R27). -/
theorem occ_enter (x : CorridorState) (q : Nat) (c : CarrierId) (d : Direction) (e : CarrierId) :
    (∃ o ∈ (x.enter q c d).occupants, o.slot = e) ↔ e = c ∨ ∃ o ∈ x.occupants, o.slot = e := by
  have count : ∀ (y : CorridorState), (y.countEntry q d).occupants = y.occupants := by
    intro y; unfold CorridorState.countEntry; split <;> rfl
  have dir : (∃ o ∈ directEntry c (some d) x.occupants, o.slot = e) ↔ ∃ o ∈ x.occupants, o.slot = e := by
    rw [← List.mem_map, ← List.mem_map, directEntry_slots]
  have app : (∃ o ∈ x.occupants ++ [(⟨c, some d⟩ : Occupant)], o.slot = e) ↔ e = c ∨ ∃ o ∈ x.occupants, o.slot = e := by
    simp only [List.mem_append, List.mem_singleton]
    constructor
    · rintro ⟨o, ho | rfl, rfl⟩
      · exact Or.inr ⟨o, ho, rfl⟩
      · exact Or.inl rfl
    · rintro (rfl | ⟨o, ho, rfl⟩)
      · exact ⟨_, Or.inr rfl, rfl⟩
      · exact ⟨o, Or.inl ho, rfl⟩
  unfold CorridorState.enter
  split
  · next a b h =>
    have := occupant_spec h
    exact ⟨Or.inr, fun y => y.elim (fun q => ⟨_, this.2, this.1.trans q.symm⟩) id⟩
  · next a h =>
    have := occupant_spec h
    have own : (e = c ∨ ∃ o ∈ x.occupants, o.slot = e) ↔ ∃ o ∈ x.occupants, o.slot = e :=
      ⟨fun y => y.elim (fun q => ⟨_, this.2, this.1.trans q.symm⟩) id, Or.inr⟩
    simp only
    split
    · exact dir.trans own.symm
    · rw [count]; exact dir.trans own.symm
  · simp only
    split
    · exact app
    · rw [count]; exact app

/-- Who is an occupant after a zone was given or admitted (R28). -/
theorem occ_joinUndirected (x : CorridorState) (c d : CarrierId) : (∃ o ∈ (x.joinUndirected c).occupants, o.slot = d) ↔ d = c ∨ ∃ o ∈ x.occupants, o.slot = d := by
  unfold CorridorState.joinUndirected
  split
  · next a h =>
    have := occupant_spec h
    exact ⟨Or.inr, fun y => y.elim (fun q => ⟨_, this.2, this.1.trans q.symm⟩) id⟩
  · simp only [List.mem_append, List.mem_singleton]
    constructor
    · rintro ⟨o, ho | rfl, rfl⟩
      · exact Or.inr ⟨o, ho, rfl⟩
      · exact Or.inl rfl
    · rintro (rfl | ⟨o, ho, rfl⟩)
      · exact ⟨_, Or.inr rfl, rfl⟩
      · exact ⟨o, Or.inl ho, rfl⟩

/-- Zones admitted to a carrier, as the floor reads them (R59, R28). -/
structure Admitted (s t : State) (c : CarrierId) (zs : List ZoneId) : Prop where
  zones : t.zones = s.zones
  hops : t.hops = s.hops
  mode : t.mode = s.mode
  routes : t.routes = s.routes
  carriers : t.carriers = s.carriers
  occ : ∀ k d, (∃ o ∈ (t.cst k).occupants, o.slot = d) ↔ (d = c ∧ ∃ w ∈ zs, s.corridorOfZone w = some k) ∨ ∃ o ∈ (s.cst k).occupants, o.slot = d

theorem admitted_one (s : State) (c : CarrierId) (z : ZoneId) : Admitted s (s.admitZone c z) c [z] := by
  unfold State.admitZone
  have only := setHolder_only s z (some c)
  generalize s.setHolder z (some c) = w at only
  have wz : w.zones = s.zones := by rw [only]
  have wk : ∀ k, w.cst k = s.cst k := fun k => by rw [only]; rfl
  unfold State.joinZoneCorridor
  rw [corridorOfZone_of wz]
  split
  · next e => exact ⟨wz, by rw [only], by rw [only], by rw [only], by rw [only], fun k d => by rw [wk]; simp [e]⟩
  · next k e =>
    refine ⟨wz, by rw [only]; rfl, by rw [only]; rfl, by rw [only]; rfl, by rw [only]; rfl, fun j d => ?_⟩
    rw [cst_setCst]
    by_cases q : j = k
    · subst q; rw [if_pos rfl, occ_joinUndirected, wk]; simp [e]
    · have : k ≠ j := fun x => q x.symm
      rw [if_neg q, wk]; simp [e, this]

theorem admitted_all (c : CarrierId) : ∀ (l : List HeldEntry) (s : State), Admitted s (l.foldl (fun t e => t.admitZone c e.zone) s) c (l.map (·.zone)) := by
  intro l
  induction l with
  | nil => intro s; exact ⟨rfl, rfl, rfl, rfl, rfl, by simp⟩
  | cons e l ih =>
    intro s
    have a := admitted_one s c e.zone
    have b := ih (s.admitZone c e.zone)
    rw [List.foldl_cons]
    generalize s.admitZone c e.zone = t at a b
    generalize l.foldl (fun t e => t.admitZone c e.zone) t = u at b
    refine ⟨b.zones.trans a.zones, b.hops.trans a.hops, b.mode.trans a.mode, b.routes.trans a.routes, b.carriers.trans a.carriers, fun k d => ?_⟩
    rw [b.occ, a.occ]
    simp only [corridorOfZone_of a.zones]
    simp only [List.map_cons, List.mem_cons, List.not_mem_nil, or_false]
    constructor
    · rintro (⟨rfl, w, hw, q⟩ | ⟨rfl, w, rfl, q⟩ | h)
      · exact Or.inl ⟨rfl, w, Or.inr hw, q⟩
      · exact Or.inl ⟨rfl, _, Or.inl rfl, q⟩
      · exact Or.inr h
    · rintro (⟨rfl, w, rfl | hw, q⟩ | h)
      · exact Or.inr (Or.inl ⟨rfl, _, rfl, q⟩)
      · exact Or.inl ⟨rfl, w, hw, q⟩
      · exact Or.inr (Or.inr h)

/-! ## Passages and the route checks -/

/-- The run of no-stop items at the head of a list, with the item it ends at. -/
def headRun {α : Type} (ns : α → Bool) : List α → List α
  | [] => []
  | x :: l => if ns x then x :: headRun ns l else [x]

theorem headRun_get {α : Type} (ns : α → Bool) : ∀ (l : List α) (i : Nat), (∀ j, j < i → ∀ x, l[j]? = some x → ns x = true) → ∀ x, l[i]? = some x → (headRun ns l)[i]? = some x := by
  intro l
  induction l with
  | nil => intro i _ x h; simp at h
  | cons a l ih =>
    intro i hi x hx
    unfold headRun
    cases i with
    | zero => split <;> simpa using hx
    | succ i =>
      rw [if_pos (hi 0 (by omega) a rfl)]
      rw [List.getElem?_cons_succ] at hx ⊢
      exact ih i (fun j hj y hy => hi (j + 1) (by omega) y (by rw [List.getElem?_cons_succ]; exact hy)) x hx

/-- Where no passage names an item's zone twice, the run in hand with the head of the list does not. -/
theorem passage_head {α : Type} (ns : α → Bool) (key : α → ZoneId) : ∀ (l run : List α),
    (∀ p ∈ passages ns l run, (p.map key).Nodup) → ((run.reverse ++ headRun ns l).map key).Nodup ∨ run = [] ∧ ((headRun ns l).map key).Nodup := by
  intro l
  induction l with
  | nil =>
    intro run h
    cases run with
    | nil => left; simp [headRun]
    | cons a run => left; simpa [headRun] using h ((a :: run).reverse) (by simp [passages])
  | cons x l ih =>
    intro run h
    unfold passages at h
    unfold headRun
    split
    · next n =>
      rw [if_pos n] at h
      rcases ih (x :: run) h with a | a
      · left; simpa [List.reverse_cons, List.append_assoc] using a
      · cases a.1
    · next n =>
      rw [if_neg n] at h
      cases run with
      | nil => left; simp
      | cons a run =>
        left
        have := h ((x :: a :: run).reverse) (by simp)
        simpa [List.reverse_cons, List.append_assoc] using this

/-- Where no passage of a list names a zone twice, the run at the head of no suffix does. -/
theorem passage_suffix {α : Type} (ns : α → Bool) (key : α → ZoneId) (l : List α) : ∀ (a run : List α),
    (∀ p ∈ passages ns (a ++ l) run, (p.map key).Nodup) → ((headRun ns l).map key).Nodup := by
  intro a
  induction a with
  | nil =>
    intro run h
    rcases passage_head ns key l run h with b | b
    · exact b.sublist ((List.sublist_append_right _ _).map _)
    · exact b.2
  | cons x a ih =>
    intro run h
    rw [List.cons_append] at h
    unfold passages at h
    split at h
    · exact ih _ h
    · split at h
      · exact ih _ h
      · exact ih _ (fun p hp => h p (List.mem_cons_of_mem _ hp))

theorem nodup_of_repeats {α : Type} (key : α → ZoneId) : ∀ (l : List α) (seen : List ZoneId), repeats key l seen = [] → (∀ x ∈ l, key x ∉ seen) ∧ (l.map key).Nodup := by
  intro l
  induction l with
  | nil => intro seen _; simp
  | cons x l ih =>
    intro seen h
    unfold repeats at h
    split at h
    · cases h
    · next n =>
      obtain ⟨a, b⟩ := ih _ h
      have n : key x ∉ seen := by simpa using n
      refine ⟨fun y hy => ?_, ?_⟩
      · rcases List.mem_cons.1 hy with rfl | hy
        · exact n
        · exact fun z => a y hy (List.mem_cons_of_mem _ z)
      · rw [List.map_cons, List.nodup_cons]
        refine ⟨fun m => ?_, b⟩
        obtain ⟨y, hy, q⟩ := List.mem_map.1 m
        exact a y hy (by rw [q]; exact List.mem_cons_self)

theorem failureAt_none {kind : CheckKind} {l : List Nat} (h : failureAt kind l = none) : l = [] := by
  unfold failureAt least at h
  cases l with
  | nil => rfl
  | cons a l => simp [List.min?] at h

/-- A route that the checks of R46 pass: its zones are defined, its last hop is stop-allowed, and no passage of its own hops names a zone twice. -/
theorem routeCheck_passes {s : State} {r : RouteId} (pl : (s.route r).placed) (h : s.routeCheck r = none) :
    (∀ n < (s.route r).hopCount, (s.zone (s.routeZone r n)).defined = true) ∧ s.noStop (s.routeZone r ((s.route r).hopCount - 1)) = false ∧
    ∀ m n, m < n → n < (s.route r).hopCount → (∀ l, m ≤ l → l < n → s.noStop (s.routeZone r l) = true) → s.routeZone r m ≠ s.routeZone r n := by
  unfold RouteRecord.placed at pl
  unfold State.routeCheck firstFailure at h
  rw [List.findSome?_eq_none_iff] at h
  have h1 := h (s.checkZoneUndefined r) (by simp)
  have h2 := h (s.checkRepeatedZone r) (by simp)
  have h3 := h (s.checkLastNoStop r) (by simp)
  simp only [id] at h1 h2 h3
  have hz : ∀ n, s.hopZone (hopPlus (s.route r).firstHop n) = s.routeZone r n := fun n => rfl
  refine ⟨fun n hn => ?_, ?_, fun m n mn nc ns eq => ?_⟩
  · unfold State.checkZoneUndefined at h1
    have := failureAt_none h1
    rw [List.map_eq_nil_iff, List.filter_eq_nil_iff] at this
    have k := this ⟨r, hopPlus (s.route r).firstHop n⟩ (List.mem_map.2 ⟨n, List.mem_range.2 hn, rfl⟩)
    rw [hz] at k
    simpa using k
  · unfold State.checkLastNoStop at h3
    have last : (s.hopRange r).getLast? = some ⟨r, hopPlus (s.route r).firstHop ((s.route r).hopCount - 1)⟩ := by
      unfold State.hopRange
      rw [List.getLast?_map, List.getLast?_range, if_neg (by omega)]; rfl
    rw [last] at h3
    simp only at h3
    rw [hz] at h3
    split at h3
    · cases h3
    · next k => simpa using k
  · unfold State.checkRepeatedZone at h2
    have := failureAt_none h2
    rw [List.append_eq_nil_iff, List.append_eq_nil_iff] at this
    have p := this.1.2
    rw [List.flatMap_eq_nil_iff] at p
    have nd : ∀ q ∈ passages (fun x : HopRef => s.noStop (s.hopZone x.hop)) (s.hopRange r) [], (q.map (fun x : HopRef => s.hopZone x.hop)).Nodup := by
      intro q hq
      have := p q hq
      rw [List.map_eq_nil_iff] at this
      exact (nodup_of_repeats _ q [] this).2
    rw [← List.take_append_drop m (s.hopRange r)] at nd
    have nd := passage_suffix _ _ _ _ _ nd
    have get : ∀ i, i < (s.route r).hopCount → (s.hopRange r)[i]? = some ⟨r, hopPlus (s.route r).firstHop i⟩ := by
      intro i hi
      unfold State.hopRange
      rw [List.getElem?_map, List.getElem?_range hi]; rfl
    have g0 := headRun_get (fun x : HopRef => s.noStop (s.hopZone x.hop)) ((s.hopRange r).drop m) 0 (fun j hj => absurd hj (by omega)) _ (by rw [List.getElem?_drop]; exact get m (by omega))
    have g1 := headRun_get (fun x : HopRef => s.noStop (s.hopZone x.hop)) ((s.hopRange r).drop m) (n - m) (fun j hj x hx => by
      rw [List.getElem?_drop, get (m + j) (by omega)] at hx
      injection hx with hx
      subst hx
      dsimp only
      rw [hz]; exact ns (m + j) (by omega) (by omega)) ⟨r, hopPlus (s.route r).firstHop n⟩ (by
      rw [List.getElem?_drop, show m + (n - m) = n by omega]; exact get n (by omega))
    generalize headRun (fun x : HopRef => s.noStop (s.hopZone x.hop)) ((s.hopRange r).drop m) = l at *
    have e0 : (l.map (fun x : HopRef => s.hopZone x.hop))[0]? = some (s.routeZone r m) := by rw [List.getElem?_map, g0]; rfl
    have e1 : (l.map (fun x : HopRef => s.hopZone x.hop))[n - m]? = some (s.routeZone r n) := by rw [List.getElem?_map, g1]; rfl
    have : 0 = n - m := by
      have lt : 0 < (l.map (fun x : HopRef => s.hopZone x.hop)).length := (List.getElem?_eq_some_iff.1 e0).1
      exact (List.getElem?_inj lt nd).1 (by rw [e0, e1, eq])
    omega

theorem audit_checks {s : State} (h : s.audit = none) : ∀ r, (s.route r).defined = true → s.routeCheck r = none := by
  intro r d
  unfold State.audit firstFailure at h
  rw [List.findSome?_eq_none_iff] at h
  exact h (s.routeCheck r) (List.mem_append_right _ (List.mem_map.2 ⟨r, List.mem_filter.2 ⟨List.mem_finRange r, d⟩, rfl⟩))

/-! ## Where a claim set lies -/

theorem hopPlus_zero (h : HopIdx) : hopPlus h 0 = h := by
  apply Fin.ext; unfold hopPlus; simp only [Fin.ofNat, Nat.add_zero]; exact Nat.mod_eq_of_lt h.isLt

theorem hopPlus_val {h : HopIdx} {n : Nat} (l : h.val + n < 2048) : (hopPlus h n).val = h.val + n := by
  unfold hopPlus; simp only [Fin.ofNat]; exact Nat.mod_eq_of_lt l

theorem hopZone_routeZone (s : State) (r : RouteId) (h : HopIdx) (l : (s.route r).firstHop.val ≤ h.val) :
    s.hopZone h = s.routeZone r (h.val - (s.route r).firstHop.val) := by
  unfold State.routeZone
  congr 1
  apply Fin.ext
  have := h.isLt
  simp only [Fin.ofNat]
  rw [Nat.mod_eq_of_lt (by omega)]; omega

/-- A claim set read from a hop of a defined route in SERVICE mode is a run of that route's hops: it crosses no seam (R71, R46). -/
theorem takeSet_run {s : State} {r : RouteId} (f : FloorOk s) (pl : (s.route r).placed) (m : s.mode = .service) (d : (s.route r).defined = true) (laps : Half) (n : Nat) :
    ∀ h : HopIdx, (s.route r).firstHop.val ≤ h.val → h.val < (s.route r).firstHop.val + (s.route r).hopCount →
    ∃ k, s.takeSet (s.readFrom n (some ⟨⟨r, h⟩, laps⟩)) = (List.range k).map (fun i => (⟨r, hopPlus h i⟩ : HopRef)) ∧
      h.val + k ≤ (s.route r).firstHop.val + (s.route r).hopCount ∧ ∀ i, i + 1 < k → s.noStop (s.hopZone (hopPlus h i)) = true := by
  unfold RouteRecord.placed at pl
  induction n with
  | zero => intro h _ b; exact ⟨0, rfl, by omega, fun i hi => absurd hi (by omega)⟩
  | succ n ih =>
    intro h a b
    rw [State.readFrom, State.takeSet]
    split
    · next ns =>
      have nl : h.val < (s.route r).lastHop := by
        apply Nat.lt_of_not_le
        intro q
        unfold RouteRecord.lastHop at q
        have : h.val - (s.route r).firstHop.val = (s.route r).hopCount - 1 := by omega
        have z := (f.routes m r d).2.1
        rw [← this, ← hopZone_routeZone s r h a] at z
        rw [z] at ns; cases ns
      have np : s.nextPlace ⟨⟨r, h⟩, laps⟩ = some ⟨⟨r, hopPlus h 1⟩, laps⟩ := by
        unfold State.nextPlace; rw [if_pos nl]
      unfold RouteRecord.lastHop at nl
      have hv : (hopPlus h 1).val = h.val + 1 := hopPlus_val (by omega)
      obtain ⟨k, e, x, y⟩ := ih (hopPlus h 1) (by omega) (by omega)
      have shift : ∀ i, i < k → hopPlus (hopPlus h 1) i = hopPlus h (i + 1) := by
        intro i hi
        apply Fin.ext
        rw [hopPlus_val (by omega), hv, hopPlus_val (by omega)]; omega
      refine ⟨k + 1, ?_, by omega, fun i hi => ?_⟩
      · rw [np, e, List.range_succ_eq_map, List.map_cons, hopPlus_zero, List.map_map]
        congr 1
        apply List.map_congr_left
        intro i hi
        simp only [Function.comp_apply, Nat.succ_eq_add_one]
        rw [shift i (List.mem_range.1 hi)]
      · cases i with
        | zero => rw [hopPlus_zero]; exact ns
        | succ i => rw [← shift i (by omega)]; exact y i (by omega)
    · refine ⟨1, ?_, by omega, fun i hi => absurd hi (by omega)⟩
      simp [hopPlus_zero]

/-- A claim set of a carrier, as it lies on its route. -/
structure SetLies (s : State) (c : CarrierId) (set : List HopRef) : Prop where
  on : ∀ x ∈ set, (s.carrier c).route = some x.route ∧ (s.route x.route).defined = true ∧
    (s.route x.route).firstHop.val ≤ x.hop.val ∧ x.hop.val < (s.route x.route).firstHop.val + (s.route x.route).hopCount
  defined : ∀ x ∈ set, (s.zone (s.hopZone x.hop)).defined = true
  apart : (set.map (fun x => s.hopZone x.hop)).Nodup

/-- A carrier's next claim set lies on its current route, over defined zones, none of them twice (R71, R46). -/
theorem nextSet_lies {s : State} (f : FloorOk s) (pl : ∀ r, (s.route r).placed) (m : s.mode = .service) (c : CarrierId) : SetLies s c (s.nextSet c) := by
  unfold State.nextSet State.routeAhead
  cases e : s.cursorPlace c with
  | none =>
    have : s.takeSet (s.readFrom 64 none) = [] := rfl
    rw [this]
    exact ⟨by simp, by simp, by simp⟩
  | some p =>
    obtain ⟨⟨r, h⟩, laps⟩ := p
    have q : (s.carrier c).route = some r ∧ (s.carrier c).cursor = .hop h := by
      unfold State.cursorPlace at e
      split at e
      · next a b => injection e with e; injection e with e1 e2; injection e1 with e3 e4; subst e3; subst e4; exact ⟨a, b⟩
      · cases e
    obtain ⟨d, g⟩ := f.current c r q.1
    obtain ⟨a, b⟩ := g h q.2
    obtain ⟨k, e, x, y⟩ := takeSet_run f (pl r) m d laps 64 h a b
    rw [e]
    have pl := pl r
    unfold RouteRecord.placed at pl
    have val : ∀ i, i < k → (hopPlus h i).val = h.val + i := fun i hi => hopPlus_val (by omega)
    have zn : ∀ i, i < k → s.hopZone (hopPlus h i) = s.routeZone r (h.val + i - (s.route r).firstHop.val) := by
      intro i hi
      rw [hopZone_routeZone s r _ (by rw [val i hi]; omega), val i hi]
    refine ⟨fun z hz => ?_, fun z hz => ?_, ?_⟩
    · obtain ⟨i, hi, rfl⟩ := List.mem_map.1 hz
      rw [List.mem_range] at hi
      exact ⟨q.1, d, by dsimp only; rw [val i hi]; omega, by dsimp only; rw [val i hi]; omega⟩
    · obtain ⟨i, hi, rfl⟩ := List.mem_map.1 hz
      rw [List.mem_range] at hi
      dsimp only
      rw [zn i hi]
      exact (f.routes m r d).1 _ (by omega)
    · rw [List.map_map]
      unfold List.Nodup
      rw [List.pairwise_map]
      refine List.pairwise_lt_range.imp_of_mem ?_
      intro i j hi hj lt
      rw [List.mem_range] at hi hj
      dsimp only [Function.comp_apply]
      rw [zn i hi, zn j hj]
      refine (f.routes m r d).2.2 _ _ (by omega) (by omega) (fun l l1 l2 => ?_)
      have := y (l + (s.route r).firstHop.val - h.val) (by omega)
      rw [zn _ (by omega)] at this
      have w : h.val + (l + (s.route r).firstHop.val - h.val) - (s.route r).firstHop.val = l := by omega
      rwa [w] at this

/-! ## What nobody holds or uses -/

theorem no_holder {s : State} (h : HoldersOk s) {z : ZoneId} (n : s.holder z = none) (c : CarrierId) : ∀ e ∈ (s.carrier c).held, e.zone ≠ z := by
  intro e he q
  have : s.holds c z = true := by unfold State.holds; rw [List.any_eq_true]; exact ⟨e, he, by simpa using q⟩
  rw [← h.holder_iff, n] at this; cases this

theorem users_none {s : State} (u : UsersOk s) {r : RouteId} (n : (s.route r).users = 0) (c : CarrierId) : (s.carrier c).route ≠ some r := by
  intro q
  have := u.count r
  rw [n, eq_comm, List.countP_eq_zero] at this
  exact this c (List.mem_finRange c) (by simpa using q)

end Sys2Proof.Machine
end

