-- ==== Sys2Proof/Laws/Schedules.lean ====
section
/-! SUPPORT. The orders of an expiry's parts and of a floor frame's blocks: one that a sender can send is taken as it stands. -/

namespace Sys2Proof.Machine

/-- Each item of a list preceded by items that stand before it already: without the repeats the list is left. -/
theorem eraseDups_flatMap_prior {α : Type} [DecidableEq α] (prior : α → List α) (l : List α) (nd : l.Nodup)
    (h : ∀ a p b, l = a ++ p :: b → ∀ x ∈ prior p, x ∈ a) :
    (l.flatMap (fun p => prior p ++ [p])).eraseDups = l ∧ ∀ x, x ∈ l.flatMap (fun p => prior p ++ [p]) → x ∈ l := by
  suffices k : ∀ r : List α, r.reverse.Nodup → (∀ a p b, r.reverse = a ++ p :: b → ∀ x ∈ prior p, x ∈ a) →
      (r.reverse.flatMap (fun p => prior p ++ [p])).eraseDups = r.reverse ∧
        ∀ x, x ∈ r.reverse.flatMap (fun p => prior p ++ [p]) → x ∈ r.reverse by
    have := k l.reverse (by rwa [List.reverse_reverse]) (by rwa [List.reverse_reverse])
    rwa [List.reverse_reverse] at this
  intro r
  induction r with
  | nil => exact fun _ _ => ⟨rfl, fun x hx => hx⟩
  | cons p r ih =>
    intro nd h
    rw [List.reverse_cons] at nd h ⊢
    obtain ⟨e, m⟩ := ih (List.nodup_append.1 nd).1 (fun a q b s => h a q (b ++ [p]) (by rw [s]; simp))
    have own : ∀ x ∈ prior p, x ∈ r.reverse := h r.reverse p [] rfl
    have np : p ∉ r.reverse := fun hp => (List.nodup_append.1 nd).2.2 p hp p (by simp) rfl
    have hole : (prior p ++ [p]).removeAll (r.reverse.flatMap (fun q => prior q ++ [q])) = [p] := by
      unfold List.removeAll
      rw [List.filter_append]
      have a : (prior p).filter (fun x => !(r.reverse.flatMap (fun q => prior q ++ [q])).elem x) = [] := by
        rw [List.filter_eq_nil_iff]
        intro x hx
        have : x ∈ r.reverse.flatMap (fun q => prior q ++ [q]) := List.mem_flatMap.2 ⟨x, own x hx, by simp⟩
        rw [List.elem_eq_mem, decide_eq_true this]
        simp
      rw [a, List.nil_append, List.filter_cons, if_pos, List.filter_nil]
      rw [List.elem_eq_mem, decide_eq_false (fun hp => np (m p hp))]
      rfl
    rw [List.flatMap_append, List.flatMap_cons, List.flatMap_nil, List.append_nil]
    refine ⟨?_, fun x hx => ?_⟩
    · rw [List.eraseDups_append, e, hole]; rfl
    · rcases List.mem_append.1 hx with hx | hx
      · exact List.mem_append_left _ (m x hx)
      · rcases List.mem_append.1 hx with hx | hx
        · exact List.mem_append_left _ (own x hx)
        · exact List.mem_append_right _ hx

/-- What stands before an item of a list by its places stands in every part of the list before that item. -/
theorem mem_of_idxOf_lt {α : Type} [DecidableEq α] {l a b : List α} {x p : α} (nd : l.Nodup) (h : l.idxOf x < l.idxOf p)
    (e : l = a ++ p :: b) : x ∈ a := by
  subst e
  apply Classical.byContradiction
  intro n
  have np : p ∉ a := fun hp => (List.nodup_append.1 nd).2.2 p hp p (by simp) rfl
  rw [List.idxOf_append, if_neg n, List.idxOf_append, if_neg np, List.idxOf_cons_self] at h
  omega

/-- The part that must stand before a departure: the closing of its port. -/
def closingBefore : ExpiryPart → List ExpiryPart
  | .floorDepart => [.floorClose]
  | .dispatchDepart => [.dispatchClose]
  | _ => []

/-- The parts of an expiry are taken in the order that a sender can send. -/
theorem expirySchedule_of_ok {order : List ExpiryPart} (h : expiryOrderOk order = true) : expirySchedule order = order := by
  unfold expiryOrderOk at h
  simp only [Bool.and_eq_true, List.all_eq_true, beq_iff_eq, decide_eq_true_eq] at h
  obtain ⟨⟨⟨counts, _⟩, floor⟩, dispatch⟩ := h
  have all : ∀ p : ExpiryPart, p ∈ ExpiryPart.all := by intro p; cases p <;> decide
  have nd : order.Nodup := List.nodup_iff_count.2 (fun p => Nat.le_of_eq (counts p (all p)))
  have mem : ∀ p, p ∈ order := fun p => List.count_pos_iff.1 (by rw [counts p (all p)]; exact Nat.one_pos)
  have own := eraseDups_flatMap_prior closingBefore order nd (fun a p b e x hx => by
    cases p <;> simp only [closingBefore, List.mem_singleton, List.not_mem_nil] at hx
    · rw [hx]; exact mem_of_idxOf_lt nd floor e
    · rw [hx]; exact mem_of_idxOf_lt nd dispatch e)
  have rest : (ExpiryPart.all.flatMap (fun p => closingBefore p ++ [p])).removeAll
      (order.flatMap (fun p => closingBefore p ++ [p])) = [] := by
    unfold List.removeAll
    rw [List.filter_eq_nil_iff]
    intro x _
    have : x ∈ order.flatMap (fun p => closingBefore p ++ [p]) := List.mem_flatMap.2 ⟨x, mem x, by simp⟩
    rw [List.elem_eq_mem, decide_eq_true this]
    simp
  have f : expirySchedule order = ((order ++ ExpiryPart.all).flatMap (fun p => closingBefore p ++ [p])).eraseDups := by
    unfold expirySchedule
    congr 2
    funext p
    cases p <;> rfl
  rw [f, List.flatMap_append, List.eraseDups_append, own.1, rest]
  exact List.append_nil order

/-- The blocks of a floor frame take it in the order that a sender can send. -/
theorem floorSchedule_of_ok {order : List FloorBlock} (h : floorOrderOk order = true) : floorSchedule order = order := by
  unfold floorOrderOk at h
  simp only [Bool.and_eq_true, List.all_eq_true, beq_iff_eq] at h
  have all : ∀ p : FloorBlock, p ∈ FloorBlock.all := by intro p; cases p <;> decide
  have nd : order.Nodup := List.nodup_iff_count.2 (fun p => Nat.le_of_eq (h.1 p (all p)))
  have mem : ∀ p, p ∈ order := fun p => List.count_pos_iff.1 (by rw [h.1 p (all p)]; exact Nat.one_pos)
  have own := (eraseDups_flatMap_prior (fun _ => []) order nd (fun _ _ _ _ x hx => absurd hx (by simp))).1
  simp only [List.nil_append, List.flatMap_singleton'] at own
  have rest : FloorBlock.all.removeAll order = [] := by
    unfold List.removeAll
    rw [List.filter_eq_nil_iff]
    intro x _
    simpa using mem x
  unfold floorSchedule
  rw [List.eraseDups_append, own, rest]
  exact List.append_nil order

end Sys2Proof.Machine
end

