-- ==== Sys2Proof/Laws/Waiting.lean ====
section
/-! SUPPORT. The wait queues and waits of the carriers (R8, R32, R80): what leaving and joining a queue make of the queues' order and of who stands where, and which operations leave queues, waits and the pin token as they are. -/

namespace Sys2Proof.Machine

/-! ## The order of a queue -/

theorem QueueOk.mono {n m : Nat} {q} (h : QueueOk n q) (l : n ≤ m) : QueueOk m q :=
  ⟨h.once, h.order, fun x hx => Nat.lt_of_lt_of_le (h.issued x hx) l⟩

theorem QueueOk.sublist {n : Nat} {q r} (h : QueueOk n q) (l : r.Sublist q) : QueueOk n r :=
  ⟨h.once.sublist (l.map _), h.order.sublist l, fun x hx => h.issued x (l.subset hx)⟩

/-- An entry with the next ticket joins a queue at the tail of its class. -/
theorem QueueOk.insert {α : Type} {n : Nat} {q : List α} {f : α → CarrierId × Priority × Nat} (h : QueueOk n (q.map f)) (e : α)
    (cls : α → Priority) (hc : ∀ x, cls x = (f x).2.1) (t : (f e).2.2 = n) (no : ∀ x ∈ q, (f x).1 ≠ (f e).1) :
    QueueOk (n + 1) ((insertByClass cls e q).map f) := by
  have iss : ∀ x ∈ q, (f x).2.2 < n := fun x hx => h.issued _ (List.mem_map_of_mem hx)
  have nd : (q.map (fun x => (f x).1)).Nodup := by have := h.once; rwa [List.map_map] at this
  have ord := List.pairwise_map.1 h.order
  unfold insertByClass
  cases k : cls e with
  | normal =>
    simp only
    refine ⟨?_, ?_, ?_⟩
    · rw [List.map_map, List.map_append, List.nodup_append]
      refine ⟨nd, by simp, fun x hx y hy => ?_⟩
      simp only [List.map_cons, List.map_nil, List.mem_singleton] at hy
      obtain ⟨a, ha, rfl⟩ := List.mem_map.1 hx
      subst hy
      exact no a ha
    · rw [List.pairwise_map, List.pairwise_append]
      refine ⟨ord, by simp, fun x hx y hy => ?_⟩
      simp only [List.mem_singleton] at hy
      subst hy
      split
      · rw [t]; exact iss x hx
      · next ne =>
        rw [← hc, ← hc, k] at ne
        rw [← hc]
        cases q : cls x
        · exact absurd q ne
        · rfl
    · intro x hx
      rw [List.map_append, List.mem_append] at hx
      rcases hx with hx | hx
      · exact Nat.lt_succ_of_lt (h.issued x hx)
      · simp only [List.map_cons, List.map_nil, List.mem_singleton] at hx
        rw [hx, t]; exact Nat.lt_succ_self _
  | urgent =>
    simp only
    have perm : (q.filter (fun x => cls x == .urgent) ++ q.filter (fun x => cls x == .normal)).Perm q := by
      have : q.filter (fun x => cls x == .normal) = q.filter (fun x => !(cls x == .urgent)) := by
        apply List.filter_congr
        intro x _
        cases cls x <;> rfl
      rw [this]
      exact List.filter_append_perm ..
    refine ⟨?_, ?_, ?_⟩
    · rw [List.map_map, List.append_assoc]
      have p2 : (q.filter (fun x => cls x == .urgent) ++ ([e] ++ q.filter (fun x => cls x == .normal))).Perm (e :: q) :=
        (List.perm_middle).trans (perm.cons e)
      rw [(p2.map _).nodup_iff, List.map_cons, List.nodup_cons]
      refine ⟨fun m => ?_, nd⟩
      obtain ⟨a, ha, q⟩ := List.mem_map.1 m
      exact no a ha q
    · rw [List.pairwise_map, List.append_assoc, List.pairwise_append]
      refine ⟨ord.filter _, ?_, fun x hx y hy => ?_⟩
      · rw [List.singleton_append, List.pairwise_cons]
        refine ⟨fun y hy => ?_, ord.filter _⟩
        rw [List.mem_filter] at hy
        have hy := hy.2
        rw [beq_iff_eq, hc] at hy
        rw [hc] at k
        rw [k, hy]; simp
      · rw [List.mem_filter, beq_iff_eq, hc] at hx
        rw [List.singleton_append, List.mem_cons] at hy
        rcases hy with rfl | hy
        · rw [hc] at k
          rw [hx.2, k, if_pos rfl, t]; exact iss x hx.1
        · rw [List.mem_filter, beq_iff_eq, hc] at hy
          rw [hx.2, hy.2]; simp
    · intro x hx
      obtain ⟨a, ha, rfl⟩ := List.mem_map.1 hx
      simp only [List.mem_append, List.mem_singleton, List.mem_filter] at ha
      rcases ha with (ha | rfl) | ha
      · exact Nat.lt_succ_of_lt (iss a ha.1)
      · rw [t]; exact Nat.lt_succ_self _
      · exact Nat.lt_succ_of_lt (iss a ha.1)

theorem mem_insertByClass {α : Type} (cls : α → Priority) (e x : α) (q : List α) : x ∈ insertByClass cls e q ↔ x = e ∨ x ∈ q := by
  unfold insertByClass
  cases cls e
  · simp [or_comm]
  · simp only [List.append_assoc, List.mem_append, List.mem_singleton, List.mem_filter]
    cases cls x <;> simp [or_comm, or_left_comm]

/-! ## Leaving and joining -/

theorem hasPending_congr {s t : State} {c : CarrierId} (h : t.carrier c = s.carrier c) : t.hasPending c = s.hasPending c := by
  unfold State.hasPending; rw [h]

theorem standsFor_congr {s t : State} (z : ∀ z, (t.zst z).queue = (s.zst z).queue) (k : ∀ k, (t.cst k).queue = (s.cst k).queue)
    (h : t.holdWait = s.holdWait) (c : CarrierId) (w : Wait) : t.standsFor c w ↔ s.standsFor c w := by
  cases w <;> simp only [State.standsFor, z, k, h]

/-- The queues are in order, as they stand. -/
structure QueuesOk (s : State) : Prop where
  zones : ∀ z, QueueOk s.tickets ((s.zst z).queue.map (fun e => (e.slot, e.priority, e.ticket)))
  corridors : ∀ k, QueueOk s.tickets ((s.cst k).queue.map (fun e => (e.slot, e.priority, e.ticket)))
  hold : QueueOk s.tickets (s.holdWait.map (fun e => (e.slot, e.priority, e.ticket)))

/-- Queues and entries are read from the queues alone. -/
theorem queuesOk_of {s t : State} (h : QueuesOk s) (a : t.zoneStates = s.zoneStates) (b : t.corridorStates = s.corridorStates)
    (d : t.holdWait = s.holdWait) (e : t.tickets = s.tickets) : QueuesOk t where
  zones z := by unfold State.zst; rw [a, e]; exact h.zones z
  corridors k := by unfold State.cst; rw [b, e]; exact h.corridors k
  hold := by rw [d, e]; exact h.hold

theorem stands_of {s t : State} (a : t.zoneStates = s.zoneStates) (b : t.corridorStates = s.corridorStates)
    (d : t.holdWait = s.holdWait) (c : CarrierId) (w : Wait) : t.standsFor c w ↔ s.standsFor c w :=
  standsFor_congr (fun z => by unfold State.zst; rw [a]) (fun k => by unfold State.cst; rw [b]) d c w

theorem tickets_leaveQueue (s : State) (c : CarrierId) : (s.leaveQueue c).tickets = s.tickets := by
  rw [leaveQueue_only]

theorem token_leaveQueue (s : State) (c : CarrierId) : (s.leaveQueue c).pinToken = s.pinToken := by rw [leaveQueue_only]

theorem token_joinQueue (s : State) (c : CarrierId) (w : Wait) (d : Direction) : (s.joinQueue c w d).pinToken = s.pinToken := by
  rw [(joined s c w d).rest]

theorem queues_leaveQueue {s : State} (c : CarrierId) (h : QueuesOk s) : QueuesOk (s.leaveQueue c) where
  zones z := by
    rw [tickets_leaveQueue, zst_leaveQueue]
    dsimp only
    split
    · exact (h.zones z).sublist (List.filter_sublist.map _)
    · exact h.zones z
  corridors k := by
    rw [tickets_leaveQueue, cst_leaveQueue]
    dsimp only
    split
    · exact (h.corridors k).sublist (List.filter_sublist.map _)
    · exact h.corridors k
  hold := by
    rw [tickets_leaveQueue, holdWait_leaveQueue]
    split
    · exact h.hold.sublist (List.filter_sublist.map _)
    · exact h.hold

/-- Leaving its queue, a carrier stands in none, where its wait names the one it stands in. -/
theorem stands_leaveQueue {s : State} {c : CarrierId} (h : ∀ w, s.standsFor c w → (s.carrier c).wait = w) (d : CarrierId) (w : Wait) :
    (s.leaveQueue c).standsFor d w ↔ s.standsFor d w ∧ d ≠ c := by
  have zone : ∀ (z : ZoneId) (x : ZoneCause) (v : Wait), (∀ e ∈ (s.zst z).queue, e.slot = c → e.cause = x → (s.carrier c).wait = v) →
      (v = .zone z ∨ v = .conflict z ∨ v = .field z) →
      ((∃ e ∈ ((s.leaveQueue c).zst z).queue, e.slot = d ∧ e.cause = x) ↔ (∃ e ∈ (s.zst z).queue, e.slot = d ∧ e.cause = x) ∧ d ≠ c) := by
    intro z x v hv nv
    rw [zst_leaveQueue]
    dsimp only
    split
    · next q =>
      simp only [List.mem_filter, bne_iff_ne]
      constructor
      · rintro ⟨e, ⟨he, ne⟩, rfl, k⟩; exact ⟨⟨e, he, rfl, k⟩, ne⟩
      · rintro ⟨⟨e, he, rfl, k⟩, ne⟩; exact ⟨e, ⟨he, ne⟩, rfl, k⟩
    · next q =>
      constructor
      · rintro ⟨e, he, rfl, k⟩
        refine ⟨⟨e, he, rfl, k⟩, fun i => q ?_⟩
        rw [hv e he i k]; exact nv
      · exact fun y => y.1
  cases w with
  | none => simp [State.standsFor]
  | zone z => exact zone z .zone (.zone z) (fun e he i k => h (.zone z) ⟨e, he, i, k⟩) (Or.inl rfl)
  | conflict z => exact zone z .conflict (.conflict z) (fun e he i k => h (.conflict z) ⟨e, he, i, k⟩) (Or.inr (Or.inl rfl))
  | field z => exact zone z .field (.field z) (fun e he i k => h (.field z) ⟨e, he, i, k⟩) (Or.inr (Or.inr rfl))
  | corridor k =>
    simp only [State.standsFor]
    rw [cst_leaveQueue]
    dsimp only
    split
    · simp only [List.mem_filter, bne_iff_ne]
      constructor
      · rintro ⟨e, ⟨he, ne⟩, rfl⟩; exact ⟨⟨e, he, rfl⟩, ne⟩
      · rintro ⟨⟨e, he, rfl⟩, ne⟩; exact ⟨e, ⟨he, ne⟩, rfl⟩
    · next q =>
      constructor
      · rintro ⟨e, he, rfl⟩
        exact ⟨⟨e, he, rfl⟩, fun i => q (h (.corridor k) ⟨e, he, i⟩)⟩
      · exact fun y => y.1
  | hold =>
    simp only [State.standsFor]
    rw [holdWait_leaveQueue]
    split
    · simp only [List.mem_filter, bne_iff_ne]
      constructor
      · rintro ⟨e, ⟨he, ne⟩, rfl⟩; exact ⟨⟨e, he, rfl⟩, ne⟩
      · rintro ⟨⟨e, he, rfl⟩, ne⟩; exact ⟨e, ⟨he, ne⟩, rfl⟩
    · next q =>
      constructor
      · rintro ⟨e, he, rfl⟩
        exact ⟨⟨e, he, rfl⟩, fun i => q (h .hold ⟨e, he, i⟩)⟩
      · exact fun y => y.1

theorem not_in_queue {s : State} {c : CarrierId} (no : ∀ w, ¬s.standsFor c w) :
    (∀ z, ∀ e ∈ (s.zst z).queue, e.slot ≠ c) ∧ (∀ k, ∀ e ∈ (s.cst k).queue, e.slot ≠ c) ∧ ∀ e ∈ s.holdWait, e.slot ≠ c := by
  refine ⟨fun z e he i => ?_, fun k e he i => no (.corridor k) ⟨e, he, i⟩, fun e he i => no .hold ⟨e, he, i⟩⟩
  cases k : e.cause
  · exact no (.zone z) ⟨e, he, i, k⟩
  · exact no (.conflict z) ⟨e, he, i, k⟩
  · exact no (.field z) ⟨e, he, i, k⟩

theorem queues_joinZoneQueue {s : State} {c : CarrierId} (h : QueuesOk s) (no : ∀ w, ¬s.standsFor c w) (z : ZoneId) (x : ZoneCause) :
    QueuesOk (s.joinZoneQueue c z x) where
  zones w := by
    rw [zst_joinZoneQueue]
    have tk : (s.joinZoneQueue c z x).tickets = s.tickets + 1 := rfl
    rw [tk]
    split
    · next e =>
      dsimp only
      exact QueueOk.insert (h.zones z) _ _ (fun _ => rfl) rfl (fun y hy => (not_in_queue no).1 z y hy)
    · exact (h.zones w).mono (Nat.le_succ _)
  corridors k := (h.corridors k).mono (Nat.le_succ _)
  hold := h.hold.mono (Nat.le_succ _)

theorem queues_recomputeOutput {s : State} (h : QueuesOk s) (z : ZoneId) : QueuesOk (s.recomputeOutput z) := by
  rw [recomputeOutput_keeps]; exact ⟨h.zones, h.corridors, h.hold⟩

theorem cst_joinCorridor (s : State) (c : CarrierId) (k j : CorridorId) (d : Direction) : (s.joinQueue c (.corridor k) d).cst j =
    if j = k then { s.cst k with queue := insertByClass (·.priority) ⟨c, d, (s.carrier c).priority, s.tickets⟩ (s.cst k).queue } else s.cst j :=
  cst_setCst ..

theorem tickets_joinCorridor (s : State) (c : CarrierId) (k : CorridorId) (d : Direction) :
    (s.joinQueue c (.corridor k) d).tickets = s.tickets + 1 := rfl

/-- A carrier that stands in no queue joins one. -/
theorem queues_joinQueue {s : State} {c : CarrierId} (h : QueuesOk s) (no : ∀ w, ¬s.standsFor c w) (w : Wait) (d : Direction) :
    QueuesOk (s.joinQueue c w d) := by
  cases w with
  | none => exact h
  | zone z => exact queues_joinZoneQueue h no z _
  | conflict z => exact queues_joinZoneQueue h no z _
  | field z => exact queues_recomputeOutput (queues_joinZoneQueue h no z _) z
  | corridor k =>
    refine ⟨fun z => (h.zones z).mono (Nat.le_succ _), fun j => ?_, h.hold.mono (Nat.le_succ _)⟩
    rw [cst_joinCorridor, tickets_joinCorridor]
    split
    · next e =>
      dsimp only
      exact QueueOk.insert (f := fun e : CorridorWaiter => (e.slot, e.priority, e.ticket)) (h.corridors k) _ _ (fun _ => rfl) rfl (fun y hy => (not_in_queue no).2.1 k y hy)
    · exact (h.corridors j).mono (Nat.le_succ _)
  | hold =>
    refine ⟨fun z => (h.zones z).mono (Nat.le_succ _), fun j => (h.corridors j).mono (Nat.le_succ _), ?_⟩
    exact QueueOk.insert (f := fun e : HoldWaiter => (e.slot, e.priority, e.ticket)) h.hold _ _ (fun _ => rfl) rfl (fun y hy => (not_in_queue no).2.2 y hy)

theorem stands_joinZoneQueue (s : State) (c d : CarrierId) (z : ZoneId) (x y : ZoneCause) (u : ZoneId) :
    (∃ e ∈ ((s.joinZoneQueue c z x).zst u).queue, e.slot = d ∧ e.cause = y) ↔
      (∃ e ∈ (s.zst u).queue, e.slot = d ∧ e.cause = y) ∨ d = c ∧ u = z ∧ y = x := by
  rw [zst_joinZoneQueue]
  split
  · next e =>
    subst e
    simp only [mem_insertByClass]
    constructor
    · rintro ⟨a, rfl | ha, b, k⟩
      · exact Or.inr ⟨b.symm, trivial, k.symm⟩
      · exact Or.inl ⟨a, ha, b, k⟩
    · rintro (⟨a, ha, b, k⟩ | ⟨rfl, -, rfl⟩)
      · exact ⟨a, Or.inr ha, b, k⟩
      · exact ⟨_, Or.inl rfl, rfl, rfl⟩
  · next n =>
    constructor
    · exact Or.inl
    · rintro (k | ⟨-, e, -⟩)
      · exact k
      · exact absurd e n

theorem cst_joinZone (s : State) (c : CarrierId) (z : ZoneId) (x : ZoneCause) (k : CorridorId) : (s.joinZoneQueue c z x).cst k = s.cst k := rfl

theorem holdWait_joinZone (s : State) (c : CarrierId) (z : ZoneId) (x : ZoneCause) : (s.joinZoneQueue c z x).holdWait = s.holdWait := rfl

theorem stands_joinQueue (s : State) (c : CarrierId) (w : Wait) (k : Direction) (d : CarrierId) (v : Wait) :
    (s.joinQueue c w k).standsFor d v ↔ s.standsFor d v ∨ d = c ∧ v = w ∧ w ≠ .none := by
  have ro : ∀ (t : State) z, (t.recomputeOutput z).standsFor d v ↔ t.standsFor d v := by
    intro t z; rw [recomputeOutput_keeps]; cases v <;> rfl
  cases w with
  | none => simp [State.joinQueue]
  | zone z => unfold State.joinQueue; cases v <;> simp [State.standsFor, stands_joinZoneQueue, cst_joinZone, holdWait_joinZone]
  | conflict z => unfold State.joinQueue; cases v <;> simp [State.standsFor, stands_joinZoneQueue, cst_joinZone, holdWait_joinZone]
  | field z =>
    unfold State.joinQueue; rw [ro]
    cases v <;> simp [State.standsFor, stands_joinZoneQueue, cst_joinZone, holdWait_joinZone]
  | corridor j =>
    have zq : ∀ z, (s.joinQueue c (.corridor j) k).zst z = s.zst z := fun _ => rfl
    have hq : (s.joinQueue c (.corridor j) k).holdWait = s.holdWait := rfl
    cases v <;> simp only [State.standsFor, cst_joinCorridor, zq, hq]
    case corridor i =>
      split
      · next e =>
        subst e
        simp only [mem_insertByClass]
        constructor
        · rintro ⟨a, rfl | ha, b⟩
          · exact Or.inr ⟨b.symm, trivial, by simp⟩
          · exact Or.inl ⟨a, ha, b⟩
        · rintro (⟨a, ha, b⟩ | ⟨rfl, -⟩)
          · exact ⟨a, Or.inr ha, b⟩
          · exact ⟨_, Or.inl rfl, rfl⟩
      · next n => simp [n]
    all_goals simp
  | hold =>
    have zq : ∀ z, (s.joinQueue c .hold k).zst z = s.zst z := fun _ => rfl
    have cq : ∀ z, (s.joinQueue c .hold k).cst z = s.cst z := fun _ => rfl
    have hq : (s.joinQueue c .hold k).holdWait = insertByClass (·.priority) ⟨c, (s.carrier c).priority, s.tickets⟩ s.holdWait := rfl
    cases v <;> simp only [State.standsFor, zq, cq, hq]
    case hold =>
      simp only [mem_insertByClass]
      constructor
      · rintro ⟨a, rfl | ha, b⟩
        · exact Or.inr ⟨b.symm, trivial, by simp⟩
        · exact Or.inl ⟨a, ha, b⟩
      · rintro (⟨a, ha, b⟩ | ⟨rfl, -⟩)
        · exact ⟨a, Or.inr ha, b⟩
        · exact ⟨_, Or.inl rfl, rfl⟩
    all_goals simp

/-! ## What leaves queues, waits and token -/

/-- A change that leaves queues, tickets and token, and of carrier records all but one carrier's, whose state and wait it leaves and to whom it gives no PENDING entry. -/
structure WaitKept (c : CarrierId) (s t : State) : Prop where
  tickets : t.tickets = s.tickets
  zones : ∀ z, (t.zst z).queue = (s.zst z).queue
  corridors : ∀ k, (t.cst k).queue = (s.cst k).queue
  hold : t.holdWait = s.holdWait
  token : t.pinToken = s.pinToken
  others : ∀ d, d ≠ c → t.carrier d = s.carrier d
  state : (t.carrier c).state = (s.carrier c).state
  wait : (t.carrier c).wait = (s.carrier c).wait
  pending : t.hasPending c = true → s.hasPending c = true ∨ s.pinToken = some c ∧ (s.carrier c).state ≠ .faulted

theorem WaitKept.refl (c : CarrierId) (s : State) : WaitKept c s s :=
  ⟨rfl, fun _ => rfl, fun _ => rfl, rfl, rfl, fun _ _ => rfl, rfl, rfl, Or.inl⟩

theorem WaitKept.trans {c : CarrierId} {s t u : State} (h : WaitKept c s t) (k : WaitKept c t u) : WaitKept c s u :=
  ⟨k.tickets.trans h.tickets, fun z => (k.zones z).trans (h.zones z), fun z => (k.corridors z).trans (h.corridors z), k.hold.trans h.hold,
    k.token.trans h.token, fun d n => (k.others d n).trans (h.others d n), k.state.trans h.state, k.wait.trans h.wait,
    fun x => (k.pending x).elim h.pending (fun y => Or.inr (by rwa [h.token, h.state] at y))⟩

theorem WaitKept.of {c : CarrierId} {s t : State} (z : ∀ z, (t.zst z).queue = (s.zst z).queue) (k : ∀ k, (t.cst k).queue = (s.cst k).queue)
    (q : t.holdWait = s.holdWait) (n : t.tickets = s.tickets) (p : t.pinToken = s.pinToken) (o : ∀ d, d ≠ c → t.carrier d = s.carrier d)
    (cs : (t.carrier c).state = (s.carrier c).state) (cw : (t.carrier c).wait = (s.carrier c).wait)
    (ch : ∀ e ∈ (t.carrier c).held, e.status = .pending → e ∈ (s.carrier c).held) : WaitKept c s t :=
  ⟨n, z, k, q, p, o, cs, cw, fun x => Or.inl (by
    unfold State.hasPending at x ⊢
    rw [List.any_eq_true] at x ⊢
    obtain ⟨e, he, st⟩ := x
    exact ⟨e, ch e he (by simpa using st), st⟩)⟩

/-- A state with the same queues, tickets, token and carriers. -/
theorem WaitKept.same {s t : State} (c : CarrierId) (z : ∀ z, (t.zst z).queue = (s.zst z).queue) (k : ∀ k, (t.cst k).queue = (s.cst k).queue)
    (q : t.holdWait = s.holdWait) (n : t.tickets = s.tickets) (p : t.pinToken = s.pinToken) (o : t.carriers = s.carriers) : WaitKept c s t := by
  have : ∀ d, t.carrier d = s.carrier d := fun d => by unfold State.carrier; rw [o]
  exact .of z k q n p (fun d _ => this d) (by rw [this]) (by rw [this]) (fun e h _ => by rwa [this] at h)

theorem WaitKept.breakWatch (c d : CarrierId) (s : State) : WaitKept c s (s.breakWatch d) :=
  .of (fun _ => rfl) (fun _ => rfl) rfl rfl rfl (fun _ _ => rfl) rfl rfl (fun _ h _ => h)

theorem WaitKept.modCarrier (c : CarrierId) (s : State) (f : Carrier → Carrier) (hs : (f (s.carrier c)).state = (s.carrier c).state)
    (hw : (f (s.carrier c)).wait = (s.carrier c).wait) (hh : ∀ e ∈ (f (s.carrier c)).held, e.status = .pending → e ∈ (s.carrier c).held) :
    WaitKept c s (s.modCarrier c f) :=
  .of (fun _ => rfl) (fun _ => rfl) rfl rfl rfl (fun d n => by rw [carrier_modCarrier, if_neg n]) (by rw [carrier_modCarrier_self]; exact hs)
    (by rw [carrier_modCarrier_self]; exact hw) (by rw [carrier_modCarrier_self]; exact hh)

theorem WaitKept.setHolder (c : CarrierId) (s : State) (z : ZoneId) (x : Option CarrierId) : WaitKept c s (s.setHolder z x) :=
  .of (fun w => by rw [zst_setHolder]; split
                   · next e => rw [e]
                   · rfl)
    (fun k => by rw [setHolder_only]; rfl) (by rw [setHolder_only]) (by rw [setHolder_only]) (by rw [setHolder_only])
    (fun d _ => by rw [carrier_setHolder]) (by rw [carrier_setHolder]) (by rw [carrier_setHolder]) (fun _ h _ => by rwa [carrier_setHolder] at h)

theorem WaitKept.setCst (c : CarrierId) (s : State) (k : CorridorId) (x : CorridorState) (q : x.queue = (s.cst k).queue) : WaitKept c s (s.setCst k x) :=
  .of (fun _ => rfl) (fun j => by rw [cst_setCst]; split
                                  · next e => rw [q, e]
                                  · rfl) rfl rfl rfl (fun _ _ => rfl) rfl rfl (fun _ h _ => h)

theorem WaitKept.setZst (c : CarrierId) (s : State) (z : ZoneId) (x : ZoneState) (h : x.queue = (s.zst z).queue) : WaitKept c s (s.setZst z x) :=
  .of (fun w => by rw [zst_setZst]; split
                   · next e => rw [e, h]
                   · rfl) (fun _ => rfl) rfl rfl rfl (fun _ _ => rfl) rfl rfl (fun _ h _ => h)

theorem WaitKept.binding (c : CarrierId) (s : State) (b : Option RequestBinding) : WaitKept c s (s.recomputeBinding b) := by
  rw [recomputeBinding_only]
  exact .of (fun _ => rfl) (fun _ => rfl) rfl rfl rfl (fun _ _ => rfl) rfl rfl (fun _ h _ => h)

theorem WaitKept.fieldState (c : CarrierId) (s : State) (z : ZoneId) : WaitKept c s (s.setFieldState z) := by
  unfold State.setFieldState
  have a : WaitKept c s (s.setZst z { s.zst z with field := s.fieldValue z }) := .setZst c s z _ rfl
  exact a.trans (.setZst c _ z _ rfl)

theorem WaitKept.fold {α : Type} (c : CarrierId) (f : State → α → State) (hf : ∀ t a, WaitKept c t (f t a)) (l : List α) (s : State) : WaitKept c s (l.foldl f s) := by
  induction l generalizing s with
  | nil => exact .refl c s
  | cons a l ih => exact (hf s a).trans (ih _)

theorem queue_leave (x : CorridorState) (c : CarrierId) : (x.leave c).1.queue = x.queue := by
  unfold CorridorState.leave; simp only; split <;> rfl

theorem queue_undirect (x : CorridorState) (c : CarrierId) : (x.undirect c).1.queue = x.queue := by
  unfold CorridorState.undirect; simp only; split <;> rfl

theorem queue_joinUndirected (x : CorridorState) (c : CarrierId) : (x.joinUndirected c).queue = x.queue := by
  unfold CorridorState.joinUndirected; split <;> rfl

theorem WaitKept.undirectAll (c d : CarrierId) (s : State) : WaitKept c s (s.undirectAll d).1 := by
  have fold : ∀ (l : List CorridorId) (acc : State × List CorridorId), WaitKept c s acc.1 →
      WaitKept c s (l.foldl (fun acc k =>
        let x := (acc.1.cst k).undirect d
        (acc.1.setCst k x.1, if x.2 then acc.2 ++ [k] else acc.2)) acc).1 := by
    intro l
    induction l with
    | nil => exact fun _ h => h
    | cons k l ih => exact fun acc h => ih _ (h.trans (WaitKept.setCst c _ k _ (queue_undirect ..)))
  exact fold allCorridors (s, []) (.refl c s)

theorem WaitKept.leaveZoneCorridor (c d : CarrierId) (s : State) (z : ZoneId) : WaitKept c s (s.leaveZoneCorridor d z).1 := by
  unfold State.leaveZoneCorridor
  split
  · exact .refl c s
  · split
    · exact .refl c s
    · exact .setCst c s _ _ (queue_leave ..)

theorem WaitKept.joinZoneCorridor (c d : CarrierId) (s : State) (z : ZoneId) : WaitKept c s (s.joinZoneCorridor d z) := by
  unfold State.joinZoneCorridor
  split
  · exact .refl c s
  · exact .setCst c s _ _ (queue_joinUndirected ..)

theorem WaitKept.admitZone (c : CarrierId) (s : State) (z : ZoneId) : WaitKept c s (s.admitZone c z) := by
  unfold State.admitZone
  exact (WaitKept.setHolder c s z (some c)).trans (.joinZoneCorridor c c _ z)

theorem WaitKept.giveUp (c : CarrierId) (s : State) (z : ZoneId) :
    WaitKept c s (((s.modCarrier c (fun r => { r with held := r.held.filter (fun e => e.zone != z) })).setHolder z none).leaveZoneCorridor c z).1 :=
  ((WaitKept.modCarrier c s _ rfl rfl (fun _ h _ => (List.mem_filter.1 h).1)).trans (.setHolder c _ z none)).trans (.leaveZoneCorridor c c _ z)

theorem WaitKept.detach (c : CarrierId) (s : State) : WaitKept c s (s.detachRoute c) := by
  unfold State.detachRoute
  rw [dropUserOf_only s]
  exact .of (fun _ => rfl) (fun _ => rfl) rfl rfl rfl (fun d n => by rw [carrier_modCarrier, if_neg n]; rfl) (by rw [carrier_modCarrier_self]; rfl)
    (by rw [carrier_modCarrier_self]; rfl) (fun _ h _ => by rw [carrier_modCarrier_self] at h; exact h)

theorem WaitKept.takeRoute (c : CarrierId) (s : State) (r : RouteId) (h : HopIdx) : WaitKept c s (s.takeRoute c r h) := by
  unfold State.takeRoute
  have u : WaitKept c s ((s.dropUserOf (s.carrier c).route).addUser r) := by
    rw [dropUserOf_only]
    exact .of (fun _ => rfl) (fun _ => rfl) rfl rfl rfl (fun _ _ => rfl) rfl rfl (fun _ h _ => h)
  refine (u.trans (.modCarrier c _ (fun x => { x with route := some r, laps := (s.route r).lapCount }) rfl rfl (fun _ h _ => h))).trans ?_
  generalize ((s.dropUserOf (s.carrier c).route).addUser r).modCarrier c (fun x =>
    { x with route := some r, laps := (s.route r).lapCount }) = t
  rw [moveCursorPast_only]
  have o := fun d n => carrier_moveCursorPast_of_ne t (c := c) (d := d) ⟨r, h⟩ n
  obtain ⟨a, i, n, e⟩ := carrier_moveCursorPast t c ⟨r, h⟩
  refine .of (fun _ => rfl) (fun _ => rfl) rfl rfl rfl o ?_ ?_ ?_
  · show ((t.moveCursorPast c ⟨r, h⟩).carrier c).state = _; rw [e]
  · show ((t.moveCursorPast c ⟨r, h⟩).carrier c).wait = _; rw [e]
  · intro x hx _
    have hx : x ∈ ((t.moveCursorPast c ⟨r, h⟩).carrier c).held := hx
    rw [e] at hx; exact hx

theorem WaitKept.enterHeld (c : CarrierId) (s : State) (e : HeldEntry) (z : ZoneId) : ((s.enterHeld c e).zst z).queue = (s.zst z).queue := by
  unfold State.enterHeld
  exact (WaitKept.setHolder c _ e.zone (some c)).zones z

theorem zq_pendHold (s : State) (c : CarrierId) (set : List HopRef) (x : HopRef) (z : ZoneId) : ((s.pendHold c set x).zst z).queue = (s.zst z).queue := by
  unfold State.pendHold
  simp only
  have e : ∀ t : State, (t.breakWatch c).zst z = t.zst z := fun t => rfl
  rw [e]
  split
  · exact WaitKept.enterHeld ..
  · exact WaitKept.enterHeld ..

theorem SetTaken.waitKept {s t : State} {c : CarrierId} {set : List HopRef} (p : SetTaken s t c set) : WaitKept c s t := by
  obtain ⟨r, i, n, e⟩ := p.carrier
  refine .of p.queue (fun k => ?_) ?_ ?_ ?_ p.others ?_ ?_ ?_
  · rw [p.corridors]; split
    · exact queue_enter ..
    · rfl
  · rw [p.rest]
  · rw [p.rest]
  · rw [p.rest]
  · rw [e]
  · rw [e]
  · rw [e]
    intro y hy st
    rw [List.mem_append] at hy
    rcases hy with hy | hy
    · exact hy
    · obtain ⟨x, -, rfl⟩ := List.mem_map.1 hy
      cases st

theorem PendTaken.waitKept {s t : State} {c : CarrierId} {set : List HopRef} {x : HopRef} (p : PendTaken s t c set x)
    (zq : ∀ z, (t.zst z).queue = (s.zst z).queue) (tk : s.pinToken = some c) (a : s.active c) : WaitKept c s t where
  tickets := by rw [p.rest]
  zones := zq
  corridors k := by
    rw [p.corridors]; split
    · exact queue_enter ..
    · rfl
  hold := by rw [p.rest]
  token := by rw [p.rest]
  others := p.others
  state := by rw [p.carrier]
  wait := by rw [p.carrier]
  pending _ := Or.inr ⟨tk, by rcases a with a | a <;> rw [a] <;> simp⟩

theorem WaitKept.recomputeHeld (c : CarrierId) (s : State) (d : CarrierId) : WaitKept c s (s.recomputeHeld d) := by
  unfold State.recomputeHeld
  refine .fold c _ (fun t z => ?_) _ _
  split
  · have a : WaitKept c t (t.recomputeBlocked z) := .setZst c t z _ rfl
    exact a.trans (.binding c _ _)
  · exact .refl c t

theorem WaitKept.freezeZone (c : CarrierId) (s : State) (z : ZoneId) (b : Bool) : WaitKept c s (s.freezeZone c z b) := by
  unfold State.freezeZone
  split
  · refine .modCarrier c s _ rfl rfl (fun e h p => ?_)
    obtain ⟨x, hx, rfl⟩ := List.mem_map.1 h
    split at p
    · cases p
    · next n => rw [if_neg n]; exact hx
  · split
    · unfold State.giveZone
      refine ((WaitKept.modCarrier c s _ rfl rfl (fun e h p => ?_)).trans (.setHolder c _ z (some c))).trans (.joinZoneCorridor c c _ z)
      dsimp only at h
      split at h
      · rcases List.mem_cons.1 h with rfl | h
        · cases p
        · exact h
      · rcases List.mem_append.1 h with h | h
        · exact h
        · rw [List.mem_singleton] at h; subst h; cases p
    · exact .refl c s

theorem WaitKept.freezeRear (c : CarrierId) (s : State) : WaitKept c s (s.freezeRear c) := by
  unfold State.freezeRear
  split
  · split
    · exact .refl c s
    · exact .freezeZone c s _ true
  · exact .refl c s

theorem WaitKept.freezeFront (c : CarrierId) (s : State) : WaitKept c s (s.freezeFront c) := by
  unfold State.freezeFront
  split
  · exact .freezeZone c s _ false
  · exact .refl c s

theorem WaitKept.freeze (c : CarrierId) (s : State) : WaitKept c s (s.freeze c) := (WaitKept.freezeRear c s).trans (.freezeFront c _)

theorem WaitKept.rearFirst (c : CarrierId) (s : State) : WaitKept c s (s.rearFirst c) :=
  .modCarrier c s _ rfl rfl (fun e h _ => by
    rcases List.mem_append.1 h with h | h
    · exact (List.mem_filter.1 h).1
    · exact (List.mem_filter.1 h).1)

theorem WaitKept.fieldsFollow (c : CarrierId) (before after : State) : WaitKept c after (before.fieldsFollow after) := by
  unfold State.fieldsFollow
  exact .fold c State.setFieldState (fun t z => .fieldState c t z) _ _

theorem WaitKept.filterInputs (c : CarrierId) (s : State) (read : FieldSlotId → LineId → Bool) : WaitKept c s (s.filterInputs read) := by
  have e := (filterInputs_only s read).1
  generalize s.filterInputs read = t at e
  rw [e]
  exact .same c (fun _ => rfl) (fun _ => rfl) rfl rfl rfl rfl

end Sys2Proof.Machine
end

