-- ==== Sys2Proof/Tests/Slice0.lean ====
section
/-! SUPPORT. Tests: ill-formed commands, messages and words written out from the spec, one step of each family on a small district, and a witness for the hypotheses of each statement. -/

namespace Sys2Proof.Tests

open Sys2Proof.Machine

set_option Elab.async false

/-! ## Ill-formed commands -/

theorem test_thirty_hops_are_ill_formed : (Instr.writeHops .operator 0 (List.replicate 30 (0, 0))).wellFormed = false := by decide

theorem test_twenty_nine_hops_are_well_formed : (Instr.writeHops .operator 0 (List.replicate 29 (0, 0))).wellFormed = true := by decide

theorem test_an_entry_of_the_summary_is_ill_formed : (Instr.readHolds .operator 0 3 0).wellFormed = false := by decide

theorem test_a_starting_index_of_the_summary_is_ill_formed : (Instr.readHolds .operator 0 0 1).wellFormed = false := by decide

theorem test_an_expiry_that_names_a_part_twice_is_ill_formed :
    (Instr.frameTimerExpiry (.engine :: ExpiryPart.all)).wellFormed = false := by decide

theorem test_an_expiry_that_departs_before_it_closes_is_ill_formed :
    (Instr.frameTimerExpiry [.floorDepart, .floorClose, .dispatchClose, .engine, .operatorCompletion, .safetyCompletion,
      .dispatchDepart]).wellFormed = false ∧
    (Instr.frameTimerExpiry [.dispatchDepart, .floorClose, .dispatchClose, .engine, .operatorCompletion, .safetyCompletion,
      .floorDepart]).wellFormed = false := by decide

theorem test_a_floor_frame_without_a_block_is_ill_formed :
    (Instr.floorFrameArrival [.validator, .monitor, .management] []).wellFormed = false ∧
    (Instr.floorPortReturn [.validator, .monitor, .management] []).wellFormed = false := by decide

/-! ## Words and messages -/

/-- No row of the table gives bits. -/
theorem test_no_word_spells_a_command :
    decodeTableWord 8 0x01 = none ∧ (State.reset.withFetchWord 8 0x01).pending = [] := ⟨rfl, rfl⟩

/-- The check word of the nine digits, the known value of this CRC (R149). -/
theorem test_the_check_word_of_the_nine_digits :
    crc [0x31, 0x32, 0x33, 0x34, 0x35, 0x36, 0x37, 0x38, 0x39] = 0x29B1 := by decide +kernel

/-- Messages of tables and routes, byte by byte from R159 and R160. -/
theorem test_messages_of_tables_decode :
    decodeMessage .operator [0x01, 0] = some (.identify .operator) ∧
    decodeMessage .operator [0x02, 1, 239] = some (.readZone .operator 239) ∧
    decodeMessage .safety [0x03, 11, 53, 1, 1, 2, 255, 0, 3, 2, 0, 3, 2] =
      some (.writeZone .safety ⟨53, 1, 1, 2, 255, 0, 3, 2, 0, 3, 2⟩) ∧
    decodeMessage .operator [0x06, 1, 9] = some (.readZoneState .operator 9 0) ∧
    decodeMessage .operator [0x06, 2, 9, 4] = some (.readZoneState .operator 9 4) ∧
    decodeMessage .operator [0x09, 3, 7, 1, 2] = some (.writeCorridor .operator 7 1 2) ∧
    decodeMessage .operator [0x0D, 10, 20, 1, 0x01, 0x2C, 0, 4, 1, 0, 2, 255] =
      some (.writeRoute .operator ⟨20, 1, 300, 4, 1, 2, 255⟩) ∧
    decodeMessage .operator [0x0F, 5, 0x01, 0x92, 1, 62, 1] = some (.writeHops .operator 402 [(62, 1)]) := by decide +kernel

/-- Messages of carriers, holds and the district, byte by byte from R159 and R160. -/
theorem test_messages_of_carriers_and_holds_decode :
    decodeMessage .operator [0x10, 3, 11, 71, 70] = some (.admitCarrier .operator 11 71 70) ∧
    decodeMessage .operator [0x13, 5, 11, 0, 4, 1, 0] = some (.setCarrier .operator 11 0 4 1 0) ∧
    decodeMessage .operator [0x19, 4, 9, 15, 0x03, 0x34] = some (.replaceRoute .operator 9 15 820) ∧
    decodeMessage .operator [0x1A, 2, 1, 8] = some (.readHolds .operator 1 8 0) ∧
    decodeMessage .operator [0x1D, 2, 0x07, 0xFF] = some (.setEventMask .operator 0x07FF) ∧
    decodeMessage .operator [0x1F, 6, 0, 40, 0, 10, 0x01, 0x90] = some (.writeDistrictParameters .operator 40 10 400) ∧
    decodeMessage .safety [0x34, 1, 2] = some (.liftHold .safety 2) ∧
    decodeMessage .safety [0x35, 8, 0, 0, 0, 1, 0, 1, 1, 2] = some (.writePolicy .safety #v[0, 0, 0, 1, 0, 1, 1, 2]) := by
  decide +kernel

/-- A length that runs past the message, a length the type does not take, and an unknown type (R163). -/
theorem test_malformed_messages :
    decodeMessage .operator [0x02, 1] = none ∧ decodeMessage .operator [0x02, 2, 1, 1] = none ∧
    decodeMessage .operator [0x07, 0] = none := by decide

/-! ## A small district -/

/-- What a slot's machine answers after a command, from its type byte on. -/
def answer (slot : MgmtSlot) (i : Instr) (s : State) : List Byte :=
  match (stateAfter s (exec i s)).machine slot with
  | .answering m _ => m
  | _ => []

/-- The state after a command. -/
def after (i : Instr) (s : State) : State := stateAfter s (exec i s)

def plainZone : ZoneRecord := ⟨true, false, 0, none, 0, [], none, none⟩

def reported (front rear : ZoneId) (code : Fin 8) : Validated := ⟨true, ⟨some front, some rear, .stopped, code⟩⟩

/-- SERVICE mode and both ports SYNCED; zones 1, 2, 3 and 5, of which 2 is no-stop; zone 4 in corridor 1, bound to input 2 of field slot 3; route 5 over hops 10 to 12, zones 1 to 3. -/
def floor : State :=
  let s := { State.reset with
    mode := .service, floorPort := ⟨.synced, 0, 0, 0, .none⟩, dispatchPort := ⟨.synced, 0, 0, 0, .none⟩ }
  let s := ((s.setZone 1 plainZone).setZone 2 { plainZone with noStop := true }).setZone 3 plainZone
  let s := (s.setZone 4 ⟨true, false, 1, some 1, 0, [], some ⟨3, 2, .clearWhenSet⟩, none⟩).setZone 5 { plainZone with sector := 2 }
  let s := (s.setZst 4 ⟨none, [], .unclear, false⟩).setCorridor 1 ⟨true, 2⟩
  ((s.setRoute 5 ⟨true, 10, 3, .stop, 0, none, 0⟩).setHop 10 ⟨1, 3⟩ |>.setHop 11 ⟨2, 2⟩).setHop 12 ⟨3, 1⟩

/-- The floor with carrier 7 IDLE in zone 1, slot 9 VACANT but reported in zone 3, and carrier 11 FAULTED in zone 5. -/
def district : State :=
  let s := floor.modCarrier 7 (fun r => { r with state := .idle, report := reported 1 1 0, held := [⟨1, .granted, none⟩] })
  let s := s.modCarrier 9 (fun r => { r with report := reported 3 3 0 })
  let s := s.modCarrier 11 (fun r => { r with
    state := .faulted, report := reported 5 5 0, held := [⟨5, .granted, none⟩], fault := some .drive })
  (s.setZst 1 ⟨some 7, [], .unbound, false⟩).setZst 5 ⟨some 11, [], .unbound, false⟩

/-- The district with carrier 7 ADVANCING on route 5. -/
def rolling : State :=
  (district.modCarrier 7 (fun r => { r with state := .advancing, route := some 5, cursor := .hop 11 })).setRoute 5
    ⟨true, 10, 3, .stop, 0, none, 1⟩

/-- The district with carrier 7 WAITING for zone 3, which carrier 9 holds. -/
def waiting : State :=
  let s := rolling.modCarrier 7 (fun r => { r with state := .waiting, wait := .zone 3 })
  let s := s.modCarrier 9 (fun r => { r with state := .idle, held := [⟨3, .granted, none⟩] })
  s.setZst 3 ⟨some 9, [⟨7, .zone, .normal, 0⟩], .unbound, false⟩

theorem ready_district (slot : MgmtSlot) : district.ready slot := by
  cases slot <;> exact ⟨by decide +kernel, by decide +kernel⟩

theorem ready_rolling (slot : MgmtSlot) : rolling.ready slot := by
  cases slot <;> exact ⟨by decide +kernel, by decide +kernel⟩

theorem ready_waiting (slot : MgmtSlot) : waiting.ready slot := by
  cases slot <;> exact ⟨by decide +kernel, by decide +kernel⟩

/-! ## Witnesses and steps: the queue and the slot machines -/

theorem test_hypotheses_of_StepTakesTheFrontCommand :
    ({ State.reset with pending := [.resetPin, .identify .operator] } : State).pending = .resetPin :: [.identify .operator] := rfl

theorem test_hypotheses_of_NoStepStops : State.reset.pending = [] := rfl

theorem test_hypotheses_of_ABusySlotDiscardsItsCommands :
    (Instr.identify .safety).slotOf = some .safety ∧
    ((district.setMachine .safety (.executing .checksum 0 false)).machine .safety).busy = true ∧
    ((district.setMachine .safety (.answering [1] 0)).machine .safety).busy = true ∧
    ({ district with resetPin := true } : State).resetPin = true := by decide +kernel

theorem test_a_busy_slot_discards : after (.resume .safety) (district.setMachine .safety (.answering [1] 0)) =
    district.setMachine .safety (.answering [1] 0) := rfl

theorem test_hypotheses_of_SafetyCommandsAreNotPermittedInTheOperatorSlot : district.ready .operator := ready_district _

theorem test_a_safety_command_in_the_operator_slot : answer .operator (.resume .operator) district = [0x31, 2, 0] := by
  decide +kernel

/-! ## Resets -/

theorem test_hypotheses_of_TheThreeResetsComplete :
    district.resetPin = false ∧ ({ district with resetPin := true } : State).resetPin = true ∧ district.ready .safety :=
  ⟨by decide +kernel, rfl, ready_district _⟩

/-- A state after each reset, for the six statements of what resets leave. -/
theorem test_hypotheses_of_the_statements_of_resets (s : State) (h : s.resetPin = false) (r : s.ready .safety) :
    (∃ t, AfterPowerOn s t) ∧ (∃ t, AfterPinReset s t) ∧ (∃ t, AfterResetCommand s t) ∧
    (∃ t, AfterKeepingReset s t) ∧ ∃ t, AfterReset s t :=
  ⟨⟨_, 0, rfl⟩, ⟨_, h, rfl⟩, ⟨_, r, rfl⟩, ⟨_, .inl ⟨h, rfl⟩⟩, ⟨_, .inl ⟨0, rfl⟩⟩⟩

/-- A pin reset keeps the zone records and makes every carrier VACANT (R2, R53). -/
theorem test_a_pin_reset :
    (after .resetPin district).zone 4 = district.zone 4 ∧ ((after .resetPin district).zst 4).field = .unclear ∧
    (after .resetPin district).carrier 7 = .cleared ∧ (after .resetPin district).holder 1 = none ∧
    (after .resetPin district).resetCause = .resetPin ∧ (after .resetPin district).resetPin = true := by decide +kernel

theorem test_power_on_and_release :
    (after (.powerOnReset 5) district).zone 4 = .cleared ∧ (after (.powerOnReset 5) district).districtCode = 5 ∧
    (after (.resetPinRelease 6) (after .resetPin district)).districtCode = 6 ∧
    ((after (.reset .safety) district).machine .safety) = .idle := by decide +kernel

/-! ## Reads -/

theorem test_hypotheses_of_IdentifyAndTheDistrictParameters :
    district.ready .operator ∧
    ((3 : Half).toNat < 4 ∧ 255 < (256 : Half).toNat ∧ (0 : Half).toNat < 1 ∧ (39 : Half).toNat < 40 ∧ 2000 < (2001 : Half).toNat) ∧
    (4 ≤ (4 : Half).toNat ∧ (255 : Half).toNat ≤ 255 ∧ 1 ≤ (1 : Half).toNat ∧ 40 ≤ (40 : Half).toNat ∧ (2000 : Half).toNat ≤ 2000) :=
  ⟨ready_district _, by decide, by decide⟩

theorem test_identify_and_the_parameters :
    answer .operator (.identify .operator) district = [0x01, 0, 7, 0x4C, 0x18, 0x04, 1, 0, 1, 1] ∧
    answer .operator (.readDistrictParameters .operator) district = [0x1E, 0, 6, 0, 40, 0, 10, 0x01, 0x90] ∧
    answer .operator (.writeDistrictParameters .operator 3 1 40) district = [0x1F, 4, 0] ∧
    (after (.writeDistrictParameters .operator 255 1 2000) district).starvationLimit = 2000 := by decide +kernel

theorem test_hypotheses_of_the_statements_of_reads :
    district.ready .operator ∧ 240 ≤ (240 : Byte).toNat ∧ 32 ≤ (32 : Byte).toNat ∧ 128 ≤ (128 : Byte).toNat ∧
    48 ≤ (48 : Byte).toNat ∧ 1 < (2 : Byte).toNat ∧ 2 < (3 : Byte).toNat ∧ 8 < (9 : Byte).toNat ∧
    (district.carrier 7 = district.carrier 7 ∧ (district.carrier 7).faultRecord = (district.carrier 7).faultRecord) :=
  ⟨ready_district _, by decide, by decide, by decide, by decide, by decide, by decide, by decide, rfl, rfl⟩

/-- The bounds of Read Hops: no hop, too many, past the store, and 12 hops that end at its last (R50). -/
theorem test_hypotheses_of_ReadsOfTheRoutesAndHops :
    (0 : Byte) = 0 ∧ 12 < (13 : Byte).toNat ∧ 2047 < (2037 : Half).toNat + (12 : Byte).toNat - 1 ∧
    1 ≤ (12 : Byte).toNat ∧ (12 : Byte).toNat ≤ 12 ∧ (2036 : Half).toNat + (12 : Byte).toNat ≤ 2048 := by decide

theorem test_reads_of_zones_and_corridors :
    answer .operator (.readZone .operator 240) district = [0x02, 4, 0] ∧
    answer .operator (.readZone .operator 4) district = [0x02, 0, 11, 1, 0, 1, 1, 0, 0, 3, 2, 0, 255, 0] ∧
    answer .operator (.readZoneState .operator 3 0) waiting = [0x06, 0, 7, 9, 0, 0, 0, 1, 7, 1] ∧
    answer .operator (.readCorridorState .operator 1 0) district = [0x0A, 0, 6, 0, 0, 0, 2, 0, 0] := by decide +kernel

theorem test_reads_of_routes_and_carriers :
    answer .operator (.readRoute .operator 5) district = [0x0C, 0, 10, 1, 0, 10, 0, 3, 0, 0, 0, 255, 0] ∧
    answer .operator (.readHops .operator 10 3) district = [0x0E, 0, 6, 1, 3, 2, 2, 3, 1] ∧
    answer .operator (.readCarrier .operator 7 0) district =
      [0x16, 0, 28, 1, 1, 1, 128, 1, 1, 255, 0xFF, 0xFF, 0, 0, 0, 3, 0, 0, 0, 255, 0, 0, 0, 255, 0, 255, 0, 0, 0, 0, 0] ∧
    answer .operator (.readCarrier .operator 7 1) district = [0x16, 0, 6, 1, 1, 0, 255, 0xFF, 0xFF] ∧
    answer .operator (.readFaultRecord .operator 7 1) district = [0x17, 0, 0] := by decide +kernel

theorem test_reads_of_holds_and_events :
    answer .safety (.readHolds .safety 3 0 0) district = [0x1A, 4, 0] ∧
    answer .safety (.readHolds .safety 1 8 0) district = [0x1A, 0, 1, 0] ∧
    answer .safety (.readHolds .safety 0 0 0) district = [0x1A, 0, 40] ++ List.replicate 31 0 ++ [0, 0, 0, 1, 0, 1, 1, 2, 0] ∧
    answer .safety (.readDeadlockRecord .safety) district = [0x1B, 0, 19, 0, 0, 0] ++ List.replicate 16 255 ∧
    answer .safety (.readEvents .safety) district = [0x1C, 0, 49] ++ List.replicate 48 0 ++ [0x20] ∧
    (after (.readEvents .safety) district).flags.reset = false ∧
    (after (.setEventMask .safety 0xFFFE) district).masks = 0x7FE := by decide +kernel

theorem test_hypotheses_of_EventsAndTheirMasks : district.ready .safety := ready_district _

/-! ## Table writes -/

/-- The district with four pairs in the list of zone 1. -/
def paired : State :=
  (((district.setZone 1 { plainZone with conflicts := [2, 6, 7, 8] }).setZone 2 { plainZone with noStop := true, conflicts := [1] }).setZone
    6 { plainZone with conflicts := [1] }).setZone 7 { plainZone with conflicts := [1] } |>.setZone 8 { plainZone with conflicts := [1] }

theorem ready_paired (slot : MgmtSlot) : paired.ready slot := by
  cases slot <;> exact ⟨by decide +kernel, by decide +kernel⟩

theorem test_hypotheses_of_SetConflictPairFollowsItsTable :
    paired.ready .operator ∧ district.ready .operator ∧
    (240 ≤ (240 : Byte).toNat ∧ (3 : Byte) = 3) ∧ (2 : ZoneId) ∈ (paired.zone 1).conflicts ∧
    ((3 : ZoneId) ∉ (paired.zone 1).conflicts ∧ 4 ≤ (paired.zone 1).conflicts.length) ∧
    ((5 : ZoneId) ∉ (district.zone 1).conflicts ∧ (district.zone 1).conflicts.length < 4 ∧ (district.zone 5).conflicts.length < 4 ∧
      district.holder 1 = some 7 ∧ district.holder 5 = some 11) ∧
    ((3 : ZoneId) ∉ (district.zone 1).conflicts ∧ district.holder 3 = none) :=
  ⟨ready_paired _, ready_district _, by decide, by decide +kernel, by decide +kernel, by decide +kernel, by decide +kernel⟩

theorem test_set_conflict_pair :
    answer .operator (.setConflictPair .operator 1 1) district = [0x04, 4, 0] ∧
    answer .operator (.setConflictPair .operator 1 2) paired = [0x04, 0, 0] ∧
    answer .operator (.setConflictPair .operator 1 3) paired = [0x04, 11, 0] ∧
    answer .operator (.setConflictPair .operator 1 5) district = [0x04, 5, 0] ∧
    ((after (.setConflictPair .operator 1 3) district).zone 3).conflicts = [1] := by decide +kernel

theorem test_hypotheses_of_ClearConflictPairWakesBothZones :
    paired.ready .operator ∧ (3 : ZoneId) ∉ (paired.zone 1).conflicts ∧ (2 : ZoneId) ∈ (paired.zone 1).conflicts ∧
    ∀ w ∈ (paired.zst 1).queue ++ (paired.zst 2).queue, w.cause ≠ .conflict :=
  ⟨ready_paired _, by decide +kernel, by decide +kernel, by decide +kernel⟩

theorem test_clear_conflict_pair :
    ((after (.clearConflictPair .operator 1 2) paired).zone 1).conflicts = [6, 7, 8] ∧
    ((after (.clearConflictPair .operator 1 2) paired).zone 2).conflicts = [] := by decide +kernel

theorem test_hypotheses_of_AWriteZoneIsRefused :
    district.ready .safety ∧
    (8 ≤ (8 : Byte).toNat ∧ (32 ≤ (254 : Byte).toNat ∧ (254 : Byte) ≠ 255) ∧ 16 ≤ (16 : Byte).toNat ∧ (16 : Byte) ≠ 255 ∧ 8 ≤ (8 : Byte).toNat) ∧
    ((district.zone 1).defined = true ∧ district.holder 1 ≠ none ∧ (plainZone : ZoneRecord).sector ≠ 1) ∧
    ((district.zone 2).defined = true ∧ district.holder 2 = none ∧ (district.zst 2).queue = [] ∧
      (district.route 5).defined = true ∧ (∃ x ∈ district.hopRange 5, district.hopZone x.hop = 2) ∧
      ∀ p < (5 : RouteId), (district.route p).defined = false) ∧
    ((district.zone 6).defined = false ∧ (district.corridor 2).defined = false ∧ (district.corridor 1).defined = true) ∧
    ((district.zone 4).corridor = some 1 ∧ (district.zone 4).position = 0 ∧ ∀ v < (4 : ZoneId), (district.zone v).corridor = none) :=
  ⟨ready_district _, by decide, by decide +kernel, by decide +kernel, by decide +kernel, by decide +kernel⟩

theorem test_refused_zone_writes :
    answer .safety (.writeZone .safety (zoneWriteOf 1 { plainZone with sector := 1 })) district = [0x03, 5, 0] ∧
    answer .safety (.writeZone .safety (zoneWriteOf 2 ZoneRecord.cleared)) district = [0x03, 12, 3, 9, 0, 5] ∧
    answer .safety (.writeZone .safety (zoneWriteOf 6 { plainZone with corridor := some 2 })) district = [0x03, 12, 3, 10, 0, 2] ∧
    answer .safety (.writeZone .safety (zoneWriteOf 6 { plainZone with corridor := some 1 })) district = [0x03, 12, 3, 11, 0, 4] := by
  decide +kernel

/-- The rolling district with carrier 7 covered and waiting for that. -/
def heldBack : State := rolling.modCarrier 7 (fun r => { r with state := .waiting, wait := .hold })

/-- The rolling district with zone 3 in corridor 1, at the place after zone 4, and carrier 7 waiting for the corridor. -/
def kept : State :=
  (rolling.modCarrier 7 (fun r => { r with state := .waiting, wait := .corridor 1 })).setZone 3
    { plainZone with corridor := some 1, position := 1 }

/-- The district with zone 8 in corridor 1, after zone 4. -/
def inline : State := district.setZone 8 { plainZone with corridor := some 1, position := 1 }

theorem test_hypotheses_of_AWriteZoneIsRefused_by_its_guard :
    heldBack.awaited 2 ∧ kept.awaited 3 ∧ (heldBack.zone 2).defined = true ∧ (kept.zone 3).defined = true ∧
    ¬ZoneRecord.sameLayout { plainZone with sector := 1 } (heldBack.zone 2) ∧ district.routeNames 5 2 ∧
    ∀ p < (5 : RouteId), ¬district.routeNames p 2 :=
  ⟨⟨7, by decide +kernel, .inl ⟨by decide +kernel, ⟨5, 11⟩, by decide +kernel, by decide +kernel⟩⟩,
    ⟨7, by decide +kernel, .inr ⟨1, by decide +kernel, ⟨5, 12⟩, by decide +kernel, by decide +kernel⟩⟩, by decide +kernel,
    by decide +kernel, fun h => absurd h.2.1 (by decide +kernel), ⟨by decide +kernel, ⟨5, 11⟩, by decide +kernel, by decide +kernel⟩,
    fun p h n => absurd n.1 ((by decide +kernel : ∀ p < (5 : RouteId), ¬(district.route p).defined = true) p h)⟩

theorem passes_undefined (r : ZoneRecord) : district.passesGuard 6 r := fun h => absurd h (by decide +kernel)

theorem passes_corridor (r : ZoneRecord) (h : r.corridor = none) :
    district.passesCorridorChecks (district.setZone 6 (writtenZone .safety (district.zone 6) r)) 6 r :=
  ⟨fun k _ e => absurd (h ▸ e) (by simp), fun k _ e => absurd (show district.corridorOfZone 6 = some k from e) (by
    rw [show district.corridorOfZone 6 = none by decide +kernel]; simp)⟩

theorem test_hypotheses_of_AWriteZoneIsRefused_by_its_corridor :
    (district.corridor 2).defined = false ∧ district.corridorOfZone 4 = some 1 ∧
    (district.zone 4).position = ({ plainZone with corridor := some 1 } : ZoneRecord).position ∧
    (∀ v < (4 : ZoneId), district.corridorOfZone v ≠ some 1) ∧
    district.placeFree 6 { plainZone with corridor := some 1, position := 2 } 1 ∧
    ¬(district.setZone 6 (writtenZone .safety (district.zone 6) { plainZone with corridor := some 1, position := 2 })).positionsRun 1 ∧
    inline.passesGuard 4 plainZone ∧ inline.corridorOfZone 4 = some 1 ∧
    ¬(inline.setZone 4 (writtenZone .safety (inline.zone 4) plainZone)).positionsRun 1 := by
  refine ⟨by decide +kernel, by decide +kernel, by decide +kernel, by decide +kernel, ⟨by decide +kernel, by decide +kernel⟩,
    fun h => ?_, fun _ => ⟨fun e => absurd e (by decide), fun _ _ => ⟨by decide +kernel, by decide +kernel, ?_⟩⟩, by decide +kernel, fun h => ?_⟩
  · exact absurd ((gapFree_iff _ _).2 h) (by decide +kernel)
  · exact fun a => absurd ((zoneAwaited_iff _ _).2 a) (by decide +kernel)
  · exact absurd ((gapFree_iff _ _).2 h) (by decide +kernel)

/-- A zone bound to zone 4's input with the other polarity. -/
def crossed : ZoneRecord := { plainZone with fieldBinding := some ⟨3, 2, .clearWhenReset⟩ }

theorem test_hypotheses_of_AWriteZoneIsRefused_by_a_binding_or_a_route :
    district.passesCorridorChecks (district.setZone 6 (writtenZone .safety (district.zone 6) crossed)) 6 crossed ∧
    ((district.setZone 6 (writtenZone .safety (district.zone 6) crossed)).zone 6).fieldBinding = some ⟨3, 2, .clearWhenReset⟩ ∧
    district.bindsAgainst 4 ⟨3, 2, .clearWhenReset⟩ ∧ (∀ v < (4 : ZoneId), ¬district.bindsAgainst v ⟨3, 2, .clearWhenReset⟩) ∧
    district.passesGuard 3 { plainZone with noStop := true } ∧
    (district.setZone 3 (writtenZone .safety (district.zone 3) { plainZone with noStop := true })).routeTouches 5 3 ∧
    (district.setZone 3 (writtenZone .safety (district.zone 3) { plainZone with noStop := true })).routeCheck 5 =
      some ⟨.lastNoStop, 12⟩ ∧
    ∀ p < (5 : RouteId),
      ¬(district.setZone 3 (writtenZone .safety (district.zone 3) { plainZone with noStop := true })).routeTouches p 3 := by
  refine ⟨passes_corridor _ rfl, by decide +kernel, ⟨by decide +kernel, ⟨3, 2, .clearWhenSet⟩, by decide +kernel, rfl, rfl, by decide⟩, fun v h b => ?_,
    fun _ => ⟨fun e => absurd e (by decide), fun _ _ => ⟨by decide +kernel, by decide +kernel, ?_⟩⟩, .inl ⟨by decide +kernel, ⟨5, 12⟩, by decide +kernel,
    by decide +kernel⟩, by decide +kernel, fun p h t => ?_⟩
  · exact absurd ((opposes_iff _ _ _).2 b) ((by decide +kernel :
      ∀ v < (4 : ZoneId), ¬district.opposes ⟨3, 2, .clearWhenReset⟩ v = true) v h)
  · exact fun a => absurd ((zoneAwaited_iff _ _).2 a) (by decide +kernel)
  · exact absurd ((mem_routesTouching _ _ _).2 t) ((by decide +kernel : ∀ p < (5 : RouteId), p ∉
      (district.setZone 3 (writtenZone .safety (district.zone 3) { plainZone with noStop := true })).routesTouching 3) p h)

theorem test_more_refused_zone_writes :
    answer .safety (.writeZone .safety (zoneWriteOf 2 { plainZone with sector := 1 })) heldBack = [0x03, 5, 0] ∧
    answer .safety (.writeZone .safety (zoneWriteOf 6 { plainZone with corridor := some 1, position := 2 })) district = [0x03, 12, 3, 12, 0, 1] ∧
    answer .safety (.writeZone .safety (zoneWriteOf 6 crossed)) district = [0x03, 12, 3, 13, 0, 4] ∧
    answer .safety (.writeZone .safety (zoneWriteOf 3 { plainZone with noStop := true })) district = [0x03, 12, 3, 4, 0, 5] := by
  decide +kernel

/-- A zone written anew, and the no-stop zone of route 5 made stop-allowed: no check refuses them. -/
theorem test_hypotheses_of_AWriteZoneIsApplied :
    district.ready .operator ∧
    (∀ r : ZoneRecord, r = { plainZone with requestBinding := some ⟨3, 2⟩ } →
      district.passesGuard 6 r ∧ district.passesCorridorChecks (district.setZone 6 (writtenZone .safety (district.zone 6) r)) 6 r ∧
      ((district.setZone 6 (writtenZone .operator (district.zone 6) r)).zone 6).fieldBinding = none) ∧
    (¬district.awaited 2 → district.passesGuard 2 plainZone) ∧ (∃ q, (district.setZone 2 plainZone).routeTouches q 2) ∧
    (∀ q, (district.setZone 2 plainZone).routeTouches q 2 → (district.setZone 2 plainZone).routeCheck q = none) ∧
    ((district.zst 4).field = .unclear ∧ (district.layZone 4 plainZone |>.zst 4).field ≠ .unclear) := by
  refine ⟨ready_district _, fun r h => ⟨passes_undefined r, ?_, ?_⟩, fun n _ => ⟨fun e => absurd e (by decide), fun _ _ =>
    ⟨by decide +kernel, by decide +kernel, n⟩⟩, ⟨5, .inl ⟨by decide +kernel, ⟨5, 11⟩, by decide +kernel, by decide +kernel⟩⟩, fun q t => ?_, by decide +kernel⟩
  · exact passes_corridor r (h ▸ rfl)
  · subst h; decide +kernel
  · exact (by decide +kernel : ∀ q ∈ (district.setZone 2 plainZone).routesTouching 2, (district.setZone 2 plainZone).routeCheck q = none) q
      ((mem_routesTouching _ _ _).2 t)

theorem test_applied_zone_writes :
    answer .operator (.writeZone .operator (zoneWriteOf 6 { plainZone with requestBinding := some ⟨3, 2⟩ })) district = [0x03, 1, 0] ∧
    (after (.writeZone .operator (zoneWriteOf 6 { plainZone with requestBinding := some ⟨3, 2⟩ })) district).zone 6 = plainZone ∧
    (after (.writeZone .safety (zoneWriteOf 6 { plainZone with requestBinding := some ⟨3, 2⟩ })) district).zone 6 =
      { plainZone with requestBinding := some ⟨3, 2⟩ } := by decide +kernel

/-- Zone 6 with a binding of its own or none. -/
def boundZone (b : Option FieldBinding) : ZoneRecord := { plainZone with fieldBinding := b }

/-- The district with zone 6 bound to an input that no other zone binds, and to zone 4's. -/
def alone : State := (district.setZone 6 (boundZone (some ⟨0, 7, .clearWhenReset⟩))).setInput 0 7 ⟨true, 12, .clearWhenReset⟩
def shared : State := (district.setZone 6 (boundZone (some ⟨3, 2, .clearWhenSet⟩))).setInput 3 2 ⟨true, 12, .clearWhenSet⟩

/-- The four ways an input can follow the bindings: its polarity changes, its last binding goes, another zone's stays, no binding names it. -/
theorem test_hypotheses_of_AWriteZoneIsApplied_with_a_binding :
    (∀ p ∈ [(alone, some (⟨0, 7, .clearWhenSet⟩ : FieldBinding)), (alone, none), (shared, none)],
      (p.1.zone 6).sameLayout (boundZone p.2) ∧ (p.1.zone 6).defined = (boundZone p.2).defined ∧ p.1.corridorOfZone 6 = none ∧
      ∀ b ∈ p.2, ∀ w, w ≠ 6 → p.1.opposes b w = false) ∧
    (alone.zone 6).fieldBinding = some ⟨0, 7, .clearWhenReset⟩ ∧ (∀ w p, ¬alone.boundElsewhere 6 w 0 7 p) ∧
    shared.boundElsewhere 6 4 3 2 .clearWhenSet ∧ (∀ x q, shared.boundElsewhere 6 x 3 2 q → q = .clearWhenSet) := by
  refine ⟨fun p m => ?_, by decide +kernel, fun w p h => ?_, ⟨by decide, by decide +kernel, by decide +kernel⟩, fun x q h => ?_⟩
  · simp only [List.mem_cons, List.not_mem_nil, or_false] at m
    rcases m with rfl | rfl | rfl <;> exact ⟨⟨by decide +kernel, by decide +kernel, by decide +kernel, by decide +kernel⟩, by decide +kernel,
      by decide +kernel, by decide +kernel⟩
  · have k : (alone.zone w).fieldBinding = none ∨ w = 6 ∨ w = 4 := (by decide +kernel : ∀ w, (alone.zone w).fieldBinding = none ∨ w = 6 ∨ w = 4) w
    rcases k with k | k | k
    · exact absurd (h.2.2.symm.trans k) nofun
    · exact h.1 k
    · subst k
      exact absurd h.2.2 (by cases p <;> decide +kernel)
  · have k : (shared.zone x).fieldBinding = none ∨ (shared.zone x).fieldBinding = some ⟨3, 2, .clearWhenSet⟩ :=
      (by decide +kernel : ∀ x, (shared.zone x).fieldBinding = none ∨ (shared.zone x).fieldBinding = some ⟨3, 2, .clearWhenSet⟩) x
    rcases k with k | k
    · exact absurd (h.2.2.symm.trans k) nofun
    · exact congrArg FieldBinding.polarity (Option.some.inj (h.2.2.symm.trans k))

theorem test_an_input_follows_its_bindings :
    ((after (.writeZone .safety (zoneWriteOf 6 (boundZone (some ⟨0, 7, .clearWhenSet⟩)))) alone).input 0 7) = ⟨false, 0, .clearWhenSet⟩ ∧
    ((after (.writeZone .safety (zoneWriteOf 6 (boundZone none))) shared).input 3 2) = ⟨true, 12, .clearWhenSet⟩ := by decide +kernel

/-- The district with carrier 7 in corridor 1, its count at 1. -/
def occupied : State := district.setCst 1 ⟨.flowing, some .ascending, [⟨7, some .ascending⟩], 1, []⟩

theorem test_hypotheses_of_WriteCorridorFollowsItsTable :
    district.ready .operator ∧ (32 ≤ (32 : Byte).toNat ∧ (0 : Byte).toNat = 0 ∧ 15 < (16 : Byte).toNat) ∧
    ((occupied.corridor 1).defined = true ∧ (occupied.cst 1).occupants ≠ []) ∧
    ((district.corridor 1).defined = true ∧ (district.cst 1).occupants = [] ∧ (district.cst 1).queue = [] ∧
      (district.zone 4).defined = true ∧ (district.zone 4).corridor = some 1 ∧
      ∀ w < (4 : ZoneId), (district.zone w).defined = true → (district.zone w).corridor ≠ some 1) ∧
    ((occupied.cst 1).flow = .flowing ∧ (occupied.cst 1).direction ≠ none ∧ 1 ≤ (occupied.cst 1).count) :=
  ⟨ready_district _, by decide, by decide +kernel, by decide +kernel, by decide +kernel⟩

theorem test_write_corridor :
    answer .operator (.writeCorridor .operator 1 0 2) occupied = [0x09, 5, 0] ∧
    answer .operator (.writeCorridor .operator 1 0 2) district = [0x09, 12, 3, 14, 0, 4] ∧
    ((after (.writeCorridor .operator 1 1 1) occupied).cst 1).flow = .draining ∧
    (after (.writeCorridor .operator 1 1 15) occupied).corridor 1 = ⟨true, 15⟩ := by decide +kernel

def stopRoute (first : HopIdx) (n : Nat) : RouteRecord := ⟨true, first, n, .stop, 0, none, 0⟩

theorem test_hypotheses_of_WriteRouteFollowsItsTable :
    district.ready .operator ∧
    (128 ≤ (128 : Byte).toNat ∧ (1 : Half).toNat < 2 ∧ 256 < (257 : Half).toNat ∧ 2047 < (2047 : Half).toNat + (2 : Half).toNat - 1) ∧
    ((stopRoute 1792 256).inRanges ∧ (stopRoute 2046 2).inRanges) ∧ 0 < (rolling.route 5).users ∧
    ((district.route 6).users = 0 ∧ district.mode = .service ∧
      district.writeRouteCheck 6 (storedRoute (district.route 6) (stopRoute 0 2)) = some ⟨.zoneUndefined, 0⟩) ∧
    district.writeRouteCheck 6 (storedRoute (district.route 6) (stopRoute 10 3)) = none :=
  ⟨ready_district _, by decide, ⟨⟨by decide, by decide, by decide, by decide⟩, ⟨by decide, by decide, by decide, by decide⟩⟩,
    by decide +kernel, by decide +kernel, by decide +kernel⟩

theorem test_write_route :
    answer .operator (.writeRoute .operator (routeWriteOf 5 (stopRoute 10 3))) rolling = [0x0D, 5, 0] ∧
    answer .operator (.writeRoute .operator (routeWriteOf 6 (stopRoute 0 2))) district = [0x0D, 12, 3, 1, 0, 0] ∧
    (after (.writeRoute .operator (routeWriteOf 6 { stopRoute 10 3 with lapCount := 9 })) district).route 6 = stopRoute 10 3 := by
  decide +kernel

theorem test_hypotheses_of_WriteHopsWritesAllOrNone :
    district.ready .operator ∧ (2048 < (2048 : Half).toNat + [(0, 0)].length ∧ 240 ≤ (240 : Byte).toNat ∧ 4 ≤ (4 : Byte).toNat) ∧
    (∃ r, (rolling.route r).defined = true ∧ 0 < (rolling.route r).users ∧ (rolling.route r).firstHop.val < 12 + 1 ∧
      12 < (rolling.route r).firstHop.val + (rolling.route r).hopCount) ∧
    (∀ r, (rolling.route r).defined = true → 0 < (rolling.route r).users → (rolling.route r).firstHop.val < 13 + 1 →
      (rolling.route r).firstHop.val + (rolling.route r).hopCount ≤ 13) ∧
    (district.setHop 11 ⟨0, 0⟩).writeHopsCheck 11 1 = some ⟨.zoneUndefined, 11⟩ :=
  ⟨ready_district _, by decide, ⟨5, by decide +kernel⟩, by decide +kernel, by decide +kernel⟩

theorem test_write_hops :
    answer .operator (.writeHops .operator 12 [(3, 0)]) rolling = [0x0F, 5, 0] ∧
    (after (.writeHops .operator 11 [(2, 1), (3, 2)]) district).hop 12 = ⟨3, 2⟩ := by decide +kernel

/-- A STOP route over different zones outside all corridors, the last stop-allowed, fails no row of R46. -/
theorem passes_plain {s : State} {r : RouteId} (n : Nat) (count : (s.route r).hopCount = n ∧ 0 < n ∧ n ≤ 6)
    (stop : (s.route r).endAction = .stop) (zones : ∀ a < n, (s.zone (s.routeZone r a)).defined = true ∧
      s.corridorOfZone (s.routeZone r a) = none ∧ s.readCorridor r a = none)
    (apart : ∀ a < n, ∀ b < a, s.routeZone r b ≠ s.routeZone r a) (last : s.noStop (s.routeZone r (n - 1)) = false) :
    s.routePasses r := by
  obtain ⟨rfl, pos, six⟩ := count
  have seam : s.hopOverSeam r = none := by unfold State.hopOverSeam; rw [stop]
  intro k hk i f
  cases k <;> simp only [routeRows, List.mem_cons, List.not_mem_nil, reduceCtorEq, or_false, or_true, or_self] at hk <;> unfold State.rowFails at f
  · obtain ⟨a, ha, e, _⟩ := f
    rw [(zones a ha).1] at e; cases e
  · exact absurd (stop.symm.trans f.1) (by decide)
  · rcases f with ⟨a, ha, e, _⟩ | ⟨a, b, hab, hb, _, e, _⟩ | ⟨x, hx, _⟩
    · exact apart (a + 1) ha a (Nat.lt_succ_self a) e
    · exact apart b hb a hab e
    · rw [seam] at hx; cases hx
  · rw [last] at f; cases f.1
  · obtain ⟨a, ha, _⟩ := f; omega
  · obtain ⟨a, k, ha, e, _⟩ := f
    rw [(zones a ha).2.1] at e; cases e
  · obtain ⟨k, a, _, _, v, _⟩ := f
    exact absurd v.2.1 (by rw [(zones a v.1).2.2]; exact nofun)

/-- The district with route 6, over hops 20 and 21, linked to route 5, whose hop 12 it ends before; hop 13 leads back to zone 1. -/
def linked : State :=
  ((district.setHop 13 ⟨1, 0⟩).setHop 20 ⟨1, 0⟩ |>.setHop 21 ⟨3, 0⟩).setRoute 6 ⟨true, 20, 2, .link, 0, some 5, 0⟩

theorem passes_moved : (linked.setRoute 5 (stopRoute 12 2)).routePasses 5 :=
  passes_plain 2 (by decide +kernel) (by decide +kernel) (by decide +kernel) (by decide +kernel) (by decide +kernel)

theorem linker_moved : (linked.setRoute 5 (stopRoute 12 2)).firstLinker 6 5 :=
  ⟨⟨by decide, by decide +kernel, by decide +kernel, by decide +kernel⟩, .inl ⟨⟨5, 12⟩, by decide +kernel, by decide +kernel⟩,
    fun p h l => absurd l.2.1 ((by decide +kernel : ∀ p < (6 : RouteId), p ≠ 5 → ¬((linked.setRoute 5 (stopRoute 12 2)).route p).defined = true) p h l.1)⟩

/-- A route that fails a row, one that passes, and one that passes while a seam into it fails, for a write of the route and for one of its hops. -/
theorem test_hypotheses_of_the_statements_of_route_checks :
    (district.setRoute 6 (stopRoute 0 2)).firstRow 6 ⟨.zoneUndefined, 0⟩ ∧ (stopRoute 12 2).inRanges ∧
    (stopRoute 12 2).firstHop ≠ (linked.route 5).firstHop ∧ (∀ q, ((linked.setRoute 5 (stopRoute 12 2)).route q).placed) ∧
    linked.linksTo 6 5 ∧ (∀ p < (6 : RouteId), ¬linked.linksTo p 5) ∧ (∀ q, ¬district.linksTo q 5) ∧
    district.linkersPass 5 ∧ district.routePasses 5 ∧ (linked.setRoute 5 (stopRoute 12 2)).rangeMeets 5 12 1 ∧
    (∀ q, (linked.setRoute 5 (stopRoute 12 2)).rangeMeets q 12 1 → q = 5) ∧
    (district.setHop 11 ⟨0, 0⟩).rangeMeets 5 11 1 ∧ (district.setHop 11 ⟨0, 0⟩).firstRow 5 ⟨.zoneUndefined, 11⟩ := by
  have none : ∀ q, ¬district.linksTo q 5 := fun q l =>
    absurd l.2.2.1 ((by decide +kernel : ∀ q : RouteId, (district.route q).endAction ≠ .link) q)
  refine ⟨⟨[], _, rfl, fun _ h => absurd h List.not_mem_nil, ⟨0, by decide +kernel, by decide +kernel, by decide +kernel⟩,
      fun i h => absurd h (Nat.not_lt_zero i)⟩, ⟨by decide, by decide, by decide, by decide⟩, by decide +kernel,
    fun q => (by decide +kernel : ∀ q, 2 ≤ ((linked.setRoute 5 (stopRoute 12 2)).route q).hopCount ∧
      ((linked.setRoute 5 (stopRoute 12 2)).route q).firstHop.val + ((linked.setRoute 5 (stopRoute 12 2)).route q).hopCount ≤ 2048) q,
    ⟨by decide, by decide +kernel, by decide +kernel, by decide +kernel⟩,
    fun p h l => absurd l.2.2.1 ((by decide +kernel : ∀ p < (6 : RouteId), (linked.route p).endAction ≠ .link) p h), none,
    fun q l => absurd l (none q),
    passes_plain 3 (by decide +kernel) (by decide +kernel) (by decide +kernel) (by decide +kernel) (by decide +kernel),
    ⟨by decide +kernel, by decide +kernel, by decide +kernel⟩, fun q m => ?_, ⟨by decide +kernel, by decide +kernel, by decide +kernel⟩,
    ⟨[], _, rfl, fun _ h => absurd h List.not_mem_nil, ⟨1, by decide +kernel, by decide +kernel, by decide +kernel⟩, ?_⟩⟩
  · apply Classical.byContradiction
    intro n
    have := (by decide +kernel : ∀ q : RouteId, q ≠ 5 → ((linked.setRoute 5 (stopRoute 12 2)).route q).defined = true →
      12 + 1 ≤ ((linked.setRoute 5 (stopRoute 12 2)).route q).firstHop.val) q n m.1
    exact absurd m.2.1 (Nat.not_lt.2 this)
  · rintro i h ⟨a, ha, e, rfl⟩
    have small : 10 + a < 11 := h
    have z : a = 0 := by omega
    rw [z] at e
    exact absurd e (by decide +kernel)

/-- The district with a Checksum EXECUTING in the safety slot. -/
def checking : State := district.setMachine .safety (.executing .checksum 0 false)

theorem test_hypotheses_of_TableWritesAreNotedByTheOtherSlot :
    (Instr.setConflictPair .operator 1 2).slotOf = some .operator ∧ (Instr.setConflictPair .operator 1 2).isReset = false ∧
    (checking.resetPin = false ∧ (checking.machine .operator).busy = false) ∧
    checking.machine (otherSlot .operator) = .executing .checksum 0 false ∧
    (Instr.identify .operator).writesTable = false ∧ (Instr.setConflictPair .operator 1 2).writesTable = true ∧
    ((after (.setConflictPair .operator 1 2) checking).zone 1 ≠ checking.zone 1) ∧
    (after (.setConflictPair .operator 1 5) checking).machine .operator = .answering [0x04, 5, 0] 0 ∧
    (Instr.writeCorridor .operator 1 1 2).writesTable = true ∧
    (after (.writeCorridor .operator 1 1 2) checking).machine .operator = .answering [0x09, 0, 0] 0 := by decide +kernel

theorem test_a_table_write_is_noted :
    (after (.setConflictPair .operator 1 2) checking).machine .safety = .executing .checksum 0 true ∧
    (after (.setConflictPair .operator 1 5) checking).machine .safety = .executing .checksum 0 false := by decide +kernel

/-! ## Carrier commands -/

theorem test_hypotheses_of_AdmitCarrierFollowsItsTable :
    district.ready .operator ∧ (48 ≤ (48 : Byte).toNat ∧ 240 ≤ (240 : Byte).toNat) ∧
    (∀ k, (∃ z : ZoneId, (z = 4 ∨ z = 4) ∧ district.corridorOfZone z = some k) → ∀ x ∈ (district.cst k).occupants, x.slot ≠ 9) ∧
    district.corridorOfZone 4 = some 1 ∧ district.corridorOfZone 3 ≠ some 1 ∧ ∃ x ∈ (occupied.cst 1).occupants, x.slot = 7 :=
  ⟨ready_district _, by decide, by decide +kernel, by decide +kernel, by decide +kernel, by decide +kernel⟩

/-- Slot 9 is admitted in zone 3; some refusals of the table of R58. -/
theorem test_admit_carrier :
    answer .operator (.admitCarrier .operator 48 3 3) district = [0x10, 4, 0] ∧
    answer .operator (.admitCarrier .operator 7 1 1) district = [0x10, 6, 0] ∧
    answer .operator (.admitCarrier .operator 9 3 2) district = [0x10, 8, 0] ∧
    ((after (.admitCarrier .operator 9 3 3) district).carrier 9).held = [⟨3, .granted, none⟩] ∧
    ((after (.admitCarrier .operator 9 4 4) (district.modCarrier 9 (fun r => { r with report := reported 4 4 0 }))).cst 1) =
      ⟨.flowing, none, [⟨9, none⟩], 0, []⟩ := by decide +kernel

theorem ranges_district : RangesOk district := by constructor <;> decide +kernel

theorem test_hypotheses_of_AssignRouteFollowsItsTable :
    district.ready .operator ∧ 48 ≤ (48 : Byte).toNat ∧ 128 ≤ (128 : Byte).toNat ∧ RangesOk district ∧ district.mode ≠ .safe ∧
    (district.carrier 7).state = .idle ∧ (district.route 5).defined = true ∧
    farthestHeld (district.carrier 7).held = some (district.hop (district.route 5).firstHop).zone :=
  ⟨ready_district _, by decide, by decide, ranges_district, by decide +kernel, by decide +kernel, by decide +kernel, by decide +kernel⟩

/-- The first pass of route 5 grants the passage of zones 2 and 3, which exhausts the route. -/
theorem test_assign_route :
    answer .operator (.assignRoute .operator 7 5) { district with mode := .safe } = [0x11, 7, 0] ∧
    answer .operator (.assignRoute .operator 11 5) district = [0x11, 6, 0] ∧
    answer .operator (.assignRoute .operator 7 6) district = [0x11, 4, 0] ∧
    answer .operator (.assignRoute .operator 7 5) (district.setHop 10 ⟨3, 3⟩) = [0x11, 12, 3, 15, 0, 10] ∧
    ((after (.assignRoute .operator 7 5) district).carrier 7).held =
      [⟨1, .granted, none⟩, ⟨2, .granted, some ⟨5, 11⟩⟩, ⟨3, .granted, some ⟨5, 12⟩⟩] ∧
    ((after (.assignRoute .operator 7 5) district).carrier 7).flags.routeEnd = true := by decide +kernel

theorem test_hypotheses_of_CancelRouteLeavesTheCarrierIdle :
    rolling.ready .operator ∧ 48 ≤ (48 : Byte).toNat ∧ ((rolling.carrier 9).state = .vacant ∧ (rolling.carrier 11).state = .faulted) ∧
    ((rolling.carrier 7).state ≠ .vacant ∧ (rolling.carrier 7).state ≠ .faulted ∧ (waiting.carrier 7).state = .waiting) ∧
    (rolling.pinToken ≠ some 7 ∧ ((rolling.carrier 7).held.map (·.zone)).Nodup ∧ rolling.frontIndex 7 = some 0) ∧
    (floor.modCarrier 7 (fun r => { r with state := .idle, held := [⟨1, .granted, none⟩] })).frontIndex 7 = none :=
  ⟨ready_rolling _, by decide, by decide +kernel, by decide +kernel, by decide +kernel, by decide +kernel⟩

/-- A stopped carrier keeps its front zone and gives up zone 3 ahead; a WAITING one leaves its queue. -/
theorem test_cancel_route :
    ((after (.cancelRoute .operator 7)
      (rolling.modCarrier 7 (fun r => { r with held := [⟨1, .granted, none⟩, ⟨3, .granted, none⟩] }))).carrier 7).held =
        [⟨1, .granted, none⟩] ∧
    ((after (.cancelRoute .operator 7) waiting).carrier 7).state = .idle ∧
    ((after (.cancelRoute .operator 7) waiting).zst 3).queue = [] ∧
    ((after (.cancelRoute .operator 7) waiting).route 5).users = 0 := by decide +kernel

theorem test_hypotheses_of_SetCarrierWritesTheParameters :
    rolling.ready .operator ∧ (1 < (2 : Byte).toNat ∧ (0 : Byte).toNat = 0 ∧ 8 < (9 : Byte).toNat) ∧
    (rolling.carrier 9).state = .vacant ∧ (rolling.carrier 7).state = .advancing ∧ (rolling.carrier 7).horizon ≠ 8 :=
  ⟨ready_rolling _, by decide, by decide +kernel, by decide +kernel, by decide +kernel⟩

theorem test_set_carrier :
    answer .operator (.setCarrier .operator 9 0 1 0 0) rolling = [0x13, 6, 0] ∧
    ((after (.setCarrier .operator 7 1 8 1 1) district).carrier 7).horizon = 8 ∧
    ((after (.setCarrier .operator 7 0 8 0 0) rolling).carrier 7).held.length = 3 := by decide +kernel

theorem test_hypotheses_of_FaultsAreClearedAndCarriersRetired :
    district.ready .operator ∧ (district.carrier 7).state ≠ .faulted ∧
    ((district.carrier 11).state = .faulted ∧ (district.carrier 11).report.present = true ∧
      (district.carrier 11).report.report.code = 0 ∧ district.front 11 = some 5 ∧ district.rear 11 = some 5 ∧
      district.holds 11 5 = true ∧ ((district.carrier 11).held.map (·.zone)).Nodup) ∧
    ((district.modCarrier 11 (fun r => { r with report := reported 5 5 2 })).carrier 11).report.report.code ≠ 0 ∧
    ((rolling.carrier 7).state ≠ .idle ∧ (rolling.carrier 7).state ≠ .faulted) ∧
    ((district.carrier 7).state = .idle ∧ (district.carrier 7).route = none) :=
  ⟨ready_district _, by decide +kernel, by decide +kernel, by decide +kernel, by decide +kernel, by decide +kernel⟩

/-- The district with zone 3 held by carrier 11 behind its rear zone. -/
def trailing : State := (district.modCarrier 11 (fun r => { r with held := ⟨3, .granted, none⟩ :: r.held })).setZst 3 ⟨some 11, [], .unbound, false⟩

theorem test_clear_fault_and_retire :
    answer .operator (.clearFault .operator 7) district = [0x14, 6, 0] ∧
    answer .operator (.clearFault .operator 11) (district.modCarrier 11 (fun r => { r with report := reported 5 5 2 })) =
      [0x14, 8, 0] ∧
    ((after (.clearFault .operator 11) district).carrier 11).state = .idle ∧
    ((after (.clearFault .operator 11) trailing).carrier 11).held = [⟨5, .granted, none⟩] ∧
    (after (.clearFault .operator 11) trailing).holder 3 = none ∧
    answer .operator (.retireCarrier .operator 7) rolling = [0x15, 6, 0] ∧
    ((after (.retireCarrier .operator 7) district).carrier 7).held = [] ∧
    (after (.retireCarrier .operator 7) district).holder 1 = none := by decide +kernel

/-- The rolling district, its operator slot watching carrier 7. -/
def watched : State := rolling.setWatch .operator ⟨some 7, true⟩

theorem test_hypotheses_of_WatchCarrierSetsTheWatch : rolling.ready .operator ∧ 48 ≤ (48 : Byte).toNat :=
  ⟨ready_rolling _, by decide⟩

theorem test_hypotheses_of_ReplaceRouteFollowsItsTable :
    (watched.resetPin = false ∧ (watched.machine .operator).busy = false) ∧
    (48 ≤ (48 : Byte).toNat ∧ 128 ≤ (128 : Byte).toNat ∧ 2048 ≤ (2048 : Half).toNat) ∧
    (watched.mode ≠ .safe ∧ watched.watch .operator = ⟨some 7, true⟩ ∧ (watched.route 5).defined = true ∧
      farthestGranted (watched.carrier 7).held = some (watched.hop 10).zone) ∧
    (({ district with linkFlag := true } : State).covered 7 = true ∧ (district.carrier 7).state = .idle ∧
      district.pinToken ≠ some 7 ∧ 10 + 1 < (district.route 5).firstHop.val + (district.route 5).hopCount) := by decide +kernel

theorem test_watch_and_replace :
    answer .operator (.watchCarrier .operator 7) rolling = [0x18, 0, 5, 2, 5, 0, 11, 1] ∧
    (after (.watchCarrier .operator 7) rolling).watch .operator = ⟨some 7, true⟩ ∧
    answer .operator (.replaceRoute .operator 7 5 10) rolling = [0x19, 15, 0] ∧
    answer .operator (.replaceRoute .operator 7 5 12) watched = [0x19, 12, 3, 15, 0, 12] ∧
    answer .operator (.replaceRoute .operator 7 5 13) watched = [0x19, 4, 0] ∧
    answer .operator (.replaceRoute .operator 7 5 10) watched = [0x19, 0, 0] ∧
    (after (.replaceRoute .operator 7 5 10) watched).watch .operator = ⟨none, false⟩ := by decide +kernel

/-- The watched district with carrier 7 WAITING, and with zone 3, the route's last, held as well. -/
theorem test_hypotheses_of_ReplaceRouteFollowsItsTable_waiting_and_at_the_last_hop :
    (((waiting.setWatch .operator ⟨some 7, true⟩).carrier 7).state = .waiting ∧
      farthestGranted ((waiting.setWatch .operator ⟨some 7, true⟩).carrier 7).held = some (waiting.hop 10).zone) ∧
    (farthestGranted ((watched.modCarrier 7 (fun r => { r with held := r.held ++ [⟨3, .granted, none⟩] })).carrier 7).held =
        some (watched.hop 12).zone ∧
      12 + 1 = (watched.route 5).firstHop.val + (watched.route 5).hopCount ∧ (watched.route 5).endAction = .stop) := by decide +kernel

/-- A WAITING carrier leaves its queue and claims anew; one that starts at the route's last hop is at its end at once. -/
theorem test_replacements :
    (after (.replaceRoute .operator 7 5 10) (waiting.setWatch .operator ⟨some 7, true⟩)).carrier 7 =
      { waiting.carrier 7 with flags := { (waiting.carrier 7).flags with state := true, wait := true } } ∧
    ((after (.replaceRoute .operator 7 5 12)
      (watched.modCarrier 7 (fun r => { r with held := r.held ++ [⟨3, .granted, none⟩] }))).carrier 7).state = .idle := by decide +kernel

/-! ## Holds, policy and the stop line -/

theorem test_hypotheses_of_HoldsSetTheManualFlag :
    district.ready .operator ∧ district.ready .safety ∧ 8 ≤ (8 : Byte).toNat := ⟨ready_district _, ready_district _, by decide⟩

theorem test_hold_sector_and_district :
    ((after (.holdSector .safety 7) district).sectorHold 7).manual = true ∧
    (after (.holdSector .safety 7) district).flags.holdChange = true ∧
    (after (.holdDistrict .safety) district).districtHold.manual = true ∧
    answer .safety (.holdSector .safety 8) district = [0x32, 4, 0] := by decide +kernel

/-- The district with causes in two entries: a carrier that is no longer FAULTED before one that is. -/
def blamed : State :=
  { district.setSectorHold 2 ⟨[(7, .lost), (11, .drive)], false⟩ with districtHold := ⟨[(7, .lost), (11, .drive)], true⟩ }

theorem test_hypotheses_of_HoldsAreLiftedAndThePolicyWritten :
    (blamed.resetPin = false ∧ (blamed.machine .safety).busy = false) ∧ 8 < (9 : Byte).toNat ∧
    ((blamed.sectorHold 2).causes = [(7, .lost)] ++ (11, .drive) :: [] ∧ blamed.districtHold.causes = [(7, .lost)] ++ (11, .drive) :: [] ∧
      (∀ q ∈ [((7 : CarrierId), FaultKind.lost)], (blamed.carrier q.1).state ≠ .faulted) ∧ (blamed.carrier 11).state = .faulted) ∧
    (∀ q ∈ (blamed.sectorHold 7).causes, (blamed.carrier q.1).state ≠ .faulted) ∧
    ∀ q ∈ district.districtHold.causes, (district.carrier q.1).state ≠ .faulted := by decide +kernel

theorem test_lift_hold :
    answer .safety (.liftHold .safety 2) blamed = [0x34, 16, 1, 11] ∧
    answer .safety (.liftHold .safety 8) blamed = [0x34, 16, 1, 11] ∧
    answer .safety (.liftHold .safety 9) blamed = [0x34, 4, 0] ∧
    (after (.liftHold .safety 2) (district.setSectorHold 2 ⟨[(7, .lost)], true⟩)).sectorHold 2 = .cleared := by decide +kernel

theorem test_hypotheses_of_HoldsAreLiftedAndThePolicyWritten_by_a_policy :
    district.ready .safety ∧ ∃ i : Fin 8, 2 < (tget (#v[0, 0, 0, 0, 0, 0, 0, 3] : Vector Byte 8) i).toNat :=
  ⟨ready_district _, 7, by decide⟩

theorem test_write_policy :
    answer .safety (.writePolicy .safety #v[0, 0, 0, 0, 0, 0, 0, 3]) district = [0x35, 4, 0] ∧
    (after (.writePolicy .safety #v[2, 0, 0, 0, 0, 0, 0, 1]) district).policy =
      #v[.holdDistrict, .holdCarrier, .holdCarrier, .holdCarrier, .holdCarrier, .holdCarrier, .holdCarrier, .holdSector] := by
  decide +kernel

/-- The states of the arm latch's clauses: armed, clear, with the line active, with the marker. -/
theorem test_hypotheses_of_TheArmLatchAndTheStopLine :
    (district.ready .operator ∧ district.ready .safety) ∧ (district.armLatch = false ∧ district.stopLine = false ∧ district.stopMarker = false) ∧
    ({ district with stopLine := true } : State).stopLine = true ∧
    (({ district with armLatch := true } : State).armLatch = true ∧ ({ district with armLatch := true } : State).stopLine = false) ∧
    ∃ t, AfterReset State.reset t :=
  ⟨⟨ready_district _, ready_district _⟩, by decide +kernel, rfl, by decide +kernel, _, .inl ⟨0, rfl⟩⟩

theorem test_the_stop_line :
    (after (.stopLineChange true) district).stopMarker = false ∧
    (after (.armStopLine .safety) { district with stopLine := true }).stopMarker = true ∧
    (after (.stopLineChange true) { district with armLatch := true }).stopMarker = true ∧
    (after (.stopLineChange true) { district with armLatch := true }).flags.stop = true := by decide +kernel

theorem test_hypotheses_of_ResumeClearsTheStopMarker :
    district.ready .safety ∧ district.stopMarker = false ∧ district.stopLine = false ∧
    ({ district with stopMarker := true } : State).stopMarker = true ∧ ({ district with stopLine := true } : State).stopLine = true :=
  ⟨ready_district _, by decide +kernel, by decide +kernel, rfl, rfl⟩

theorem test_resume :
    answer .safety (.resume .safety) district = [0x31, 6, 0] ∧
    answer .safety (.resume .safety) { district with stopMarker := true, stopLine := true } = [0x31, 17, 0] ∧
    (after (.resume .safety) { district with stopMarker := true }).stopMarker = false := by decide +kernel

/-! ## Faults and reports -/

theorem test_hypotheses_of_AFaultIsFirstOrRepeat :
    (district.carrier 9).state = .vacant ∧ (district.carrier 11).state = .faulted ∧
    ((rolling.carrier 7).state ≠ .vacant ∧ (rolling.carrier 7).state ≠ .faulted) := by decide +kernel

theorem test_a_first_fault :
    ((rolling.raiseFault 7 .lost).carrier 7).state = .faulted ∧ ((rolling.raiseFault 7 .lost).carrier 7).route = none ∧
    ((rolling.raiseFault 7 .lost).carrier 7).faultRecord.route = some 5 ∧
    ((rolling.raiseFault 7 .lost).sectorHold 0).causes = [(7, .lost)] := by decide +kernel

/-- The rolling district with a policy that answers every fault alike. -/
def strict (a : PolicyAction) : State := { rolling with policy := Vector.replicate 8 a }

/-- The rolling district, carrier 7 reported a zone ahead of its own. -/
def trespassing (front rear : ZoneId) : State := rolling.modCarrier 7 (fun r => { r with report := reported front rear 0 })

theorem test_hypotheses_of_AFaultIsFirstOrRepeat_by_its_policy :
    (∀ k : FaultKind, tget (strict .holdCarrier).policy k.index = .holdCarrier ∧ tget (strict .holdDistrict).policy k.index = .holdDistrict ∧
      tget (strict .holdSector).policy k.index = .holdSector) ∧
    ((strict .holdSector).modCarrier 7 (fun r => { r with report := Validated.cleared })).front 7 = none ∧
    (strict .holdSector).front 7 = some 1 ∧ (rolling.pinToken ≠ some 7 ∧ rolling.hasPending 7 = false) ∧
    (({ rolling with pinToken := some 7 } : State).modCarrier 7 (fun r => { r with held := r.held ++ [⟨2, .pending, some ⟨5, 11⟩⟩] })).hasPending 7
      = true := by
  refine ⟨fun k => ?_, by decide +kernel, by decide +kernel, by decide +kernel, by decide +kernel⟩
  cases k <;> decide +kernel

theorem test_hypotheses_of_AFaultIsFirstOrRepeat_at_a_trespass :
    ((trespassing 3 1).front 7 = some 3 ∧ (trespassing 3 1).rear 7 = some 1 ∧ (trespassing 3 1).holds 7 1 = true ∧
      (trespassing 3 1).holds 7 3 = false ∧ ((trespassing 3 1).carrier 7).held.length + 2 ≤ 12) ∧
    (trespassing 3 1).mayBeGiven 7 3 ∧ ¬(trespassing 5 5).mayBeGiven 7 5 ∧ (trespassing 5 5).holds 7 5 = false ∧
    ((trespassing 5 5).front 7 = some 5 ∧ (trespassing 5 5).rear 7 = some 5) ∧
    (12 ≤ ((rolling.modCarrier 7 (fun r => { r with held := List.replicate 12 ⟨1, .granted, none⟩ })).carrier 7).held.length) ∧
    ((trespassing 3 1).corridorOfZone 4 = some 1 ∧ (trespassing 3 1).mayBeGiven 7 4 ∧ ∀ o ∈ ((trespassing 3 1).cst 1).occupants, o.slot ≠ 7) := by
  have e : ∀ w, ((trespassing 3 1).zone w).conflicts = [] := by decide +kernel
  have g : ∀ z w, z ∉ ((trespassing 3 1).zone w).conflicts := fun z w => by rw [e w]; exact List.not_mem_nil
  exact ⟨by decide +kernel, ⟨by decide +kernel, by decide +kernel, fun w _ _ _ => g 3 w⟩, fun h => absurd h.2.1 (by decide +kernel),
    by decide +kernel, by decide +kernel, by decide +kernel, by decide +kernel, ⟨by decide +kernel, by decide +kernel, fun w _ _ _ => g 4 w⟩,
    by decide +kernel⟩

/-- A trespasser keeps the zone behind it, its rear zone, first and takes the zone ahead; the policy's entry is fed. -/
theorem test_faults :
    (((trespassing 3 1).raiseFault 7 .trespass).carrier 7).held = [⟨1, .granted, none⟩, ⟨3, .granted, none⟩] ∧
    ((trespassing 3 1).raiseFault 7 .trespass).holder 3 = some 7 ∧
    ((strict .holdDistrict).raiseFault 7 .drive).districtHold.causes = [(7, .drive)] ∧
    ((strict .holdDistrict).raiseFault 7 .drive).flags.holdChange = true ∧
    ((strict .holdCarrier).raiseFault 7 .drive).flags.holdChange = false := by decide +kernel

/-- Carrier 7 one ABSENT report from silence and one difference from UNSTABLE. -/
def silent : State := district.setValidator 7 ⟨some .absent, 7, 39⟩

theorem test_hypotheses_of_TheValidatorsLimits :
    silent.resetPin = false ∧ silent.floorPort.state = .synced ∧ (silent.validator 7).silence + 1 = silent.silenceLimit ∧
    ({ silent with silenceLimit := 38 } : State).silenceLimit < (silent.validator 7).silence ∧
    (district.validator 7).silence + 1 < district.silenceLimit ∧
    (silent.validator 7).instability = 7 ∧ (silent.validator 7).candidate = some .absent ∧
    ReadReport.absent ≠ readReport ⟨1, 1, 128⟩ ∧ (district.validator 7).candidate = none := by decide +kernel

theorem test_the_limits_raise_faults :
    ((after (.silenceLimitReached 7) silent).carrier 7).fault = some .lost ∧
    ((after (.instabilityLimitReached 7 ⟨1, 1, 128⟩) silent).carrier 7).fault = some .unstable ∧
    (after (.silenceLimitReached 7) district).validator 7 = ⟨none, 0, 0⟩ := by decide +kernel

/-- The rolling district with carrier 7 holding zones 1 to 3 under an order, at the end of its route. -/
def ahead (order : Order) : State :=
  let s := rolling.modCarrier 7 (fun r => { r with
    held := [⟨1, .granted, none⟩, ⟨2, .granted, some ⟨5, 11⟩⟩, ⟨3, .granted, some ⟨5, 12⟩⟩], cursor := .atEnd, lastOrder := order })
  (s.setZst 2 ⟨some 7, [], .unbound, false⟩).setZst 3 ⟨some 7, [], .unbound, false⟩

/-- The same with zone 3 blocked. -/
def blocked (order : Order) : State := (ahead order).setZst 3 ⟨some 7, [], .unclear, true⟩

/-- Carrier 7 in the passage of zones 2 and 3, stopped in zone 2, with zone 5 PENDING as the token holder. -/
def within : State :=
  { (ahead ⟨.hold, 255, 0⟩).modCarrier 7 (fun r => { r with
      report := reported 2 1 0, held := r.held ++ [⟨5, .pending, none⟩], cursor := .hop 12 }) with pinToken := some 7 }

/-- A trim at a stop-allowed front zone and within a passage, and the entries a fault keeps; a front zone that is not held. -/
theorem test_hypotheses_of_the_statements_of_cancels_and_faults_on_held_lists :
    ((within.carrier 7).held.map (·.zone)).Nodup ∧ within.pinToken = some 7 ∧ within.front 7 = some 2 ∧ within.noStop 2 = true ∧
    (within.carrier 7).held.filter (fun e => decide (within.pinToken ≠ some 7) || e.status == .granted) =
      [⟨1, .granted, none⟩] ++ ⟨2, .granted, some ⟨5, 11⟩⟩ :: [⟨3, .granted, some ⟨5, 12⟩⟩] ∧
    ((within.carrier 7).report.present = true ∧ (within.carrier 7).report.report.motion = .stopped ∧ (within.carrier 7).state = .advancing) ∧
    ((ahead ⟨.hold, 255, 0⟩).front 7 = some 1 ∧ (ahead ⟨.hold, 255, 0⟩).noStop 1 = false) ∧
    (∀ e ∈ (rolling.carrier 7).held, (trespassing 5 5).front 7 ≠ some e.zone) := by decide +kernel

theorem test_cancels_and_faults_on_held_lists :
    ((after (.cancelRoute .operator 7) within).carrier 7).held =
      [⟨1, .granted, none⟩, ⟨2, .granted, some ⟨5, 11⟩⟩, ⟨3, .granted, some ⟨5, 12⟩⟩] ∧
    ((after (.cancelRoute .operator 7) (ahead ⟨.hold, 255, 0⟩)).carrier 7).held = [⟨1, .granted, none⟩] ∧
    ((within.raiseFault 7 .drive).carrier 7).held = [⟨1, .granted, none⟩, ⟨2, .granted, some ⟨5, 11⟩⟩] ∧
    (within.raiseFault 7 .drive).holder 3 = none ∧ (within.raiseFault 7 .drive).pinToken = none := by decide +kernel

/-- The limits within a floor frame: a count at 8, a silence count at its limit and above it (R114, R115). -/
theorem test_hypotheses_of_AFloorFrameArrives_at_the_limits :
    ((silent.setValidator 7 ⟨some .absent, 8, 40⟩).validator 7).instability = 8 ∧
    ((silent.setValidator 7 ⟨some .absent, 8, 40⟩).validator 7).silence = silent.silenceLimit ∧
    (silent.validator 7).silence + 1 = silent.silenceLimit ∧
    ({ silent with silenceLimit := 38 } : State).silenceLimit < (silent.validator 7).silence ∧
    (readReport ⟨1, 240, 0xC5⟩ = .present ⟨some 1, none, .moving, 5⟩ ∧ readReport ⟨1, 1, 0x7F⟩ = .absent) ∧
    ((0x31 : Byte).toNat % 4 = 1 ∧ readOrder 0x31 3 = ⟨.goTo, 3, 3⟩ ∧ readOrder 0x33 3 = ⟨.hold, 255, 0⟩) := by decide +kernel

theorem test_the_limits_within_a_frame :
    ((silent.compare 7 (.present ⟨some 1, some 1, .stopped, 0⟩)).carrier 7).fault = some .unstable ∧
    ((silent.countSilence 7 .absent).carrier 7).fault = some .lost ∧
    (((silent.setValidator 7 ⟨some .absent, 8, 40⟩).countSilence 7 .absent).carrier 7).fault = none := by decide +kernel

theorem test_hypotheses_of_AFloorFrameArrives_with_new_reports :
    ((district.validator 7).candidate = none ∧ (silent.validator 7).candidate = some .absent ∧ (silent.validator 7).instability = 7 ∧
      ((silent.setValidator 7 ⟨some .absent, 6, 37⟩).validator 7).instability < 7 ∧
      ((silent.setValidator 7 ⟨some .absent, 6, 37⟩).validator 7).silence + 1 < silent.silenceLimit) ∧
    ((district.carrier 8).report.present = false ∧ (district.carrier 7).report.present = true) ∧
    ((district.carrier 7).report = ⟨true, ⟨some 1, some 1, .stopped, 0⟩⟩ ∧ (district.carrier 7).report ≠ ⟨true, ⟨some 2, some 1, .stopped, 0⟩⟩) ∧
    ((district.carrier 9).state = .vacant ∧ (district.carrier 11).state = .faulted ∧ ((ahead ⟨.hold, 255, 0⟩).carrier 7).state = .advancing) ∧
    ((ahead ⟨.hold, 255, 0⟩).holdsGranted 7 3 = true ∧ (ahead ⟨.hold, 255, 0⟩).holdsGranted 7 2 = true ∧
      (ahead ⟨.hold, 255, 0⟩).holdsGranted 7 5 = false) ∧
    heldIndex ((ahead ⟨.hold, 255, 0⟩).carrier 7).held 2 < heldIndex ((ahead ⟨.hold, 255, 0⟩).carrier 7).held 3 := by decide +kernel

/-- A fault of a new report (R117), and the releases of progress (R118). -/
theorem test_new_reports :
    (((ahead ⟨.hold, 255, 0⟩).validate 7 (.present ⟨some 2, some 1, .moving, 2⟩)).carrier 7).fault = some .obstacle ∧
    (((ahead ⟨.hold, 255, 0⟩).validate 7 (.present ⟨some 3, some 2, .moving, 0⟩)).carrier 7).held.map (·.zone) = [2, 3] ∧
    ((ahead ⟨.hold, 255, 0⟩).validate 7 (.present ⟨some 3, some 2, .moving, 0⟩)).holder 1 = none := by decide +kernel

/-! ## Checksum and service mode -/

/-- The district with a Checksum at its second expiry. -/
def checked : State := district.setMachine .safety (.executing .checksum 1 false)

theorem test_hypotheses_of_ChecksumAnswersTheConfigurationsCrc :
    district.ready .safety ∧
    (checked.resetPin = false ∧ checked.machine .safety = .executing .checksum 1 false) ∧
    checking.machine .safety = .executing .checksum 0 false :=
  ⟨ready_district _, by decide +kernel, by decide +kernel⟩

theorem test_checksum_waits_for_the_second_expiry :
    (after (.checksum .operator) district).machine .operator = .executing .checksum 0 false ∧
    (after (.checksumCompletion .safety) checking).machine .safety = .executing .checksum 0 false ∧
    (checking.completionPart .safety).machine .safety = .executing .checksum 1 false := by decide +kernel

/-- The reset part with an Enter Service at its second expiry: it has nothing for the audit to fail. -/
def entering : State := State.reset.setMachine .operator (.executing .enterService 1 false)

/-- The same over the floor's tables with an undefined zone in route 5. -/
def failing : State := { floor.setHop 11 ⟨0, 0⟩ with mode := .safe }.setMachine .operator (.executing .enterService 1 false)

theorem test_hypotheses_of_EnteringAndLeavingService :
    (district.ready .safety ∧ district.mode = .service) ∧ (State.reset.ready .operator ∧ State.reset.mode = .safe) ∧
    (entering.resetPin = false ∧ entering.machine .operator = .executing .enterService 1 false ∧ entering.audit = none) ∧
    failing.audit = some ⟨.zoneUndefined, 11⟩ ∧
    (∃ c, rolling.active c) ∧ ∀ c, ¬district.active c :=
  ⟨⟨ready_district _, by decide +kernel⟩, ⟨⟨rfl, rfl⟩, rfl⟩, by decide +kernel, by decide +kernel,
    ⟨7, .inl (by decide +kernel)⟩, fun c h =>
      absurd (show (district.carrier c).state = .advancing ∨ (district.carrier c).state = .waiting from h)
        ((by decide +kernel : ∀ c : CarrierId, ¬((district.carrier c).state = .advancing ∨ (district.carrier c).state = .waiting)) c)⟩

theorem test_service_mode :
    answer .operator (.enterService .operator) district = [0x21, 6, 0] ∧
    (after (.leaveService .safety) district).mode = .safe ∧ answer .safety (.leaveService .safety) rolling = [0x36, 6, 0] := by
  decide +kernel

/-- A corridor that no zone lies in has no gap. -/
theorem run_without_zones {s : State} {k : CorridorId} (h : ∀ z, s.corridorOfZone z ≠ some k) : s.positionsRun k := by
  intro p hp
  rw [List.filter_eq_nil_iff.2 (fun z _ e => h z (eq_of_beq e))] at hp
  exact absurd hp (Nat.not_lt_zero p)

/-- The district with a gap in its one corridor. -/
def gapped : State := district.setZone 4 { plainZone with corridor := some 1, position := 1 }

/-- The audit of tables with a gap, and of tables whose one route passes or fails. -/
theorem test_hypotheses_of_EnteringAndLeavingService_by_the_audit :
    (¬gapped.positionsRun 1 ∧ ∀ l < (1 : CorridorId), gapped.positionsRun l) ∧ (∀ k, district.positionsRun k) ∧
    (∀ k, (district.setHop 11 ⟨0, 0⟩).positionsRun k) ∧ (∀ r, (district.route r).placed) ∧
    (∀ r, (district.route r).defined = true → district.routePasses r) ∧ (∀ p < (5 : RouteId), ¬(district.route p).defined = true) := by
  have one : ∀ z k, district.corridorOfZone z = some k → k = 1 := by
    intro z k e
    rcases (by decide +kernel : ∀ z, district.corridorOfZone z = none ∨ district.corridorOfZone z = some 1) z with n | n
    · exact absurd (e.symm.trans n) nofun
    · exact Option.some.inj (e.symm.trans n)
  have run : ∀ k, district.positionsRun k := by
    intro k
    by_cases e : k = 1
    · subst e; exact (gapFree_iff _ _).1 (by decide +kernel)
    · exact run_without_zones (fun z h => e (one z k h))
  refine ⟨⟨fun h => absurd ((gapFree_iff _ _).2 h) (by decide +kernel), fun l h => run_without_zones (fun z e => ?_)⟩, run, run,
    fun r => (by decide +kernel : ∀ q, 2 ≤ (district.route q).hopCount ∧ (district.route q).firstHop.val + (district.route q).hopCount ≤ 2048) r,
    fun r h => ?_, by decide +kernel⟩
  · have z4 : z = 4 ∨ z ≠ 4 := Decidable.em _
    rcases z4 with rfl | n
    · exact absurd (Option.some.inj (e.symm.trans (show gapped.corridorOfZone 4 = some 1 by decide +kernel))) (Fin.ne_of_lt h)
    · have same : gapped.corridorOfZone z = district.corridorOfZone z := by
        unfold gapped State.corridorOfZone
        rw [zone_setZone, if_neg n]
      exact absurd (one z l (same.symm.trans e)) (Fin.ne_of_lt h)
  · have e : r = 5 := (by decide +kernel : ∀ r, (district.route r).defined = true → r = 5) r h
    subst e
    exact test_hypotheses_of_the_statements_of_route_checks.2.2.2.2.2.2.2.2.1

/-! ## Frames -/

/-- A floor frame as the gateway answers frame number 0 of district 0: no report, input 2 of field slot 3 set, no fragment. -/
def floorFrame : List Byte :=
  withCheckWord ([0, 77, 0, 0, 0] ++ List.replicate 144 0 ++ (List.replicate 6 0 ++ [128, 4] ++ List.replicate 24 0) ++ List.replicate 17 0)

/-- A dispatcher frame that answers frame number 0 of district 0: GO_FULL at speed 3 for slot 0, HOLD for the others, no fragment. -/
def dispatcherFrame : List Byte := withCheckWord ([0, 0, 0, 0x32, 255] ++ List.replicate 94 0 ++ List.replicate 17 0)

def synced (badRun : Nat) : Port := ⟨.synced, badRun, 0, 0, .open⟩
def lost (goodRun : Nat) : Port := ⟨.lost, 0, goodRun, 0, .open⟩

set_option maxRecDepth 100000 in
theorem floorFrame_good (s : State) (hf : s.floorPort.frame = 0) (hc : s.districtCode = 0) : GoodFloorFrame s floorFrame :=
  ⟨by decide +kernel, by decide +kernel, by rw [hf]; decide +kernel, by rw [hc]; decide +kernel⟩

set_option maxRecDepth 100000 in
theorem dispatcherFrame_good (s : State) (hf : s.dispatchPort.frame = 0) (hc : s.districtCode = 0) :
    GoodDispatcherFrame s dispatcherFrame :=
  ⟨by decide +kernel, by decide +kernel, by rw [hf]; decide +kernel, by rw [hc]; decide +kernel⟩

theorem empty_floor_frame_bad (s : State) : ¬GoodFloorFrame s [] := fun h => absurd h.length (by decide)

theorem empty_dispatcher_frame_bad (s : State) : ¬GoodDispatcherFrame s [] := fun h => absurd h.length (by decide)

/-- Every clause of the frames' statements, at the counts where a port changes (R150). -/
theorem test_hypotheses_of_the_statements_of_frames :
    floorOrderOk FloorBlock.all = true ∧ district.resetPin = false ∧ district.floorPort.window ≠ .open ∧
    district.dispatchPort.window ≠ .open ∧
    (∀ n, ({ district with floorPort := synced n } : State).floorPort.state = .synced) ∧
    (∀ n, ({ district with floorPort := lost n } : State).floorPort.state = .lost) ∧
    ((synced 2).badRun = 2 ∧ (synced 1).badRun < 2 ∧ (lost 1).goodRun = 1 ∧ (lost 0).goodRun = 0 ∧ (synced 2).window = .open) ∧
    GoodFloorFrame { district with floorPort := synced 0 } floorFrame ∧ GoodFloorFrame { district with floorPort := lost 1 } floorFrame ∧
    ¬GoodFloorFrame { district with floorPort := synced 0 } [] ∧
    GoodDispatcherFrame { district with dispatchPort := synced 0 } dispatcherFrame ∧
    GoodDispatcherFrame { district with dispatchPort := lost 1 } dispatcherFrame ∧
    ¬GoodDispatcherFrame { district with dispatchPort := lost 0 } [] ∧
    ((floorFrame.getD 181 0).getLsbD 4 = false ∧ (dispatcherFrame.getD 99 0).getLsbD 4 = false) :=
  ⟨by decide, by decide +kernel, by decide +kernel, by decide +kernel, fun _ => rfl, fun _ => rfl, by decide,
    floorFrame_good _ rfl (by decide +kernel), floorFrame_good _ rfl (by decide +kernel), empty_floor_frame_bad _,
    dispatcherFrame_good _ rfl (by decide +kernel), dispatcherFrame_good _ rfl (by decide +kernel),
    empty_dispatcher_frame_bad _, by decide +kernel⟩

set_option maxRecDepth 100000 in
/-- A good floor frame: the partner's number is kept (R151). -/
theorem test_floor_frame :
    (after (.floorFrameArrival FloorBlock.all floorFrame) { district with floorPort := synced 1 }).floorPartner = 77 := by decide +kernel

set_option maxRecDepth 100000 in
theorem test_floor_port_return :
    (after (.floorPortReturn FloorBlock.all floorFrame) { district with floorPort := lost 1, linkFlag := true }).linkFlag = false := by
  decide +kernel

set_option maxRecDepth 100000 in
theorem test_dispatcher_frames :
    ((after (.dispatcherFrameArrival dispatcherFrame) { district with dispatchPort := synced 0 }).carrier 0).lastOrder = ⟨.goFull, 255, 3⟩ ∧
    (after .dispatchPortLoss { district with dispatchPort := synced 2 }).dispatchPort.state = .lost ∧
    (after (.dispatchPortReturn dispatcherFrame) { district with dispatchPort := lost 1 }).dispatchPort.state = .synced := by
  decide +kernel

/-- The third bad frame at a port's arrival is its loss, and the second good one its return (R150). -/
theorem test_ports_change_at_an_arrival :
    (after (.dispatcherFrameArrival []) { district with dispatchPort := synced 2 }).dispatchPort.state = .lost ∧
    ({ district with floorPort := lost 1, linkFlag := true } : State).clearLink.flags.holdChange = true := by decide +kernel

/-- Every clause of the expiry's statement. -/
theorem test_hypotheses_of_AnExpiryDepartsOnBothPorts :
    expiryOrderOk ExpiryPart.all = true ∧
    expiryOrderOk [.dispatchClose, .dispatchDepart, .engine, .floorClose, .safetyCompletion, .floorDepart, .operatorCompletion] = true ∧
    ({ district with resetPin := true } : State).resetPin = true ∧ district.resetPin = false ∧
    (district.floorPort.window ≠ .open ∧ (lost 0).window = .open ∧ (synced 1).badRun < 2 ∧ (synced 2).badRun = 2) := by decide +kernel

theorem test_an_expiry :
    (after (.frameTimerExpiry ExpiryPart.all) waiting).floorSent.length = 135 ∧
    ((after (.frameTimerExpiry ExpiryPart.all) waiting).carrier 7).waitAge = 1 := by decide +kernel

/-- The first expiry after a command is noted (R167, R168). -/
theorem test_hypotheses_of_the_first_expiry :
    checking.machine .safety = .executing .checksum 0 false ∧
    (district.setMachine .operator (.executing .enterService 0 true)).machine .operator = .executing .enterService 0 true ∧
    (checked.machine .safety = .executing .checksum 1 false ∧ entering.machine .operator = .executing .enterService 1 false) ∧
    (after (.frameTimerExpiry ExpiryPart.all) checking).machine .safety = .executing .checksum 1 false := by decide +kernel

/-- Both reply windows of a port, at the counts where the port is lost (R150), and the machines an expiry advances (R162). -/
theorem test_hypotheses_of_AnExpiryDepartsOnBothPorts_windows_and_machines :
    (district.dispatchPort.window ≠ .open ∧ (∀ n, ({ district with dispatchPort := synced n } : State).dispatchPort.state = .synced) ∧
      ({ district with dispatchPort := lost 1 } : State).dispatchPort.state = .lost) ∧
    district.machine .safety = .idle ∧ checking.machine .safety = .executing .checksum 0 false ∧
    (district.setMachine .safety (.receiving [1] 1)).machine .safety = .receiving [1] 1 ∧
    ((district.setMachine .safety (.answering (List.replicate 17 7) 0)).machine .safety = .answering (List.replicate 17 7) 0 ∧
      16 * (0 + 1) < (List.replicate 17 (7 : Byte)).length ∧ (List.replicate 16 (7 : Byte)).length ≤ 16 * (0 + 1)) := by
  refine ⟨⟨by decide +kernel, fun _ => rfl, rfl⟩, ?_⟩
  decide +kernel

/-- An answer of 17 bytes departs in two fragments. -/
theorem test_fragments_of_an_answer :
    (SlotMachine.answering (List.replicate 17 7) 0).answerSlot = 0xB0 :: List.replicate 16 7 ∧
    (SlotMachine.answering (List.replicate 17 7) 1).answerSlot = 0x51 :: 7 :: List.replicate 15 0 ∧
    ((district.setMachine .safety (.answering (List.replicate 17 7) 0)).departFloor).machine .safety = .answering (List.replicate 17 7) 1 ∧
    ((district.setMachine .safety (.answering (List.replicate 17 7) 1)).departFloor).machine .safety = .idle ∧
    ((({ district with dispatchPort := synced 2 } : State).closeDispatch).flags.dispatchLink = true) := by decide +kernel

/-- Field slot 3's input 2 one clear reading from the persistence of 10; zone 4 is bound to it. -/
def clearing : State := district.setInput 3 2 ⟨false, 9, .clearWhenSet⟩

theorem test_hypotheses_of_AClearInputReachesItsZones :
    (clearing.resetPin = false ∧ clearing.floorPort.state = .synced ∧ (clearing.input 3 2).clear = false ∧
      clearing.clearPersistence ≤ min ((clearing.input 3 2).run + 1) 255 ∧ (clearing.zone 4).defined = true ∧
      (clearing.zone 4).fieldBinding = some ⟨3, 2, .clearWhenSet⟩) ∧
    (district.zone 1).fieldBinding = none ∧
    (district.setInput 3 2 ⟨true, 10, .clearWhenSet⟩).resetPin = false ∧
    min ((district.input 3 2).run + 1) 255 < district.clearPersistence := by decide +kernel

theorem test_a_clear_input :
    ((after (.clearPersistenceReached 3 2) clearing).zst 4).field = .clear := by
  decide +kernel

/-! ## Fragments -/

def readZonePayload : List Byte := [0x02, 1, 3] ++ List.replicate 13 0

/-- Every row of the table of R161, by its control byte. -/
theorem test_hypotheses_of_FragmentsReachTheSlotMachine :
    district.resetPin = false ∧ (0xC0 : Byte).getLsbD 4 = false ∧ (0xD0 : Byte).getLsbD 4 = true ∧
    (checking.machine .safety).busy = true ∧ district.machine .operator = .idle ∧ (0x10 : Byte).getLsbD 7 = false ∧
    ((0x91 : Byte).getLsbD 7 = true ∧ (0x91 : Byte).extractLsb' 0 2 ≠ 0) ∧
    ((0x90 : Byte).getLsbD 7 = true ∧ (0x90 : Byte).getLsbD 6 = false ∧ (0x90 : Byte).extractLsb' 0 2 = 0) ∧
    (district.setMachine .operator (.receiving readZonePayload 1)).machine .operator = .receiving readZonePayload 1 ∧
    (((0x12 : Byte).extractLsb' 0 2).toNat ≠ 1 ∧ ((0x11 : Byte).extractLsb' 0 2).toNat = 1 ∧ (0x11 : Byte).getLsbD 6 = false) ∧
    ((0x51 : Byte).getLsbD 7 = false ∧ (0x51 : Byte).getLsbD 6 = true) ∧
    decodeMessage .operator readZonePayload = some (.readZone .operator 3) ∧
    decodeMessage .operator (readZonePayload ++ List.replicate 16 0) = some (.readZone .operator 3) ∧
    decodeMessage .operator (0x3F :: List.replicate 15 0) = none ∧
    decodeMessage .operator ([0x02, 2, 3] ++ List.replicate 13 0 ++ List.replicate 16 0) = none := by decide +kernel

theorem test_fragments :
    (district.takeFragment .operator 0xD0 readZonePayload).machine .operator =
      .answering [0x02, 0, 11, 1, 0, 0, 255, 0, 0, 255, 0, 0, 255, 0] 0 ∧
    (district.takeFragment .operator 0x91 readZonePayload).machine .operator = .answering [0, 3, 0] 0 ∧
    (district.takeFragment .operator 0xD0 (0x3F :: List.replicate 15 0)).machine .operator = .answering [0x3F, 3, 0] 0 ∧
    (district.takeFragment .operator 0x90 readZonePayload).machine .operator = .receiving readZonePayload 1 := by decide +kernel

theorem test_hypotheses_of_EveryMessageIsReadBack :
    (Instr.writeHops .safety 2019 (List.replicate 29 (239, 3))).wellFormed = true ∧
    (Instr.writeHops .safety 2019 (List.replicate 29 (239, 3))).slotOf = some .safety ∧
    (Instr.readHolds .operator 1 8 4).wellFormed = true := by decide

/-! ## The stamper, corridors and claims -/

/-- The cases of the stamp in their order: VACANT, marker, SAFE, FAULTED, link flag, no front zone, front not held, covered, HOLD read. -/
theorem test_hypotheses_of_TheStampersBaseCases :
    (rolling.carrier 9).state = .vacant ∧ ({ rolling with stopMarker := true } : State).stopMarker = true ∧
    ({ rolling with mode := .safe } : State).mode = .safe ∧ (rolling.carrier 11).state = .faulted ∧
    ({ rolling with linkFlag := true } : State).linkFlag = true ∧
    ((rolling.modCarrier 7 (fun r => { r with report := Validated.cleared })).front 7 = none) ∧
    (rolling.modCarrier 7 (fun r => { r with report := reported 3 3 0 })).holds 7 3 = false ∧
    (rolling.front 7 = some 1 ∧ rolling.holds 7 1 = true ∧ rolling.covered 7 = false ∧ (rolling.orderRead 7).kind = .hold) ∧
    ((rolling.setSectorHold 0 ⟨[], true⟩).covered 7 = true ∧ rolling.noStop 1 = false) := by decide +kernel

theorem test_stamps :
    rolling.stampOf 9 = ⟨none, 0, .none⟩ ∧ ({ rolling with stopMarker := true } : State).stampOf 7 = ⟨some 1, 0, .stop⟩ ∧
    rolling.stampOf 11 = ⟨some 5, 0, .stop⟩ ∧ ({ rolling with linkFlag := true } : State).stampOf 7 = ⟨some 1, 0, .covered⟩ ∧
    (rolling.setSectorHold 0 ⟨[], true⟩).stampOf 7 = ⟨some 1, 3, .covered⟩ ∧ rolling.stampOf 7 = ⟨some 1, 0, .none⟩ := by decide +kernel

theorem test_hypotheses_of_TheStampersBaseCases_walks :
    WalkOf (ahead ⟨.goFull, 255, 3⟩) ((ahead ⟨.goFull, 255, 3⟩).carrier 7).held [] ⟨1, .granted, none⟩
      [⟨2, .granted, some ⟨5, 11⟩⟩, ⟨3, .granted, some ⟨5, 12⟩⟩] [] ∧
    WalkOf (blocked ⟨.goFull, 255, 3⟩) ((blocked ⟨.goFull, 255, 3⟩).carrier 7).held [] ⟨1, .granted, none⟩
      [⟨2, .granted, some ⟨5, 11⟩⟩] [⟨3, .granted, some ⟨5, 12⟩⟩] ∧
    WalkOf (ahead ⟨.goFull, 255, 3⟩) ((ahead ⟨.goFull, 255, 3⟩).carrier 7).held [⟨1, .granted, none⟩] ⟨2, .granted, some ⟨5, 11⟩⟩
      [⟨3, .granted, some ⟨5, 12⟩⟩] [] ∧
    (blocked ⟨.goFull, 255, 3⟩).cutAt [⟨3, .granted, some ⟨5, 12⟩⟩] ∧ ¬(ahead ⟨.goFull, 255, 3⟩).cutAt [] :=
  ⟨⟨by decide +kernel, by decide, by decide +kernel, by decide⟩, ⟨by decide +kernel, by decide, by decide +kernel, by decide +kernel⟩,
    ⟨by decide +kernel, by decide, by decide +kernel, by decide⟩, ⟨_, rfl, by decide +kernel⟩, fun ⟨_, h, _⟩ => absurd h (by simp)⟩

theorem test_hypotheses_of_TheStampersBaseCases_reaches :
    (ahead ⟨.goFull, 255, 3⟩).reaches ⟨1, .granted, none⟩ [⟨2, .granted, some ⟨5, 11⟩⟩, ⟨3, .granted, some ⟨5, 12⟩⟩]
      [⟨1, .granted, none⟩, ⟨2, .granted, some ⟨5, 11⟩⟩, ⟨3, .granted, some ⟨5, 12⟩⟩] ∧
    (blocked ⟨.goFull, 255, 3⟩).reaches ⟨1, .granted, none⟩ [⟨2, .granted, some ⟨5, 11⟩⟩] [⟨1, .granted, none⟩] ∧
    (ahead ⟨.goFull, 255, 3⟩).reaches ⟨2, .granted, some ⟨5, 11⟩⟩ [] [⟨2, .granted, some ⟨5, 11⟩⟩] ∧
    (ahead ⟨.goFull, 255, 3⟩).restOfPassage [⟨3, .granted, some ⟨5, 12⟩⟩] [⟨3, .granted, some ⟨5, 12⟩⟩] ∧
    (ahead ⟨.goFull, 255, 3⟩).restOfPassage [] [] ∧
    ((ahead ⟨.goFull, 255, 3⟩).noStop 1 = false ∧ (ahead ⟨.goFull, 255, 3⟩).noStop 2 = true) ∧
    (rolling.onRouteAhead 7 3 = true ∧ rolling.onRouteAhead 7 5 = false) :=
  ⟨.inl ⟨[⟨1, .granted, none⟩, ⟨2, .granted, some ⟨5, 11⟩⟩], ⟨3, .granted, some ⟨5, 12⟩⟩, [], rfl, by decide +kernel, by decide, rfl⟩,
    .inl ⟨[], ⟨1, .granted, none⟩, [⟨2, .granted, some ⟨5, 11⟩⟩], rfl, by decide +kernel, by decide +kernel, rfl⟩,
    .inr ⟨by decide +kernel, rfl⟩,
    .inl ⟨[], ⟨3, .granted, some ⟨5, 12⟩⟩, [], rfl, by decide, by decide +kernel, rfl⟩, .inr ⟨by decide, rfl⟩, by decide +kernel,
    by decide +kernel⟩

/-- Orders over the held zones 1 to 3: as far as held, to the exit of a passage, cut before a blocked zone, beyond the grant, off the route. -/
theorem test_stamps_of_orders :
    (ahead ⟨.goFull, 255, 3⟩).stampOf 7 = ⟨some 3, 3, .none⟩ ∧ (ahead ⟨.goTo, 2, 2⟩).stampOf 7 = ⟨some 3, 2, .none⟩ ∧
    (ahead ⟨.goTo, 1, 3⟩).stampOf 7 = ⟨some 1, 3, .none⟩ ∧ (ahead ⟨.goTo, 255, 3⟩).stampOf 7 = ⟨some 1, 3, .offRoute⟩ ∧
    (ahead ⟨.goTo, 5, 3⟩).stampOf 7 = ⟨some 1, 3, .offRoute⟩ ∧ (blocked ⟨.goFull, 255, 3⟩).stampOf 7 = ⟨some 1, 3, .blocked⟩ ∧
    (blocked ⟨.goTo, 3, 3⟩).stampOf 7 = ⟨some 1, 3, .blocked⟩ ∧
    (((ahead ⟨.goFull, 255, 3⟩).modCarrier 7 (fun r => { r with report := reported 2 1 0 })).setSectorHold 0 ⟨[], true⟩).stampOf 7 =
      ⟨some 3, 2, .covered⟩ := by decide +kernel

/-- A corridor flowing ASCENDING, with a directed and an undirected occupant and a waiter against the flow. -/
def flowing : CorridorState :=
  ⟨.flowing, some .ascending, [⟨3, some .ascending⟩, ⟨4, none⟩], 0, [⟨10, .descending, .normal, 0⟩]⟩

theorem test_hypotheses_of_TheCorridorTestAndTheEntry :
    (flowing.occupant 3 = some ⟨3, some .ascending⟩ ∧ Direction.ascending ≠ .descending) ∧ flowing.occupant 4 = some ⟨4, none⟩ ∧
    flowing.occupant 5 = none ∧ (flowing.flow = .flowing ∧ flowing.direction = some .ascending) ∧
    ({ flowing with flow := .draining } : CorridorState).flow ≠ .flowing ∧
    CorridorState.cleared.direction = none ∧ ({ flowing with direction := none } : CorridorState).occupant 4 = some ⟨4, none⟩ ∧
    (∃ w ∈ flowing.queue, w.direction ≠ .ascending) ∧ ∀ w ∈ CorridorState.cleared.queue, w.direction = .ascending := by decide

theorem test_the_corridor :
    flowing.admits 3 .descending = false ∧ flowing.admits 4 .ascending = true ∧
    ({ flowing with flow := .draining } : CorridorState).admits 5 .ascending = false ∧
    (flowing.enter 1 5 .ascending).flow = .draining ∧ (flowing.enter 2 5 .ascending).count = 1 ∧
    (CorridorState.cleared.enter 4 5 .descending).direction = some .descending := by decide

theorem test_hypotheses_of_TheCorridorTestAndTheEntry_leaving :
    flowing.lastDirected 3 ∧ ¬flowing.lastDirected 4 ∧ (∀ o ∈ (occupied.cst 1).occupants, o.slot = 7) ∧
    ∃ o ∈ flowing.occupants, o.slot ≠ 3 :=
  ⟨⟨⟨⟨3, some .ascending⟩, by decide, by decide⟩, by decide⟩, fun ⟨⟨o, h, n⟩, _⟩ => absurd (Option.some.inj h ▸ rfl : o.direction = none) n,
    by decide +kernel, ⟨4, none⟩, by decide, by decide⟩

/-- Carrier 7 in zones 4 and 8 of corridor 1, and carrier 9 waiting to run it the other way. -/
def corridorRun : State :=
  let s := (occupied.setZone 8 { plainZone with corridor := some 1, position := 1 }).modCarrier 7 (fun r => { r with
    held := [⟨4, .granted, none⟩, ⟨8, .granted, none⟩] })
  (s.setZst 4 ⟨some 7, [], .clear, false⟩).setZst 8 ⟨some 7, [], .unbound, false⟩

theorem test_hypotheses_of_TheCorridorTestAndTheEntry_releases :
    (corridorRun.corridorOfZone 4 = some 1 ∧ corridorRun.corridorOfZone 8 = some 1 ∧ corridorRun.corridorOfZone 1 = none ∧
      (∃ e ∈ (corridorRun.carrier 7).held.filter (fun e => e.zone != 4), corridorRun.corridorOfZone e.zone = some 1) ∧
      ∀ e ∈ (((corridorRun.release 7 4).carrier 7).held.filter (fun e => e.zone != 8)), corridorRun.corridorOfZone e.zone ≠ some 1) ∧
    rolling.passAllowed 7 = true ∧
    ((heldBack.setSectorHold 0 ⟨[], true⟩).passAllowed 7 = false ∧
      ((heldBack.setSectorHold 0 ⟨[], true⟩).carrier 7).state = .waiting) := by decide +kernel

/-- The corridor is left with the last zone there, and turns. -/
theorem test_releases :
    ((corridorRun.release 7 4).cst 1).occupants = [⟨7, some .ascending⟩] ∧
    (((corridorRun.release 7 4).release 7 8).cst 1) = ⟨.free, none, [], 0, []⟩ ∧
    ((corridorRun.undirect 7).cst 1) = ⟨.flowing, none, [⟨7, none⟩], 0, []⟩ ∧
    ((heldBack.setSectorHold 0 ⟨[], true⟩ |> examine 7).carrier 7).state = .advancing := by decide +kernel

/-- The rolling district with carrier 9 in zone 3, the exit of carrier 7's next set. -/
def blockedAhead : State :=
  (rolling.modCarrier 9 (fun r => { r with state := .idle, held := [⟨3, .granted, none⟩] })).setZst 3 ⟨some 9, [], .unbound, false⟩

theorem test_hypotheses_of_AClaimPassEndsOrWaits :
    (blockedAhead.passAllowed 7 = true ∧ (blockedAhead.carrier 7).state = .advancing ∧ (blockedAhead.carrier 7).cursor ≠ .atEnd ∧
      blockedAhead.pinToken ≠ some 7) ∧
    (blockedAhead.hasNeed 7 = true ∧ blockedAhead.nextSet 7 = [⟨5, 11⟩, ⟨5, 12⟩] ∧
      (∀ x ∈ blockedAhead.nextSet 7, blockedAhead.holds 7 (blockedAhead.hopZone x.hop) = false) ∧
      (blockedAhead.carrier 7).held.length + (blockedAhead.nextSet 7).length ≤ 12 ∧
      (blockedAhead.nextSet 7).findSome? (blockedAhead.testZone 7 (blockedAhead.nextSet 7)) = some (.zone 3)) ∧
    (blockedAhead.modCarrier 7 (fun r => { r with claimMode := .onOrder })).hasNeed 7 = false ∧
    ∃ x ∈ (blockedAhead.setHop 11 ⟨1, 0⟩).nextSet 7,
      (blockedAhead.setHop 11 ⟨1, 0⟩).holds 7 ((blockedAhead.setHop 11 ⟨1, 0⟩).hopZone x.hop) = true := by decide +kernel

theorem test_a_claim_that_fails_waits :
    ((blockedAhead.runPass 7).carrier 7).wait = .zone 3 ∧ ((blockedAhead.runPass 7).zst 3).queue.map (·.slot) = [7] := by
  decide +kernel

/-- Carrier 7 before corridor 1, whose zones 4 and 8 the next two hops name, in either order. -/
def entering1 (a b : ZoneId) : State :=
  ((inline.setHop 20 ⟨a, 0⟩).setHop 21 ⟨b, 0⟩ |>.setRoute 6 ⟨true, 20, 2, .stop, 0, none, 1⟩).modCarrier 7 (fun r => { r with
    state := .advancing, route := some 6, cursor := .hop 20 })

/-- Carrier 7 past the seam of route 6, whose last hop it still holds. -/
def overSeam : State := linked.modCarrier 7 (fun r => { r with
  state := .advancing, route := some 5, cursor := .hop 13, held := [⟨3, .granted, some ⟨6, 21⟩⟩] })

theorem test_hypotheses_of_WhatAClaimAsks :
    ((((ahead ⟨.hold, 255, 0⟩).carrier 7).held = [] ++ ⟨1, .granted, none⟩ ::
      [⟨2, .granted, some ⟨5, 11⟩⟩, ⟨3, .granted, some ⟨5, 12⟩⟩] ∧ (ahead ⟨.hold, 255, 0⟩).front 7 = some 1) ∧
    (∀ e ∈ (rolling.carrier 7).held, (trespassing 5 5).front 7 ≠ some e.zone) ∧
    (rolling.placeAhead 7 0 = some (⟨5, 11⟩, 0) ∧ rolling.noStop 2 = true ∧ rolling.placeAhead 7 1 = some (⟨5, 12⟩, 0) ∧ rolling.noStop 3 = false) ∧
    ((entering1 4 8).visitAt 7 1 ([(⟨6, 20⟩ : HopRef), ⟨6, 21⟩].findIdx (fun x => (entering1 4 8).hopCorridor x == some 1)) = [⟨6, 20⟩, ⟨6, 21⟩] ∧
      (entering1 4 8).hopPosition ⟨6, 20⟩ < (entering1 4 8).hopPosition ⟨6, 21⟩) ∧
    ((entering1 8 4).visitAt 7 1 ([(⟨6, 20⟩ : HopRef), ⟨6, 21⟩].findIdx (fun x => (entering1 8 4).hopCorridor x == some 1)) = [⟨6, 20⟩, ⟨6, 21⟩] ∧
      (entering1 8 4).hopPosition ⟨6, 21⟩ < (entering1 8 4).hopPosition ⟨6, 20⟩) ∧
    district.placeAhead 7 0 = none ∧ (∀ e ∈ (rolling.carrier 7).held, e.ref = none) ∧
    (overSeam.placeAhead 7 0).map (·.1.route) = some 5 ∧
      rolling.hopZone 12 = 3 ∧ blockedAhead.holder 3 = some 9 ∧ rolling.holder 5 = some 11) ∧ overSeam.leadsTo ⟨6, 21⟩ 5 :=
  ⟨by decide +kernel, by decide +kernel, by decide +kernel, .inr ⟨by decide +kernel, by decide +kernel⟩⟩

theorem test_what_a_claim_asks :
    (ahead ⟨.hold, 255, 0⟩).countAhead 7 = 2 ∧ rolling.countAhead 7 = 0 ∧ rolling.nextSet 7 = [⟨5, 11⟩, ⟨5, 12⟩] ∧
    (entering1 4 8).askedDirection 7 ((entering1 4 8).nextSet 7) 1 = .ascending ∧
    (entering1 8 4).askedDirection 7 ((entering1 8 4).nextSet 7) 1 = .descending ∧ rolling.onRouteAhead 7 3 = true ∧
    (overSeam.hopsBehindCursor 7).map (·.hop) = [12, 11, 10, 21, 20] := by decide +kernel

/-- The rolling district with each of the other waits at zone 3: a hold of its sector, a conflict with zone 5, its field, its corridor. -/
def waits : List (State × Wait) :=
  [((rolling.setZone 3 { plainZone with sector := 1 }).setSectorHold 1 ⟨[], true⟩, .hold),
   (rolling.setZone 3 { plainZone with conflicts := [5] }, .conflict 5),
   (rolling.setZst 3 ⟨none, [], .unclear, false⟩, .field 3),
   ((rolling.setZone 3 { plainZone with corridor := some 1, position := 1 }).setCst 1 ⟨.draining, some .ascending, [⟨9, some .ascending⟩], 2, []⟩,
    .corridor 1)]

theorem test_hypotheses_of_AClaimPassEndsOrWaits_at_each_end :
    (∀ p ∈ waits, p.1.passAllowed 7 = true ∧ (p.1.nextSet 7).findSome? (p.1.testZone 7 (p.1.nextSet 7)) = some p.2) ∧
    ((rolling.modCarrier 7 (fun r => { r with cursor := .atEnd })).passAllowed 7 = true ∧
      (waiting.modCarrier 7 (fun r => { r with cursor := .atEnd })).passAllowed 7 = true) ∧
    (rolling.nextSet 7).findSome? (rolling.testZone 7 (rolling.nextSet 7)) = none ∧
    ((waiting.modCarrier 7 (fun r => { r with claimMode := .onOrder })).passAllowed 7 = true ∧
      (waiting.modCarrier 7 (fun r => { r with claimMode := .onOrder })).hasNeed 7 = false) ∧
    (waiting.passAllowed 7 = true ∧ (waiting.nextSet 7).findSome? (waiting.testZone 7 (waiting.nextSet 7)) = some (.zone 3) ∧
      (waiting.carrier 7).wait = .zone 3) ∧
    ((waiting.modCarrier 7 (fun r => { r with wait := .field 3 })).nextSet 7).findSome?
      ((waiting.modCarrier 7 (fun r => { r with wait := .field 3 })).testZone 7 (waiting.nextSet 7)) = some (.zone 3) := by decide +kernel

theorem test_ends_of_a_pass :
    (∀ p ∈ waits, ((p.1.runPass 7).carrier 7).wait = p.2) ∧
    ((rolling.modCarrier 7 (fun r => { r with cursor := .atEnd })).runPass 7 |>.carrier 7).state = .idle ∧
    (((waiting.modCarrier 7 (fun r => { r with claimMode := .onOrder })).runPass 7).carrier 7).state = .advancing ∧
    (waiting.runPass 7).carrier 7 = waiting.carrier 7 ∧ ((waiting.runPass 7).zst 3).queue = (waiting.zst 3).queue := by decide +kernel

/-- The waiting district with carrier 9 WAITING in turn for zone 1, which carrier 7 holds. -/
def crossing : State := waiting.modCarrier 9 (fun r => { r with state := .waiting, wait := .zone 1 })

/-- The waiting district with carrier 7 at the starvation limit. -/
def starving : State := waiting.modCarrier 7 (fun r => { r with waitAge := 400 })

theorem test_hypotheses_of_AClaimPassEndsOrWaits_deadlocks_and_tokens :
    WaitCycle crossing 7 [(7, 3), (9, 1)] ∧ (∀ l, ¬WaitCycle waiting 7 l) ∧ (∀ c, ¬waiting.mayTakeToken c) ∧
    (starving.pinToken = none ∧ starving.mode = .service ∧ starving.stopMarker = false ∧ starving.mayTakeToken 7) ∧
    ∀ d, starving.mayTakeToken d → (starving.carrier d).waitAge < (starving.carrier 7).waitAge ∨
      (starving.carrier d).waitAge = (starving.carrier 7).waitAge ∧ (7 : CarrierId).val ≤ d.val :=
  ⟨(chainTo_iff _ _ _).1 (by decide +kernel), fun l h => absurd ((chainTo_iff _ _ _).2 h)
      (by rw [show waiting.chainTo 7 48 7 = none by decide +kernel]; simp),
    fun c h => absurd ((tokenCandidate_iff _ _).2 h) ((by decide +kernel : ∀ c, ¬waiting.tokenCandidate c = true) c),
    ⟨by decide +kernel, by decide +kernel, by decide +kernel, (tokenCandidate_iff _ _).1 (by decide +kernel)⟩, fun d h => by
      have e : d = 7 := (by decide +kernel : ∀ d, starving.tokenCandidate d = true → d = 7) d ((tokenCandidate_iff _ _).2 h)
      subst e; exact .inr ⟨rfl, Nat.le_refl _⟩⟩

theorem test_the_deadlock_record_and_the_token :
    (crossing.deadlockCheck 7).deadlock = ⟨0, 2, [(7, 3), (9, 1)]⟩ ∧ (crossing.deadlockCheck 7).flags.deadlock = true ∧
    starving.giveToken.pinToken = some 7 ∧ (starving.giveToken.carrier 7).held.map (·.status) = [.granted, .pending] := by decide +kernel

theorem test_hypotheses_of_AGrantTakesTheWholeSet :
    (rolling.carrier 7).state = .advancing ∧ [(⟨5, 11⟩ : HopRef)].getLast? = some ⟨5, 11⟩ ∧
    11 < (rolling.route 5).firstHop.val + (rolling.route 5).hopCount - 1 := by decide +kernel

/-- Carrier 7 as the token holder, with nothing PENDING yet, and with zone 2 PENDING. -/
def pinned : State := { starving with pinToken := some 7 }
def partly : State := starving.giveToken

theorem test_hypotheses_of_AGrantTakesTheWholeSet_for_the_token_holder :
    ((waiting.modCarrier 9 (fun r => { r with state := .vacant, held := [] })).carrier 7).state = .waiting ∧
    (partly.holdsPending 7 (partly.hopZone 11) = true ∧ partly.hasPending 7 = true ∧ partly.passAllowed 7 = true ∧
      (partly.carrier 7).cursor ≠ .atEnd ∧ partly.pinToken = some 7) ∧
    (pinned.holdsPending 7 (pinned.hopZone 11) = false ∧ pinned.testZone 7 (pinned.nextSet 7) ⟨5, 11⟩ = none ∧
      pinned.testZone 7 (pinned.nextSet 7) ⟨5, 12⟩ = some (.zone 3)) ∧
    (pinned.hasPending 7 = false ∧ pinned.hasNeed 7 = true ∧ pinned.nextSet 7 ≠ [] ∧
      (∀ x ∈ pinned.nextSet 7, pinned.holds 7 (pinned.hopZone x.hop) = false) ∧ (pinned.takePending 7 (pinned.nextSet 7) (pinned.nextSet 7)).2 = some (.zone 3)) ∧
    (({ rolling with pinToken := some 7 } : State).takePending 7 (rolling.nextSet 7) (rolling.nextSet 7)).2 = none ∧
    (pinned.modCarrier 7 (fun r => { r with claimMode := .onOrder })).hasNeed 7 = false := by decide +kernel

theorem test_the_token_holders_pass :
    ((({ rolling with pinToken := some 7 } : State).runPass 7).pinToken = none ∧
      ((({ rolling with pinToken := some 7 } : State).runPass 7).carrier 7).held.map (·.status) = [.granted, .granted, .granted]) ∧
    ((pinned.modCarrier 7 (fun r => { r with claimMode := .onOrder })).runPass 7).pinToken = none ∧
    ((partly.leaveClaim 7).pinToken = none ∧ ((partly.leaveClaim 7).carrier 7).held = [⟨1, .granted, none⟩] ∧
      (partly.leaveClaim 7).holder 2 = none) ∧ (waiting.leaveClaim 7).carrier 7 = waiting.carrier 7 := by decide +kernel

/-- The set held in part, read anew with a zone that carrier 7 holds GRANTED, and with a held list that has no room for the rest. -/
def renamed : State := partly.setHop 12 ⟨1, 1⟩
def crowded : State := partly.modCarrier 7 (fun r => { r with held := List.replicate 10 ⟨1, .granted, none⟩ ++ r.held })

theorem test_hypotheses_of_AGrantTakesTheWholeSet_at_the_bounds :
    (renamed.passAllowed 7 = true ∧ (renamed.carrier 7).cursor ≠ .atEnd ∧ renamed.pinToken = some 7 ∧ renamed.hasPending 7 = true ∧
      ∃ x ∈ renamed.nextSet 7, renamed.holdsPending 7 (renamed.hopZone x.hop) = false ∧ renamed.holds 7 (renamed.hopZone x.hop) = true) ∧
    (crowded.passAllowed 7 = true ∧ crowded.hasPending 7 = true ∧ 12 < (crowded.carrier 7).held.length +
      ((crowded.nextSet 7).filter (fun x => !crowded.holdsPending 7 (crowded.hopZone x.hop))).length) ∧
    ((∀ x ∈ partly.nextSet 7, partly.holdsPending 7 (partly.hopZone x.hop) = false → partly.holds 7 (partly.hopZone x.hop) = false) ∧
      (partly.carrier 7).held.length + ((partly.nextSet 7).filter (fun x => !partly.holdsPending 7 (partly.hopZone x.hop))).length ≤ 12) := by
  decide +kernel

/-- An outgrown set is let be; the seams that a grant takes: STOP, LOOP with laps and without, LINK (R41, R42, R44). -/
theorem test_grants_at_the_bounds :
    ((renamed.runPass 7).pinToken = some 7 ∧ (renamed.runPass 7).hasPending 7 = true ∧ ((renamed.runPass 7).carrier 7).state = .advancing) ∧
    ((rolling.grantSet 7 [⟨5, 12⟩]).carrier 7).cursor = .atEnd ∧
    (((rolling.setRoute 5 ⟨true, 10, 3, .loop, 1, none, 1⟩).grantSet 7 [⟨5, 12⟩]).carrier 7).cursor = .hop 10 ∧
    ((((rolling.modCarrier 7 (fun r => { r with laps := 1 })).setRoute 5 ⟨true, 10, 3, .loop, 1, none, 1⟩).grantSet 7 [⟨5, 12⟩]).carrier 7).cursor =
      .atEnd ∧
    (((linked.setRoute 5 ⟨true, 10, 3, .stop, 0, none, 0⟩).modCarrier 7 (fun r => { r with state := .advancing, route := some 6 })).grantSet 7
      [⟨6, 21⟩] |>.route 5).users = 1 ∧
    (linked.linkTaken ⟨6, 21⟩ = some 5 ∧ rolling.linkTaken ⟨5, 12⟩ = none) := by decide +kernel

/-! ## Invariants: a state that has each, and its step -/

/-- The reset part with a command in front of an empty queue's rest. -/
def started : State := { State.reset with pending := [.stopLineChange true] }

theorem step_started : ∃ t, step started = .next t := ⟨_, rfl⟩

theorem test_hypotheses_of_EveryStepKeepsConflictsOk : ConflictsOk started ∧ ∃ t, step started = .next t := by
  have h : ∀ z, started.zone z = .cleared := reset_zone
  refine ⟨⟨?_, ?_, ?_, ?_, ?_⟩, step_started⟩
  all_goals simp [h, ZoneRecord.cleared]

theorem test_hypotheses_of_EveryStepKeepsHoldersOk : HoldersOk started ∧ ∃ t, step started = .next t := by
  have h : ∀ z, started.holder z = none := fun z => congrArg ZoneState.holder (reset_zst z)
  have g : ∀ c, started.carrier c = .cleared := reset_carrier
  exact ⟨⟨fun z c => by simp [h, g, State.holds, Carrier.cleared], fun c _ => by simp [g, Carrier.cleared]⟩, step_started⟩

theorem test_hypotheses_of_EveryStepKeepsBlockedOk : BlockedOk started ∧ ∃ t, step started = .next t := by
  have h : ∀ z, started.zst z = .cleared := reset_zst
  exact ⟨fun z => by simp [h, State.holder, ZoneState.cleared], step_started⟩

theorem test_hypotheses_of_EveryStepKeepsSafeModeOk : SafeModeOk started ∧ ∃ t, step started = .next t := by
  have g : ∀ c, started.carrier c = .cleared := reset_carrier
  exact ⟨fun _ c => by simp [State.active, g, Carrier.cleared], step_started⟩

theorem test_hypotheses_of_EveryStepKeepsUsersOk : UsersOk started ∧ ∃ t, step started = .next t := by
  have g : ∀ c, started.carrier c = .cleared := reset_carrier
  have k : ∀ r, started.route r = .cleared := reset_route
  exact ⟨⟨fun r => by simp [g, k, Carrier.cleared, RouteRecord.cleared], fun c _ => by simp [g, Carrier.cleared]⟩, step_started⟩

theorem test_hypotheses_of_EveryStepKeepsRangesOk :
    RangesOk { district with pending := [.stopLineChange true] } ∧
      ∃ t, step { district with pending := [.stopLineChange true] } = .next t :=
  ⟨⟨ranges_district.quota, ranges_district.hops, ranges_district.horizon, ranges_district.waitAge, ranges_district.instability,
    ranges_district.silence, ranges_district.run, ranges_district.floorRuns, ranges_district.dispatchRuns,
    ranges_district.silenceLimit, ranges_district.clearPersistence, ranges_district.starvationLimit⟩, _, rfl⟩

theorem test_hypotheses_of_the_invariants_of_outputs_corridors_and_held_lists :
    OutputsOk started ∧ CorridorsOk { district with pending := [.stopLineChange true] } ∧ HeldOk started := by
  have h : ∀ z, started.zst z = .cleared := reset_zst
  have g : ∀ c, started.carrier c = .cleared := reset_carrier
  have z : ∀ z, (started.zone z).defined = false := fun z => congrArg ZoneRecord.defined (reset_zone z)
  refine ⟨fun f o => ⟨fun e => ?_, fun ⟨w, d, _⟩ => absurd d (by rw [z w]; decide)⟩, fun k => ?_, fun c => ?_⟩
  · exact absurd e ((by decide +kernel : ∀ f o, ¬started.output f o = true) f o)
  · have e : ({ district with pending := [.stopLineChange true] } : State).cst k = ⟨.free, none, [], 0, []⟩ :=
      (by decide +kernel : ∀ k, ({ district with pending := [.stopLineChange true] } : State).cst k = ⟨.free, none, [], 0, []⟩) k
    have q := (ranges_district.quota k).1
    rw [e]
    exact ⟨List.nodup_nil, fun o ho => absurd ho List.not_mem_nil, fun n => absurd rfl n, ⟨fun _ => rfl, fun _ => rfl⟩,
      fun n => (nomatch n), fun _ => rfl, fun _ => q, Nat.zero_le _⟩
  · rw [g c]; decide

/-- The waiting district with zone 2 PENDING for carrier 7, the token holder, and carrier 11 in corridor 1. -/
def settled : State :=
  let s := waiting.modCarrier 7 (fun r => { r with held := r.held ++ [⟨2, .pending, some ⟨5, 11⟩⟩] })
  let s := (s.setZst 2 ⟨some 7, [], .unbound, false⟩).modCarrier 11 (fun r => { r with held := r.held ++ [⟨4, .granted, none⟩] })
  { (s.setZst 4 ⟨some 11, [], .unclear, true⟩).setCst 1 ⟨.flowing, none, [⟨11, none⟩], 0, []⟩ with
    pinToken := some 7, tickets := 1, pending := [.stopLineChange true] }

theorem settled_held : ∀ c, (settled.carrier c).held =
    if c = 7 then [⟨1, .granted, none⟩, ⟨2, .pending, some ⟨5, 11⟩⟩] else if c = 9 then [⟨3, .granted, none⟩]
    else if c = 11 then [⟨5, .granted, none⟩, ⟨4, .granted, none⟩] else [] := by decide +kernel

theorem settled_holder : ∀ z, settled.holder z =
    if z = 1 ∨ z = 2 then some 7 else if z = 3 then some 9 else if z = 4 ∨ z = 5 then some 11 else none := by decide +kernel

theorem settled_wait : ∀ c, (settled.carrier c).wait = if c = 7 then .zone 3 else .none := by decide +kernel

theorem settled_queue : ∀ z, (settled.zst z).queue = if z = 3 then [⟨7, .zone, .normal, 0⟩] else [] := by decide +kernel

theorem test_hypotheses_of_EveryStepKeepsWaitsOk : WaitsOk settled ∧ ClaimsOk settled ∧ ∃ t, step settled = .next t := by
  have k : ∀ k, (settled.cst k).queue = [] := by decide +kernel
  have h : settled.holdWait = [] := by decide +kernel
  have n : ∀ z w, w ∈ (settled.zst z).queue → z = 3 ∧ w = ⟨7, .zone, .normal, 0⟩ := fun z w m => by
    rw [settled_queue] at m; split at m
    · exact ⟨‹_›, List.mem_singleton.1 m⟩
    · cases m
  refine ⟨⟨fun z => ?_, fun c => ?_, ?_, fun c w => ?_, by decide +kernel⟩, ⟨by decide +kernel, by decide +kernel⟩, _, rfl⟩
  · rw [settled_queue]; split
    · exact ⟨by decide, List.pairwise_singleton _ _, by decide +kernel⟩
    · exact ⟨List.nodup_nil, .nil, nofun⟩
  · rw [k]; exact ⟨List.nodup_nil, .nil, nofun⟩
  · rw [h]; exact ⟨List.nodup_nil, .nil, nofun⟩
  · rw [settled_wait]
    cases w with
    | none => exact ⟨False.elim, fun x => absurd rfl x.2⟩
    | zone z =>
      refine ⟨fun ⟨e, m, s, _⟩ => ?_, fun ⟨x, _⟩ => ?_⟩
      · obtain ⟨rfl, rfl⟩ := n z e m; subst s; exact ⟨rfl, by decide⟩
      · split at x
        · cases x; exact ⟨⟨7, .zone, .normal, 0⟩, by rw [settled_queue]; exact List.mem_singleton.2 rfl, Eq.symm ‹_›, rfl⟩
        · cases x
    | conflict z => exact ⟨fun ⟨e, m, _, q⟩ => by (obtain ⟨_, rfl⟩ := n z e m; cases q), fun ⟨x, _⟩ => by split at x <;> cases x⟩
    | field z => exact ⟨fun ⟨e, m, _, q⟩ => by (obtain ⟨_, rfl⟩ := n z e m; cases q), fun ⟨x, _⟩ => by split at x <;> cases x⟩
    | corridor i => exact ⟨fun ⟨e, m, _⟩ => by (rw [k] at m; cases m), fun ⟨x, _⟩ => by split at x <;> cases x⟩
    | hold => exact ⟨fun ⟨e, m, _⟩ => by (rw [h] at m; cases m), fun ⟨x, _⟩ => by split at x <;> cases x⟩

theorem holders_settled : HoldersOk settled := by
  refine ⟨fun z c => ?_, by decide +kernel⟩
  unfold State.holds
  rw [settled_holder, settled_held]
  by_cases a : c = 7
  · subst a; revert z; decide +kernel
  · by_cases b : c = 9
    · subst b; revert z; decide +kernel
    · by_cases d : c = 11
      · subst d; revert z; decide +kernel
      · rw [if_neg a, if_neg b, if_neg d]
        refine ⟨fun x => ?_, nofun⟩
        split at x
        · exact absurd (Option.some.inj x).symm a
        · split at x
          · exact absurd (Option.some.inj x).symm b
          · split at x
            · exact absurd (Option.some.inj x).symm d
            · cases x

theorem test_hypotheses_of_EveryStepKeepsFloorOk :
    HoldersOk settled ∧ UsersOk settled ∧ RangesOk settled ∧ FloorOk settled ∧ ∃ t, step settled = .next t := by
  have five : ∀ r, (settled.route r).defined = true → r = 5 := by decide +kernel
  have place : ∀ k, (∃ o ∈ (settled.cst k).occupants, o.slot = 11) ↔ k = 1 := by decide +kernel
  refine ⟨holders_settled, ⟨by decide +kernel, by decide +kernel⟩, by constructor <;> decide +kernel, ⟨fun _ r d => ?_, fun c r e => ?_, by decide +kernel,
    by decide +kernel, by decide +kernel⟩, _, rfl⟩
  · rw [five r d]
    have b : ∀ n < 3, ∀ m < n, settled.routeZone 5 m ≠ settled.routeZone 5 n := by decide +kernel
    have e : (settled.route 5).hopCount = 3 := by decide +kernel
    exact ⟨by decide +kernel, by decide +kernel, fun m n l k _ => b n (e ▸ k) m l⟩
  · have x : r = 5 ∧ c = 7 := (by decide +kernel : ∀ c r, (settled.carrier c).route = some r → r = 5 ∧ c = 7) c r e
    obtain ⟨rfl, rfl⟩ := x
    exact ⟨by decide +kernel, fun h q => by
      have y : (settled.carrier 7).cursor = .hop 11 := by decide +kernel
      cases y.symm.trans q; decide +kernel⟩

end Sys2Proof.Tests
end

section
/-! SUPPORT. R4 through every step: the changes of conflict lists and of holders that keep `ConflictsOk`. -/

namespace Sys2Proof.Machine

/-! ## The conflict lists and pairs (R4) -/

/-- R4 stands where the conflict lists stay and no zone gets a holder. -/
theorem ConflictsOk.fewer {s t : State} (h : ConflictsOk s) (lists : ∀ z, (t.zone z).conflicts = (s.zone z).conflicts)
    (holders : ∀ z c, t.holder z = some c → s.holder z = some c) : ConflictsOk t where
  short z := by rw [lists]; exact h.short z
  irreflexive z := by rw [lists]; exact h.irreflexive z
  distinct z := by rw [lists]; exact h.distinct z
  symmetric z w m := by rw [lists] at m ⊢; exact h.symmetric z w m
  apart z w c d m hz hw := by
    rw [lists] at m
    exact h.apart z w c d m (holders z c hz) (holders w d hw)

theorem ConflictsOk.same {s t : State} (h : ConflictsOk s) (k : HoldingSame s t) : ConflictsOk t :=
  h.fewer (fun z => by rw [zone_of k.zones]) fun z c e => (k.holder z).symm.trans e

/-- R4 stands where a carrier comes to hold a zone of whose conflict list no other carrier holds one. -/
theorem ConflictsOk.taken {s t : State} {c : CarrierId} {z : ZoneId} (h : ConflictsOk s) (zones : t.zones = s.zones)
    (holders : ∀ w, t.holder w = if w = z then some c else s.holder w)
    (free : ∀ w ∈ (s.zone z).conflicts, ∀ d, s.holder w = some d → d = c) : ConflictsOk t := by
  have lists : ∀ w, t.zone w = s.zone w := zone_of zones
  refine ⟨fun w => ?_, fun w => ?_, fun w => ?_, fun w x m => ?_, fun w x a b m hw hx => ?_⟩
  · rw [lists]; exact h.short w
  · rw [lists]; exact h.irreflexive w
  · rw [lists]; exact h.distinct w
  · rw [lists] at m ⊢; exact h.symmetric w x m
  · rw [lists] at m
    rw [holders] at hw hx
    by_cases ew : w = z
    · subst ew
      have ne : x ≠ w := fun e => h.irreflexive w (e ▸ m)
      rw [if_pos rfl] at hw
      rw [if_neg ne] at hx
      exact (Option.some.inj hw).symm.trans (free x m b hx).symm
    · rw [if_neg ew] at hw
      by_cases ex : x = z
      · subst ex
        rw [if_pos rfl] at hx
        exact (free w (h.symmetric w x m) a hw).trans (Option.some.inj hx)
      · rw [if_neg ex] at hx
        exact h.apart w x a b m hw hx

theorem holder_of_heldByOther_false {s : State} {c d : CarrierId} {z : ZoneId} (h : s.heldByOther c z = false)
    (e : s.holder z = some d) : d = c := by
  unfold State.heldByOther at h
  rw [e] at h
  simpa using h

theorem HoldingSame.modCarrier (s : State) (c : CarrierId) (f : Carrier → Carrier) : HoldingSame s (s.modCarrier c f) := .zs rfl rfl

theorem HoldingSame.breakWatch (s : State) (c : CarrierId) : HoldingSame s (s.breakWatch c) := .zs rfl rfl

theorem HoldingSame.enterState (s : State) (c : CarrierId) (x : CarrierState) : HoldingSame s (s.enterState c x) := .zs rfl rfl

theorem ConflictsOk.engine : EngineClosed ConflictsOk where
  breakWatch _ h := h.same (.zs rfl rfl)
  freeToken h := h.same (.zs rfl rfl)
  takeToken _ h _ := h.same (.zs rfl rfl)
  join c w d h _ := h.same
    ((((HoldingSame.joinQueue _ c w d).trans (.modCarrier _ c _)).trans (.modCarrier _ c _)).trans (.enterState _ c _))
  rejoin c w d h _ := h.same
    (((((HoldingSame.leaveQueue _ c).trans (.joinQueue _ c w d)).trans (.modCarrier _ c _)).trans (.modCarrier _ c _)).trans
      (.breakWatch _ c))
  recordDeadlock _ h := h.same (.zs rfl rfl)
  settle c h _ := h.same (((HoldingSame.leaveQueue _ c).trans (.modCarrier _ c _)).trans (.enterState _ c _))
  exhaustAdvancing c h _ := h.same (((HoldingSame.detach _ c).trans (.enterState _ c _)).trans (.modCarrier _ c _))
  exhaustWaiting c h _ := h.same
    (((((HoldingSame.leaveQueue _ c).trans (.modCarrier _ c _)).trans (.detach _ c)).trans (.enterState _ c _)).trans
      (.modCarrier _ c _))
  setCst _ _ h _ := h.same (.zs rfl rfl)
  enterHeld c e h _ free _ := h.taken (EngineFrame.enterHeld _ c e).zones (holder_enterHeld _ c e)
    fun w m _ => holder_of_heldByOther_false (free.2 w m)
  moveCursorPast c x h _ := h.same (.moveCursorPast _ c x)
  grantPending _ h _ := h.same (.zs rfl rfl)

theorem zones_setHolder (s : State) (z : ZoneId) (h : Option CarrierId) : (s.setHolder z h).zones = s.zones :=
  (EngineFrame.setHolder s z h).zones

theorem ConflictsOk.release : ReleaseClosed ConflictsOk where
  toEngineClosed := ConflictsOk.engine
  giveUp c z h _ := h.fewer (fun w => by rw [zone_of (zones_setHolder ..)]; rfl) fun w d e => by
    rw [holder_setHolder] at e
    split at e
    · cases e
    · exact e

/-- Nobody but the carrier itself holds a zone that conflicts with one that may be given to it (R119). -/
theorem free_of_conflictsWithOther {s : State} (h : ConflictsOk s) {c : CarrierId} {z : ZoneId}
    (g : s.conflictsWithOther c z = false) : ∀ w ∈ (s.zone z).conflicts, ∀ d, s.holder w = some d → d = c := by
  intro w m d e
  have k := List.any_eq_false.1 g w (List.mem_finRange w)
  have listed : z ∈ (s.zone w).conflicts := h.symmetric z w m
  exact holder_of_heldByOther_false (by simpa [listed] using k) e

/-- Nobody holds a zone that conflicts with one that is not occupied (R58). -/
theorem unheld_of_not_occupied {s : State} (h : ConflictsOk s) {z : ZoneId} (g : s.occupied z = false) :
    ∀ w ∈ (s.zone z).conflicts, s.holder w = none := by
  intro w m
  unfold State.occupied at g
  rw [Bool.or_eq_false_iff] at g
  have k := List.any_eq_false.1 g.2 w (List.mem_finRange w)
  have listed : z ∈ (s.zone w).conflicts := h.symmetric z w m
  simpa [listed] using k

theorem not_occupied_of_admitRefusal {s : State} {c : CarrierId} {f r : ZoneId} (g : s.admitRefusal c f r = none) :
    s.occupied f = false ∧ s.occupied r = false := by
  cases o : s.occupied f || s.occupied r with
  | false => exact Bool.or_eq_false_iff.1 o
  | true =>
    unfold State.admitRefusal at g
    simp only [o, if_true] at g
    repeat' split at g
    all_goals cases g

theorem holder_admitZone (s : State) (c : CarrierId) (z w : ZoneId) :
    (s.admitZone c z).holder w = if w = z then some c else s.holder w := by
  unfold State.admitZone
  rw [joinZoneCorridor_only]
  exact holder_setHolder s z w (some c)

theorem ConflictsOk.admitZone {s : State} (h : ConflictsOk s) {c : CarrierId} {z : ZoneId}
    (free : ∀ w ∈ (s.zone z).conflicts, ∀ d, s.holder w = some d → d = c) : ConflictsOk (s.admitZone c z) :=
  h.taken (admitted_one s c z).zones (holder_admitZone s c z) free

/-- The zones of an admission, none of whose conflict lists names a zone held by another, come to their carrier together (R58, R59). -/
theorem ConflictsOk.admitAll {c : CarrierId} (l : List HeldEntry) {s : State} (h : ConflictsOk s)
    (free : ∀ e ∈ l, ∀ w ∈ (s.zone e.zone).conflicts, ∀ d, s.holder w = some d → d = c) :
    ConflictsOk (l.foldl (fun t e => t.admitZone c e.zone) s) := by
  induction l generalizing s with
  | nil => exact h
  | cons e l ih =>
    refine ih (h.admitZone (free e List.mem_cons_self)) fun x hx w m d hw => ?_
    rw [zone_of (admitted_one s c e.zone).zones] at m
    rw [holder_admitZone] at hw
    split at hw
    · exact (Option.some.inj hw).symm
    · exact free x (List.mem_cons_of_mem _ hx) w m d hw

/-! ## Zone records -/

theorem HoldingSame.repolarize (s : State) (b : Option FieldBinding) : HoldingSame s (s.repolarize b) := by
  unfold State.repolarize
  split
  · exact .refl s
  · dsimp only
    split
    · exact .refl s
    · exact .zs rfl rfl

theorem HoldingSame.followRequests (s : State) (old new : ZoneRecord) : HoldingSame s (s.followRequests old new) := by
  unfold State.followRequests
  split
  · exact (HoldingSame.binding _ _).trans (.binding _ _)
  · exact .refl s

/-- A Write Zone writes the one record, and leaves the other records and every holder (R17). -/
theorem HoldingSame.layZone (s : State) (z : ZoneId) (new : ZoneRecord) : HoldingSame (s.setZone z new) (s.layZone z new) := by
  unfold State.layZone
  dsimp only
  have k := ((HoldingSame.repolarize (s.setZone z new) (s.zone z).fieldBinding).trans (.repolarize _ new.fieldBinding)).trans
    (.followRequests _ (s.zone z) new)
  split
  · exact k.trans (.fieldState _ z)
  · exact k

/-- The record a Write Zone writes keeps the conflict list in place (R1). -/
theorem conflicts_of_zoneWriteRecord {slot : MgmtSlot} {w : ZoneWrite} {old new : ZoneRecord} {ignored : Bool}
    (h : zoneWriteRecord slot w old = some (new, ignored)) : new.conflicts = old.conflicts := by
  unfold zoneWriteRecord at h
  dsimp only at h
  repeat' split at h
  all_goals cases h
  all_goals rfl

theorem ConflictsOk.layZone {s : State} {slot : MgmtSlot} {z : ZoneId} {new : ZoneRecord} (h : ConflictsOk s)
    (keeps : new.conflicts = (s.zone z).conflicts) : ConflictsOk ((s.noteTableWrite slot).layZone z new) := by
  have noted : HoldingSame s (s.noteTableWrite slot) := by
    obtain ⟨a, b, e⟩ := noteTableWrite_only s slot
    rw [e]
    exact .zs rfl rfl
  have written : ConflictsOk ((s.noteTableWrite slot).setZone z new) := by
    refine (h.same noted).fewer (fun w => ?_) fun _ _ k => k
    rw [zone_setZone]
    split
    · next q => rw [keeps, q, zone_noteTableWrite]
    · rfl
  exact written.same (.layZone _ z new)

/-! ## Pairs -/

theorem conflicts_setConflicts (s : State) (z w : ZoneId) (l : List ZoneId) :
    ((s.setConflicts z l).zone w).conflicts = if w = z then l else (s.zone w).conflicts := by
  unfold State.setConflicts
  rw [zone_setZone]
  split <;> rfl

/-- The lists after a pair was set (R5). -/
theorem conflicts_addPair (s : State) {x y : ZoneId} (ne : x ≠ y) (z : ZoneId) : ((s.addPair x y).zone z).conflicts =
    if z = x then (s.zone x).conflicts ++ [y] else if z = y then (s.zone y).conflicts ++ [x] else (s.zone z).conflicts := by
  unfold State.addPair
  rw [conflicts_setConflicts, conflicts_setConflicts]
  by_cases hx : z = x
  · subst hx; rw [if_neg ne, if_pos rfl, if_pos rfl]
  · rw [if_neg hx, if_neg hx]

/-- The lists after a pair was cleared (R6). -/
theorem conflicts_removePair (s : State) {x y : ZoneId} (ne : x ≠ y) (z : ZoneId) : ((s.removePair x y).zone z).conflicts =
    if z = x then (s.zone x).conflicts.filter (· != y) else if z = y then (s.zone y).conflicts.filter (· != x)
      else (s.zone z).conflicts := by
  unfold State.removePair
  rw [conflicts_setConflicts, conflicts_setConflicts]
  by_cases hx : z = x
  · subst hx; rw [if_neg ne, if_pos rfl, if_pos rfl]
  · rw [if_neg hx, if_neg hx]

theorem mem_conflicts_addPair (s : State) {x y : ZoneId} (ne : x ≠ y) (z w : ZoneId) :
    w ∈ ((s.addPair x y).zone z).conflicts ↔ w ∈ (s.zone z).conflicts ∨ (z = x ∧ w = y) ∨ (z = y ∧ w = x) := by
  rw [conflicts_addPair s ne]
  by_cases hx : z = x
  · subst hx; simp [ne]
  · by_cases hy : z = y
    · subst hy; simp [hx]
    · simp [hx, hy]

theorem mem_conflicts_removePair (s : State) {x y : ZoneId} (ne : x ≠ y) (z w : ZoneId) :
    w ∈ ((s.removePair x y).zone z).conflicts ↔ w ∈ (s.zone z).conflicts ∧ ¬(z = x ∧ w = y) ∧ ¬(z = y ∧ w = x) := by
  rw [conflicts_removePair s ne]
  by_cases hx : z = x
  · subst hx; simp [ne]
  · by_cases hy : z = y
    · subst hy; simp [hx]
    · simp [hx, hy]

theorem nodup_append_singleton {α : Type} {l : List α} {x : α} (h : l.Nodup) (new : x ∉ l) : (l ++ [x]).Nodup :=
  List.nodup_append.2 ⟨h, List.pairwise_singleton _ x, fun _ ha _ hb e => new (List.mem_singleton.1 hb ▸ e ▸ ha)⟩

theorem eq_of_heldApart_false {s : State} {x y : ZoneId} (h : s.heldApart x y = false) {c d : CarrierId}
    (hx : s.holder x = some c) (hy : s.holder y = some d) : c = d := by
  unfold State.heldApart at h
  rw [hx, hy] at h
  simpa using h

theorem ConflictsOk.addPair {s : State} {x y : ZoneId} (h : ConflictsOk s) (ne : x ≠ y) (new : y ∉ (s.zone x).conflicts)
    (roomx : (s.zone x).conflicts.length < 4) (roomy : (s.zone y).conflicts.length < 4) (apart : s.heldApart x y = false) :
    ConflictsOk (s.addPair x y) := by
  have new' : x ∉ (s.zone y).conflicts := fun m => new (h.symmetric y x m)
  refine ⟨fun z => ?_, fun z => ?_, fun z => ?_, fun z w m => ?_, fun z w c d m hz hw => ?_⟩
  · have := h.short z
    rw [conflicts_addPair s ne]
    split
    · rw [List.length_append, List.length_singleton]; omega
    · split
      · rw [List.length_append, List.length_singleton]; omega
      · exact this
  · rw [mem_conflicts_addPair s ne]
    rintro (m | ⟨a, b⟩ | ⟨a, b⟩)
    · exact h.irreflexive z m
    · exact ne (a.symm.trans b)
    · exact ne (b.symm.trans a)
  · rw [conflicts_addPair s ne]
    split
    · exact nodup_append_singleton (h.distinct x) new
    · split
      · exact nodup_append_singleton (h.distinct y) new'
      · exact h.distinct z
  · rw [mem_conflicts_addPair s ne] at m ⊢
    rcases m with m | ⟨a, b⟩ | ⟨a, b⟩
    · exact .inl (h.symmetric z w m)
    · exact .inr (.inr ⟨b, a⟩)
    · exact .inr (.inl ⟨b, a⟩)
  · rw [mem_conflicts_addPair s ne] at m
    rcases m with m | ⟨rfl, rfl⟩ | ⟨rfl, rfl⟩
    · exact h.apart z w c d m hz hw
    · exact eq_of_heldApart_false apart hz hw
    · exact (eq_of_heldApart_false apart hw hz).symm

theorem ConflictsOk.removePair {s : State} {x y : ZoneId} (h : ConflictsOk s) (ne : x ≠ y) : ConflictsOk (s.removePair x y) := by
  have sub : ∀ z, ((s.removePair x y).zone z).conflicts.Sublist (s.zone z).conflicts := fun z => by
    rw [conflicts_removePair s ne]
    split
    · next e => rw [e]; exact List.filter_sublist
    · split
      · next e => rw [e]; exact List.filter_sublist
      · exact .refl _
  refine ⟨fun z => Nat.le_trans (sub z).length_le (h.short z), fun z m => h.irreflexive z ((sub z).subset m),
    fun z => (h.distinct z).sublist (sub z), fun z w m => ?_, fun z w c d m => h.apart z w c d ((sub z).subset m)⟩
  rw [mem_conflicts_removePair s ne] at m ⊢
  obtain ⟨m, a, b⟩ := m
  exact ⟨h.symmetric z w m, fun k => b ⟨k.2, k.1⟩, fun k => a ⟨k.2, k.1⟩⟩

/-! ## Every change of the part -/

theorem HoldingSame.fold {α : Type} (f : State → α → State) (hf : ∀ t a, HoldingSame t (f t a)) (l : List α) (s : State) :
    HoldingSame s (l.foldl f s) := by
  induction l generalizing s with
  | nil => exact .refl s
  | cons a l ih => exact (hf s a).trans (ih _)

theorem HoldingSame.recomputeHeld (s : State) (c : CarrierId) : HoldingSame s (s.recomputeHeld c) :=
  .fold (fun t z => if t.holder z = some c then (t.recomputeBlocked z).recomputeOutput z else t) (fun t z => by
    split
    · exact (HoldingSame.blocked t z).trans (.output _ z)
    · exact .refl t) allZones s

theorem HoldingSame.fieldSlots {s t : State} (h : OnlyFieldSlots s t) : HoldingSame s t := by
  rw [h.eq]
  exact .zs rfl rfl

theorem HoldingSame.fieldsFollow (before after : State) : HoldingSame after (before.fieldsFollow after) :=
  .fold State.setFieldState HoldingSame.fieldState _ after

theorem ConflictsOk.restart {s : State} (h : ConflictsOk s) (cause : ResetCause) : ConflictsOk (s.restart cause) := by
  have tables := restart_tables s cause
  refine h.fewer (fun z => by rw [zone_of tables.zones]) fun z c e => ?_
  unfold State.holder at e
  rw [tables.zst] at e
  cases e

theorem conflictsOk_powerOn (s : State) (straps : BitVec 4) : ConflictsOk (s.powerOn straps) := by
  have zones : ∀ z, ((s.powerOn straps).zone z).conflicts = [] := fun z => by
    rw [(powerOn_tables s straps).zone, reset_zone]; rfl
  have unheld : ∀ z, (s.powerOn straps).holder z = none := fun z => by
    unfold State.holder
    rw [(powerOn_tables s straps).zst, reset_zst]; rfl
  refine ⟨fun z => ?_, fun z => ?_, fun z => ?_, fun z w m => ?_, fun z w c d _ hz => absurd ((unheld z).symm.trans hz) nofun⟩
  · rw [zones]; exact Nat.zero_le 4
  · rw [zones]; exact List.not_mem_nil
  · rw [zones]; exact List.nodup_nil
  · rw [zones] at m; cases m

theorem ConflictsOk.enrol {s : State} {c : CarrierId} {f r : ZoneId} (h : ConflictsOk s) (g : s.admitRefusal c f r = none)
    (held : List HeldEntry) (hl : ∀ e ∈ held, e.zone = f ∨ e.zone = r) (new : Carrier → Carrier) :
    ConflictsOk (held.foldl (fun t e => t.admitZone c e.zone) (s.modCarrier c new)) := by
  obtain ⟨of, or⟩ := not_occupied_of_admitRefusal g
  refine ConflictsOk.admitAll held (h.same (.zs rfl rfl)) fun e he w m d hw => ?_
  have unheld : s.holder w = none := by
    rcases hl e he with q | q
    · exact unheld_of_not_occupied h of w (q ▸ m)
    · exact unheld_of_not_occupied h or w (q ▸ m)
  exact absurd (unheld.symm.trans hw) nofun

theorem ConflictsOk.part : PartClosed ConflictsOk where
  toReleaseClosed := ConflictsOk.release
  outside h k := h.same (.zs k.zones k.zoneStates)
  touch c f h _ := h.same (.zs rfl rfl)
  setValidator c x h _ _ := h.same (.zs rfl rfl)
  setReport c r h := (h.same (t := State.modCarrier _ c _) (.zs rfl rfl)).same (.recomputeHeld _ c)
  dequeue c h _ := h.same ((HoldingSame.leaveQueue _ c).trans (.zs rfl rfl))
  park c x h _ _ := h.same (.zs rfl rfl)
  advance c h _ _ := h.same (.zs rfl rfl)
  vacate c h _ _ := h.same (.zs rfl rfl)
  detach c h := h.same (.detach _ c)
  dropUser c r h _ := h.same ((HoldingSame.users _ _).trans (.zs rfl rfl))
  moveCursor c x h _ := h.same (.moveCursorPast _ c x)
  grantOne c z h := h.same (.zs rfl rfl)
  giveZone c z _ h _ _ _ apart _ := h.taken (zones_setHolder ..) (fun w => holder_setHolder _ z w (some c))
    (free_of_conflictsWithOther h apart)
  rearFirst c h := h.same (.zs rfl rfl)
  enrol c f r h g := h.enrol g _ (fun e he => by
    split at he <;> simp only [List.mem_cons, List.not_mem_nil, or_false] at he
    · exact .inl (congrArg HeldEntry.zone he)
    · rcases he with he | he
      · exact .inr (congrArg HeldEntry.zone he)
      · exact .inl (congrArg HeldEntry.zone he)) _
  layZone slot w z new h may := by
    obtain ⟨⟨ignored, record⟩, _⟩ := may
    exact h.layZone (conflicts_of_zoneWriteRecord record)
  addPair x y h ne new roomx roomy apart := h.addPair ne new roomx roomy apart
  removePair x y h ne := h.removePair ne
  setCorridor k d q h _ _ := h.same (.zs rfl rfl)
  setRoute r w x h _ _ := h.same (.zs rfl rfl)
  setHop i x h := h.same (.zs rfl rfl)
  fieldsFollow read h := h.same ((HoldingSame.fieldSlots (filterInputs_only _ read)).trans (.fieldsFollow _ _))
  clearReached f i h := (h.same (t := State.setInput _ f i _) (.zs rfl rfl)).same (.fieldsFollow _ _)
  setParameters a b c h _ _ _ _ _ _ := h.same (.zs rfl rfl)
  toService h _ := h.same (.zs rfl rfl)
  toSafe h _ := h.same (.zs rfl rfl)
  restart x h := h.restart x
  powerOn x _ := conflictsOk_powerOn _ x

/-- Settles O53: R4 is kept by each elementary change of the part, and so by every step. -/
theorem everyStepKeepsConflictsOk : Obligations.EveryStepKeepsConflictsOk :=
  fun _ _ h e => ConflictsOk.part.step h e

end Sys2Proof.Machine
end

section
/-! SUPPORT. When a Write Zone is refused: each refusal and failed check of R12 to R15, and the answer it gives. -/

namespace Sys2Proof.Machine

/-! ## The answer of a Write Zone -/

/-- A Write Zone that its slot machine takes does what its rule says and answers. -/
theorem exec_writeZone {slot : MgmtSlot} {s : State} (ready : s.ready slot) (w : ZoneWrite) : exec (.writeZone slot w) s =
    .next ((writeZone slot w s).1.answered slot 0x03 (writeZone slot w s).2.status (writeZone slot w s).2.results) :=
  congrArg _ (takeCommand_changing ready (writeZone slot w))

theorem exec_writeZone_eq {slot : MgmtSlot} {s t : State} {a : Answer} (ready : s.ready slot) {w : ZoneWrite}
    (h : writeZone slot w s = (t, a)) : exec (.writeZone slot w) s = .next (t.answered slot 0x03 a.status a.results) := by
  rw [exec_writeZone ready, h]

/-- A Write Zone whose bytes carry no record is a BAD_ITEM (R12). -/
theorem writeZone_bad {slot : MgmtSlot} {s : State} {w : ZoneWrite} (h : ∀ old, zoneWriteRecord slot w old = none) :
    writeZone slot w s = (s, .bare .badItem) := by
  unfold writeZone
  split
  · rfl
  · rw [h]

theorem writeZone_bad_zone {slot : MgmtSlot} {s : State} {w : ZoneWrite} (h : 240 ≤ w.zone.toNat) :
    writeZone slot w s = (s, .bare .badItem) := by
  unfold writeZone
  rw [zoneOf_of_le h]

/-- A sector, corridor or position out of range leaves no record (R12). -/
theorem zoneWriteRecord_out_of_range {slot : MgmtSlot} {w : ZoneWrite} {old : ZoneRecord}
    (h : 8 ≤ w.sector.toNat ∨ (32 ≤ w.corridor.toNat ∧ w.corridor ≠ 255) ∨ 16 ≤ w.position.toNat) :
    zoneWriteRecord slot w old = none := by
  unfold zoneWriteRecord
  dsimp only
  split
  · next sec k p _ _ hsec hk hp =>
    rcases h with h | ⟨h, ne⟩ | h
    · rw [byteBelow_of_le h] at hsec; cases hsec
    · unfold orNone at hk
      rw [if_neg ne, corridorOf_of_le h] at hk
      cases hk
    · rw [byteBelow_of_le h] at hp; cases hp
  · rfl

theorem fieldBindingOf_out_of_range {slot input polarity : Byte} (ne : slot ≠ 255) (h : 16 ≤ slot.toNat ∨ 8 ≤ input.toNat) :
    fieldBindingOf slot input polarity = none := by
  unfold fieldBindingOf
  rw [if_neg ne]
  split
  · next hs hi _ =>
    rcases h with h | h
    · rw [byteBelow_of_le h] at hs; cases hs
    · rw [byteBelow_of_le h] at hi; cases hi
  · rfl

theorem requestBindingOf_out_of_range {slot output : Byte} (ne : slot ≠ 255) (h : 16 ≤ slot.toNat ∨ 8 ≤ output.toNat) :
    requestBindingOf slot output = none := by
  unfold requestBindingOf
  rw [if_neg ne]
  split
  · next hs ho =>
    rcases h with h | h
    · rw [byteBelow_of_le h] at hs; cases hs
    · rw [byteBelow_of_le h] at ho; cases ho
  · rfl

/-- In the safety slot a binding out of range leaves no record (R12, R16). -/
theorem zoneWriteRecord_bad_binding {w : ZoneWrite} {old : ZoneRecord}
    (h : fieldBindingOf w.fieldSlot w.fieldInput w.fieldPolarity = none ∨ requestBindingOf w.requestSlot w.requestOutput = none) :
    zoneWriteRecord .safety w old = none := by
  unfold zoneWriteRecord
  dsimp only
  split
  · split
    · next hf hq =>
      rcases h with h | h
      · rw [h] at hf; cases hf
      · rw [h] at hq; cases hq
    · rfl
  · rfl

/-! ## The refusals of R13 -/

/-- A defined zone that is held or has waiters is neither undefined nor laid out anew (R13). -/
theorem zoneRefusal_busy {slot : MgmtSlot} {s : State} {z : ZoneId} {r : ZoneRecord} (defined : (s.zone z).defined = true)
    (busy : s.holder z ≠ none ∨ (s.zst z).queue ≠ []) (change : r.defined = false ∨ ¬r.sameLayout (s.zone z)) :
    s.zoneRefusal z (writtenZone slot (s.zone z) r) = some (.bare .busyItem) := by
  obtain ⟨keepDefined, -⟩ := writtenZone_fields slot (s.zone z) r
  have b := (zoneBusy_iff s z).2 busy
  unfold State.zoneRefusal
  dsimp only
  rw [defined, keepDefined, b]
  cases d : r.defined with
  | false => rfl
  | true =>
    have moves := (movesLayout_iff slot r (s.zone z)).2 (change.resolve_left (by rw [d]; exact nofun))
    rw [moves]
    rfl

/-- A defined zone that a HOLD or CORRIDOR waiter's next set names is not laid out anew (R13). -/
theorem zoneRefusal_awaited {slot : MgmtSlot} {s : State} {z : ZoneId} {r : ZoneRecord} (defined : (s.zone z).defined = true)
    (stays : r.defined = true) (change : ¬r.sameLayout (s.zone z)) (awaited : s.awaited z) :
    s.zoneRefusal z (writtenZone slot (s.zone z) r) = some (.bare .busyItem) := by
  obtain ⟨keepDefined, -⟩ := writtenZone_fields slot (s.zone z) r
  have moves := (movesLayout_iff slot r (s.zone z)).2 change
  have a := (zoneAwaited_iff s z).2 awaited
  unfold State.zoneRefusal
  dsimp only
  rw [defined, keepDefined, stays, moves, a, Bool.or_true]
  rfl

/-- A defined zone that defined routes name is not undefined; the lowest of them gives the index (R13). -/
theorem zoneRefusal_named {slot : MgmtSlot} {s : State} {z : ZoneId} {r : ZoneRecord} {q : RouteId}
    (defined : (s.zone z).defined = true) (free : s.holder z = none) (empty : (s.zst z).queue = []) (gone : r.defined = false)
    (names : s.routeNames q z) (lowest : ∀ p < q, ¬s.routeNames p z) :
    s.zoneRefusal z (writtenZone slot (s.zone z) r) = some (.check ⟨.routeReference, q.val⟩) := by
  obtain ⟨keepDefined, -⟩ := writtenZone_fields slot (s.zone z) r
  have found : s.routeNaming z = some q := by
    refine find_lowest _ q ((routeNames_iff s z q).2 names) fun p hp => ?_
    exact Bool.eq_false_iff.2 fun k => lowest p hp ((routeNames_iff s z p).1 k)
  unfold State.zoneRefusal
  dsimp only
  rw [defined, keepDefined, gone, zoneBusy_false free empty, found]
  rfl

/-! ## The checks of R14 and R15 -/

/-- The answer of a failed check of a Write Zone: its row of the table and the index in two bytes. -/
theorem check_results {kind : CheckKind} {n : Nat} (h : n < 256) : (Answer.check ⟨kind, n⟩).results = [kind.code, 0, byteOf n] := by
  show kind.code :: halfBytes (BitVec.ofNat 16 n) = _
  rw [halfBytes_small h]

/-- CORRIDOR_UNDEFINED: the corridor a record names is not defined. -/
theorem checkNewPlace_undefined {s t : State} {z : ZoneId} {k : CorridorId} (stays : (t.zone z).defined = true)
    (named : (t.zone z).corridor = some k) (undefined : (s.corridor k).defined = false) :
    s.checkNewPlace t z = some ⟨.corridorUndefined, k.val⟩ := by
  unfold State.checkNewPlace
  simp [stays, named, undefined, firstFailure]

/-- POSITION_USED: another zone stands at the position; the lowest gives the index. -/
theorem checkNewPlace_used {s t : State} {z w : ZoneId} {k : CorridorId} (stays : (t.zone z).defined = true)
    (named : (t.zone z).corridor = some k) (defined : (s.corridor k).defined = true) (ne : w ≠ z)
    (there : s.corridorOfZone w = some k) (used : (s.zone w).position = (t.zone z).position)
    (lowest : ∀ v < w, v ≠ z → s.corridorOfZone v = some k → (s.zone v).position ≠ (t.zone z).position) :
    s.checkNewPlace t z = some ⟨.positionUsed, w.val⟩ := by
  have found : otherZone z (fun v => s.corridorOfZone v == some k && (s.zone v).position == (t.zone z).position) = some w := by
    refine otherZone_eq ne (by simp [there, used]) fun v lt nv => ?_
    rw [Bool.and_eq_false_iff, beq_eq_false_iff_ne, beq_eq_false_iff_ne]
    exact Classical.or_iff_not_imp_left.2 fun k => lowest v lt nv (Classical.not_not.1 k)
  unfold State.checkNewPlace
  simp [stays, named, defined, found, firstFailure]

/-- CORRIDOR_GAP of the corridor a record names, in SERVICE mode. -/
theorem checkNewPlace_gap {s t : State} {z : ZoneId} {k : CorridorId} (stays : (t.zone z).defined = true)
    (named : (t.zone z).corridor = some k) (free : s.placeFree z (t.zone z) k) (mode : s.mode = .service) (gap : ¬t.positionsRun k) :
    s.checkNewPlace t z = some ⟨.corridorGap, k.val⟩ := by
  unfold State.checkNewPlace
  simp [stays, named, free.1, placeFree_other free, mode, gapFree_false gap, firstFailure]

/-- CORRIDOR_GAP of the corridor a zone leaves, in SERVICE mode. -/
theorem checkPlaceLeft_gap {s t : State} {z : ZoneId} {k : CorridorId} (mode : s.mode = .service) (there : s.corridorOfZone z = some k)
    (leaves : (t.zone z).defined = false ∨ (t.zone z).corridor ≠ some k ∨ (t.zone z).position ≠ (s.zone z).position)
    (gap : ¬t.positionsRun k) : s.checkPlaceLeft t z = some ⟨.corridorGap, k.val⟩ := by
  unfold State.checkPlaceLeft
  simp only [there]
  rw [if_pos]
  simp [mode, gapFree_false gap, leaves, or_assoc]

/-- POLARITY_MISMATCH: the lowest other zone that binds the input with the other polarity gives the index (log 34). -/
theorem checkPolarity_against {s t : State} {z w : ZoneId} {b : FieldBinding} (binds : (t.zone z).fieldBinding = some b) (ne : w ≠ z)
    (against : s.bindsAgainst w b) (lowest : ∀ v < w, v ≠ z → ¬s.bindsAgainst v b) :
    s.checkPolarity t z = some ⟨.polarityMismatch, w.val⟩ := by
  unfold State.checkPolarity
  simp only [binds]
  rw [otherZone_eq ne ((opposes_iff s w b).2 against) fun v lt nv => opposes_false (lowest v lt nv)]
  rfl

theorem checkPolarity_none {s t : State} {z : ZoneId}
    (agree : ∀ b w, (t.zone z).fieldBinding = some b → w ≠ z → ¬s.bindsAgainst w b) : s.checkPolarity t z = none := by
  unfold State.checkPolarity
  split
  · rfl
  · next b binds => rw [otherZone_none fun w ne => opposes_false (agree b w binds ne)]; rfl

/-- The first route of those R15 names that fails its checks. -/
theorem zoneRouteCheck_fails {s t : State} {z : ZoneId} {q : RouteId} {f : CheckFailure} (mode : s.mode = .service)
    (defined : (s.zone z).defined = true)
    (moved : (t.zone z).noStop ≠ (s.zone z).noStop ∨ (t.zone z).corridor ≠ (s.zone z).corridor ∨ (t.zone z).position ≠ (s.zone z).position)
    (touches : t.routeTouches q z) (fails : t.routeCheck q = some f) (lowest : ∀ p < q, t.routeTouches p z → t.routeCheck p = none) :
    s.zoneRouteCheck t z = some ⟨f.kind, q.val⟩ := by
  unfold State.zoneRouteCheck
  dsimp only
  rw [if_pos ⟨mode, defined, moved⟩]
  exact findSome_routesTouching touches fails lowest

/-- No route check fails where R15 names no route that fails. -/
theorem zoneRouteCheck_none {s t : State} {z : ZoneId}
    (pass : s.mode = .service → (s.zone z).defined = true →
      (t.zone z).noStop ≠ (s.zone z).noStop ∨ (t.zone z).corridor ≠ (s.zone z).corridor ∨ (t.zone z).position ≠ (s.zone z).position →
      ∀ q, t.routeTouches q z → t.routeCheck q = none) : s.zoneRouteCheck t z = none := by
  unfold State.zoneRouteCheck
  dsimp only
  split
  · next h =>
    obtain ⟨mode, defined, moved⟩ := h
    rw [List.findSome?_eq_none_iff]
    intro q m
    rw [pass mode defined moved q ((mem_routesTouching t z q).1 m)]
    rfl
  · rfl

/-! ## The steps of a Write Zone -/

section
variable {slot : MgmtSlot} {s : State} {z : ZoneId} {r : ZoneRecord}

/-- A Write Zone that R13 refuses leaves the state and is answered with the refusal. -/
theorem exec_writeZone_refused {a : Answer} (ready : s.ready slot)
    (h : s.zoneRefusal z (writtenZone slot (s.zone z) r) = some a) :
    exec (.writeZone slot (zoneWriteOf z r)) s = .next (s.answered slot 0x03 a.status a.results) :=
  exec_writeZone_eq ready (by rw [writeZone_of_write, h])

/-- A Write Zone whose first failed check is known leaves the state and is answered with it. -/
theorem exec_writeZone_checked {kind : CheckKind} {n : Nat} (ready : s.ready slot) (guard : s.passesGuard z r) (small : n < 256)
    (h : firstFailure [s.zoneChecks (s.setZone z (writtenZone slot (s.zone z) r)) z,
      s.zoneRouteCheck (s.setZone z (writtenZone slot (s.zone z) r)) z] = some ⟨kind, n⟩) :
    exec (.writeZone slot (zoneWriteOf z r)) s = .next (s.answered slot 0x03 .checkFailed [kind.code, 0, byteOf n]) := by
  rw [exec_writeZone_eq ready (t := s) (a := .check ⟨kind, n⟩) (by rw [writeZone_of_write, zoneRefusal_none slot guard]; simp only [h]),
    check_results small]
  rfl

/-- A failed check of R14 comes before those of R15. -/
theorem exec_writeZone_zoneChecks {kind : CheckKind} {n : Nat} (ready : s.ready slot) (guard : s.passesGuard z r) (small : n < 256)
    (h : s.zoneChecks (s.setZone z (writtenZone slot (s.zone z) r)) z = some ⟨kind, n⟩) :
    exec (.writeZone slot (zoneWriteOf z r)) s = .next (s.answered slot 0x03 .checkFailed [kind.code, 0, byteOf n]) :=
  exec_writeZone_checked ready guard small (by rw [h]; rfl)

end

/-! ## The statement, part by part -/

/-- The two corridor checks find nothing in a write that passes them (R14). -/
theorem corridorChecks_none {slot : MgmtSlot} {s t : State} {z : ZoneId} {old r : ZoneRecord} (written : t.zone z = writtenZone slot old r)
    (pass : s.passesCorridorChecks t z r) : s.checkNewPlace t z = none ∧ s.checkPlaceLeft t z = none :=
  ⟨checkNewPlace_none written pass.1, checkPlaceLeft_none written pass.2⟩

/-- Settles O18: each refusal of R13 and each failed check of R14 and R15 is the first that the rule finds. -/
theorem aWriteZoneIsRefused : Obligations.AWriteZoneIsRefused := by
  intro slot s ready
  refine ⟨fun w out => ?_, fun w safety out => ?_, fun z r t o ht ho => ?_⟩
  · rcases out with zone | out
    · exact exec_writeZone_eq ready (writeZone_bad_zone zone)
    · exact exec_writeZone_eq ready (writeZone_bad fun _ => zoneWriteRecord_out_of_range out)
  · subst safety
    refine exec_writeZone_eq ready (writeZone_bad fun _ => zoneWriteRecord_bad_binding ?_)
    exact out.imp (fun h => fieldBindingOf_out_of_range h.1 h.2) fun h => requestBindingOf_out_of_range h.1 h.2
  · subst ho
    have written : t.zone z = writtenZone slot (s.zone z) r := by rw [ht, zone_setZone_self]
    obtain ⟨keepDefined, keepNoStop, -, keepCorridor, keepPosition, -⟩ := written ▸ writtenZone_fields slot (s.zone z) r
    refine ⟨fun defined busy change => exec_writeZone_refused ready (zoneRefusal_busy defined busy change),
      fun defined stays change awaited => exec_writeZone_refused ready (zoneRefusal_awaited defined stays change awaited),
      fun q defined free empty gone names lowest => ?_, fun guard => ⟨fun k stays named => ⟨fun undefined => ?_,
        fun w defined ne there used lowest => ?_, fun free mode gap => ?_⟩, fun k mode there leaves fits gap => ?_,
        fun pass => ⟨fun b w binds ne against lowest => ?_, fun q f mode defined moved agree touches fails lowest => ?_⟩⟩⟩
    · rw [exec_writeZone_refused ready (zoneRefusal_named defined free empty gone names lowest), check_results (by omega)]
      rfl
    all_goals subst ht
    · refine exec_writeZone_zoneChecks (kind := .corridorUndefined) ready guard (by omega) ?_
      unfold State.zoneChecks
      rw [checkNewPlace_undefined (keepDefined.trans stays) (keepCorridor.trans named) undefined]
      rfl
    · refine exec_writeZone_zoneChecks (kind := .positionUsed) ready guard (by omega) ?_
      unfold State.zoneChecks
      rw [checkNewPlace_used (keepDefined.trans stays) (keepCorridor.trans named) defined ne there (used.trans keepPosition.symm)
        (by rw [keepPosition]; exact lowest)]
      rfl
    · refine exec_writeZone_zoneChecks (kind := .corridorGap) ready guard (by omega) ?_
      unfold State.zoneChecks
      rw [checkNewPlace_gap (keepDefined.trans stays) (keepCorridor.trans named) ⟨free.1, by rw [keepPosition]; exact free.2⟩ mode gap]
      rfl
    · refine exec_writeZone_zoneChecks (kind := .corridorGap) ready guard (by omega) ?_
      unfold State.zoneChecks
      rw [checkNewPlace_none written fun l d c => ⟨(fits l d c).1, fun _ => (fits l d c).2⟩,
        checkPlaceLeft_gap mode there (by rw [keepDefined, keepCorridor, keepPosition]; exact leaves) gap]
      rfl
    · obtain ⟨new, left⟩ := corridorChecks_none written pass
      refine exec_writeZone_zoneChecks (kind := .polarityMismatch) ready guard (by omega) ?_
      unfold State.zoneChecks
      rw [new, left, checkPolarity_against binds ne against lowest]
      rfl
    · obtain ⟨new, left⟩ := corridorChecks_none written pass
      refine exec_writeZone_checked ready guard (by omega) ?_
      unfold State.zoneChecks
      rw [new, left, checkPolarity_none agree, zoneRouteCheck_fails mode defined
        (by rw [keepNoStop, keepCorridor, keepPosition]; exact moved) touches fails lowest]
      rfl

end Sys2Proof.Machine
end

section
/-! SUPPORT. What an applied Write Zone does: the tables after it (R17), and the inputs that follow their bindings (R122, R127). -/

namespace Sys2Proof.Machine

/-! ## Inputs and the bindings they follow (R122, R127) -/

/-- A defined zone binds an input with a polarity. -/
def State.bindsInput (s : State) (w : ZoneId) (f : FieldSlotId) (i : LineId) (p : Polarity) : Prop :=
  (s.zone w).defined = true ∧ (s.zone w).fieldBinding = some ⟨f, i, p⟩

/-- A binding names an input. -/
def namesInput (b : Option FieldBinding) (f : FieldSlotId) (i : LineId) : Prop := ∃ p, b = some ⟨f, i, p⟩

/-- An input as it follows the bindings: UNCLEAR with a clear run of 0 where its polarity changes (R127). -/
def State.followedInput (s : State) (f : FieldSlotId) (i : LineId) : Input :=
  if (s.input f i).polarity = s.polarityValue f i then s.input f i else ⟨false, 0, s.polarityValue f i⟩

/-- The polarity that a zone's binding gives an input, if it is defined and binds it (R122). -/
def State.zonePolarity (s : State) (f : FieldSlotId) (i : LineId) (w : ZoneId) : Option Polarity :=
  if (s.zone w).defined then
    match (s.zone w).fieldBinding with
    | none => none
    | some b => if b.slot = f ∧ b.input = i then some b.polarity else none
  else none

theorem zonePolarity_eq_some (s : State) (w : ZoneId) (f : FieldSlotId) (i : LineId) (p : Polarity) :
    s.zonePolarity f i w = some p ↔ s.bindsInput w f i p := by
  unfold State.zonePolarity State.bindsInput
  cases d : (s.zone w).defined with
  | false => simp
  | true =>
    cases e : (s.zone w).fieldBinding with
    | none => simp
    | some b =>
      obtain ⟨f', i', p'⟩ := b
      simp [and_assoc]

/-- An input's polarity is that of the first zone that binds it, and CLEAR_WHEN_SET without one (R122). -/
theorem polarityValue_eq (s : State) (f : FieldSlotId) (i : LineId) :
    s.polarityValue f i = (allZones.findSome? (s.zonePolarity f i)).getD .clearWhenSet := by
  show (match allZones.findSome? (s.zonePolarity f i) with | none => Polarity.clearWhenSet | some p => p) = _
  cases allZones.findSome? (s.zonePolarity f i) <;> rfl

/-- An input that some zone binds, and none with another polarity, has that polarity (R122). -/
theorem polarityValue_bound {s : State} {f : FieldSlotId} {i : LineId} {p : Polarity} (bound : ∃ w, s.bindsInput w f i p)
    (only : ∀ w q, s.bindsInput w f i q → q = p) : s.polarityValue f i = p := by
  rw [polarityValue_eq]
  cases found : allZones.findSome? (s.zonePolarity f i) with
  | none =>
    obtain ⟨w, binds⟩ := bound
    have no := List.findSome?_eq_none_iff.1 found w (List.mem_finRange w)
    exact absurd (no.symm.trans ((zonePolarity_eq_some s w f i p).2 binds)) nofun
  | some q =>
    obtain ⟨w, -, e⟩ := List.exists_of_findSome?_eq_some found
    exact only w q ((zonePolarity_eq_some s w f i q).1 e)

/-- An input that no zone binds is CLEAR_WHEN_SET (R122). -/
theorem polarityValue_unbound {s : State} {f : FieldSlotId} {i : LineId} (unbound : ∀ w q, ¬s.bindsInput w f i q) :
    s.polarityValue f i = .clearWhenSet := by
  have no : allZones.findSome? (s.zonePolarity f i) = none := List.findSome?_eq_none_iff.2 fun w _ =>
    Option.eq_none_iff_forall_ne_some.2 fun q e => unbound w q ((zonePolarity_eq_some s w f i q).1 e)
  rw [polarityValue_eq, no]
  rfl

theorem input_of_inputs {s t : State} {f : FieldSlotId} (h : (t.fieldSlot f).inputs = (s.fieldSlot f).inputs) (i : LineId) :
    t.input f i = s.input f i := by
  unfold State.input
  rw [h]

theorem inputs_of_fieldSlots {s t : State} (h : t.fieldSlots = s.fieldSlots) (f : FieldSlotId) :
    (t.fieldSlot f).inputs = (s.fieldSlot f).inputs := by
  unfold State.fieldSlot
  rw [h]

theorem input_setInput (s : State) (f g : FieldSlotId) (i j : LineId) (x : Input) :
    (s.setInput f i x).input g j = if g = f ∧ j = i then x else s.input g j := by
  unfold State.input State.setInput
  rw [fieldSlot_setFieldSlot]
  by_cases e : g = f
  · subst e
    simp [tget_tset]
  · simp [e]

theorem zones_repolarize (s : State) (b : Option FieldBinding) : (s.repolarize b).zones = s.zones := (HoldingSame.repolarize s b).zones

theorem polarityValue_repolarize (s : State) (b : Option FieldBinding) (f : FieldSlotId) (i : LineId) :
    (s.repolarize b).polarityValue f i = s.polarityValue f i := polarityValue_congr (zones_repolarize s b) f i

/-- The input that a binding names follows the bindings. -/
theorem input_repolarize_named {s : State} {b : Option FieldBinding} {f : FieldSlotId} {i : LineId} (h : namesInput b f i) :
    (s.repolarize b).input f i = s.followedInput f i := by
  obtain ⟨p, rfl⟩ := h
  unfold State.repolarize State.followedInput
  dsimp only
  split
  · rfl
  · rw [input_setInput, if_pos ⟨rfl, rfl⟩]

/-- Any other input stays as it is. -/
theorem input_repolarize_other {s : State} {b : Option FieldBinding} {f : FieldSlotId} {i : LineId} (h : ¬namesInput b f i) :
    (s.repolarize b).input f i = s.input f i := by
  unfold State.repolarize
  split
  · rfl
  · next b =>
    dsimp only
    split
    · rfl
    · rw [input_setInput, if_neg]
      rintro ⟨rfl, rfl⟩
      exact h ⟨b.polarity, rfl⟩

/-- An input that has followed the bindings follows them as it is. -/
theorem followedInput_followed {s t : State} {f : FieldSlotId} {i : LineId} (polarity : t.polarityValue f i = s.polarityValue f i)
    (h : t.input f i = s.followedInput f i) : t.followedInput f i = s.followedInput f i := by
  have settled : (s.followedInput f i).polarity = s.polarityValue f i := by
    unfold State.followedInput
    split
    · next e => exact e
    · rfl
  rw [State.followedInput, h, polarity, if_pos settled]

/-- After two bindings were looked at, the inputs they name follow the bindings, and no other changes. -/
theorem input_repolarize_twice (s : State) (a b : Option FieldBinding) (f : FieldSlotId) (i : LineId) :
    ((namesInput a f i ∨ namesInput b f i) → ((s.repolarize a).repolarize b).input f i = s.followedInput f i) ∧
    (¬namesInput a f i → ¬namesInput b f i → ((s.repolarize a).repolarize b).input f i = s.input f i) := by
  have polarity := polarityValue_repolarize s a f i
  refine ⟨fun h => ?_, fun na nb => (input_repolarize_other nb).trans (input_repolarize_other na)⟩
  by_cases ha : namesInput a f i
  · have first : (s.repolarize a).input f i = s.followedInput f i := input_repolarize_named ha
    by_cases hb : namesInput b f i
    · rw [input_repolarize_named hb, followedInput_followed polarity first]
    · rw [input_repolarize_other hb, first]
  · rw [input_repolarize_named (h.resolve_left ha)]
    unfold State.followedInput
    rw [input_repolarize_other ha, polarity]

/-! ## The tables after the record is laid (R17) -/

theorem zst_repolarize (s : State) (b : Option FieldBinding) (w : ZoneId) : (s.repolarize b).zst w = s.zst w := by
  unfold State.repolarize
  split
  · rfl
  · dsimp only
    split
    · rfl
    · simp

theorem zst_followRequests (s : State) (old new : ZoneRecord) (w : ZoneId) : (s.followRequests old new).zst w = s.zst w := by
  unfold State.followRequests
  split
  · simp
  · rfl

theorem inputs_followRequests (s : State) (old new : ZoneRecord) (f : FieldSlotId) :
    ((s.followRequests old new).fieldSlot f).inputs = (s.fieldSlot f).inputs := by
  unfold State.followRequests
  split
  · rw [inputs_recomputeBinding, inputs_recomputeBinding]
  · rfl

theorem zst_setFieldState (s : State) (z w : ZoneId) : ((s.setFieldState z).zst w).field =
    if w = z then s.fieldValue z else (s.zst w).field := by
  unfold State.setFieldState State.recomputeBlocked
  rw [zst_setZst]
  split
  · rw [zst_setZst_self]
  · next e => rw [zst_setZst, if_neg e]

/-- A state whose zones' records, and whose inputs, are another's gives a zone the same field state. -/
theorem fieldValue_of_inputs {s t : State} (hz : t.zones = s.zones) (hi : ∀ f, (t.fieldSlot f).inputs = (s.fieldSlot f).inputs)
    (z : ZoneId) : t.fieldValue z = s.fieldValue z := by
  have inputs : ∀ f i, t.input f i = s.input f i := fun f => input_of_inputs (hi f)
  unfold State.fieldValue
  rw [zone_of hz]
  simp only [inputs]

theorem zone_layZone (s : State) (z w : ZoneId) (new : ZoneRecord) :
    (s.layZone z new).zone w = if w = z then new else s.zone w := by
  rw [zone_of (HoldingSame.layZone s z new).zones, zone_setZone]

section
variable (s : State) (z : ZoneId) (new : ZoneRecord)

/-- The tables before the field state of a written zone is looked at. -/
def State.laidBindings : State :=
  (((s.setZone z new).repolarize (s.zone z).fieldBinding).repolarize new.fieldBinding).followRequests (s.zone z) new

theorem layZone_eq : s.layZone z new =
    if new.fieldBinding ≠ (s.zone z).fieldBinding ∨ new.defined ≠ (s.zone z).defined then (s.laidBindings z new).setFieldState z
    else s.laidBindings z new := rfl

theorem zst_laidBindings (w : ZoneId) : (s.laidBindings z new).zst w = s.zst w := by
  unfold State.laidBindings
  rw [zst_followRequests, zst_repolarize, zst_repolarize]
  rfl

theorem inputs_layZone (f : FieldSlotId) : ((s.layZone z new).fieldSlot f).inputs = ((s.laidBindings z new).fieldSlot f).inputs := by
  rw [layZone_eq]
  split
  · exact inputs_of_fieldSlots rfl f
  · rfl

theorem zones_laidBindings : (s.laidBindings z new).zones = (s.setZone z new).zones :=
  (((HoldingSame.repolarize (s.setZone z new) (s.zone z).fieldBinding).trans (.repolarize _ new.fieldBinding)).trans
    (.followRequests _ (s.zone z) new)).zones

/-- The field states after a record is laid: its zone's is set anew where the binding or the defined field changed, and no other (R17). -/
theorem field_layZone (w : ZoneId) : ((s.layZone z new).zst w).field =
    if w = z ∧ (new.fieldBinding ≠ (s.zone z).fieldBinding ∨ new.defined ≠ (s.zone z).defined) then (s.layZone z new).fieldValue z
    else (s.zst w).field := by
  have value : (s.layZone z new).fieldValue z = (s.laidBindings z new).fieldValue z :=
    fieldValue_of_inputs ((HoldingSame.layZone s z new).zones.trans (zones_laidBindings s z new).symm) (inputs_layZone s z new) z
  rw [value, layZone_eq]
  by_cases change : new.fieldBinding ≠ (s.zone z).fieldBinding ∨ new.defined ≠ (s.zone z).defined
  · rw [if_pos change, zst_setFieldState, zst_laidBindings]
    simp only [change, and_true]
  · rw [if_neg change, if_neg fun h => change h.2, zst_laidBindings]

/-- The inputs after a record is laid: those that the old or the new binding names follow the bindings, and no other changes (R127). -/
theorem input_layZone (f : FieldSlotId) (i : LineId) :
    ((namesInput (s.zone z).fieldBinding f i ∨ namesInput new.fieldBinding f i) →
      (s.layZone z new).input f i = (s.setZone z new).followedInput f i) ∧
    (¬namesInput (s.zone z).fieldBinding f i → ¬namesInput new.fieldBinding f i → (s.layZone z new).input f i = s.input f i) := by
  have laid : (s.layZone z new).input f i
      = (((s.setZone z new).repolarize (s.zone z).fieldBinding).repolarize new.fieldBinding).input f i :=
    input_of_inputs ((inputs_layZone s z new f).trans (inputs_followRequests _ _ _ f)) i
  rw [laid]
  exact input_repolarize_twice (s.setZone z new) (s.zone z).fieldBinding new.fieldBinding f i

end

/-! ## The polarities after the record is laid -/

section
variable {s : State} {z : ZoneId} {new : ZoneRecord} {f : FieldSlotId} {i : LineId}

theorem bindsInput_setZone (w : ZoneId) (p : Polarity) : (s.setZone z new).bindsInput w f i p ↔
    (w = z ∧ new.defined = true ∧ new.fieldBinding = some ⟨f, i, p⟩) ∨ s.boundElsewhere z w f i p := by
  unfold State.bindsInput State.boundElsewhere
  rw [zone_setZone]
  by_cases e : w = z
  · simp [e]
  · simp [e]

/-- Where no other zone binds an input with the other polarity, a defined binding gives the input its own. -/
theorem polarityValue_setZone_bound {p : Polarity} (defined : new.defined = true) (binds : new.fieldBinding = some ⟨f, i, p⟩)
    (agree : ∀ w, w ≠ z → ¬s.bindsAgainst w ⟨f, i, p⟩) : (s.setZone z new).polarityValue f i = p := by
  refine polarityValue_bound ⟨z, (bindsInput_setZone z p).2 (.inl ⟨rfl, defined, binds⟩)⟩ fun w q h => ?_
  rcases (bindsInput_setZone w q).1 h with ⟨-, -, e⟩ | ⟨ne, d, e⟩
  · exact congrArg FieldBinding.polarity (Option.some.inj (e.symm.trans binds))
  · exact Classical.not_not.1 fun n => agree w ne ⟨d, _, e, rfl, rfl, n⟩

/-- Where the zone written binds the input no longer, the other zones that bind it give its polarity. -/
theorem polarityValue_setZone_elsewhere {p : Polarity} {w : ZoneId} (gone : ∀ p, new.defined = true → new.fieldBinding ≠ some ⟨f, i, p⟩)
    (bound : s.boundElsewhere z w f i p) (only : ∀ x q, s.boundElsewhere z x f i q → q = p) :
    (s.setZone z new).polarityValue f i = p := by
  refine polarityValue_bound ⟨w, (bindsInput_setZone w p).2 (.inr bound)⟩ fun x q h => ?_
  rcases (bindsInput_setZone x q).1 h with ⟨-, d, e⟩ | b
  · exact absurd e (gone q d)
  · exact only x q b

theorem polarityValue_setZone_unbound (gone : ∀ p, new.defined = true → new.fieldBinding ≠ some ⟨f, i, p⟩)
    (unbound : ∀ w p, ¬s.boundElsewhere z w f i p) : (s.setZone z new).polarityValue f i = .clearWhenSet := by
  refine polarityValue_unbound fun w q h => ?_
  rcases (bindsInput_setZone w q).1 h with ⟨-, d, e⟩ | b
  · exact gone q d e
  · exact unbound w q b

theorem followedInput_setZone {p : Polarity} (h : (s.setZone z new).polarityValue f i = p) :
    (s.setZone z new).followedInput f i = if (s.input f i).polarity = p then s.input f i else ⟨false, 0, p⟩ := by
  unfold State.followedInput
  rw [h]
  rfl

/-- What the statement says of an input after the record is laid (R122, R127). -/
theorem input_layZone_follows (agree : ∀ b w, new.fieldBinding = some b → w ≠ z → ¬s.bindsAgainst w b) :
    ((∀ p, (s.zone z).fieldBinding ≠ some ⟨f, i, p⟩ ∧ new.fieldBinding ≠ some ⟨f, i, p⟩) →
      (s.layZone z new).input f i = s.input f i) ∧
    (∀ p, new.defined = true → new.fieldBinding = some ⟨f, i, p⟩ →
      (s.layZone z new).input f i = if (s.input f i).polarity = p then s.input f i else ⟨false, 0, p⟩) ∧
    ((∃ p, (s.zone z).fieldBinding = some ⟨f, i, p⟩ ∨ new.fieldBinding = some ⟨f, i, p⟩) →
      (∀ p, new.defined = true → new.fieldBinding ≠ some ⟨f, i, p⟩) →
      ((∀ w p, ¬s.boundElsewhere z w f i p) →
        (s.layZone z new).input f i = if (s.input f i).polarity = .clearWhenSet then s.input f i else ⟨false, 0, .clearWhenSet⟩) ∧
      ∀ w p, s.boundElsewhere z w f i p → (∀ x q, s.boundElsewhere z x f i q → q = p) →
        (s.layZone z new).input f i = if (s.input f i).polarity = p then s.input f i else ⟨false, 0, p⟩) := by
  obtain ⟨named, other⟩ := input_layZone s z new f i
  refine ⟨fun h => other (fun ⟨p, e⟩ => (h p).1 e) fun ⟨p, e⟩ => (h p).2 e, fun p defined binds => ?_, fun ⟨p, old⟩ gone => ?_⟩
  · rw [named (.inr ⟨p, binds⟩)]
    exact followedInput_setZone (polarityValue_setZone_bound defined binds fun w => agree _ w binds)
  · rw [named (old.imp (fun e => ⟨p, e⟩) fun e => ⟨p, e⟩)]
    exact ⟨fun unbound => followedInput_setZone (polarityValue_setZone_unbound gone unbound),
      fun w q bound only => followedInput_setZone (polarityValue_setZone_elsewhere gone bound only)⟩

end

/-! ## An applied Write Zone -/

theorem wakeIfCleared_frame (s : State) (before : FieldState) (z : ZoneId) : EngineFrame s (s.wakeIfCleared before z) := by
  unfold State.wakeIfCleared
  split
  · exact EngineFrame.wakeZone s z [.field]
  · exact .refl s

/-- A Write Zone that no check refuses lays the record, runs the FIELD wake and answers (R12, R17). -/
theorem exec_writeZone_applied {slot : MgmtSlot} {z : ZoneId} {r : ZoneRecord} {s : State} (ready : s.ready slot)
    (guard : s.passesGuard z r) (pass : s.passesCorridorChecks (s.setZone z (writtenZone slot (s.zone z) r)) z r)
    (agree : ∀ b w, (writtenZone slot (s.zone z) r).fieldBinding = some b → w ≠ z → ¬s.bindsAgainst w b)
    (routes : s.mode = .service → (s.zone z).defined = true →
      r.noStop ≠ (s.zone z).noStop ∨ r.corridor ≠ (s.zone z).corridor ∨ r.position ≠ (s.zone z).position →
      ∀ q, (s.setZone z (writtenZone slot (s.zone z) r)).routeTouches q z →
        (s.setZone z (writtenZone slot (s.zone z) r)).routeCheck q = none) :
    exec (.writeZone slot (zoneWriteOf z r)) s =
      .next (((s.noteTableWrite slot).applyZone z (writtenZone slot (s.zone z) r)).answered slot 0x03
        (if slot = .operator ∧ (r.fieldBinding ≠ (s.zone z).fieldBinding ∨ r.requestBinding ≠ (s.zone z).requestBinding)
          then .partialWrite else .ok) []) := by
  have written := zone_setZone_self s z (writtenZone slot (s.zone z) r)
  obtain ⟨-, keepNoStop, -, keepCorridor, keepPosition, -⟩ := writtenZone_fields slot (s.zone z) r
  obtain ⟨new, left⟩ := corridorChecks_none written pass
  have checks : s.zoneChecks (s.setZone z (writtenZone slot (s.zone z) r)) z = none := by
    unfold State.zoneChecks
    rw [new, left, checkPolarity_none (by rw [written]; exact agree)]
    rfl
  have routed : s.zoneRouteCheck (s.setZone z (writtenZone slot (s.zone z) r)) z = none :=
    zoneRouteCheck_none (by rw [written, keepNoStop, keepCorridor, keepPosition]; exact routes)
  rw [exec_writeZone ready, writeZone_of_write, zoneRefusal_none slot guard, checks, routed]
  rfl

end Sys2Proof.Machine
end

section
/-! SUPPORT. The route checks say what the table of R46 says: which items the list functions of the checks find, and, row by row, that a check fails with an index exactly where the row does. -/

namespace Sys2Proof.Machine

/-! ## What the list functions find -/

section
variable {α : Type}

theorem mem_repeatedNeighbours (key : α → ZoneId) (l : List α) (x : α) : x ∈ repeatedNeighbours key l ↔
    ∃ n y, l[n]? = some y ∧ l[n + 1]? = some x ∧ key y = key x := by
  induction l with
  | nil => simp [repeatedNeighbours]
  | cons a l ih =>
    cases l with
    | nil => simp [repeatedNeighbours]
    | cons b l =>
      have split : (∃ n y, (a :: b :: l)[n]? = some y ∧ (a :: b :: l)[n + 1]? = some x ∧ key y = key x) ↔
          (b = x ∧ key a = key b) ∨ ∃ n y, (b :: l)[n]? = some y ∧ (b :: l)[n + 1]? = some x ∧ key y = key x := by
        constructor
        · rintro ⟨n, y, hy, hx, e⟩
          cases n with
          | zero =>
            cases hy
            cases hx
            exact .inl ⟨rfl, e⟩
          | succ n => exact .inr ⟨n, y, hy, hx, e⟩
        · rintro (⟨rfl, e⟩ | ⟨n, y, hy, hx, e⟩)
          · exact ⟨0, a, rfl, rfl, e⟩
          · exact ⟨n + 1, y, hy, hx, e⟩
      rw [split, ← ih, repeatedNeighbours]
      by_cases e : key a = key b
      · rw [if_pos e, List.mem_cons]
        simp only [e, and_true, eq_comm (a := x)]
      · rw [if_neg e]
        simp only [e, and_false, false_or]

theorem mem_repeats (key : α → ZoneId) (l : List α) (seen : List ZoneId) (x : α) : x ∈ repeats key l seen ↔
    ∃ n : Nat, l[n]? = some x ∧ (key x ∈ seen ∨ ∃ (m : Nat) (y : α), m < n ∧ l[m]? = some y ∧ key y = key x) := by
  induction l generalizing seen with
  | nil => simp [repeats]
  | cons a l ih =>
    have later : ∀ n : Nat, (∃ (m : Nat) (y : α), m < n + 1 ∧ (a :: l)[m]? = some y ∧ key y = key x) ↔
        key a = key x ∨ ∃ (m : Nat) (y : α), m < n ∧ l[m]? = some y ∧ key y = key x := by
      intro n
      constructor
      · rintro ⟨m, y, lt, hy, e⟩
        cases m with
        | zero => cases hy; exact .inl e
        | succ m => exact .inr ⟨m, y, by omega, hy, e⟩
      · rintro (e | ⟨m, y, lt, hy, e⟩)
        · exact ⟨0, a, by omega, rfl, e⟩
        · exact ⟨m + 1, y, by omega, hy, e⟩
    have split : (∃ n : Nat, (a :: l)[n]? = some x ∧ (key x ∈ seen ∨ ∃ (m : Nat) (y : α), m < n ∧ (a :: l)[m]? = some y ∧ key y = key x)) ↔
        (a = x ∧ key a ∈ seen) ∨
          ∃ n : Nat, l[n]? = some x ∧ (key x ∈ seen ∨ key a = key x ∨ ∃ (m : Nat) (y : α), m < n ∧ l[m]? = some y ∧ key y = key x) := by
      constructor
      · rintro ⟨n, hx, h⟩
        cases n with
        | zero =>
          cases hx
          exact .inl ⟨rfl, h.resolve_right fun ⟨m, _, lt, _⟩ => absurd lt (Nat.not_lt_zero m)⟩
        | succ n => exact .inr ⟨n, hx, h.imp_right (later n).1⟩
      · rintro (⟨rfl, h⟩ | ⟨n, hx, h⟩)
        · exact ⟨0, rfl, .inl h⟩
        · exact ⟨n + 1, hx, h.imp_right (later n).2⟩
    rw [split, repeats]
    by_cases e : key a ∈ seen
    · rw [if_pos (by simpa using e), List.mem_cons, ih]
      have known : ∀ P : Prop, (key x ∈ seen ∨ key a = key x ∨ P) ↔ (key x ∈ seen ∨ P) := fun P =>
        ⟨fun h => h.elim .inl fun h => h.elim (fun q => .inl (q ▸ e)) .inr, fun h => h.imp_right .inr⟩
      simp only [known, e, and_true, eq_comm (a := x)]
    · rw [if_neg (by simpa using e), ih]
      simp only [e, and_false, false_or, List.mem_cons, or_assoc, eq_comm, or_left_comm]

theorem firstOffCourse_eq_some (on : α → α → Bool) (l : List α) (x : α) : firstOffCourse on l = some x ↔
    ∃ n y, l[n]? = some y ∧ l[n + 1]? = some x ∧ on y x = false ∧
      ∀ i < n, ∀ u v, l[i]? = some u → l[i + 1]? = some v → on u v = true := by
  induction l with
  | nil => simp [firstOffCourse]
  | cons a l ih =>
    cases l with
    | nil => simp [firstOffCourse]
    | cons b l =>
      rw [firstOffCourse]
      cases e : on a b with
      | false =>
        rw [if_neg nofun]
        constructor
        · intro h
          cases h
          exact ⟨0, a, rfl, rfl, e, fun i lt => absurd lt (Nat.not_lt_zero i)⟩
        · rintro ⟨n, y, hy, hx, -, before⟩
          cases n with
          | zero => exact hx
          | succ n => exact absurd (before 0 (by omega) a b rfl rfl) (by rw [e]; exact nofun)
      | true =>
        rw [if_pos rfl, ih]
        constructor
        · rintro ⟨n, y, hy, hx, off, before⟩
          refine ⟨n + 1, y, hy, hx, off, fun i lt u v hu hv => ?_⟩
          cases i with
          | zero =>
            cases hu
            cases hv
            exact e
          | succ i => exact before i (by omega) u v hu hv
        · rintro ⟨n, y, hy, hx, off, before⟩
          cases n with
          | zero =>
            cases hy
            cases hx
            exact absurd (e.symm.trans off) nofun
          | succ n => exact ⟨n, y, hy, hx, off, fun i lt u v hu hv => before (i + 1) (by omega) u v hu hv⟩

/-- The items at the head of a list that satisfy a test, by number. -/
theorem getElem?_takeWhile (p : α → Bool) (l : List α) (i : Nat) (x : α) : (l.takeWhile p)[i]? = some x ↔
    l[i]? = some x ∧ ∀ j ≤ i, ∀ y, l[j]? = some y → p y = true := by
  induction l generalizing i with
  | nil => simp
  | cons a l ih =>
    rw [List.takeWhile_cons]
    cases e : p a with
    | false =>
      rw [if_neg nofun]
      constructor
      · intro h; simp at h
      · rintro ⟨-, h⟩
        exact absurd (h 0 (Nat.zero_le i) a rfl) (by rw [e]; exact nofun)
    | true =>
      rw [if_pos rfl]
      cases i with
      | zero =>
        constructor
        · intro h
          refine ⟨h, fun j le y hy => ?_⟩
          cases Nat.le_zero.1 le
          cases hy
          exact e
        · exact And.left
      | succ i =>
        rw [List.getElem?_cons_succ, List.getElem?_cons_succ, ih]
        refine and_congr_right fun _ => ⟨fun h j le y hy => ?_, fun h j le y hy => h (j + 1) (by omega) y hy⟩
        cases j with
        | zero => cases hy; exact e
        | succ j => exact h j (by omega) y hy

/-- The items of a passage at the head of a list, by number: each but the last is no-stop. -/
theorem getElem?_headRun (ns : α → Bool) (l : List α) (i : Nat) (x : α) : (headRun ns l)[i]? = some x ↔
    l[i]? = some x ∧ ∀ j < i, ∀ y, l[j]? = some y → ns y = true := by
  refine ⟨?_, fun h => headRun_get ns l i h.2 x h.1⟩
  induction l generalizing i with
  | nil => simp [headRun]
  | cons a l ih =>
    rw [headRun]
    cases i with
    | zero =>
      intro h
      refine ⟨?_, fun j lt => absurd lt (Nat.not_lt_zero j)⟩
      split at h <;> exact h
    | succ i =>
      intro h
      split at h
      · next e =>
        obtain ⟨hx, before⟩ := ih i h
        refine ⟨hx, fun j lt y hy => ?_⟩
        cases j with
        | zero => cases hy; exact e
        | succ j => exact before j (by omega) y hy
      · simp at h

/-! ### Where a run begins -/

/-- A run of items that satisfy a test begins at a place of a list. -/
def RunStart (p : α → Bool) (l : List α) (a : Nat) : Prop :=
  (∃ x, l[a]? = some x ∧ p x = true) ∧ (a = 0 ∨ ∃ y, l[a - 1]? = some y ∧ p y = false)

theorem runStart_zero (p : α → Bool) (x : α) (l : List α) : RunStart p (x :: l) 0 ↔ p x = true := by
  simp [RunStart]

theorem runStart_succ (p : α → Bool) (x : α) (l : List α) (a : Nat) :
    RunStart p (x :: l) (a + 1) ↔ RunStart p l a ∧ (a = 0 → p x = false) := by
  unfold RunStart
  cases a with
  | zero => simp
  | succ a => simp

/-- The places of a list after its first item. -/
theorem exists_place_cons (P : Nat → Prop) : (∃ a, P a) ↔ P 0 ∨ ∃ a, P (a + 1) :=
  ⟨fun ⟨a, h⟩ => by cases a with | zero => exact .inl h | succ a => exact .inr ⟨a, h⟩,
    fun h => h.elim (fun h => ⟨0, h⟩) fun ⟨a, h⟩ => ⟨a + 1, h⟩⟩

/-- The passages of a list with a run in hand: that run read on, and those that begin later. -/
theorem mem_passages_run (ns : α → Bool) (l run : List α) (q : List α) : q ∈ passages ns l run ↔
    (run ≠ [] ∧ q = run.reverse ++ headRun ns l) ∨
      ∃ a, RunStart ns l a ∧ (a = 0 → run = []) ∧ q = headRun ns (l.drop a) := by
  induction l generalizing run with
  | nil =>
    cases run with
    | nil => simp [passages, RunStart]
    | cons y run => simp [passages, RunStart, headRun]
  | cons x l ih =>
    rw [exists_place_cons]
    simp only [runStart_zero, runStart_succ, List.drop_succ_cons, List.drop_zero]
    rw [passages]
    cases e : ns x with
    | true =>
      rw [if_pos rfl, ih]
      have head : headRun ns (x :: l) = x :: headRun ns l := by rw [headRun, if_pos e]
      rw [head]
      cases run with
      | nil => simp [and_assoc]
      | cons y run => simp [and_assoc]
    | false =>
      rw [if_neg nofun]
      have head : headRun ns (x :: l) = [x] := by rw [headRun, if_neg (by rw [e]; exact nofun)]
      rw [head]
      cases run with
      | nil => simp [ih]
      | cons y run => simp [ih]

/-- The passages of a list: the no-stop runs with their exits (R3). -/
theorem mem_passages (ns : α → Bool) (l : List α) (q : List α) :
    q ∈ passages ns l [] ↔ ∃ a, RunStart ns l a ∧ q = headRun ns (l.drop a) := by
  rw [mem_passages_run]
  simp

/-- The runs of a list in one corridor with a run in hand: that run read on, and those that begin later. -/
theorem mem_corridorRuns_run (cor : α → Option CorridorId) (l run : List α) (q : List α)
    (inHand : ∀ y ∈ run.head?, (cor y).isSome = true) : q ∈ corridorRuns cor l run ↔
    (∃ k, (∃ y, run.head? = some y ∧ cor y = some k) ∧ q = run.reverse ++ l.takeWhile (fun x => cor x == some k)) ∨
      ∃ k a, RunStart (fun x => cor x == some k) l a ∧ (a = 0 → ∀ y ∈ run.head?, cor y ≠ some k) ∧
        q = (l.drop a).takeWhile (fun x => cor x == some k) := by
  induction l generalizing run with
  | nil =>
    cases run with
    | nil => simp [corridorRuns, RunStart]
    | cons y run =>
      obtain ⟨k, hk⟩ := Option.isSome_iff_exists.1 (inHand y rfl)
      simp [corridorRuns, RunStart, hk]
  | cons x l ih =>
    have places : ∀ P : CorridorId → Nat → Prop, (∃ k a, P k a) ↔ (∃ k, P k 0) ∨ ∃ k a, P k (a + 1) := fun P => by
      rw [← exists_or]
      exact exists_congr fun k => exists_place_cons (P k)
    rw [places]
    simp only [runStart_zero, runStart_succ, List.drop_succ_cons, List.drop_zero]
    cases run with
    | nil =>
      rw [corridorRuns]
      cases e : cor x with
      | none => simp [ih [] nofun, e]
      | some j => simp [ih [x] (by simp [e]), e, and_assoc, List.takeWhile_cons]
    | cons y run =>
      obtain ⟨k, hk⟩ := Option.isSome_iff_exists.1 (inHand y rfl)
      rw [corridorRuns]
      by_cases same : cor x = cor y
      · rw [if_pos same, ih (x :: y :: run) (by simp [same, hk])]
        simp [same, hk, and_assoc, List.takeWhile_cons]
      · rw [if_neg same, List.mem_cons]
        cases e : cor x with
        | none => simp [ih [] nofun, e, hk]
        | some j =>
          have ne : j ≠ k := fun q => same (by rw [e, hk, q])
          simp [ih [x] (by simp [e]), e, hk, ne, ne.symm, and_assoc, List.takeWhile_cons]

/-- The visits of a list: its runs in one corridor (section 2.3). -/
theorem mem_corridorRuns (cor : α → Option CorridorId) (l : List α) (q : List α) : q ∈ corridorRuns cor l [] ↔
    ∃ k a, RunStart (fun x => cor x == some k) l a ∧ q = (l.drop a).takeWhile (fun x => cor x == some k) := by
  rw [mem_corridorRuns_run cor l [] q nofun]
  simp

end

end Sys2Proof.Machine
end

section
/-! SUPPORT. The rows of the table of R46, row by row: a route's check fails exactly where its row does. -/

namespace Sys2Proof.Machine

/-! ## A route's own hops -/

/-- A route's hop by its place in the hop range. -/
def State.ownHop (s : State) (r : RouteId) (n : Nat) : HopRef := ⟨r, hopPlus (s.route r).firstHop n⟩

section
variable {s : State} {r : RouteId}

theorem route_ownHop (n : Nat) : (s.ownHop r n).route = r := rfl

theorem hopZone_ownHop (n : Nat) : s.hopZone (s.ownHop r n).hop = s.routeZone r n := rfl

theorem ownHop_val (placed : (s.route r).placed) {n : Nat} (h : n < (s.route r).hopCount) :
    (s.ownHop r n).hop.val = (s.route r).firstHop.val + n := by
  obtain ⟨_, inStore⟩ := placed
  exact hopPlus_val (by omega)

theorem getElem?_hopRange (n : Nat) (x : HopRef) : (s.hopRange r)[n]? = some x ↔ n < (s.route r).hopCount ∧ x = s.ownHop r n := by
  unfold State.hopRange
  rw [List.getElem?_map]
  by_cases h : n < (s.route r).hopCount
  · rw [List.getElem?_range h]
    simp [h, State.ownHop, eq_comm]
  · simp [h]

theorem mem_hopRange (x : HopRef) : x ∈ s.hopRange r ↔ ∃ n < (s.route r).hopCount, x = s.ownHop r n := by
  rw [List.mem_iff_getElem?]
  simp only [getElem?_hopRange]

theorem length_hopRange : (s.hopRange r).length = (s.route r).hopCount := by
  unfold State.hopRange
  rw [List.length_map, List.length_range]

/-- Where a run of a route's own hops begins. -/
theorem runStart_hopRange (p : HopRef → Bool) (a : Nat) : RunStart p (s.hopRange r) a ↔
    a < (s.route r).hopCount ∧ p (s.ownHop r a) = true ∧ (a = 0 ∨ p (s.ownHop r (a - 1)) = false) := by
  unfold RunStart
  simp only [getElem?_hopRange]
  constructor
  · rintro ⟨⟨_, ⟨h, rfl⟩, e⟩, before⟩
    exact ⟨h, e, before.imp_right fun ⟨_, ⟨_, q⟩, f⟩ => q ▸ f⟩
  · rintro ⟨h, e, before⟩
    exact ⟨⟨_, ⟨h, rfl⟩, e⟩, before.imp_right fun f => ⟨_, ⟨by omega, rfl⟩, f⟩⟩

/-- The last hop of a placed route. -/
theorem getLast?_hopRange (placed : (s.route r).placed) : (s.hopRange r).getLast? = some (s.ownHop r ((s.route r).hopCount - 1)) := by
  have two := placed.1
  rw [List.getLast?_eq_getElem?, length_hopRange, getElem?_hopRange]
  exact ⟨by omega, rfl⟩

/-- A hop that satisfies a test lies in a run that begins at it or before it. -/
theorem exists_runStart {p : Nat → Prop} {m : Nat} (h : p m) : ∃ a ≤ m, (∀ l, a ≤ l → l ≤ m → p l) ∧ (a = 0 ∨ ¬p (a - 1)) := by
  induction m with
  | zero => exact ⟨0, Nat.le_refl 0, fun l _ le => Nat.le_zero.1 le ▸ h, .inl rfl⟩
  | succ m ih =>
    by_cases before : p m
    · obtain ⟨a, le, all, start⟩ := ih before
      refine ⟨a, by omega, fun l hl lm => ?_, start⟩
      by_cases e : l = m + 1
      · exact e ▸ h
      · exact all l hl (by omega)
    · exact ⟨m + 1, Nat.le_refl _, fun l hl lm => Nat.le_antisymm lm hl ▸ h, .inr before⟩

theorem failureAt_eq_none (kind : CheckKind) (l : List Nat) : failureAt kind l = none ↔ ∀ i, i ∉ l :=
  ⟨fun h i => by rw [failureAt_none h]; exact List.not_mem_nil, fun h => by rw [List.eq_nil_iff_forall_not_mem.2 h]; rfl⟩

/-! ## The hops that a check reads (R38, R46) -/

theorem seamPlace_hopOverSeam (s : State) (q : RouteId) : (s.seamPlace q 0).map (·.ref) = s.hopOverSeam q := by
  unfold State.seamPlace State.hopOverSeam
  cases (s.route q).endAction with
  | stop => rfl
  | loop => rfl
  | link =>
    cases (s.route q).linkRoute with
    | none => rfl
    | some p =>
      dsimp only
      split <;> rfl

/-- The next hop of the reading is the one a check goes on to. -/
theorem readHop_succ (s : State) (r : RouteId) (n : Nat) : s.readHop r (n + 1) = (s.readHop r n).bind s.checkNext := by
  have next : ∀ x : HopRef, s.checkNext x =
      if x.hop.val + 1 < (s.route x.route).firstHop.val + (s.route x.route).hopCount
        then some ⟨x.route, Fin.ofNat 2048 (x.hop.val + 1)⟩ else s.hopOverSeam x.route := fun x => by
    have more : x.hop.val < (s.route x.route).lastHop ↔
        x.hop.val + 1 < (s.route x.route).firstHop.val + (s.route x.route).hopCount := by
      unfold RouteRecord.lastHop
      omega
    unfold State.checkNext
    rw [seamPlace_hopOverSeam]
    simp only [more]
    rfl
  rw [State.readHop]
  exact congrArg _ (funext fun x => (next x).symm)

theorem readHop_own (placed : (s.route r).placed) (n : Nat) (h : n < (s.route r).hopCount) :
    s.readHop r n = some (s.ownHop r n) := by
  induction n with
  | zero =>
    unfold State.ownHop
    rw [hopPlus_zero]
    rfl
  | succ n ih =>
    have val := ownHop_val placed (show n < (s.route r).hopCount by omega)
    have more : (s.ownHop r n).hop.val + 1 < (s.route r).firstHop.val + (s.route r).hopCount := by omega
    rw [State.readHop, ih (by omega), Option.bind_some, route_ownHop, if_pos more, val]
    rfl

/-- After a route's last hop the reading goes over its seam. -/
theorem readHop_over (placed : (s.route r).placed) : s.readHop r (s.route r).hopCount = s.hopOverSeam r := by
  have two := placed.1
  obtain ⟨n, e⟩ : ∃ n, (s.route r).hopCount = n + 1 := ⟨(s.route r).hopCount - 1, by omega⟩
  have val := ownHop_val placed (show n < (s.route r).hopCount by omega)
  have last : ¬(s.ownHop r n).hop.val + 1 < (s.route r).firstHop.val + (s.route r).hopCount := by omega
  rw [e, State.readHop, readHop_own placed n (by omega), Option.bind_some, route_ownHop, if_neg last]

theorem readHop_none {m : Nat} (h : s.readHop r m = none) (j : Nat) : s.readHop r (m + j) = none := by
  induction j with
  | zero => exact h
  | succ j ih => rw [← Nat.add_assoc, readHop_succ, ih]; rfl

theorem getElem?_checkFrom (n m j : Nat) (h : j < n) : (s.checkFrom n (s.readHop r m))[j]? = s.readHop r (m + j) := by
  induction n generalizing m j with
  | zero => exact absurd h (Nat.not_lt_zero j)
  | succ n ih =>
    cases e : s.readHop r m with
    | none => rw [readHop_none e]; rfl
    | some x =>
      rw [State.checkFrom]
      cases j with
      | zero => exact e.symm
      | succ j =>
        have next : s.checkNext x = s.readHop r (m + 1) := by rw [readHop_succ, e]; rfl
        rw [List.getElem?_cons_succ, next, ih (m + 1) j (by omega)]
        congr 1
        omega

theorem length_checkFrom (s : State) (n : Nat) (o : Option HopRef) : (s.checkFrom n o).length ≤ n := by
  induction n generalizing o with
  | zero => exact Nat.le_refl 0
  | succ n ih =>
    cases o with
    | none => exact Nat.zero_le _
    | some x => exact Nat.succ_le_succ (ih _)

/-- The 17 hops after a route's last. -/
theorem getElem?_followingHops (placed : (s.route r).placed) (j : Nat) (x : HopRef) :
    (s.followingHops r)[j]? = some x ↔ j < 17 ∧ s.readHop r ((s.route r).hopCount + j) = some x := by
  unfold State.followingHops
  rw [seamPlace_hopOverSeam, ← readHop_over placed]
  by_cases h : j < 17
  · rw [getElem?_checkFrom 17 _ j h]
    simp [h]
  · have out := length_checkFrom s 17 (s.readHop r (s.route r).hopCount)
    rw [List.getElem?_eq_none (by omega)]
    simp [h]

end

/-! ## The rows that read a route's own hops -/

section
variable {s : State} {r : RouteId}

theorem checkZoneUndefined_none (placed : (s.route r).placed) :
    s.checkZoneUndefined r = none ↔ ∀ i, ¬s.rowFails r i .zoneUndefined := by
  unfold State.checkZoneUndefined
  rw [failureAt_eq_none]
  refine forall_congr' fun i => not_congr ?_
  simp only [List.mem_map, List.mem_filter, mem_hopRange, Bool.not_eq_true', State.rowFails]
  constructor
  · rintro ⟨_, ⟨⟨n, h, rfl⟩, e⟩, rfl⟩
    exact ⟨n, h, e, ownHop_val placed h⟩
  · rintro ⟨n, h, e, rfl⟩
    exact ⟨_, ⟨⟨n, h, rfl⟩, e⟩, ownHop_val placed h⟩

theorem checkLinkUndefined_none (s : State) (r : RouteId) :
    s.checkLinkUndefined r = none ↔ ∀ i, ¬s.rowFails r i .linkUndefined := by
  unfold State.checkLinkUndefined
  simp only [State.rowFails]
  split
  · next q link route =>
    simp only [link, route]
    cases d : (s.route q).defined with
    | true => simp [d]
    | false => simp [d]
  · next no =>
    refine iff_of_true rfl ?_
    rintro i ⟨link, q, route, -⟩
    exact no q link route

theorem checkLastNoStop_none (placed : (s.route r).placed) :
    s.checkLastNoStop r = none ↔ ∀ i, ¬s.rowFails r i .lastNoStop := by
  unfold State.checkLastNoStop
  rw [getLast?_hopRange placed]
  simp only [State.rowFails]
  split
  · next h => exact iff_of_false nofun fun pass => pass _ ⟨h, rfl⟩
  · next h => exact iff_of_true rfl fun i fails => h fails.1

/-- The items of a passage of a route's own hops, by number. -/
theorem getElem?_ownPassage (a j : Nat) (x : HopRef) :
    (headRun (fun x => s.noStop (s.hopZone x.hop)) ((s.hopRange r).drop a))[j]? = some x ↔
      a + j < (s.route r).hopCount ∧ x = s.ownHop r (a + j) ∧ ∀ l, a ≤ l → l < a + j → s.noStop (s.routeZone r l) = true := by
  rw [getElem?_headRun]
  simp only [List.getElem?_drop, getElem?_hopRange, and_assoc]
  refine and_congr_right fun lt => and_congr_right fun _ => ?_
  constructor
  · intro h l al la
    have := h (l - a) (by omega) (s.ownHop r l) ⟨by omega, by congr 1; omega⟩
    exact this
  · rintro h i lt y ⟨-, rfl⟩
    exact h (a + i) (by omega) (by omega)

/-- The hops that repeat a zone of their passage: those of REPEATED_ZONE within the route's own hops (R46, log 35). -/
theorem repeatsInPassage_iff (placed : (s.route r).placed) (i : Nat) :
    i ∈ (passages (fun x => s.noStop (s.hopZone x.hop)) (s.hopRange r) []).flatMap
        (fun p => (repeats (fun x : HopRef => s.hopZone x.hop) p []).map (·.hop.val)) ↔
      ∃ m n, m < n ∧ n < (s.route r).hopCount ∧ (∀ l, m ≤ l → l < n → s.noStop (s.routeZone r l) = true) ∧
        s.routeZone r m = s.routeZone r n ∧ i = (s.route r).firstHop.val + n := by
  simp only [List.mem_flatMap, List.mem_map, mem_passages, mem_repeats, List.not_mem_nil, false_or]
  constructor
  · rintro ⟨_, ⟨a, -, rfl⟩, _, ⟨n, hx, m, _, lt, hy, e⟩, rfl⟩
    obtain ⟨hn, rfl, run⟩ := (getElem?_ownPassage a n _).1 hx
    obtain ⟨-, rfl, -⟩ := (getElem?_ownPassage a m _).1 hy
    exact ⟨a + m, a + n, by omega, hn, fun l lm ln => run l (by omega) ln, e, ownHop_val placed hn⟩
  · rintro ⟨m, n, lt, hn, run, e, rfl⟩
    obtain ⟨a, am, all, start⟩ := exists_runStart (p := fun l => s.noStop (s.routeZone r l) = true) (run m (Nat.le_refl m) lt)
    have within : ∀ l, a ≤ l → l < n → s.noStop (s.routeZone r l) = true := fun l al ln =>
      if h : l ≤ m then all l al h else run l (by omega) ln
    have begins := (runStart_hopRange (s := s) (fun x => s.noStop (s.hopZone x.hop)) a).2
      ⟨by omega, all a (Nat.le_refl a) am, start.imp_right Bool.eq_false_iff.2⟩
    have item : ∀ j, a ≤ j → j ≤ n →
        (headRun (fun x => s.noStop (s.hopZone x.hop)) ((s.hopRange r).drop a))[j - a]? = some (s.ownHop r j) := fun j aj jn =>
      (getElem?_ownPassage a (j - a) _).2 ⟨by omega, by congr 1; omega, fun l al ln => within l al (by omega)⟩
    exact ⟨_, ⟨a, begins, rfl⟩, s.ownHop r n, ⟨n - a, item n (by omega) (Nat.le_refl n), m - a, s.ownHop r m, by omega,
      item m am (by omega), e⟩, ownHop_val placed hn⟩

/-- A route's last hop names the zone of the hop that follows it over the seam (R46). -/
theorem seamRepeats_iff (placed : (s.route r).placed) : s.seamRepeats r = true ↔
    ∃ x, s.hopOverSeam r = some x ∧ s.hopZone x.hop = s.routeZone r ((s.route r).hopCount - 1) := by
  have head : (s.followingHops r).head? = s.hopOverSeam r := by
    refine Option.ext fun x => ?_
    rw [List.head?_eq_getElem?, ← readHop_over placed]
    exact (getElem?_followingHops placed 0 x).trans (and_iff_right (by omega))
  unfold State.seamRepeats
  rw [getLast?_hopRange placed, head]
  cases s.hopOverSeam r with
  | none => simp
  | some x =>
    simp only [hopZone_ownHop, beq_iff_eq, Option.some.injEq, exists_eq_left']
    exact eq_comm

theorem checkRepeatedZone_none (placed : (s.route r).placed) :
    s.checkRepeatedZone r = none ↔ ∀ i, ¬s.rowFails r i .repeatedZone := by
  have last : (s.route r).lastHop = (s.route r).firstHop.val + ((s.route r).hopCount - 1) := by
    have two := placed.1
    unfold RouteRecord.lastHop
    omega
  unfold State.checkRepeatedZone
  dsimp only
  rw [failureAt_eq_none, last]
  refine forall_congr' fun i => not_congr ?_
  simp only [List.mem_append, or_assoc, State.rowFails]
  refine or_congr ?_ (or_congr (repeatsInPassage_iff placed i) ?_)
  · simp only [List.mem_map, mem_repeatedNeighbours, getElem?_hopRange]
    constructor
    · rintro ⟨_, ⟨n, _, ⟨_, rfl⟩, ⟨h, rfl⟩, e⟩, rfl⟩
      exact ⟨n, h, e, ownHop_val placed h⟩
    · rintro ⟨n, h, e, rfl⟩
      exact ⟨_, ⟨n, _, ⟨by omega, rfl⟩, ⟨h, rfl⟩, e⟩, ownHop_val placed h⟩
  · by_cases h : s.seamRepeats r = true
    · obtain ⟨x, seam, same⟩ := (seamRepeats_iff placed).1 h
      rw [if_pos h, List.mem_singleton]
      exact ⟨fun e => ⟨x, seam, same, e⟩, fun ⟨_, _, _, e⟩ => e⟩
    · rw [if_neg h]
      exact iff_of_false List.not_mem_nil fun ⟨x, seam, same, _⟩ => h ((seamRepeats_iff placed).2 ⟨x, seam, same⟩)

/-- A list has an item for each number below its length, and for no other. -/
theorem lt_length_iff {α : Type} (l : List α) (n : Nat) : n < l.length ↔ ∃ x, l[n]? = some x :=
  ⟨fun h => ⟨l[n], List.getElem?_eq_getElem h⟩, fun ⟨_, h⟩ => (List.getElem?_eq_some_iff.1 h).1⟩

theorem mem_head_val (l : List HopRef) (i : Nat) : i ∈ (l.head?.map (·.hop.val)).toList ↔ ∃ x, l[0]? = some x ∧ i = x.hop.val := by
  cases l <;> simp

theorem checkSetTooLong_none (placed : (s.route r).placed) :
    s.checkSetTooLong r = none ↔ ∀ i, ¬s.rowFails r i .setTooLong := by
  unfold State.checkSetTooLong
  rw [failureAt_eq_none]
  refine forall_congr' fun i => not_congr ?_
  simp only [List.mem_flatMap, List.mem_filter, decide_eq_true_eq, mem_passages, mem_head_val, lt_length_iff, State.rowFails]
  constructor
  · rintro ⟨_, ⟨⟨a, start, rfl⟩, _, long⟩, _, hx, rfl⟩
    obtain ⟨h, -, run⟩ := (getElem?_ownPassage a 6 _).1 long
    obtain ⟨-, rfl, -⟩ := (getElem?_ownPassage a 0 _).1 hx
    obtain ⟨ha, -, before⟩ := (runStart_hopRange _ a).1 start
    exact ⟨a, h, run, before, ownHop_val placed ha⟩
  · rintro ⟨a, h, run, before, rfl⟩
    refine ⟨_, ⟨⟨a, (runStart_hopRange _ a).2 ⟨by omega, run a (Nat.le_refl a) (by omega), before⟩, rfl⟩, s.ownHop r (a + 6), ?_⟩,
      s.ownHop r a, ?_, (ownHop_val placed (by omega)).symm⟩
    · exact (getElem?_ownPassage a 6 _).2 ⟨h, rfl, run⟩
    · exact (getElem?_ownPassage a 0 _).2 ⟨by omega, rfl, fun l al la => absurd la (by omega)⟩

theorem hopCorridor_ownHop (n : Nat) : s.hopCorridor (s.ownHop r n) = s.corridorOfZone (s.routeZone r n) := rfl

/-- The items of a run of a route's own hops in one corridor, by number. -/
theorem getElem?_ownRun (k : CorridorId) (a j : Nat) (x : HopRef) :
    (((s.hopRange r).drop a).takeWhile (fun x => s.hopCorridor x == some k))[j]? = some x ↔
      a + j < (s.route r).hopCount ∧ x = s.ownHop r (a + j) ∧
        ∀ l, a ≤ l → l ≤ a + j → s.corridorOfZone (s.routeZone r l) = some k := by
  rw [getElem?_takeWhile]
  simp only [List.getElem?_drop, getElem?_hopRange, and_assoc, beq_iff_eq]
  refine and_congr_right fun lt => and_congr_right fun _ => ?_
  constructor
  · intro h l al la
    have := h (l - a) (by omega) (s.ownHop r l) ⟨by omega, by congr 1; omega⟩
    exact this
  · rintro h i lt y ⟨-, rfl⟩
    exact h (a + i) (by omega) (by omega)

theorem checkCorridorTouch_none (placed : (s.route r).placed) :
    s.checkCorridorTouch r = none ↔ ∀ i, ¬s.rowFails r i .corridorTouch := by
  unfold State.checkCorridorTouch
  rw [failureAt_eq_none]
  refine forall_congr' fun i => not_congr ?_
  simp only [List.mem_flatMap, List.mem_filter, beq_iff_eq, mem_corridorRuns, mem_head_val, State.rowFails]
  constructor
  · rintro ⟨_, ⟨⟨k, a, start, rfl⟩, one⟩, _, hx, rfl⟩
    obtain ⟨ha, here, before⟩ := (runStart_hopRange _ a).1 start
    rw [hopCorridor_ownHop, beq_iff_eq] at here
    obtain ⟨-, rfl, -⟩ := (getElem?_ownRun k a 0 _).1 hx
    refine ⟨a, k, ha, here, before.imp_right fun h => by rwa [hopCorridor_ownHop, beq_eq_false_iff_ne] at h, ?_, ownHop_val placed ha⟩
    refine Classical.or_iff_not_imp_left.2 fun more next => ?_
    have := (lt_length_iff _ 1).2 ⟨_, (getElem?_ownRun (s := s) (r := r) k a 1 _).2 ⟨by omega, rfl, fun l al la => ?_⟩⟩
    · omega
    · by_cases e : l = a
      · exact e ▸ here
      · rw [show l = a + 1 by omega]; exact next
  · rintro ⟨a, k, ha, here, before, after, rfl⟩
    have first := (getElem?_ownRun k a 0 (s.ownHop r a)).2 ⟨ha, rfl, fun l al la => by rw [show l = a by omega]; exact here⟩
    refine ⟨_, ⟨⟨k, a, (runStart_hopRange _ a).2 ⟨ha, by rw [hopCorridor_ownHop, here, beq_self_eq_true], before.imp_right fun h => by
      rw [hopCorridor_ownHop, beq_eq_false_iff_ne]; exact h⟩, rfl⟩, ?_⟩, s.ownHop r a, first, (ownHop_val placed ha).symm⟩
    have atLeast := (lt_length_iff _ 0).2 ⟨_, first⟩
    have atMost : ¬1 < (((s.hopRange r).drop a).takeWhile (fun x => s.hopCorridor x == some k)).length := fun h => by
      obtain ⟨x, hx⟩ := (lt_length_iff _ 1).1 h
      obtain ⟨lt, -, run⟩ := (getElem?_ownRun k a 1 x).1 hx
      rcases after with e | ne
      · omega
      · exact ne (run (a + 1) (by omega) (by omega))
    omega

end

end Sys2Proof.Machine
end

section
/-! SUPPORT. CORRIDOR_TURN, whose visits are read on over the seam, and with it the whole table of R46; then an applied Write Zone. -/

namespace Sys2Proof.Machine

/-! ## The visits a check reads (R46) -/

section
variable {s : State} {r : RouteId}

/-- A route's own hops, the last visit read on over the seam. -/
def State.visitReading (s : State) (r : RouteId) : List HopRef :=
  s.hopRange r ++ (match (s.hopRange r).getLast? with
    | none => []
    | some x =>
      match s.hopCorridor x with
      | none => []
      | some k => (s.followingHops r).takeWhile (fun y => s.hopCorridor y == some k))

theorem visitsAcross_eq : s.visitsAcross r = corridorRuns s.hopCorridor (s.visitReading r) [] := rfl

theorem readCorridor_eq_some (n : Nat) (k : CorridorId) :
    s.readCorridor r n = some k ↔ ∃ x, s.readHop r n = some x ∧ s.hopCorridor x = some k := Option.bind_eq_some_iff

theorem readCorridor_of_readHop {n : Nat} {x : HopRef} (h : s.readHop r n = some x) : s.readCorridor r n = s.hopCorridor x := by
  unfold State.readCorridor
  rw [h]
  rfl

theorem readPosition_of_readHop {n : Nat} {x : HopRef} (h : s.readHop r n = some x) : s.readPosition r n = s.hopPosition x := by
  unfold State.readPosition
  rw [h]
  rfl

/-- The hops read on over the seam: those that go on in the corridor of the route's last hop. -/
theorem getElem?_visitReading (placed : (s.route r).placed) (n : Nat) (x : HopRef) : (s.visitReading r)[n]? = some x ↔
    n < (s.route r).hopCount + 17 ∧ s.readHop r n = some x ∧
      ((s.route r).hopCount ≤ n → ∃ k, ∀ i, (s.route r).hopCount - 1 ≤ i → i ≤ n → s.readCorridor r i = some k) := by
  have two := placed.1
  unfold State.visitReading
  rw [getLast?_hopRange placed]
  dsimp only
  have lastRead := readHop_own placed ((s.route r).hopCount - 1) (by omega)
  by_cases own : n < (s.route r).hopCount
  · rw [List.getElem?_append_left (by rw [length_hopRange]; exact own), getElem?_hopRange, readHop_own placed n own]
    constructor
    · rintro ⟨-, rfl⟩
      exact ⟨by omega, rfl, fun le => absurd own (by omega)⟩
    · rintro ⟨-, e, -⟩
      exact ⟨own, (Option.some.inj e).symm⟩
  · rw [List.getElem?_append_right (by rw [length_hopRange]; omega), length_hopRange]
    obtain ⟨j, rfl⟩ : ∃ j, n = (s.route r).hopCount + j := ⟨n - (s.route r).hopCount, by omega⟩
    rw [Nat.add_sub_cancel_left]
    have corridorLast := readCorridor_of_readHop lastRead
    cases e : s.hopCorridor (s.ownHop r ((s.route r).hopCount - 1)) with
    | none =>
      refine iff_of_false (by simp) ?_
      rintro ⟨-, -, inOne⟩
      obtain ⟨k, all⟩ := inOne (by omega)
      have := all ((s.route r).hopCount - 1) (Nat.le_refl _) (by omega)
      rw [corridorLast, e] at this
      cases this
    | some k =>
      rw [getElem?_takeWhile, getElem?_followingHops placed, and_assoc]
      have near : (s.route r).hopCount + j < (s.route r).hopCount + 17 ↔ j < 17 := by omega
      rw [near]
      refine and_congr_right fun lt => and_congr_right fun there => ?_
      simp only [getElem?_followingHops placed, beq_iff_eq]
      constructor
      · refine fun along _ => ⟨k, fun i le ij => ?_⟩
        by_cases last : i = (s.route r).hopCount - 1
        · rw [last, corridorLast, e]
        · obtain ⟨l, rfl⟩ : ∃ l, i = (s.route r).hopCount + l := ⟨i - (s.route r).hopCount, by omega⟩
          cases read : s.readHop r ((s.route r).hopCount + l) with
          | none =>
            have := readHop_none read (j - l)
            rw [show (s.route r).hopCount + l + (j - l) = (s.route r).hopCount + j by omega, there] at this
            cases this
          | some y =>
            rw [readCorridor_of_readHop read]
            exact along l (by omega) y ⟨by omega, read⟩
      · intro inOne l le y hy
        obtain ⟨m, all⟩ := inOne (by omega)
        have same := all ((s.route r).hopCount - 1) (Nat.le_refl _) (by omega)
        rw [corridorLast, e] at same
        have here := all ((s.route r).hopCount + l) (by omega) (by omega)
        rw [readCorridor_of_readHop hy.2] at here
        exact here.trans same.symm

/-- The visits of the reading begin where the statements say (section 2.3). -/
theorem runStart_visitReading (placed : (s.route r).placed) (k : CorridorId) (a : Nat) :
    RunStart (fun x => s.hopCorridor x == some k) (s.visitReading r) a ↔ s.visitBegins r k a := by
  unfold RunStart State.visitBegins
  simp only [getElem?_visitReading placed, beq_iff_eq, beq_eq_false_iff_ne]
  constructor
  · rintro ⟨⟨x, ⟨-, read, goesOver⟩, here⟩, before⟩
    have corridor := (readCorridor_of_readHop read).trans here
    refine ⟨?_, corridor, before.imp_right fun ⟨y, ⟨_, read', _⟩, ne⟩ => by rwa [readCorridor_of_readHop read']⟩
    refine Nat.lt_of_not_le fun beyond => ?_
    have two := placed.1
    obtain ⟨l, all⟩ := goesOver beyond
    rcases before with zero | ⟨y, ⟨-, read', -⟩, ne⟩
    · omega
    · have same := (all (a - 1) (by omega) (by omega)).trans ((all a (by omega) (Nat.le_refl a)).symm.trans corridor)
      exact ne ((readCorridor_of_readHop read').symm.trans same)
  · rintro ⟨own, here, before⟩
    obtain ⟨x, read, corridor⟩ := (readCorridor_eq_some a k).1 here
    refine ⟨⟨x, ⟨by omega, read, fun le => absurd own (by omega)⟩, corridor⟩, before.imp_right fun ne => ?_⟩
    have read' := readHop_own placed (a - 1) (by omega)
    exact ⟨_, ⟨by omega, read', fun le => absurd own (by omega)⟩, by rwa [readCorridor_of_readHop read'] at ne⟩

/-- A visit as a check reads it: the hops from a place on in one corridor. -/
def State.visitFrom (s : State) (r : RouteId) (k : CorridorId) (a : Nat) : List HopRef :=
  ((s.visitReading r).drop a).takeWhile (fun x => s.hopCorridor x == some k)

theorem mem_visitsAcross (placed : (s.route r).placed) (v : List HopRef) :
    v ∈ s.visitsAcross r ↔ ∃ k a, s.visitBegins r k a ∧ v = s.visitFrom r k a := by
  rw [visitsAcross_eq, mem_corridorRuns]
  simp only [runStart_visitReading placed]
  rfl

section
variable {k : CorridorId} {a : Nat}

/-- The hops of a visit, by number: those of the reading up to the first outside the corridor. -/
theorem getElem?_visitFrom (placed : (s.route r).placed) (begins : s.visitBegins r k a) (j : Nat) (x : HopRef) :
    (s.visitFrom r k a)[j]? = some x ↔ a + j < (s.route r).hopCount + 17 ∧ s.readHop r (a + j) = some x ∧
      ∀ n, a ≤ n → n ≤ a + j → s.readCorridor r n = some k := by
  unfold State.visitFrom
  rw [getElem?_takeWhile, List.getElem?_drop]
  simp only [List.getElem?_drop, beq_iff_eq]
  constructor
  · rintro ⟨hx, along⟩
    obtain ⟨lt, read, -⟩ := (getElem?_visitReading placed _ x).1 hx
    refine ⟨lt, read, fun n an nj => ?_⟩
    have long := (lt_length_iff _ _).2 ⟨x, hx⟩
    obtain ⟨y, hy⟩ := (lt_length_iff (s.visitReading r) n).1 (by omega)
    obtain ⟨-, read', -⟩ := (getElem?_visitReading placed n y).1 hy
    rw [readCorridor_of_readHop read']
    exact along (n - a) (by omega) y (by rw [show a + (n - a) = n by omega]; exact hy)
  · rintro ⟨lt, read, inside⟩
    have own := begins.1
    refine ⟨(getElem?_visitReading placed _ x).2 ⟨lt, read, fun _ => ⟨k, fun i le ij => inside i (by omega) ij⟩⟩, fun i le y hy => ?_⟩
    obtain ⟨-, read', -⟩ := (getElem?_visitReading placed _ y).1 hy
    exact (readCorridor_of_readHop read').symm.trans (inside (a + i) (by omega) (by omega))

/-- The first hop of a visit that does not go on by a test of positions. -/
theorem firstOffCourse_visitFrom (placed : (s.route r).placed) (begins : s.visitBegins r k a) (goesOn : Nat → Nat → Bool) (x : HopRef) :
    firstOffCourse (fun u v => goesOn (s.hopPosition u) (s.hopPosition v)) (s.visitFrom r k a) = some x ↔
      ∃ m, a < m ∧ m < (s.route r).hopCount + 17 ∧ s.readHop r m = some x ∧
        (∀ n, a ≤ n → n ≤ m → s.readCorridor r n = some k) ∧
        (∀ n, a ≤ n → n + 1 < m → goesOn (s.readPosition r n) (s.readPosition r (n + 1)) = true) ∧
        goesOn (s.readPosition r (m - 1)) (s.readPosition r m) = false := by
  rw [firstOffCourse_eq_some]
  simp only [getElem?_visitFrom placed begins]
  constructor
  · rintro ⟨j, y, ⟨-, ry, -⟩, ⟨lt, rx, inside⟩, off, before⟩
    refine ⟨a + (j + 1), by omega, lt, rx, inside, fun n an nm => ?_, ?_⟩
    · obtain ⟨u, ru, -⟩ := (readCorridor_eq_some n k).1 (inside n an (by omega))
      obtain ⟨v, rv, -⟩ := (readCorridor_eq_some (n + 1) k).1 (inside (n + 1) (by omega) (by omega))
      rw [readPosition_of_readHop ru, readPosition_of_readHop rv]
      have first : a + (n - a) = n := by omega
      have second : a + (n - a + 1) = n + 1 := by omega
      refine before (n - a) (by omega) u v ⟨by omega, first.symm ▸ ru, fun l al ln => inside l al (by omega)⟩
        ⟨by omega, second.symm ▸ rv, fun l al ln => inside l al (by omega)⟩
    · rw [readPosition_of_readHop rx, show a + (j + 1) - 1 = a + j by omega, readPosition_of_readHop ry]
      exact off
  · rintro ⟨m, am, lt, rx, inside, before, off⟩
    obtain ⟨j, rfl⟩ : ∃ j, m = a + (j + 1) := ⟨m - a - 1, by omega⟩
    obtain ⟨y, ry, -⟩ := (readCorridor_eq_some (a + j) k).1 (inside (a + j) (by omega) (by omega))
    rw [readPosition_of_readHop rx, show a + (j + 1) - 1 = a + j by omega, readPosition_of_readHop ry] at off
    refine ⟨j, y, ⟨by omega, ry, fun n an nj => inside n an (by omega)⟩, ⟨lt, rx, inside⟩, off, fun i ij u v hu hv => ?_⟩
    have := before (a + i) (by omega) (by omega)
    rwa [readPosition_of_readHop hu.2.1, Nat.add_assoc, readPosition_of_readHop hv.2.1] at this

theorem turnOf_eq_some (v : List HopRef) (x : HopRef) : s.turnOf v = some x ↔ ∃ u w, v[0]? = some u ∧ v[1]? = some w ∧
    if s.hopPosition u < s.hopPosition w then
      firstOffCourse (fun x y => decide (s.hopPosition x < s.hopPosition y)) v = some x
    else firstOffCourse (fun x y => decide (s.hopPosition y < s.hopPosition x)) v = some x := by
  rcases v with _ | ⟨u, _ | ⟨w, l⟩⟩
  · simp [State.turnOf]
  · simp [State.turnOf]
  · simp only [State.turnOf, List.getElem?_cons_zero, List.getElem?_cons_succ, Option.some.injEq, exists_and_left, exists_eq_left']
    split <;> rfl

theorem readPosition_lt (s : State) (r : RouteId) (n : Nat) : s.readPosition r n < 16 := by
  unfold State.readPosition
  cases s.readHop r n with
  | none => exact Nat.zero_lt_succ _
  | some x => exact (s.zone (s.hopZone x.hop)).position.isLt

/-- Positions that only rise from a place on turn within 16 hops: there are 16 of them (R1). -/
theorem rising_within {p : Nat → Nat} (few : ∀ n, p n < 16) {a m : Nat} (h : ∀ n, a ≤ n → n + 1 < m → p n < p (n + 1)) : m ≤ a + 16 := by
  have above : ∀ j, a + j < m → j ≤ p (a + j) := by
    intro j
    induction j with
    | zero => exact fun _ => Nat.zero_le _
    | succ j ih =>
      intro lt
      have := h (a + j) (by omega) (by omega)
      have := ih (by omega)
      rw [← Nat.add_assoc]
      omega
  refine Nat.le_of_not_lt fun far => ?_
  have := above 16 (by omega)
  have := few (a + 16)
  omega

/-- And so do positions that only fall. -/
theorem falling_within {p : Nat → Nat} (few : ∀ n, p n < 16) {a m : Nat} (h : ∀ n, a ≤ n → n + 1 < m → p (n + 1) < p n) : m ≤ a + 16 :=
  rising_within (p := fun n => 15 - p n) (fun n => by omega) fun n an nm => by
    have := h n an nm
    have := few n
    omega

/-- A visit turns at the hop that the statements name (R46, log 15). -/
theorem turnOf_visitFrom (placed : (s.route r).placed) (begins : s.visitBegins r k a) (x : HopRef) :
    s.turnOf (s.visitFrom r k a) = some x ↔ ∃ m, s.turnsAt r k a m ∧ s.readHop r m = some x := by
  have own := begins.1
  have few := readPosition_lt s r
  have rise := firstOffCourse_visitFrom placed begins (fun p q => decide (p < q)) x
  have fall := firstOffCourse_visitFrom placed begins (fun p q => decide (q < p)) x
  simp only [decide_eq_true_eq, decide_eq_false_iff_not, Nat.not_lt] at rise fall
  rw [turnOf_eq_some, rise, fall]
  simp only [getElem?_visitFrom placed begins, State.turnsAt]
  constructor
  · rintro ⟨u, w, ⟨-, ru, -⟩, ⟨-, rw', -⟩, h⟩
    rw [← readPosition_of_readHop ru, ← readPosition_of_readHop rw', Nat.add_zero] at h
    split at h
    · next up =>
      obtain ⟨m, am, -, rx, inside, before, off⟩ := h
      exact ⟨m, ⟨am, inside, by rw [if_pos up]; exact ⟨before, off⟩⟩, rx⟩
    · next down =>
      obtain ⟨m, am, -, rx, inside, before, off⟩ := h
      exact ⟨m, ⟨am, inside, by rw [if_neg down]; exact ⟨before, off⟩⟩, rx⟩
  · rintro ⟨m, ⟨am, inside, turn⟩, rx⟩
    obtain ⟨u, ru, -⟩ := (readCorridor_eq_some a k).1 (inside a (Nat.le_refl a) (by omega))
    obtain ⟨w, rw', -⟩ := (readCorridor_eq_some (a + 1) k).1 (inside (a + 1) (by omega) (by omega))
    refine ⟨u, w, ⟨by omega, ru, fun n an na => inside n an (by omega)⟩, ⟨by omega, rw', fun n an na => inside n an (by omega)⟩, ?_⟩
    rw [← readPosition_of_readHop ru, ← readPosition_of_readHop rw']
    split at turn
    · next up =>
      have near := rising_within few turn.1
      rw [if_pos up]
      exact ⟨m, am, by omega, rx, inside, turn.1, turn.2⟩
    · next down =>
      have near := falling_within few turn.1
      rw [if_neg down]
      exact ⟨m, am, by omega, rx, inside, turn.1, turn.2⟩

end

theorem checkCorridorTurn_none (placed : (s.route r).placed) :
    s.checkCorridorTurn r = none ↔ ∀ i, ¬s.rowFails r i .corridorTurn := by
  unfold State.checkCorridorTurn
  rw [failureAt_eq_none]
  refine forall_congr' fun i => not_congr ?_
  simp only [List.mem_flatMap, mem_visitsAcross placed, Option.mem_toList, Option.map_eq_some_iff, State.rowFails]
  constructor
  · rintro ⟨_, ⟨k, a, begins, rfl⟩, x, turn, rfl⟩
    obtain ⟨m, turns, read⟩ := (turnOf_visitFrom placed begins x).1 turn
    exact ⟨k, a, m, x, begins, turns, read, rfl⟩
  · rintro ⟨k, a, m, x, begins, turns, read, rfl⟩
    exact ⟨_, ⟨k, a, begins, rfl⟩, x, (turnOf_visitFrom placed begins x).2 ⟨m, turns, read⟩, rfl⟩

/-- The checks of a route find nothing exactly where it fails no row of the table of R46. -/
theorem routeCheck_none_iff (placed : (s.route r).placed) : s.routeCheck r = none ↔ s.routePasses r := by
  unfold State.routeCheck firstFailure State.routePasses routeRows
  simp only [List.findSome?_eq_none_iff, List.forall_mem_cons, List.not_mem_nil, false_implies, implies_true, and_true, id,
    checkZoneUndefined_none placed, checkLinkUndefined_none, checkRepeatedZone_none placed, checkLastNoStop_none placed,
    checkSetTooLong_none placed, checkCorridorTouch_none placed, checkCorridorTurn_none placed]

end

/-! ## An applied Write Zone, as the statement says it -/

section
variable (slot : MgmtSlot) (s : State) (z : ZoneId) (new : ZoneRecord)

theorem zst_noteTableWrite (w : ZoneId) : (s.noteTableWrite slot).zst w = s.zst w := by
  obtain ⟨a, b, e⟩ := noteTableWrite_only s slot
  rw [e]
  rfl

theorem input_noteTableWrite (f : FieldSlotId) (i : LineId) : (s.noteTableWrite slot).input f i = s.input f i := by
  obtain ⟨a, b, e⟩ := noteTableWrite_only s slot
  exact input_of_inputs (by rw [e]; rfl) i

theorem boundElsewhere_noteTableWrite : (s.noteTableWrite slot).boundElsewhere z = s.boundElsewhere z := by
  unfold State.boundElsewhere
  simp only [zone_noteTableWrite]

theorem bindsAgainst_noteTableWrite : (s.noteTableWrite slot).bindsAgainst = s.bindsAgainst := by
  unfold State.bindsAgainst
  simp only [zone_noteTableWrite]

/-- The FIELD wake, if it runs, is of the rights engine. -/
theorem applyZone_frame : EngineFrame (s.layZone z new) (s.applyZone z new) := wakeIfCleared_frame _ _ z

/-- The zone records after an applied Write Zone. -/
theorem zone_applyZone (w : ZoneId) : (s.applyZone z new).zone w = if w = z then new else s.zone w := by
  rw [zone_of (applyZone_frame s z new).zones, zone_layZone]

/-- The field states after an applied Write Zone (R17). -/
theorem field_applyZone (w : ZoneId) : ((s.applyZone z new).zst w).field =
    if w = z ∧ (new.fieldBinding ≠ (s.zone z).fieldBinding ∨ new.defined ≠ (s.zone z).defined) then (s.applyZone z new).fieldValue z
    else (s.zst w).field := by
  have frame := applyZone_frame s z new
  rw [frame.fields, field_layZone, fieldValue_of_inputs frame.zones frame.inputs]

/-- The FIELD waiters are woken where the zone's field state leaves UNCLEAR, and only there (R86). -/
theorem applyZone_eq : s.applyZone z new =
    if (s.zst z).field = .unclear ∧ ((s.applyZone z new).zst z).field ≠ .unclear then (s.layZone z new).fieldWake z
    else s.layZone z new := by
  rw [(applyZone_frame s z new).fields]
  rfl

end

/-- Settles O19: no check refuses the write, so the record is laid; the route checks are the rows of R46, and the tables, inputs and the FIELD wake are those of the record laid. -/
theorem aWriteZoneIsApplied : Obligations.AWriteZoneIsApplied := by
  intro slot z r s ready n hn guard pass agree routes
  subst hn
  rw [zone_setZone_self] at agree
  refine ⟨fun q placed => routeCheck_none_iff placed, (s.noteTableWrite slot).layZone z (writtenZone slot (s.zone z) r), _,
    exec_writeZone_applied ready guard pass agree routes, ?_⟩
  generalize writtenZone slot (s.zone z) r = new at agree ⊢
  have frame := applyZone_frame (s.noteTableWrite slot) z new
  have zone := zone_applyZone (s.noteTableWrite slot) z new
  have field := field_applyZone (s.noteTableWrite slot) z new
  have wake := applyZone_eq (s.noteTableWrite slot) z new
  have inputs := fun f i => input_layZone_follows (s := s.noteTableWrite slot) (z := z) (new := new) (f := f) (i := i)
    (by rw [bindsAgainst_noteTableWrite]; exact agree)
  simp only [zone_noteTableWrite, zst_noteTableWrite, input_noteTableWrite, boundElsewhere_noteTableWrite] at zone field wake inputs
  have written : ((s.noteTableWrite slot).applyZone z new).zone z = new := by rw [zone, if_pos rfl]
  refine ⟨written, fun w ne => ⟨by rw [zone, if_neg ne], by rw [field, if_neg fun h => ne h.1]⟩, ?_, rfl, wake, frame, fun f i => ?_⟩
  · rw [field, written]
    simp only [true_and]
  · rw [written, input_of_inputs (frame.inputs f) i]
    exact inputs f i

end Sys2Proof.Machine
end

section
/-! SUPPORT. What resets leave of the corridors (R20, R24). -/

namespace Sys2Proof.Machine

/-! ## The tables after a reset (R172) -/

theorem AfterPowerOn.tables {s t : State} (h : AfterPowerOn s t) : TablesOf State.reset t := by
  obtain ⟨straps, run⟩ := h
  obtain rfl : s.powerOn straps = t := Host.Outcome.next.inj run
  exact powerOn_tables s straps

theorem RestartTables.resetPin {s u : State} (k : RestartTables s u) (level : Bool) : RestartTables s { u with resetPin := level } :=
  { k with }

theorem RestartTables.districtCode {s u : State} (k : RestartTables s u) (code : BitVec 4) :
    RestartTables s { u with districtCode := code } :=
  { k with }

theorem AfterPinReset.tables {s t : State} (h : AfterPinReset s t) : RestartTables s t := by
  obtain ⟨released, run⟩ := h
  have asserted : exec .resetPin s = .next { s.restart .resetPin with resetPin := true } :=
    congrArg Host.Outcome.next (if_neg (ne_true_of_eq_false released))
  obtain rfl := Host.Outcome.next.inj (asserted.symm.trans run)
  exact (restart_tables s .resetPin).resetPin true

theorem AfterResetCommand.tables {s t : State} (h : AfterResetCommand s t) : RestartTables s t := by
  obtain ⟨ready, run⟩ := h
  obtain rfl := Host.Outcome.next.inj ((exec_reset ready).symm.trans run)
  exact (restart_tables s .resetCommand).districtCode s.straps

theorem AfterKeepingReset.tables {s t : State} (h : AfterKeepingReset s t) : RestartTables s t :=
  h.elim AfterPinReset.tables AfterResetCommand.tables

/-! ## The corridors after a reset -/

theorem AfterReset.cst_cleared {s t : State} (h : AfterReset s t) (k : CorridorId) : t.cst k = .cleared := by
  rcases h with on | keeping
  · rw [on.tables.cst, reset_cst]
  · exact keeping.tables.cst k

theorem AfterReset.unheld {s t : State} (h : AfterReset s t) (z : ZoneId) : t.holder z = none := by
  unfold State.holder
  rcases h with on | keeping
  · rw [on.tables.zst, reset_zst, ZoneState.cleared]
  · rw [keeping.tables.zst, ZoneState.cleared]

/-- Settles O6: power-on leaves the reset state's records, a keeping reset the corridor table itself, and each of them clears every corridor's state and every holder. -/
theorem resetsOfTheCorridors : Obligations.ResetsOfTheCorridors := by
  intro s t
  refine ⟨fun on k => ?_, fun keeping k => ?_, fun reset => ⟨reset.cst_cleared, reset.unheld⟩⟩
  · rw [on.tables.corridor, reset_corridor, CorridorRecord.cleared]
  · unfold State.corridor
    rw [keeping.tables.corridors]

end Sys2Proof.Machine
end

section
/-! SUPPORT. The corridor test (R26) and the entry (R27), by whether the carrier is directed in the corridor; with leaving, releases and wakes, the statement of O48. -/

namespace Sys2Proof.Machine

section
variable {x : CorridorState} {c : CarrierId}

/-! ## The corridor test (R26) -/

theorem admits_of_directed {o : Occupant} {e : Direction} (present : x.occupant c = some o) (directed : o.direction = some e)
    (d : Direction) : x.admits c d = true ↔ e = d := by
  obtain ⟨slot, direction⟩ := o
  obtain rfl : direction = some e := directed
  unfold CorridorState.admits
  rw [present]
  exact beq_iff_eq

theorem admits_of_undirected (free : ∀ o, x.occupant c = some o → o.direction = none) (d : Direction) :
    x.admits c d = true ↔ x.direction = none ∨ x.flow = .flowing ∧ x.direction = some d := by
  unfold CorridorState.admits
  split
  · next slot e present => exact absurd (free _ present) nofun
  · cases x.direction with
    | none => simp
    | some e => simp

/-! ## The entry (R27) -/

theorem enter_of_directed {o : Occupant} {e : Direction} (present : x.occupant c = some o) (directed : o.direction = some e)
    (quota : Nat) (d : Direction) : x.enter quota c d = x := by
  obtain ⟨slot, direction⟩ := o
  obtain rfl : direction = some e := directed
  unfold CorridorState.enter
  rw [present]

/-- The occupants after a carrier that was not directed in a corridor has entered it (R27): its UNDIRECTED entry is directed where it stands, or a new one joins at the end. -/
def CorridorState.occupantsEntered (x : CorridorState) (c : CarrierId) (d : Direction) : List Occupant :=
  match x.occupant c with
  | none => x.occupants ++ [⟨c, some d⟩]
  | some _ => directEntry c (some d) x.occupants

theorem occupantsEntered_of_absent (absent : x.occupant c = none) (d : Direction) :
    x.occupantsEntered c d = x.occupants ++ [⟨c, some d⟩] := by
  unfold CorridorState.occupantsEntered
  rw [absent]

theorem occupantsEntered_of_present {o : Occupant} (present : x.occupant c = some o) (d : Direction) :
    x.occupantsEntered c d = directEntry c (some d) x.occupants := by
  unfold CorridorState.occupantsEntered
  rw [present]

theorem enter_of_no_direction (free : ∀ o, x.occupant c = some o → o.direction = none) (quota : Nat) (d : Direction)
    (still : x.direction = none) :
    x.enter quota c d = { x with occupants := x.occupantsEntered c d, direction := some d, flow := .flowing } := by
  unfold CorridorState.enter
  split
  · next slot e present => exact absurd (free _ present) nofun
  · next slot present => simp only [still, occupantsEntered_of_present present]
  · next absent => simp only [still, occupantsEntered_of_absent absent]

theorem enter_of_direction (free : ∀ o, x.occupant c = some o → o.direction = none) (quota : Nat) (d : Direction)
    {e : Direction} (runs : x.direction = some e) :
    x.enter quota c d = ({ x with occupants := x.occupantsEntered c d } : CorridorState).countEntry quota d := by
  unfold CorridorState.enter
  split
  · next slot e present => exact absurd (free _ present) nofun
  · next slot present => simp only [runs, occupantsEntered_of_present present]
  · next absent => simp only [runs, occupantsEntered_of_absent absent]

theorem opposed_iff (d : Direction) : x.opposed d = true ↔ ∃ w ∈ x.queue, w.direction ≠ d := by
  unfold CorridorState.opposed
  simp only [List.any_eq_true, bne_iff_ne]

/-- An entry counted (R27): the count rises, and may drain the corridor, against an opposite waiter alone. -/
theorem countEntry_effect (x : CorridorState) (quota : Nat) (d : Direction) :
    (x.countEntry quota d).occupants = x.occupants ∧
    (x.countEntry quota d).direction = x.direction ∧ (x.countEntry quota d).queue = x.queue ∧
    ((∃ w ∈ x.queue, w.direction ≠ d) → (x.countEntry quota d).count = x.count + 1 ∧
      (x.countEntry quota d).flow = if quota ≤ x.count + 1 then .draining else x.flow) ∧
    ((∀ w ∈ x.queue, w.direction = d) → (x.countEntry quota d).count = x.count ∧ (x.countEntry quota d).flow = x.flow) := by
  unfold CorridorState.countEntry
  split
  · next opposed =>
    obtain ⟨w, waits, other⟩ := (opposed_iff d).1 opposed
    exact ⟨rfl, rfl, rfl, fun _ => ⟨rfl, rfl⟩, fun unopposed => absurd (unopposed w waits) other⟩
  · next unopposed =>
    exact ⟨rfl, rfl, rfl, fun opposed => absurd ((opposed_iff d).2 opposed) unopposed, fun _ => ⟨rfl, rfl⟩⟩

theorem enter_along (free : ∀ o, x.occupant c = some o → o.direction = none) (quota : Nat) {d : Direction}
    (runs : x.direction = some d) :
    (x.enter quota c d).occupants = x.occupantsEntered c d ∧
    (x.enter quota c d).direction = some d ∧ (x.enter quota c d).queue = x.queue ∧
    ((∃ w ∈ x.queue, w.direction ≠ d) → (x.enter quota c d).count = x.count + 1 ∧
      (x.enter quota c d).flow = if quota ≤ x.count + 1 then .draining else x.flow) ∧
    ((∀ w ∈ x.queue, w.direction = d) → (x.enter quota c d).count = x.count ∧ (x.enter quota c d).flow = x.flow) := by
  rw [enter_of_direction free quota d runs]
  obtain ⟨occupants, direction, queue, opposed, unopposed⟩ :=
    countEntry_effect { x with occupants := x.occupantsEntered c d } quota d
  exact ⟨occupants, direction.trans runs, queue, opposed, unopposed⟩

end

/-! ## The statement, part by part -/

/-- The test of a carrier directed in the corridor, and of one that is not (R26). -/
theorem corridor_test (x : CorridorState) (c : CarrierId) (d : Direction) :
    (∀ o, x.occupant c = some o → o.direction = some d → x.admits c d = true) ∧
    (∀ o e, x.occupant c = some o → o.direction = some e → e ≠ d → x.admits c d = false) ∧
    ((∀ o, x.occupant c = some o → o.direction = none) →
      (x.direction = none → x.admits c d = true) ∧
      (x.flow = .flowing → x.direction = some d → x.admits c d = true) ∧
      (∀ e, x.direction = some e → x.flow ≠ .flowing ∨ e ≠ d → x.admits c d = false)) := by
  refine ⟨fun o present directed => (admits_of_directed present directed d).2 rfl,
    fun o e present directed other => Bool.eq_false_iff.2 fun h => other ((admits_of_directed present directed d).1 h),
    fun free => ?_⟩
  have test := admits_of_undirected free d
  refine ⟨fun still => test.2 (.inl still), fun flows runs => test.2 (.inr ⟨flows, runs⟩), fun e runs blocked => ?_⟩
  rw [Bool.eq_false_iff, ne_eq, test, runs]
  simp only [reduceCtorEq, Option.some.injEq, false_or]
  rintro ⟨flows, rfl⟩
  exact blocked.elim (· flows) (· rfl)

theorem enter_joins {x : CorridorState} {c : CarrierId} (quota : Nat) (d : Direction) (absent : x.occupant c = none)
    (still : x.direction = none) :
    x.enter quota c d = { x with occupants := x.occupants ++ [⟨c, some d⟩], direction := some d, flow := .flowing } := by
  rw [enter_of_no_direction (fun o present => nomatch absent.symm.trans present) quota d still, occupantsEntered_of_absent absent]

theorem enter_directs {x : CorridorState} {c : CarrierId} {o : Occupant} (quota : Nat) (d : Direction)
    (present : x.occupant c = some o) (undirected : o.direction = none) (still : x.direction = none) :
    x.enter quota c d = { x with occupants := directEntry c (some d) x.occupants, direction := some d, flow := .flowing } := by
  have free : ∀ p, x.occupant c = some p → p.direction = none := fun p other => by
    rwa [← Option.some.inj (present.symm.trans other)]
  rw [enter_of_no_direction free quota d still, occupantsEntered_of_present present]

/-- Settles O48: the test and the entry by whether the carrier is directed in the corridor, leaving and undirecting by whether it is the last directed one there, and the releases and wakes as folds over the queues as they stood. -/
theorem theCorridorTestAndTheEntry : Obligations.TheCorridorTestAndTheEntry := by
  refine ⟨fun x quota c d => ?_, release_parts, releaseAll_fold, undirect_parts, wakeCorridor_fold,
    fun s z causes => ⟨wakeZone_fold s z causes, rfl⟩, holdLifted_fold, fun s c => ?_⟩
  · obtain ⟨agrees, differs, undirected⟩ := corridor_test x c d
    exact ⟨agrees, differs, undirected,
      fun o present directed => enter_of_directed present directed quota d,
      enter_joins quota d,
      fun o => enter_directs quota d,
      fun runs free => enter_along free quota runs,
      fun last => ⟨leave_of_last last, undirect_of_last last⟩,
      fun last => ⟨leave_of_not_last last, undirect_of_not_last last⟩⟩
  · exact ⟨covered_iff s c, passAllowed_iff s c, examine_of_allowed, runPass_of_not, examine_of_not⟩

end Sys2Proof.Machine
end

section
/-! SUPPORT. What resets leave of the routes and hops (R35, R37), and what Read Route and Read Hops answer (R49, R50). -/

namespace Sys2Proof.Machine

/-! ## The routes and hops after a reset -/

theorem AfterReset.carrier_cleared {s t : State} (h : AfterReset s t) (c : CarrierId) : t.carrier c = .cleared := by
  rcases h with on | keeping
  · rw [on.tables.carrier, reset_carrier]
  · exact keeping.tables.carrier c

/-- Settles O7: power-on leaves the reset state's records, a keeping reset the hops and the routes without users, and each of them vacates every slot. -/
theorem resetsOfTheRoutes : Obligations.ResetsOfTheRoutes := by
  intro s t
  refine ⟨fun on => ⟨fun r => ?_, fun h => ?_⟩, fun keeping => ⟨keeping.tables.route, fun h => ?_⟩, fun reset c => ?_⟩
  · rw [on.tables.route, reset_route, RouteRecord.cleared]
  · rw [on.tables.hop, reset_hop]
  · unfold State.hop
    rw [keeping.tables.hops]
  · rw [reset.carrier_cleared]
    exact ⟨rfl, rfl⟩

/-! ## Read Route and Read Hops -/

section
variable {slot : MgmtSlot} {s : State}

/-- A Read Route that its slot machine takes answers with the record read. -/
theorem exec_readRoute {b : Byte} {a : Answer} (ready : s.ready slot) (h : readRouteAnswer b s = a) :
    exec (.readRoute slot b) s = .next (s.answered slot 0x0C a.status a.results) := by
  subst h
  exact congrArg _ (takeCommand_reading ready (readRouteAnswer b))

/-- A Read Hops that its slot machine takes answers with the hops read. -/
theorem exec_readHops {start : Half} {count : Byte} {a : Answer} (ready : s.ready slot) (h : readHopsAnswer start count s = a) :
    exec (.readHops slot start count) s = .next (s.answered slot 0x0E a.status a.results) := by
  subst h
  exact congrArg _ (takeCommand_reading ready (readHopsAnswer start count))

theorem readRouteAnswer_of_le {b : Byte} (h : 128 ≤ b.toNat) : readRouteAnswer b s = .bare .badItem := by
  unfold readRouteAnswer
  rw [routeOf_of_le h]

theorem readRouteAnswer_byteOf (r : RouteId) :
    readRouteAnswer (byteOf r.val) s = ⟨.ok, routeBytes (s.route r) ++ [byteOf (s.route r).users]⟩ := by
  unfold readRouteAnswer
  rw [routeOf_byteOf]

/-- Read Hops by its bounds: 1 to 12 hops, the last within the store (R50). -/
theorem readHopsAnswer_out {start : Half} {count : Byte}
    (h : count.toNat = 0 ∨ 12 < count.toNat ∨ 2047 < start.toNat + count.toNat - 1) :
    readHopsAnswer start count s = .bare .badItem := if_pos h

theorem readHopsAnswer_in {start : Half} {count : Byte}
    (h : ¬(count.toNat = 0 ∨ 12 < count.toNat ∨ 2047 < start.toNat + count.toNat - 1)) :
    readHopsAnswer start count s = ⟨.ok, (List.range count.toNat).flatMap (fun n =>
      [byteOf (s.hop (Fin.ofNat 2048 (start.toNat + n))).zone.val, byteOf (s.hop (Fin.ofNat 2048 (start.toNat + n))).cap.val])⟩ :=
  if_neg h

end

/-- Settles O13: a route or hops out of range are a BAD_ITEM, and a record in range is answered byte by byte. -/
theorem readsOfTheRoutesAndHops : Obligations.ReadsOfTheRoutesAndHops := by
  intro slot s ready
  refine ⟨fun b out => exec_readRoute ready (readRouteAnswer_of_le out), fun r => ?_, fun start count out => ?_,
    fun start count one twelve within => exec_readHops ready (readHopsAnswer_in (by omega))⟩
  · rw [exec_readRoute ready (readRouteAnswer_byteOf r), routeBytes, List.append_assoc]
    rfl
  · refine exec_readHops ready (readHopsAnswer_out (out.imp_left fun zero => ?_))
    rw [zero]
    rfl

end Sys2Proof.Machine
end

section
/-! SUPPORT. The index of a failed route check (R46): each check reports its row with the lowest index at which the row fails, and the checks together the first row that fails. -/

namespace Sys2Proof.Machine

/-! ## What a check reports -/

/-- A check reports a kind of failure with the lowest index at which it fails, and nothing else. -/
def ReportsLowest (o : Option CheckFailure) (kind : CheckKind) (fails : Nat → Prop) : Prop :=
  ∀ f, o = some f ↔ f.kind = kind ∧ fails f.index ∧ ∀ i < f.index, ¬fails i

theorem failureAt_eq_some (kind : CheckKind) (l : List Nat) (f : CheckFailure) :
    failureAt kind l = some f ↔ f.kind = kind ∧ f.index ∈ l ∧ ∀ i ∈ l, f.index ≤ i := by
  obtain ⟨k, n⟩ := f
  unfold failureAt least
  simp only [Option.map_eq_some_iff, List.min?_eq_some_iff, CheckFailure.mk.injEq]
  constructor
  · rintro ⟨_, low, rfl, rfl⟩
    exact ⟨rfl, low⟩
  · rintro ⟨rfl, low⟩
    exact ⟨n, low, rfl, rfl⟩

/-- The least of the indices at which a row fails is reported. -/
theorem failureAt_reports {kind : CheckKind} {l : List Nat} {fails : Nat → Prop} (h : ∀ i, i ∈ l ↔ fails i) :
    ReportsLowest (failureAt kind l) kind fails := by
  intro f
  rw [failureAt_eq_some]
  simp only [h]
  exact and_congr_right fun _ => and_congr_right fun _ =>
    forall_congr' fun i => ⟨fun le lt fails => absurd (le fails) (Nat.not_le_of_lt lt), fun low fails => Nat.le_of_not_lt fun lt => low lt fails⟩

/-- A row that fails at one index alone. -/
theorem some_reports {kind : CheckKind} {n : Nat} {fails : Nat → Prop} (h : ∀ i, fails i ↔ i = n) :
    ReportsLowest (some ⟨kind, n⟩) kind fails :=
  failureAt_reports (l := [n]) fun i => List.mem_singleton.trans (h i).symm

theorem none_reports {kind : CheckKind} {fails : Nat → Prop} (h : ∀ i, ¬fails i) : ReportsLowest none kind fails :=
  fun f => iff_of_false nofun fun ⟨_, at_, _⟩ => h f.index at_

/-! ## The rows, each with its lowest index -/

section
variable {s : State} {r : RouteId}

theorem checkZoneUndefined_reports (placed : (s.route r).placed) :
    ReportsLowest (s.checkZoneUndefined r) .zoneUndefined (s.rowFails r · .zoneUndefined) := by
  refine failureAt_reports fun i => ?_
  simp only [List.mem_map, List.mem_filter, mem_hopRange, Bool.not_eq_true', State.rowFails]
  constructor
  · rintro ⟨_, ⟨⟨n, own, rfl⟩, undefined⟩, rfl⟩
    exact ⟨n, own, undefined, ownHop_val placed own⟩
  · rintro ⟨n, own, undefined, rfl⟩
    exact ⟨s.ownHop r n, ⟨⟨n, own, rfl⟩, undefined⟩, ownHop_val placed own⟩

theorem checkLinkUndefined_reports (s : State) (r : RouteId) :
    ReportsLowest (s.checkLinkUndefined r) .linkUndefined (s.rowFails r · .linkUndefined) := by
  unfold State.checkLinkUndefined
  split
  · next q link route =>
    split
    · next defined =>
      refine none_reports ?_
      rintro i ⟨-, p, route', undefined, -⟩
      obtain rfl := Option.some.inj (route.symm.trans route')
      exact absurd (defined.symm.trans undefined) nofun
    · next undefined =>
      refine some_reports fun i => ⟨?_, fun e => ⟨link, q, route, Bool.eq_false_iff.2 undefined, e⟩⟩
      rintro ⟨-, p, route', -, e⟩
      rw [e, Option.some.inj (route.symm.trans route')]
  · next other =>
    refine none_reports ?_
    rintro i ⟨link, q, route, -⟩
    exact other q link route

theorem checkRepeatedZone_reports (placed : (s.route r).placed) :
    ReportsLowest (s.checkRepeatedZone r) .repeatedZone (s.rowFails r · .repeatedZone) := by
  have two := placed.1
  have last : (s.route r).lastHop = (s.route r).firstHop.val + ((s.route r).hopCount - 1) := by
    unfold RouteRecord.lastHop
    omega
  refine failureAt_reports fun i => ?_
  simp only [List.mem_append, or_assoc, State.rowFails, repeatsInPassage_iff placed]
  refine or_congr ?_ (or_congr_right ?_)
  · simp only [List.mem_map, mem_repeatedNeighbours, getElem?_hopRange]
    constructor
    · rintro ⟨_, ⟨n, _, ⟨-, rfl⟩, ⟨own, rfl⟩, same⟩, rfl⟩
      exact ⟨n, own, same, ownHop_val placed own⟩
    · rintro ⟨n, own, same, rfl⟩
      exact ⟨_, ⟨n, _, ⟨by omega, rfl⟩, ⟨own, rfl⟩, same⟩, ownHop_val placed own⟩
  · rw [last]
    split
    · next repeated =>
      obtain ⟨x, seam, same⟩ := (seamRepeats_iff placed).1 repeated
      exact List.mem_singleton.trans ⟨fun e => ⟨x, seam, same, e⟩, fun ⟨_, _, _, e⟩ => e⟩
    · next apart => exact iff_of_false List.not_mem_nil fun ⟨x, seam, same, _⟩ => apart ((seamRepeats_iff placed).2 ⟨x, seam, same⟩)

theorem checkLastNoStop_reports (placed : (s.route r).placed) :
    ReportsLowest (s.checkLastNoStop r) .lastNoStop (s.rowFails r · .lastNoStop) := by
  have two := placed.1
  unfold State.checkLastNoStop
  rw [getLast?_hopRange placed]
  dsimp only
  rw [hopZone_ownHop, ownHop_val placed (by omega)]
  split
  · next noStop => exact some_reports fun i => and_iff_right noStop
  · next stops => exact none_reports fun i fails => stops fails.1

theorem checkSetTooLong_reports (placed : (s.route r).placed) :
    ReportsLowest (s.checkSetTooLong r) .setTooLong (s.rowFails r · .setTooLong) := by
  refine failureAt_reports fun i => ?_
  simp only [List.mem_flatMap, List.mem_filter, decide_eq_true_eq, mem_passages, mem_head_val, lt_length_iff, State.rowFails]
  constructor
  · rintro ⟨_, ⟨⟨a, start, rfl⟩, _, seventh⟩, _, first, rfl⟩
    obtain ⟨own, -, noStop⟩ := (getElem?_ownPassage a 6 _).1 seventh
    obtain ⟨-, rfl, -⟩ := (getElem?_ownPassage a 0 _).1 first
    obtain ⟨begins, -, before⟩ := (runStart_hopRange _ a).1 start
    exact ⟨a, own, noStop, before, ownHop_val placed begins⟩
  · rintro ⟨a, own, noStop, before, rfl⟩
    have start := (runStart_hopRange (s := s) (r := r) (fun x => s.noStop (s.hopZone x.hop)) a).2
      ⟨by omega, noStop a (Nat.le_refl a) (by omega), before⟩
    have seventh := (getElem?_ownPassage a 6 _).2 ⟨own, rfl, noStop⟩
    have first := (getElem?_ownPassage (s := s) (r := r) a 0 _).2 ⟨by omega, rfl, fun l le lt => absurd lt (Nat.not_lt_of_le le)⟩
    exact ⟨_, ⟨⟨a, start, rfl⟩, _, seventh⟩, _, first, (ownHop_val placed (by omega)).symm⟩

/-- A run of a route's own hops in one corridor is a single hop where its first is followed by none there. -/
theorem length_ownRun_eq_one (k : CorridorId) {a : Nat} (own : a < (s.route r).hopCount)
    (here : s.corridorOfZone (s.routeZone r a) = some k) :
    (((s.hopRange r).drop a).takeWhile (fun x => s.hopCorridor x == some k)).length = 1 ↔
      a + 1 = (s.route r).hopCount ∨ s.corridorOfZone (s.routeZone r (a + 1)) ≠ some k := by
  have first := (lt_length_iff _ 0).2 ⟨_, (getElem?_ownRun k a 0 _).2 ⟨own, rfl, fun l le la => (Nat.le_antisymm la le) ▸ here⟩⟩
  have second : 1 < (((s.hopRange r).drop a).takeWhile (fun x => s.hopCorridor x == some k)).length ↔
      a + 1 < (s.route r).hopCount ∧ s.corridorOfZone (s.routeZone r (a + 1)) = some k := by
    simp only [lt_length_iff, getElem?_ownRun, exists_and_left, exists_eq_left]
    refine and_congr_right fun _ => ⟨fun run => run (a + 1) (by omega) (Nat.le_refl _), fun next l le la => ?_⟩
    rcases Nat.eq_or_lt_of_le le with rfl | lt
    · exact here
    · rwa [show l = a + 1 by omega]
  have one : (((s.hopRange r).drop a).takeWhile (fun x => s.hopCorridor x == some k)).length = 1 ↔
      ¬1 < (((s.hopRange r).drop a).takeWhile (fun x => s.hopCorridor x == some k)).length := by omega
  rw [one, second, Classical.not_and_iff_not_or_not]
  exact or_congr_left (by omega)

theorem checkCorridorTouch_reports (placed : (s.route r).placed) :
    ReportsLowest (s.checkCorridorTouch r) .corridorTouch (s.rowFails r · .corridorTouch) := by
  refine failureAt_reports fun i => ?_
  have begins : ∀ (k : CorridorId) (a : Nat), RunStart (fun x => s.hopCorridor x == some k) (s.hopRange r) a ↔
      a < (s.route r).hopCount ∧ s.corridorOfZone (s.routeZone r a) = some k ∧
        (a = 0 ∨ s.corridorOfZone (s.routeZone r (a - 1)) ≠ some k) := fun k a => by
    rw [runStart_hopRange]
    simp only [hopCorridor_ownHop, beq_iff_eq, beq_eq_false_iff_ne]
  simp only [List.mem_flatMap, List.mem_filter, beq_iff_eq, mem_corridorRuns, mem_head_val, begins, State.rowFails]
  constructor
  · rintro ⟨_, ⟨⟨k, a, ⟨own, here, before⟩, rfl⟩, one⟩, _, first, rfl⟩
    obtain ⟨-, rfl, -⟩ := (getElem?_ownRun k a 0 _).1 first
    exact ⟨a, k, own, here, before, (length_ownRun_eq_one k own here).1 one, ownHop_val placed own⟩
  · rintro ⟨a, k, own, here, before, after, rfl⟩
    have first := (getElem?_ownRun k a 0 _).2 ⟨own, rfl, fun l le la => (Nat.le_antisymm la le) ▸ here⟩
    exact ⟨_, ⟨⟨k, a, ⟨own, here, before⟩, rfl⟩, (length_ownRun_eq_one k own here).2 after⟩, _, first, (ownHop_val placed own).symm⟩

theorem checkCorridorTurn_reports (placed : (s.route r).placed) :
    ReportsLowest (s.checkCorridorTurn r) .corridorTurn (s.rowFails r · .corridorTurn) := by
  refine failureAt_reports fun i => ?_
  simp only [List.mem_flatMap, mem_visitsAcross placed, Option.mem_toList, Option.map_eq_some_iff, State.rowFails]
  constructor
  · rintro ⟨_, ⟨k, a, begins, rfl⟩, x, turn, rfl⟩
    obtain ⟨m, turns, read⟩ := (turnOf_visitFrom placed begins x).1 turn
    exact ⟨k, a, m, x, begins, turns, read, rfl⟩
  · rintro ⟨k, a, m, x, begins, turns, read, rfl⟩
    exact ⟨_, ⟨k, a, begins, rfl⟩, x, (turnOf_visitFrom placed begins x).2 ⟨m, turns, read⟩, rfl⟩

/-! ## The table of R46 as a whole -/

/-- The check of a row of the table of R46; the kinds that are no such row have none. -/
def State.rowCheck (s : State) (r : RouteId) : CheckKind → Option CheckFailure
  | .zoneUndefined => s.checkZoneUndefined r
  | .linkUndefined => s.checkLinkUndefined r
  | .repeatedZone => s.checkRepeatedZone r
  | .lastNoStop => s.checkLastNoStop r
  | .setTooLong => s.checkSetTooLong r
  | .corridorTouch => s.checkCorridorTouch r
  | .corridorTurn => s.checkCorridorTurn r
  | _ => none

theorem routeCheck_eq (s : State) (r : RouteId) : s.routeCheck r = routeRows.findSome? (s.rowCheck r) := rfl

theorem rowCheck_reports (placed : (s.route r).placed) (kind : CheckKind) :
    ReportsLowest (s.rowCheck r kind) kind (s.rowFails r · kind) := by
  cases kind with
  | zoneUndefined => exact checkZoneUndefined_reports placed
  | linkUndefined => exact checkLinkUndefined_reports s r
  | repeatedZone => exact checkRepeatedZone_reports placed
  | lastNoStop => exact checkLastNoStop_reports placed
  | setTooLong => exact checkSetTooLong_reports placed
  | corridorTouch => exact checkCorridorTouch_reports placed
  | corridorTurn => exact checkCorridorTurn_reports placed
  | _ => exact none_reports fun _ fails => fails

theorem rowCheck_eq_none (placed : (s.route r).placed) (kind : CheckKind) :
    s.rowCheck r kind = none ↔ ∀ i, ¬s.rowFails r i kind := by
  cases kind with
  | zoneUndefined => exact checkZoneUndefined_none placed
  | linkUndefined => exact checkLinkUndefined_none s r
  | repeatedZone => exact checkRepeatedZone_none placed
  | lastNoStop => exact checkLastNoStop_none placed
  | setTooLong => exact checkSetTooLong_none placed
  | corridorTouch => exact checkCorridorTouch_none placed
  | corridorTurn => exact checkCorridorTurn_none placed
  | _ => exact iff_of_true rfl fun _ fails => fails

/-- The checks of a route report the first row of the table of R46 that it fails, with the row's lowest index. -/
theorem routeCheck_eq_some (placed : (s.route r).placed) (f : CheckFailure) : s.routeCheck r = some f ↔ s.firstRow r f := by
  rw [routeCheck_eq, List.findSome?_eq_some_iff]
  constructor
  · rintro ⟨before, kind, after, rows, found, passed⟩
    obtain ⟨rfl, fails, lowest⟩ := (rowCheck_reports placed kind f).1 found
    exact ⟨before, after, rows, fun k m => (rowCheck_eq_none placed k).1 (passed k m), fails, lowest⟩
  · rintro ⟨before, after, rows, passed, fails, lowest⟩
    exact ⟨before, f.kind, after, rows, (rowCheck_reports placed f.kind f).2 ⟨rfl, fails, lowest⟩,
      fun k m => (rowCheck_eq_none placed k).2 (passed k m)⟩

end

end Sys2Proof.Machine
end

section
/-! SUPPORT. LINK_REFERENCE (R46): when the seam of a route fails, and which linking route the check reports. -/

namespace Sys2Proof.Machine

/-! ## The visit that reaches a route's seam -/

/-- The items at the end of a list that satisfy a test: those from the place on where they begin. -/
theorem lastRun_eq_drop {α : Type} {p : α → Bool} {l : List α} {a : Nat} (start : a = 0 ∨ ∃ y, l[a - 1]? = some y ∧ p y = false)
    (inside : ∀ x ∈ l.drop a, p x = true) : (l.reverse.takeWhile p).reverse = l.drop a := by
  have stops : (l.take a).reverse.takeWhile p = [] := by
    cases a with
    | zero => rfl
    | succ b =>
      obtain ⟨y, there, fails⟩ := start.resolve_left (Nat.succ_ne_zero b)
      have last : l.take (b + 1) = l.take b ++ [y] := by
        rw [List.take_add_one]
        exact congrArg _ (congrArg _ there)
      rw [last, List.reverse_append, List.reverse_singleton, List.singleton_append, List.takeWhile_cons_of_neg (by rw [fails]; exact nofun)]
  have divided : l.reverse = (l.drop a).reverse ++ (l.take a).reverse := by
    rw [← List.reverse_append, List.take_append_drop]
  rw [divided, List.takeWhile_append_of_pos fun x m => inside x (List.mem_reverse.1 m), stops, List.append_nil, List.reverse_reverse]

section
variable {s : State} {r : RouteId} {k : CorridorId}

/-- The hops of a corridor that follow a route's last hop. -/
def State.beyondSeam (s : State) (r : RouteId) (k : CorridorId) : List HopRef :=
  (s.followingHops r).takeWhile (fun x => s.hopCorridor x == some k)

/-- The hops of a corridor that a route ends with. -/
def State.beforeSeam (s : State) (r : RouteId) (k : CorridorId) : List HopRef :=
  ((s.hopRange r).reverse.takeWhile (fun x => s.hopCorridor x == some k)).reverse

theorem readCorridor_own (placed : (s.route r).placed) {n : Nat} (own : n < (s.route r).hopCount) :
    s.readCorridor r n = s.hopCorridor (s.ownHop r n) := readCorridor_of_readHop (readHop_own placed n own)

/-- A route's last visit goes on beyond its seam where the hop after the last lies in the corridor too. -/
theorem beyondSeam_isEmpty (placed : (s.route r).placed) :
    (s.beyondSeam r k).isEmpty = false ↔ s.readCorridor r (s.route r).hopCount = some k := by
  have first : ∀ x, (s.followingHops r)[0]? = some x ↔ s.readHop r (s.route r).hopCount = some x := fun x =>
    (getElem?_followingHops placed 0 x).trans (and_iff_right (by omega))
  rw [readCorridor_eq_some]
  simp only [← first]
  unfold State.beyondSeam
  cases s.followingHops r with
  | nil => simp
  | cons x l =>
    rw [List.takeWhile_cons]
    cases here : s.hopCorridor x == some k with
    | true => simpa using here
    | false => simpa using here

/-- The visit check of a seam reads the hops of the last hop's corridor before the seam and beyond it (R46). -/
theorem seamTurns_iff_turnOf (placed : (s.route r).placed) : s.seamTurns r = true ↔
    ∃ k, s.readCorridor r ((s.route r).hopCount - 1) = some k ∧ s.readCorridor r (s.route r).hopCount = some k ∧
      (s.turnOf (s.beforeSeam r k ++ s.beyondSeam r k)).isSome = true := by
  have two := placed.1
  unfold State.seamTurns
  rw [getLast?_hopRange placed, readCorridor_own placed (by omega)]
  dsimp only
  cases s.hopCorridor (s.ownHop r ((s.route r).hopCount - 1)) with
  | none => exact iff_of_false nofun fun ⟨_, e, _⟩ => nomatch e
  | some k =>
    simp only [Option.some.injEq, exists_eq_left', ← beyondSeam_isEmpty placed, Bool.and_eq_true, Bool.not_eq_true']
    rfl

/-- A visit of a route that lasts to its last hop is read on beyond the seam. -/
theorem visitFrom_over_seam (placed : (s.route r).placed) {a : Nat} (begins : s.visitBegins r k a)
    (inside : ∀ n, a ≤ n → n < (s.route r).hopCount → s.readCorridor r n = some k) :
    s.visitFrom r k a = s.beforeSeam r k ++ s.beyondSeam r k := by
  obtain ⟨own, here, before⟩ := begins
  have run : ∀ x ∈ (s.hopRange r).drop a, (s.hopCorridor x == some k) = true := fun x m => by
    obtain ⟨j, at_⟩ := List.mem_iff_getElem?.1 m
    rw [List.getElem?_drop, getElem?_hopRange] at at_
    obtain ⟨lt, rfl⟩ := at_
    rw [← readCorridor_own placed lt, inside _ (Nat.le_add_right a j) lt, beq_self_eq_true]
  have start : a = 0 ∨ ∃ y, (s.hopRange r)[a - 1]? = some y ∧ (s.hopCorridor y == some k) = false :=
    before.imp_right fun out => ⟨s.ownHop r (a - 1), (getElem?_hopRange _ _).2 ⟨by omega, rfl⟩, by
      rwa [beq_eq_false_iff_ne, ← readCorridor_own placed (by omega)]⟩
  have last : s.hopCorridor (s.ownHop r ((s.route r).hopCount - 1)) = some k := by
    rw [← readCorridor_own placed (by omega), inside _ (by omega) (by omega)]
  have reading : s.visitReading r = s.hopRange r ++ s.beyondSeam r k := by
    unfold State.visitReading
    rw [getLast?_hopRange placed]
    simp only [last]
    rfl
  have beyond : ∀ x ∈ s.beyondSeam r k, (s.hopCorridor x == some k) = true := List.all_eq_true.1 List.all_takeWhile
  unfold State.visitFrom
  rw [reading, List.drop_append_of_le_length (by rw [length_hopRange]; omega), List.takeWhile_append_of_pos run,
    ← lastRun_eq_drop start run]
  have kept := List.takeWhile_append_of_pos (l₂ := []) beyond
  rw [List.takeWhile_nil, List.append_nil] at kept
  exact congrArg _ kept

/-- The visit across a route's seam turns where the statements say (R46, LINK_REFERENCE). -/
theorem seamTurns_iff (placed : (s.route r).placed) : s.seamTurns r = true ↔
    ∃ k a m, s.visitBegins r k a ∧ s.turnsAt r k a m ∧ ∀ n, a ≤ n → n ≤ (s.route r).hopCount → s.readCorridor r n = some k := by
  have two := placed.1
  rw [seamTurns_iff_turnOf placed]
  constructor
  · rintro ⟨k, last, goesOn, turns⟩
    obtain ⟨x, turn⟩ := Option.isSome_iff_exists.1 turns
    obtain ⟨a, le, inside, start⟩ := exists_runStart (p := fun n => s.readCorridor r n = some k) last
    have begins : s.visitBegins r k a := ⟨by omega, inside a (Nat.le_refl a) le, start⟩
    rw [← visitFrom_over_seam placed begins fun n an lt => inside n an (by omega)] at turn
    obtain ⟨m, turnsAt, -⟩ := (turnOf_visitFrom placed begins x).1 turn
    refine ⟨k, a, m, begins, turnsAt, fun n an le => ?_⟩
    rcases Nat.eq_or_lt_of_le le with rfl | lt
    · exact goesOn
    · exact inside n an (by omega)
  · rintro ⟨k, a, m, begins, turnsAt, inside⟩
    have own := begins.1
    obtain ⟨x, read, -⟩ := (readCorridor_eq_some m k).1 (turnsAt.2.1 m (Nat.le_of_lt turnsAt.1) (Nat.le_refl m))
    refine ⟨k, inside _ (by omega) (by omega), inside _ (by omega) (Nat.le_refl _), ?_⟩
    rw [← visitFrom_over_seam placed begins fun n an lt => inside n an (by omega), (turnOf_visitFrom placed begins x).2 ⟨m, turnsAt, read⟩]
    rfl

theorem seamFails_iff (placed : (s.route r).placed) : (s.seamRepeats r || s.seamTurns r) = true ↔ s.seamFails r := by
  rw [Bool.or_eq_true, seamRepeats_iff placed, seamTurns_iff placed]
  rfl

end

/-! ## The linking routes (R46) -/

section
variable {s : State} {r : RouteId}

theorem mem_linkersOf (q : RouteId) : q ∈ s.linkersOf r ↔ s.linksTo q r := by
  unfold State.linkersOf State.linksTo allRoutes
  simp [and_assoc]

/-- The lowest of some routes that satisfy a test is reported. -/
theorem failureAt_lowest {kind : CheckKind} {l : List RouteId} {q : RouteId} (mem : q ∈ l) (lowest : ∀ p < q, p ∉ l) :
    failureAt kind (l.map (·.val)) = some ⟨kind, q.val⟩ := by
  refine (failureAt_eq_some ..).2 ⟨rfl, List.mem_map_of_mem mem, fun i m => ?_⟩
  obtain ⟨p, there, rfl⟩ := List.mem_map.1 m
  exact Nat.le_of_not_lt fun lt => lowest p lt there

theorem mem_failingLinkers (placed : ∀ q, (s.route q).placed) (q : RouteId) :
    q ∈ (s.linkersOf r).filter (fun q => s.seamRepeats q || s.seamTurns q) ↔ s.linksTo q r ∧ s.seamFails q := by
  rw [List.mem_filter, mem_linkersOf, seamFails_iff (placed q)]

theorem checkLinkers_of_firstLinker (placed : ∀ q, (s.route q).placed) {q : RouteId} (first : s.firstLinker q r) :
    s.checkLinkers r = some ⟨.linkReference, q.val⟩ := by
  obtain ⟨links, fails, lowest⟩ := first
  refine failureAt_lowest ((mem_failingLinkers placed q).2 ⟨links, fails⟩) fun p lt m => ?_
  obtain ⟨links', fails'⟩ := (mem_failingLinkers placed p).1 m
  exact lowest p lt links' fails'

theorem checkLinkers_of_linkersPass (placed : ∀ q, (s.route q).placed) (pass : s.linkersPass r) : s.checkLinkers r = none := by
  refine (failureAt_eq_none ..).2 fun i m => ?_
  obtain ⟨q, there, -⟩ := List.mem_map.1 m
  obtain ⟨links, fails⟩ := (mem_failingLinkers placed q).1 there
  exact pass q links fails

theorem checkAnyLinker_lowest {q : RouteId} (links : s.linksTo q r) (lowest : ∀ p < q, ¬s.linksTo p r) :
    s.checkAnyLinker r = some ⟨.linkReference, q.val⟩ :=
  failureAt_lowest ((mem_linkersOf q).2 links) fun p lt m => lowest p lt ((mem_linkersOf p).1 m)

theorem checkAnyLinker_none (free : ∀ q, ¬s.linksTo q r) : s.checkAnyLinker r = none := by
  refine (failureAt_eq_none ..).2 fun i m => ?_
  obtain ⟨q, there, -⟩ := List.mem_map.1 m
  exact free q ((mem_linkersOf q).1 there)

end

end Sys2Proof.Machine
end

section
/-! SUPPORT. Write Route (R45, R46) and Write Hops (R47, R48): what each does in each case of its rule, and the checks of each. -/

namespace Sys2Proof.Machine

/-! ## Checks of SERVICE mode -/

/-- What a check reports where SERVICE mode alone makes it (R46, R48). -/
def State.inService (s : State) (check : Option CheckFailure) : Option CheckFailure := if s.mode = .service then check else none

theorem inService_of_service {s : State} (mode : s.mode = .service) (check : Option CheckFailure) : s.inService check = check :=
  if_pos mode

theorem inService_none {s : State} {check : Option CheckFailure} (passed : s.mode = .safe ∨ check = none) :
    s.inService check = none := by
  rcases passed with safe | rfl
  · exact if_neg (by rw [safe]; exact nofun)
  · exact ite_self none

/-! ## Write Route, case by case (R45) -/

section
variable {slot : MgmtSlot} {s : State} {r : RouteId} {x : RouteRecord}

/-- A Write Route that its slot machine takes does what its rule says and answers. -/
theorem exec_writeRoute_eq {t : State} {a : Answer} {w : RouteWrite} (ready : s.ready slot) (h : writeRoute slot w s = (t, a)) :
    exec (.writeRoute slot w) s = .next (t.answered slot 0x0D a.status a.results) := by
  have taken := takeCommand_changing (code := 0x0D) ready (writeRoute slot w)
  rw [h] at taken
  exact congrArg _ taken

theorem writeRoute_out {w : RouteWrite} (out : 128 ≤ w.route.toNat ∨ w.hopCount.toNat < 2 ∨ 256 < w.hopCount.toNat ∨
    2047 < w.firstHop.toNat ∨ 2047 < w.firstHop.toNat + w.hopCount.toNat - 1 ∨ (w.endAction = 2 ∧ 128 ≤ w.linkRoute.toNat)) :
    writeRoute slot w s = (s, .bare .badItem) := by
  unfold writeRoute
  rcases out with route | out
  · rw [routeOf_of_le route]
  · cases routeOf w.route with
    | none => rfl
    | some r =>
      dsimp only
      rw [routeWriteRecord_out w _ out]

theorem writeRoute_used (inRange : x.inRanges) (used : 0 < (s.route r).users) :
    writeRoute slot (routeWriteOf r x) s = (s, .bare .busyItem) := by
  unfold writeRoute
  rw [show routeOf (routeWriteOf r x).route = some r from routeOf_byteOf r]
  dsimp only
  rw [routeWriteRecord_write r x (s.route r) inRange]
  exact if_pos used

/-- A Write Route in range to a route that no carrier uses goes by its checks alone. -/
theorem writeRoute_free (inRange : x.inRanges) (free : (s.route r).users = 0) : writeRoute slot (routeWriteOf r x) s =
    (s.inService (s.writeRouteCheck r (storedRoute (s.route r) x))).elim
      ((s.setRoute r (storedRoute (s.route r) x)).noteTableWrite slot, .ok) (fun f => (s, .check f)) := by
  unfold writeRoute
  rw [show routeOf (routeWriteOf r x).route = some r from routeOf_byteOf r]
  dsimp only
  rw [routeWriteRecord_write r x (s.route r) inRange]
  dsimp only
  rw [if_neg (by omega)]
  unfold State.inService
  split
  · next h => rw [h]; rfl
  · next h => rw [h]; rfl

/-- The note of a table write and the route written do not meet. -/
theorem setRoute_noteTableWrite (slot : MgmtSlot) (s : State) (r : RouteId) (x : RouteRecord) :
    (s.setRoute r x).noteTableWrite slot = (s.noteTableWrite slot).setRoute r x := by
  rw [noteTableWrite_of_machine (s := s) slot fun m => by cases m <;> rfl]
  obtain ⟨a, b, e⟩ := noteTableWrite_only s slot
  rw [e]
  rfl

theorem route_noteTableWrite (slot : MgmtSlot) (s : State) (r : RouteId) : (s.noteTableWrite slot).route r = s.route r := by
  obtain ⟨a, b, e⟩ := noteTableWrite_only s slot
  rw [e]
  rfl

/-! ## The checks of a Write Route (R46) -/

theorem writeRouteCheck_of_defined (defined : x.defined = true) : s.writeRouteCheck r x =
    ((s.setRoute r x).routeCheck r).or (if x.firstHop = (s.route r).firstHop then none else (s.setRoute r x).checkLinkers r) := by
  unfold State.writeRouteCheck firstFailure
  rw [if_pos defined, List.findSome?_cons]
  cases (s.setRoute r x).routeCheck r with
  | some f => rfl
  | none =>
    rw [List.findSome?_cons]
    cases (if x.firstHop = (s.route r).firstHop then none else (s.setRoute r x).checkLinkers r) <;> rfl

theorem writeRouteCheck_of_undefined (undefined : x.defined = false) :
    s.writeRouteCheck r x = (s.setRoute r x).checkAnyLinker r := if_neg (ne_true_of_eq_false undefined)

/-- A record written for a route changes no link of another. -/
theorem linksTo_setRoute (q : RouteId) : (s.setRoute r x).linksTo q r ↔ s.linksTo q r := by
  unfold State.linksTo
  refine and_congr_right fun ne => ?_
  rw [route_setRoute, if_neg ne]

end

/-- Settles O21: the record in place fails its first row of R46, then the lowest failing seam into it where its first hop moves; an undefining write fails by the lowest link. -/
theorem writeRouteFollowsItsTable : Obligations.WriteRouteFollowsItsTable := by
  intro slot s ready
  refine ⟨fun w out => exec_writeRoute_eq ready (writeRoute_out out), fun r x inRange =>
    ⟨fun used => exec_writeRoute_eq ready (writeRoute_used inRange used), fun f free mode failed => ?_, fun free passed => ?_, ?_⟩⟩
  · exact exec_writeRoute_eq (a := .check f) ready
      (by rw [writeRoute_free inRange free, inService_of_service mode, failed]; rfl)
  · refine ⟨(s.noteTableWrite slot).setRoute r (storedRoute (s.route r) x),
      exec_writeRoute_eq (a := .ok) ready (by rw [writeRoute_free inRange free, inService_none passed, ← setRoute_noteTableWrite]; rfl),
      route_setRoute_self .., fun q ne => ?_, rfl⟩
    rw [route_setRoute, if_neg ne, route_noteTableWrite]
  · rintro t rfl
    have placed : ((s.setRoute r x).route r).placed := by
      rw [route_setRoute_self]
      exact ⟨inRange.1, inRange.2.2.1⟩
    refine ⟨routeCheck_eq_some placed, routeCheck_none_iff placed, fun f defined first => ?_, fun defined passes stays => ?_,
      fun defined passes moves all => ?_, fun q undefined links lowest => ?_, fun undefined free => ?_⟩
    · rw [writeRouteCheck_of_defined defined, (routeCheck_eq_some placed f).2 first]
      rfl
    · rw [writeRouteCheck_of_defined defined, (routeCheck_none_iff placed).2 passes, if_pos stays]
      rfl
    · rw [writeRouteCheck_of_defined defined, (routeCheck_none_iff placed).2 passes, if_neg moves, Option.none_or]
      exact ⟨fun q => checkLinkers_of_firstLinker all, checkLinkers_of_linkersPass all⟩
    · rw [writeRouteCheck_of_undefined undefined]
      exact checkAnyLinker_lowest ((linksTo_setRoute q).2 links) fun p lt links' => lowest p lt ((linksTo_setRoute p).1 links')
    · rw [writeRouteCheck_of_undefined undefined]
      exact checkAnyLinker_none fun q links => free q ((linksTo_setRoute q).1 links)

/-! ## Write Hops, case by case (R47) -/

section
variable {slot : MgmtSlot} {s : State} {start : Half} {l : List Hop}

/-- A Write Hops that its slot machine takes does what its rule says and answers. -/
theorem exec_writeHops_eq {t : State} {a : Answer} {hops : List (Byte × Byte)} (ready : s.ready slot)
    (h : writeHops slot start hops s = (t, a)) : exec (.writeHops slot start hops) s = .next (t.answered slot 0x0F a.status a.results) := by
  have taken := takeCommand_changing (code := 0x0F) ready (writeHops slot start hops)
  rw [h] at taken
  exact congrArg _ taken

theorem writeHops_out {hops : List (Byte × Byte)} (out : hops = [] ∨ 12 < hops.length ∨ 2048 < start.toNat + hops.length ∨
    (∃ p ∈ hops, 240 ≤ p.1.toNat ∨ 4 ≤ p.2.toNat)) : writeHops slot start hops s = (s, .bare .badItem) := by
  have beyond : hops.length = 0 ∨ 12 < hops.length ∨ 2047 < start.toNat + hops.length - 1 ∨ hopsOf hops = none := by
    rcases out with rfl | many | far | hop
    · exact .inl rfl
    · exact .inr (.inl many)
    · exact .inr (.inr (.inl (by omega)))
    · exact .inr (.inr (.inr (hopsOf_out hops hop)))
  unfold writeHops
  dsimp only
  split
  · rfl
  · next within =>
    have unread : hopsOf hops = none := by
      rcases beyond with empty | many | far | unread
      · exact absurd (.inl empty) within
      · exact absurd (.inr (.inl many)) within
      · exact absurd (.inr (.inr far)) within
      · exact unread
    rw [unread]

/-- A used route has one of some hops in its range (R47). -/
def State.usedRouteMeets (s : State) (start n : Nat) : Prop := ∃ r, 0 < (s.route r).users ∧ s.rangeMeets r start n

theorem any_usedRoute_iff (s : State) (start n : Nat) :
    allRoutes.any (fun r => (s.route r).defined && 0 < (s.route r).users && (s.route r).overlaps start n) = true ↔
      s.usedRouteMeets start n := by
  unfold State.usedRouteMeets State.rangeMeets RouteRecord.overlaps allRoutes
  simp [and_assoc, and_left_comm]

section
variable (one : 1 ≤ l.length) (twelve : l.length ≤ 12) (within : start.toNat + l.length ≤ 2048)
include one twelve within

theorem writeHops_used (used : s.usedRouteMeets start.toNat l.length) :
    writeHops slot start (l.map hopWriteOf) s = (s, .bare .busyItem) := by
  unfold writeHops
  dsimp only
  rw [List.length_map, if_neg (by omega), hopsOf_write]
  exact if_pos ((any_usedRoute_iff ..).2 used)

/-- A Write Hops in range that meets no used route goes by its checks alone. -/
theorem writeHops_free (free : ¬s.usedRouteMeets start.toNat l.length) : writeHops slot start (l.map hopWriteOf) s =
    (s.inService ((s.writeHopsAt start.toNat l).writeHopsCheck start.toNat l.length)).elim ((s.writeHopsAt start.toNat l).noteTableWrite slot, .ok) (fun f => (s, .check f)) := by
  unfold writeHops
  dsimp only
  rw [List.length_map, if_neg (by omega), hopsOf_write]
  dsimp only
  rw [if_neg fun used => free ((any_usedRoute_iff ..).1 used)]
  unfold State.inService
  split
  · next h => rw [h]; rfl
  · next h => rw [h]; rfl

end

end

/-! ## The checks of a Write Hops (R48) -/

/-- The first of some routes in order for which a search finds something. -/
theorem findSome?_lowest {α : Type} {l : List RouteId} (ordered : l.Pairwise (· < ·)) {g : RouteId → Option α} {r : RouteId} {f : α}
    (mem : r ∈ l) (found : g r = some f) (lowest : ∀ q < r, q ∈ l → g q = none) : l.findSome? g = some f := by
  obtain ⟨before, after, rfl⟩ := List.append_of_mem mem
  refine List.findSome?_eq_some_iff.2 ⟨before, r, after, rfl, found, fun q m => ?_⟩
  exact lowest q ((List.pairwise_append.1 ordered).2.2 q m r List.mem_cons_self) (List.mem_append_left _ m)

section
variable {t : State} {start n : Nat}

/-- The routes that R48 checks, in route order. -/
def State.routesMeeting (t : State) (start n : Nat) : List RouteId :=
  allRoutes.filter (fun r => (t.route r).defined && (t.route r).overlaps start n)

theorem mem_routesMeeting (r : RouteId) : r ∈ t.routesMeeting start n ↔ t.rangeMeets r start n := by
  unfold State.routesMeeting State.rangeMeets RouteRecord.overlaps allRoutes
  simp

theorem routesMeeting_ordered (t : State) (start n : Nat) : (t.routesMeeting start n).Pairwise (· < ·) :=
  (List.pairwise_lt_finRange 128).filter _

theorem writeHopsCheck_eq (t : State) (start n : Nat) : t.writeHopsCheck start n =
    ((t.routesMeeting start n).findSome? t.routeCheck).or ((t.routesMeeting start n).findSome? t.checkLinkers) := by
  unfold State.writeHopsCheck firstFailure
  dsimp only
  rw [List.findSome?_append, List.findSome?_map, List.findSome?_map]
  rfl

variable (placed : ∀ r, (t.route r).placed)
include placed

/-- The first route that fails a row of R46 is reported. -/
theorem writeHopsCheck_row {r : RouteId} {f : CheckFailure} (meets : t.rangeMeets r start n) (first : t.firstRow r f)
    (lowest : ∀ q < r, t.rangeMeets q start n → t.routePasses q) : t.writeHopsCheck start n = some f := by
  have found : (t.routesMeeting start n).findSome? t.routeCheck = some f :=
    findSome?_lowest (routesMeeting_ordered t start n) ((mem_routesMeeting r).2 meets) ((routeCheck_eq_some (placed r) f).2 first)
      fun q lt m => (routeCheck_none_iff (placed q)).2 (lowest q lt ((mem_routesMeeting q).1 m))
  rw [writeHopsCheck_eq, found]
  rfl

/-- Where no route fails a row, the seams into the routes are what is left to check. -/
theorem writeHopsCheck_of_pass (pass : ∀ r, t.rangeMeets r start n → t.routePasses r) :
    t.writeHopsCheck start n = (t.routesMeeting start n).findSome? t.checkLinkers := by
  have rows : (t.routesMeeting start n).findSome? t.routeCheck = none := List.findSome?_eq_none_iff.2 fun q m =>
    (routeCheck_none_iff (placed q)).2 (pass q ((mem_routesMeeting q).1 m))
  rw [writeHopsCheck_eq, rows, Option.none_or]

theorem findSome?_checkLinkers {r q : RouteId} (meets : t.rangeMeets r start n) (first : t.firstLinker q r)
    (lowest : ∀ p < r, t.rangeMeets p start n → t.linkersPass p) :
    (t.routesMeeting start n).findSome? t.checkLinkers = some ⟨.linkReference, q.val⟩ :=
  findSome?_lowest (routesMeeting_ordered t start n) ((mem_routesMeeting r).2 meets) (checkLinkers_of_firstLinker placed first)
    fun p lt m => checkLinkers_of_linkersPass placed (lowest p lt ((mem_routesMeeting p).1 m))

theorem findSome?_checkLinkers_none (pass : ∀ r, t.rangeMeets r start n → t.linkersPass r) :
    (t.routesMeeting start n).findSome? t.checkLinkers = none :=
  List.findSome?_eq_none_iff.2 fun p m => checkLinkers_of_linkersPass placed (pass p ((mem_routesMeeting p).1 m))

end

/-- Settles O22: the hops are written together where none is out of range, no used route has one and no check of R48 fails; the checks find the first failing route, and then the first failing seam. -/
theorem writeHopsWritesAllOrNone : Obligations.WriteHopsWritesAllOrNone := by
  intro slot start s ready
  refine ⟨fun hops out => exec_writeHops_eq ready (writeHops_out out), fun l one twelve within =>
    ⟨fun ⟨r, defined, users, low, high⟩ => exec_writeHops_eq ready (writeHops_used one twelve within ⟨r, users, defined, low, high⟩),
      fun apart => ?_⟩⟩
  have free : ¬s.usedRouteMeets start.toNat l.length := fun ⟨r, users, defined, low, high⟩ =>
    absurd (apart r defined users low) (Nat.not_le_of_lt high)
  obtain ⟨written, only⟩ := hop_writeHopsAt l start.toNat within s
  refine ⟨s.writeHopsAt start.toNat l, written, only, fun f mode failed => ?_, fun passed => ?_, fun placed =>
    ⟨fun r f => writeHopsCheck_row placed, fun pass => ?_⟩⟩
  · exact exec_writeHops_eq (a := .check f) ready
      (by rw [writeHops_free one twelve within free, inService_of_service mode, failed]; rfl)
  · exact exec_writeHops_eq (a := .ok) ready (by rw [writeHops_free one twelve within free, inService_none passed]; rfl)
  · rw [writeHopsCheck_of_pass placed pass]
    exact ⟨fun r q => findSome?_checkLinkers placed, findSome?_checkLinkers_none placed⟩

end Sys2Proof.Machine
end

section
/-! SUPPORT. What resets leave of the carriers (R53, R111). -/

namespace Sys2Proof.Machine

theorem AfterReset.validator_cleared {s t : State} (h : AfterReset s t) (c : CarrierId) : t.validator c = ⟨none, 0, 0⟩ := by
  rcases h with on | keeping
  · rw [on.tables.validator, reset_validator]
  · exact keeping.tables.validator c

/-- Settles O8: each reset leaves the cleared record and the cleared validator in every slot. -/
theorem resetsOfTheCarriers : Obligations.ResetsOfTheCarriers := by
  intro s t c reset
  refine ⟨?_, reset.validator_cleared c⟩
  rw [reset.carrier_cleared, Carrier.cleared, Validated.cleared, Order.hold, FaultRecord.cleared, CarrierFlags.cleared]
  rfl

end Sys2Proof.Machine
end

section
/-! SUPPORT. Carrier commands: how a command that changes the state is taken and answered, and what the engine leaves of a carrier for which no claim passes are made. -/

namespace Sys2Proof.Machine

/-- A command that its slot machine takes does what its rule says and answers (R161). -/
theorem taken_next {slot : MgmtSlot} {code : Byte} {s t : State} {a : Answer} {rule : State → State × Answer} (ready : s.ready slot)
    (h : rule s = (t, a)) : (Host.Outcome.next (takeCommand slot code s (changing rule)) : Host.Outcome State Fault Refusal) =
      .next (t.answered slot code a.status a.results) := by
  rw [takeCommand_changing ready, h]

/-! ## Watches on a carrier (R165) -/

theorem intact_breakFor {w : Watch} {c : CarrierId} (on : (w.breakFor c).carrier = some c) : (w.breakFor c).intact = false := by
  unfold Watch.breakFor at on ⊢
  split
  · rfl
  · next off => rw [if_neg off] at on; exact absurd on off

/-- A carrier that enters a state is watched no more (R165). -/
theorem StateEntered.unwatched {s t : State} {c : CarrierId} {x : CarrierState} (h : StateEntered s t c x) (slot : MgmtSlot)
    (on : (t.watch slot).carrier = some c) : (t.watch slot).intact = false := by
  rw [h.watches] at on ⊢
  exact intact_breakFor on

/-- What the engine does breaks watches and mends none. -/
theorem EngineFrame.stays_unwatched {s t : State} {c : CarrierId} (h : EngineFrame s t) {slot : MgmtSlot}
    (broken : (s.watch slot).carrier = some c → (s.watch slot).intact = false) (on : (t.watch slot).carrier = some c) :
    (t.watch slot).intact = false := by
  rw [h.watched] at on
  cases kept : (t.watch slot).intact with
  | false => rfl
  | true => exact absurd ((h.intact slot kept).symm.trans (broken on)) (by simp)

/-! ## Carriers for which no claim passes are made (R72) -/

theorem parked_of_state {s : State} {c : CarrierId} (idle : (s.carrier c).state ≠ .advancing) (settled : (s.carrier c).state ≠ .waiting) :
    ¬s.active c := fun a => a.elim idle settled

theorem token_enterState (s : State) (c : CarrierId) (x : CarrierState) : (s.enterState c x).pinToken = s.pinToken := rfl

theorem token_detachRoute (s : State) (c : CarrierId) : (s.detachRoute c).pinToken = s.pinToken := by rw [(routeLeft s c).rest]

/-- A parked carrier without the pin token. -/
def State.tokenless (c : CarrierId) (s : State) : Prop := ¬s.active c ∧ s.pinToken ≠ some c

/-- A change of another carrier's that leaves the token. -/
theorem tokenless_of_change {c : CarrierId} {s t : State} (h : s.tokenless c) (kept : ParkedKept s t) (token : t.pinToken = s.pinToken) :
    t.tokenless c := by
  refine ⟨fun a => h.1 ?_, token ▸ h.2⟩
  unfold State.active at a ⊢
  rwa [kept c h.1] at a

/-- No pass, wake or release gives a parked carrier the token (R90). -/
theorem tokenless_closed (c : CarrierId) : ReleaseClosed (State.tokenless c) where
  breakWatch _ h := h
  freeToken h := ⟨h.1, nofun⟩
  takeToken d h a := ⟨h.1, fun e => h.1 (Option.some.inj e ▸ a)⟩
  join d w k h a := tokenless_of_change h ((ParkedKept.closed _).join d w k (.refl _) a) (by simp [token_enterState, token_joinQueue])
  rejoin d w k h a := tokenless_of_change h ((ParkedKept.closed _).rejoin d w k (.refl _) a)
    (by simp [token_joinQueue, token_leaveQueue])
  recordDeadlock _ h := h
  settle d h a := tokenless_of_change h ((ParkedKept.closed _).settle d (.refl _) a) (by simp [token_enterState, token_leaveQueue])
  exhaustAdvancing d h a := tokenless_of_change h ((ParkedKept.closed _).exhaustAdvancing d (.refl _) a)
    (by simp [token_enterState, token_detachRoute])
  exhaustWaiting d h a := tokenless_of_change h ((ParkedKept.closed _).exhaustWaiting d (.refl _) a)
    (by simp [token_enterState, token_detachRoute, token_leaveQueue])
  setCst _ _ h _ := h
  enterHeld d e h a f l := tokenless_of_change h ((ParkedKept.closed _).enterHeld d e (.refl _) a f l) (token_enterHeld ..)
  moveCursorPast d x h a := tokenless_of_change h ((ParkedKept.closed _).moveCursorPast d x (.refl _) a) (by rw [moveCursorPast_only])
  grantPending d h a := tokenless_of_change h ((ParkedKept.closed _).grantPending d (.refl _) a) rfl
  giveUp d z h _ := by
    refine ⟨fun a => h.1 ?_, ?_⟩
    · rw [active_congr] at a
      · exact a
      · rw [carrier_setHolder, state_modCarrier]
        rfl
    · rw [setHolder_only]
      exact h.2

end Sys2Proof.Machine
end

section
/-! SUPPORT. Clear Fault (R67) and Retire Carrier (R68): both release zones of a carrier for which no claim passes are made, take its fault kind and put it in another state. -/

namespace Sys2Proof.Machine

/-! ## Entries of a held list left by releases -/

section
variable {l : List HeldEntry} {zs : List ZoneId}

/-- Releases take no entry of other zones. -/
theorem filter_unlisted_of_none (apart : ∀ e ∈ l, e.zone ∉ zs) : l.filter (fun e => !zs.contains e.zone) = l :=
  List.filter_eq_self.2 fun e m => by simpa using apart e m

/-- Releases of all its zones take all of a list. -/
theorem filter_unlisted_of_all (listed : ∀ e ∈ l, e.zone ∈ zs) : l.filter (fun e => !zs.contains e.zone) = [] :=
  List.filter_eq_nil_iff.2 fun e m => by simpa using listed e m

/-- Releases of the entries before a place leave those from it on. -/
theorem filter_unlisted_take (distinct : (l.map (·.zone)).Nodup) (n : Nat) :
    l.filter (fun e => !((l.take n).map (·.zone)).contains e.zone) = l.drop n := by
  have split := List.take_append_drop n l
  rw [← split, List.map_append] at distinct
  have apart := (List.nodup_append.1 distinct).2.2
  generalize l.take n = before at *
  rw [← split, List.filter_append, filter_unlisted_of_all fun e m => List.mem_map_of_mem m, List.nil_append, split]
  exact filter_unlisted_of_none fun e m listed => apart _ listed _ (List.mem_map_of_mem m) rfl

end

/-! ## Released zones, and a new state -/

section
variable {s : State} {c : CarrierId}

/-- What Clear Fault and Retire Carrier have in common: zones are released, the fault kind goes, and the carrier enters a state (R67, R68). -/
def State.relieve (s : State) (c : CarrierId) (zs : List ZoneId) (x : CarrierState) : State :=
  ((s.releaseAll c zs).modCarrier c (fun r => { r with fault := none })).enterState c x

theorem retire_eq_relieve (s : State) (c : CarrierId) : s.retire c = s.relieve c ((s.carrier c).held.map (·.zone)) .vacant := rfl

theorem clearFaultOf_eq_relieve {r : ZoneId} (rear : s.rear c = some r) :
    s.clearFaultOf c = s.relieve c (((s.carrier c).held.take (heldIndex (s.carrier c).held r)).map (·.zone)) .idle := by
  unfold State.clearFaultOf State.zonesBehind
  rw [rear]
  rfl

theorem carrier_relieve (parked : ¬s.active c) (zs : List ZoneId) (x : CarrierState) : (s.relieve c zs x).carrier c = { s.carrier c with
    state := x, held := (s.carrier c).held.filter (fun e => !zs.contains e.zone), fault := none
    flags := { (s.carrier c).flags with state := true } } := by
  rw [State.relieve, (stateEntered _ c x).carrier, carrier_modCarrier_self, releaseAll_parked parked]

/-- A frame stays one where a carrier's fault kind goes before and after. -/
theorem EngineFrame.withoutFault {t : State} (h : EngineFrame s t) (c : CarrierId) :
    EngineFrame (s.modCarrier c (fun r => { r with fault := none })) (t.modCarrier c (fun r => { r with fault := none })) :=
  { h with
    carriers := fun d => by
      rw [carrier_modCarrier, carrier_modCarrier]
      split
      · exact { h.carriers c with fault := rfl }
      · exact h.carriers d }

theorem relieve_frame (s : State) (c : CarrierId) (zs : List ZoneId) (x : CarrierState) :
    EngineFrame (s.modCarrier c (fun r => { r with fault := none })) (s.relieve c zs x) :=
  ((EngineFrame.releaseAll s c zs).withoutFault c).trans (.enterState ..)

/-! ## Clear Fault, case by case (R67) -/

theorem clearable_iff (s : State) (c : CarrierId) : s.clearable c = true ↔
    (s.carrier c).report.present = true ∧ (s.carrier c).report.report.code = 0 ∧
      ∃ f r, s.front c = some f ∧ s.rear c = some r ∧ s.holds c f = true ∧ s.holds c r = true ∧
        heldIndex (s.carrier c).held r ≤ heldIndex (s.carrier c).held f := by
  unfold State.clearable State.front State.rear
  simp only [Bool.and_eq_true, beq_iff_eq, and_assoc]
  refine and_congr_right fun _ => and_congr_right fun _ => ?_
  split
  · next f r front rear => simp [front, rear, and_assoc]
  · next no =>
    refine ⟨nofun, ?_⟩
    rintro ⟨f, r, front, rear, -⟩
    exact (no f r front rear).elim

theorem clearFault_out {b : Byte} (out : 48 ≤ b.toNat) : clearFault b s = (s, .bare .badItem) := by
  unfold clearFault
  rw [carrierOf_of_le out]

theorem clearFault_of_not_faulted (other : (s.carrier c).state ≠ .faulted) :
    clearFault (byteOf c.val) s = (s, .bare .wrongState) := by
  unfold clearFault
  rw [carrierOf_byteOf]
  exact if_pos other

theorem clearFault_of_faulted (faulted : (s.carrier c).state = .faulted) : clearFault (byteOf c.val) s =
    if s.clearable c = true then (s.clearFaultOf c, .ok) else (s, .bare .reportMismatch) := by
  unfold clearFault
  rw [carrierOf_byteOf]
  dsimp only
  rw [if_neg (not_not_intro faulted)]
  cases s.clearable c <;> rfl

/-! ## Retire Carrier, case by case (R68) -/

theorem retireCarrier_out {b : Byte} (out : 48 ≤ b.toNat) : retireCarrier b s = (s, .bare .badItem) := by
  unfold retireCarrier
  rw [carrierOf_of_le out]

theorem retireCarrier_of_other (notIdle : (s.carrier c).state ≠ .idle) (notFaulted : (s.carrier c).state ≠ .faulted) :
    retireCarrier (byteOf c.val) s = (s, .bare .wrongState) := by
  unfold retireCarrier
  rw [carrierOf_byteOf]
  cases e : (s.carrier c).state with
  | vacant => simp only [e]
  | advancing => simp only [e]
  | waiting => simp only [e]
  | idle => exact absurd e notIdle
  | faulted => exact absurd e notFaulted

theorem retireCarrier_accepted (stands : (s.carrier c).state = .idle ∨ (s.carrier c).state = .faulted) (route : (s.carrier c).route = none) :
    retireCarrier (byteOf c.val) s = (s.retire c, .ok) := by
  unfold retireCarrier
  rw [carrierOf_byteOf]
  rcases stands with e | e <;> simp [e, route]

end

/-- Settles O28: both commands go by the carrier's state and report; an accepted one is `State.relieve`, of the entries before the rear zone's or of all. -/
theorem faultsAreClearedAndCarriersRetired : Obligations.FaultsAreClearedAndCarriersRetired := by
  intro slot s ready
  refine ⟨fun b out => taken_next ready (clearFault_out out), fun b out => taken_next ready (retireCarrier_out out), fun c =>
    ⟨fun other => taken_next ready (clearFault_of_not_faulted other), fun faulted mismatch => ?_,
      fun f r faulted present code front rear heldFront heldRear order => ?_,
      fun notIdle notFaulted => taken_next ready (retireCarrier_of_other notIdle notFaulted), fun stands route => ?_⟩⟩
  · refine taken_next (a := .bare .reportMismatch) ready ?_
    rw [clearFault_of_faulted faulted, if_neg fun clearable => mismatch ((clearable_iff s c).1 clearable)]
  · have parked : ¬s.active c := parked_of_state (by simp [faulted]) (by simp [faulted])
    have accepted : clearFault (byteOf c.val) s = (s.clearFaultOf c, .ok) := by
      rw [clearFault_of_faulted faulted,
        if_pos ((clearable_iff s c).2 ⟨present, code, f, r, front, rear, heldFront, heldRear, order⟩)]
    obtain ⟨u, released, entered⟩ := clearFaultOf_steps rear
    have relieved := clearFaultOf_eq_relieve rear
    have record := relieved ▸ carrier_relieve parked _ _
    exact ⟨s.clearFaultOf c, taken_next ready accepted, by rw [record], by rw [record], by rw [record],
      fun distinct => by rw [record]; exact filter_unlisted_take distinct _, entered.unwatched, relieved ▸ relieve_frame .., u, released, entered⟩
  · have parked : ¬s.active c := by rcases stands with e | e <;> exact parked_of_state (by simp [e]) (by simp [e])
    obtain ⟨u, released, entered⟩ := retire_steps s c
    refine ⟨s.retire c, taken_next ready (retireCarrier_accepted stands route), ?_, entered.unwatched, relieve_frame .., u, released, entered⟩
    rw [retire_eq_relieve, carrier_relieve parked, filter_unlisted_of_all fun e m => List.mem_map_of_mem m]

end Sys2Proof.Machine
end

section
/-! SUPPORT. Admit Carrier (R58, R59): its refusals, and what the zones admitted write of zones, corridors and outputs. -/

namespace Sys2Proof.Machine

/-! ## Refusals (R58) -/

section
variable {s : State} {c : CarrierId} {f r z : ZoneId}

theorem reportsAt_iff (s : State) (c : CarrierId) (f r : ZoneId) : s.reportsAt c f r = true ↔
    (s.carrier c).report.present = true ∧ s.front c = some f ∧ s.rear c = some r ∧ (s.carrier c).report.report.code = 0 := by
  unfold State.reportsAt State.front State.rear
  simp only [Bool.and_eq_true, beq_iff_eq, and_assoc]

theorem occupied_iff (s : State) (z : ZoneId) :
    s.occupied z = true ↔ s.holder z ≠ none ∨ ∃ w, s.holder w ≠ none ∧ z ∈ (s.zone w).conflicts := by
  unfold State.occupied allZones
  simp [Option.isSome_iff_ne_none]

theorem admitRefusal_of_not_vacant (other : (s.carrier c).state ≠ .vacant) : s.admitRefusal c f r = some .wrongState :=
  if_pos other

section
variable (vacant : (s.carrier c).state = .vacant)
include vacant

theorem admitRefusal_of_not_reported (unreported : ¬s.reportsAt c f r = true) : s.admitRefusal c f r = some .reportMismatch := by
  simp [State.admitRefusal, vacant, unreported]

variable (reported : s.reportsAt c f r = true)
include reported

theorem admitRefusal_of_undefined (undefined : (s.zone f).defined = false ∨ (s.zone r).defined = false) :
    s.admitRefusal c f r = some .badItem := by
  simp [State.admitRefusal, vacant, reported, undefined]

variable (defined : ¬((s.zone f).defined = false ∨ (s.zone r).defined = false))
include defined

theorem admitRefusal_of_occupied (taken : s.occupied f = true ∨ s.occupied r = true) : s.admitRefusal c f r = some .occupied := by
  simp [State.admitRefusal, vacant, reported, defined, taken]

variable (free : ¬(s.occupied f = true ∨ s.occupied r = true))
include free

theorem admitRefusal_of_held (held : s.districtActive = true ∨ s.sectorActive (s.zone f).sector = true ∨ s.sectorActive (s.zone r).sector = true) :
    s.admitRefusal c f r = some .held := by
  simp [State.admitRefusal, vacant, reported, defined, free, or_assoc, held]

theorem admitRefusal_none (lifted : ¬(s.districtActive = true ∨ s.sectorActive (s.zone f).sector = true ∨ s.sectorActive (s.zone r).sector = true)) :
    s.admitRefusal c f r = none := by
  simp [State.admitRefusal, vacant, reported, defined, free, or_assoc, lifted]

end

theorem admitCarrier_out {a b d : Byte} (out : 48 ≤ a.toNat ∨ 240 ≤ b.toNat ∨ 240 ≤ d.toNat) :
    admitCarrier a b d s = (s, .bare .badItem) := by
  unfold admitCarrier
  split
  · next readCarrier readFront readRear =>
    rcases out with carrier | front | rear
    · rw [carrierOf_of_le carrier] at readCarrier
      cases readCarrier
    · rw [zoneOf_of_le front] at readFront
      cases readFront
    · rw [zoneOf_of_le rear] at readRear
      cases readRear
  · rfl

theorem admitCarrier_refused {x : Status} (refused : s.admitRefusal c f r = some x) :
    admitCarrier (byteOf c.val) (byteOf f.val) (byteOf r.val) s = (s, .bare x) := by
  simp only [admitCarrier, carrierOf_byteOf, zoneOf_byteOf, refused]

theorem admitCarrier_accepted (accepted : s.admitRefusal c f r = none) :
    admitCarrier (byteOf c.val) (byteOf f.val) (byteOf r.val) s = (s.enrol c f r, .ok) := by
  simp only [admitCarrier, carrierOf_byteOf, zoneOf_byteOf, accepted]

end

/-! ## An UNDIRECTED entry (R28) -/

section
variable {x : CorridorState} {c : CarrierId}

theorem occupant_none_iff (x : CorridorState) (c : CarrierId) : x.occupant c = none ↔ ∀ o ∈ x.occupants, o.slot ≠ c := by
  unfold CorridorState.occupant
  simp

theorem joinUndirected_of_absent (absent : ∀ o ∈ x.occupants, o.slot ≠ c) : x.joinUndirected c =
    { x with occupants := x.occupants ++ [⟨c, none⟩], flow := if x.flow = .free then .flowing else x.flow } := by
  unfold CorridorState.joinUndirected
  rw [(occupant_none_iff x c).2 absent]

theorem joinUndirected_of_occupant (present : ∃ o ∈ x.occupants, o.slot = c) : x.joinUndirected c = x := by
  unfold CorridorState.joinUndirected
  cases e : x.occupant c with
  | some o => rfl
  | none =>
    obtain ⟨o, m, slot⟩ := present
    exact absurd slot ((occupant_none_iff x c).1 e o m)

/-- A carrier joins a corridor once. -/
theorem joinUndirected_twice (x : CorridorState) (c : CarrierId) : (x.joinUndirected c).joinUndirected c = x.joinUndirected c :=
  joinUndirected_of_occupant ((occ_joinUndirected x c c).2 (.inl rfl))

end

/-! ## Zones admitted (R59) -/

section
variable {s t u : State} {c : CarrierId}

/-- Zones come to a carrier without a claim: their holders and blocked flags, an UNDIRECTED entry in their corridors, and request outputs; nothing else changes (R59, R28, R7, R10). -/
structure ZonesAdmitted (s t : State) (c : CarrierId) (zs : List ZoneId) : Prop where
  zone : ∀ z, t.zst z = if z ∈ zs
    then { s.zst z with holder := some c, blocked := (s.zst z).field == .unclear && !s.standsIn c z } else s.zst z
  corridor : ∀ k, t.cst k = if ∃ z ∈ zs, s.corridorOfZone z = some k then (s.cst k).joinUndirected c else s.cst k
  inputs : ∀ x, (t.fieldSlot x).inputs = (s.fieldSlot x).inputs
  rest : t = { s with zoneStates := t.zoneStates, corridorStates := t.corridorStates, fieldSlots := t.fieldSlots }

theorem ZonesAdmitted.refl (s : State) (c : CarrierId) : ZonesAdmitted s s c [] where
  zone z := by simp
  corridor k := by simp
  inputs _ := rfl
  rest := rfl

theorem zonesAdmitted_admitZone (s : State) (c : CarrierId) (z : ZoneId) : ZonesAdmitted s (s.admitZone c z) c [z] where
  zone w := by
    rw [State.admitZone, joinZoneCorridor_only]
    refine (zst_setHolder s z w (some c)).trans ?_
    by_cases e : w = z
    · subst e
      simp [State.blockedValue, State.holder, State.standsIn, State.front, State.rear]
    · simp [e]
  corridor k := by
    have cst : (s.setHolder z (some c)).cst k = s.cst k := by rw [setHolder_only]; rfl
    unfold State.admitZone State.joinZoneCorridor
    rw [corridorOfZone_setHolder]
    cases e : s.corridorOfZone z with
    | none => simp [cst, e]
    | some j =>
      rw [cst_setCst]
      by_cases same : k = j
      · subst same
        simp [cst, e]
      · simp [cst, e, same, Ne.symm same]
  inputs x := by
    rw [State.admitZone, joinZoneCorridor_only]
    exact (EngineFrame.setHolder s z (some c)).inputs x
  rest := by
    rw [State.admitZone, joinZoneCorridor_only, setHolder_only]

/-- Zones admitted one after the other come to their carrier together. -/
theorem ZonesAdmitted.cons {z : ZoneId} {zs : List ZoneId} (first : ZonesAdmitted s t c [z]) (more : ZonesAdmitted t u c zs) :
    ZonesAdmitted s u c (z :: zs) := by
  have stands : ∀ w, t.standsIn c w = s.standsIn c w := fun w => by rw [first.rest]; rfl
  have lies : ∀ w, t.corridorOfZone w = s.corridorOfZone w := fun w => by rw [first.rest]; rfl
  refine ⟨fun w => ?_, fun k => ?_, fun x => (more.inputs x).trans (first.inputs x), ?_⟩
  · rw [more.zone, first.zone, stands]
    by_cases here : w = z <;> by_cases later : w ∈ zs <;> simp [here, later]
  · rw [more.corridor, first.corridor]
    simp only [lies, List.mem_cons, List.not_mem_nil, or_false, or_and_right, exists_or, exists_eq_left]
    by_cases here : s.corridorOfZone z = some k <;> by_cases later : ∃ w ∈ zs, s.corridorOfZone w = some k <;>
      simp only [here, later, if_true, if_false, true_or, or_true, or_self, joinUndirected_twice]
  · rw [more.rest, first.rest]

theorem zonesAdmitted_all (c : CarrierId) (l : List HeldEntry) (s : State) :
    ZonesAdmitted s (l.foldl (fun t e => t.admitZone c e.zone) s) c (l.map (·.zone)) := by
  induction l generalizing s with
  | nil => exact .refl s c
  | cons e l ih => exact (zonesAdmitted_admitZone s c e.zone).cons (ih _)

end

/-! ## An accepted Admit Carrier (R59) -/

section
variable {s : State} {c : CarrierId} {f r : ZoneId}

/-- The held list of a carrier admitted in a front and a rear zone (R59). -/
def admittedHeld (f r : ZoneId) : List HeldEntry :=
  if f = r then [⟨f, .granted, none⟩] else [⟨r, .granted, none⟩, ⟨f, .granted, none⟩]

theorem mem_admittedHeld (f r z : ZoneId) : z ∈ (admittedHeld f r).map (·.zone) ↔ z = f ∨ z = r := by
  unfold admittedHeld
  split
  · next e => simp [e]
  · simp [or_comm]

/-- The carrier's record at its admission, and then its zones. -/
theorem enrol_eq (s : State) (c : CarrierId) (f r : ZoneId) : ∃ u : State,
    ZonesAdmitted (s.modCarrier c (fun x => x.admitted (admittedHeld f r))) u c ((admittedHeld f r).map (·.zone)) ∧
    s.enrol c f r = ((u.setValidator c { u.validator c with instability := 0, silence := 0 }).flagState c).breakWatch c :=
  ⟨_, zonesAdmitted_all .., rfl⟩

theorem enrol_only (s : State) (c : CarrierId) (f r : ZoneId) : s.enrol c f r = { s with
    zoneStates := (s.enrol c f r).zoneStates, corridorStates := (s.enrol c f r).corridorStates, carriers := (s.enrol c f r).carriers
    validators := (s.enrol c f r).validators, fieldSlots := (s.enrol c f r).fieldSlots
    operatorSlot := (s.enrol c f r).operatorSlot, safetySlot := (s.enrol c f r).safetySlot } := by
  obtain ⟨u, admitted, e⟩ := enrol_eq s c f r
  rw [e, admitted.rest]
  rfl

theorem carrier_enrol (s : State) (c d : CarrierId) (f r : ZoneId) : (s.enrol c f r).carrier d = if d = c
    then { (s.carrier c).admitted (admittedHeld f r) with flags := { (s.carrier c).flags with state := true } } else s.carrier d := by
  obtain ⟨u, admitted, e⟩ := enrol_eq s c f r
  have carrier : ∀ d, u.carrier d = (s.modCarrier c (fun x => x.admitted (admittedHeld f r))).carrier d := fun d => by
    rw [admitted.rest]; rfl
  rw [e]
  simp only [breakWatch_accessors, State.flagState, carrier_modCarrier, setValidator_accessors, carrier, if_true]
  split <;> rfl

theorem validator_enrol (s : State) (c d : CarrierId) (f r : ZoneId) : (s.enrol c f r).validator d =
    if d = c then { s.validator c with instability := 0, silence := 0 } else s.validator d := by
  obtain ⟨u, admitted, e⟩ := enrol_eq s c f r
  have validator : ∀ d, u.validator d = s.validator d := fun d => by rw [admitted.rest]; rfl
  rw [e]
  simp only [breakWatch_accessors, flagState_accessors, validator_setValidator, validator]

theorem zst_enrol (s : State) (c : CarrierId) (f r z : ZoneId) : (s.enrol c f r).zst z = if z = f ∨ z = r
    then { s.zst z with holder := some c, blocked := (s.zst z).field == .unclear && !s.standsIn c z } else s.zst z := by
  obtain ⟨u, admitted, e⟩ := enrol_eq s c f r
  have stands : (s.modCarrier c (fun x => x.admitted (admittedHeld f r))).standsIn c z = s.standsIn c z := by
    simp [State.standsIn, State.front, State.rear, Carrier.admitted]
  have zone := admitted.zone z
  simp only [mem_admittedHeld, stands] at zone
  rw [e]
  exact zone

theorem cst_enrol (s : State) (c : CarrierId) (f r : ZoneId) (k : CorridorId) : (s.enrol c f r).cst k =
    if ∃ z, (z = f ∨ z = r) ∧ s.corridorOfZone z = some k then (s.cst k).joinUndirected c else s.cst k := by
  obtain ⟨u, admitted, e⟩ := enrol_eq s c f r
  have corridor := admitted.corridor k
  simp only [mem_admittedHeld] at corridor
  rw [e]
  exact corridor

theorem inputs_enrol (s : State) (c : CarrierId) (f r : ZoneId) (x : FieldSlotId) :
    ((s.enrol c f r).fieldSlot x).inputs = (s.fieldSlot x).inputs := by
  obtain ⟨u, admitted, e⟩ := enrol_eq s c f r
  rw [e]
  exact admitted.inputs x

theorem mgmt_enrol (s : State) (c : CarrierId) (f r : ZoneId) (slot : MgmtSlot) :
    (s.enrol c f r).mgmt slot = { s.mgmt slot with watch := (s.watch slot).breakFor c } := by
  obtain ⟨u, admitted, e⟩ := enrol_eq s c f r
  rw [e, admitted.rest]
  cases slot <;> rfl

/-- A carrier stands in the zones that it reports, which keeps them from being blocked (R10). -/
theorem unblocked_enrol {z : ZoneId} (stands : s.standsIn c z = true) (given : z = f ∨ z = r) :
    ((s.enrol c f r).zst z).blocked = false := by
  rw [zst_enrol, if_pos given, stands]
  exact Bool.and_false _

end

/-- Settles O24: the refusals are those of the table in its order, and an accepted command is `State.enrol`, whose parts are read off one by one. -/
theorem admitCarrierFollowsItsTable : Obligations.AdmitCarrierFollowsItsTable := by
  intro slot s ready
  refine ⟨fun a b d out => taken_next ready (admitCarrier_out out), fun c f r o run => ?_⟩
  subst run
  simp only [← reportsAt_iff, ← occupied_iff]
  have refuse {x : Status} (refused : s.admitRefusal c f r = some x) :
      exec (.admitCarrier slot (byteOf c.val) (byteOf f.val) (byteOf r.val)) s = .next (s.answered slot 0x10 x []) :=
    taken_next (a := .bare x) ready (admitCarrier_refused refused)
  split
  · next other => exact refuse (admitRefusal_of_not_vacant other)
  next vacant =>
  have vacant := Classical.not_not.1 vacant
  split
  · next unreported => exact refuse (admitRefusal_of_not_reported vacant unreported)
  next reported =>
  have reported := Classical.not_not.1 reported
  split
  · next undefined => exact refuse (admitRefusal_of_undefined vacant reported undefined)
  next defined =>
  split
  · next taken => exact refuse (admitRefusal_of_occupied vacant reported defined taken)
  next free =>
  split
  · next held => exact refuse (admitRefusal_of_held vacant reported defined free held)
  next lifted =>
  have accepted := admitRefusal_none vacant reported defined free lifted
  obtain ⟨-, front, rear, -⟩ := (reportsAt_iff ..).1 reported
  refine ⟨s.enrol c f r, taken_next ready (admitCarrier_accepted accepted), ?_, fun d other => ?_, fun z => ?_, fun z => ?_,
    inputs_enrol s c f r, unblocked_enrol ((standsIn_iff ..).2 (.inl front)) (.inl rfl),
    unblocked_enrol ((standsIn_iff ..).2 (.inr rear)) (.inr rfl), fun k there absent => ?_, fun k present => ?_, fun k notFront notRear => ?_,
    ?_, fun d other => ?_, fun w => ?_, fun w => ?_, enrol_only s c f r⟩
  · rw [carrier_enrol, if_pos rfl]
    rfl
  · rw [carrier_enrol, if_neg other]
  · rw [State.holder, zst_enrol]
    split <;> rfl
  · rw [zst_enrol]
    split <;> exact ⟨rfl, rfl⟩
  · rw [cst_enrol, if_pos there, joinUndirected_of_absent absent]
  · rw [cst_enrol, joinUndirected_of_occupant present, ite_self]
  · rw [cst_enrol, if_neg]
    rintro ⟨z, rfl | rfl, lies⟩
    · exact notFront lies
    · exact notRear lies
  · rw [validator_enrol, if_pos rfl]
  · rw [validator_enrol, if_neg other]
  · rw [State.watch, mgmt_enrol]
  · rw [State.machine, mgmt_enrol, State.machine]

end Sys2Proof.Machine
end

section
/-! SUPPORT. Cancel Route (R62, R63): its steps, what they leave of the carrier's record, and the place at which its trim cuts the held list. -/

namespace Sys2Proof.Machine

/-! ## Refusals (R62) -/

section
variable {s : State} {c : CarrierId}

theorem cancelRoute_out {b : Byte} (out : 48 ≤ b.toNat) : cancelRoute b s = (s, .bare .badItem) := by
  unfold cancelRoute
  rw [carrierOf_of_le out]

theorem cancelRoute_refused (refused : (s.carrier c).state = .vacant ∨ (s.carrier c).state = .faulted) :
    cancelRoute (byteOf c.val) s = (s, .bare .wrongState) := by
  unfold cancelRoute
  rw [carrierOf_byteOf]
  rcases refused with e | e <;> simp only [e]

theorem cancelRoute_accepted (notVacant : (s.carrier c).state ≠ .vacant) (notFaulted : (s.carrier c).state ≠ .faulted) :
    cancelRoute (byteOf c.val) s = (s.cancel c, .ok) := by
  unfold cancelRoute
  rw [carrierOf_byteOf]
  cases e : (s.carrier c).state with
  | vacant => exact absurd e notVacant
  | faulted => exact absurd e notFaulted
  | idle => simp only [e]
  | advancing => simp only [e]
  | waiting => simp only [e]

end

/-! ## The token holder's claim left (R93) -/

/-- Where each zone has one entry, an entry is known by its zone. -/
theorem eq_of_zone_eq {l : List HeldEntry} (distinct : (l.map (·.zone)).Nodup) {x y : HeldEntry} (mx : x ∈ l) (my : y ∈ l)
    (zone : x.zone = y.zone) : x = y := by
  induction l with
  | nil => cases mx
  | cons e l ih =>
    obtain ⟨first, rest⟩ := List.nodup_cons.1 distinct
    rcases List.mem_cons.1 mx with rfl | lx <;> rcases List.mem_cons.1 my with rfl | ly
    · rfl
    · exact (first (List.mem_map.2 ⟨y, ly, zone.symm⟩)).elim
    · exact (first (List.mem_map.2 ⟨x, lx, zone⟩)).elim
    · exact ih rest lx ly

section
variable {s : State} {c : CarrierId}

theorem token_leaveClaim (s : State) (c : CarrierId) : (s.leaveClaim c).pinToken ≠ some c := by
  unfold State.leaveClaim
  split
  · exact nofun
  · assumption

theorem carrier_leaveClaim (parked : ¬s.active c) :
    (s.leaveClaim c).carrier c = { s.carrier c with held := ((s.leaveClaim c).carrier c).held } := by
  unfold State.leaveClaim
  split
  · rw [carrier_withToken, releaseAll_parked parked]
  · rfl

/-- With one entry for each zone, the PENDING entries of a token holder go and no others. -/
theorem held_leaveClaim (parked : ¬s.active c) (distinct : ((s.carrier c).held.map (·.zone)).Nodup) :
    ((s.leaveClaim c).carrier c).held = (s.carrier c).held.filter (fun e => decide (s.pinToken ≠ some c) || e.status == .granted) := by
  unfold State.leaveClaim
  split
  · next holder =>
    rw [carrier_withToken, releaseAll_parked parked]
    refine List.filter_congr fun e m => ?_
    have released : e.zone ∈ (((s.carrier c).held.filter (fun e => e.status == .pending)).reverse.map (·.zone)) ↔ e.status = .pending := by
      refine ⟨fun listed => ?_, fun pending => List.mem_map_of_mem (List.mem_reverse.2 (List.mem_filter.2 ⟨m, by simp [pending]⟩))⟩
      obtain ⟨x, there, zone⟩ := List.mem_map.1 listed
      obtain ⟨mx, pending⟩ := List.mem_filter.1 (List.mem_reverse.1 there)
      rw [← eq_of_zone_eq distinct mx m zone]
      exact beq_iff_eq.1 pending
    simp only [List.contains_eq_mem, released]
    have statuses : e.status = .pending ∨ e.status = .granted := by cases e.status <;> simp
    rcases statuses with status | status <;> simp [status, holder]
  · next other => exact (List.filter_eq_self.2 fun e m => by simp [other]).symm

end

/-! ## The steps of a Cancel Route (R62) -/

/-- The steps that lead up to the trim, in the order of R62: the queue left, IDLE, the claim left, the route left. -/
structure CancelSteps (s a b d e : State) (c : CarrierId) : Prop where
  dequeued : (s.carrier c).state = .waiting → Dequeued s a c
  unqueued : (s.carrier c).state ≠ .waiting → a = s
  stays : (s.carrier c).state = .idle → b = a
  parks : (s.carrier c).state ≠ .idle → StateEntered a b c .idle
  claim : d = b.leaveClaim c
  routeless : (s.carrier c).route = none → e = d
  left : (s.carrier c).route ≠ none → ∃ x, RouteLeft d x c ∧ e = x.undirect c

/-- A carrier record after a Cancel Route that leaves it a held list (R62). -/
def Carrier.cancelled (r : Carrier) (held : List HeldEntry) : Carrier :=
  { r with
    state := .idle, held := held, route := none
    cursor := if r.route = none then r.cursor else .none
    laps := if r.route = none then r.laps else 0
    wait := if r.state = .waiting then .none else r.wait
    waitAge := if r.state = .waiting then 0 else r.waitAge
    flags := { r.flags with state := r.flags.state || decide (r.state ≠ .idle) } }

section
variable {s a b d e : State} {c : CarrierId}

/-- The carrier after the second step: IDLE and out of its queue. -/
theorem CancelSteps.carrier_parked (h : CancelSteps s a b d e c) : b.carrier c = { s.carrier c with
    state := .idle
    wait := if (s.carrier c).state = .waiting then .none else (s.carrier c).wait
    waitAge := if (s.carrier c).state = .waiting then 0 else (s.carrier c).waitAge
    flags := { (s.carrier c).flags with state := (s.carrier c).flags.state || decide ((s.carrier c).state ≠ .idle) } } := by
  by_cases idle : (s.carrier c).state = .idle
  · rw [h.stays idle, h.unqueued (by simp [idle])]
    have same : s.carrier c = { s.carrier c with state := .idle } := by rw [← idle]
    refine same.trans ?_
    simp [idle]
  · rw [(h.parks idle).carrier]
    by_cases waiting : (s.carrier c).state = .waiting
    · simp [(h.dequeued waiting).carrier, waiting]
    · simp [h.unqueued waiting, waiting, idle]

theorem CancelSteps.parked (h : CancelSteps s a b d e c) : ¬b.active c :=
  parked_of_state (by rw [h.carrier_parked]; exact nofun) (by rw [h.carrier_parked]; exact nofun)

/-- The carrier before the trim. -/
theorem CancelSteps.carrier (h : CancelSteps s a b d e c) : e.carrier c = (s.carrier c).cancelled (d.carrier c).held := by
  have claim : d.carrier c = { b.carrier c with held := (d.carrier c).held } := h.claim ▸ carrier_leaveClaim h.parked
  rw [h.carrier_parked] at claim
  by_cases route : (s.carrier c).route = none
  · rw [h.routeless route, claim]
    simp [Carrier.cancelled, route]
  · obtain ⟨x, left, undirected⟩ := h.left route
    have parked : ¬x.active c := parked_of_state (by rw [left.carrier, claim]; exact nofun) (by rw [left.carrier, claim]; exact nofun)
    rw [undirected, (ParkedKept.closed x).undirect c (.refl x) c parked, left.carrier, claim]
    simp [Carrier.cancelled, route]

theorem CancelSteps.tokenless (h : CancelSteps s a b d e c) : e.tokenless c := by
  have token : d.pinToken ≠ some c := h.claim ▸ token_leaveClaim b c
  refine ⟨parked_of_state (by rw [h.carrier]; exact nofun) (by rw [h.carrier]; exact nofun), ?_⟩
  by_cases route : (s.carrier c).route = none
  · rwa [h.routeless route]
  · obtain ⟨x, left, undirected⟩ := h.left route
    have claim : d.carrier c = { b.carrier c with held := (d.carrier c).held } := h.claim ▸ carrier_leaveClaim h.parked
    rw [h.carrier_parked] at claim
    have start : x.tokenless c := ⟨parked_of_state (by rw [left.carrier, claim]; exact nofun) (by rw [left.carrier, claim]; exact nofun),
      by rw [left.rest]; exact token⟩
    rw [undirected]
    exact ((tokenless_closed c).toEngineClosed.undirect c start).2

theorem CancelSteps.held (h : CancelSteps s a b d e c) (distinct : ((s.carrier c).held.map (·.zone)).Nodup) :
    (e.carrier c).held = (s.carrier c).held.filter (fun x => decide (s.pinToken ≠ some c) || x.status == .granted) := by
  have token : b.pinToken = s.pinToken := by
    have first : a.pinToken = s.pinToken := by
      by_cases waiting : (s.carrier c).state = .waiting
      · rw [(h.dequeued waiting).rest]
      · rw [h.unqueued waiting]
    by_cases idle : (s.carrier c).state = .idle
    · rw [h.stays idle, first]
    · rw [(h.parks idle).rest, first]
  have list : (b.carrier c).held = (s.carrier c).held := by rw [h.carrier_parked]
  rw [h.carrier, h.claim, ← token, ← list]
  exact held_leaveClaim h.parked (list ▸ distinct)

/-- Cancel Route by its steps, then the trim (R62, R63). -/
theorem cancel_steps (s : State) (c : CarrierId) : ∃ a b d e : State, CancelSteps s a b d e c ∧ EngineFrame s e ∧
    s.cancel c = (e.breakWatch c).releaseAll c (e.trimReleases c) := by
  unfold State.cancel
  dsimp only
  generalize ha : (if (s.carrier c).state = .waiting then (s.leaveQueue c).clearWait c else s) = a
  generalize hb : (if (a.carrier c).state = .idle then a else a.enterState c .idle) = b
  generalize he : (if ((b.leaveClaim c).carrier c).route.isSome = true then ((b.leaveClaim c).detachRoute c).undirect c
    else b.leaveClaim c) = e
  have state : (a.carrier c).state = (s.carrier c).state := ha ▸ dequeueIf_state s c c
  have first : a.carrier c = { s.carrier c with wait := (a.carrier c).wait, waitAge := (a.carrier c).waitAge } ∧ EngineFrame s a := by
    subst ha
    split
    · exact ⟨by rw [(dequeued s c).carrier], (EngineFrame.leaveQueue s c).trans (.clearWait ..)⟩
    · exact ⟨rfl, .refl s⟩
  have second : (b.carrier c).state = .idle ∧ (b.carrier c).route = (a.carrier c).route ∧ EngineFrame a b := by
    subst hb
    split
    · next idle => exact ⟨idle, rfl, .refl a⟩
    · exact ⟨by rw [(stateEntered a c .idle).carrier], by rw [(stateEntered a c .idle).carrier], .enterState ..⟩
  obtain ⟨idle, routeKept, parkFrame⟩ := second
  have route : ((b.leaveClaim c).carrier c).route = (s.carrier c).route := by
    rw [carrier_leaveClaim (parked_of_state (by simp [idle]) (by simp [idle])), routeKept, first.1]
  rw [route] at he
  have frame : EngineFrame s (b.leaveClaim c) := (first.2.trans parkFrame).trans (.leaveClaim ..)
  refine ⟨a, b, _, e, ⟨fun w => ?_, fun w => ?_, fun i => ?_, fun i => ?_, rfl, fun r => ?_, fun r => ?_⟩, ?_, rfl⟩
  · rw [← ha, if_pos w]
    exact dequeued s c
  · rw [← ha, if_neg w]
  · rw [← hb, if_pos (state.trans i)]
  · rw [← hb, if_neg (state ▸ i)]
    exact stateEntered a c .idle
  · rw [← he, r]
    rfl
  · exact ⟨_, routeLeft _ c, by rw [← he, if_pos (Option.isSome_iff_ne_none.2 r)]⟩
  · rw [← he]
    split
    · exact frame.trans ((EngineFrame.detachRoute ..).trans (.undirect ..))
    · exact frame

end

/-! ## The trim (R63) -/

section
variable {s : State} {c : CarrierId}

/-- The conditions of a trim: the carrier is reported STOPPED in a zone that it holds (R63). -/
def State.trims (s : State) (c : CarrierId) : Prop :=
  (s.carrier c).report.present = true ∧ (s.carrier c).report.report.motion = .stopped ∧ ∃ z, s.front c = some z ∧ s.holds c z = true

/-- Of the entries ahead of the front entry, those that a trim releases: all of them, or for a no-stop front those past the exit of its passage (R63). -/
def State.pastTrim (s : State) (c : CarrierId) (ahead : List HeldEntry) : List HeldEntry :=
  if (s.front c).map s.noStop = some true then (ahead.dropWhile (fun x => s.noStop x.zone)).drop 1 else ahead

theorem trimReleases_of_trims (trims : s.trims c) : s.trimReleases c =
    (s.pastTrim c ((s.carrier c).held.drop (heldIndex (s.carrier c).held ((s.front c).getD 0) + 1))).reverse.map (·.zone) := by
  obtain ⟨present, stopped, z, front, holds⟩ := trims
  unfold State.trimReleases State.pastTrim State.frontIndex
  simp only [present, stopped, front, holds, Bool.true_and, beq_self_eq_true, if_true, Option.map_some, Option.some.injEq, Option.getD_some]
  generalize (s.carrier c).held.drop _ = ahead
  cases s.noStop z with
  | true => simp [List.dropWhile_map, Function.comp_def]
  | false => simp

theorem trimReleases_of_not_trims (untrimmed : ¬s.trims c) : s.trimReleases c = [] := by
  unfold State.trimReleases State.frontIndex
  dsimp only
  split
  · next stopped =>
    obtain ⟨present, motion⟩ := Bool.and_eq_true_iff.1 stopped
    split
    · next z i front index =>
      rw [front] at index
      dsimp only at index
      split at index
      · next holds => exact absurd ⟨present, beq_iff_eq.1 motion, z, front, holds⟩ untrimmed
      · cases index
    · rfl
  · rfl

theorem dropWhile_drop_one {α : Type} (p : α → Bool) (l : List α) : (l.dropWhile p).drop 1 = l.drop ((l.takeWhile p).length + 1) := by
  rw [← List.drop_drop]
  congr 1
  exact (List.drop_left.symm.trans (congrArg (List.drop _) List.takeWhile_append_dropWhile))

/-- Where each zone has one entry, the place of an entry's zone is that entry's. -/
theorem heldIndex_of_split {l r : List HeldEntry} {x : HeldEntry} (distinct : ((l ++ x :: r).map (·.zone)).Nodup) :
    heldIndex (l ++ x :: r) x.zone = l.length := by
  rw [List.map_append, List.map_cons] at distinct
  have apart := (List.nodup_append.1 distinct).2.2
  have before : l.findIdx (fun e => e.zone == x.zone) = l.length := List.findIdx_eq_length.2 fun e m => by
    simpa using apart _ (List.mem_map_of_mem m) _ List.mem_cons_self
  unfold heldIndex
  rw [List.findIdx_append, before, List.findIdx_cons]
  simp

/-- Releases of the entries from a place on leave those before it. -/
theorem filter_unlisted_append {l r : List HeldEntry} (distinct : ((l ++ r).map (·.zone)).Nodup) :
    (l ++ r).filter (fun e => !(r.reverse.map (·.zone)).contains e.zone) = l := by
  rw [List.map_append] at distinct
  have apart := (List.nodup_append.1 distinct).2.2
  rw [List.filter_append, filter_unlisted_of_all fun e m => List.mem_map_of_mem (List.mem_reverse.2 m), List.append_nil]
  refine filter_unlisted_of_none fun e m listed => ?_
  obtain ⟨y, there, zone⟩ := List.mem_map.1 listed
  exact apart _ (List.mem_map_of_mem m) _ (List.mem_map_of_mem (List.mem_reverse.1 there)) zone.symm

/-- The held list that a trim leaves of a carrier whose front zone it holds. -/
theorem trimmed_held {l r : List HeldEntry} {x : HeldEntry} (held : (s.carrier c).held = l ++ x :: r) (front : s.front c = some x.zone)
    (distinct : ((s.carrier c).held.map (·.zone)).Nodup) :
    (s.carrier c).held.filter (fun e => !(s.trimReleases c).contains e.zone) =
      if (s.carrier c).report.present = true ∧ (s.carrier c).report.report.motion = .stopped then
        (if s.noStop x.zone = false then l ++ [x] else l ++ x :: r.take ((r.takeWhile (fun e => s.noStop e.zone)).length + 1))
      else (s.carrier c).held := by
  split
  · next stopped =>
    have trims : s.trims c := ⟨stopped.1, stopped.2, x.zone, front, (holds_iff ..).2 ⟨x, by rw [held]; simp, rfl⟩⟩
    rw [held] at distinct
    have ahead : (l ++ x :: r).drop (l.length + 1) = r := by simp
    rw [trimReleases_of_trims trims, front, held, Option.getD_some, heldIndex_of_split distinct, ahead, State.pastTrim, front]
    split
    · next noStop =>
      rw [if_neg (by simpa using noStop), dropWhile_drop_one]
      generalize (r.takeWhile (fun e => s.noStop e.zone)).length + 1 = n
      have split : l ++ x :: r = (l ++ x :: r.take n) ++ r.drop n := by simp
      rw [split] at distinct ⊢
      exact filter_unlisted_append distinct
    · next stopAllowed =>
      rw [if_pos (by simpa using stopAllowed)]
      have split : l ++ x :: r = (l ++ [x]) ++ r := by simp
      rw [split] at distinct ⊢
      exact filter_unlisted_append distinct
  · next moving =>
    rw [trimReleases_of_not_trims fun trims => moving ⟨trims.1, trims.2.1⟩]
    exact filter_unlisted_of_none fun _ _ => List.not_mem_nil

/-- A carrier that does not hold its front zone keeps its list. -/
theorem untrimmed_held (off : ∀ e ∈ (s.carrier c).held, s.front c ≠ some e.zone) :
    (s.carrier c).held.filter (fun e => !(s.trimReleases c).contains e.zone) = (s.carrier c).held := by
  rw [trimReleases_of_not_trims]
  · exact filter_unlisted_of_none fun _ _ => List.not_mem_nil
  · rintro ⟨-, -, z, front, holds⟩
    obtain ⟨e, m, rfl⟩ := (holds_iff ..).1 holds
    exact off e m front

end

/-! ## An accepted Cancel Route -/

section
variable {s a b d e : State} {c : CarrierId}

theorem CancelSteps.front (h : CancelSteps s a b d e c) : e.front c = s.front c := by
  unfold State.front
  rw [h.carrier]
  rfl

theorem CancelSteps.report (h : CancelSteps s a b d e c) : (e.carrier c).report = (s.carrier c).report := by
  rw [h.carrier]
  rfl

theorem EngineFrame.noStop {t : State} (h : EngineFrame s t) (z : ZoneId) : t.noStop z = s.noStop z := by
  unfold State.noStop State.zone
  rw [h.zones]

/-- The record that an accepted Cancel Route leaves: the trim takes entries of the held list and nothing else. -/
theorem CancelSteps.carrier_trimmed (h : CancelSteps s a b d e c) : ((e.breakWatch c).releaseAll c (e.trimReleases c)).carrier c =
    (s.carrier c).cancelled ((e.carrier c).held.filter (fun x => !(e.trimReleases c).contains x.zone)) := by
  refine (releaseAll_parked (s := e.breakWatch c) h.tokenless.1 _).trans ?_
  simp only [breakWatch_accessors]
  rw [h.carrier]
  rfl

/-- The held list after the trim, in terms of the state before the command (R63). -/
theorem CancelSteps.held_trimmed (h : CancelSteps s a b d e c) (frame : EngineFrame s e) {held : List HeldEntry}
    (kept : held = (s.carrier c).held.filter (fun x => decide (s.pinToken ≠ some c) || x.status == .granted))
    (distinct : ((s.carrier c).held.map (·.zone)).Nodup) :
    (∀ l x r, held = l ++ x :: r → s.front c = some x.zone →
      (e.carrier c).held.filter (fun y => !(e.trimReleases c).contains y.zone) =
        if (s.carrier c).report.present = true ∧ (s.carrier c).report.report.motion = .stopped then
          (if s.noStop x.zone = false then l ++ [x] else l ++ x :: r.take ((r.takeWhile (fun y => s.noStop y.zone)).length + 1))
        else held) ∧
    ((∀ x ∈ held, s.front c ≠ some x.zone) →
      (e.carrier c).held.filter (fun y => !(e.trimReleases c).contains y.zone) = held) := by
  have before : (e.carrier c).held = held := (h.held distinct).trans kept.symm
  have distinct' : ((e.carrier c).held.map (·.zone)).Nodup := by
    rw [before, kept]
    exact distinct.sublist (List.filter_sublist.map _)
  refine ⟨fun l x r split front => ?_, fun off => ?_⟩
  · have trimmed := trimmed_held (before.trans split) (h.front.trans front) distinct'
    simpa only [h.report, frame.noStop, before] using trimmed
  · have untrimmed := untrimmed_held (s := e) (c := c) (by rw [before, h.front]; exact off)
    rwa [before] at untrimmed ⊢

/-- The trim as releases of held-list entries, farthest first (R63, R81). -/
theorem CancelSteps.trim_fold (h : CancelSteps s a b d e c) (frame : EngineFrame s e) {zs : List HeldEntry}
    (ahead : zs = (e.carrier c).held.drop (heldIndex (e.carrier c).held ((s.front c).getD 0) + 1)) :
    (e.breakWatch c).releaseAll c (e.trimReleases c) =
      if (s.carrier c).report.present = true ∧ (s.carrier c).report.report.motion = .stopped ∧ ∃ z, s.front c = some z ∧ e.holds c z = true
      then ((if (s.front c).map s.noStop = some true then (zs.dropWhile (fun x => s.noStop x.zone)).drop 1 else zs).reverse).foldl
        (fun v x => if v.holds c x.zone = true then v.release c x.zone else v) (e.breakWatch c)
      else e.breakWatch c := by
  have same : e.trims c ↔ (s.carrier c).report.present = true ∧ (s.carrier c).report.report.motion = .stopped ∧
      ∃ z, s.front c = some z ∧ e.holds c z = true := by
    unfold State.trims
    rw [h.report, h.front]
  have past : e.pastTrim c zs = if (s.front c).map s.noStop = some true then (zs.dropWhile (fun x => s.noStop x.zone)).drop 1 else zs := by
    unfold State.pastTrim
    rw [h.front, funext frame.noStop]
  split
  · next trims =>
    rw [trimReleases_of_trims (same.2 trims), h.front, ← ahead, past]
    exact releaseAll_entries ..
  · next untrimmed =>
    rw [trimReleases_of_not_trims fun trims => untrimmed (same.1 trims)]
    rfl

end

/-- Settles O26: an accepted command is `CancelSteps` and the trim; the record follows step by step, and the releases of the trim take entries of the held list alone. -/
theorem cancelRouteLeavesTheCarrierIdle : Obligations.CancelRouteLeavesTheCarrierIdle := by
  intro slot s ready
  refine ⟨fun b out => taken_next ready (cancelRoute_out out), fun c =>
    ⟨fun refused => taken_next ready (cancelRoute_refused refused), fun notVacant notFaulted => ?_⟩⟩
  obtain ⟨a, b, d, e, steps, frame, cancelled⟩ := cancel_steps s c
  have accepted := cancelRoute_accepted notVacant notFaulted
  have record := steps.carrier_trimmed
  have trims : EngineFrame (e.breakWatch c) ((e.breakWatch c).releaseAll c (e.trimReleases c)) := .releaseAll ..
  have token := (tokenless_closed c).releaseAll c (e.trimReleases c) ((tokenless_closed c).breakWatch c steps.tokenless)
  have fold := fun zs ahead => steps.trim_fold frame (zs := zs) ahead
  rw [cancelled] at accepted
  generalize (e.breakWatch c).releaseAll c (e.trimReleases c) = t at *
  refine ⟨t, taken_next ready accepted, (frame.trans (.breakWatch ..)).trans trims, by rw [record]; rfl, by rw [record]; rfl, token.2,
    fun waiting => ?_, fun moving => ?_, by rw [record]; rfl, fun w => trims.stays_unwatched ?_, ?_, fun held kept distinct => ?_,
    a, b, d, e, steps.dequeued, steps.unqueued, steps.stays, steps.parks, steps.claim, steps.routeless, steps.left, fold⟩
  · rw [record]
    exact ⟨if_pos waiting, if_pos waiting⟩
  · rw [record, Carrier.cancelled]
    simp [moving]
  · rw [watch_breakWatch]
    exact intact_breakFor
  · rw [record]
    rfl
  · rw [record]
    exact steps.held_trimmed frame kept distinct

end Sys2Proof.Machine
end

section
/-! SUPPORT. What a claim reads (section 5.3): the hold entries, the places of its route ahead, the hops behind its cursor and the direction they give a visit (R25, R43, R71), and the five tests of a zone, each with its wait (R77). -/

namespace Sys2Proof.Machine

/-! ## Orders and hold entries (R73, R98, R139) -/

theorem orderRead_eq (s : State) (c : CarrierId) :
    s.orderRead c = if s.dispatchPort.state = .lost then ⟨.hold, 255, 0⟩ else (s.carrier c).lastOrder := by
  unfold State.orderRead
  cases s.dispatchPort.state <;> rfl

theorem holdEntry_active_iff (e : HoldEntry) : e.active = true ↔ e.causes ≠ [] ∨ e.manual = true := by
  unfold HoldEntry.active
  simp

theorem districtActive_iff (s : State) : s.districtActive = true ↔
    s.districtHold.causes ≠ [] ∨ s.districtHold.manual = true ∨ s.linkFlag = true := by
  unfold State.districtActive
  rw [Bool.or_eq_true, holdEntry_active_iff, or_assoc]

/-! ## The route ahead and the next set (R43, R71) -/

section
variable (s : State) (c : CarrierId)

theorem routeAhead_getElem {n : Nat} (h : n < 64) : (s.routeAhead c)[n]? = (s.placeAhead c n).map (·.1) :=
  readFrom_placeAhead s c n 64 h

theorem routeAhead_length : (s.routeAhead c).length ≤ 64 := readFrom_length ..

theorem mem_routeAhead {x : HopRef} : x ∈ s.routeAhead c ↔ ∃ n < 64, ∃ p, s.placeAhead c n = some p ∧ p.1 = x := by
  rw [List.mem_iff_getElem?]
  constructor
  · rintro ⟨n, at_⟩
    have short : n < 64 := Nat.lt_of_lt_of_le (List.getElem?_eq_some_iff.1 at_).1 (routeAhead_length s c)
    rw [routeAhead_getElem s c short, Option.map_eq_some_iff] at at_
    exact ⟨n, short, at_⟩
  · rintro ⟨n, short, p, place, rfl⟩
    exact ⟨n, by rw [routeAhead_getElem s c short, place]; rfl⟩

theorem onRouteAhead_iff (z : ZoneId) :
    s.onRouteAhead c z = true ↔ ∃ n < 64, ∃ p, s.placeAhead c n = some p ∧ s.hopZone p.1.hop = z := by
  unfold State.onRouteAhead
  simp only [List.any_eq_true, mem_routeAhead, beq_iff_eq]
  constructor
  · rintro ⟨_, ⟨n, short, p, place, rfl⟩, zone⟩
    exact ⟨n, short, p, place, zone⟩
  · rintro ⟨n, short, p, place, zone⟩
    exact ⟨p.1, ⟨n, short, p, place, rfl⟩, zone⟩

/-- The next set goes on with the route ahead through no-stop zones. -/
theorem nextSet_getElem {n : Nat} (short : n < 64)
    (run : ∀ m < n, ∃ p, s.placeAhead c m = some p ∧ s.noStop (s.hopZone p.1.hop) = true) :
    (s.nextSet c)[n]? = (s.placeAhead c n).map (·.1) := by
  refine (takeSet_getElem s _ n fun m lt => ?_).trans (routeAhead_getElem s c short)
  obtain ⟨p, place, through⟩ := run m lt
  exact ⟨p.1, by rw [routeAhead_getElem s c (Nat.lt_trans lt short), place]; rfl, through⟩

theorem nextSet_length : (s.nextSet c).length ≤ 64 := Nat.le_trans (takeSet_length s _) (routeAhead_length s c)

/-- The next set ends with its first stop-allowed zone. -/
theorem nextSet_ends {n m : Nat} {p : HopRef × Half} (past : m < n) (place : s.placeAhead c m = some p)
    (stop : s.noStop (s.hopZone p.1.hop) = false) : (s.nextSet c)[n]? = none := by
  rcases Nat.lt_or_ge m 64 with short | far
  · exact takeSet_stops s _ n m p.1 (by rw [routeAhead_getElem s c short, place]; rfl) stop past
  · exact List.getElem?_eq_none (Nat.le_trans (nextSet_length s c) (Nat.le_trans far (Nat.le_of_lt past)))

end

/-! ## The hops behind the cursor (R25, log 16) -/

section
variable {s : State} {c : CarrierId}

theorem hopsBefore_getElem (s : State) (x : HopRef) (n : Nat) : (s.hopsBefore x)[n]? =
    if n < x.hop.val - (s.route x.route).firstHop.val then some ⟨x.route, Fin.ofNat 2048 (x.hop.val - 1 - n)⟩ else none := by
  unfold State.hopsBefore
  rw [List.getElem?_map]
  split
  · next before => rw [List.getElem?_range before]; rfl
  · next past => rw [List.getElem?_eq_none (by simpa using past)]; rfl

/-- The hop of a held-list entry by which a carrier came over a seam to a route, if it did. -/
def State.seamHeld (s : State) (r : RouteId) (e : HeldEntry) : Option HopRef :=
  match e.ref with
  | none => none
  | some x =>
    if (s.route x.route).defined && x.hop.val = (s.route x.route).lastHop
        && ((s.route x.route).endAction = .loop && x.route = r
          || (s.route x.route).endAction = .link && (s.route x.route).linkRoute = some r)
    then some x else none

theorem seamHeld_eq_some {r : RouteId} {e : HeldEntry} {x : HopRef} :
    s.seamHeld r e = some x ↔ e.ref = some x ∧ s.leadsTo x r := by
  unfold State.seamHeld State.leadsTo RouteRecord.lastHop
  cases ref : e.ref with
  | none => simp
  | some y =>
    simp only [Option.ite_none_right_eq_some, Option.some.injEq, Bool.and_eq_true, Bool.or_eq_true, decide_eq_true_eq, and_assoc]
    constructor
    · rintro ⟨defined, last, seam, rfl⟩
      exact ⟨rfl, defined, last, seam⟩
    · rintro ⟨rfl, defined, last, seam⟩
      exact ⟨defined, last, seam, rfl⟩

theorem seamHeld_eq_none {r : RouteId} {e : HeldEntry} : s.seamHeld r e = none ↔ ∀ x, e.ref = some x → ¬s.leadsTo x r := by
  simp only [Option.eq_none_iff_forall_ne_some, ne_eq, seamHeld_eq_some, not_and]

/-- A place of the route ahead, as the statements read it, is where the cursor stands. -/
theorem cursorPlace_of_placeAhead {p : HopRef × Half} (place : s.placeAhead c 0 = some p) :
    ∃ q, s.cursorPlace c = some q ∧ q.ref = p.1 := by
  rw [placeAhead_eq, Option.map_eq_some_iff] at place
  obtain ⟨q, at_, rfl⟩ := place
  exact ⟨q, at_, rfl⟩

theorem hopsBehindCursor_of_none (off : s.placeAhead c 0 = none) : s.hopsBehindCursor c = [] := by
  rw [placeAhead_eq, Option.map_eq_none_iff] at off
  unfold State.hopsBehindCursor
  rw [show s.cursorPlace c = none from off]

theorem hopsBehindCursor_eq {p : HopRef × Half} (place : s.placeAhead c 0 = some p) :
    s.hopsBehindCursor c = s.hopsBefore p.1 ++
      (((s.carrier c).held.reverse.findSome? (s.seamHeld p.1.route)).elim [] fun x => x :: s.hopsBefore x) := by
  obtain ⟨q, at_, ref⟩ := cursorPlace_of_placeAhead place
  unfold State.hopsBehindCursor
  rw [at_, ← ref]
  refine congrArg (s.hopsBefore q.ref ++ ·) ?_
  change (match (s.carrier c).held.reverse.findSome? (s.seamHeld q.ref.route) with
    | none => []
    | some x => x :: s.hopsBefore x) = _
  cases (s.carrier c).held.reverse.findSome? (s.seamHeld q.ref.route) <;> rfl

theorem hopsBehindCursor_of_no_seam {p : HopRef × Half} (place : s.placeAhead c 0 = some p)
    (seamless : ∀ e ∈ (s.carrier c).held, ∀ x, e.ref = some x → ¬s.leadsTo x p.1.route) :
    s.hopsBehindCursor c = s.hopsBefore p.1 := by
  rw [hopsBehindCursor_eq place, List.findSome?_eq_none_iff.2 fun e m => seamHeld_eq_none.2 (seamless e (List.mem_reverse.1 m))]
  exact List.append_nil _

theorem hopsBehindCursor_of_seam {p : HopRef × Half} (place : s.placeAhead c 0 = some p) {l r : List HeldEntry} {e : HeldEntry}
    {x : HopRef} (held : (s.carrier c).held = l ++ e :: r) (ref : e.ref = some x) (seam : s.leadsTo x p.1.route)
    (last : ∀ d ∈ r, ∀ y, d.ref = some y → ¬s.leadsTo y p.1.route) :
    s.hopsBehindCursor c = s.hopsBefore p.1 ++ x :: s.hopsBefore x := by
  have after : r.reverse.findSome? (s.seamHeld p.1.route) = none :=
    List.findSome?_eq_none_iff.2 fun d m => seamHeld_eq_none.2 (last d (List.mem_reverse.1 m))
  have found : (s.carrier c).held.reverse.findSome? (s.seamHeld p.1.route) = some x := by
    rw [held, List.reverse_append, List.reverse_cons, List.append_assoc, List.findSome?_append, after, Option.none_or,
      List.singleton_append, List.findSome?_cons, seamHeld_eq_some.2 ⟨ref, seam⟩]
  rw [hopsBehindCursor_eq place, found]
  rfl

/-! ## The direction asked (R25, log 27) -/

theorem visitDirection_ascending {a b : HopRef} (l : List HopRef) (up : s.hopPosition a < s.hopPosition b) :
    s.visitDirection (a :: b :: l) = .ascending :=
  if_pos up

theorem visitDirection_descending {a b : HopRef} (l : List HopRef) (down : s.hopPosition b < s.hopPosition a) :
    s.visitDirection (a :: b :: l) = .descending :=
  (if_neg (Nat.lt_asymm down)).trans (if_pos down)

/-! ## The five tests (R77) -/

theorem heldByOther_iff {z : ZoneId} : s.heldByOther c z = true ↔ ∃ d, s.holder z = some d ∧ d ≠ c := by
  unfold State.heldByOther
  cases s.holder z <;> simp

section
variable {set : List HopRef} {x : HopRef}

theorem testZone_of_hold (covered : s.districtActive = true ∨ s.sectorActive (s.zone (s.hopZone x.hop)).sector = true) :
    s.testZone c set x = some .hold :=
  if_pos ((Bool.or_eq_true ..).mpr covered)

variable (lifted : ¬(s.districtActive = true ∨ s.sectorActive (s.zone (s.hopZone x.hop)).sector = true))
include lifted

theorem testZone_of_taken (taken : s.heldByOther c (s.hopZone x.hop) = true) :
    s.testZone c set x = some (.zone (s.hopZone x.hop)) := by
  unfold State.testZone
  simp only [Bool.or_eq_true, lifted, taken, if_false, if_true]

variable (free : ¬s.heldByOther c (s.hopZone x.hop) = true)
include free

theorem testZone_of_conflict {y : ZoneId} (first : (s.zone (s.hopZone x.hop)).conflicts.find? (s.heldByOther c) = some y) :
    s.testZone c set x = some (.conflict y) := by
  unfold State.testZone
  simp only [Bool.or_eq_true, lifted, free, Bool.false_eq_true, if_false, first]

variable (apart : (s.zone (s.hopZone x.hop)).conflicts.find? (s.heldByOther c) = none)
include apart

theorem testZone_of_unclear (unclear : (s.zst (s.hopZone x.hop)).field = .unclear) :
    s.testZone c set x = some (.field (s.hopZone x.hop)) := by
  unfold State.testZone
  simp only [Bool.or_eq_true, lifted, free, Bool.false_eq_true, if_false, apart, unclear, if_true]

variable (clear : ¬(s.zst (s.hopZone x.hop)).field = .unclear)
include clear

theorem testZone_outside (outside : s.corridorOfZone (s.hopZone x.hop) = none) : s.testZone c set x = none := by
  unfold State.testZone
  simp only [Bool.or_eq_true, lifted, free, Bool.false_eq_true, if_false, apart, clear, outside]

theorem testZone_inside {k : CorridorId} (inside : s.corridorOfZone (s.hopZone x.hop) = some k) : s.testZone c set x =
    if (s.cst k).admits c (s.askedDirection c set k) = true then none else some (.corridor k) := by
  unfold State.testZone
  simp only [Bool.or_eq_true, lifted, free, Bool.false_eq_true, if_false, apart, clear, inside]

end

end

/-- The five tests of a zone in their order, each with its wait (R77). -/
theorem five_tests (s : State) (c : CarrierId) (set : List HopRef) (x : HopRef) (z : ZoneId) (w : Option Wait)
    (zone : s.hopZone x.hop = z) (test : s.testZone c set x = w) :
    let other := fun y : ZoneId => ∃ d, s.holder y = some d ∧ d ≠ c
    if s.districtActive = true ∨ s.sectorActive (s.zone z).sector = true then w = some .hold
    else if other z then w = some (.zone z)
    else (∀ l y r, (s.zone z).conflicts = l ++ y :: r → other y → (∀ v ∈ l, ¬other v) → w = some (.conflict y)) ∧
      ((∀ y ∈ (s.zone z).conflicts, ¬other y) →
        if (s.zst z).field = .unclear then w = some (.field z)
        else (s.corridorOfZone z = none → w = none) ∧
          ∀ k, s.corridorOfZone z = some k →
            w = if (s.cst k).admits c (s.askedDirection c set k) = true then none else some (.corridor k)) := by
  subst zone test
  simp only [← heldByOther_iff]
  split
  · next covered => exact testZone_of_hold covered
  · next lifted =>
    split
    · next taken => exact testZone_of_taken lifted taken
    · next free =>
      refine ⟨fun l y r split other first => testZone_of_conflict lifted free ?_, fun alone => ?_⟩
      · exact List.find?_eq_some_iff_append.2 ⟨other, l, r, split, fun v m => by simpa using first v m⟩
      · have apart := List.find?_eq_none.2 alone
        split
        · next unclear => exact testZone_of_unclear lifted free apart unclear
        · next clear => exact ⟨testZone_outside lifted free apart clear, fun k => testZone_inside lifted free apart clear⟩

/-- Settles O49: each part of what a claim reads is what its rule says, the places ahead and behind the cursor hop by hop and the tests of a zone branch by branch. -/
theorem whatAClaimAsks : Obligations.WhatAClaimAsks := by
  intro s c
  refine ⟨fun l e r => countAhead_front, countAhead_unfronted, orderRead_eq s c, hasNeed_iff s c, districtActive_iff s,
    fun n => holdEntry_active_iff _, onRouteAhead_iff s c, fun n => routeAhead_getElem s c, routeAhead_length s c,
    fun n => nextSet_getElem s c, fun n m p => nextSet_ends s c, nextSet_length s c, ?direction, fun k n => rfl,
    hopsBehindCursor_of_none, fun p place => ⟨hopsBehindCursor_of_no_seam place, fun l e r x => hopsBehindCursor_of_seam place⟩,
    hopsBefore_getElem s, five_tests s c⟩
  case direction =>
    rintro set k _ rfl a b l visit
    unfold State.askedDirection
    rw [visit]
    exact ⟨visitDirection_ascending l, visitDirection_descending l⟩

end Sys2Proof.Machine
end

section
/-! SUPPORT. The ends of a claim pass of a carrier without the token (R76, R79, R84): where a carrier that waits stands in its queue, and with the deadlock check and the giving of the token the statement of O50. -/

namespace Sys2Proof.Machine

/-! ## The place taken in a queue (R8, R32, R79, R80) -/

/-- An entry made with a priority joins behind its own class. -/
theorem insertByClass_eq {α : Type} (cls : α → Priority) (entry : Priority → α) (own : ∀ p, cls (entry p) = p) (p : Priority) (q : List α) :
    insertByClass cls (entry p) q =
      if p = .normal then q ++ [entry .normal]
      else q.filter (fun e => cls e == .urgent) ++ [entry .urgent] ++ q.filter (fun e => cls e == .normal) := by
  unfold insertByClass
  rw [own]
  cases p <;> rfl

section
variable {s t : State} {c : CarrierId} {w : Wait} {d : Direction}

theorem Joined.zoneQueue (h : Joined s t c w d) (z : ZoneId) (x : ZoneCause)
    (names : w = .zone z ∧ x = .zone ∨ w = .conflict z ∧ x = .conflict ∨ w = .field z ∧ x = .field) :
    ∃ n, (t.zst z).queue =
      (if (s.carrier c).priority = .normal then (s.zst z).queue ++ [⟨c, x, .normal, n⟩]
       else (s.zst z).queue.filter (fun e => e.priority == .urgent) ++ [⟨c, x, .urgent, n⟩]
        ++ (s.zst z).queue.filter (fun e => e.priority == .normal)) :=
  ⟨s.tickets, (h.zone z x names).trans (insertByClass_eq ZoneWaiter.priority (fun p => ⟨c, x, p, s.tickets⟩) (fun _ => rfl) _ _)⟩

theorem Joined.corridorQueue (h : Joined s t c w d) (k : CorridorId) (names : w = .corridor k) :
    ∃ n, (t.cst k).queue =
      (if (s.carrier c).priority = .normal then (s.cst k).queue ++ [⟨c, d, .normal, n⟩]
       else (s.cst k).queue.filter (fun e => e.priority == .urgent) ++ [⟨c, d, .urgent, n⟩]
        ++ (s.cst k).queue.filter (fun e => e.priority == .normal)) :=
  ⟨s.tickets, (h.corridor k names).trans (insertByClass_eq CorridorWaiter.priority (fun p => ⟨c, d, p, s.tickets⟩) (fun _ => rfl) _ _)⟩

theorem Joined.holdList (h : Joined s t c w d) (names : w = .hold) :
    ∃ n, t.holdWait =
      (if (s.carrier c).priority = .normal then s.holdWait ++ [⟨c, .normal, n⟩]
       else s.holdWait.filter (fun e => e.priority == .urgent) ++ [⟨c, .urgent, n⟩]
        ++ s.holdWait.filter (fun e => e.priority == .normal)) :=
  ⟨s.tickets, (h.hold names).trans (insertByClass_eq HoldWaiter.priority (fun p => ⟨c, p, s.tickets⟩) (fun _ => rfl) _ _)⟩

end

/-! ## A carrier put into a wait -/

section
variable {s u : State} {c : CarrierId} {w : Wait} {d : Direction}

/-- The queue joined, and the state in which the carrier joins it: as it was, or with its former queue left. -/
theorem PutWaiting.joins (h : PutWaiting s u c w d) (active : s.active c) (new : (s.carrier c).state = .advancing ∨ (s.carrier c).wait ≠ w) :
    ∃ v t : State, ((s.carrier c).state = .advancing → v = s) ∧
      ((s.carrier c).state = .waiting → ∃ x, Dequeued s x c ∧ v = { x with carriers := s.carriers }) ∧
      (v.carrier c).priority = (s.carrier c).priority ∧ Joined v t c w d ∧
      (∀ z, u.zst z = t.zst z) ∧ (∀ k, u.cst k = t.cst k) ∧ u.holdWait = t.holdWait := by
  obtain ⟨v, stays, leaves, t, joined, zones, corridors, holds⟩ := h.queues new
  refine ⟨v, t, stays, leaves, ?_, joined, fun z => ?_, fun k => ?_, holds⟩
  · rcases active with advancing | waiting
    · rw [stays advancing]
    · obtain ⟨x, -, rfl⟩ := leaves waiting
      rfl
  · unfold State.zst
    rw [zones]
  · unfold State.cst
    rw [corridors]

end

/-- Settles O50: a pass without the token exhausts its route, rests, is granted its set or waits, and each end is its lemma; the deadlock check and the token follow the cycle and the choice. -/
theorem aClaimPassEndsOrWaits : Obligations.AClaimPassEndsOrWaits := by
  refine ⟨fun s c allowed other => ⟨runPass_exhausts allowed, fun moving => ⟨fun out => ?rests, fun need present new room => ⟨?grants, ?waits⟩⟩⟩,
    fun s c => ⟨fun l => deadlockCheck_cycle, deadlockCheck_none⟩,
    fun s => ⟨rfl, giveToken_not, giveToken_none, fun c => giveToken_some⟩⟩
  case rests =>
    rw [runPass_rests allowed moving other ⟨out⟩]
    exact ⟨settle_of_advancing, settle_of_waiting⟩
  case grants => exact runPass_grants allowed moving other ⟨need, present, new, room⟩
  case waits =>
    intro w fails
    obtain ⟨u, put, pass⟩ := runPass_waits allowed moving other ⟨need, present, new, room⟩ fails
    refine ⟨u, pass, put.same, put.fresh, put.moved, put.others, put.holder, putWaiting_token put, by rw [put.rest], by rw [put.rest],
      by rw [put.rest], fun changed => ?_⟩
    obtain ⟨v, t, stays, leaves, priority, joined, zones, corridors, holds⟩ := put.joins (active_of_passAllowed allowed) changed
    refine ⟨v, stays, leaves, ?_, ?_, ?_⟩
    · intro z x names
      rw [zones, ← priority]
      exact joined.zoneQueue z x names
    · rintro k rfl
      rw [corridors, ← priority]
      exact joined.corridorQueue k rfl
    · intro names
      rw [holds, ← priority]
      exact joined.holdList names

end Sys2Proof.Machine
end

section
/-! SUPPORT. Grants (R78) and the token holder's pass (R91 to R93): where a cursor stands past a hop and what its seam does to the users counts (R40 to R42, R44), a grant part by part, and with the token holder's ends the statement of O51. -/

namespace Sys2Proof.Machine

/-! ## The cursor past a hop (R40 to R42, R44) -/

/-- A carrier's route, cursor and laps (R39). -/
def State.course (s : State) (c : CarrierId) : Option RouteId × Cursor × Half :=
  ((s.carrier c).route, (s.carrier c).cursor, (s.carrier c).laps)

/-- A carrier's cursor stands past a hop, and the users counts follow a LINK seam that it took. -/
structure CursorPast (s t : State) (c : CarrierId) (x : HopRef) : Prop where
  course : t.course c = s.placePast c x
  unlinked : s.linkTaken x = none → ∀ q, t.route q = s.route q
  linked : ∀ p, s.linkTaken x = some p → ∀ q, t.route q = { s.route q with
    users := (s.route q).users - (if (s.carrier c).route = some q then 1 else 0) + (if p = q then 1 else 0) }

section
variable {s t u : State} {c : CarrierId} {x : HopRef}

/-- A move that takes no LINK seam leaves the users counts. -/
theorem CursorPast.of_unlinked (course : t.course c = s.placePast c x) (same : ∀ q, t.route q = s.route q) (unlinked : s.linkTaken x = none) :
    CursorPast s t c x :=
  ⟨course, fun _ => same, fun _ taken => nomatch unlinked.symm.trans taken⟩

theorem CursorPast.then_keeps (h : CursorPast s t c x) (course : u.course c = t.course c) (routes : u.routes = t.routes) : CursorPast s u c x := by
  have same : ∀ q, u.route q = t.route q := fun q => by
    unfold State.route
    rw [routes]
  exact ⟨course.trans h.course, fun unlinked q => (same q).trans (h.unlinked unlinked q),
    fun p linked q => (same q).trans (h.linked p linked q)⟩

/-- What is read of a cursor's move is the routes and the carrier's own place. -/
theorem CursorPast.after (h : CursorPast t u c x) (routes : t.routes = s.routes) (route : (t.carrier c).route = (s.carrier c).route)
    (laps : (t.carrier c).laps = (s.carrier c).laps) : CursorPast s u c x := by
  have same : t.route = s.route := by
    unfold State.route
    rw [routes]
  have place : t.placePast c x = s.placePast c x := by
    unfold State.placePast
    simp only [same, route, laps]
  have link : t.linkTaken x = s.linkTaken x := by
    unfold State.linkTaken
    rw [same]
  obtain ⟨course, unlinked, linked⟩ := h
  rw [place] at course
  rw [link, same] at unlinked
  simp only [link, same, route] at linked
  exact ⟨course, unlinked, linked⟩

theorem course_modCarrier (s : State) (c : CarrierId) (f : Carrier → Carrier) :
    (s.modCarrier c f).course c = ((f (s.carrier c)).route, (f (s.carrier c)).cursor, (f (s.carrier c)).laps) := by
  unfold State.course
  rw [carrier_modCarrier_self]

theorem placePast_inside (inside : x.hop.val + 1 < (s.route x.route).firstHop.val + (s.route x.route).hopCount) :
    s.placePast c x = ((s.carrier c).route, .hop (hopPlus x.hop 1), (s.carrier c).laps) :=
  if_pos inside

section
variable (atLast : ¬x.hop.val + 1 < (s.route x.route).firstHop.val + (s.route x.route).hopCount)
include atLast

theorem placePast_stop (ending : (s.route x.route).endAction = .stop) : s.placePast c x = ((s.carrier c).route, .atEnd, (s.carrier c).laps) := by
  unfold State.placePast
  simp only [if_neg atLast, ending]

theorem placePast_loop (ending : (s.route x.route).endAction = .loop) : s.placePast c x = ((s.carrier c).route,
    if (s.carrier c).laps - 1 = 0 then .atEnd else .hop (s.route x.route).firstHop, (s.carrier c).laps - 1) := by
  unfold State.placePast
  simp only [if_neg atLast, ending]

theorem placePast_link (ending : (s.route x.route).endAction = .link) : s.placePast c x =
    (s.linkTaken x).elim ((s.carrier c).route, .atEnd, (s.carrier c).laps)
      fun q => (some q, .hop (s.route q).firstHop, (s.route q).lapCount) := by
  unfold State.placePast State.linkTaken
  simp only [atLast, ending, ne_eq, not_true_eq_false, or_false, if_false]
  cases (s.route x.route).linkRoute with
  | none => rfl
  | some q => by_cases defined : (s.route q).defined = true <;> simp [Option.filter, defined]

theorem linkTaken_link (ending : (s.route x.route).endAction = .link) :
    s.linkTaken x = (s.route x.route).linkRoute.filter (fun q => (s.route q).defined) := by
  unfold State.linkTaken
  simp only [atLast, ending, ne_eq, not_true_eq_false, or_false, if_false]

/-- The seam of a route taken: END, the first hop with a lap less, or the link route (R41, R42). -/
theorem takeSeam_past : CursorPast s (s.takeSeam c x.route) c x := by
  unfold State.takeSeam
  cases ending : (s.route x.route).endAction with
  | stop =>
    exact .of_unlinked ((course_modCarrier ..).trans (placePast_stop atLast ending).symm) (fun _ => rfl) (if_pos (.inr (by simp [ending])))
  | loop =>
    exact .of_unlinked ((course_modCarrier ..).trans (placePast_loop atLast ending).symm) (fun _ => rfl) (if_pos (.inr (by simp [ending])))
  | link =>
    have place := placePast_link (c := c) atLast ending
    have link := linkTaken_link atLast ending
    dsimp only
    split
    · next unnamed =>
      rw [unnamed] at link
      rw [link] at place
      exact .of_unlinked ((course_modCarrier ..).trans place.symm) (fun _ => rfl) link
    · next q named =>
      rw [named, Option.filter_some] at link
      split
      · next defined =>
        rw [if_pos defined] at link
        rw [link] at place
        refine ⟨(course_modCarrier ..).trans place.symm, fun unlinked => (nomatch link.symm.trans unlinked), fun p linked r => ?_⟩
        obtain rfl := Option.some.inj (link.symm.trans linked)
        exact (users_addUser ..).trans (by rw [users_dropUserOf])
      · next undefined =>
        rw [if_neg undefined] at link
        rw [link] at place
        exact .of_unlinked ((course_modCarrier ..).trans place.symm) (fun _ => rfl) link

end

theorem moveCursorPast_past (s : State) (c : CarrierId) (x : HopRef) : CursorPast s (s.moveCursorPast c x) c x := by
  unfold State.moveCursorPast
  refine CursorPast.then_keeps (t := if x.hop.val < (s.route x.route).lastHop then _ else _) ?_ rfl rfl
  by_cases inside : x.hop.val + 1 < (s.route x.route).firstHop.val + (s.route x.route).hopCount
  · rw [if_pos ((lastHop_iff ..).2 inside)]
    exact .of_unlinked ((course_modCarrier ..).trans (placePast_inside inside).symm) (fun _ => rfl) (if_pos (.inl inside))
  · rw [if_neg (mt (lastHop_iff ..).1 inside)]
    exact takeSeam_past inside

theorem moveCursorPastSet_past (s : State) (c : CarrierId) {set : List HopRef} (last : set.getLast? = some x) :
    CursorPast s (s.moveCursorPastSet c set) c x := by
  unfold State.moveCursorPastSet
  rw [last]
  exact moveCursorPast_past s c x

theorem settle_keeps_course (t : State) (c : CarrierId) : (t.settle c).course c = t.course c ∧ (t.settle c).routes = t.routes := by
  by_cases waiting : (t.carrier c).state = .waiting
  · obtain ⟨u, dequeued, entered⟩ := settle_of_waiting waiting
    unfold State.course
    exact ⟨by rw [entered.carrier, dequeued.carrier], by rw [entered.rest, dequeued.rest]⟩
  · unfold State.settle
    rw [if_neg waiting]
    exact ⟨rfl, rfl⟩

theorem grantSet_past (s : State) (c : CarrierId) {set : List HopRef} (last : set.getLast? = some x) :
    CursorPast s (s.grantSet c set) c x := by
  have entered := entered_all c (fun x => (⟨s.hopZone x.hop, .granted, some x⟩ : HeldEntry)) set s
  unfold State.grantSet
  dsimp only
  generalize set.foldl (fun t x => t.enterHeld c ⟨s.hopZone x.hop, .granted, some x⟩) s = t at entered ⊢
  have only := (entered_corridors c (s.setCorridors c set) (setCorridors_nodup s c set) t 0).2
  generalize (s.setCorridors c set).foldl (fun u (k, d) => u.enterCorridor c k d) t = u at only ⊢
  have carrier : u.carrier c = t.carrier c := by
    rw [only]
    rfl
  have moved : CursorPast s (u.moveCursorPastSet c set) c x := (moveCursorPastSet_past u c last).after (by rw [only, entered.rest])
    (by rw [carrier, entered.carrier]) (by rw [carrier, entered.carrier])
  obtain ⟨course, routes⟩ := settle_keeps_course ((u.moveCursorPastSet c set).breakWatch c) c
  exact moved.then_keeps course routes

theorem wholeSet_past (s : State) (c : CarrierId) {set : List HopRef} (last : set.getLast? = some x) :
    CursorPast s (s.wholeSet c set) c x := by
  unfold State.wholeSet
  dsimp only
  generalize granted : s.modCarrier c (fun r => { r with held := r.held.map (fun e => { e with status := .granted }) }) = t
  have carrier : t.carrier c = { s.carrier c with held := (s.carrier c).held.map (fun e => { e with status := .granted }) } := by
    rw [← granted, carrier_modCarrier_self]
  have moved : CursorPast s (t.moveCursorPastSet c set) c x :=
    (moveCursorPastSet_past t c last).after (by rw [← granted]; rfl) (by rw [carrier]) (by rw [carrier])
  obtain ⟨course, routes⟩ := settle_keeps_course ({ t.moveCursorPastSet c set with pinToken := none }.breakWatch c) c
  exact moved.then_keeps course routes

end

/-! ## A grant, part by part (R78) -/

/-- A carrier's record once it is settled: ADVANCING, and out of a wait it was in (R55, R78). -/
def Carrier.settled (r : Carrier) : Carrier :=
  { r with
    state := .advancing
    wait := if r.state = .waiting then .none else r.wait
    waitAge := if r.state = .waiting then 0 else r.waitAge
    flags := { r.flags with state := r.flags.state || decide (r.state = .waiting) } }

theorem carrier_settled {t : State} {c : CarrierId} (active : t.active c) : (t.settle c).carrier c = (t.carrier c).settled :=
  carrier_settle active

theorem settled_of_waiting {r : Carrier} (waiting : r.state = .waiting) :
    r.settled.wait = .none ∧ r.settled.waitAge = 0 ∧ r.settled.flags.state = true := by
  unfold Carrier.settled
  simp [waiting]

section
variable {s : State} {c : CarrierId} {set : List HopRef}

/-- The granted carrier's record: its held list with the set, ADVANCING, out of its wait; its course is `grantSet_past`'s. -/
theorem carrier_grantSet (active : s.active c) : ∃ r i n, (s.grantSet c set).carrier c = Carrier.settled { s.carrier c with
    held := (s.carrier c).held ++ set.map (fun x => ⟨s.hopZone x.hop, .granted, some x⟩), route := r, cursor := i, laps := n } := by
  obtain ⟨t, taken, granted⟩ := grantSet_parts s c set
  obtain ⟨r, i, n, carrier⟩ := taken.carrier
  have goes : t.active c := (active_congr (by rw [carrier])).2 active
  exact ⟨r, i, n, by rw [granted, carrier_settled goes, carrier]⟩

theorem others_grantSet (s : State) (set : List HopRef) {d : CarrierId} (other : d ≠ c) : (s.grantSet c set).carrier d = s.carrier d := by
  obtain ⟨t, taken, granted⟩ := grantSet_parts s c set
  rw [granted, (settle_others t c).1 d other, taken.others d other]

theorem holder_grantSet (s : State) (c : CarrierId) (set : List HopRef) (z : ZoneId) :
    (s.grantSet c set).holder z = if ∃ x ∈ set, s.hopZone x.hop = z then some c else s.holder z := by
  obtain ⟨t, taken, granted⟩ := grantSet_parts s c set
  rw [granted, holder_settle, taken.holder]

/-- A WAITING carrier that is granted its set is out of the zone queue its wait names. -/
theorem queue_grantSet (waiting : (s.carrier c).state = .waiting) (z : ZoneId)
    (names : (s.carrier c).wait = .zone z ∨ (s.carrier c).wait = .conflict z ∨ (s.carrier c).wait = .field z) :
    ((s.grantSet c set).zst z).queue = (s.zst z).queue.filter (fun e => e.slot != c) := by
  obtain ⟨t, taken, granted⟩ := grantSet_parts s c set
  obtain ⟨r, i, n, carrier⟩ := taken.carrier
  rw [granted, (settle_others t c).2.1, carrier, taken.queue]
  exact if_pos ⟨waiting, names⟩

theorem cst_grantSet (s : State) (c : CarrierId) (set : List HopRef) (k : CorridorId) : (s.grantSet c set).cst k =
    { (if ∃ x ∈ set, s.corridorOfZone (s.hopZone x.hop) = some k
        then (s.cst k).enter (s.corridor k).quota c (s.askedDirection c set k) else s.cst k) with
      queue := if (s.carrier c).state = .waiting ∧ (s.carrier c).wait = .corridor k
        then (s.cst k).queue.filter (fun e => e.slot != c) else (s.cst k).queue } := by
  obtain ⟨t, taken, granted⟩ := grantSet_parts s c set
  obtain ⟨r, i, n, carrier⟩ := taken.carrier
  obtain ⟨-, -, corridors, -⟩ := settle_others t c
  have queue : (t.cst k).queue = (s.cst k).queue := by
    rw [taken.corridors]
    split
    · exact queue_enter ..
    · rfl
  rw [granted, corridors, carrier, queue, taken.corridors]

theorem watch_grantSet (w : MgmtSlot) (watched : ((s.grantSet c set).watch w).carrier = some c) :
    ((s.grantSet c set).watch w).intact = false := by
  obtain ⟨t, taken, granted⟩ := grantSet_parts s c set
  obtain ⟨-, -, -, watches⟩ := settle_others t c
  rw [granted] at watched ⊢
  rcases watches w with same | broken
  · rw [same] at watched ⊢
    exact taken.watches w watched
  · rw [broken] at watched ⊢
    unfold Watch.breakFor at watched ⊢
    split
    · rfl
    · next apart =>
      rw [if_neg apart] at watched
      exact absurd watched apart

end

/-! ## Zones taken PENDING (R91) -/

section
variable {s : State} {c : CarrierId} {set rest : List HopRef} {x : HopRef}

theorem takePending_held (held : s.holdsPending c (s.hopZone x.hop) = true) :
    s.takePending c set (x :: rest) = s.takePending c set rest := by
  rw [State.takePending, if_pos held]

theorem takePending_fails (new : s.holdsPending c (s.hopZone x.hop) = false) {w : Wait} (fails : s.testZone c set x = some w) :
    s.takePending c set (x :: rest) = (s, some w) := by
  rw [State.takePending, if_neg (by simp [new]), fails]

theorem takePending_takes (new : s.holdsPending c (s.hopZone x.hop) = false) (passes : s.testZone c set x = none) :
    s.takePending c set (x :: rest) = (s.pendHold c set x).takePending c set rest := by
  rw [State.takePending, if_neg (by simp [new]), passes]

end

/-! ## The token holder's ends (R91 to R93) -/

section
variable {s t : State} {c : CarrierId}

theorem outgrown_iff (s : State) (c : CarrierId) (set : List HopRef) : s.outgrown c set = true ↔
    (∃ x ∈ set, s.holdsPending c (s.hopZone x.hop) = false ∧ s.holds c (s.hopZone x.hop) = true) ∨
      12 < (s.carrier c).held.length + (set.filter (fun x => !s.holdsPending c (s.hopZone x.hop))).length := by
  unfold State.outgrown State.leftOfSet
  simp

theorem outgrown_eq_false_iff (s : State) (c : CarrierId) (set : List HopRef) : s.outgrown c set = false ↔
    (∀ x ∈ set, s.holdsPending c (s.hopZone x.hop) = false → s.holds c (s.hopZone x.hop) = false) ∧
      (s.carrier c).held.length + (set.filter (fun x => !s.holdsPending c (s.hopZone x.hop))).length ≤ 12 := by
  rw [← Bool.not_eq_true, outgrown_iff]
  simp

/-- A wait with its deadlock check keeps carriers, holders and the token. -/
theorem checkedFor_keeps (u : State) (c : CarrierId) (w : Wait) : (∀ d, (u.checkedFor c w).carrier d = u.carrier d) ∧
    (∀ z, (u.checkedFor c w).holder z = u.holder z) ∧ (u.checkedFor c w).pinToken = u.pinToken := by
  rw [checkedFor_only]
  exact ⟨fun _ => rfl, fun _ => rfl, rfl⟩

/-- What a token holder's pass leaves where a zone of its set fails (R91). -/
theorem pinned_pass_waits (allowed : s.passAllowed c = true) (moving : (s.carrier c).cursor ≠ .atEnd) (token : s.pinToken = some c)
    (goes : MidSet s c ∨ s.hasPending c = false ∧ Asks s c) {w : Wait}
    (fails : s.takePending c (s.nextSet c) (s.nextSet c) = (t, some w)) :
    ((s.runPass c).carrier c).state = .waiting ∧ ((s.runPass c).carrier c).wait = w ∧
      ((s.runPass c).carrier c).held = (t.carrier c).held ∧ ((s.runPass c).carrier c).cursor = (s.carrier c).cursor ∧
      (∀ z, (s.runPass c).holder z = t.holder z) ∧ (s.runPass c).pinToken = some c := by
  obtain ⟨l, carrier, -, pin, -⟩ := takePending_parts c (s.nextSet c) (s.nextSet c) s
  rw [fails] at carrier pin
  have active : t.active c := (active_congr (by rw [carrier])).2 (active_of_passAllowed allowed)
  obtain ⟨u, put, pass⟩ := runPass_pinned_waits allowed moving token goes fails
  obtain ⟨carriers, holders, pinned⟩ := checkedFor_keeps u c w
  obtain ⟨waits, cause, held, cursor⟩ := putWaiting_state put active
  rw [pass, carriers, pinned]
  exact ⟨waits, cause, held, cursor.trans (by rw [carrier]), fun z => (holders z).trans (put.holder z),
    (putWaiting_token put).trans (pin.trans token)⟩

/-- The record of a token holder whose set is whole (R92). -/
theorem carrier_wholeSet {set : List HopRef} (active : s.active c) : ∃ r i n, (s.wholeSet c set).carrier c = Carrier.settled { s.carrier c with
    held := (s.carrier c).held.map (fun e => { e with status := .granted }), route := r, cursor := i, laps := n } := by
  obtain ⟨t, whole, settled⟩ := wholeSet_parts s c set
  obtain ⟨r, i, n, carrier⟩ := whole.carrier
  have goes : t.active c := (active_congr (by rw [carrier])).2 active
  exact ⟨r, i, n, by rw [settled, carrier_settled goes, carrier]⟩

/-- What a whole set leaves of the rest: other carriers, the holders, and the token freed (R92). -/
theorem wholeSet_keeps (s : State) (c : CarrierId) (set : List HopRef) : (∀ d, d ≠ c → (s.wholeSet c set).carrier d = s.carrier d) ∧
    (∀ z, (s.wholeSet c set).holder z = s.holder z) ∧ (s.wholeSet c set).pinToken = none := by
  obtain ⟨t, whole, settled⟩ := wholeSet_parts s c set
  rw [settled]
  refine ⟨fun d other => ?_, fun z => ?_, ?_⟩
  · rw [(settle_others t c).1 d other, whole.others d other]
  · rw [holder_settle, whole.rest]
    rfl
  · rw [(settle_held t c).2, whole.token]

/-- The token holder's claim left, entry by entry (R93). -/
theorem leaveClaim_entries (token : s.pinToken = some c) :
    s.leaveClaim c = { ((s.carrier c).held.reverse.filter (fun e => e.status == .pending)).foldl
      (fun t e => if t.holds c e.zone = true then t.release c e.zone else t) s with pinToken := none } := by
  unfold State.leaveClaim
  rw [if_pos token, releaseAll_entries, List.filter_reverse]

end

/-! ## The statement, part by part -/

/-- A cursor that moves past a hop before its route's last takes the next one. -/
theorem CursorPast.inside {s t : State} {c : CarrierId} {x : HopRef} (h : CursorPast s t c x)
    (before : x.hop.val < (s.route x.route).firstHop.val + (s.route x.route).hopCount - 1) :
    (t.carrier c).cursor = .hop (Fin.ofNat 2048 (x.hop.val + 1)) ∧ (t.carrier c).route = (s.carrier c).route ∧
      (t.carrier c).laps = (s.carrier c).laps := by
  have course : t.course c = _ := h.course.trans (placePast_inside (by omega))
  unfold State.course at course
  simp only [Prod.mk.injEq] at course
  exact ⟨course.2.1, course.1, course.2.2⟩

/-- A grant, as the statement reads it (R78). -/
theorem grant_whole (s : State) (c : CarrierId) (set : List HopRef) (active : s.active c) :
    ((s.grantSet c set).carrier c).held = (s.carrier c).held ++ set.map (fun x => ⟨s.hopZone x.hop, .granted, some x⟩) ∧
    ((s.grantSet c set).carrier c).state = .advancing ∧
    ((s.carrier c).state = .waiting → ((s.grantSet c set).carrier c).wait = .none ∧ ((s.grantSet c set).carrier c).waitAge = 0 ∧
      ((s.grantSet c set).carrier c).flags.state = true) := by
  obtain ⟨r, i, n, carrier⟩ := carrier_grantSet (set := set) active
  rw [carrier]
  exact ⟨rfl, rfl, settled_of_waiting⟩

/-- What a token holder's pass goes on from with its set whole (R92). -/
theorem pinned_pass_whole {s t : State} {c : CarrierId} (active : s.active c)
    (passes : s.takePending c (s.nextSet c) (s.nextSet c) = (t, none)) :
    ((t.wholeSet c (s.nextSet c)).carrier c).state = .advancing ∧
      ((t.wholeSet c (s.nextSet c)).carrier c).held = (t.carrier c).held.map (fun e => { e with status := .granted }) ∧
      ((t.carrier c).state = .waiting → ((t.wholeSet c (s.nextSet c)).carrier c).wait = .none ∧
        ((t.wholeSet c (s.nextSet c)).carrier c).waitAge = 0 ∧ ((t.wholeSet c (s.nextSet c)).carrier c).flags.state = true) ∧
      ∀ x, (s.nextSet c).getLast? = some x → CursorPast s (t.wholeSet c (s.nextSet c)) c x := by
  obtain ⟨l, taken, -, -, -, routes⟩ := takePending_parts c (s.nextSet c) (s.nextSet c) s
  rw [passes] at taken routes
  obtain ⟨r, i, n, carrier⟩ := carrier_wholeSet (set := s.nextSet c) ((active_congr (by rw [taken])).2 active)
  refine ⟨?_, ?_, ?_, fun x last => (wholeSet_past t c last).after routes (by rw [taken]) (by rw [taken])⟩
  all_goals rw [carrier]
  · rfl
  · rfl
  · exact settled_of_waiting

/-- Settles O51: a grant by its parts, the pending holds one by one, the token holder's pass by its ends, and the claim left entry by entry. -/
theorem aGrantTakesTheWholeSet : Obligations.AGrantTakesTheWholeSet := by
  refine ⟨fun s c set active => ?grant, fun s c set rest x => ⟨rfl, takePending_held, fun new w => takePending_fails new, fun new passes => ?pend⟩,
    fun s c allowed moving token => ⟨fun bare out => ?rests, fun pending outgrown => ?outgrown, fun goes => ?goes⟩,
    fun s c => ⟨fun other => if_neg other, leaveClaim_entries⟩⟩
  case grant =>
    obtain ⟨held, state, wait⟩ := grant_whole s c set active
    refine ⟨held, state, fun waiting => ?_, holder_grantSet s c set, fun d => others_grantSet s set, cst_grantSet s c set,
      fun x last => (grantSet_past s c last).inside, fun x last => ?_, watch_grantSet⟩
    · obtain ⟨cause, age, flag⟩ := wait waiting
      exact ⟨cause, age, flag, queue_grantSet waiting⟩
    · obtain ⟨course, unlinked, linked⟩ := grantSet_past s c last
      exact ⟨course, unlinked, linked⟩
  case pend =>
    have taken := pendTaken s c set x
    exact ⟨_, takePending_takes new passes, taken.carrier, taken.others, taken.holder, taken.corridors, taken.watches,
      by rw [taken.rest], taken.frame⟩
  case rests =>
    rw [runPass_pinned_rests allowed moving token bare ⟨out⟩]
    refine ⟨fun advancing => by rw [settle_of_advancing advancing], fun waiting => ?_⟩
    obtain ⟨u, dequeued, entered⟩ := settle_of_waiting waiting
    exact ⟨u, _, dequeued, entered, rfl⟩
  case outgrown =>
    rw [runPass_outgrown allowed moving token pending ((outgrown_iff ..).2 outgrown)]
    exact ⟨settle_of_advancing, settle_of_waiting⟩
  case goes =>
    have goes : MidSet s c ∨ s.hasPending c = false ∧ Asks s c := goes.imp
      (fun ⟨pending, new, room⟩ => ⟨pending, (outgrown_eq_false_iff ..).2 ⟨new, room⟩⟩)
      (fun ⟨bare, need, present, new, room⟩ => ⟨bare, need, present, new, room⟩)
    refine ⟨fun t w => pinned_pass_waits allowed moving token goes, fun t passes => ?_⟩
    obtain ⟨state, held, wait, past⟩ := pinned_pass_whole (active_of_passAllowed allowed) passes
    obtain ⟨others, holders, freed⟩ := wholeSet_keeps t c (s.nextSet c)
    exact ⟨_, runPass_pinned_whole allowed moving token goes passes, freed, state, held, others, holders, wait,
      fun x last before => ((past x last).inside before).1, fun x last => (past x last).course⟩

end Sys2Proof.Machine
end

section
/-! SUPPORT. The stamper (R97 to R109): the places that a stamp counts, read as entries of a held list that is split behind the front, at the walk's end and at the reach; what each order gives with them; and the record that a departure leaves. -/

namespace Sys2Proof.Machine

/-! ## Walks and passages (R3, R100, R101) -/

/-- A list is cut at the end of its leading run: what the run is, and what follows it. -/
theorem takeWhile_dropWhile_append {α : Type} {p : α → Bool} {a b : List α} (inside : ∀ x ∈ a, p x = true)
    (outside : ∀ x, b.head? = some x → p x = false) : (a ++ b).takeWhile p = a ∧ (a ++ b).dropWhile p = b := by
  rw [List.takeWhile_append_of_pos inside, List.dropWhile_append_of_pos inside]
  cases b with
  | nil => simp
  | cons x b => simp [outside x rfl]

section
variable {s : State}

theorem passes_iff (e : HeldEntry) : s.passes e = true ↔ e.status = .granted ∧ (s.zst e.zone).blocked = false := by
  simp [State.passes, State.blocked]

theorem passes_eq_false_iff (e : HeldEntry) : s.passes e = false ↔ e.status = .pending ∨ (s.zst e.zone).blocked = true := by
  rw [← Bool.not_eq_true, passes_iff]
  cases e.status <;> simp

/-- The walk along some entries takes those that pass, up to the first that does not. -/
theorem walk_append {a b : List HeldEntry} (passing : ∀ e ∈ a, e.status = .granted ∧ (s.zst e.zone).blocked = false)
    (stops : ∀ e, b.head? = some e → e.status = .pending ∨ (s.zst e.zone).blocked = true) :
    (a ++ b).takeWhile s.passes = a ∧ (s.cutByBlock (a ++ b) = true ↔ s.cutAt b) := by
  obtain ⟨taken, left⟩ := takeWhile_dropWhile_append (fun e m => (passes_iff e).2 (passing e m))
    (fun e first => (passes_eq_false_iff e).2 (stops e first))
  refine ⟨taken, ?_⟩
  unfold State.cutByBlock State.cutAt
  rw [left]
  cases b <;> simp [State.blocked]

/-- The rest of a passage stands at the head of the entries after the front, and `passageRest` finds it. -/
theorem passageRest_of_restOfPassage {after passage : List HeldEntry} (rest : s.restOfPassage after passage) :
    s.passageRest after = passage ∧ ∃ beyond, after = passage ++ beyond := by
  have run : ∀ l r : List HeldEntry, (∀ e ∈ l, s.noStop e.zone = true) → s.passageRest (l ++ r) = l ++ s.passageRest r := by
    intro l r noStop
    induction l with
    | nil => rfl
    | cons e l ih =>
      obtain ⟨first, others⟩ := List.forall_mem_cons.1 noStop
      rw [List.cons_append, State.passageRest, if_pos first, ih others, List.cons_append]
  rcases rest with ⟨l, x, r, rfl, noStop, exit, rfl⟩ | ⟨noStop, rfl⟩
  · exact ⟨by rw [run l _ noStop, State.passageRest, exit]; rfl, r, by simp⟩
  · exact ⟨by simpa [State.passageRest] using run _ [] noStop, [], by simp⟩

/-! ## Places in a held list -/

variable {held behind after span beyond : List HeldEntry} {front : HeldEntry}

theorem frontIndex_of_split {c : CarrierId} (split : (s.carrier c).held = behind ++ front :: after)
    (first : ∀ e ∈ behind, e.zone ≠ front.zone) (stands : s.front c = some front.zone) :
    s.frontIndex c = some behind.length := by
  have held : s.holds c front.zone = true := (holds_iff ..).2 ⟨front, by simp [split], rfl⟩
  have before : behind.findIdx (fun e => e.zone == front.zone) = behind.length :=
    List.findIdx_eq_length.2 fun e m => by simpa using first e m
  unfold State.frontIndex
  rw [stands]
  dsimp only
  rw [if_pos held, heldIndex, split, List.findIdx_append, before]
  simp [List.findIdx_cons]

theorem frontIndex_of_not_held {c : CarrierId} {z : ZoneId} (stands : s.front c = some z) (unheld : s.holds c z = false) :
    s.frontIndex c = none := by
  unfold State.frontIndex
  rw [stands]
  dsimp only
  rw [if_neg (by simp [unheld])]

theorem frontCap_split : s.frontCap (behind ++ front :: after) behind.length = s.frontCap [front] 0 := by
  simp [State.frontCap]

/-- The zone at the last place of a part of a held list. -/
theorem zoneAt_last (present : span ≠ []) {n : Nat} (place : n + 1 = behind.length + span.length) :
    zoneAt (behind ++ (span ++ beyond)) n = span.getLast?.map (·.zone) := by
  have := List.length_pos_iff.2 present
  rw [zoneAt, List.getLast?_eq_getElem?, List.getElem?_append_right (by omega), List.getElem?_append_left (by omega)]
  congr 2
  omega

/-! ## The reach (R101, R102) -/

/-- A held list read from the front to the reach: the entries behind the front, those from the front to the reach, both included, and those beyond it. -/
structure ReachOf (s : State) (held behind span beyond : List HeldEntry) : Prop where
  split : held = behind ++ (span ++ beyond)
  present : span ≠ []
  place : s.reach held behind.length + 1 = behind.length + span.length

/-- Where a run of no-stop entries ends a held list, it begins right after the last stop-allowed entry. -/
theorem runStart_after {run : List HeldEntry} {e : HeldEntry} {w : Nat} (split : held.take (w + 1) = behind ++ e :: run)
    (stopAllowed : s.noStop e.zone = false) (noStop : ∀ x ∈ run, s.noStop x.zone = true) :
    s.runStart held w = behind.length + 1 := by
  unfold State.runStart
  rw [split, List.reverse_append, List.reverse_cons, List.append_assoc, List.dropWhile_append_of_pos (by simpa using noStop)]
  simp [stopAllowed]

theorem runStart_le {run : List HeldEntry} {w : Nat} (split : held.take (w + 1) = behind ++ run)
    (noStop : ∀ x ∈ run, s.noStop x.zone = true) : s.runStart held w ≤ behind.length := by
  unfold State.runStart
  rw [split, List.reverse_append, List.dropWhile_append_of_pos (by simpa using noStop)]
  simpa using (List.dropWhile_suffix (fun e : HeldEntry => s.noStop e.zone) (l := behind.reverse)).length_le

/-- The reach stands where `reaches` says: at the walk's last stop-allowed entry, or at the front where the walk has none. -/
theorem reachOf_of_walk {passed rest : List HeldEntry} (walk : WalkOf s held behind front passed rest)
    (reaches : s.reaches front passed span) : ∃ beyond, ReachOf s held behind span beyond := by
  obtain ⟨split, -, passing, stops⟩ := walk
  have ahead : held.drop (behind.length + 1) = passed ++ rest := by simp [split]
  have walked : s.walkEnd held behind.length = behind.length + passed.length := by
    rw [State.walkEnd, ahead, (walk_append passing stops).1]
  have upTo : held.take (s.walkEnd held behind.length + 1) = behind ++ front :: passed := by
    have whole : held = (behind ++ front :: passed) ++ rest := by simp [split]
    rw [walked, whole]
    exact List.take_left' (by simp; omega)
  rcases reaches with ⟨l, f, r, line, stopAllowed, noStop, rfl⟩ | ⟨noStop, rfl⟩
  · have start := runStart_after (behind := behind ++ l) (by rw [upTo, line, List.append_assoc]) stopAllowed noStop
    refine ⟨r ++ rest, ?_, by simp, ?_⟩
    · rw [split, ← List.cons_append, line]; simp
    · rw [State.reach, start, List.length_append, if_pos (by omega)]
      simp; omega
  · have start := runStart_le upTo noStop
    refine ⟨passed ++ rest, split, by simp, ?_⟩
    rw [State.reach, if_neg (by omega)]
    simp

namespace ReachOf
variable (reached : ReachOf s held behind span beyond)
include reached

theorem zoneAt_reach : zoneAt held (s.reach held behind.length) = span.getLast?.map (·.zone) := by
  have place := reached.place
  rw [reached.split] at place ⊢
  exact zoneAt_last reached.present place

theorem drop_reach : held.drop (s.reach held behind.length + 1) = beyond := by
  rw [reached.place, reached.split, ← List.append_assoc]
  exact List.drop_left' List.length_append

theorem placeBetween_eq (y : ZoneId) : placeBetween held behind.length (s.reach held behind.length) y =
    (span.findIdx? (fun e => e.zone == y)).map (· + behind.length) := by
  have span_eq : (held.take (s.reach held behind.length + 1)).drop behind.length = span := by
    rw [reached.place, reached.split, ← List.append_assoc, List.take_left' List.length_append, List.drop_left]
  rw [placeBetween, span_eq]

theorem placeBetween_none {y : ZoneId} (absent : ∀ e ∈ span, e.zone ≠ y) :
    placeBetween held behind.length (s.reach held behind.length) y = none := by
  rw [reached.placeBetween_eq, List.findIdx?_eq_none_iff.2 fun e m => by simpa using absent e m]
  rfl

theorem placeBetween_some {l r : List HeldEntry} {m : HeldEntry} (part : span = l ++ m :: r) (first : ∀ e ∈ l, e.zone ≠ m.zone) :
    placeBetween held behind.length (s.reach held behind.length) m.zone = some (l.length + behind.length) := by
  have before : l.findIdx? (fun e => e.zone == m.zone) = none := List.findIdx?_eq_none_iff.2 fun e i => by simpa using first e i
  rw [reached.placeBetween_eq, part, List.findIdx?_append, before]
  simp [List.findIdx?_cons]

/-- The entries from a place between the front and the reach on. -/
theorem drop_between {l r : List HeldEntry} (part : span = l ++ r) : held.drop (l.length + behind.length) = r ++ beyond := by
  rw [reached.split, part, ← List.append_assoc, ← List.append_assoc, List.append_assoc (behind ++ l)]
  exact List.drop_left' (by simp; omega)

end ReachOf
end

/-! ## What an order gives (R103 to R107) -/

/-- The clip reason where a walk cut by a block falls short (R107). -/
def State.cutReason (s : State) (after : List HeldEntry) (otherwise : ClipReason) : ClipReason :=
  if s.cutByBlock after then .blocked else otherwise

section
variable {s : State} {c : CarrierId} {held behind span beyond : List HeldEntry} {o : Order}

theorem readOrderStamp_hold {i : Nat} (kind : o.kind = .hold) : s.readOrderStamp c held i o = (zoneAt held i, .none) := by
  unfold State.readOrderStamp
  rw [kind]

theorem readOrderStamp_untargeted {i : Nat} (kind : o.kind = .goTo) (untargeted : 240 ≤ o.target.toNat) :
    s.readOrderStamp c held i o = (zoneAt held i, .offRoute) := by
  have : o.targetZone = none := dif_neg (by omega)
  unfold State.readOrderStamp
  rw [kind, this]

namespace ReachOf
variable (reached : ReachOf s held behind span beyond)
include reached

theorem stamp_goFull (kind : o.kind = .goFull) : s.readOrderStamp c held behind.length o =
    (span.getLast?.map (·.zone), s.cutReason (held.drop (behind.length + 1)) .none) := by
  unfold State.readOrderStamp
  rw [kind, ← reached.zoneAt_reach]
  rfl

/-- A target between the front and the reach whose passage has its exit there too (R104). -/
theorem stamp_goTo_exit {l v w : List HeldEntry} {m x : HeldEntry} {r : List HeldEntry} (kind : o.kind = .goTo)
    (target : o.targetZone = some m.zone) (part : span = l ++ m :: r) (first : ∀ e ∈ l, e.zone ≠ m.zone)
    (passage : m :: r = v ++ x :: w) (noStop : ∀ e ∈ v, s.noStop e.zone = true) (exit : s.noStop x.zone = false) :
    s.readOrderStamp c held behind.length o = (some x.zone, .none) := by
  have run : (held.drop (l.length + behind.length)).takeWhile (fun e => s.noStop e.zone) = v := by
    rw [reached.drop_between part, passage, List.append_assoc]
    exact (takeWhile_dropWhile_append noStop (by simp [exit])).1
  have upTo : span = l ++ v ++ x :: w := by rw [part, passage, List.append_assoc]
  have place : s.exitPlace held (l.length + behind.length) = l.length + behind.length + v.length := by rw [State.exitPlace, run]
  have within : s.exitPlace held (l.length + behind.length) ≤ s.reach held behind.length := by
    have := reached.place
    rw [upTo] at this
    simp at this
    omega
  have zone : zoneAt held (s.exitPlace held (l.length + behind.length)) = some x.zone := by
    have whole : held = behind ++ ((l ++ v ++ [x]) ++ (w ++ beyond)) := by rw [reached.split, upTo]; simp
    rw [place, whole, zoneAt_last (by simp) (by simp; omega)]
    simp
  unfold State.readOrderStamp
  rw [kind, target]
  dsimp only
  rw [reached.placeBetween_some part first]
  dsimp only
  rw [if_pos within, zone]

/-- A target between the front and the reach in a passage left open there (R104, log 38). -/
theorem stamp_goTo_open {l r : List HeldEntry} {m : HeldEntry} (kind : o.kind = .goTo) (target : o.targetZone = some m.zone)
    (part : span = l ++ m :: r) (first : ∀ e ∈ l, e.zone ≠ m.zone) (noStop : ∀ e ∈ m :: r, s.noStop e.zone = true) :
    s.readOrderStamp c held behind.length o =
      (span.getLast?.map (·.zone), s.cutReason (held.drop (behind.length + 1)) .none) := by
  have past : ¬s.exitPlace held (l.length + behind.length) ≤ s.reach held behind.length := by
    have := reached.place
    rw [part, List.length_append] at this
    rw [State.exitPlace, reached.drop_between part, List.takeWhile_append_of_pos noStop, List.length_append]
    omega
  unfold State.readOrderStamp
  rw [kind, target]
  dsimp only
  rw [reached.placeBetween_some part first, ← reached.zoneAt_reach]
  dsimp only
  rw [if_neg past]
  rfl

/-- A target past the reach, held or on the route ahead: the clip mode decides (R105). -/
theorem stamp_goTo_beyond {y : ZoneId} (kind : o.kind = .goTo) (target : o.targetZone = some y)
    (absent : ∀ e ∈ span, e.zone ≠ y) (ahead : (∃ e ∈ beyond, e.zone = y) ∨ s.onRouteAhead c y = true) :
    (s.readOrderStamp c held behind.length o).2 = s.cutReason (held.drop (behind.length + 1)) .beyondGrant ∧
    ((s.carrier c).clipMode = .saturate → (s.readOrderStamp c held behind.length o).1 = span.getLast?.map (·.zone)) ∧
    ((s.carrier c).clipMode = .refuse → (s.readOrderStamp c held behind.length o).1 = zoneAt held behind.length) := by
  have found : (beyond.any (fun e => e.zone == y) || s.onRouteAhead c y) = true := by simpa using ahead
  unfold State.readOrderStamp
  rw [kind, target]
  dsimp only
  rw [reached.placeBetween_none absent, reached.drop_reach, ← reached.zoneAt_reach]
  dsimp only
  rw [if_pos found]
  exact ⟨rfl, fun mode => by rw [mode], fun mode => by rw [mode]⟩

/-- A target that is neither held from the front on nor on the route ahead (R106). -/
theorem stamp_goTo_offRoute {y : ZoneId} (kind : o.kind = .goTo) (target : o.targetZone = some y)
    (absent : ∀ e ∈ span, e.zone ≠ y) (unheld : ∀ e ∈ beyond, e.zone ≠ y) (off : s.onRouteAhead c y = false) :
    s.readOrderStamp c held behind.length o = (zoneAt held behind.length, .offRoute) := by
  have nowhere : ¬(beyond.any (fun e => e.zone == y) || s.onRouteAhead c y) = true := by simpa [off] using unheld
  unfold State.readOrderStamp
  rw [kind, target]
  dsimp only
  rw [reached.placeBetween_none absent, reached.drop_reach]
  dsimp only
  rw [if_neg nowhere]

end ReachOf
end

/-! ## The cases of a stamp (R99, R100) -/

/-- None of the first five cases of R99 applies to a slot. -/
structure Movable (s : State) (c : CarrierId) : Prop where
  manned : (s.carrier c).state ≠ .vacant
  unmarked : s.stopMarker = false
  service : s.mode ≠ .safe
  sound : (s.carrier c).state ≠ .faulted
  linked : s.linkFlag = false

section
variable {s : State} {c : CarrierId} (movable : Movable s c)
include movable

theorem stampOf_of_frontIndex_none (index : s.frontIndex c = none) : s.stampOf c = ⟨s.front c, 0, .stop⟩ := by
  obtain ⟨manned, unmarked, service, sound, linked⟩ := movable
  unfold State.stampOf
  simp only [manned, unmarked, service, sound, linked, index, if_false, Bool.false_eq_true]
  cases s.front c <;> rfl

theorem stampOf_of_frontIndex {z : ZoneId} {i : Nat} (stands : s.front c = some z) (index : s.frontIndex c = some i) :
    (s.covered c = true → s.stampOf c = s.coveredStamp (s.carrier c).held i z) ∧
    (s.covered c = false → s.stampOf c =
      ⟨(s.readOrderStamp c (s.carrier c).held i (s.orderRead c)).1,
        lesserSpeed (s.orderRead c).speed (s.frontCap (s.carrier c).held i),
        (s.readOrderStamp c (s.carrier c).held i (s.orderRead c)).2⟩) := by
  obtain ⟨manned, unmarked, service, sound, linked⟩ := movable
  unfold State.stampOf
  simp only [manned, unmarked, service, sound, linked, stands, index, if_false, Bool.false_eq_true]
  exact ⟨fun covered => if_pos covered, fun uncovered => if_neg (by rw [uncovered]; exact nofun)⟩

end

section
variable {s : State} {held behind after : List HeldEntry} {front : HeldEntry}

theorem coveredStamp_standing (i : Nat) {z : ZoneId} (stopAllowed : s.noStop z = false) :
    s.coveredStamp held i z = ⟨some z, s.frontCap held i, .covered⟩ := by
  unfold State.coveredStamp
  simp [stopAllowed]

/-- The clear-through of a covered carrier in a junction (R100): as far as its passage's rest passes, to the exit at most. -/
theorem coveredStamp_through {a b : List HeldEntry} (noStop : s.noStop front.zone = true)
    (rest : s.restOfPassage after (a ++ b)) (passing : ∀ e ∈ a, e.status = .granted ∧ (s.zst e.zone).blocked = false)
    (stops : ∀ e, b.head? = some e → e.status = .pending ∨ (s.zst e.zone).blocked = true) :
    s.coveredStamp (behind ++ front :: after) behind.length front.zone =
      ⟨(front :: a).getLast?.map (·.zone), s.frontCap [front] 0, if s.cutByBlock (a ++ b) then .blocked else .covered⟩ := by
  obtain ⟨passage, beyond, line⟩ := passageRest_of_restOfPassage rest
  have ahead : (behind ++ front :: after).drop (behind.length + 1) = after := by simp
  have zone : zoneAt (behind ++ front :: after) (behind.length + a.length) = (front :: a).getLast?.map (·.zone) := by
    have whole : behind ++ front :: after = behind ++ ((front :: a) ++ (b ++ beyond)) := by rw [line]; simp
    rw [whole]
    exact zoneAt_last (by simp) (by simp; omega)
  unfold State.coveredStamp
  rw [ahead, passage]
  dsimp only
  rw [(walk_append passing stops).1, zone, frontCap_split, noStop]
  rfl

end

/-! ## Departures (R97, R109) -/

theorem carriers_departFloor (s : State) : s.departFloor.carriers = s.stampAll.carriers := by
  unfold State.departFloor
  simp

theorem carrier_departFloor (s : State) (c : CarrierId) : s.departFloor.carrier c = (s.carrier c).stamped (s.stampOf c) := by
  have stamped := fold_entry State.carrier (fun _ => ()) (fun t d => t.modCarrier d (fun r => r.stamped (s.stampOf d)))
    (fun _ d r => r.stamped (s.stampOf d)) (fun t d => carrier_modCarrier_self ..)
    (fun t d e other => carrier_modCarrier_of_ne _ _ other) (fun _ _ => rfl) allCarriers (List.nodup_finRange 48) s c
  rw [if_pos (show c ∈ allCarriers from List.mem_finRange c)] at stamped
  unfold State.carrier at stamped ⊢
  rw [carriers_departFloor]
  exact stamped

theorem stamped_eq (r : Carrier) (x : Stamp) : r.stamped x = { r with
    authority := x.authority, speed := x.speed, clip := x.clip
    flags := { r.flags with clip := r.flags.clip || decide (r.clip = .none ∧ x.clip ≠ .none) } } := by
  unfold Carrier.stamped
  split
  · next raised => simp [raised]
  · next kept => simp [kept]

/-! ## The statement, part by part -/

section
variable {s : State} {c : CarrierId} {behind passed rest : List HeldEntry} {front : HeldEntry}
  (walk : WalkOf s (s.carrier c).held behind front passed rest)
include walk

theorem zoneAt_front : zoneAt (s.carrier c).held behind.length = some front.zone := by
  rw [walk.split]
  simp [zoneAt]

/-- The clip reason of a walk, as the entries after it give it. -/
theorem cutReason_of_walk {cut : ClipReason → ClipReason} (blocked : s.cutAt rest → ∀ x, cut x = .blocked)
    (free : ¬s.cutAt rest → ∀ x, cut x = x) (x : ClipReason) :
    s.cutReason ((s.carrier c).held.drop (behind.length + 1)) x = cut x := by
  have ahead : (s.carrier c).held.drop (behind.length + 1) = passed ++ rest := by simp [walk.split]
  obtain ⟨-, hit⟩ := walk_append walk.passes walk.stops
  rw [ahead, State.cutReason]
  split
  · next stopped => exact (blocked (hit.1 stopped) x).symm
  · next clear => exact (free (fun stopped => clear (hit.2 stopped)) x).symm

variable (movable : Movable s c) (stands : s.front c = some front.zone)
include movable stands

theorem stamp_of_covered (covered : s.covered c = true) :
    (s.noStop front.zone = false → s.stampOf c = ⟨some front.zone, s.frontCap [front] 0, .covered⟩) ∧
    ∀ a b, s.noStop front.zone = true → s.restOfPassage (passed ++ rest) (a ++ b) →
      (∀ e ∈ a, e.status = .granted ∧ (s.zst e.zone).blocked = false) →
      (∀ e, b.head? = some e → e.status = .pending ∨ (s.zst e.zone).blocked = true) →
      (s.stampOf c).authority = (front :: a).getLast?.map (·.zone) ∧ (s.stampOf c).speed = s.frontCap [front] 0 ∧
      (s.cutAt b → (s.stampOf c).clip = .blocked) ∧ (¬s.cutAt b → (s.stampOf c).clip = .covered) := by
  have index := frontIndex_of_split walk.split walk.first stands
  rw [(stampOf_of_frontIndex movable stands index).1 covered, walk.split]
  refine ⟨fun stopAllowed => ?_, fun a b noStop passage passing stops => ?_⟩
  · rw [coveredStamp_standing _ stopAllowed, frontCap_split]
  · rw [coveredStamp_through noStop passage passing stops, ← (walk_append passing stops).2]
    exact ⟨rfl, rfl, fun cut => if_pos cut, fun uncut => if_neg uncut⟩

theorem stamp_of_uncovered (uncovered : s.covered c = false) : s.stampOf c =
    ⟨(s.readOrderStamp c (s.carrier c).held behind.length (s.orderRead c)).1,
      lesserSpeed (s.orderRead c).speed (s.frontCap [front] 0),
      (s.readOrderStamp c (s.carrier c).held behind.length (s.orderRead c)).2⟩ := by
  have index := frontIndex_of_split walk.split walk.first stands
  have cap : s.frontCap (s.carrier c).held behind.length = s.frontCap [front] 0 := by rw [walk.split, frontCap_split]
  rw [(stampOf_of_frontIndex movable stands index).2 uncovered, cap]

end

/-- Settles O47: the cases of R99 in their order, then the stamp of a covered carrier, and that of each order by where its target stands to the reach. -/
theorem theStampersBaseCases : Obligations.TheStampersBaseCases := by
  refine fun s c => ⟨?stamp, (carrier_departFloor s c).trans (stamped_eq ..)⟩
  by_cases vacant : (s.carrier c).state = .vacant
  · rw [if_pos vacant]
    exact if_pos vacant
  rw [if_neg vacant]
  by_cases marked : s.stopMarker = true
  · rw [if_pos marked]
    exact (if_neg vacant).trans (if_pos marked)
  rw [if_neg marked]
  by_cases safe : s.mode = .safe
  · rw [if_pos safe]
    exact (if_neg vacant).trans ((if_neg marked).trans (if_pos safe))
  rw [if_neg safe]
  by_cases faulted : (s.carrier c).state = .faulted
  · rw [if_pos faulted]
    exact (if_neg vacant).trans ((if_neg marked).trans ((if_neg safe).trans (if_pos faulted)))
  rw [if_neg faulted]
  by_cases unlinked : s.linkFlag = true
  · rw [if_pos unlinked]
    exact (if_neg vacant).trans ((if_neg marked).trans ((if_neg safe).trans ((if_neg faulted).trans (if_pos unlinked))))
  rw [if_neg unlinked]
  have movable : Movable s c := ⟨vacant, by simpa using marked, safe, faulted, by simpa using unlinked⟩
  refine ⟨fun unplaced => ?_, fun z stands => ⟨fun unheld => ?_, ?_⟩⟩
  · rw [stampOf_of_frontIndex_none movable (by unfold State.frontIndex; rw [unplaced]), unplaced]
  · rw [stampOf_of_frontIndex_none movable (frontIndex_of_not_held stands unheld), stands]
  rintro behind passed rest front cap cut walk rfl rfl blocked free
  refine ⟨fun covered => ?covered, fun uncovered => ?uncovered⟩
  case covered =>
    obtain ⟨standing, through⟩ := stamp_of_covered walk movable stands covered
    exact ⟨standing, fun passage a b noStop found split => through a b noStop (split ▸ found)⟩
  case uncovered =>
    rw [stamp_of_uncovered walk movable stands uncovered]
    refine ⟨rfl, fun hold => ?_, fun span reaches => ?_⟩
    · rw [readOrderStamp_hold hold]
      exact ⟨zoneAt_front walk, rfl⟩
    obtain ⟨beyond, reached⟩ := reachOf_of_walk walk reaches
    have reason := cutReason_of_walk walk blocked free
    refine ⟨fun full => ?goFull, fun goTo => ⟨fun untargeted => ?untargeted, fun y target => ⟨?within, ?past⟩⟩⟩
    case goFull =>
      rw [reached.stamp_goFull full]
      exact ⟨rfl, reason _⟩
    case untargeted =>
      rw [readOrderStamp_untargeted goTo untargeted]
      exact ⟨zoneAt_front walk, rfl⟩
    case within =>
      rintro l m r part rfl first
      have target := (targetZone_iff ..).2 target
      refine ⟨fun v x w passage noStop exit => ?_, fun noStop => ?_⟩
      · rw [reached.stamp_goTo_exit goTo target part first passage noStop exit]
        exact ⟨rfl, rfl⟩
      · rw [reached.stamp_goTo_open goTo target part first noStop]
        exact ⟨rfl, reason _⟩
    case past =>
      intro absent others split
      have target := (targetZone_iff ..).2 target
      obtain rfl : others = beyond := by simpa using split.symm.trans reached.split
      refine ⟨fun ahead => ?_, fun unheld off => ?_⟩
      · obtain ⟨clip, saturate, refuse⟩ := reached.stamp_goTo_beyond goTo target absent ahead
        exact ⟨clip.trans (reason _), saturate, fun mode => (refuse mode).trans (zoneAt_front walk)⟩
      · rw [reached.stamp_goTo_offRoute goTo target absent unheld off]
        exact ⟨zoneAt_front walk, rfl⟩

end Sys2Proof.Machine
end

section
/-! SUPPORT. Validated reports (R111, R113, R116 to R118): the report replaced, the fault that a new one raises, and progress; and what a fault and progress leave of the tables that a floor frame is read by. -/

namespace Sys2Proof.Machine

/-! ## What a fault and progress leave -/

/-- What no block of a floor frame changes: the zone records, the ports, the partner's frame number, the clear persistence and the mode. -/
structure PortsKept (s t : State) : Prop where
  zones : t.zones = s.zones
  floorPort : t.floorPort = s.floorPort
  dispatchPort : t.dispatchPort = s.dispatchPort
  floorPartner : t.floorPartner = s.floorPartner
  clearPersistence : t.clearPersistence = s.clearPersistence
  mode : t.mode = s.mode

/-- What a fault, a release and a claim pass leave of the tables that a floor frame is read by: beside the ports, the inputs and the validator. -/
structure FrameReadersKept (s t : State) : Prop extends PortsKept s t where
  inputs : ∀ f, (t.fieldSlot f).inputs = (s.fieldSlot f).inputs
  validators : t.validators = s.validators

theorem PortsKept.refl (s : State) : PortsKept s s := ⟨rfl, rfl, rfl, rfl, rfl, rfl⟩

theorem PortsKept.trans {s t u : State} (h : PortsKept s t) (k : PortsKept t u) : PortsKept s u where
  zones := k.zones.trans h.zones
  floorPort := k.floorPort.trans h.floorPort
  dispatchPort := k.dispatchPort.trans h.dispatchPort
  floorPartner := k.floorPartner.trans h.floorPartner
  clearPersistence := k.clearPersistence.trans h.clearPersistence
  mode := k.mode.trans h.mode

/-- The engine changes no port. -/
theorem EngineFrame.portsKept {s t : State} (h : EngineFrame s t) : PortsKept s t :=
  ⟨h.zones, h.floorPort, h.dispatchPort, h.floorPartner, h.clearPersistence, h.mode⟩

/-- The engine changes nothing that a floor frame is read by. -/
theorem EngineFrame.readersKept {s t : State} (h : EngineFrame s t) : FrameReadersKept s t :=
  { h.portsKept with inputs := h.inputs, validators := h.validators }

namespace FrameReadersKept

theorem refl (s : State) : FrameReadersKept s s := (EngineFrame.refl s).readersKept

theorem trans {s t u : State} (h : FrameReadersKept s t) (k : FrameReadersKept t u) : FrameReadersKept s u :=
  { h.toPortsKept.trans k.toPortsKept with
    inputs := fun f => (k.inputs f).trans (h.inputs f)
    validators := k.validators.trans h.validators }

theorem modCarrier (s : State) (c : CarrierId) (f : Carrier → Carrier) : FrameReadersKept s (s.modCarrier c f) :=
  { refl s with }

theorem validator {s t : State} (h : FrameReadersKept s t) (c : CarrierId) : t.validator c = s.validator c := by
  unfold State.validator
  rw [h.validators]

theorem giveZone (s : State) (c : CarrierId) (z : ZoneId) (atRear : Bool) : FrameReadersKept s (s.giveZone c z atRear) := by
  have joined (t : State) : FrameReadersKept t (t.joinZoneCorridor c z) := by
    rw [joinZoneCorridor_only]
    exact { refl t with }
  refine trans (trans ?_ (EngineFrame.setHolder _ z (some c)).readersKept) (joined _)
  exact modCarrier s c _

theorem freezeZone (s : State) (c : CarrierId) (z : ZoneId) (atRear : Bool) : FrameReadersKept s (s.freezeZone c z atRear) := by
  unfold State.freezeZone
  split
  · exact modCarrier ..
  · split
    · exact giveZone ..
    · exact refl s

theorem freeze (s : State) (c : CarrierId) : FrameReadersKept s (s.freeze c) := by
  have rear : FrameReadersKept s (s.freezeRear c) := by
    unfold State.freezeRear
    split
    · split
      · exact refl s
      · exact freezeZone ..
    · exact refl s
  unfold State.freeze State.freezeFront
  refine rear.trans ?_
  split
  · exact freezeZone ..
  · exact refl _

theorem applyPolicy (s : State) (c : CarrierId) (k : FaultKind) : FrameReadersKept s (s.applyPolicy c k) := by
  rw [applyPolicy_only]
  exact { refl s with }

/-- A first fault, along its steps (R134). -/
theorem firstFault (s : State) (c : CarrierId) (k : FaultKind) : FrameReadersKept s (s.firstFault c k) := by
  unfold State.firstFault
  extract_lets s1 s2 s3 s4 s5 s6 s7 s8
  have captured : FrameReadersKept s s1 := modCarrier s c _
  have dequeued : FrameReadersKept s1 s2 := by
    unfold s2
    split
    · exact ((EngineFrame.leaveQueue s1 c).trans (.clearWait _ c)).readersKept
    · exact refl s1
  have frozen : FrameReadersKept s3 s4 := by
    unfold s4
    split
    · exact freeze s3 c
    · exact refl s3
  have released : FrameReadersKept s4 s6 := ((EngineFrame.leaveClaim s4 c).trans (.releaseAll s5 c _)).readersKept
  have refrozen : FrameReadersKept s6 s7 := by
    unfold s7
    split
    · exact (freeze s6 c).trans (modCarrier _ c _)
    · exact refl s6
  have detached : FrameReadersKept s7 s8 := by
    unfold s8
    split
    · exact ((EngineFrame.detachRoute s7 c).trans (.undirect _ c)).readersKept
    · exact refl s7
  have marked : FrameReadersKept s8 (((s8.breakWatch c).flagState c).flagFault c) :=
    ((EngineFrame.breakWatch s8 c).trans (.flagState _ c)).readersKept.trans (modCarrier _ c _)
  have faulted : FrameReadersKept s s4 := ((captured.trans dequeued).trans (modCarrier s2 c _)).trans frozen
  exact (((faulted.trans released).trans refrozen).trans (detached.trans marked)).trans (applyPolicy _ c k)

theorem raiseFault (s : State) (c : CarrierId) (k : FaultKind) : FrameReadersKept s (s.raiseFault c k) := by
  unfold State.raiseFault
  split
  case h_1 => exact refl s
  case h_2 =>
    unfold State.repeatFault
    exact trans (t := s.captureFault c k) (modCarrier s c _) (modCarrier _ c _)
  all_goals exact firstFault s c k

theorem progress (s : State) (c : CarrierId) : FrameReadersKept s (s.progress c) := by
  unfold State.progress
  refine trans ?_ (EngineFrame.runPassIfAdvancing _ c).readersKept
  split
  · exact refl s
  · exact (EngineFrame.releaseAll s c _).readersKept

theorem actOnReport (s : State) (c : CarrierId) (r : ReadReport) : FrameReadersKept s (s.actOnReport c r) := by
  have movable (p : Report) : FrameReadersKept s (match s.reportFault c p with
      | some k => s.raiseFault c k
      | none => s.progress c) := by
    split
    · exact raiseFault ..
    · exact progress ..
  cases r with
  | absent => exact refl s
  | present p =>
    unfold State.actOnReport
    dsimp only
    split
    case h_1 => exact refl s
    case h_2 => exact refl s
    all_goals exact movable p

end FrameReadersKept

/-! ## A validated report replaced (R111, R113, R116) -/

section
variable (s : State) (c : CarrierId)

/-- The flag that R10 gives a zone, by the carriers that stand in zones. -/
def ZoneState.blockedFlag (x : ZoneState) (stands : CarrierId → ZoneId → Bool) (z : ZoneId) : Bool :=
  match x.holder with
  | none => false
  | some d => x.field == .unclear && !stands d z

theorem blockedFlag_of_holder {x : ZoneState} {d : CarrierId} (held : x.holder = some d) (s : State) (z : ZoneId) :
    x.blockedFlag s.standsIn z = decide (x.field = .unclear ∧ s.front d ≠ some z ∧ s.rear d ≠ some z) := by
  unfold ZoneState.blockedFlag
  rw [held, Bool.eq_iff_iff]
  simp only [State.standsIn, Bool.and_eq_true, beq_iff_eq, Bool.not_eq_true', Bool.or_eq_false_iff, beq_eq_false_iff_ne,
    decide_eq_true_eq]

theorem blockedFlag_of_free {x : ZoneState} (free : x.holder = none) (stands : CarrierId → ZoneId → Bool) (z : ZoneId) :
    x.blockedFlag stands z = false := by
  unfold ZoneState.blockedFlag
  rw [free]

/-- A zone's state once the flag of R10 has been set anew. -/
def ZoneState.reblocked (x : ZoneState) (stands : CarrierId → ZoneId → Bool) (z : ZoneId) : ZoneState :=
  { x with blocked := x.blockedFlag stands z }

theorem zst_recomputeBlocked_self (z : ZoneId) : (s.recomputeBlocked z).zst z = (s.zst z).reblocked s.standsIn z := zst_setZst_self ..

/-- A zone in which the validated zones of a carrier are looked at again (R10, R128). -/
def State.recomputeIfHeld (s : State) (c : CarrierId) (z : ZoneId) : State :=
  if s.holder z = some c then (s.recomputeBlocked z).recomputeOutput z else s

theorem recomputeHeld_eq : s.recomputeHeld c = allZones.foldl (State.recomputeIfHeld · c ·) s := rfl

theorem recomputeIfHeld_only (z : ZoneId) : s.recomputeIfHeld c z = { s with
    zoneStates := (s.recomputeIfHeld c z).zoneStates, fieldSlots := (s.recomputeIfHeld c z).fieldSlots } := by
  unfold State.recomputeIfHeld State.recomputeOutput
  split
  · rw [recomputeBinding_only]
    rfl
  · rfl

theorem recomputeHeld_only : s.recomputeHeld c = { s with
    zoneStates := (s.recomputeHeld c).zoneStates, fieldSlots := (s.recomputeHeld c).fieldSlots } := by
  rw [recomputeHeld_eq]
  exact foldList_keeps (P := fun t => t = { s with zoneStates := t.zoneStates, fieldSlots := t.fieldSlots }) (State.recomputeIfHeld · c ·)
    (fun t z h => by rw [recomputeIfHeld_only, h]) allZones rfl

theorem carrier_recomputeHeld (d : CarrierId) : (s.recomputeHeld c).carrier d = s.carrier d := by
  have only := recomputeHeld_only s c
  generalize s.recomputeHeld c = t at only ⊢
  rw [only]
  rfl

theorem inputs_recomputeHeld (f : FieldSlotId) : ((s.recomputeHeld c).fieldSlot f).inputs = (s.fieldSlot f).inputs :=
  fold_field (fun t : State => (t.fieldSlot f).inputs) (State.recomputeIfHeld · c ·)
    (fun t z => by
      unfold State.recomputeIfHeld State.recomputeOutput
      split
      · exact inputs_recomputeBinding ..
      · rfl) allZones s

theorem zst_recomputeHeld (z : ZoneId) :
    (s.recomputeHeld c).zst z = if s.holder z = some c then (s.zst z).reblocked s.standsIn z else s.zst z := by
  have entry := fold_entry State.zst State.standsIn (State.recomputeIfHeld · c ·)
    (fun stands z x => if x.holder = some c then x.reblocked stands z else x)
    (fun t z => by
      unfold State.recomputeIfHeld State.recomputeOutput State.holder
      split
      · rw [zst_recomputeBinding, zst_recomputeBlocked_self]
      · rfl)
    (fun t z w other => by
      unfold State.recomputeIfHeld State.recomputeOutput State.recomputeBlocked
      split
      · rw [zst_recomputeBinding, zst_setZst, if_neg other]
      · rfl)
    (fun t z => by rw [recomputeIfHeld_only]; rfl) allZones (List.nodup_finRange 240) s z
  rwa [if_pos (show z ∈ allZones from List.mem_finRange z)] at entry

/-- A carrier's validated report replaced, and its zones looked at again (R113, R116). -/
def State.replaceReport (s : State) (c : CarrierId) (r : ReadReport) : State :=
  (s.modCarrier c (fun x => { x with report := x.report.replaced r })).recomputeHeld c

theorem reportReplaced (r : ReadReport) : ReportReplaced s (s.replaceReport c r) c ((s.carrier c).report.replaced r) where
  carrier := by rw [State.replaceReport, carrier_recomputeHeld, carrier_modCarrier_self]
  others d other := by rw [State.replaceReport, carrier_recomputeHeld, carrier_modCarrier_of_ne s _ other]
  zones z := by
    rw [State.replaceReport, zst_recomputeHeld, holder_modCarrier, zst_modCarrier]
    by_cases held : s.holder z = some c
    · rw [if_pos held, if_pos held, ZoneState.reblocked, blockedFlag_of_holder (d := c) held, State.front, State.rear,
        carrier_modCarrier_self]
    · rw [if_neg held, if_neg held]
  inputs f := inputs_recomputeHeld _ c f
  rest := by
    have only := recomputeHeld_only (s.modCarrier c (fun x => { x with report := x.report.replaced r })) c
    unfold State.replaceReport
    generalize (s.modCarrier c _).recomputeHeld c = t at only ⊢
    rw [only]
    rfl

/-! ## Validation (R113, R116) -/

/-- A PRESENT report is new beside any other validated report. -/
theorem isNew_present (v : Validated) (p : Report) : v.isNew (.present p) = true ↔ v ≠ ⟨true, p⟩ := by
  obtain ⟨present, report⟩ := v
  cases present <;> simp [Validated.isNew]

variable {s c}

theorem validate_of_old {r : ReadReport} (old : (s.carrier c).report.isNew r = false) : s.validate c r = s := by
  rw [State.validate, old]
  rfl

theorem validate_of_new {r : ReadReport} (new : (s.carrier c).report.isNew r = true) :
    s.validate c r = (s.replaceReport c r).actOnReport c r := by
  rw [State.validate, if_pos new]
  rfl

/-! ## Acting on a new report (R116 to R118) -/

section
variable {p : Report}

/-- The report of a VACANT or FAULTED carrier is not acted on (R116). -/
theorem actOnReport_of_unchecked (unchecked : (s.carrier c).state = .vacant ∨ (s.carrier c).state = .faulted) :
    s.actOnReport c (.present p) = s := by
  rcases unchecked with state | state <;> simp [State.actOnReport, state]

theorem actOnReport_of_checked (notVacant : (s.carrier c).state ≠ .vacant) (notFaulted : (s.carrier c).state ≠ .faulted) :
    s.actOnReport c (.present p) = match s.reportFault c p with
      | some k => s.raiseFault c k
      | none => s.progress c := by
  unfold State.actOnReport
  dsimp only
  split
  case h_1 vacant => exact absurd vacant notVacant
  case h_2 faulted => exact absurd faulted notFaulted
  all_goals rfl

/-- A report without a front or rear zone fails the first check of R117. -/
theorem reportFault_of_no_zone (no : p.front = none ∨ p.rear = none) : s.reportFault c p = some .localization := by
  unfold State.reportFault
  split
  · next front rear => rcases no with no | no <;> simp_all
  · rfl

section
variable {f b : ZoneId} (front : p.front = some f) (rear : p.rear = some b)
include front rear

theorem reportFault_of_not_granted (notGranted : s.holdsGranted c f = false ∨ s.holdsGranted c b = false) :
    s.reportFault c p = some .trespass := by
  unfold State.reportFault
  rw [front, rear]
  exact if_pos (by rcases notGranted with no | no <;> simp [no])

variable (frontGranted : s.holdsGranted c f = true) (rearGranted : s.holdsGranted c b = true)
include frontGranted rearGranted

theorem reportFault_of_reversed (reversed : heldIndex (s.carrier c).held f < heldIndex (s.carrier c).held b) :
    s.reportFault c p = some .localization := by
  unfold State.reportFault
  rw [front, rear]
  exact (if_neg (by simp [frontGranted, rearGranted])).trans (if_pos reversed)

theorem reportFault_of_ordered (ordered : heldIndex (s.carrier c).held b ≤ heldIndex (s.carrier c).held f) :
    s.reportFault c p = codeFault p.code := by
  unfold State.reportFault
  rw [front, rear]
  exact (if_neg (by simp [frontGranted, rearGranted])).trans (if_neg (Nat.not_lt.2 ordered))

end
end

/-- The faults of the codes 5 to 7 (R117). -/
theorem codeFault_of_le {code : Fin 8} (large : 5 ≤ code.val) : codeFault code = some .other := by
  revert code
  decide

/-- Progress: the entries before the new rear zone's are released, and then a carrier that is ADVANCING has a claim pass (R118, log 36). -/
theorem progress_eq {b : ZoneId} (rear : s.rear c = some b) {w : State}
    (released : w = ((s.carrier c).held.take (heldIndex (s.carrier c).held b)).foldl
      (fun v e => if v.holds c e.zone = true then v.release c e.zone else v) s) :
    s.progress c = if (w.carrier c).state = .advancing then w.runPass c else w := by
  rw [released, ← releaseAll_entries]
  unfold State.progress
  rw [rear]
  rfl

end

/-! ## The statement's part on new reports -/

section
variable {s u : State} {c : CarrierId} {p : Report}

/-- A new PRESENT report acted on, by the checks of R117 in their order and by R118, in the words of the state before it. -/
theorem act_on_new_report (replaced : ReportReplaced s u c ⟨true, p⟩) (notVacant : (s.carrier c).state ≠ .vacant)
    (notFaulted : (s.carrier c).state ≠ .faulted) :
    (p.front = none ∨ p.rear = none → u.actOnReport c (.present p) = u.raiseFault c .localization) ∧
    ∀ f b, p.front = some f → p.rear = some b →
      (s.holdsGranted c f = false ∨ s.holdsGranted c b = false → u.actOnReport c (.present p) = u.raiseFault c .trespass) ∧
      (s.holdsGranted c f = true → s.holdsGranted c b = true →
        (heldIndex (s.carrier c).held f < heldIndex (s.carrier c).held b →
          u.actOnReport c (.present p) = u.raiseFault c .localization) ∧
        (heldIndex (s.carrier c).held b ≤ heldIndex (s.carrier c).held f →
          (∀ k, codeFault p.code = some k → u.actOnReport c (.present p) = u.raiseFault c k) ∧
          (codeFault p.code = none → ∃ w : State,
            w = ((s.carrier c).held.take (heldIndex (s.carrier c).held b)).foldl
              (fun v e => if v.holds c e.zone = true then v.release c e.zone else v) u ∧
            u.actOnReport c (.present p) = if (w.carrier c).state = .advancing then w.runPass c else w))) := by
  have state : (u.carrier c).state = (s.carrier c).state := by rw [replaced.carrier]
  have held : (u.carrier c).held = (s.carrier c).held := by rw [replaced.carrier]
  have granted (z : ZoneId) : u.holdsGranted c z = s.holdsGranted c z := by unfold State.holdsGranted; rw [held]
  rw [actOnReport_of_checked (state ▸ notVacant) (state ▸ notFaulted)]
  simp only [← granted, ← held]
  refine ⟨fun no => by rw [reportFault_of_no_zone no], fun f b front rear => ⟨fun no => ?_, fun hf hb =>
    ⟨fun reversed => ?_, fun ordered => ?_⟩⟩⟩
  · rw [reportFault_of_not_granted front rear no]
  · rw [reportFault_of_reversed front rear hf hb reversed]
  · rw [reportFault_of_ordered front rear hf hb ordered]
    refine ⟨fun k fault => by rw [fault], fun sound => ⟨_, rfl, ?_⟩⟩
    rw [sound]
    exact progress_eq (by rw [State.rear, replaced.carrier]; exact rear) rfl

end

end Sys2Proof.Machine
end

section
/-! SUPPORT. The validator at a floor frame (R112 to R115, R157): a report slot read, the comparison with the candidate, the silence count, and what taking the reports leaves. -/

namespace Sys2Proof.Machine

/-! ## A report slot read (R111, R157) -/

theorem reportZone_val (b : Byte) : (reportZone b).map (·.val) = if b.toNat < 240 then some b.toNat else none := by
  unfold reportZone zoneOf byteBelow
  split <;> rfl

/-- A report slot is read as its three bytes say. -/
theorem readReport_bytes (b : ReportBytes) :
    (b.status.getLsbD 7 = false → readReport b = .absent) ∧
    (b.status.getLsbD 7 = true → ∃ p : Report, readReport b = .present p ∧
      p.front.map (·.val) = (if b.front.toNat < 240 then some b.front.toNat else none) ∧
      p.rear.map (·.val) = (if b.rear.toNat < 240 then some b.rear.toNat else none) ∧
      p.motion = (if b.status.getLsbD 6 = true then .moving else .stopped) ∧ p.code.val = b.status.toNat % 8) := by
  refine ⟨fun absent => if_neg (by rw [absent]; exact Bool.false_ne_true), fun present => ⟨_, if_pos present, ?_⟩⟩
  exact ⟨reportZone_val b.front, reportZone_val b.rear, rfl, by simp⟩

/-! ## The comparison (R113, R114) -/

section
variable {s : State} {c : CarrierId} {r : ReadReport}

theorem setValidator_validator (s : State) (c : CarrierId) : s.setValidator c (s.validator c) = s := by
  have same : tset s.validators c (s.validator c) = s.validators := table_ext fun d => by
    rw [tget_tset]
    split
    · next here => rw [here]; rfl
    · rfl
  unfold State.setValidator
  rw [same]

theorem compare_of_empty (empty : (s.validator c).candidate = none) :
    s.compare c r = s.setValidator c { s.validator c with candidate := some r } := by
  simp [State.compare, empty]

theorem compare_of_same (same : (s.validator c).candidate = some r) :
    s.compare c r = (s.setValidator c { s.validator c with instability := 0 }).validate c r := by
  simp [State.compare, same]

theorem compare_of_other {x : ReadReport} (candidate : (s.validator c).candidate = some x) (other : x ≠ r) :
    s.compare c r = s.differ c r := by
  simp [State.compare, candidate, other]

theorem differ_at_seven (seven : (s.validator c).instability = 7) :
    s.differ c r = (s.setValidator c { s.validator c with candidate := some r, instability := 8 }).raiseFault c .unstable := by
  simp [State.differ, seven]

theorem differ_off_seven (off : (s.validator c).instability ≠ 7) : s.differ c r =
    s.setValidator c { s.validator c with candidate := some r, instability := min ((s.validator c).instability + 1) 8 } := by
  simp [State.differ, off]

/-! ## The silence count (R115) -/

theorem countSilence_present (p : Report) :
    s.countSilence c (.present p) = s.setValidator c { s.validator c with silence := 0 } := by
  unfold State.countSilence
  exact if_neg (by simp)

theorem countSilence_quiet (quiet : s.silenceAfter c .absent = (s.validator c).silence ∨ s.silenceAfter c .absent ≠ s.silenceLimit) :
    s.countSilence c .absent = s.setValidator c { s.validator c with silence := s.silenceAfter c .absent } :=
  if_neg fun ⟨_, changes, reaches⟩ => quiet.elim changes (· reaches)

theorem countSilence_lost (changes : s.silenceLimit ≠ (s.validator c).silence) (reaches : s.silenceAfter c .absent = s.silenceLimit) :
    s.countSilence c .absent = (s.setValidator c { s.validator c with silence := s.silenceLimit }).raiseFault c .lost := by
  unfold State.countSilence
  rw [reaches]
  exact if_pos ⟨rfl, changes, rfl⟩

theorem silenceAfter_absent : s.silenceAfter c .absent = min ((s.validator c).silence + 1) s.silenceLimit := rfl

/-! ## The statement's part on one report -/

theorem takeReport_by_case (s : State) (c : CarrierId) (r : ReadReport) : s.takeReport c r = (s.compare c r).countSilence c r ∧
    ((s.validator c).candidate = none → s.compare c r = s.setValidator c { s.validator c with candidate := some r }) ∧
    (∀ x, (s.validator c).candidate = some x → x ≠ r → (s.validator c).instability < 7 →
      s.compare c r = s.setValidator c
        { s.validator c with candidate := some r, instability := (s.validator c).instability + 1 }) ∧
    (∀ x, (s.validator c).candidate = some x → x ≠ r → (s.validator c).instability = 7 →
      s.compare c r = (s.setValidator c { s.validator c with candidate := some r, instability := 8 }).raiseFault c .unstable) ∧
    (∀ x, (s.validator c).candidate = some x → x ≠ r → (s.validator c).instability = 8 →
      s.compare c r = s.setValidator c { s.validator c with candidate := some r }) ∧
    ((s.validator c).candidate = some r →
      s.compare c r = (s.setValidator c { s.validator c with instability := 0 }).validate c r) ∧
    (∀ p, s.countSilence c (.present p) = s.setValidator c { s.validator c with silence := 0 }) ∧
    ((s.validator c).silence + 1 < s.silenceLimit →
      s.countSilence c .absent = s.setValidator c { s.validator c with silence := (s.validator c).silence + 1 }) ∧
    ((s.validator c).silence + 1 = s.silenceLimit ∨ s.silenceLimit < (s.validator c).silence →
      s.countSilence c .absent = (s.setValidator c { s.validator c with silence := s.silenceLimit }).raiseFault c .lost) ∧
    ((s.validator c).silence = s.silenceLimit → s.countSilence c .absent = s) := by
  refine ⟨rfl, compare_of_empty, fun x candidate other below => ?_, fun x candidate other seven => ?_, fun x candidate other eight => ?_,
    compare_of_same, countSilence_present, fun below => ?_, fun reaching => ?_, fun reached => ?_⟩
  · rw [compare_of_other candidate other, differ_off_seven (by omega), Nat.min_eq_left (by omega)]
  · rw [compare_of_other candidate other, differ_at_seven seven]
  · rw [compare_of_other candidate other, differ_off_seven (by omega), Nat.min_eq_right (by omega), ← eight]
  · have after : s.silenceAfter c .absent = (s.validator c).silence + 1 := Nat.min_eq_left (by omega)
    rw [countSilence_quiet (Or.inr (by omega)), after]
  · exact countSilence_lost (by omega) (Nat.min_eq_right (by omega))
  · have after : s.silenceAfter c .absent = (s.validator c).silence := by rw [silenceAfter_absent]; omega
    rw [countSilence_quiet (Or.inl after), after]
    exact setValidator_validator s c

end

/-! ## What taking a report leaves -/

/-- What taking a slot's report leaves: the ports, the inputs, and the other slots' validators. -/
structure OthersKept (s t : State) (c : CarrierId) : Prop extends PortsKept s t where
  inputs : ∀ f, (t.fieldSlot f).inputs = (s.fieldSlot f).inputs
  others : ∀ d, d ≠ c → t.validator d = s.validator d

section
variable {s t u : State} {c : CarrierId}

theorem OthersKept.trans (h : OthersKept s t c) (k : OthersKept t u c) : OthersKept s u c :=
  { h.toPortsKept.trans k.toPortsKept with
    inputs := fun f => (k.inputs f).trans (h.inputs f)
    others := fun d other => (k.others d other).trans (h.others d other) }

theorem FrameReadersKept.othersKept (h : FrameReadersKept s t) (c : CarrierId) : OthersKept s t c :=
  { h.toPortsKept with inputs := h.inputs, others := fun d _ => h.validator d }

theorem othersKept_setValidator (s : State) (c : CarrierId) (x : ValidatorSlot) : OthersKept s (s.setValidator c x) c :=
  { PortsKept.refl s with
    inputs := fun _ => rfl
    others := fun d other => by rw [validator_setValidator, if_neg other] }

theorem ReportReplaced.readersKept {v : Validated} (h : ReportReplaced s t c v) : FrameReadersKept s t := by
  have inputs := h.inputs
  rw [h.rest] at inputs ⊢
  exact { FrameReadersKept.refl s with inputs := inputs }

theorem FrameReadersKept.validate (s : State) (c : CarrierId) (r : ReadReport) : FrameReadersKept s (s.validate c r) := by
  cases new : (s.carrier c).report.isNew r with
  | false =>
    rw [validate_of_old new]
    exact .refl s
  | true =>
    rw [validate_of_new new]
    exact (reportReplaced s c r).readersKept.trans (.actOnReport ..)

/-- A validator written, and then nothing that touches a validator: the candidate is the one written. -/
theorem FrameReadersKept.candidate_written {x : ValidatorSlot} (h : FrameReadersKept (s.setValidator c x) t) :
    OthersKept s t c ∧ (t.validator c).candidate = x.candidate :=
  ⟨(othersKept_setValidator s c x).trans (h.othersKept c), by rw [h.validator, validator_setValidator_self]⟩

/-- The report read becomes the candidate, or is the candidate already (R113). -/
theorem compare_leaves (s : State) (c : CarrierId) (r : ReadReport) :
    OthersKept s (s.compare c r) c ∧ ((s.compare c r).validator c).candidate = some r := by
  cases candidate : (s.validator c).candidate with
  | none =>
    rw [compare_of_empty candidate]
    exact (FrameReadersKept.refl _).candidate_written
  | some x =>
    by_cases same : x = r
    · subst same
      rw [compare_of_same candidate, ← candidate]
      exact (FrameReadersKept.validate _ c _).candidate_written
    · rw [compare_of_other candidate same]
      by_cases seven : (s.validator c).instability = 7
      · rw [differ_at_seven seven]
        exact (FrameReadersKept.raiseFault _ c _).candidate_written
      · rw [differ_off_seven seven]
        exact (FrameReadersKept.refl _).candidate_written

/-- Counting the silence leaves the candidate (R115). -/
theorem countSilence_leaves (s : State) (c : CarrierId) (r : ReadReport) :
    OthersKept s (s.countSilence c r) c ∧ ((s.countSilence c r).validator c).candidate = (s.validator c).candidate := by
  unfold State.countSilence
  dsimp only
  split
  · exact (FrameReadersKept.raiseFault _ c _).candidate_written
  · exact (FrameReadersKept.refl _).candidate_written

theorem takeReport_leaves (s : State) (c : CarrierId) (r : ReadReport) :
    OthersKept s (s.takeReport c r) c ∧ ((s.takeReport c r).validator c).candidate = some r := by
  obtain ⟨compared, candidate⟩ := compare_leaves s c r
  obtain ⟨counted, kept⟩ := countSilence_leaves (s.compare c r) c r
  exact ⟨compared.trans counted, kept.trans candidate⟩

end

/-! ## What taking the 48 reports of a frame leaves (R112) -/

section
variable (s : State) (frame : List Byte)

/-- The report that a floor frame carries for a slot. -/
def reportIn (frame : List Byte) (c : CarrierId) : ReadReport := readReport (reportBytesAt frame c)

theorem ports_takeReports : PortsKept s (s.takeReports frame) :=
  foldList_keeps (P := PortsKept s) (fun t c => t.takeReport c (reportIn frame c))
    (fun t c h => h.trans (takeReport_leaves t c _).1.toPortsKept) allCarriers (.refl s)

theorem inputs_takeReports (f : FieldSlotId) : ((s.takeReports frame).fieldSlot f).inputs = (s.fieldSlot f).inputs :=
  fold_field (fun t : State => (t.fieldSlot f).inputs) (fun t c => t.takeReport c (reportIn frame c))
    (fun t c => (takeReport_leaves t c _).1.inputs f) allCarriers s

/-- Each slot's report of a frame is its candidate once they are taken (R113). -/
theorem candidate_takeReports (c : CarrierId) : ((s.takeReports frame).validator c).candidate = some (reportIn frame c) := by
  have entry := fold_entry (fun t c => (State.validator t c).candidate) (fun _ => ()) (fun t c => t.takeReport c (reportIn frame c))
    (fun _ c _ => some (reportIn frame c)) (fun t c => (takeReport_leaves t c _).2)
    (fun t c d other => congrArg _ ((takeReport_leaves t c _).1.others d other)) (fun _ _ => rfl)
    allCarriers (List.nodup_finRange 48) s c
  rwa [if_pos (show c ∈ allCarriers from List.mem_finRange c)] at entry

end

end Sys2Proof.Machine
end

section
/-! SUPPORT. The field monitor at a frame (R123 to R126): the inputs filtered, the zones that follow them, the wakes that hand the changes over, and a reading that leaves no input CLEAR, after which no zone is woken. -/

namespace Sys2Proof.Machine

/-! ## The inputs filtered (R124) -/

section
variable (s : State) (f : FieldSlotId) (read : FieldSlotId → LineId → Bool)

theorem output_setInput (g : FieldSlotId) (i o : LineId) (x : Input) : (s.setInput f i x).output g o = s.output g o := by
  unfold State.output State.setInput
  rw [fieldSlot_setFieldSlot]
  split
  · next here => rw [here]
  · rfl

/-- The inputs of one field slot take their readings. -/
def State.filterSlot (s : State) (n : Nat) (read : FieldSlotId → LineId → Bool) (f : FieldSlotId) : State :=
  allLines.foldl (fun t i => t.setInput f i ((t.input f i).take n (read f i))) s

theorem input_filterSlot_self (n : Nat) (i : LineId) : (s.filterSlot n read f).input f i = (s.input f i).take n (read f i) := by
  have entry := fold_entry (State.input · f ·) (fun _ => ()) (fun t i => t.setInput f i ((t.input f i).take n (read f i)))
    (fun _ i x => x.take n (read f i)) (fun t i => by rw [input_setInput, if_pos ⟨rfl, rfl⟩])
    (fun t i j other => by rw [input_setInput, if_neg (fun same => other same.2)]) (fun _ _ => rfl)
    allLines (List.nodup_finRange 8) s i
  rwa [if_pos (show i ∈ allLines from List.mem_finRange i)] at entry

theorem input_filterSlot_other {g : FieldSlotId} (other : g ≠ f) (n : Nat) (i : LineId) :
    (s.filterSlot n read f).input g i = s.input g i :=
  fold_field (State.input · g i) (fun t j => t.setInput f j ((t.input f j).take n (read f j)))
    (fun t j => by rw [input_setInput, if_neg (fun same => other same.1)]) allLines s

/-- Every input has taken its reading. -/
theorem input_filterInputs (i : LineId) : (s.filterInputs read).input f i = (s.input f i).take s.clearPersistence (read f i) := by
  have entry := fold_entry State.input (fun _ => ()) (State.filterSlot · s.clearPersistence read ·)
    (fun _ f inputs i => (inputs i).take s.clearPersistence (read f i)) (fun t f => funext (input_filterSlot_self t f read _))
    (fun t f g other => funext (input_filterSlot_other t f read other _)) (fun _ _ => rfl)
    allFieldSlots (List.nodup_finRange 16) s f
  rw [if_pos (show f ∈ allFieldSlots from List.mem_finRange f)] at entry
  exact congrFun entry i

theorem output_filterInputs (o : LineId) : (s.filterInputs read).output f o = s.output f o :=
  fold_field (State.output · f o) (State.filterSlot · s.clearPersistence read ·)
    (fun t g => fold_field (State.output · f o) (fun t i => t.setInput g i ((t.input g i).take s.clearPersistence (read g i)))
      (fun t i => output_setInput t g f i o _) allLines t) allFieldSlots s

end

/-! ## The zones that follow (R126 step 2) -/

section
variable (s u : State)

theorem zst_setFieldState_self (z : ZoneId) :
    (s.setFieldState z).zst z = ({ s.zst z with field := s.fieldValue z } : ZoneState).reblocked s.standsIn z := by
  unfold State.setFieldState
  rw [zst_recomputeBlocked_self, zst_setZst_self]
  rfl

theorem zst_setFieldState_other {z w : ZoneId} (other : w ≠ z) : (s.setFieldState z).zst w = s.zst w := by
  unfold State.setFieldState State.recomputeBlocked
  rw [zst_setZst, if_neg other, zst_setZst, if_neg other]

/-- A CLEAR zone is not blocked (R10). -/
theorem blockedFlag_of_clear {x : ZoneState} (clear : x.field = .clear) {stands : CarrierId → ZoneId → Bool} {z : ZoneId} :
    x.blockedFlag stands z = false := by
  unfold ZoneState.blockedFlag
  rw [clear]
  split <;> rfl

theorem inputChanged_iff (z : ZoneId) : s.inputChanged u z = true ↔ (u.zone z).defined = true ∧
    ∃ b, (u.zone z).fieldBinding = some b ∧ (s.input b.slot b.input).clear ≠ (u.input b.slot b.input).clear := by
  unfold State.inputChanged
  cases (u.zone z).fieldBinding <;> simp

theorem zst_fieldsFollow (z : ZoneId) : (s.fieldsFollow u).zst z =
    if s.inputChanged u z = true then ({ u.zst z with field := u.fieldValue z } : ZoneState).reblocked u.standsIn z else u.zst z := by
  have entry := fold_entry State.zst (fun t => (t.fieldValue, t.standsIn)) State.setFieldState
    (fun k z x => ({ x with field := k.1 z } : ZoneState).reblocked k.2 z) zst_setFieldState_self
    (fun t z w other => zst_setFieldState_other t other)
    (fun t z => Prod.ext (funext fun w => fieldValue_congr rfl rfl w) rfl)
    (allZones.filter (s.inputChanged u)) ((List.nodup_finRange 240).filter _) u z
  have mem : z ∈ allZones.filter (s.inputChanged u) ↔ s.inputChanged u z = true := by
    rw [List.mem_filter, and_iff_right (show z ∈ allZones from List.mem_finRange z)]
  simp only [mem] at entry
  exact entry

theorem fieldValue_of_bound {z : ZoneId} {b : FieldBinding} (defined : (u.zone z).defined = true)
    (bound : (u.zone z).fieldBinding = some b) : u.fieldValue z = if (u.input b.slot b.input).clear then .clear else .unclear := by
  unfold State.fieldValue
  rw [if_pos defined, bound]

variable {s u} (only : OnlyFieldSlots s u)
include only

/-- The zones follow the inputs as R126 and R10 say. -/
theorem fieldsFollow_follow : FieldsFollow s u (s.fieldsFollow u) := by
  have zone (z : ZoneId) : u.zone z = s.zone z := by rw [only.eq]; rfl
  have zst (z : ZoneId) : u.zst z = s.zst z := by rw [only.eq]; rfl
  have stands : u.standsIn = s.standsIn := by rw [only.eq]; rfl
  have changed (z : ZoneId) (b : FieldBinding) (defined : (s.zone z).defined = true) (bound : (s.zone z).fieldBinding = some b)
      (change : (s.input b.slot b.input).clear ≠ (u.input b.slot b.input).clear) : (s.fieldsFollow u).zst z =
      ({ s.zst z with field := if (u.input b.slot b.input).clear then .clear else .unclear } : ZoneState).reblocked s.standsIn z := by
    rw [← zone z] at defined bound
    rw [zst_fieldsFollow, if_pos ((inputChanged_iff s u z).2 ⟨defined, b, bound, change⟩), zst, stands,
      fieldValue_of_bound u defined bound]
  refine ⟨fun z b defined bound before after => ?cleared, fun z b defined bound before after => ?uncleared,
    fun z unchanged => ?others, (fieldsFollow_only s u).eq⟩
  case cleared =>
    rw [changed z b defined bound (by simp [before, after]), if_pos after, ZoneState.reblocked, blockedFlag_of_clear rfl]
  case uncleared =>
    rw [changed z b defined bound (by simp [before, after]), if_neg (by simp [after])]
    refine congrArg (fun blocked => ({ s.zst z with field := .unclear, blocked := blocked } : ZoneState)) ?_
    cases held : (s.zst z).holder with
    | none =>
      refine (blockedFlag_of_free (x := { s.zst z with field := .unclear }) held _ z).trans ?_
      rw [State.holder, held]
    | some d =>
      refine (blockedFlag_of_holder (x := { s.zst z with field := .unclear }) held s z).trans ?_
      rw [State.holder, held]
      simp only [true_and]
  case others =>
    rw [zst_fieldsFollow, if_neg, zst]
    rw [inputChanged_iff]
    rintro ⟨defined, b, bound, change⟩
    rw [zone] at defined bound
    exact change (unchanged b defined bound).symm

end

/-! ## The changes handed over (R126 step 3) -/

section
variable {s u v : State}

/-- A zone whose field state the inputs change is one whose input has changed. -/
theorem FieldsFollow.changed_of_cleared (h : FieldsFollow s u v) {z : ZoneId} (before : (s.zst z).field = .unclear)
    (after : (v.zst z).field = .clear) : ∃ b, (s.zone z).defined = true ∧ (s.zone z).fieldBinding = some b ∧
      (s.input b.slot b.input).clear = false ∧ (u.input b.slot b.input).clear = true := by
  by_cases changed : ∃ b, (s.zone z).defined = true ∧ (s.zone z).fieldBinding = some b ∧
      (s.input b.slot b.input).clear ≠ (u.input b.slot b.input).clear
  · obtain ⟨b, defined, bound, change⟩ := changed
    cases was : (s.input b.slot b.input).clear with
    | false => exact ⟨b, defined, bound, was, eq_true_of_ne_false fun stays => change (was.trans stays.symm)⟩
    | true =>
      have is : (u.input b.slot b.input).clear = false := eq_false_of_ne_true fun stays => change (was.trans stays.symm)
      rw [h.uncleared z b defined bound was is] at after
      cases after
  · have same : v.zst z = s.zst z := h.others z fun b defined bound =>
      Classical.byContradiction fun change => changed ⟨b, defined, bound, fun stays => change stays.symm⟩
    rw [same, before] at after
    cases after

variable (only : OnlyFieldSlots s u) (outputs : ∀ f o, u.output f o = s.output f o)
include only outputs

/-- The monitor hands the changes of the inputs over as R126 says. -/
theorem handedOver : HandedOver s u (s.handOver u) := by
  have follow := fieldsFollow_follow only
  refine ⟨only.eq, outputs, s.fieldsFollow u, follow, ?_⟩
  unfold State.handOver
  dsimp only
  rw [List.filter_filter, List.foldl_filter]
  congr 1
  funext w z
  refine ite_congr (propext ?_) (fun _ => rfl) (fun _ => rfl)
  rw [Bool.and_eq_true, Bool.and_eq_true, beq_iff_eq, beq_iff_eq]
  refine and_iff_left_of_imp fun ⟨before, after⟩ => ?_
  obtain ⟨b, defined, bound, was, is⟩ := follow.changed_of_cleared before after
  have zone : u.zone z = s.zone z := by rw [only.eq]; rfl
  exact (inputChanged_iff s u z).2 ⟨zone ▸ defined, b, zone ▸ bound, by simp [was, is]⟩

end

/-- The changes of one frame's readings handed over (R126). -/
theorem takeReadings_handedOver (s : State) (read : FieldSlotId → LineId → Bool) :
    HandedOver s (s.filterInputs read) (s.takeReadings read) :=
  handedOver (filterInputs_only s read) (output_filterInputs s · read)

/-- What handing the changes over leaves: the ports, the validator, and the inputs as they were filtered. -/
theorem HandedOver.leaves {s u t : State} (h : HandedOver s u t) :
    PortsKept s t ∧ t.validators = s.validators ∧ ∀ f i, t.input f i = u.input f i := by
  obtain ⟨only, -, v, follow, woken⟩ := h
  have rest := follow.rest
  have wakes : EngineFrame v t := by
    rw [woken]
    refine foldList_keeps (P := EngineFrame v) _ (fun w z h => ?_) _ (.refl v)
    split
    · exact h.trans (.wakeZone w z _)
    · exact h
  have filtered : PortsKept s v := by
    rw [rest, only]
    exact { PortsKept.refl s with }
  refine ⟨filtered.trans wakes.portsKept, wakes.validators.trans (by rw [rest, only]), fun f i => ?_⟩
  rw [input_of_inputs (wakes.inputs f), rest]
  rfl

/-! ## Readings that leave no input CLEAR (R123, R125) -/

section
variable {s u v t : State}

theorem FieldsFollow.none_cleared (h : FieldsFollow s u v) (unclear : ∀ f i, (u.input f i).clear = false) (z : ZoneId) :
    ¬((s.zst z).field = .unclear ∧ (v.zst z).field = .clear) := fun ⟨before, after⟩ => by
  obtain ⟨b, -, -, -, is⟩ := h.changed_of_cleared before after
  rw [unclear] at is
  cases is

/-- Where no input is CLEAR, no zone is woken: the zones' states are handed over as they follow. -/
theorem handedOver_unclear (unclear : ∀ f i, (u.input f i).clear = false) :
    HandedOver s u t ↔ u = { s with fieldSlots := u.fieldSlots } ∧ (∀ f o, u.output f o = s.output f o) ∧ FieldsFollow s u t := by
  have asleep {v : State} (follow : FieldsFollow s u v) : (List.finRange 240).foldl
      (fun w z => if (s.zst z).field = .unclear ∧ (v.zst z).field = .clear then w.fieldWake z else w) v = v :=
    foldList_keeps (P := (· = v)) _ (fun w z same => (if_neg (follow.none_cleared unclear z)).trans same) _ rfl
  refine ⟨fun ⟨only, outputs, v, follow, woken⟩ => ⟨only, outputs, ?_⟩,
    fun ⟨only, outputs, follow⟩ => ⟨only, outputs, t, follow, (asleep follow).symm⟩⟩
  rw [woken, asleep follow]
  exact follow

/-- A bad frame's readings are all unclear: each makes its input UNCLEAR and its run 0 (R123, R124). -/
theorem input_unclear (s : State) (f : FieldSlotId) (i : LineId) :
    (s.filterInputs (fun _ _ => false)).input f i = { s.input f i with clear := false, run := 0 } := input_filterInputs ..

theorem monitorBad_handedOver (s : State) : HandedOver s (s.filterInputs fun _ _ => false) s.monitorBad := takeReadings_handedOver ..

/-- At a bad frame the monitor changes field slots and zone states alone: no zone is woken. -/
theorem monitorBad_only (s : State) : s.monitorBad = { s with fieldSlots := s.monitorBad.fieldSlots, zoneStates := s.monitorBad.zoneStates } := by
  obtain ⟨only, -, follow⟩ := (handedOver_unclear fun f i => by rw [input_unclear]).1 (monitorBad_handedOver s)
  have rest := follow.rest
  generalize s.filterInputs (fun _ _ => false) = u at only rest
  generalize s.monitorBad = t at rest ⊢
  rw [rest, only]

/-- A hand-over that wakes no zone does not read the floor port. -/
theorem HandedOver.setFloorPort (h : HandedOver s u t) (unclear : ∀ f i, (u.input f i).clear = false) (p : Port) :
    HandedOver { s with floorPort := p } { u with floorPort := p } { t with floorPort := p } := by
  obtain ⟨only, outputs, follow⟩ := (handedOver_unclear unclear).1 h
  have follow : FieldsFollow { s with floorPort := p } { u with floorPort := p } { t with floorPort := p } :=
    ⟨follow.cleared, follow.uncleared, follow.others, by rw [follow.rest]⟩
  have only : ({ u with floorPort := p } : State) = { s with floorPort := p, fieldSlots := u.fieldSlots } := by rw [only]
  exact (handedOver_unclear (s := { s with floorPort := p }) (u := { u with floorPort := p }) unclear).2 ⟨only, outputs, follow⟩

end

end Sys2Proof.Machine
end

section
/-! SUPPORT. A floor frame arrives (R149 to R151): good and bad frames counted by the port, a good one taken by the blocks in their order, and with the reports and readings it carries the statement of O40. -/

namespace Sys2Proof.Machine

/-! ## The frame taken (R149) -/

section
variable {s : State} {order : List FloorBlock} {frame : List Byte}

theorem floorFrameGood_iff (s : State) (frame : List Byte) : s.floorFrameGood frame = true ↔ GoodFloorFrame s frame := by
  unfold State.floorFrameGood frameGood halfAt
  simp only [Bool.and_eq_true, beq_iff_eq]
  exact ⟨fun ⟨⟨⟨length, check⟩, echo⟩, code⟩ => ⟨length, check, echo, code⟩,
    fun ⟨length, check, echo, code⟩ => ⟨⟨⟨length, check⟩, echo⟩, code⟩⟩

/-- The floor port's window with its frame taken (R149). -/
def State.windowTaken (s : State) : State := { s with floorPort := { s.floorPort with window := .taken } }

/-- A SYNCED port that has counted a good frame, the partner's frame number kept (R149, R150, R151). -/
def State.frameCounted (s : State) (frame : List Byte) : State :=
  { s with
    floorPort := { s.floorPort with window := .taken, badRun := 0 }
    floorPartner := halfOf (frame.getD 0 0) (frame.getD 1 0) }

theorem exec_floorFrameArrival (released : s.resetPin = false) :
    exec (.floorFrameArrival order frame) s = .next (s.floorArrival order frame) := by
  rw [show exec (.floorFrameArrival order frame) s = execFloorFrameArrival order frame s from rfl, execFloorFrameArrival, released]
  rfl

theorem exec_floorPortLoss (released : s.resetPin = false) (synced : s.floorPort.state = .synced) (third : s.floorPort.badRun = 2)
    (opened : s.floorPort.window = .open) : exec .floorPortLoss s = .next s.windowTaken.floorBad := by
  rw [show exec .floorPortLoss s = execFloorPortLoss s from rfl, execFloorPortLoss, if_neg (by simp [released]), if_pos ⟨synced, third, opened⟩]
  rfl

theorem exec_floorPortReturn (released : s.resetPin = false) (lost : s.floorPort.state = .lost) (second : s.floorPort.goodRun = 1)
    (opened : s.floorPort.window = .open) (good : GoodFloorFrame s frame) :
    exec (.floorPortReturn order frame) s = .next (s.windowTaken.floorGood order frame) := by
  rw [show exec (.floorPortReturn order frame) s = execFloorPortReturn order frame s from rfl, execFloorPortReturn,
    if_neg (by simp [released]), if_pos ⟨lost, second, opened, (floorFrameGood_iff s frame).2 good⟩]
  rfl

theorem floorArrival_closed (closed : s.floorPort.window ≠ .open) : s.floorArrival order frame = s := by
  unfold State.floorArrival
  split
  · rfl
  · rfl
  · next opened => exact absurd opened closed

section
variable (opened : s.floorPort.window = .open)
include opened

theorem floorArrival_good (good : GoodFloorFrame s frame) : s.floorArrival order frame = s.windowTaken.floorGood order frame := by
  unfold State.floorArrival
  rw [opened]
  exact if_pos ((floorFrameGood_iff s frame).2 good)

theorem floorArrival_bad (bad : ¬GoodFloorFrame s frame) : s.floorArrival order frame = s.windowTaken.floorBad := by
  unfold State.floorArrival
  rw [opened]
  exact if_neg (fun good => bad ((floorFrameGood_iff s frame).1 good))

end

/-! ## The frame counted (R150) -/

theorem countBad_synced {p : Port} (synced : p.state = .synced) (few : p.badRun < 2) :
    p.countBad = { p with badRun := p.badRun + 1 } := by
  unfold Port.countBad
  split
  · exact if_neg (show ¬3 ≤ p.badRun + 1 by omega)
  · next lost => rw [synced] at lost; cases lost

theorem countGood_synced {p : Port} (synced : p.state = .synced) : p.countGood = { p with badRun := 0 } := by
  unfold Port.countGood
  split
  · rfl
  · next lost => rw [synced] at lost; cases lost

theorem floorBad_lost (lost : s.floorPort.state = .lost) :
    s.floorBad = { s with floorPort := { s.floorPort with goodRun := 0 } } := by
  simp [State.floorBad, Port.countBad, lost]

theorem floorPort_monitorBad (s : State) : s.monitorBad.floorPort = s.floorPort := by rw [monitorBad_only]

theorem floorBad_synced (synced : s.floorPort.state = .synced) (few : s.floorPort.badRun < 2) :
    s.floorBad = { s.monitorBad with floorPort := { s.floorPort with badRun := s.floorPort.badRun + 1 } } := by
  simp [State.floorBad, synced, floorPort_monitorBad, countBad_synced synced few]

theorem floorGood_lost (lost : s.floorPort.state = .lost) (first : s.floorPort.goodRun = 0) :
    s.floorGood order frame = { s with floorPort := { s.floorPort with goodRun := 1 } } := by
  simp [State.floorGood, Port.countGood, lost, first]

theorem floorGood_synced (synced : s.floorPort.state = .synced) (ordered : floorOrderOk order = true) :
    s.windowTaken.floorGood order frame = order.foldl (fun t b => t.floorBlock frame false b) (s.frameCounted frame) := by
  have taken : s.windowTaken.floorPort.state = .synced := synced
  have handed : s.windowTaken.floorGood order frame =
      { s.windowTaken with floorPort := s.windowTaken.floorPort.countGood }.handOnFloor order frame false := by
    unfold State.floorGood
    rw [taken]
  rw [handed, countGood_synced taken, State.handOnFloor, floorSchedule_of_ok ordered]
  rfl

end

/-! ## The blocks (R151) -/

section
variable {s t u : State} {frame : List Byte} {returned : Bool}

theorem floorBlock_lost (lost : s.floorPort.state = .lost) (b : FloorBlock) : s.floorBlock frame returned b = s := if_pos lost

/-- Each block of a SYNCED port takes its part of the frame. -/
theorem floorBlock_synced (synced : s.floorPort.state = .synced) : s.floorBlock frame returned .validator = s.takeReports frame ∧
    s.floorBlock frame returned .monitor = s.monitorGood frame ∧
    s.floorBlock frame returned .management = s.takeFragment .safety (frame.getD 181 0) ((frame.drop 182).take 16) ∧
    s.floorBlock frame returned .holdUnit = (if returned = true then s.clearLink else s) := by
  have heard : ¬s.floorPort.state = .lost := by simp [synced]
  exact ⟨if_neg heard, if_neg heard, if_neg heard, if_neg heard⟩

/-- A control byte without bit 4 carries no fragment (R159, R161). -/
theorem takeFragment_none (slot : MgmtSlot) {control : Byte} (none : control.getLsbD 4 = false) (payload : List Byte) :
    s.takeFragment slot control payload = s := by
  unfold State.takeFragment
  exact if_pos (by rw [none]; rfl)

/-- What some blocks have made of a frame: the candidates are its reports once the validator has had its turn, and the inputs have their readings once the monitor has; the ports stay as they are. -/
structure BlocksTaken (s t : State) (frame : List Byte) (blocks : List FloorBlock) : Prop extends PortsKept s t where
  candidate : ∀ c, (t.validator c).candidate =
    if FloorBlock.validator ∈ blocks then some (reportIn frame c) else (s.validator c).candidate
  input : ∀ f i, t.input f i =
    if FloorBlock.monitor ∈ blocks then (s.input f i).take s.clearPersistence (s.frameReading frame f i) else s.input f i

theorem BlocksTaken.none (s : State) (frame : List Byte) {blocks : List FloorBlock} (noValidator : .validator ∉ blocks)
    (noMonitor : .monitor ∉ blocks) : BlocksTaken s s frame blocks :=
  { PortsKept.refl s with
    candidate := fun _ => (if_neg noValidator).symm
    input := fun _ _ => (if_neg noMonitor).symm }

theorem BlocksTaken.validator (s : State) (frame : List Byte) : BlocksTaken s (s.takeReports frame) frame [.validator] :=
  { ports_takeReports s frame with
    candidate := fun c => (candidate_takeReports s frame c).trans (if_pos (by simp)).symm
    input := fun f i => (input_of_inputs (inputs_takeReports s frame f) i).trans (if_neg (by simp)).symm }

theorem BlocksTaken.monitor (s : State) (frame : List Byte) : BlocksTaken s (s.monitorGood frame) frame [.monitor] := by
  obtain ⟨ports, validators, inputs⟩ := HandedOver.leaves (takeReadings_handedOver s (s.frameReading frame))
  refine { ports with candidate := fun c => ?_, input := fun f i => ?_ }
  · rw [if_neg (by simp)]
    unfold State.validator State.monitorGood
    rw [validators]
  · rw [if_pos (by simp), ← input_filterInputs]
    exact inputs f i

/-- A block after another, each at its one turn. -/
theorem BlocksTaken.cons {b : FloorBlock} {blocks : List FloorBlock} (first : BlocksTaken s t frame [b])
    (more : BlocksTaken t u frame blocks) (once : b ∉ blocks) : BlocksTaken s u frame (b :: blocks) := by
  refine { first.toPortsKept.trans more.toPortsKept with candidate := fun c => ?_, input := fun f i => ?_ }
  · rw [more.candidate, first.candidate]
    by_cases later : FloorBlock.validator ∈ blocks <;> simp [later]
  · have before := first.input f i
    rw [more.input]
    by_cases later : FloorBlock.monitor ∈ blocks
    · have other : FloorBlock.monitor ∉ [b] := by
        rintro here
        exact once (List.mem_singleton.1 here ▸ later)
      rw [if_neg other] at before
      simp only [if_pos later, if_pos (List.mem_cons_of_mem b later), State.frameReading, before, first.clearPersistence]
    · rw [if_neg later, before]
      simp [later]

variable (synced : s.floorPort.state = .synced) (noFragment : (frame.getD 181 0).getLsbD 4 = false)
include synced noFragment

/-- One block of a SYNCED port at a frame without a fragment. -/
theorem blocksTaken_one (b : FloorBlock) : BlocksTaken s (s.floorBlock frame false b) frame [b] := by
  obtain ⟨validator, monitor, management, holdUnit⟩ := floorBlock_synced (frame := frame) (returned := false) synced
  cases b with
  | validator =>
    rw [validator]
    exact .validator s frame
  | monitor =>
    rw [monitor]
    exact .monitor s frame
  | management =>
    rw [management, takeFragment_none .safety noFragment]
    exact .none s frame (by simp) (by simp)
  | holdUnit =>
    rw [holdUnit]
    exact .none s frame (by simp) (by simp)

theorem blocksTaken_all {blocks : List FloorBlock} (once : blocks.Nodup) :
    BlocksTaken s (blocks.foldl (fun t b => t.floorBlock frame false b) s) frame blocks := by
  induction blocks generalizing s with
  | nil => exact .none s frame (by simp) (by simp)
  | cons b blocks ih =>
    obtain ⟨new, once⟩ := List.nodup_cons.1 once
    have first := blocksTaken_one synced noFragment b
    exact first.cons (ih (by rw [first.floorPort]; exact synced) once) new

end

/-- An order that a sender can send names each block, and none twice (R151). -/
theorem blocks_of_ok {order : List FloorBlock} (ordered : floorOrderOk order = true) : order.Nodup ∧ ∀ b, b ∈ order := by
  unfold floorOrderOk at ordered
  simp only [Bool.and_eq_true, List.all_eq_true, beq_iff_eq] at ordered
  have counts (b : FloorBlock) : order.count b = 1 := ordered.1 b (by cases b <;> decide)
  exact ⟨List.nodup_iff_count.2 fun b => Nat.le_of_eq (counts b), fun b => List.count_pos_iff.1 (by rw [counts b]; exact Nat.one_pos)⟩

/-! ## The statement, part by part -/

/-- Reports validated (R113, R116 to R118). -/
theorem validate_by_case (s : State) (c : CarrierId) :
    ((s.carrier c).report.present = false → s.validate c .absent = s) ∧
    ((s.carrier c).report.present = true →
      ReportReplaced s (s.validate c .absent) c { (s.carrier c).report with present := false }) ∧
    ∀ (p : Report) (t : State), s.validate c (.present p) = t →
      ((s.carrier c).report = ⟨true, p⟩ → t = s) ∧
      ((s.carrier c).report ≠ ⟨true, p⟩ → ∃ u, ReportReplaced s u c ⟨true, p⟩ ∧ t = u.actOnReport c (.present p)) := by
  refine ⟨validate_of_old (r := .absent), fun present => ?_, ?_⟩
  · rw [validate_of_new (r := .absent) present]
    exact reportReplaced s c .absent
  · rintro p _ rfl
    refine ⟨fun old => validate_of_old ?_, fun new => ⟨_, reportReplaced s c (.present p), validate_of_new ((isNew_present _ p).2 new)⟩⟩
    exact Bool.eq_false_iff.2 fun new => (isNew_present _ p).1 new old

/-- The inputs are no part of a port. -/
theorem input_setFloorPort (s : State) (p : Port) (f : FieldSlotId) (i : LineId) :
    ({ s with floorPort := p } : State).input f i = s.input f i := by
  unfold State.input State.fieldSlot
  rfl

/-- A bad frame of a SYNCED port, but for the count that the port then keeps (R123, R150). -/
theorem badFrame_taken (s : State) (p : Port) : ∀ t : State, t = { s.windowTaken.monitorBad with floorPort := p } →
    t.floorPort = p ∧ (∀ f i, t.input f i = { s.input f i with clear := false, run := 0 }) ∧
    (∃ u v : State, (∀ f i, u.input f i = { s.input f i with clear := false, run := 0 }) ∧ HandedOver s u v ∧
      t = { v with floorPort := t.floorPort }) ∧
    t.floorPartner = s.floorPartner ∧ t.validators = s.validators ∧ t.dispatchPort = s.dispatchPort := by
  rintro _ rfl
  have handed := monitorBad_handedOver s.windowTaken
  obtain ⟨ports, validators, inputs⟩ := HandedOver.leaves handed
  have unclear (f : FieldSlotId) (i : LineId) : (s.windowTaken.filterInputs fun _ _ => false).input f i =
    { s.input f i with clear := false, run := 0 } := by
    rw [input_unclear, State.windowTaken, input_setFloorPort]
  generalize (s.windowTaken.filterInputs fun _ _ => false) = u at handed unclear inputs
  generalize s.windowTaken.monitorBad = v at handed ports validators inputs ⊢
  have restored := HandedOver.setFloorPort handed (fun f i => by rw [unclear]) s.floorPort
  exact ⟨rfl, fun f i => ((input_setFloorPort v p f i).trans (inputs f i)).trans (unclear f i),
    ⟨{ u with floorPort := s.floorPort }, _, fun f i => (input_setFloorPort u _ f i).trans (unclear f i), restored, rfl⟩,
    ports.floorPartner, validators, ports.dispatchPort⟩

/-- A good frame without a fragment, whatever the order of the blocks (R151). -/
theorem goodFrame_taken {s : State} {order : List FloorBlock} {frame : List Byte} (synced : s.floorPort.state = .synced)
    (noFragment : (frame.getD 181 0).getLsbD 4 = false) (ordered : floorOrderOk order = true) :
    ∀ t : State, t = order.foldl (fun t b => t.floorBlock frame false b) s →
      t.floorPort = s.floorPort ∧ t.floorPartner = s.floorPartner ∧
      (∀ c, (t.validator c).candidate = some (reportIn frame c)) ∧
      (∀ f i, t.input f i = (s.input f i).take s.clearPersistence (s.frameReading frame f i)) ∧
      t.dispatchPort = s.dispatchPort ∧ t.mode = s.mode ∧ t.zones = s.zones := by
  rintro _ rfl
  obtain ⟨once, all⟩ := blocks_of_ok ordered
  have taken := blocksTaken_all synced noFragment once
  exact ⟨taken.floorPort, taken.floorPartner, fun c => (taken.candidate c).trans (if_pos (all _)),
    fun f i => (taken.input f i).trans (if_pos (all _)), taken.dispatchPort, taken.mode, taken.zones⟩

/-- Settles O40, by its parts: the bytes of a report, the report taken, the report validated and acted on, the block that takes its part of the frame, and the arrival by the port's window, its state and the frame. -/
theorem aFloorFrameArrives : Obligations.AFloorFrameArrives := by
  refine ⟨readReport_bytes, fun _ _ => rfl, takeReport_by_case, fun s c => ?validated, fun s frame returned => ?blocks,
    fun order frame s ordered released => ?arrival⟩
  case validated =>
    obtain ⟨quiet, absent, present⟩ := validate_by_case s c
    refine ⟨quiet, absent, fun p t validated => ⟨(present p t validated).1, fun new => ?_⟩⟩
    obtain ⟨u, replaced, rfl⟩ := (present p t validated).2 new
    have state : (u.carrier c).state = (s.carrier c).state := by rw [replaced.carrier]
    refine ⟨u, replaced, fun unchecked => actOnReport_of_unchecked (state ▸ unchecked), fun notVacant notFaulted => ?_⟩
    obtain ⟨noZone, zones⟩ := act_on_new_report replaced notVacant notFaulted
    refine ⟨noZone, fun f b front rear => ⟨(zones f b front rear).1, fun hf hb => ?_⟩⟩
    obtain ⟨reversed, ordered⟩ := (zones f b front rear).2 hf hb
    refine ⟨reversed, fun inOrder => ?_⟩
    obtain ⟨fault, sound⟩ := ordered inOrder
    refine ⟨fun code => fault _ ?_, fun code => fault _ ?_, fun code => fault _ ?_, fun code => fault _ ?_,
      fun code => fault _ (codeFault_of_le code), fun code => sound ?_⟩ <;> simp [codeFault, code]
  case blocks =>
    refine ⟨floorBlock_lost, fun synced => ?_⟩
    obtain ⟨validator, monitor, management, holdUnit⟩ := floorBlock_synced (frame := frame) (returned := returned) synced
    refine ⟨validator, management, holdUnit, s.filterInputs (s.frameReading frame), fun f i => input_filterInputs s f _ i, ?_⟩
    rw [monitor]
    exact takeReadings_handedOver s _
  case arrival =>
    rw [exec_floorFrameArrival released]
    refine ⟨fun closed => ?_, fun opened lost bad => ?_, fun opened lost first good => ?_, fun opened synced few bad => ?_,
      fun opened synced third bad => ?_, fun opened lost second good => ?_, fun opened synced good => ?_,
      fun opened synced good noFragment => ?_⟩
    · rw [floorArrival_closed closed]
    · rw [floorArrival_bad opened bad, floorBad_lost (s := s.windowTaken) lost]
      rfl
    · rw [floorArrival_good opened good, floorGood_lost (s := s.windowTaken) lost first]
      rfl
    · rw [floorArrival_bad opened bad, floorBad_synced (s := s.windowTaken) synced few]
      exact ⟨_, rfl, badFrame_taken s _ _ rfl⟩
    · rw [floorArrival_bad opened bad, exec_floorPortLoss released synced third opened]
    · rw [floorArrival_good opened good, exec_floorPortReturn released lost second opened good]
    · rw [floorArrival_good opened good, floorGood_synced synced ordered]
      rfl
    · rw [floorArrival_good opened good, floorGood_synced synced ordered]
      exact ⟨_, rfl, goodFrame_taken (s := s.frameCounted frame) synced noFragment ordered _ rfl⟩

end Sys2Proof.Machine
end

section
/-! SUPPORT. The hold commands, the policy and the stop line (R133, R138 to R144): a hold entry written, the cases of Lift Hold, the eight actions of a Write Policy read, and the stop marker set. -/

namespace Sys2Proof.Machine

/-! ## Safety commands (R163) -/

/-- A safety command that the safety slot takes does what its rule says and answers (R161, R163). -/
theorem safetyTaken_next {code : Byte} {s t : State} {a : Answer} {rule : State → State × Answer} (ready : s.ready .safety)
    (h : rule s = (t, a)) :
    (Host.Outcome.next (takeCommand .safety code s (safetyOnly .safety (changing rule))) : Host.Outcome State Fault Refusal) =
      .next (t.answered .safety code a.status a.results) := by
  rw [takeCommand_safety]
  exact taken_next ready h

/-! ## Hold entries written (R139) -/

section
variable (s : State) (n : SectorId) (e : HoldEntry)

/-- HOLD_CHANGE is set where a sector's entry and the one written differ in activity. -/
theorem writeHoldEntry_sector : s.writeHoldEntry (.sector n) e = { s with
    sectorHolds := tset s.sectorHolds n e
    flags := { s.flags with holdChange := s.flags.holdChange || e.active != s.sectorActive n } } := by
  have written : (s.setSectorHold n e).sectorActive n = e.active := by
    unfold State.sectorActive
    rw [sectorHold_setSectorHold_self]
  unfold State.writeHoldEntry State.setHoldEntry State.holdActive
  dsimp only
  split
  · next same => simp [written.symm.trans same, State.setSectorHold]
  · next differ =>
    have : e.active ≠ s.sectorActive n := fun same => differ (written.trans same)
    simp [this, State.setSectorHold, State.flagHoldChange]

/-- HOLD_CHANGE is set where the district entry's activity changes; the link flag stays and counts before and after. -/
theorem writeHoldEntry_district : s.writeHoldEntry .district e = { s with
    districtHold := e
    flags := { s.flags with holdChange := s.flags.holdChange || (e.active || s.linkFlag) != s.districtActive } } := by
  unfold State.writeHoldEntry State.setHoldEntry State.holdActive
  dsimp only
  split
  · next same =>
    have : (e.active || s.linkFlag) = s.districtActive := same
    simp [this]
  · next differ =>
    have : (e.active || s.linkFlag) ≠ s.districtActive := differ
    simp [this, State.flagHoldChange]

end

/-- An entry whose manual flag is set is active. -/
theorem active_manual (e : HoldEntry) : HoldEntry.active { e with manual := true } = true := Bool.or_true _

/-! ## Hold Sector and Hold District (R140) -/

theorem holdSector_out {b : Byte} (out : 8 ≤ b.toNat) (s : State) : holdSector b s = (s, .bare .badItem) := by
  unfold holdSector
  rw [byteBelow_of_le out]

theorem holdSector_named (n : SectorId) (s : State) : holdSector (byteOf n.val) s = ({ s with
    sectorHolds := tset s.sectorHolds n { s.sectorHold n with manual := true }
    flags := { s.flags with holdChange := s.flags.holdChange || !s.sectorActive n } }, .ok) := by
  unfold holdSector
  rw [byteBelow_byteOf n (by decide)]
  dsimp only [State.holdEntry]
  rw [writeHoldEntry_sector, active_manual, Bool.true_bne]

theorem holdDistrict_eq (s : State) : holdDistrict s = ({ s with
    districtHold := { s.districtHold with manual := true }
    flags := { s.flags with holdChange := s.flags.holdChange || !s.districtActive } }, .ok) := by
  unfold holdDistrict
  dsimp only [State.holdEntry]
  rw [writeHoldEntry_district, active_manual, Bool.true_or, Bool.true_bne]

/-- Settles O31: a command of the operator slot is answered before its rule is asked; in the safety slot the entry written is active, so HOLD_CHANGE is set where the entry was not. -/
theorem holdsSetTheManualFlag : Obligations.HoldsSetTheManualFlag := by
  intro s
  refine ⟨fun ready b => ⟨?sector, ?district⟩, fun ready => ⟨fun b out => ?out, fun n => ?named, ?whole⟩⟩
  case sector => exact congrArg Host.Outcome.next (takeCommand_notPermitted ready _)
  case district => exact congrArg Host.Outcome.next (takeCommand_notPermitted ready _)
  case out => exact safetyTaken_next ready (holdSector_out out s)
  case named => exact safetyTaken_next ready (holdSector_named n s)
  case whole => exact safetyTaken_next ready (holdDistrict_eq s)

/-! ## Lift Hold (R141) -/

theorem liftHold_out {b : Byte} (out : 8 < b.toNat) (s : State) : liftHold b s = (s, .bare .badItem) := by
  unfold liftHold
  rw [holdNameOf_of_lt out]

section
variable {s : State} {b : Byte} {name : HoldName}

/-- The first pair of the entry whose carrier is FAULTED is answered. -/
theorem liftHold_of_cause (named : holdNameOf b = some name) {l r : List (CarrierId × FaultKind)} {p : CarrierId × FaultKind}
    (causes : (s.holdEntry name).causes = l ++ p :: r) (before : ∀ q ∈ l, (s.carrier q.1).state ≠ .faulted)
    (faulted : (s.carrier p.1).state = .faulted) : liftHold b s = (s, ⟨.causeActive, [byteOf p.1.val]⟩) := by
  have found : (s.holdEntry name).causes.find? (fun q => (s.carrier q.1).state == .faulted) = some p :=
    List.find?_eq_some_iff_append.2 ⟨beq_iff_eq.2 faulted, l, r, causes, fun q m => by simpa using before q m⟩
  unfold liftHold
  rw [named]
  dsimp only
  rw [found]

/-- An entry without a FAULTED carrier's pair is cleared, and its change of activity handed on. -/
theorem liftHold_of_none (named : holdNameOf b = some name)
    (none : ∀ q ∈ (s.holdEntry name).causes, (s.carrier q.1).state ≠ .faulted) :
    liftHold b s = ((s.writeHoldEntry name ⟨[], false⟩).afterLift s name, .ok) := by
  have unfound : (s.holdEntry name).causes.find? (fun q => (s.carrier q.1).state == .faulted) = Option.none :=
    List.find?_eq_none.2 fun q m => by simpa using none q m
  unfold liftHold
  rw [named]
  dsimp only
  rw [unfound]

end

/-- A change handed to the engine, or none, stays within the engine's frame (R87). -/
theorem EngineFrame.liftedIf (u : State) (ceased : Prop) [Decidable ceased] : EngineFrame u (if ceased then u.holdLifted else u) := by
  split
  · exact .holdLifted u
  · exact .refl u

/-- A sector's entry cleared: it ceases to be active where it was (R139). -/
theorem lifted_sector (s : State) (n : SectorId) : ∃ u : State,
    u = { s with
      sectorHolds := tset s.sectorHolds n ⟨[], false⟩
      flags := { s.flags with holdChange := s.flags.holdChange || s.sectorActive n } } ∧
    (s.writeHoldEntry (.sector n) ⟨[], false⟩).afterLift s (.sector n) = if s.sectorActive n = true then u.holdLifted else u := by
  have inactive : HoldEntry.active ⟨[], false⟩ = false := rfl
  refine ⟨_, rfl, ?_⟩
  rw [writeHoldEntry_sector, inactive, Bool.false_bne]
  unfold State.afterLift State.holdActive State.sectorActive State.sectorHold
  simp [inactive]

/-- The district entry cleared: it ceases to be active where it was and the link flag is clear (R139, R142). -/
theorem lifted_district (s : State) : ∃ u : State,
    u = { s with
      districtHold := ⟨[], false⟩
      flags := { s.flags with holdChange := s.flags.holdChange || (s.districtActive && !s.linkFlag) } } ∧
    (s.writeHoldEntry .district ⟨[], false⟩).afterLift s .district =
      if s.districtActive = true ∧ s.linkFlag = false then u.holdLifted else u := by
  have inactive : HoldEntry.active ⟨[], false⟩ = false := rfl
  have changed : ((HoldEntry.active ⟨[], false⟩ || s.linkFlag) != s.districtActive) = (s.districtActive && !s.linkFlag) := by
    unfold State.districtActive
    rw [inactive]
    cases s.districtHold.active <;> cases s.linkFlag <;> rfl
  refine ⟨_, rfl, ?_⟩
  rw [writeHoldEntry_district, changed]
  unfold State.afterLift State.holdActive State.districtActive
  simp [inactive]

/-! ## Write Policy (R133) -/

/-- What holds of each of the eight fault kinds' places in the policy table holds of all. -/
theorem forall_place {P : Fin 8 → Prop} (drive : P 0) (obstacle : P 1) (power : P 2) (localization : P 3) (other : P 4) (lost : P 5)
    (unstable : P 6) (trespass : P 7) : ∀ i, P i
  | 0 => drive
  | 1 => obstacle
  | 2 => power
  | 3 => localization
  | 4 => other
  | 5 => lost
  | 6 => unstable
  | 7 => trespass

theorem writePolicy_out {actions : Vector Byte 8} {i : Fin 8} (out : 2 < (tget actions i).toNat) (s : State) :
    writePolicy actions s = (s, .bare .badItem) := by
  have unread : policyActionOf (tget actions i) = none := policyActionOf_of_lt out
  unfold writePolicy
  dsimp only
  split
  · rename_i r0 r1 r2 r3 r4 r5 r6 r7
    have read : ∀ j, policyActionOf (tget actions j) ≠ none :=
      forall_place (by rw [r0]; exact nofun) (by rw [r1]; exact nofun) (by rw [r2]; exact nofun) (by rw [r3]; exact nofun)
        (by rw [r4]; exact nofun) (by rw [r5]; exact nofun) (by rw [r6]; exact nofun) (by rw [r7]; exact nofun)
    exact absurd unread (read i)
  · rfl

theorem writePolicy_named (p : Vector PolicyAction 8) (s : State) :
    writePolicy (p.map policyActionByte) s = ({ s with policy := p }, .ok) := by
  have read (i : Fin 8) : policyActionOf (tget (p.map policyActionByte) i) = some (tget p i) := by
    simp [tget]
  have table : #v[tget p 0, tget p 1, tget p 2, tget p 3, tget p 4, tget p 5, tget p 6, tget p 7] = p :=
    table_ext (forall_place rfl rfl rfl rfl rfl rfl rfl rfl)
  unfold writePolicy
  dsimp only
  simp only [read, table]

/-- Settles O32: Lift Hold by the first FAULTED carrier of the entry's cause list, or by the entry cleared, and Write Policy by its eight actions. -/
theorem holdsAreLiftedAndThePolicyWritten : Obligations.HoldsAreLiftedAndThePolicyWritten := by
  refine ⟨fun s ready => ⟨fun b out => ?out, fun n l r p causes before faulted => ?sectorCause,
    fun l r p causes before faulted => ?districtCause, fun n none => ?sector, fun none => ?district⟩,
    fun s ready => ⟨fun a out => ?unread, fun p => ?written⟩⟩
  case out => exact safetyTaken_next ready (liftHold_out out s)
  case sectorCause => exact safetyTaken_next ready (liftHold_of_cause (holdNameOf_sector n) causes before faulted)
  case districtCause => exact safetyTaken_next ready (liftHold_of_cause holdNameOf_district causes before faulted)
  case sector =>
    obtain ⟨u, cleared, lifted⟩ := lifted_sector s n
    exact ⟨u, _, safetyTaken_next ready (liftHold_of_none (holdNameOf_sector n) none), cleared, lifted, lifted ▸ .liftedIf u _⟩
  case district =>
    obtain ⟨u, cleared, lifted⟩ := lifted_district s
    exact ⟨u, _, safetyTaken_next ready (liftHold_of_none holdNameOf_district none), cleared, lifted, lifted ▸ .liftedIf u _⟩
  case unread =>
    obtain ⟨i, out⟩ := out
    exact safetyTaken_next ready (writePolicy_out out s)
  case written => exact safetyTaken_next ready (writePolicy_named p s)

/-! ## The arm latch and the stop line (R143, R144) -/

section
variable {s : State}

theorem armStopLine_armed (armed : s.armLatch = true) : armStopLine s = (s, .ok) := if_pos armed

/-- Arming sets the marker where the line is active and the marker clear. -/
theorem armStopLine_clear (clear : s.armLatch = false) : armStopLine s =
    (if s.stopLine = true ∧ s.stopMarker = false then { s with armLatch := true }.setMarker else { s with armLatch := true }, .ok) := by
  unfold armStopLine
  simp [clear]

/-- A change of the line sets the marker where it activates the line, the latch is set and the marker clear. -/
theorem exec_stopLineChange (s : State) (level : Bool) : exec (.stopLineChange level) s = .next
    (if level = true ∧ s.stopLine = false ∧ s.armLatch = true ∧ s.stopMarker = false then { s with stopLine := level }.setMarker
      else { s with stopLine := level }) := by
  change execStopLineChange level s = _
  unfold execStopLineChange
  simp [and_assoc]

end

section
variable {s t : State}

/-- The arm latch after a reset is that of the state it starts from, whatever it makes of the pins and the queue. -/
theorem armLatch_of_pins {u : State} {code straps : BitVec 4} {line pin : Bool} {queue : List Instr}
    (h : t = { u with districtCode := code, straps := straps, stopLine := line, resetPin := pin, pending := queue }) :
    t.armLatch = u.armLatch := by
  rw [h]

theorem AfterPowerOn.armLatch (h : AfterPowerOn s t) : t.armLatch = false := by
  obtain ⟨straps, run⟩ := h
  exact armLatch_of_pins (u := State.reset) (Host.Outcome.next.inj run).symm

theorem AfterPinReset.armLatch (h : AfterPinReset s t) : t.armLatch = false := by
  obtain ⟨released, run⟩ := h
  have asserted : exec .resetPin s = .next { s.restart .resetPin with resetPin := true } :=
    congrArg Host.Outcome.next (if_neg (ne_true_of_eq_false released))
  exact (armLatch_of_pins (Host.Outcome.next.inj (run.symm.trans asserted))).trans (restart_fields s .resetPin).armLatch

theorem AfterResetCommand.armLatch (h : AfterResetCommand s t) : t.armLatch = false := by
  have reset : t = s.commandReset := Host.Outcome.next.inj (h.2.symm.trans (exec_reset h.1))
  exact (armLatch_of_pins (u := s.restart .resetCommand) reset).trans (restart_fields s .resetCommand).armLatch

/-- Every reset clears the arm latch (R143, R172). -/
theorem AfterReset.armLatch (h : AfterReset s t) : t.armLatch = false :=
  h.elim AfterPowerOn.armLatch fun keeping => keeping.elim AfterPinReset.armLatch AfterResetCommand.armLatch

end

/-- Settles O33: Arm Stop Line by the latch, the line and the marker; a change of the line by what sets the marker; and the resets one by one. -/
theorem theArmLatchAndTheStopLine : Obligations.TheArmLatchAndTheStopLine := by
  intro s
  refine ⟨fun ready => ?operator, fun ready armed => ?armed, fun ready clear unset => ?unset, fun ready clear line marker => ?set,
    fun armed line marker => ?activated, fun level idle => ?idle, fun t reset => reset.armLatch⟩
  case operator => exact congrArg Host.Outcome.next (takeCommand_notPermitted ready _)
  case armed => exact safetyTaken_next ready (armStopLine_armed armed)
  case unset =>
    refine safetyTaken_next (a := .ok) ready ?_
    rw [armStopLine_clear clear, if_neg]
    rcases unset with line | marker <;> simp [*]
  case set =>
    refine safetyTaken_next (a := .ok) ready ?_
    rw [armStopLine_clear clear, if_pos ⟨line, marker⟩]
    rfl
  case activated =>
    rw [exec_stopLineChange, if_pos ⟨rfl, line, armed, marker⟩]
    rfl
  case idle =>
    rw [exec_stopLineChange, if_neg]
    rintro ⟨active, line, armed, marker⟩
    simp [active, line, armed, marker] at idle

end Sys2Proof.Machine
end

section
/-! SUPPORT. The freezing of a trespasser (R119): what it leaves of the state, whatever the reported zones are, and the order its held list ends in. -/

namespace Sys2Proof.Machine

/-! ## What a frame keeps of a carrier's report -/

section
variable {s t : State}

theorem EngineFrame.front (h : EngineFrame s t) (c : CarrierId) : t.front c = s.front c := by
  unfold State.front
  rw [(h.carriers c).report]

theorem EngineFrame.rear (h : EngineFrame s t) (c : CarrierId) : t.rear c = s.rear c := by
  unfold State.rear
  rw [(h.carriers c).report]

theorem EngineFrame.standsIn (h : EngineFrame s t) (c : CarrierId) (z : ZoneId) : t.standsIn c z = s.standsIn c z := by
  unfold State.standsIn
  rw [h.front, h.rear]

end

/-! ## One reported zone dealt with -/

section
variable {s : State} {c : CarrierId} {z : ZoneId} {atRear : Bool}

theorem giveZone_frame (s : State) (c : CarrierId) (z : ZoneId) (atRear : Bool) : EngineFrame s (s.giveZone c z atRear) := by
  have joined (t : State) : EngineFrame t (t.joinZoneCorridor c z) := by
    rw [joinZoneCorridor_only]
    exact { EngineFrame.refl t with }
  have listed := EngineFrame.setHeld s c fun l => if atRear then ⟨z, .granted, none⟩ :: l else l ++ [⟨z, .granted, none⟩]
  exact (listed.trans (.setHolder ..)).trans (joined _)

/-- The rights engine could have made every change that a freezing makes. -/
theorem freezeZone_frame (s : State) (c : CarrierId) (z : ZoneId) (atRear : Bool) : EngineFrame s (s.freezeZone c z atRear) := by
  unfold State.freezeZone
  split
  · exact .setHeld s c fun l => l.map fun e => if e.zone = z then { e with status := .granted } else e
  · split
    · exact giveZone_frame s c z atRear
    · exact .refl s

theorem token_freezeZone (s : State) (c : CarrierId) (z : ZoneId) (atRear : Bool) : (s.freezeZone c z atRear).pinToken = s.pinToken := by
  unfold State.freezeZone
  split
  · rfl
  · split
    · unfold State.giveZone
      dsimp only
      rw [joinZoneCorridor_only, setHolder_only]
      rfl
    · rfl

/-- A reported zone is held, or given, or left as it is. -/
theorem freezeZone_cases (s : State) (c : CarrierId) (z : ZoneId) (atRear : Bool) : s.holds c z = true ∨
    (s.holds c z = false ∧ s.mayBeGiven c z ∧ (s.carrier c).held.length < 12) ∨ s.freezeZone c z atRear = s := by
  cases held : s.holds c z with
  | true => exact .inl rfl
  | false =>
    by_cases given : s.mayBeGiven c z ∧ (s.carrier c).held.length < 12
    · exact .inr (.inl ⟨rfl, given⟩)
    · refine .inr (.inr (freezeZone_not atRear held ?_))
      by_cases free : s.mayBeGiven c z
      · exact .inr (Nat.le_of_not_lt fun room => given ⟨free, room⟩)
      · exact .inl free

/-- A GRANTED entry stays in the held list as it is. -/
theorem freezeZone_keeps_granted {e : HeldEntry} (granted : e.status = .granted) (m : e ∈ (s.carrier c).held) :
    e ∈ ((s.freezeZone c z atRear).carrier c).held := by
  rcases freezeZone_cases s c z atRear with held | ⟨unheld, free, room⟩ | same
  · rw [(freezeZone_held atRear held).2.2]
    refine List.mem_map.2 ⟨e, m, ?_⟩
    rw [← granted, ite_self]
  · rw [(freezeZone_given atRear unheld free room).1]
    cases atRear <;> simp [m]
  · rwa [same]

/-- A zone of the carrier's stays its own. -/
theorem holder_freezeZone {w : ZoneId} (own : s.holder w = some c) : (s.freezeZone c z atRear).holder w = some c := by
  rcases freezeZone_cases s c z atRear with held | ⟨unheld, free, room⟩ | same
  · rw [(freezeZone_held atRear held).1]
    exact own
  · rw [(freezeZone_given atRear unheld free room).2.2.1, own, ite_self]
  · rwa [same]

end

/-! ## The freezing -/

section
variable {s : State} {c : CarrierId}

/-- What dealing with any one zone keeps, a freezing keeps. -/
theorem freeze_closed {P : State → Prop} (one : ∀ t z atRear, P t → P (t.freezeZone c z atRear)) (start : P s) : P (s.freeze c) := by
  have rear : P (s.freezeRear c) := by
    unfold State.freezeRear
    split
    · split
      · exact start
      · exact one _ _ _ start
    · exact start
  unfold State.freeze State.freezeFront
  split
  · exact one _ _ _ rear
  · exact rear

theorem EngineFrame.freeze (s : State) (c : CarrierId) : EngineFrame s (s.freeze c) :=
  freeze_closed (P := EngineFrame s) (fun t z b h => h.trans (freezeZone_frame t c z b)) (.refl s)

theorem token_freeze (s : State) (c : CarrierId) : (s.freeze c).pinToken = s.pinToken :=
  freeze_closed (P := fun t => t.pinToken = s.pinToken) (fun t z b h => (token_freezeZone t c z b).trans h) rfl

theorem holder_freeze {w : ZoneId} (own : s.holder w = some c) : (s.freeze c).holder w = some c :=
  freeze_closed (P := fun t => t.holder w = some c) (fun _ _ _ => holder_freezeZone) own

theorem freeze_keeps_granted {e : HeldEntry} (granted : e.status = .granted) (m : e ∈ (s.carrier c).held) :
    e ∈ ((s.freeze c).carrier c).held :=
  freeze_closed (P := fun t => e ∈ (t.carrier c).held) (fun _ _ _ => freezeZone_keeps_granted granted) m

theorem freeze_rearOnly {b : ZoneId} (rear : s.rear c = some b) (front : s.front c = none) :
    s.freeze c = s.freezeZone c b true := by
  have unreported : (s.freezeZone c b true).front c = none := ((freezeZone_frame s c b true).front c).trans front
  unfold State.freeze State.freezeRear
  rw [rear]
  dsimp only
  rw [if_neg (by rw [front]; exact nofun)]
  unfold State.freezeFront
  rw [unreported]

theorem freeze_noRear (rear : s.rear c = none) : s.freeze c = s.freezeFront c := by
  unfold State.freeze State.freezeRear
  rw [rear]

theorem freeze_frontOnly {f : ZoneId} (rear : s.rear c = none) (front : s.front c = some f) :
    s.freeze c = s.freezeZone c f false := by
  rw [freeze_noRear rear]
  unfold State.freezeFront
  rw [front]

theorem freeze_unreported (rear : s.rear c = none) (front : s.front c = none) : s.freeze c = s := by
  rw [freeze_noRear rear]
  unfold State.freezeFront
  rw [front]

/-! ## The rear zone first (log 21) -/

theorem carrier_rearFirst (s : State) (c : CarrierId) : (s.rearFirst c).carrier c = { s.carrier c with
    held := (s.carrier c).held.filter (fun e => some e.zone == s.rear c) ++ (s.carrier c).held.filter (fun e => some e.zone != s.rear c) } :=
  carrier_modCarrier_self ..

theorem mem_rearFirst (e : HeldEntry) : e ∈ ((s.rearFirst c).carrier c).held ↔ e ∈ (s.carrier c).held := by
  rw [carrier_rearFirst, List.mem_append, List.mem_filter, List.mem_filter, ← and_or_left]
  exact and_iff_left (by cases same : some e.zone == s.rear c <;> simp [bne, same])

theorem holder_rearFirst (s : State) (c : CarrierId) (z : ZoneId) : (s.rearFirst c).holder z = s.holder z := rfl

theorem EngineFrame.rearFirst (s : State) (c : CarrierId) : EngineFrame s (s.rearFirst c) :=
  .modCarrier s c _ ⟨rfl, rfl, rfl, rfl, rfl, rfl, rfl, rfl, rfl, rfl, rfl, rfl, rfl, id, id, id⟩

/-- A rear zone that is held has the first entry. -/
theorem heldIndex_rearFirst {b : ZoneId} (rear : s.rear c = some b) (held : (s.rearFirst c).holds c b = true) :
    heldIndex ((s.rearFirst c).carrier c).held b = 0 := by
  obtain ⟨e, m, zone⟩ := (holds_iff ..).1 held
  have own : e ∈ (s.carrier c).held.filter (fun x => some x.zone == s.rear c) :=
    List.mem_filter.2 ⟨(mem_rearFirst e).1 m, by simp [zone, rear]⟩
  obtain ⟨x, l, split⟩ := List.exists_cons_of_ne_nil (List.ne_nil_of_mem own)
  have first : x.zone = b := by
    have there : x ∈ (s.carrier c).held.filter (fun x => some x.zone == s.rear c) := split ▸ List.mem_cons_self
    simpa [rear] using (List.mem_filter.1 there).2
  rw [carrier_rearFirst]
  dsimp only
  rw [split]
  simp [heldIndex, List.findIdx_cons, first]

end

end Sys2Proof.Machine
end

section
/-! SUPPORT. A fault raised (R132 to R137): the steps of a first fault as state functions, what each leaves of the carrier's record and held list, and the hold entry that the policy feeds. -/

namespace Sys2Proof.Machine

/-! ## The steps of a first fault (R134) -/

/-- The carrier out of its wait queue, its fault captured (R134 step 1). -/
def State.faultDequeued (s : State) (c : CarrierId) (k : FaultKind) : State :=
  if ((s.captureFault c k).carrier c).state = .waiting then ((s.captureFault c k).leaveQueue c).clearWait c else s.captureFault c k

/-- The carrier FAULTED (R134 step 2). -/
def State.faultParked (s : State) (c : CarrierId) (k : FaultKind) : State :=
  (s.faultDequeued c k).modCarrier c (fun r => { r with state := .faulted })

/-- The reported zones of a trespasser frozen (R119). -/
def State.frozenAt (s : State) (c : CarrierId) (k : FaultKind) : State := if k = .trespass then s.freeze c else s

/-- The claim left and the zones the carrier does not stand in released (R134 steps 3 and 4, R135). -/
def State.faultReleased (s : State) (c : CarrierId) : State := (s.leaveClaim c).releaseAll c ((s.leaveClaim c).faultReleases c)

/-- The freezing of a trespasser completed (R119). -/
def State.refrozenAt (s : State) (c : CarrierId) (k : FaultKind) : State := if k = .trespass then (s.freeze c).rearFirst c else s

/-- A route lost, where the carrier has one (R134 step 4). -/
def State.routeLost (s : State) (c : CarrierId) : State :=
  if (s.carrier c).route.isSome then (s.detachRoute c).undirect c else s

/-- The marks of a fault (R134 step 5). -/
def State.faultMarked (s : State) (c : CarrierId) : State := ((s.breakWatch c).flagState c).flagFault c

/-- The state in which a fault leaves the claim: the carrier FAULTED and, at a TRESPASS, its reported zones frozen. -/
def State.faultFrozen (s : State) (c : CarrierId) (k : FaultKind) : State := (s.faultParked c k).frozenAt c k

/-- A first fault up to its second freezing: what becomes of the carrier's zones. -/
def State.faultGrounded (s : State) (c : CarrierId) (k : FaultKind) : State :=
  ((s.faultFrozen c k).faultReleased c).refrozenAt c k

/-- A first fault up to its policy action. -/
def State.faultDone (s : State) (c : CarrierId) (k : FaultKind) : State := ((s.faultGrounded c k).routeLost c).faultMarked c

theorem firstFault_eq (s : State) (c : CarrierId) (k : FaultKind) : s.firstFault c k = (s.faultDone c k).applyPolicy c k := rfl

/-! ## The carrier FAULTED -/

/-- A carrier record captured and FAULTED, out of any queue (R66, R134). -/
def Carrier.faulted (r : Carrier) (frame : Half) (k : FaultKind) : Carrier :=
  { r with
    state := .faulted, fault := some k
    wait := if r.state = .waiting then .none else r.wait
    waitAge := if r.state = .waiting then 0 else r.waitAge
    faultRecord :=
      { kind := some k, frame := frame, report := r.report, held := r.held, route := r.route, cursor := r.cursor, laps := r.laps
        wait := r.wait, order := r.lastOrder, authority := r.authority, clip := r.clip, speed := r.speed } }

section
variable (s : State) (c : CarrierId) (k : FaultKind)

theorem state_captureFault : ((s.captureFault c k).carrier c).state = (s.carrier c).state := by
  rw [(faultCaptured s c k).carrier]

theorem faultDequeued_of_waiting (waiting : (s.carrier c).state = .waiting) : Dequeued (s.captureFault c k) (s.faultDequeued c k) c := by
  unfold State.faultDequeued
  rw [if_pos ((state_captureFault s c k).trans waiting)]
  exact dequeued ..

theorem faultDequeued_of_not (settled : (s.carrier c).state ≠ .waiting) : s.faultDequeued c k = s.captureFault c k := by
  unfold State.faultDequeued
  rw [if_neg (state_captureFault s c k ▸ settled)]

theorem carrier_faultParked : (s.faultParked c k).carrier c = (s.carrier c).faulted s.floorPort.frame k := by
  rw [State.faultParked, carrier_modCarrier_self]
  by_cases waiting : (s.carrier c).state = .waiting
  · rw [(faultDequeued_of_waiting s c k waiting).carrier, (faultCaptured s c k).carrier]
    simp [Carrier.faulted, waiting]
  · rw [faultDequeued_of_not s c k waiting, (faultCaptured s c k).carrier]
    simp [Carrier.faulted, waiting]

theorem faultDequeued_frame : EngineFrame (s.captureFault c k) (s.faultDequeued c k) := by
  unfold State.faultDequeued
  split
  · exact (EngineFrame.leaveQueue ..).trans (.clearWait ..)
  · exact .refl _

theorem faultParked_frame : EngineFrame (s.captureFault c k) (s.faultParked c k) :=
  (faultDequeued_frame s c k).trans
    (.modCarrier _ c _ ⟨rfl, rfl, rfl, rfl, rfl, rfl, rfl, rfl, rfl, rfl, rfl, rfl, rfl, id, id, id⟩)

theorem token_faultParked : (s.faultParked c k).pinToken = s.pinToken := by
  change (s.faultDequeued c k).pinToken = _
  by_cases waiting : (s.carrier c).state = .waiting
  · rw [(faultDequeued_of_waiting s c k waiting).rest]
    rfl
  · rw [faultDequeued_of_not s c k waiting]
    rfl

theorem holder_faultParked (z : ZoneId) : (s.faultParked c k).holder z = s.holder z := by
  change (s.faultDequeued c k).holder z = _
  unfold State.faultDequeued
  split
  · exact holder_leaveQueue ..
  · rfl

theorem mayBeGiven_faultParked (z : ZoneId) : (s.faultParked c k).mayBeGiven c z ↔ s.mayBeGiven c z := by
  have zones : (s.faultParked c k).zones = s.zones := (faultParked_frame s c k).zones
  unfold State.mayBeGiven State.zone
  simp only [holder_faultParked, zones]

theorem held_faultParked : ((s.faultParked c k).carrier c).held = (s.carrier c).held := by
  rw [carrier_faultParked]
  rfl

theorem holds_faultParked (z : ZoneId) : (s.faultParked c k).holds c z = s.holds c z := by
  unfold State.holds
  rw [held_faultParked]

end

/-- No claim pass is made for a FAULTED carrier (R72). -/
theorem parked_of_faulted {s : State} {c : CarrierId} (faulted : (s.carrier c).state = .faulted) : ¬s.active c :=
  parked_of_state (by simp [faulted]) (by simp [faulted])

/-! ## The zones of a FAULTED carrier (R119, R135) -/

section
variable {s : State} {c : CarrierId} {k : FaultKind}

theorem frozenAt_trespass (s : State) (c : CarrierId) : s.frozenAt c .trespass = s.freeze c := by
  unfold State.frozenAt
  rw [if_pos rfl]

theorem refrozenAt_trespass (s : State) (c : CarrierId) : s.refrozenAt c .trespass = (s.freeze c).rearFirst c := by
  unfold State.refrozenAt
  rw [if_pos rfl]

theorem frozenAt_frame (s : State) (c : CarrierId) (k : FaultKind) : EngineFrame s (s.frozenAt c k) := by
  unfold State.frozenAt
  split
  · exact .freeze s c
  · exact .refl s

theorem refrozenAt_frame (s : State) (c : CarrierId) (k : FaultKind) : EngineFrame s (s.refrozenAt c k) := by
  unfold State.refrozenAt
  split
  · exact (EngineFrame.freeze s c).trans (.rearFirst _ c)
  · exact .refl s

theorem faultReleased_frame (s : State) (c : CarrierId) : EngineFrame s (s.faultReleased c) :=
  (EngineFrame.leaveClaim s c).trans (.releaseAll _ c _)

theorem carrier_frozenAt : (s.frozenAt c k).carrier c = { s.carrier c with held := ((s.frozenAt c k).carrier c).held } := by
  unfold State.frozenAt
  split
  · obtain ⟨l, record, -⟩ := freeze_carrier s c
    rw [record]
  · rfl

theorem carrier_refrozenAt : (s.refrozenAt c k).carrier c = { s.carrier c with held := ((s.refrozenAt c k).carrier c).held } := by
  unfold State.refrozenAt
  split
  · obtain ⟨l, record, -⟩ := freeze_carrier s c
    rw [carrier_rearFirst, record]
  · rfl

theorem token_frozenAt (s : State) (c : CarrierId) (k : FaultKind) : (s.frozenAt c k).pinToken = s.pinToken := by
  unfold State.frozenAt
  split
  · exact token_freeze s c
  · rfl

theorem token_refrozenAt (s : State) (c : CarrierId) (k : FaultKind) : (s.refrozenAt c k).pinToken = s.pinToken := by
  unfold State.refrozenAt
  split
  · exact token_freeze s c
  · rfl

/-- Completing a freezing has the entries of a freezing, in another order. -/
theorem mem_refrozenAt (e : HeldEntry) : e ∈ ((s.refrozenAt c k).carrier c).held ↔ e ∈ ((s.frozenAt c k).carrier c).held := by
  unfold State.refrozenAt State.frozenAt
  split
  · exact mem_rearFirst e
  · exact Iff.rfl

theorem mem_frozenAt {e : HeldEntry} (m : e ∈ ((s.frozenAt c k).carrier c).held) :
    e ∈ (s.carrier c).held ∨ s.standsIn c e.zone = true ∧ e.status = .granted := by
  unfold State.frozenAt at m
  split at m
  · obtain ⟨l, record, frozen⟩ := freeze_carrier s c
    rw [record] at m
    exact frozen.source e m
  · exact .inl m

theorem frozenAt_keeps_granted {e : HeldEntry} (granted : e.status = .granted) (m : e ∈ (s.carrier c).held) :
    e ∈ ((s.frozenAt c k).carrier c).held := by
  unfold State.frozenAt
  split
  · exact freeze_keeps_granted granted m
  · exact m

/-- What the releases of a fault leave of its carrier, FAULTED, and of the zones it stands in (R135). -/
structure GroundKept (s t : State) (c : CarrierId) : Prop where
  carrier : t.carrier c = { s.carrier c with held := (t.carrier c).held }
  source : ∀ e ∈ (t.carrier c).held, e ∈ (s.carrier c).held
  ground : ∀ e ∈ (t.carrier c).held, e.status = .granted → s.standsIn c e.zone = true
  settled : s.pinToken = some c → ∀ e ∈ (t.carrier c).held, e.status = .granted
  kept : ∀ e ∈ (s.carrier c).held, s.standsIn c e.zone = true →
    (∀ x ∈ (s.carrier c).held, x.zone = e.zone → x.status = .granted) → e ∈ (t.carrier c).held
  holder : ∀ z, s.standsIn c z = true → (∀ x ∈ (s.carrier c).held, x.zone = z → x.status = .granted) →
    s.holder z = some c → t.holder z = some c
  token : t.pinToken ≠ some c

theorem parked_leaveClaim (parked : ¬s.active c) : ¬(s.leaveClaim c).active c := by
  unfold State.active at parked ⊢
  rwa [carrier_leaveClaim parked]

theorem groundKept (parked : ¬s.active c) : GroundKept s (s.faultReleased c) c := by
  obtain ⟨l, record, source, ground, settled, kept, holder, token⟩ := faultReleases_carrier parked
  have list : ((s.faultReleased c).carrier c).held = l := by rw [State.faultReleased, record]
  exact ⟨by rw [list]; exact record, list ▸ source, list ▸ ground, list ▸ settled, list ▸ kept, holder,
    ((tokenless_closed c).releaseAll c _ ⟨parked_leaveClaim parked, token⟩).2⟩

/-- With one entry for each zone, a zone is released where its entry is GRANTED and the carrier does not stand in it. -/
theorem mem_faultReleases (distinct : ((s.carrier c).held.map (·.zone)).Nodup) {e : HeldEntry} (m : e ∈ (s.carrier c).held) :
    e.zone ∈ s.faultReleases c ↔ e.status = .granted ∧ s.standsIn c e.zone = false := by
  unfold State.faultReleases
  rw [List.mem_map]
  constructor
  · rintro ⟨x, there, zone⟩
    obtain ⟨mx, chosen⟩ := List.mem_filter.1 (List.mem_reverse.1 there)
    rw [eq_of_zone_eq distinct mx m zone] at chosen
    simpa using chosen
  · intro chosen
    exact ⟨e, List.mem_reverse.2 (List.mem_filter.2 ⟨m, by simpa using chosen⟩), rfl⟩

/-- With one entry for each zone, the releases of a fault leave the GRANTED entries of the zones the carrier stands in, and the PENDING ones of a carrier without the token. -/
theorem held_faultReleased (parked : ¬s.active c) (distinct : ((s.carrier c).held.map (·.zone)).Nodup) :
    ((s.faultReleased c).carrier c).held = (s.carrier c).held.filter (fun e =>
      if e.status = .granted then s.standsIn c e.zone else decide (s.pinToken ≠ some c)) := by
  have claim := held_leaveClaim parked distinct
  have distinct' : (((s.leaveClaim c).carrier c).held.map (·.zone)).Nodup := by
    rw [claim]
    exact distinct.sublist (List.filter_sublist.map _)
  have released : ((s.faultReleased c).carrier c).held = ((s.leaveClaim c).carrier c).held.filter (fun e =>
      !(decide (e.status = .granted) && !s.standsIn c e.zone)) := by
    rw [State.faultReleased, releaseAll_parked (parked_leaveClaim parked)]
    refine List.filter_congr fun e m => ?_
    simp [List.contains_eq_mem, mem_faultReleases distinct' m, (EngineFrame.leaveClaim s c).standsIn]
  rw [released, claim, List.filter_filter]
  refine List.filter_congr fun e _ => ?_
  by_cases granted : e.status = .granted
  · simp [granted]
  · simp [granted, beq_false_of_ne granted]

end

/-! ## The carrier once its zones are dealt with -/

section
variable {s : State} {c : CarrierId} {k : FaultKind}

theorem faultFrozen_frame (s : State) (c : CarrierId) (k : FaultKind) : EngineFrame (s.captureFault c k) (s.faultFrozen c k) :=
  (faultParked_frame s c k).trans (frozenAt_frame _ c k)

theorem standsIn_captureFault (z : ZoneId) : (s.captureFault c k).standsIn c z = s.standsIn c z := by
  unfold State.standsIn State.front State.rear
  rw [(faultCaptured s c k).carrier]

theorem standsIn_faultFrozen (z : ZoneId) : (s.faultFrozen c k).standsIn c z = s.standsIn c z :=
  ((faultFrozen_frame s c k).standsIn c z).trans (standsIn_captureFault z)

theorem standsIn_faultParked (z : ZoneId) : (s.faultParked c k).standsIn c z = s.standsIn c z :=
  ((faultParked_frame s c k).standsIn c z).trans (standsIn_captureFault z)

theorem standsIn_faultReleased (z : ZoneId) : ((s.faultFrozen c k).faultReleased c).standsIn c z = s.standsIn c z :=
  ((faultReleased_frame _ c).standsIn c z).trans (standsIn_faultFrozen z)

theorem carrier_faultFrozen : (s.faultFrozen c k).carrier c =
    { (s.carrier c).faulted s.floorPort.frame k with held := ((s.faultFrozen c k).carrier c).held } := by
  rw [← carrier_faultParked]
  exact carrier_frozenAt

theorem parked_faultFrozen : ¬(s.faultFrozen c k).active c :=
  parked_of_faulted (by rw [carrier_faultFrozen]; rfl)

theorem token_faultFrozen : (s.faultFrozen c k).pinToken = s.pinToken :=
  (token_frozenAt _ c k).trans (token_faultParked s c k)

/-- The releases of a fault, seen from the state with the carrier FAULTED. -/
theorem groundKept_faultFrozen : GroundKept (s.faultFrozen c k) ((s.faultFrozen c k).faultReleased c) c := groundKept parked_faultFrozen

theorem carrier_faultGrounded : (s.faultGrounded c k).carrier c =
    { (s.carrier c).faulted s.floorPort.frame k with held := ((s.faultGrounded c k).carrier c).held } := by
  have refrozen : (s.faultGrounded c k).carrier c =
      { ((s.faultFrozen c k).faultReleased c).carrier c with held := ((s.faultGrounded c k).carrier c).held } := carrier_refrozenAt
  rw [groundKept_faultFrozen.carrier, carrier_faultFrozen] at refrozen
  exact refrozen

theorem faultGrounded_frame (s : State) (c : CarrierId) (k : FaultKind) : EngineFrame (s.captureFault c k) (s.faultGrounded c k) :=
  ((faultFrozen_frame s c k).trans (faultReleased_frame _ c)).trans (refrozenAt_frame _ c k)

theorem tokenless_faultGrounded : (s.faultGrounded c k).tokenless c := by
  refine ⟨parked_of_faulted (by rw [carrier_faultGrounded]; rfl), ?_⟩
  rw [State.faultGrounded, token_refrozenAt]
  exact groundKept_faultFrozen.token

/-! ## Its held list -/

/-- Every entry left was an entry, or is GRANTED for a zone the carrier stands in. -/
theorem mem_faultFrozen {e : HeldEntry} (m : e ∈ ((s.faultFrozen c k).carrier c).held) :
    e ∈ (s.carrier c).held ∨ s.standsIn c e.zone = true ∧ e.status = .granted := by
  have source := mem_frozenAt m
  rwa [held_faultParked, standsIn_faultParked] at source

theorem mem_faultGrounded {e : HeldEntry} (m : e ∈ ((s.faultGrounded c k).carrier c).held) :
    e ∈ (((s.faultFrozen c k).faultReleased c).carrier c).held ∨ s.standsIn c e.zone = true ∧ e.status = .granted := by
  have source := mem_frozenAt ((mem_refrozenAt e).1 m)
  rwa [standsIn_faultReleased] at source

/-- No GRANTED entry is left but for the zones the carrier stands in (R135). -/
theorem granted_faultGrounded {e : HeldEntry} (m : e ∈ ((s.faultGrounded c k).carrier c).held) (granted : e.status = .granted) :
    s.standsIn c e.zone = true := by
  rcases mem_faultGrounded m with left | frozen
  · exact standsIn_faultFrozen (k := k) e.zone ▸ groundKept_faultFrozen.ground e left granted
  · exact frozen.1

theorem granted_of_unpending (unpending : s.hasPending c = false) {e : HeldEntry} (m : e ∈ (s.carrier c).held) : e.status = .granted := by
  have notPending := List.any_eq_false.1 unpending e m
  cases status : e.status with
  | granted => rfl
  | pending => simp [status] at notPending

/-- No PENDING entry is left of the token holder's, nor of a carrier that had none. -/
theorem settled_faultGrounded (settled : s.pinToken = some c ∨ s.hasPending c = false) :
    ∀ e ∈ ((s.faultGrounded c k).carrier c).held, e.status = .granted := by
  intro e m
  rcases mem_faultGrounded m with left | frozen
  · rcases settled with holder | unpending
    · exact groundKept_faultFrozen.settled (token_faultFrozen.trans holder) e left
    · rcases mem_faultFrozen (groundKept_faultFrozen.source e left) with old | frozen
      · exact granted_of_unpending unpending old
      · exact frozen.2
  · exact frozen.2

/-- Where the entries of a zone the carrier stands in are GRANTED once it is frozen, the releases keep them. -/
theorem kept_faultGrounded {e : HeldEntry} (m : e ∈ ((s.faultFrozen c k).carrier c).held) (stands : s.standsIn c e.zone = true)
    (granted : ∀ x ∈ ((s.faultFrozen c k).carrier c).held, x.zone = e.zone → x.status = .granted) :
    e ∈ ((s.faultGrounded c k).carrier c).held := by
  have left := groundKept_faultFrozen.kept e m ((standsIn_faultFrozen _).trans stands) granted
  exact (mem_refrozenAt e).2 (frozenAt_keeps_granted (granted e m rfl) left)

/-- A trespasser's entries of the zones it stands in are GRANTED once they are frozen (R119). -/
theorem granted_faultFrozen_trespass {e : HeldEntry} (m : e ∈ ((s.faultFrozen c .trespass).carrier c).held)
    (stands : s.standsIn c e.zone = true) : e.status = .granted := by
  obtain ⟨l, record, frozen⟩ := freeze_carrier (s.faultParked c .trespass) c
  have list : ((s.faultFrozen c .trespass).carrier c).held = l := congrArg Carrier.held record
  exact frozen.granted e (list ▸ m) ((standsIn_faultParked _).trans stands)

theorem faultFrozen_of_ne (other : k ≠ .trespass) : s.faultFrozen c k = s.faultParked c k := if_neg other

theorem faultGrounded_of_ne (other : k ≠ .trespass) : s.faultGrounded c k = (s.faultParked c k).faultReleased c := by
  rw [State.faultGrounded, faultFrozen_of_ne other]
  exact if_neg other

/-- A GRANTED entry of a zone the carrier stands in stays. -/
theorem stays_faultGrounded (distinct : ((s.carrier c).held.map (·.zone)).Nodup) {e : HeldEntry} (m : e ∈ (s.carrier c).held)
    (granted : e.status = .granted) (stands : s.standsIn c e.zone = true) : e ∈ ((s.faultGrounded c k).carrier c).held := by
  have frozen : e ∈ ((s.faultFrozen c k).carrier c).held :=
    frozenAt_keeps_granted granted (by rwa [held_faultParked])
  refine kept_faultGrounded frozen stands fun x mx zone => ?_
  rcases mem_faultFrozen mx with old | given
  · rw [eq_of_zone_eq distinct old m zone]
    exact granted
  · exact given.2

/-- The held list after a fault that is no TRESPASS, of a carrier that keeps no PENDING entry. -/
theorem held_faultGrounded_of_ne (other : k ≠ .trespass) (distinct : ((s.carrier c).held.map (·.zone)).Nodup)
    (settled : s.pinToken = some c ∨ s.hasPending c = false) : ((s.faultGrounded c k).carrier c).held =
      (s.carrier c).held.filter (fun e => e.status == .granted && (s.front c == some e.zone || s.rear c == some e.zone)) := by
  have parked : ¬(s.faultParked c k).active c := parked_of_faulted (by rw [carrier_faultParked]; rfl)
  rw [faultGrounded_of_ne other, held_faultReleased parked (by rwa [held_faultParked]), held_faultParked, token_faultParked]
  refine List.filter_congr fun e m => ?_
  rw [standsIn_faultParked]
  by_cases granted : e.status = .granted
  · simp [granted, State.standsIn]
  · have holder : s.pinToken = some c := settled.resolve_right fun unpending => granted (granted_of_unpending unpending m)
    simp [granted, holder, beq_false_of_ne granted]

end

end Sys2Proof.Machine
end

section
/-! SUPPORT. The end of a first fault (R134 to R137): the route lost, the marks and the policy action; and with the repeat fault and the freezing the statement of O35. -/

namespace Sys2Proof.Machine

/-! ## The route lost (R134) -/

section
variable {s : State} {c : CarrierId}

theorem routeLost_of_none (route : (s.carrier c).route = none) : s.routeLost c = s :=
  if_neg (by rw [route]; exact nofun)

theorem routeLost_of_route (route : (s.carrier c).route ≠ none) : s.routeLost c = (s.detachRoute c).undirect c :=
  if_pos (Option.isSome_iff_ne_none.2 route)

theorem routeLost_frame (s : State) (c : CarrierId) : EngineFrame s (s.routeLost c) := by
  unfold State.routeLost
  split
  · exact (EngineFrame.detachRoute s c).trans (.undirect _ c)
  · exact .refl s

theorem tokenless_detachRoute (h : s.tokenless c) : (s.detachRoute c).tokenless c := by
  refine ⟨fun active => h.1 ?_, (token_detachRoute s c).symm ▸ h.2⟩
  unfold State.active at active ⊢
  rwa [(routeLeft s c).carrier] at active

theorem tokenless_routeLost (h : s.tokenless c) : (s.routeLost c).tokenless c := by
  by_cases route : (s.carrier c).route = none
  · rwa [routeLost_of_none route]
  · rw [routeLost_of_route route]
    exact (tokenless_closed c).toEngineClosed.undirect c (tokenless_detachRoute h)

theorem carrier_routeLost (h : s.tokenless c) : (s.routeLost c).carrier c = { s.carrier c with
    route := none
    cursor := if (s.carrier c).route = none then (s.carrier c).cursor else .none
    laps := if (s.carrier c).route = none then (s.carrier c).laps else 0 } := by
  by_cases route : (s.carrier c).route = none
  · rw [routeLost_of_none route, if_pos route, if_pos route, ← route]
  · rw [routeLost_of_route route, (ParkedKept.closed _).undirect c (.refl _) c (tokenless_detachRoute h).1, (routeLeft s c).carrier]
    simp [route]

theorem holder_routeLost {z : ZoneId} (own : s.holder z = some c) : (s.routeLost c).holder z = some c := by
  unfold State.routeLost
  split
  · exact (holder_closed z c).undirect c ((holder_detachRoute s c z).trans own)
  · exact own

end

/-! ## The marks (R134 step 5) -/

theorem watch_faultMarked (s : State) (c : CarrierId) (slot : MgmtSlot) : (s.faultMarked c).watch slot = (s.watch slot).breakFor c :=
  (faultMarked s c).watches slot

theorem token_faultMarked (s : State) (c : CarrierId) : (s.faultMarked c).pinToken = s.pinToken := rfl

theorem holder_faultMarked (s : State) (c : CarrierId) (z : ZoneId) : (s.faultMarked c).holder z = s.holder z := rfl

/-! ## The policy action (R136) -/

/-- What the steps of a fault before its policy action leave of the hold table, and of the tables that the action reads. -/
structure HoldsKept (s t : State) : Prop where
  zones : t.zones = s.zones
  policy : t.policy = s.policy
  districtHold : t.districtHold = s.districtHold
  linkFlag : t.linkFlag = s.linkFlag
  sectorHolds : t.sectorHolds = s.sectorHolds
  holdChange : t.flags.holdChange = s.flags.holdChange

section
variable {s q t : State} {c : CarrierId} {k : FaultKind}

theorem EngineFrame.holdsKept (h : EngineFrame s t) : HoldsKept s t :=
  ⟨h.zones, h.policy, h.districtHold, h.linkFlag, h.sectorHolds, by rw [h.flags]⟩

theorem HoldsKept.trans (h : HoldsKept s q) (j : HoldsKept q t) : HoldsKept s t :=
  ⟨j.zones.trans h.zones, j.policy.trans h.policy, j.districtHold.trans h.districtHold, j.linkFlag.trans h.linkFlag,
    j.sectorHolds.trans h.sectorHolds, j.holdChange.trans h.holdChange⟩

theorem holdsKept_captureFault (s : State) (c : CarrierId) (k : FaultKind) : HoldsKept s (s.captureFault c k) :=
  ⟨rfl, rfl, rfl, rfl, rfl, rfl⟩

theorem holdsKept_faultMarked (s : State) (c : CarrierId) : HoldsKept s (s.faultMarked c) := ⟨rfl, rfl, rfl, rfl, rfl, rfl⟩

theorem HoldsKept.sectorHold (kept : HoldsKept s t) (n : SectorId) : t.sectorHold n = s.sectorHold n := by
  unfold State.sectorHold
  rw [kept.sectorHolds]

theorem HoldsKept.sectorActive (kept : HoldsKept s t) (n : SectorId) : t.sectorActive n = s.sectorActive n := by
  unfold State.sectorActive
  rw [kept.sectorHold]

theorem HoldsKept.districtActive (kept : HoldsKept s t) : t.districtActive = s.districtActive := by
  unfold State.districtActive
  rw [kept.districtHold, kept.linkFlag]

theorem DistrictFed.of_kept (kept : HoldsKept s q) (fed : DistrictFed q t c k) : DistrictFed s t c k where
  district := by rw [fed.district, kept.districtHold]
  sectors := fed.sectors.trans kept.sectorHolds
  flag := by rw [fed.flag, kept.holdChange, kept.districtActive]

theorem SectorFed.of_kept {n : SectorId} (kept : HoldsKept s q) (fed : SectorFed q t n c k) : SectorFed s t n c k where
  sector := by rw [fed.sector, kept.sectorHold]
  others m other := (fed.others m other).trans (kept.sectorHold m)
  district := fed.district.trans kept.districtHold
  flag := by rw [fed.flag, kept.holdChange, kept.sectorActive]

theorem applyPolicy_holdCarrier (action : tget s.policy k.index = .holdCarrier) : s.applyPolicy c k = s := by
  unfold State.applyPolicy
  rw [action]

theorem applyPolicy_holdDistrict (action : tget s.policy k.index = .holdDistrict) : s.applyPolicy c k = s.feedHold .district c k := by
  unfold State.applyPolicy
  rw [action]

theorem applyPolicy_holdSector_none (action : tget s.policy k.index = .holdSector) (front : s.front c = none) :
    s.applyPolicy c k = s.feedHold .district c k := by
  unfold State.applyPolicy
  rw [action, front]

theorem applyPolicy_holdSector {z : ZoneId} (action : tget s.policy k.index = .holdSector) (front : s.front c = some z) :
    s.applyPolicy c k = s.feedHold (.sector (s.zone z).sector) c k := by
  unfold State.applyPolicy
  rw [action, front]

theorem carrier_applyPolicy (s : State) (c : CarrierId) (k : FaultKind) (d : CarrierId) :
    (s.applyPolicy c k).carrier d = s.carrier d := by
  rw [applyPolicy_only]
  rfl

theorem watch_applyPolicy (s : State) (c : CarrierId) (k : FaultKind) (slot : MgmtSlot) :
    (s.applyPolicy c k).watch slot = s.watch slot := by
  rw [applyPolicy_only]
  cases slot <;> rfl

theorem holder_applyPolicy (s : State) (c : CarrierId) (k : FaultKind) (z : ZoneId) :
    (s.applyPolicy c k).holder z = s.holder z := by
  rw [applyPolicy_only]
  rfl

theorem token_applyPolicy (s : State) (c : CarrierId) (k : FaultKind) : (s.applyPolicy c k).pinToken = s.pinToken := by
  rw [applyPolicy_only]

theorem linkFlag_applyPolicy (s : State) (c : CarrierId) (k : FaultKind) : (s.applyPolicy c k).linkFlag = s.linkFlag := by
  rw [applyPolicy_only]

end

/-! ## What a first fault leaves (R134, R135) -/

section
variable {s : State} {c : CarrierId} {k : FaultKind}

theorem faultDone_marked : FaultMarked ((s.faultGrounded c k).routeLost c) (s.faultDone c k) c := faultMarked _ c

theorem routeLost_faultGrounded_frame (s : State) (c : CarrierId) (k : FaultKind) :
    EngineFrame (s.captureFault c k) ((s.faultGrounded c k).routeLost c) :=
  (faultGrounded_frame s c k).trans (routeLost_frame _ c)

theorem holdsKept_faultDone : HoldsKept s (s.faultDone c k) :=
  ((holdsKept_captureFault s c k).trans (routeLost_faultGrounded_frame s c k).holdsKept).trans (holdsKept_faultMarked _ c)

theorem carrier_faultDone : (s.faultDone c k).carrier c = { (s.carrier c).faulted s.floorPort.frame k with
    held := ((s.faultGrounded c k).carrier c).held, route := none
    cursor := if (s.carrier c).route = none then (s.carrier c).cursor else .none
    laps := if (s.carrier c).route = none then (s.carrier c).laps else 0
    flags := { (s.carrier c).flags with state := true, fault := true } } := by
  rw [faultDone_marked.carrier, carrier_routeLost tokenless_faultGrounded, carrier_faultGrounded]
  rfl

theorem front_faultDone : (s.faultDone c k).front c = s.front c := by
  unfold State.front
  rw [carrier_faultDone]
  rfl

theorem carrier_firstFault (s : State) (c : CarrierId) (k : FaultKind) : (s.firstFault c k).carrier c = (s.faultDone c k).carrier c :=
  carrier_applyPolicy ..

theorem held_firstFault : ((s.firstFault c k).carrier c).held = ((s.faultGrounded c k).carrier c).held := by
  rw [carrier_firstFault, carrier_faultDone]

theorem holds_firstFault (z : ZoneId) : (s.firstFault c k).holds c z = (s.faultGrounded c k).holds c z := by
  unfold State.holds
  rw [held_firstFault]

theorem firstFault_firstFaulted : FirstFaulted s (s.firstFault c k) c k := by
  have record := (carrier_firstFault s c k).trans carrier_faultDone
  refine ⟨by rw [record]; rfl, by rw [record]; rfl, by rw [record]; rfl, by rw [record]; rfl, by rw [record]; exact ⟨rfl, rfl⟩,
    by rw [record], fun waiting => ?unqueued, ?token, fun e m granted => ?ground, fun slot => ?unwatched⟩
  case unqueued =>
    rw [record]
    exact ⟨if_pos waiting, if_pos waiting⟩
  case token =>
    rw [firstFault_eq, token_applyPolicy, State.faultDone, token_faultMarked]
    exact (tokenless_routeLost tokenless_faultGrounded).2
  case ground =>
    rw [held_firstFault] at m
    exact (standsIn_iff ..).1 (granted_faultGrounded m granted)
  case unwatched =>
    rw [firstFault_eq, watch_applyPolicy, State.faultDone, watch_faultMarked]
    exact intact_breakFor

/-! ## A trespasser (R119) -/

theorem faultGrounded_trespass (s : State) (c : CarrierId) :
    s.faultGrounded c .trespass = (((s.faultFrozen c .trespass).faultReleased c).freeze c).rearFirst c :=
  refrozenAt_trespass ..

theorem faultFrozen_trespass (s : State) (c : CarrierId) : s.faultFrozen c .trespass = (s.faultParked c .trespass).freeze c :=
  frozenAt_trespass ..

/-- A zone that a trespasser stands in and holds once it is frozen stays held. -/
theorem holds_faultGrounded_trespass {z : ZoneId} (stands : s.standsIn c z = true) (held : (s.faultFrozen c .trespass).holds c z = true) :
    (s.faultGrounded c .trespass).holds c z = true := by
  obtain ⟨e, m, rfl⟩ := (holds_iff ..).1 held
  exact (holds_iff ..).2 ⟨e, kept_faultGrounded m stands fun x mx zone =>
    granted_faultFrozen_trespass mx (zone ▸ stands), rfl⟩

/-- A zone that a trespasser stands in and has got once it is frozen stays its own. -/
theorem holder_faultGrounded_trespass {z : ZoneId} (stands : s.standsIn c z = true) (own : (s.faultFrozen c .trespass).holder z = some c) :
    (s.faultGrounded c .trespass).holder z = some c := by
  have kept := groundKept_faultFrozen.holder z ((standsIn_faultFrozen z).trans stands)
    (fun x m zone => granted_faultFrozen_trespass m (zone ▸ stands)) own
  rw [faultGrounded_trespass, holder_rearFirst]
  exact holder_freeze kept

theorem holds_faultFrozen_trespass {z : ZoneId} (held : s.holds c z = true) : (s.faultFrozen c .trespass).holds c z = true := by
  obtain ⟨l, record, frozen⟩ := freeze_carrier (s.faultParked c .trespass) c
  rw [faultFrozen_trespass, holds_iff, record]
  exact frozen.kept z ((holds_iff ..).1 ((holds_faultParked s c .trespass z).trans held))

theorem given_faultFrozen_trespass {z : ZoneId} (stands : s.standsIn c z = true) (unheld : s.holds c z = false) (free : s.mayBeGiven c z)
    (room : (s.carrier c).held.length + 2 ≤ 12) :
    (s.faultFrozen c .trespass).holds c z = true ∧ (s.faultFrozen c .trespass).holder z = some c := by
  rw [faultFrozen_trespass]
  exact freeze_gives ((standsIn_iff ..).1 ((standsIn_faultParked z).trans stands)) ((holds_faultParked ..).trans unheld)
    ((mayBeGiven_faultParked ..).2 free) (by rwa [held_faultParked])

theorem holder_firstFault {z : ZoneId} (own : (s.faultGrounded c k).holder z = some c) : (s.firstFault c k).holder z = some c := by
  rw [firstFault_eq, holder_applyPolicy, State.faultDone, holder_faultMarked]
  exact holder_routeLost own

theorem rear_refrozen (s : State) (c : CarrierId) (k : FaultKind) :
    (((s.faultFrozen c k).faultReleased c).freeze c).rear c = s.rear c := by
  have captured : (s.captureFault c k).rear c = s.rear c := by
    unfold State.rear
    rw [(faultCaptured s c k).carrier]
  rw [(EngineFrame.freeze _ c).rear, (faultReleased_frame _ c).rear, (faultFrozen_frame s c k).rear, captured]

/-- A first fault by a TRESPASS: reported zones stay held or are given, and the rear zone's entry is the first. -/
theorem firstFault_trespass : (∀ z, s.front c = some z ∨ s.rear c = some z →
      (s.holds c z = true → (s.firstFault c .trespass).holds c z = true) ∧
      (s.holds c z = false → s.mayBeGiven c z → (s.carrier c).held.length + 2 ≤ 12 →
        (s.firstFault c .trespass).holds c z = true ∧ (s.firstFault c .trespass).holder z = some c)) ∧
    ∀ b, s.rear c = some b → (s.firstFault c .trespass).holds c b = true →
      heldIndex ((s.firstFault c .trespass).carrier c).held b = 0 := by
  refine ⟨fun z reported => ?_, fun b rear held => ?_⟩
  · have stands : s.standsIn c z = true := (standsIn_iff ..).2 reported
    rw [holds_firstFault]
    refine ⟨fun held => holds_faultGrounded_trespass stands (holds_faultFrozen_trespass held), fun unheld free room => ?_⟩
    obtain ⟨listed, own⟩ := given_faultFrozen_trespass stands unheld free room
    exact ⟨holds_faultGrounded_trespass stands listed, holder_firstFault (holder_faultGrounded_trespass stands own)⟩
  · rw [holds_firstFault, faultGrounded_trespass] at held
    rw [held_firstFault, faultGrounded_trespass]
    exact heldIndex_rearFirst ((rear_refrozen s c .trespass).trans rear) held

/-! ## The steps, as the statement names them -/

theorem report_leaveClaim_faultFrozen :
    (((s.faultFrozen c k).leaveClaim c).carrier c).report = (s.carrier c).report := by
  rw [(((faultFrozen_frame s c k).trans (.leaveClaim _ c)).carriers c).report, (faultCaptured s c k).carrier]

theorem route_faultGrounded : ((s.faultGrounded c k).carrier c).route = (s.carrier c).route := by
  rw [carrier_faultGrounded]
  rfl

theorem firstFault_steps (s : State) (c : CarrierId) (k : FaultKind) : FaultSteps s (s.firstFault c k) c k := by
  refine ⟨s.captureFault c k, s.faultDequeued c k, s.faultParked c k, s.faultFrozen c k, (s.faultFrozen c k).faultReleased c,
    s.faultGrounded c k, (s.faultGrounded c k).routeLost c, s.faultDone c k, faultCaptured s c k, faultDequeued_of_waiting s c k,
    faultDequeued_of_not s c k, carrier_modCarrier_self .., fun i other => carrier_modCarrier_of_ne _ _ other, rfl, rfl,
    faultReleases_fold report_leaveClaim_faultFrozen, fun other => if_neg other, ?refrozen, fun route => ?routeless, fun route => ?detached,
    faultDone_marked, rfl, applyPolicy_only ..⟩
  case refrozen =>
    rintro rfl
    rw [faultGrounded_trespass]
    refine ⟨?_, ?_, fun i other => carrier_modCarrier_of_ne _ _ other, rfl⟩
    · rw [carrier_rearFirst, rear_refrozen]
    · rw [carrier_rearFirst]
  case routeless => exact routeLost_of_none (route_faultGrounded.trans route)
  case detached => exact ⟨_, routeLeft _ c, routeLost_of_route (by rwa [route_faultGrounded])⟩

/-! ## The entry that the policy feeds (R136) -/

theorem firstFault_holdCarrier (action : tget s.policy k.index = .holdCarrier) :
    (s.firstFault c k).sectorHolds = s.sectorHolds ∧ (s.firstFault c k).districtHold = s.districtHold ∧
      (s.firstFault c k).flags.holdChange = s.flags.holdChange := by
  have kept : HoldsKept s (s.faultDone c k) := holdsKept_faultDone
  rw [firstFault_eq, applyPolicy_holdCarrier (by rwa [kept.policy])]
  exact ⟨kept.sectorHolds, kept.districtHold, kept.holdChange⟩

theorem firstFault_holdDistrict (action : tget s.policy k.index = .holdDistrict) : DistrictFed s (s.firstFault c k) c k := by
  have kept : HoldsKept s (s.faultDone c k) := holdsKept_faultDone
  rw [firstFault_eq, applyPolicy_holdDistrict (by rwa [kept.policy])]
  exact .of_kept kept (feedDistrict ..).1

theorem firstFault_holdSector_none (action : tget s.policy k.index = .holdSector) (front : s.front c = none) :
    DistrictFed s (s.firstFault c k) c k := by
  have kept : HoldsKept s (s.faultDone c k) := holdsKept_faultDone
  rw [firstFault_eq, applyPolicy_holdSector_none (by rwa [kept.policy]) (front_faultDone.trans front)]
  exact .of_kept kept (feedDistrict ..).1

theorem firstFault_holdSector {z : ZoneId} (action : tget s.policy k.index = .holdSector) (front : s.front c = some z) :
    SectorFed s (s.firstFault c k) (s.zone z).sector c k := by
  have kept : HoldsKept s (s.faultDone c k) := holdsKept_faultDone
  have zone : (s.faultDone c k).zone z = s.zone z := by
    unfold State.zone
    rw [kept.zones]
  rw [firstFault_eq, applyPolicy_holdSector (by rwa [kept.policy]) (front_faultDone.trans front), zone]
  exact .of_kept kept (feedSector ..).1

/-! ## A fault raised (R132, R137) -/

theorem raiseFault_vacant (vacant : (s.carrier c).state = .vacant) : s.raiseFault c k = s := by
  unfold State.raiseFault
  rw [vacant]

theorem raiseFault_faulted (faulted : (s.carrier c).state = .faulted) : s.raiseFault c k = s.repeatFault c k := by
  unfold State.raiseFault
  rw [faulted]

theorem raiseFault_first (notVacant : (s.carrier c).state ≠ .vacant) (notFaulted : (s.carrier c).state ≠ .faulted) :
    s.raiseFault c k = s.firstFault c k := by
  unfold State.raiseFault
  split
  case h_1 vacant => exact absurd vacant notVacant
  case h_2 faulted => exact absurd faulted notFaulted
  all_goals rfl

/-- A repeat fault writes its carrier's record and no other. -/
theorem repeatFault_only (s : State) (c : CarrierId) (k : FaultKind) :
    s.repeatFault c k = { s with carriers := (s.repeatFault c k).carriers } ∧
      ∀ d, d ≠ c → (s.repeatFault c k).carrier d = s.carrier d := by
  refine ⟨rfl, fun d other => ?_⟩
  rw [State.repeatFault, State.flagFault, carrier_modCarrier_of_ne _ _ other, (faultCaptured s c k).others d other]

theorem carrier_repeatFault (s : State) (c : CarrierId) (k : FaultKind) : (s.repeatFault c k).carrier c =
    { (s.captureFault c k).carrier c with flags := { (s.carrier c).flags with fault := true } } := by
  rw [State.repeatFault, State.flagFault, carrier_modCarrier_self, (faultCaptured s c k).carrier]

end

/-- Settles O35: a fault by its carrier's state, a first one by its steps, held list and policy action, and the freezing zone by zone. -/
theorem aFaultIsFirstOrRepeat : Obligations.AFaultIsFirstOrRepeat := by
  refine ⟨by decide, fun s c k => ⟨raiseFault_vacant, fun faulted => ?again, fun notVacant notFaulted => ?first, fun z atRear t frozen => ?zone,
    fun _ _ rear front apart => freeze_two rear front apart, fun _ rear front => freeze_one rear front,
    fun _ rear front => freeze_rearOnly rear front, fun _ rear front => freeze_frontOnly rear front, freeze_unreported⟩⟩
  case again =>
    obtain ⟨only, others⟩ := repeatFault_only s c k
    refine ⟨_, raiseFault_faulted faulted, only, others, ?_⟩
    rw [carrier_repeatFault, (faultCaptured s c k).carrier]
  case first =>
    refine ⟨_, raiseFault_first notVacant notFaulted, firstFault_firstFaulted, fun settled => ?_, fun distinct => ⟨fun e m granted stands => ?_,
      fun other settled => ?_⟩, firstFault_steps s c k, (linkFlag_applyPolicy ..).trans holdsKept_faultDone.linkFlag, firstFault_holdCarrier,
      firstFault_holdDistrict, firstFault_holdSector_none, fun z => firstFault_holdSector, fun trespass => trespass ▸ firstFault_trespass⟩
    · rw [held_firstFault]
      exact settled_faultGrounded settled
    · rw [held_firstFault]
      exact stays_faultGrounded distinct m granted ((standsIn_iff ..).2 stands)
    · rw [held_firstFault]
      exact held_faultGrounded_of_ne other distinct settled
  case zone =>
    obtain rfl := frozen
    refine ⟨freezeZone_held atRear, fun unheld free room => ?_, freezeZone_not atRear⟩
    obtain ⟨record, others, holders, joined, apart, -⟩ := freezeZone_given atRear unheld free room
    exact ⟨record, others, holders, joined, apart⟩

end Sys2Proof.Machine
end

section
/-! SUPPORT. A dispatcher frame arrives (R149, R150, R152): an order slot read, good and bad frames counted by the port, and the order changes handed to the engine; with them the statement of O41. -/

namespace Sys2Proof.Machine

/-! ## An order slot read (R152, R158) -/

/-- An order slot is read as its two bytes say. -/
theorem readOrder_bytes (b target : Byte) : ∃ v : Speed, v.val = b.toNat / 16 % 4 ∧
    (b.toNat % 4 = 0 → readOrder b target = ⟨.hold, target, v⟩) ∧ (b.toNat % 4 = 1 → readOrder b target = ⟨.goTo, target, v⟩) ∧
    (b.toNat % 4 = 2 → readOrder b target = ⟨.goFull, target, v⟩) ∧ (b.toNat % 4 = 3 → readOrder b target = ⟨.hold, 255, 0⟩) := by
  have kind : (b.extractLsb' 0 2).toNat = b.toNat % 4 := by simp
  refine ⟨(b.extractLsb' 4 2).toFin, by simp [Nat.shiftRight_eq_div_pow], ?_, ?_, ?_, ?_⟩ <;>
  · intro code
    unfold readOrder
    rw [kind, code]
    rfl

/-! ## Records changed carrier by carrier -/

/-- Updates that each leave all but one field of the state, one after another, leave all but that field. -/
theorem fold_only {α β : Type} (part : State → β) (put : State → β → State) (put_put : ∀ s x y, put (put s x) y = put s y)
    (put_part : ∀ s, put s (part s) = s) {f : State → α → State} (only : ∀ t a, f t a = put t (part (f t a)))
    (l : List α) (s : State) : l.foldl f s = put s (part (l.foldl f s)) := by
  induction l generalizing s with
  | nil => exact (put_part s).symm
  | cons a l ih =>
    rw [List.foldl_cons]
    refine (ih (f s a)).trans ?_
    rw [only s a, put_put, ← only s a]

/-- Changes of carrier records leave the rest of the state. -/
theorem foldCarriers_only (f : CarrierId → Carrier → Carrier) (s : State) : allCarriers.foldl (fun t c => t.modCarrier c (f c)) s =
    { s with carriers := (allCarriers.foldl (fun t c => t.modCarrier c (f c)) s).carriers } :=
  fold_only State.carriers (fun t x => { t with carriers := x }) (fun _ _ _ => rfl) (fun _ => rfl) (fun _ _ => rfl) allCarriers s

/-- The 48 records, each changed once by a function of its own slot. -/
theorem carrier_foldCarriers (f : CarrierId → Carrier → Carrier) (s : State) (c : CarrierId) :
    (allCarriers.foldl (fun t d => t.modCarrier d (f d)) s).carrier c = f c (s.carrier c) := by
  have entry := fold_entry State.carrier (fun _ => ()) (fun t d => t.modCarrier d (f d)) (fun _ d r => f d r)
    (fun t d => carrier_modCarrier_self ..) (fun t d e other => carrier_modCarrier_of_ne _ _ other) (fun _ _ => rfl)
    allCarriers (List.nodup_finRange 48) s c
  exact entry.trans (if_pos (List.mem_finRange c))

/-! ## The order changes (R73, log 20) -/

section
variable (s : State)

theorem EngineFrame.orderChanges (changed : CarrierId → Bool) : EngineFrame s (s.orderChanges changed) := by
  unfold State.orderChanges
  refine foldCarriers_keeps (P := EngineFrame s) _ (fun t c h => ?_) (.refl s)
  split
  · unfold State.orderChange
    split
    · exact h.trans (.runPass t c)
    · exact h
  · exact h

/-- In slot order, each carrier whose order changes has a claim pass where it is ADVANCING and ON_ORDER at its turn. -/
theorem orderChanges_eq {changed : CarrierId → Bool} {P : CarrierId → Prop} [DecidablePred P] (same : ∀ c, changed c = true ↔ P c) :
    s.orderChanges changed = (List.finRange 48).foldl (fun v c =>
      if P c ∧ (v.carrier c).state = .advancing ∧ (v.carrier c).claimMode = .onOrder then v.runPass c else v) s := by
  unfold State.orderChanges
  refine congrArg (fun step => (List.finRange 48).foldl step s) (funext fun v => funext fun c => ?_)
  by_cases change : P c
  · rw [if_pos ((same c).2 change), State.orderChange]
    exact ite_congr (propext (and_iff_right change).symm) (fun _ => rfl) (fun _ => rfl)
  · rw [if_neg fun h => change ((same c).1 h), if_neg fun h => change h.1]

/-- Where no order changes, no pass is made. -/
theorem orderChanges_none {changed : CarrierId → Bool} (none : ∀ c, changed c = false) : s.orderChanges changed = s :=
  foldCarriers_keeps (P := (· = s)) _ (fun t c same => (if_neg (by simp [none c])).trans same) rfl

end

/-! ## The frame taken (R149) -/

section
variable {s : State} {frame : List Byte}

theorem dispatchFrameGood_iff (s : State) (frame : List Byte) : s.dispatchFrameGood frame = true ↔ GoodDispatcherFrame s frame := by
  unfold State.dispatchFrameGood frameGood halfAt
  simp only [Bool.and_eq_true, beq_iff_eq]
  exact ⟨fun ⟨⟨⟨length, check⟩, echo⟩, code⟩ => ⟨length, check, echo, code⟩,
    fun ⟨length, check, echo, code⟩ => ⟨⟨⟨length, check⟩, echo⟩, code⟩⟩

/-- The dispatch port's window with its frame taken (R149). -/
def State.dispatchTaken (s : State) : State := { s with dispatchPort := { s.dispatchPort with window := .taken } }

theorem exec_dispatcherFrameArrival (released : s.resetPin = false) :
    exec (.dispatcherFrameArrival frame) s = .next (s.dispatchArrival frame) := by
  rw [show exec (.dispatcherFrameArrival frame) s = execDispatcherFrameArrival frame s from rfl, execDispatcherFrameArrival, released]
  rfl

theorem exec_dispatchPortLoss (released : s.resetPin = false) (synced : s.dispatchPort.state = .synced)
    (third : s.dispatchPort.badRun = 2) (opened : s.dispatchPort.window = .open) :
    exec .dispatchPortLoss s = .next s.dispatchTaken.dispatchBad := by
  rw [show exec .dispatchPortLoss s = execDispatchPortLoss s from rfl, execDispatchPortLoss, if_neg (by simp [released]),
    if_pos ⟨synced, third, opened⟩]
  rfl

theorem exec_dispatchPortReturn (released : s.resetPin = false) (lost : s.dispatchPort.state = .lost)
    (second : s.dispatchPort.goodRun = 1) (opened : s.dispatchPort.window = .open) (good : GoodDispatcherFrame s frame) :
    exec (.dispatchPortReturn frame) s = .next (s.dispatchTaken.dispatchGood frame) := by
  rw [show exec (.dispatchPortReturn frame) s = execDispatchPortReturn frame s from rfl, execDispatchPortReturn,
    if_neg (by simp [released]), if_pos ⟨lost, second, opened, (dispatchFrameGood_iff s frame).2 good⟩]
  rfl

theorem dispatchArrival_closed (closed : s.dispatchPort.window ≠ .open) : s.dispatchArrival frame = s := by
  unfold State.dispatchArrival
  split
  · rfl
  · rfl
  · next opened => exact absurd opened closed

section
variable (opened : s.dispatchPort.window = .open)
include opened

theorem dispatchArrival_good (good : GoodDispatcherFrame s frame) : s.dispatchArrival frame = s.dispatchTaken.dispatchGood frame := by
  unfold State.dispatchArrival
  rw [opened]
  exact if_pos ((dispatchFrameGood_iff s frame).2 good)

theorem dispatchArrival_bad (bad : ¬GoodDispatcherFrame s frame) : s.dispatchArrival frame = s.dispatchTaken.dispatchBad := by
  unfold State.dispatchArrival
  rw [opened]
  exact if_neg (fun good => bad ((dispatchFrameGood_iff s frame).1 good))

end

/-! ## The frame counted (R150) -/

/-- The third bad frame in a run makes a port LOST. -/
theorem countBad_third {p : Port} (synced : p.state = .synced) (third : p.badRun = 2) :
    p.countBad = { p with state := .lost, badRun := 0, goodRun := 0 } := by
  simp [Port.countBad, synced, third]

theorem dispatchBad_lost (lost : s.dispatchPort.state = .lost) :
    s.dispatchBad = { s with dispatchPort := { s.dispatchPort with goodRun := 0 } } := by
  simp [State.dispatchBad, Port.countBad, lost]

theorem dispatchBad_synced (synced : s.dispatchPort.state = .synced) (few : s.dispatchPort.badRun < 2) :
    s.dispatchBad = { s with dispatchPort := { s.dispatchPort with badRun := s.dispatchPort.badRun + 1 } } := by
  simp [State.dispatchBad, countBad_synced synced few, synced]

theorem dispatchGood_lost (lost : s.dispatchPort.state = .lost) (first : s.dispatchPort.goodRun = 0) :
    s.dispatchGood frame = { s with dispatchPort := { s.dispatchPort with goodRun := 1 } } := by
  simp [State.dispatchGood, Port.countGood, lost, first]

theorem dispatchGood_synced (synced : s.dispatchPort.state = .synced) :
    s.dispatchGood frame = { s with dispatchPort := { s.dispatchPort with badRun := 0 } }.handOnDispatch frame false := by
  unfold State.dispatchGood
  rw [synced, countGood_synced synced]

end

/-! ## A good frame of a SYNCED port (R152) -/

section
variable (s : State) (frame : List Byte)

/-- A SYNCED port that has counted a good frame, its 48 orders taken. -/
def State.ordersTaken : State :=
  { s with dispatchPort := { s.dispatchPort with window := .taken, badRun := 0 } }.replaceOrders frame

theorem carrier_ordersTaken (c : CarrierId) :
    (s.ordersTaken frame).carrier c = { s.carrier c with lastOrder := orderAt frame c } := by
  unfold State.ordersTaken State.replaceOrders
  exact carrier_foldCarriers (fun d r => { r with lastOrder := orderAt frame d }) _ c

theorem ordersTaken_only : s.ordersTaken frame = { s with
    carriers := (s.ordersTaken frame).carriers, dispatchPort := { s.dispatchPort with window := .taken, badRun := 0 } } := by
  unfold State.ordersTaken State.replaceOrders
  exact foldCarriers_only (fun c r => { r with lastOrder := orderAt frame c }) _

/-- An order that a frame changes differs from the last one. -/
theorem orderReadChanges_iff (c : CarrierId) : s.orderReadChanges frame false c = true ↔ orderAt frame c ≠ (s.carrier c).lastOrder :=
  bne_iff_ne

variable {s frame}

theorem dispatchGood_taken (synced : s.dispatchPort.state = .synced) : s.dispatchTaken.dispatchGood frame =
    ((s.ordersTaken frame).takeFragment .operator (frame.getD 99 0) ((frame.drop 100).take 16)).orderChanges
      (s.orderReadChanges frame false) :=
  dispatchGood_synced (s := s.dispatchTaken) synced

/-- A frame that carries every last order again changes none. -/
theorem orderChanges_ordersTaken (same : ∀ c, (s.ordersTaken frame).carrier c = s.carrier c) :
    (s.ordersTaken frame).orderChanges (s.orderReadChanges frame false) = s.ordersTaken frame := by
  refine orderChanges_none _ fun c => Bool.eq_false_iff.2 fun change => (orderReadChanges_iff s frame c).1 change ?_
  rw [← same c, carrier_ordersTaken]

end

/-- Settles O41: the bytes of an order slot, then the arrival by the port's window, its state and the frame. -/
theorem aDispatcherFrameArrives : Obligations.ADispatcherFrameArrives := by
  refine ⟨readOrder_bytes, fun frame s released => ?_⟩
  rw [exec_dispatcherFrameArrival released]
  refine ⟨fun closed => ?closed, fun opened lost bad => ?lostBad, fun opened lost first good => ?lostGood,
    fun opened synced few bad => ?bad, fun opened synced good noFragment => ?noFragment, fun opened synced good => ?good,
    fun opened synced third bad => ?loss, fun opened lost second good => ?returned⟩
  case closed => rw [dispatchArrival_closed closed]
  case lostBad =>
    rw [dispatchArrival_bad opened bad, dispatchBad_lost (s := s.dispatchTaken) lost]
    rfl
  case lostGood =>
    rw [dispatchArrival_good opened good, dispatchGood_lost (s := s.dispatchTaken) lost first]
    rfl
  case bad =>
    rw [dispatchArrival_bad opened bad, dispatchBad_synced (s := s.dispatchTaken) synced few]
    rfl
  case noFragment =>
    rw [dispatchArrival_good opened good, dispatchGood_taken synced, takeFragment_none .operator noFragment]
    exact ⟨_, _, rfl, carrier_ordersTaken s frame, ordersTaken_only s frame, .orderChanges _ _, orderChanges_ordersTaken⟩
  case good =>
    rw [dispatchArrival_good opened good, dispatchGood_taken synced, orderChanges_eq _ (orderReadChanges_iff s frame)]
    exact ⟨_, carrier_ordersTaken s frame, ordersTaken_only s frame, rfl⟩
  case loss => rw [dispatchArrival_bad opened bad, exec_dispatchPortLoss released synced third opened]
  case returned => rw [dispatchArrival_good opened good, exec_dispatchPortReturn released lost second opened good]

end Sys2Proof.Machine
end

section
/-! SUPPORT. The bytes of a frame that leaves (R155 to R162): the byte of eight flags bit by bit, the attention bit, and the answer slot of a departure with its control byte. -/

namespace Sys2Proof.Machine

/-! ## Bits of a byte -/

/-- One flag put at a place of a byte. -/
theorem getLsbD_boolByte_shiftLeft (b : Bool) {k : Nat} (place : k < 8) (i : Nat) :
    (boolByte b <<< k).getLsbD i = (b && decide (i = k)) := by
  have bit : (boolByte b).getLsbD (i - k) = (b && decide (i - k = 0)) := by
    cases b <;> simp [boolByte]
  rw [BitVec.getLsbD_shiftLeft, bit]
  by_cases here : i = k
  · subst here
    simp [place]
  · by_cases below : i < k
    · simp [below, here]
    · simp [here, show i - k ≠ 0 by omega]

theorem getLsbD_boolByte (b : Bool) (i : Nat) : (boolByte b).getLsbD i = (b && decide (i = 0)) := by
  simpa using getLsbD_boolByte_shiftLeft b (k := 0) (by decide) i

/-- Each flag is the bit of its number (R157). -/
theorem getLsbD_bitsByte (p : LineId → Bool) (i : LineId) : (bitsByte p).getLsbD i.val = p i := by
  have folded (l : List LineId) (b : Byte) :
      (l.foldl (fun b i => if p i then b ||| BitVec.ofNat 8 (2 ^ i.val) else b) b).getLsbD i.val =
        (b.getLsbD i.val || (decide (i ∈ l) && p i)) := by
    induction l generalizing b with
    | nil => simp
    | cons j l ih =>
      have bit : (BitVec.ofNat 8 (2 ^ j.val)).getLsbD i.val = decide (i = j) := by
        rw [BitVec.getLsbD_ofNat, Nat.testBit_two_pow]
        simp [Fin.ext_iff, eq_comm]
      have step : (if p j then b ||| BitVec.ofNat 8 (2 ^ j.val) else b).getLsbD i.val =
          (b.getLsbD i.val || (decide (i = j) && p i)) := by
        split
        · next raised =>
          rw [BitVec.getLsbD_or, bit]
          by_cases own : i = j
          · simp [own, raised]
          · simp [own]
        · next lowered =>
          by_cases own : i = j
          · simp [own, lowered]
          · simp [own]
      rw [List.foldl_cons, ih, step, Bool.or_assoc, ← Bool.and_or_distrib_right]
      simp
  unfold bitsByte
  rw [folded allLines 0, decide_eq_true (show i ∈ allLines from List.mem_finRange i)]
  simp

/-- A byte under a mask is not 0 where some bit is set in both. -/
theorem and_ne_zero_iff (b m : Byte) : (b &&& m != 0) = true ↔ ∃ i, b.getLsbD i = true ∧ m.getLsbD i = true := by
  rw [bne_iff_ne]
  constructor
  · intro nonzero
    refine Classical.byContradiction fun apart => nonzero (BitVec.eq_of_getLsbD_eq fun i _ => ?_)
    rw [BitVec.getLsbD_and, show (0 : Byte).getLsbD i = false from BitVec.getLsbD_zero]
    exact Bool.eq_false_iff.2 fun both => apart ⟨i, Bool.and_eq_true_iff.1 both⟩
  · rintro ⟨i, raised, enabled⟩ zero
    have bit := congrArg (BitVec.getLsbD · i) zero
    simp [raised, enabled] at bit

/-! ## The attention bit (R156, R170) -/

theorem districtFlags_attend (f : DistrictFlags) (masks : BitVec 11) :
    (districtFlagsByte f &&& (masks.extractLsb' 0 6).setWidth 8 != 0) = true ↔
      (f.holdChange = true ∧ masks.getLsbD 0 = true) ∨ (f.deadlock = true ∧ masks.getLsbD 1 = true) ∨
      (f.stop = true ∧ masks.getLsbD 2 = true) ∨ (f.floorLink = true ∧ masks.getLsbD 3 = true) ∨
      (f.dispatchLink = true ∧ masks.getLsbD 4 = true) ∨ (f.reset = true ∧ masks.getLsbD 5 = true) := by
  rw [and_ne_zero_iff]
  have bits (i : Nat) : (districtFlagsByte f).getLsbD i = true ↔ (f.holdChange = true ∧ i = 0) ∨ (f.deadlock = true ∧ i = 1) ∨
      (f.stop = true ∧ i = 2) ∨ (f.floorLink = true ∧ i = 3) ∨ (f.dispatchLink = true ∧ i = 4) ∨ (f.reset = true ∧ i = 5) := by
    simp only [districtFlagsByte, BitVec.getLsbD_or, getLsbD_boolByte, getLsbD_boolByte_shiftLeft, Nat.reduceLT, Bool.or_eq_true,
      Bool.and_eq_true, decide_eq_true_eq, or_assoc]
  simp [bits, or_and_right, exists_or, and_assoc]

theorem carrierFlags_attend (f : CarrierFlags) (masks : BitVec 11) :
    (carrierFlagsByte f &&& (masks.extractLsb' 6 5).setWidth 8 != 0) = true ↔
      (f.state = true ∧ masks.getLsbD 6 = true) ∨ (f.fault = true ∧ masks.getLsbD 7 = true) ∨
      (f.clip = true ∧ masks.getLsbD 8 = true) ∨ (f.wait = true ∧ masks.getLsbD 9 = true) ∨
      (f.routeEnd = true ∧ masks.getLsbD 10 = true) := by
  rw [and_ne_zero_iff]
  have bits (i : Nat) : (carrierFlagsByte f).getLsbD i = true ↔ (f.state = true ∧ i = 0) ∨ (f.fault = true ∧ i = 1) ∨
      (f.clip = true ∧ i = 2) ∨ (f.wait = true ∧ i = 3) ∨ (f.routeEnd = true ∧ i = 4) := by
    simp only [carrierFlagsByte, BitVec.getLsbD_or, getLsbD_boolByte, getLsbD_boolByte_shiftLeft, Nat.reduceLT, Bool.or_eq_true,
      Bool.and_eq_true, decide_eq_true_eq, or_assoc]
  simp [bits, or_and_right, exists_or, and_assoc]

/-- The attention bit: a flag is set whose mask is enabled. -/
theorem attention_iff (s : State) : s.attention = true ↔
    (s.flags.holdChange = true ∧ s.masks.getLsbD 0 = true) ∨ (s.flags.deadlock = true ∧ s.masks.getLsbD 1 = true) ∨
    (s.flags.stop = true ∧ s.masks.getLsbD 2 = true) ∨ (s.flags.floorLink = true ∧ s.masks.getLsbD 3 = true) ∨
    (s.flags.dispatchLink = true ∧ s.masks.getLsbD 4 = true) ∨ (s.flags.reset = true ∧ s.masks.getLsbD 5 = true) ∨
    ∃ c, ((s.carrier c).flags.state = true ∧ s.masks.getLsbD 6 = true) ∨
      ((s.carrier c).flags.fault = true ∧ s.masks.getLsbD 7 = true) ∨
      ((s.carrier c).flags.clip = true ∧ s.masks.getLsbD 8 = true) ∨
      ((s.carrier c).flags.wait = true ∧ s.masks.getLsbD 9 = true) ∨
      ((s.carrier c).flags.routeEnd = true ∧ s.masks.getLsbD 10 = true) := by
  have every (c : CarrierId) : c ∈ allCarriers := List.mem_finRange c
  unfold State.attention
  rw [Bool.or_eq_true, districtFlags_attend, List.any_eq_true]
  simp only [every, true_and, carrierFlags_attend, or_assoc]

/-! ## The answer slot (R159, R162) -/

/-- The control byte of an answer fragment (R159). -/
def answerControl (first last busy : Bool) (index : Fin 4) : Byte :=
  0x10 ||| (if first then 0x80 else 0) ||| (if last then 0x40 else 0) ||| byteOf index.val ||| (if busy then 0x20 else 0)

theorem answerControl_bits : ∀ (first last busy : Bool) (index : Fin 4),
    (answerControl first last busy index).getLsbD 7 = first ∧ (answerControl first last busy index).getLsbD 6 = last ∧
    (answerControl first last busy index).getLsbD 5 = busy ∧ (answerControl first last busy index).getLsbD 4 = true ∧
    (answerControl first last busy index).extractLsb' 2 2 = 0 ∧
    (answerControl first last busy index).extractLsb' 0 2 = BitVec.ofNat 2 index.val := by
  decide

/-- A machine that answers sends the fragment due, and stays BUSY where another is to follow. -/
theorem answerSlot_answering (m : List Byte) (n : Nat) : (SlotMachine.answering m n).answerSlot =
    answerControl (decide (n = 0)) (decide (m.length ≤ 16 * (n + 1))) (decide (16 * (n + 1) < m.length)) (Fin.ofNat 4 n) ::
      ((m.drop (16 * n)).take 16 ++ List.replicate (16 - ((m.drop (16 * n)).take 16).length) 0) := by
  have busy : (SlotMachine.answering m n).afterDeparture.busy = decide (16 * (n + 1) < m.length) := by
    unfold SlotMachine.afterDeparture
    by_cases last : m.length ≤ 16 * (n + 1)
    · simp [last, SlotMachine.busy]
    · simp [last, SlotMachine.busy, Nat.lt_of_not_le last]
  unfold SlotMachine.answerSlot answerControl
  rw [busy]
  simp only [decide_eq_true_eq]
  rfl

theorem answerSlot_idle : SlotMachine.idle.answerSlot = 0 :: List.replicate 16 0 := rfl

theorem answerSlot_receiving (b : List Byte) (n : Nat) : (SlotMachine.receiving b n).answerSlot = 0 :: List.replicate 16 0 := rfl

theorem answerSlot_executing (j : Job) (n : Nat) (w : Bool) :
    (SlotMachine.executing j n w).answerSlot = 0x20 :: List.replicate 16 0 := rfl

/-- An answer slot is a control byte and 16 payload bytes. -/
theorem length_answerSlot (m : SlotMachine) : m.answerSlot.length = 17 := by
  cases m with
  | idle => rfl
  | receiving b n => rfl
  | executing j n w => rfl
  | answering m n =>
    rw [answerSlot_answering]
    simp only [List.length_cons, List.length_append, List.length_take, List.length_replicate]
    omega

/-- A machine at a departure of its port: an answer goes on to its next fragment, or ends after its last. -/
theorem afterDeparture_eq (m : SlotMachine) : m.afterDeparture =
    match m with
    | .answering b n => if b.length ≤ 16 * (n + 1) then .idle else .answering b (n + 1)
    | x => x := by
  cases m <;> rfl

/-- What an answer slot shows of each machine (R162). -/
theorem answerSlot_by_machine (m : SlotMachine) :
    (∀ b n, m = .receiving b n → m.answerSlot = 0 :: List.replicate 16 0) ∧
    (m = .idle → m.answerSlot = 0 :: List.replicate 16 0) ∧
    (∀ j n w, m = .executing j n w → m.answerSlot = 0x20 :: List.replicate 16 0) ∧
    ∀ b n, m = .answering b n → ∃ control : Byte,
      m.answerSlot = control :: ((b.drop (16 * n)).take 16 ++ List.replicate (16 - ((b.drop (16 * n)).take 16).length) 0) ∧
      control.getLsbD 7 = decide (n = 0) ∧ control.getLsbD 6 = decide (b.length ≤ 16 * (n + 1)) ∧
      control.getLsbD 5 = decide (16 * (n + 1) < b.length) ∧ control.getLsbD 4 = true ∧
      control.extractLsb' 2 2 = 0 ∧ control.extractLsb' 0 2 = BitVec.ofNat 2 n := by
  refine ⟨?_, ?_, ?_, ?_⟩
  · rintro b n rfl
    exact answerSlot_receiving b n
  · rintro rfl
    exact answerSlot_idle
  · rintro j n w rfl
    exact answerSlot_executing j n w
  · rintro b n rfl
    obtain ⟨first, last, busy, valid, unused, index⟩ := answerControl_bits (decide (n = 0)) (decide (b.length ≤ 16 * (n + 1)))
      (decide (16 * (n + 1) < b.length)) (Fin.ofNat 4 n)
    exact ⟨_, answerSlot_answering b n, first, last, busy, valid, unused, index.trans (BitVec.eq_of_toNat_eq (by simp))⟩

end Sys2Proof.Machine
end

section
/-! SUPPORT. What an expiry does at each port (R148): its reply window closed, with the losses of R153 and R154, and its frame sent, byte by byte (R155 to R158). -/

namespace Sys2Proof.Machine

/-! ## The floor port lost (R150, R153) -/

section
variable (s : State)

theorem input_monitorBad (f : FieldSlotId) (i : LineId) :
    s.monitorBad.input f i = { s.input f i with clear := false, run := 0 } := by
  obtain ⟨-, -, inputs⟩ := HandedOver.leaves (monitorBad_handedOver s)
  rw [inputs, input_unclear]

theorem setLink_only : s.setLink =
    { s with linkFlag := true, flags := { s.flags with holdChange := s.setLink.flags.holdChange } } := by
  unfold State.setLink State.writeLinkFlag
  dsimp only
  split <;> rfl

theorem emptyCandidates_only : s.emptyCandidates = { s with validators := s.emptyCandidates.validators } := by
  unfold State.emptyCandidates
  exact fold_only State.validators (fun t x => { t with validators := x }) (fun _ _ _ => rfl) (fun _ => rfl) (fun _ _ => rfl) allCarriers s

theorem validator_emptyCandidates (c : CarrierId) :
    s.emptyCandidates.validator c = { s.validator c with candidate := none } := by
  have entry := fold_entry State.validator (fun _ => ()) (fun t d => t.setValidator d { t.validator d with candidate := none })
    (fun _ _ v => { v with candidate := none }) (fun t d => validator_setValidator_self ..)
    (fun t d e other => (validator_setValidator ..).trans (if_neg other)) (fun _ _ => rfl) allCarriers (List.nodup_finRange 48) s c
  unfold State.emptyCandidates
  exact entry.trans (if_pos (List.mem_finRange c))

/-- The state in which the loss of the floor port reaches the field monitor: flags and link flag set, candidates empty. -/
def State.floorUnheard : State := s.flagFloorLink.setLink.emptyCandidates

theorem loseFloor_eq : s.loseFloor = s.floorUnheard.monitorBad.endMessage .safety := rfl

theorem floorUnheard_only : s.floorUnheard = { s with
    linkFlag := true, flags := { s.flags with floorLink := true, holdChange := s.floorUnheard.flags.holdChange }
    validators := s.floorUnheard.validators } := by
  have link := setLink_only s.flagFloorLink
  have empty := emptyCandidates_only s.flagFloorLink.setLink
  unfold State.floorUnheard
  generalize s.flagFloorLink.setLink.emptyCandidates = e at empty ⊢
  generalize s.flagFloorLink.setLink = l at link empty
  rw [empty, link]
  rfl

theorem validator_floorUnheard (c : CarrierId) : s.floorUnheard.validator c = { s.validator c with candidate := none } := by
  have link := setLink_only s.flagFloorLink
  unfold State.floorUnheard
  rw [validator_emptyCandidates]
  generalize s.flagFloorLink.setLink = l at link ⊢
  rw [link]
  rfl

theorem input_floorUnheard (f : FieldSlotId) (i : LineId) : s.floorUnheard.input f i = s.input f i := by
  have only := floorUnheard_only s
  generalize s.floorUnheard = e at only ⊢
  rw [only]
  unfold State.input State.fieldSlot
  rfl

theorem loseFloor_only : s.loseFloor = { s with
    linkFlag := true, flags := { s.flags with floorLink := true, holdChange := s.loseFloor.flags.holdChange }
    validators := s.loseFloor.validators, fieldSlots := s.loseFloor.fieldSlots, zoneStates := s.loseFloor.zoneStates
    safetySlot := { s.safetySlot with machine := .idle } } := by
  have unheard := floorUnheard_only s
  have read := monitorBad_only s.floorUnheard
  rw [loseFloor_eq]
  generalize s.floorUnheard.monitorBad = m at read ⊢
  generalize s.floorUnheard = e at unheard read
  rw [read, unheard]
  rfl

theorem validator_loseFloor (c : CarrierId) : s.loseFloor.validator c = { s.validator c with candidate := none } := by
  have read := monitorBad_only s.floorUnheard
  have candidate := validator_floorUnheard s c
  rw [loseFloor_eq]
  generalize s.floorUnheard.monitorBad = m at read ⊢
  generalize s.floorUnheard = e at read candidate
  have validators : (m.endMessage .safety).validators = e.validators := by
    rw [read]
    rfl
  unfold State.validator at candidate ⊢
  rw [validators, candidate]

theorem input_loseFloor (f : FieldSlotId) (i : LineId) : s.loseFloor.input f i = { s.input f i with clear := false, run := 0 } := by
  have reading := input_monitorBad s.floorUnheard f i
  rw [loseFloor_eq]
  generalize s.floorUnheard.monitorBad = m at reading ⊢
  rw [← input_floorUnheard s, ← reading]
  unfold State.input State.fieldSlot
  rfl

end

/-! ## The floor port closed (R148) -/

section
variable {s : State}

theorem frame_countBad (p : Port) : p.countBad.frame = p.frame := by
  unfold Port.countBad
  split
  · split <;> rfl
  · rfl

theorem floorBad_third (synced : s.floorPort.state = .synced) (third : s.floorPort.badRun = 2) :
    s.floorBad = { s.monitorBad with floorPort := { s.floorPort with state := .lost, badRun := 0, goodRun := 0 } }.loseFloor := by
  unfold State.floorBad
  rw [synced]
  dsimp only
  rw [floorPort_monitorBad, countBad_third synced third]
  exact if_pos rfl

/-- A bad frame of the floor port changes the port, its link flag and flags, and what the validator, the monitor and the safety slot hold. -/
theorem floorBad_only (s : State) : s.floorBad = { s with
    floorPort := s.floorPort.countBad, flags := s.floorBad.flags, linkFlag := s.floorBad.linkFlag
    validators := s.floorBad.validators, fieldSlots := s.floorBad.fieldSlots, zoneStates := s.floorBad.zoneStates
    safetySlot := s.floorBad.safetySlot } := by
  have read := monitorBad_only s
  unfold State.floorBad
  generalize s.monitorBad = m at read ⊢
  split
  · rfl
  · dsimp only
    split
    · have lost := loseFloor_only { m with floorPort := m.floorPort.countBad }
      generalize State.loseFloor _ = l at lost ⊢
      rw [lost, read]
    · rw [read]

theorem closeFloor_closed (closed : s.floorPort.window ≠ .open) :
    s.closeFloor = { s with floorPort := { s.floorPort with window := .none } } := by
  unfold State.closeFloor
  rw [if_neg closed]

section
variable (opened : s.floorPort.window = .open)
include opened

theorem closeFloor_open : s.closeFloor = { s.floorBad with floorPort := { s.floorBad.floorPort with window := .none } } := by
  unfold State.closeFloor
  rw [if_pos opened]

theorem closeFloor_lost (lost : s.floorPort.state = .lost) :
    s.closeFloor = { s with floorPort := { s.floorPort with goodRun := 0, window := .none } } := by
  rw [closeFloor_open opened, floorBad_lost lost]

theorem closeFloor_synced (synced : s.floorPort.state = .synced) (few : s.floorPort.badRun < 2) :
    s.closeFloor.floorPort = { s.floorPort with badRun := s.floorPort.badRun + 1, window := .none } ∧
    ∀ f i, s.closeFloor.input f i = { s.input f i with clear := false, run := 0 } := by
  have reading := input_monitorBad s
  rw [closeFloor_open opened, floorBad_synced synced few]
  generalize s.monitorBad = m at reading ⊢
  refine ⟨rfl, fun f i => ?_⟩
  rw [input_setFloorPort, input_setFloorPort, reading]

/-- The third bad frame in a run at the closing is the port's loss (R153). -/
theorem closeFloor_third (synced : s.floorPort.state = .synced) (third : s.floorPort.badRun = 2) :
    s.closeFloor.floorPort = { s.floorPort with state := .lost, badRun := 0, goodRun := 0, window := .none } ∧
    s.closeFloor.flags.floorLink = true ∧ s.closeFloor.linkFlag = true ∧ s.closeFloor.machine .safety = .idle ∧
    (∀ c, s.closeFloor.validator c = { s.validator c with candidate := none }) ∧
    ∀ f i, s.closeFloor.input f i = { s.input f i with clear := false, run := 0 } := by
  rw [closeFloor_open opened, floorBad_third synced third]
  have read := monitorBad_only s
  have reading := input_monitorBad s
  generalize s.monitorBad = m at read reading ⊢
  have lost := loseFloor_only { m with floorPort := { s.floorPort with state := .lost, badRun := 0, goodRun := 0 } }
  have candidates := validator_loseFloor { m with floorPort := { s.floorPort with state := .lost, badRun := 0, goodRun := 0 } }
  have inputs := input_loseFloor { m with floorPort := { s.floorPort with state := .lost, badRun := 0, goodRun := 0 } }
  generalize State.loseFloor _ = l at lost candidates inputs ⊢
  refine ⟨?_, ?_, ?_, ?_, fun c => (candidates c).trans ?_, fun f i => ?_⟩
  · rw [lost]
  · rw [lost]
  · rw [lost]
  · rw [lost]
    rfl
  · rw [read]
    rfl
  · rw [input_setFloorPort, inputs, input_setFloorPort, reading]

end

/-- What closing the floor port may change. -/
theorem closeFloor_only (s : State) : s.closeFloor = { s with
    floorPort := s.closeFloor.floorPort, flags := s.closeFloor.flags, linkFlag := s.closeFloor.linkFlag
    validators := s.closeFloor.validators, fieldSlots := s.closeFloor.fieldSlots, zoneStates := s.closeFloor.zoneStates
    safetySlot := s.closeFloor.safetySlot } := by
  by_cases opened : s.floorPort.window = .open
  · have bad := floorBad_only s
    rw [closeFloor_open opened]
    generalize s.floorBad = b at bad ⊢
    rw [bad]
  · rw [closeFloor_closed opened]

theorem frame_closeFloor (s : State) : s.closeFloor.floorPort.frame = s.floorPort.frame := by
  by_cases opened : s.floorPort.window = .open
  · rw [closeFloor_open opened, floorBad_only]
    exact frame_countBad _
  · rw [closeFloor_closed opened]

end

/-! ## The dispatch port closed (R148, R150, R154) -/

section
variable {s : State}

/-- The dispatch port LOST, its flag set and the operator message ended: the state whose order changes the engine takes (R154). -/
def State.dispatchUnheard (s : State) : State :=
  { s with
    dispatchPort := { s.dispatchPort with state := .lost, badRun := 0, goodRun := 0 }
    flags := { s.flags with dispatchLink := true }
    operatorSlot := { s.operatorSlot with machine := .idle } }

theorem dispatchBad_third (synced : s.dispatchPort.state = .synced) (third : s.dispatchPort.badRun = 2) :
    s.dispatchBad = s.dispatchUnheard.orderChanges (fun c => (s.carrier c).lastOrder.kind != .hold) := by
  unfold State.dispatchBad
  rw [countBad_third synced third]
  exact if_pos ⟨synced, rfl⟩

/-- A bad frame of the dispatch port changes the port, its flag and the operator slot; the rest is the engine's. -/
theorem dispatchBad_frame (s : State) : ∃ flags slot, EngineFrame
    { s with dispatchPort := s.dispatchPort.countBad, flags := flags, operatorSlot := slot } s.dispatchBad := by
  unfold State.dispatchBad
  dsimp only
  split
  · exact ⟨_, _, .orderChanges _ _⟩
  · exact ⟨s.flags, s.operatorSlot, .refl _⟩

theorem closeDispatch_closed (closed : s.dispatchPort.window ≠ .open) :
    s.closeDispatch = { s with dispatchPort := { s.dispatchPort with window := .none } } := by
  unfold State.closeDispatch
  rw [if_neg closed]

section
variable (opened : s.dispatchPort.window = .open)
include opened

theorem closeDispatch_open :
    s.closeDispatch = { s.dispatchBad with dispatchPort := { s.dispatchBad.dispatchPort with window := .none } } := by
  unfold State.closeDispatch
  rw [if_pos opened]

theorem closeDispatch_lost (lost : s.dispatchPort.state = .lost) :
    s.closeDispatch = { s with dispatchPort := { s.dispatchPort with goodRun := 0, window := .none } } := by
  rw [closeDispatch_open opened, dispatchBad_lost lost]

theorem closeDispatch_synced (synced : s.dispatchPort.state = .synced) (few : s.dispatchPort.badRun < 2) :
    s.closeDispatch = { s with dispatchPort := { s.dispatchPort with badRun := s.dispatchPort.badRun + 1, window := .none } } := by
  rw [closeDispatch_open opened, dispatchBad_synced synced few]

/-- The third bad frame in a run at the closing is the port's loss (R154). -/
theorem closeDispatch_third (synced : s.dispatchPort.state = .synced) (third : s.dispatchPort.badRun = 2) :
    s.closeDispatch.dispatchPort = { s.dispatchPort with state := .lost, badRun := 0, goodRun := 0, window := .none } ∧
    s.closeDispatch.flags.dispatchLink = true ∧ s.closeDispatch.machine .operator = .idle ∧
    ∃ u t : State, u = s.dispatchUnheard ∧
      t = (List.finRange 48).foldl (fun v c =>
        if (s.carrier c).lastOrder.kind ≠ .hold ∧ (v.carrier c).state = .advancing ∧ (v.carrier c).claimMode = .onOrder
          then v.runPass c else v) u ∧
      EngineFrame u t ∧ s.closeDispatch = { t with dispatchPort := { t.dispatchPort with window := .none } } := by
  have passes := EngineFrame.orderChanges s.dispatchUnheard fun c => (s.carrier c).lastOrder.kind != .hold
  rw [closeDispatch_open opened, dispatchBad_third synced third]
  rw [orderChanges_eq s.dispatchUnheard (fun c => bne_iff_ne)] at passes ⊢
  generalize taken : List.foldl _ s.dispatchUnheard _ = t at passes ⊢
  exact ⟨by rw [passes.dispatchPort]; rfl, by rw [passes.flags]; rfl, passes.machines .operator, _, t, rfl, taken.symm, passes, rfl⟩

end

end

/-! ## The floor frame sent (R155, R157) -/

section
variable (s : State)

theorem stampAll_only : s.stampAll = { s with carriers := s.stampAll.carriers } := by
  unfold State.stampAll
  exact foldCarriers_only (fun c r => r.stamped (s.stampOf c)) s

theorem carrier_stampAll (c : CarrierId) : s.stampAll.carrier c = (s.carrier c).stamped (s.stampOf c) := by
  unfold State.stampAll
  exact carrier_foldCarriers (fun c r => r.stamped (s.stampOf c)) s c

/-- The bytes of the next floor frame before its check word, as the part stands at the departure (R155, R157). -/
def State.floorBody : List Byte :=
  halfBytes (s.floorPort.frame + 1) ++ [s.districtCode.setWidth 8,
      boolByte s.stopMarker ||| (boolByte s.districtActive <<< 1) ||| (boolByte (s.mode == .safe) <<< 2)]
    ++ allCarriers.flatMap (fun c => [finByte (s.stampOf c).authority,
        orderKindByte (s.orderRead c).kind ||| (byteOf (s.stampOf c).speed.val <<< 4)])
    ++ allFieldSlots.map (fun f => bitsByte (s.output f)) ++ (s.machine .safety).answerSlot

/-- The floor port with the next frame number and an open reply window (R148). -/
def Port.departed (p : Port) : Port := { p with frame := p.frame + 1, window := .open }

/-- A stamped slot shows the stamp and the order read. -/
theorem orderSlot_stamped {t : State} (dispatch : t.dispatchPort = s.dispatchPort) {c : CarrierId}
    (record : t.carrier c = (s.carrier c).stamped (s.stampOf c)) : t.orderSlot c =
      [finByte (s.stampOf c).authority, orderKindByte (s.orderRead c).kind ||| (byteOf (s.stampOf c).speed.val <<< 4)] := by
  have order : t.orderRead c = s.orderRead c := by
    unfold State.orderRead
    rw [dispatch, record]
    rfl
  unfold State.orderSlot
  rw [order, record]
  rfl

theorem departFloor_only : s.departFloor = { s with
    carriers := s.departFloor.carriers, floorPort := s.floorPort.departed, floorSent := s.departFloor.floorSent
    safetySlot := { s.safetySlot with machine := (s.machine .safety).afterDeparture } } := by
  have stamped := stampAll_only s
  unfold State.departFloor
  generalize s.stampAll = t at stamped ⊢
  rw [stamped]
  rfl

theorem floorSent_departFloor : s.departFloor.floorSent = withCheckWord s.floorBody := by
  have sent : s.departFloor.floorSent = State.floorFrame { s.stampAll with floorPort := s.stampAll.floorPort.departed } := by
    unfold State.departFloor
    simp only [setMachine_fields, Port.departed]
  have records := carrier_stampAll s
  have stamped := stampAll_only s
  rw [sent]
  generalize s.stampAll = t at records stamped ⊢
  obtain ⟨u, departed⟩ : ∃ u : State, u = { t with floorPort := t.floorPort.departed } := ⟨_, rfl⟩
  have record (c : CarrierId) : u.carrier c = (s.carrier c).stamped (s.stampOf c) := by rw [← records c, departed]; rfl
  have only : u = { s with carriers := u.carriers, floorPort := s.floorPort.departed } := by rw [departed, stamped]
  have slots : u.orderSlot = fun c => _ := funext fun c => orderSlot_stamped s (by rw [only]) (record c)
  have outputs (f : FieldSlotId) : u.output f = s.output f := by
    rw [only]
    unfold State.output State.fieldSlot
    rfl
  have frame : u.floorPort.frame = s.floorPort.frame + 1 := by rw [only]; rfl
  have code : u.districtCode = s.districtCode := by rw [only]
  have marker : u.stopMarker = s.stopMarker := by rw [only]
  have active : u.districtActive = s.districtActive := by rw [only]; rfl
  have mode : u.mode = s.mode := by rw [only]
  have machine : u.machine .safety = s.machine .safety := by rw [only]; rfl
  rw [← departed]
  unfold State.floorFrame State.floorBody
  simp only [slots, outputs, frame, code, marker, active, mode, machine]

end

/-! ## The dispatch frame sent (R156, R158) -/

section
variable (s : State)

/-- The bytes of the next dispatch frame before its check word, as the part stands at the departure (R156, R158). -/
def State.dispatchBody : List Byte :=
  halfBytes (s.dispatchPort.frame + 1) ++ [s.districtCode.setWidth 8,
      boolByte s.attention ||| (boolByte (s.floorPort.state == .synced) <<< 1) ||| (boolByte (s.mode == .service) <<< 2)
        ||| (boolByte s.stopMarker <<< 3) ||| (boolByte s.districtActive <<< 4),
      bitsByte s.sectorActive]
    ++ halfBytes s.floorPartner
    ++ allCarriers.flatMap (fun c => validatedBytes (s.carrier c).report ++
        if (s.carrier c).state = .vacant then ([0, 255, 0, 255, 255] : List Byte)
        else [carrierStateByte (s.carrier c).state ||| (clipReasonByte (s.carrier c).clip <<< 4)
              ||| (boolByte (s.pinToken == some c) <<< 7),
            finByte (farthestGranted (s.carrier c).held), waitCauseByte (s.carrier c).wait,
            waitObjectByte (s.carrier c).wait, finByte (s.carrier c).authority])
    ++ allFieldSlots.map (fun f => bitsByte (fun i => (s.input f i).clear)) ++ (s.machine .operator).answerSlot

theorem annotatedSlot_eq (c : CarrierId) : s.annotatedSlot c = validatedBytes (s.carrier c).report ++
    if (s.carrier c).state = .vacant then ([0, 255, 0, 255, 255] : List Byte)
    else [carrierStateByte (s.carrier c).state ||| (clipReasonByte (s.carrier c).clip <<< 4)
          ||| (boolByte (s.pinToken == some c) <<< 7),
        finByte (farthestGranted (s.carrier c).held), waitCauseByte (s.carrier c).wait,
        waitObjectByte (s.carrier c).wait, finByte (s.carrier c).authority] := by
  unfold State.annotatedSlot
  dsimp only
  split <;> rfl

theorem departDispatch_only : s.departDispatch = { s with
    dispatchPort := s.dispatchPort.departed, dispatchSent := s.departDispatch.dispatchSent
    operatorSlot := { s.operatorSlot with machine := (s.machine .operator).afterDeparture } } := rfl

theorem dispatchSent_departDispatch : s.departDispatch.dispatchSent = withCheckWord s.dispatchBody := by
  have slots : State.annotatedSlot { s with dispatchPort := s.dispatchPort.departed } = fun c => _ :=
    funext fun c => annotatedSlot_eq { s with dispatchPort := s.dispatchPort.departed } c
  have inputs (f : FieldSlotId) (i : LineId) : State.input { s with dispatchPort := s.dispatchPort.departed } f i = s.input f i := by
    unfold State.input State.fieldSlot
    rfl
  change State.dispatchFrame { s with dispatchPort := s.dispatchPort.departed } = _
  unfold State.dispatchFrame State.dispatchBody
  rw [slots]
  simp only [inputs]
  rfl

end

/-! ## The lengths of the frames (R157, R158) -/

/-- Slots of one length, one for each item. -/
theorem length_flatMap_of_slots {α : Type} {f : α → List Byte} {n : Nat} (slot : ∀ x, (f x).length = n) (l : List α) :
    (l.flatMap f).length = l.length * n := by
  induction l with
  | nil => rw [List.flatMap_nil, List.length_nil, List.length_nil, Nat.zero_mul]
  | cons x l ih => rw [List.flatMap_cons, List.length_append, ih, slot, List.length_cons, Nat.succ_mul, Nat.add_comm]

theorem length_halfBytes (h : Half) : (halfBytes h).length = 2 := rfl

section
variable (s : State)

theorem length_floorSent : s.departFloor.floorSent.length = 135 := by
  have slot (c : CarrierId) : [finByte (s.stampOf c).authority,
      orderKindByte (s.orderRead c).kind ||| (byteOf (s.stampOf c).speed.val <<< 4)].length = 2 := rfl
  rw [floorSent_departFloor]
  simp only [withCheckWord, State.floorBody, List.length_append, length_halfBytes, length_answerSlot,
    length_flatMap_of_slots slot, List.length_map, List.length_cons, List.length_nil, allCarriers, allFieldSlots,
    List.length_finRange]

theorem length_dispatchSent : s.departDispatch.dispatchSent.length = 426 := by
  have slot (c : CarrierId) : (validatedBytes (s.carrier c).report ++
      if (s.carrier c).state = .vacant then ([0, 255, 0, 255, 255] : List Byte)
      else [carrierStateByte (s.carrier c).state ||| (clipReasonByte (s.carrier c).clip <<< 4)
            ||| (boolByte (s.pinToken == some c) <<< 7),
          finByte (farthestGranted (s.carrier c).held), waitCauseByte (s.carrier c).wait,
          waitObjectByte (s.carrier c).wait, finByte (s.carrier c).authority]).length = 8 := by
    split <;> rfl
  rw [dispatchSent_departDispatch]
  simp only [withCheckWord, State.dispatchBody, List.length_append, length_halfBytes, length_answerSlot,
    length_flatMap_of_slots slot, List.length_map, List.length_cons, List.length_nil, allCarriers, allFieldSlots,
    List.length_finRange]

/-- A frame begins with its frame number. -/
theorem take_floorSent : s.departFloor.floorSent.take 2 = halfBytes (s.floorPort.frame + 1) := by
  rw [floorSent_departFloor]
  rfl

theorem take_dispatchSent : s.departDispatch.dispatchSent.take 2 = halfBytes (s.dispatchPort.frame + 1) := by
  rw [dispatchSent_departDispatch]
  rfl

end

end Sys2Proof.Machine
end

section
/-! SUPPORT. An expiry of the frame timer (R148): what each of its seven parts leaves, each port departed once in any order of them, and with the windows and the frames the statement of O39. -/

namespace Sys2Proof.Machine

/-! ## What the parts of an expiry leave -/

/-- What no part of an expiry changes: the configuration, the parameters, the stop line's state and the queue of commands. -/
structure ExpiryKept (s t : State) : Prop where
  zones : t.zones = s.zones
  corridors : t.corridors = s.corridors
  hops : t.hops = s.hops
  policy : t.policy = s.policy
  masks : t.masks = s.masks
  floorPartner : t.floorPartner = s.floorPartner
  silenceLimit : t.silenceLimit = s.silenceLimit
  clearPersistence : t.clearPersistence = s.clearPersistence
  starvationLimit : t.starvationLimit = s.starvationLimit
  armLatch : t.armLatch = s.armLatch
  stopMarker : t.stopMarker = s.stopMarker
  stopLine : t.stopLine = s.stopLine
  districtCode : t.districtCode = s.districtCode
  pending : t.pending = s.pending

theorem ExpiryKept.refl (s : State) : ExpiryKept s s := ⟨rfl, rfl, rfl, rfl, rfl, rfl, rfl, rfl, rfl, rfl, rfl, rfl, rfl, rfl⟩

theorem ExpiryKept.trans {s t u : State} (h : ExpiryKept s t) (k : ExpiryKept t u) : ExpiryKept s u where
  zones := k.zones.trans h.zones
  corridors := k.corridors.trans h.corridors
  hops := k.hops.trans h.hops
  policy := k.policy.trans h.policy
  masks := k.masks.trans h.masks
  floorPartner := k.floorPartner.trans h.floorPartner
  silenceLimit := k.silenceLimit.trans h.silenceLimit
  clearPersistence := k.clearPersistence.trans h.clearPersistence
  starvationLimit := k.starvationLimit.trans h.starvationLimit
  armLatch := k.armLatch.trans h.armLatch
  stopMarker := k.stopMarker.trans h.stopMarker
  stopLine := k.stopLine.trans h.stopLine
  districtCode := k.districtCode.trans h.districtCode
  pending := k.pending.trans h.pending

theorem EngineFrame.expiryKept {s t : State} (h : EngineFrame s t) : ExpiryKept s t where
  zones := h.zones
  corridors := h.corridors
  hops := h.hops
  policy := h.policy
  masks := h.masks
  floorPartner := h.floorPartner
  silenceLimit := h.silenceLimit
  clearPersistence := h.clearPersistence
  starvationLimit := h.starvationLimit
  armLatch := h.armLatch
  stopMarker := h.stopMarker
  stopLine := h.stopLine
  districtCode := h.districtCode
  pending := h.pending

/-- The floor port and the frame last sent on it stay as they are. -/
def FloorSilent (s t : State) : Prop := t.floorPort = s.floorPort ∧ t.floorSent = s.floorSent

/-- The dispatch port and the frame last sent on it stay as they are. -/
def DispatchSilent (s t : State) : Prop := t.dispatchPort = s.dispatchPort ∧ t.dispatchSent = s.dispatchSent

section
variable (s : State)

/-- What is counted of a carrier at an expiry (R89). -/
theorem carrier_countAges (c : CarrierId) : s.countAges.carrier c = { s.carrier c with
    waitAge := if (s.carrier c).state = .waiting ∧ (s.carrier c).wait ≠ .hold then min ((s.carrier c).waitAge + 1) 65535
      else (s.carrier c).waitAge } := by
  unfold State.countAges
  rw [carrier_foldCarriers (fun _ => Carrier.aged), Carrier.aged]
  split <;> rfl

theorem countAges_only : s.countAges = { s with carriers := s.countAges.carriers } := by
  unfold State.countAges
  exact foldCarriers_only (fun _ => Carrier.aged) s

/-- The engine's part is counted and passed within its frame, but for the ages. -/
theorem engineExpiry_leaves : ExpiryKept s s.engineExpiry ∧ FloorSilent s s.engineExpiry ∧ DispatchSilent s s.engineExpiry := by
  have ages := countAges_only s
  have given := EngineFrame.giveToken s.countAges
  unfold State.engineExpiry
  generalize s.countAges.giveToken = t at given ⊢
  generalize s.countAges = a at ages given
  have aged : ExpiryKept s a := by
    rw [ages]
    exact { ExpiryKept.refl s with }
  refine ⟨aged.trans given.expiryKept, ⟨?_, ?_⟩, ?_, ?_⟩
  · rw [given.floorPort, ages]
  · rw [given.floorSent, ages]
  · rw [given.dispatchPort, ages]
  · rw [given.dispatchSent, ages]

/-- A completion changes the mode and the slots alone. -/
theorem completionPart_only (slot : MgmtSlot) : s.completionPart slot = { s with
    mode := (s.completionPart slot).mode, operatorSlot := (s.completionPart slot).operatorSlot
    safetySlot := (s.completionPart slot).safetySlot } := by
  have written (t : State) (m : SlotMachine) : t.setMachine slot m = { t with
      operatorSlot := (t.setMachine slot m).operatorSlot, safetySlot := (t.setMachine slot m).safetySlot } := by
    cases slot <;> rfl
  have entered (w : Bool) : (s.enterAnswer w).1 = { s with mode := (s.enterAnswer w).1.mode } := by
    unfold State.enterAnswer
    split
    · rfl
    · split <;> rfl
  unfold State.completionPart
  split
  · next j n w _ =>
    split
    · rw [written]
    · cases j with
      | checksum =>
        unfold State.complete
        dsimp only
        rw [written]
      | enterService =>
        unfold State.complete
        dsimp only
        rw [written, entered w]
  all_goals rfl

theorem completionPart_leaves (slot : MgmtSlot) :
    ExpiryKept s (s.completionPart slot) ∧ FloorSilent s (s.completionPart slot) ∧ DispatchSilent s (s.completionPart slot) := by
  have only := completionPart_only s slot
  generalize s.completionPart slot = t at only ⊢
  rw [only]
  exact ⟨{ ExpiryKept.refl s with }, ⟨rfl, rfl⟩, rfl, rfl⟩

theorem closeFloor_leaves : ExpiryKept s s.closeFloor ∧ DispatchSilent s s.closeFloor := by
  have only := closeFloor_only s
  generalize s.closeFloor = t at only ⊢
  rw [only]
  exact ⟨{ ExpiryKept.refl s with }, rfl, rfl⟩

theorem departFloor_leaves : ExpiryKept s s.departFloor ∧ DispatchSilent s s.departFloor := by
  have only := departFloor_only s
  generalize s.departFloor = t at only ⊢
  rw [only]
  exact ⟨{ ExpiryKept.refl s with }, rfl, rfl⟩

theorem departDispatch_leaves : ExpiryKept s s.departDispatch ∧ FloorSilent s s.departDispatch := by
  have only := departDispatch_only s
  generalize s.departDispatch = t at only ⊢
  rw [only]
  exact ⟨{ ExpiryKept.refl s with }, rfl, rfl⟩

theorem closeDispatch_leaves : ExpiryKept s s.closeDispatch ∧ FloorSilent s s.closeDispatch ∧
    s.closeDispatch.dispatchPort.frame = s.dispatchPort.frame := by
  by_cases opened : s.dispatchPort.window = .open
  · obtain ⟨flags, slot, passes⟩ := dispatchBad_frame s
    have counted : ExpiryKept s { s with dispatchPort := s.dispatchPort.countBad, flags := flags, operatorSlot := slot } :=
      { ExpiryKept.refl s with }
    have kept : ExpiryKept s s.dispatchBad := counted.trans passes.expiryKept
    have frame : s.dispatchBad.dispatchPort.frame = s.dispatchPort.frame :=
      (congrArg Port.frame passes.dispatchPort).trans (frame_countBad _)
    have silent : FloorSilent s s.dispatchBad := ⟨passes.floorPort, passes.floorSent⟩
    rw [closeDispatch_open opened]
    exact ⟨{ kept with }, silent, frame⟩
  · rw [closeDispatch_closed opened]
    exact ⟨{ ExpiryKept.refl s with }, ⟨rfl, rfl⟩, rfl⟩

theorem expiryPart_kept (p : ExpiryPart) : ExpiryKept s (s.expiryPart p) := by
  cases p with
  | floorClose => exact (closeFloor_leaves s).1
  | floorDepart => exact (departFloor_leaves s).1
  | dispatchClose => exact (closeDispatch_leaves s).1
  | dispatchDepart => exact (departDispatch_leaves s).1
  | engine => exact (engineExpiry_leaves s).1
  | operatorCompletion => exact (completionPart_leaves s .operator).1
  | safetyCompletion => exact (completionPart_leaves s .safety).1

/-- The parts beside those of the floor port do not speak on it. -/
theorem expiryPart_floorSilent {p : ExpiryPart} (notClose : p ≠ .floorClose) (notDepart : p ≠ .floorDepart) :
    FloorSilent s (s.expiryPart p) := by
  cases p with
  | floorClose => exact absurd rfl notClose
  | floorDepart => exact absurd rfl notDepart
  | dispatchClose => exact (closeDispatch_leaves s).2.1
  | dispatchDepart => exact (departDispatch_leaves s).2
  | engine => exact (engineExpiry_leaves s).2.1
  | operatorCompletion => exact (completionPart_leaves s .operator).2.1
  | safetyCompletion => exact (completionPart_leaves s .safety).2.1

/-- The parts beside those of the dispatch port do not speak on it. -/
theorem expiryPart_dispatchSilent {p : ExpiryPart} (notClose : p ≠ .dispatchClose) (notDepart : p ≠ .dispatchDepart) :
    DispatchSilent s (s.expiryPart p) := by
  cases p with
  | floorClose => exact (closeFloor_leaves s).2
  | floorDepart => exact (departFloor_leaves s).2
  | dispatchClose => exact absurd rfl notClose
  | dispatchDepart => exact absurd rfl notDepart
  | engine => exact (engineExpiry_leaves s).2.2
  | operatorCompletion => exact (completionPart_leaves s .operator).2.2
  | safetyCompletion => exact (completionPart_leaves s .safety).2.2

theorem expiry_kept (order : List ExpiryPart) : ExpiryKept s (order.foldl State.expiryPart s) :=
  foldList_keeps (P := ExpiryKept s) _ (fun t p h => h.trans (expiryPart_kept t p)) order (.refl s)

end

/-! ## Each port departs once (R148) -/

/-- A port as the parts of an expiry treat it: two parts are its own, and the closing leaves its frame number. -/
structure PortParts (port : State → Port) (sent : State → List Byte) (close depart : ExpiryPart) : Prop where
  others : ∀ s p, p ≠ close → p ≠ depart → port (s.expiryPart p) = port s ∧ sent (s.expiryPart p) = sent s
  closing : ∀ s, (port (s.expiryPart close)).frame = (port s).frame
  departing : ∀ s, port (s.expiryPart depart) = (port s).departed

theorem floorParts : PortParts State.floorPort State.floorSent .floorClose .floorDepart where
  others s _ notClose notDepart := expiryPart_floorSilent s notClose notDepart
  closing := frame_closeFloor
  departing s := congrArg State.floorPort (departFloor_only s)

theorem dispatchParts : PortParts State.dispatchPort State.dispatchSent .dispatchClose .dispatchDepart where
  others s _ notClose notDepart := expiryPart_dispatchSilent s notClose notDepart
  closing s := (closeDispatch_leaves s).2.2
  departing s := congrArg State.dispatchPort (departDispatch_only s)

section
variable {port : State → Port} {sent : State → List Byte} {close depart : ExpiryPart} (own : PortParts port sent close depart)
include own

/-- Before its departure a port keeps its frame number. -/
theorem PortParts.frame_before {l : List ExpiryPart} (before : depart ∉ l) (s : State) :
    (port (l.foldl State.expiryPart s)).frame = (port s).frame := by
  induction l generalizing s with
  | nil => rfl
  | cons p l ih =>
    obtain ⟨first, later⟩ := List.ne_and_not_mem_of_not_mem_cons before
    rw [List.foldl_cons, ih later]
    by_cases closes : p = close
    · rw [closes, own.closing]
    · rw [(own.others s p closes first.symm).1]

/-- After its closing and its departure a port stays as it is. -/
theorem PortParts.silent_after {r : List ExpiryPart} (closed : close ∉ r) (departed : depart ∉ r) (s : State) :
    port (r.foldl State.expiryPart s) = port s ∧ sent (r.foldl State.expiryPart s) = sent s := by
  induction r generalizing s with
  | nil => exact ⟨rfl, rfl⟩
  | cons p r ih =>
    obtain ⟨notClose, closed⟩ := List.ne_and_not_mem_of_not_mem_cons closed
    obtain ⟨notDepart, departed⟩ := List.ne_and_not_mem_of_not_mem_cons departed
    obtain ⟨port, sent⟩ := own.others s p notClose.symm notDepart.symm
    rw [List.foldl_cons]
    exact ⟨(ih closed departed _).1.trans port, (ih closed departed _).2.trans sent⟩

/-- In an order with the closing before the departure and neither twice, the port departs once: what it then sent stays, and so does its window. -/
theorem PortParts.departs {order : List ExpiryPart} (once : order.Nodup) (named : depart ∈ order)
    (first : order.idxOf close < order.idxOf depart) (s : State) : ∃ l r, order = l ++ depart :: r ∧
      (port (l.foldl State.expiryPart s)).frame = (port s).frame ∧
      sent (order.foldl State.expiryPart s) = sent ((l.foldl State.expiryPart s).expiryPart depart) ∧
      (port (order.foldl State.expiryPart s)).frame = (port s).frame + 1 ∧
      (port (order.foldl State.expiryPart s)).window = .open := by
  obtain ⟨l, r, rfl⟩ := List.append_of_mem named
  have closed : close ∈ l := mem_of_idxOf_lt once first rfl
  obtain ⟨-, later, apart⟩ := List.nodup_append.1 once
  have before : depart ∉ l := fun m => apart depart m depart List.mem_cons_self rfl
  have after : close ∉ r := fun m => apart close closed close (List.mem_cons_of_mem _ m) rfl
  have frame := own.frame_before before s
  obtain ⟨stays, sent⟩ := own.silent_after after (List.nodup_cons.1 later).1 ((l.foldl State.expiryPart s).expiryPart depart)
  refine ⟨l, r, rfl, frame, ?_⟩
  rw [List.foldl_append, List.foldl_cons, stays, own.departing, ← frame]
  exact ⟨sent, rfl, rfl⟩

end

/-- An order that a sender can send names each part, none twice, and each closing before its departure (R148). -/
theorem parts_of_ok {order : List ExpiryPart} (ordered : expiryOrderOk order = true) : order.Nodup ∧ (∀ p, p ∈ order) ∧
    order.idxOf .floorClose < order.idxOf .floorDepart ∧ order.idxOf .dispatchClose < order.idxOf .dispatchDepart := by
  unfold expiryOrderOk at ordered
  simp only [Bool.and_eq_true, List.all_eq_true, beq_iff_eq, decide_eq_true_eq] at ordered
  obtain ⟨⟨⟨counts, -⟩, floor⟩, dispatch⟩ := ordered
  have counts (p : ExpiryPart) : order.count p = 1 := counts p (by cases p <;> decide)
  exact ⟨List.nodup_iff_count.2 fun p => Nat.le_of_eq (counts p),
    fun p => List.count_pos_iff.1 (by rw [counts p]; exact Nat.one_pos), floor, dispatch⟩

/-! ## The statement, part by part -/

theorem exec_frameTimerExpiry {order : List ExpiryPart} {s : State} (ordered : expiryOrderOk order = true)
    (released : s.resetPin = false) : exec (.frameTimerExpiry order) s = .next (order.foldl State.expiryPart s) := by
  rw [show exec (.frameTimerExpiry order) s = execFrameTimerExpiry order s from rfl, execFrameTimerExpiry, released,
    expirySchedule_of_ok ordered]
  rfl

section
variable {s : State} {slot : MgmtSlot} {j : Job} {n : Nat} {w : Bool}

theorem completionPart_idle (idle : ∀ j n w, s.machine slot ≠ .executing j n w) : s.completionPart slot = s := by
  unfold State.completionPart
  split
  · next j n w executing => exact absurd executing (idle j n w)
  all_goals rfl

theorem completionPart_first (executing : s.machine slot = .executing j 0 w) :
    s.completionPart slot = s.setMachine slot (.executing j 1 w) := by
  unfold State.completionPart
  rw [executing]
  exact if_pos rfl

theorem completionPart_second (executing : s.machine slot = .executing j n w) (noted : 1 ≤ n) :
    s.completionPart slot = s.complete slot j w := by
  unfold State.completionPart
  rw [executing]
  exact if_neg (Nat.ne_of_gt noted)

theorem completeJob_noted (released : s.resetPin = false) (executing : s.machine slot = .executing j n w) (noted : 1 ≤ n) :
    s.completeJob slot j = s.complete slot j w := by
  unfold State.completeJob
  rw [if_neg (ne_true_of_eq_false released), executing]
  exact if_pos ⟨rfl, noted⟩

/-- A job whose first expiry was noted completes as its completion does. -/
theorem exec_completion (executing : s.machine slot = .executing j n w) (noted : 1 ≤ n) (released : s.resetPin = false) :
    (match j with | .checksum => exec (.checksumCompletion slot) s | .enterService => exec (.enterServiceCompletion slot) s) =
      .next (s.completionPart slot) := by
  rw [completionPart_second executing noted, ← completeJob_noted released executing noted]
  cases j <;> rfl

end

section
variable (s : State)

theorem machines_departFloor : s.departFloor.machine .safety = (s.machine .safety).afterDeparture ∧
    s.departFloor.machine .operator = s.machine .operator := by
  have only := departFloor_only s
  generalize s.departFloor = t at only ⊢
  rw [only]
  exact ⟨rfl, rfl⟩

theorem machines_departDispatch : s.departDispatch.machine .operator = (s.machine .operator).afterDeparture ∧
    s.departDispatch.machine .safety = s.machine .safety := by
  have only := departDispatch_only s
  generalize s.departDispatch = t at only ⊢
  rw [only]
  exact ⟨rfl, rfl⟩

end

/-- Settles O39, by its parts: the expiry as a whole, where each port departs once; the completions; the windows closed by their ports' states; the ages; the two frames with their bits; and the machines at the departures. -/
theorem anExpiryDepartsOnBothPorts : Obligations.AnExpiryDepartsOnBothPorts := by
  intro order s ordered
  refine ⟨fun asserted => ?asserted, fun released => ?expiry, ⟨rfl, rfl, rfl, rfl, rfl, rfl, rfl⟩,
    fun slot => ⟨completionPart_idle, fun j w => completionPart_first, fun j n w => exec_completion⟩,
    ⟨closeFloor_closed, closeFloor_lost, closeFloor_synced, closeFloor_third⟩,
    ⟨closeDispatch_closed, closeDispatch_lost, closeDispatch_synced, closeDispatch_third⟩,
    ⟨carrier_countAges s, countAges_only s⟩, ⟨s.floorBody, floorSent_departFloor s, rfl⟩,
    ⟨s.dispatchBody, dispatchSent_departDispatch s, rfl⟩, getLsbD_bitsByte, attention_iff s,
    fun slot => answerSlot_by_machine (s.machine slot), ?floorMachines, ?dispatchMachines⟩
  case asserted => exact congrArg Host.Outcome.next (if_pos asserted)
  case expiry =>
    obtain ⟨once, named, floorFirst, dispatchFirst⟩ := parts_of_ok ordered
    obtain ⟨l, r, floorSplit, floorBefore, floorSent, floorFrame, floorWindow⟩ :=
      floorParts.departs once (named .floorDepart) floorFirst s
    obtain ⟨l', r', dispatchSplit, dispatchBefore, dispatchSent, dispatchFrame, dispatchWindow⟩ :=
      dispatchParts.departs once (named .dispatchDepart) dispatchFirst s
    have kept := expiry_kept s order
    refine ⟨_, exec_frameTimerExpiry ordered released, floorFrame, dispatchFrame, floorWindow, dispatchWindow, ?_, ?_, ?_, ?_, rfl,
      ⟨l, r, floorSplit, floorSent⟩, ⟨l', r', dispatchSplit, dispatchSent⟩, kept.zones, kept.corridors, kept.hops, kept.policy,
      kept.masks, kept.floorPartner, kept.silenceLimit, kept.clearPersistence, kept.starvationLimit, kept.armLatch,
      kept.stopMarker, kept.stopLine, kept.districtCode, kept.pending⟩
    · exact (congrArg List.length floorSent).trans (length_floorSent _)
    · exact (congrArg (List.take 2) floorSent).trans ((take_floorSent _).trans (by rw [floorBefore]))
    · exact (congrArg List.length dispatchSent).trans (length_dispatchSent _)
    · exact (congrArg (List.take 2) dispatchSent).trans ((take_dispatchSent _).trans (by rw [dispatchBefore]))
  case floorMachines => exact ⟨(machines_departFloor s).1.trans (afterDeparture_eq _), (machines_departFloor s).2⟩
  case dispatchMachines => exact ⟨(machines_departDispatch s).1.trans (afterDeparture_eq _), (machines_departDispatch s).2⟩

end Sys2Proof.Machine
end

section
/-! SUPPORT. Replace Route (R166): its refusals in the order of the table, and what its steps leave of the watches and of a carrier that makes no claim at the end of them. -/

namespace Sys2Proof.Machine

/-! ## The table of R166 -/

section
variable {slot : MgmtSlot} {s : State}

theorem replaceRoute_out {c r : Byte} {h : Half} (out : 48 ≤ c.toNat ∨ 128 ≤ r.toNat ∨ 2048 ≤ h.toNat) :
    replaceRoute slot c r h s = (s.setWatch slot ⟨none, false⟩, .bare .badItem) := by
  unfold replaceRoute
  split
  · next readCarrier readRoute readHop =>
    rcases out with carrier | route | hop
    · rw [carrierOf_of_le carrier] at readCarrier
      cases readCarrier
    · rw [routeOf_of_le route] at readRoute
      cases readRoute
    · rw [hopOf_of_le hop] at readHop
      cases readHop
  · rfl

/-- A route is undefined or a hop lies outside its hop range (R36, R166). -/
theorem not_startHop_iff (x : RouteRecord) (h : HopIdx) : (!x.defined || !x.inRange h) = true ↔
    x.defined = false ∨ h.val < x.firstHop.val ∨ x.firstHop.val + x.hopCount ≤ h.val := by
  unfold RouteRecord.inRange
  simp only [Bool.or_eq_true, Bool.not_eq_true', Bool.and_eq_false_iff, decide_eq_false_iff_not, Nat.not_le, Nat.not_lt]

/-- The table of R166 over a carrier, a route and a hop in range. -/
theorem replaceRoute_table (slot : MgmtSlot) (s : State) (c : CarrierId) (r : RouteId) (h : HopIdx) :
    replaceRoute slot (byteOf c.val) (byteOf r.val) (BitVec.ofNat 16 h.val) s =
      if s.mode = .safe then (s.setWatch slot ⟨none, false⟩, .bare .notInService)
      else if s.watch slot ≠ ⟨some c, true⟩ then (s.setWatch slot ⟨none, false⟩, .bare .watchBroken)
      else if (s.carrier c).state = .vacant ∨ (s.carrier c).state = .faulted then (s.setWatch slot ⟨none, false⟩, .bare .wrongState)
      else if (s.route r).defined = false ∨ h.val < (s.route r).firstHop.val ∨
          (s.route r).firstHop.val + (s.route r).hopCount ≤ h.val then (s.setWatch slot ⟨none, false⟩, .bare .badItem)
      else if farthestGranted (s.carrier c).held ≠ some (s.hop h).zone then
        (s.setWatch slot ⟨none, false⟩, .check ⟨.startZone, h.val⟩)
      else ((s.setWatch slot ⟨none, false⟩).replace c r h, .ok) := by
  unfold replaceRoute State.hopZone
  simp only [carrierOf_byteOf, routeOf_byteOf, hopOf_ofNat, not_startHop_iff]

end

/-! ## The steps of an applied Replace Route -/

section
variable {s t : State} {c : CarrierId} {r : RouteId} {h : HopIdx}

/-- A watch that is broken stays as it is through what the engine does. -/
theorem EngineFrame.watch_of_broken (f : EngineFrame s t) {slot : MgmtSlot} (broken : (s.watch slot).intact = false) :
    t.watch slot = s.watch slot := by
  have unmended : (t.watch slot).intact = false := Bool.eq_false_iff.2 fun intact => nomatch broken.symm.trans (f.intact slot intact)
  calc t.watch slot = ⟨(t.watch slot).carrier, (t.watch slot).intact⟩ := rfl
    _ = ⟨(s.watch slot).carrier, (s.watch slot).intact⟩ := by rw [f.watched, unmended, broken]

/-- Whether a hold covers a carrier is no matter of the engine's (R72, R100). -/
theorem EngineFrame.covered (f : EngineFrame s t) (c : CarrierId) : t.covered c = s.covered c := by
  unfold State.covered State.districtActive State.sectorActive State.sectorHold State.zone
  rw [f.districtHold, f.linkFlag, f.sectorHolds, f.zones, f.front]

theorem EngineFrame.replace (s : State) (c : CarrierId) (r : RouteId) (h : HopIdx) : EngineFrame s (s.replace c r h) := by
  unfold State.replace
  dsimp only
  generalize ha : (if (s.carrier c).state = .waiting then (s.leaveQueue c).clearWait c else s) = a
  have unqueued : EngineFrame s a := by
    subst ha
    split
    · exact (EngineFrame.leaveQueue s c).trans (.clearWait ..)
    · exact .refl s
  have replaced : EngineFrame s (((a.leaveClaim c).takeRoute c r h).undirect c) :=
    ((unqueued.trans (.leaveClaim ..)).trans (.takeRoute ..)).trans (.undirect ..)
  refine EngineFrame.trans (EngineFrame.trans ?_ (.breakWatch ..)) (.runPass ..)
  split
  · exact replaced
  · exact replaced.trans (.enterState ..)

theorem leaveClaim_of_not (other : s.pinToken ≠ some c) : s.leaveClaim c = s := if_neg other

/-- The place that a carrier takes on a route after a hop before its last (R40). -/
theorem placeAfter_inside (inside : h.val + 1 < (s.route r).firstHop.val + (s.route r).hopCount) :
    s.placeAfter r h = (r, .hop (Fin.ofNat 2048 (h.val + 1)), (s.route r).lapCount) := if_pos inside

/-- A carrier that was IDLE without the token, and that makes no claim at the end, has its new course and is ADVANCING; its record is the same otherwise. -/
theorem carrier_replaced {b g : State} (idle : (s.carrier c).state = .idle) (taken : RouteTaken s b c r h)
    (entered : ((b.undirect c).carrier c).state ≠ .advancing → StateEntered (b.undirect c) g c .advancing) :
    g.carrier c = { s.carrier c with
      state := .advancing, route := some (s.placeAfter r h).1, cursor := (s.placeAfter r h).2.1, laps := (s.placeAfter r h).2.2
      flags := { (s.carrier c).flags with state := true } } := by
  have state : (b.carrier c).state = .idle := by rw [taken.carrier]; exact idle
  have parked : ¬b.active c := parked_of_state (by rw [state]; exact nofun) (by rw [state]; exact nofun)
  have kept : (b.undirect c).carrier c = b.carrier c := (ParkedKept.closed b).undirect c (.refl b) c parked
  rw [(entered (by rw [kept, state]; exact nofun)).carrier, kept, taken.carrier]

/-- A pass of a covered carrier is not made (R72). -/
theorem runPass_of_covered (covered : s.covered c = true) : s.runPass c = s :=
  runPass_of_not (Bool.eq_false_iff.2 fun allowed => by
    obtain ⟨-, -, -, uncovered⟩ := (passAllowed_iff ..).1 allowed
    exact absurd (uncovered.symm.trans covered) nofun)

end

/-- Settles O30: the answers are those of the table, and an applied command is `State.replace`, whose steps are those of R166; the last breaks the watches on the carrier, and the pass after it mends none. -/
theorem replaceRouteFollowsItsTable : Obligations.ReplaceRouteFollowsItsTable := by
  rintro slot s ready n rfl
  refine ⟨fun c r h out => taken_next ready (replaceRoute_out out), fun c r h o run => ?_⟩
  subst run
  have table := replaceRoute_table slot s c r h
  split
  · next safe => exact taken_next ready (table.trans (if_pos safe))
  next service =>
  rw [if_neg service] at table
  split
  · next broken => exact taken_next ready (table.trans (if_pos broken))
  next intact =>
  rw [if_neg intact] at table
  split
  · next wrong => exact taken_next ready (table.trans (if_pos wrong))
  next right =>
  rw [if_neg right] at table
  split
  · next off => exact taken_next ready (table.trans (if_pos off))
  next on =>
  rw [if_neg on] at table
  split
  · next apart => exact taken_next ready (table.trans (if_pos apart))
  next joined =>
  rw [if_neg joined] at table
  have carrier : (s.setWatch slot ⟨none, false⟩).carrier c = s.carrier c := by cases slot <;> rfl
  have route : (s.setWatch slot ⟨none, false⟩).route r = s.route r := by cases slot <;> rfl
  have token : (s.setWatch slot ⟨none, false⟩).pinToken = s.pinToken := by cases slot <;> rfl
  have covers : (s.setWatch slot ⟨none, false⟩).covered c = s.covered c := by cases slot <;> rfl
  have watch := watch_setWatch s slot ⟨none, false⟩
  generalize s.setWatch slot ⟨none, false⟩ = n at *
  have frame := EngineFrame.replace n c r h
  obtain ⟨a, b, g, dequeued, unqueued, taken, stays, enters, replaced⟩ := replace_parts n c r h
  rw [replaced] at table frame
  have passed : EngineFrame (g.breakWatch c) ((g.breakWatch c).runPass c) := .runPass ..
  refine ⟨(g.breakWatch c).runPass c, taken_next ready table, frame, ?none, fun w => passed.stays_unwatched ?broken,
    fun idle other covered => ?unclaimed, a, b, g, carrier ▸ dequeued, carrier ▸ unqueued, taken, stays, enters, rfl⟩
  case none => rw [frame.watch_of_broken (by rw [watch]), watch]
  case broken =>
    rw [watch_breakWatch]
    exact intact_breakFor
  case unclaimed =>
    obtain rfl := unqueued (by rw [carrier, idle]; exact nofun)
    rw [leaveClaim_of_not (by rwa [token])] at taken
    have record := carrier_replaced (carrier ▸ idle) taken enters
    have unbroken : (g.breakWatch c).carrier c = g.carrier c := rfl
    rw [runPass_of_covered (by rw [← passed.covered, frame.covered, covers, covered]), unbroken, record, carrier]
    refine ⟨rfl, rfl, rfl, fun inside => ?_⟩
    rw [placeAfter_inside (by rwa [route]), route]
    exact ⟨rfl, rfl, rfl⟩

end Sys2Proof.Machine
end

section
/-! SUPPORT. Enter Service and Leave Service (R168), and the audit (R169): the first corridor with a gap, and else the first failing route, with its row. -/

namespace Sys2Proof.Machine

/-! ## The audit (R169) -/

/-- Of checks made over a numbering, the lowest that fails is reported. -/
theorem findSome?_finRange_lowest {n : Nat} {α : Type} {check : Fin n → Option α} {k : Fin n} {a : α} (found : check k = some a)
    (lowest : ∀ l < k, check l = none) : (List.finRange n).findSome? check = some a := by
  have ordered := List.pairwise_lt_finRange n
  obtain ⟨before, after, split⟩ := List.append_of_mem (List.mem_finRange k)
  rw [split] at ordered ⊢
  refine List.findSome?_eq_some_iff.2 ⟨before, k, after, rfl, found, fun l m => ?_⟩
  exact lowest l ((List.pairwise_append.1 ordered).2.2 l m k List.mem_cons_self)

section
variable {s : State}

/-- What the audit makes of a corridor. -/
def State.corridorAudit (s : State) (k : CorridorId) : Option CheckFailure :=
  if s.gapFree k then none else some ⟨.corridorGap, k.val⟩

/-- The routes that the audit checks, in route order. -/
def State.definedRoutes (s : State) : List RouteId := allRoutes.filter (fun r => (s.route r).defined)

theorem mem_definedRoutes (s : State) (r : RouteId) : r ∈ s.definedRoutes ↔ (s.route r).defined = true := by
  unfold State.definedRoutes allRoutes
  simp only [List.mem_filter, List.mem_finRange, true_and]

theorem definedRoutes_ordered (s : State) : s.definedRoutes.Pairwise (· < ·) := (List.pairwise_lt_finRange 128).filter _

theorem audit_eq (s : State) : s.audit = (allCorridors.findSome? s.corridorAudit).or (s.definedRoutes.findSome? s.routeCheck) := by
  unfold State.audit firstFailure
  rw [List.findSome?_append, List.findSome?_map, List.findSome?_map]
  rfl

theorem corridorAudit_run {k : CorridorId} (run : s.positionsRun k) : s.corridorAudit k = none := if_pos ((gapFree_iff s k).2 run)

theorem corridorAudit_gap {k : CorridorId} (gap : ¬s.positionsRun k) : s.corridorAudit k = some ⟨.corridorGap, k.val⟩ :=
  if_neg (mt (gapFree_iff s k).1 gap)

theorem audit_gap {k : CorridorId} (gap : ¬s.positionsRun k) (before : ∀ l < k, s.positionsRun l) :
    s.audit = some ⟨.corridorGap, k.val⟩ := by
  have found : allCorridors.findSome? s.corridorAudit = some ⟨.corridorGap, k.val⟩ :=
    findSome?_finRange_lowest (corridorAudit_gap gap) fun l lt => corridorAudit_run (before l lt)
  rw [audit_eq, found]
  rfl

section
variable (run : ∀ k, s.positionsRun k) (placed : ∀ r, (s.route r).placed)
include run

/-- Without a gap the audit is that of the routes. -/
theorem audit_of_run : s.audit = s.definedRoutes.findSome? s.routeCheck := by
  rw [audit_eq, List.findSome?_eq_none_iff.2 fun k _ => corridorAudit_run (run k), Option.none_or]

include placed

theorem audit_row {r : RouteId} {f : CheckFailure} (defined : (s.route r).defined = true) (fails : s.firstRow r f)
    (before : ∀ p < r, (s.route p).defined = true → s.routePasses p) : s.audit = some f := by
  rw [audit_of_run run]
  exact findSome?_lowest (definedRoutes_ordered s) ((mem_definedRoutes s r).2 defined) ((routeCheck_eq_some (placed r) f).2 fails)
    fun p lt m => (routeCheck_none_iff (placed p)).2 (before p lt ((mem_definedRoutes s p).1 m))

theorem audit_passes (passes : ∀ r, (s.route r).defined = true → s.routePasses r) : s.audit = none := by
  rw [audit_of_run run]
  exact List.findSome?_eq_none_iff.2 fun r m => (routeCheck_none_iff (placed r)).2 (passes r ((mem_definedRoutes s r).1 m))

end

end

/-! ## Enter Service and its completion (R168) -/

section
variable {s : State} {slot : MgmtSlot} {n : Nat} {w : Bool}

theorem enterService_service (mode : s.mode = .service) : enterService s = (s, .answer (.bare .wrongState)) := by
  unfold enterService
  rw [mode]

theorem enterService_safe (mode : s.mode = .safe) : enterService s = (s, .executing .enterService) := by
  unfold enterService
  rw [mode]

theorem enterAnswer_failed {f : CheckFailure} (found : s.audit = some f) : s.enterAnswer false = (s, ⟨.auditFailed, f.bytes⟩) := by
  unfold State.enterAnswer
  rw [found]
  rfl

theorem enterAnswer_passed (found : s.audit = none) : s.enterAnswer false = ({ s with mode := .service }, .ok) := by
  unfold State.enterAnswer
  rw [found]
  rfl

/-- The completion makes the effect of its job and answers (R168). -/
theorem exec_enterServiceCompletion {t : State} {a : Answer} (released : s.resetPin = false)
    (executing : s.machine slot = .executing .enterService n w) (noted : 1 ≤ n) (h : s.enterAnswer w = (t, a)) :
    exec (.enterServiceCompletion slot) s = .next (t.answered slot 0x21 a.status a.results) := by
  refine congrArg Host.Outcome.next ((completeJob_noted released executing noted).trans ?_)
  unfold State.complete
  rw [h]
  rfl

/-- A completion whose job is not at its second expiry is none (log 2). -/
theorem completeJob_unnoted {j : Job} (unnoted : ∀ n w, s.machine slot = .executing j n w → n = 0) : s.completeJob slot j = s := by
  unfold State.completeJob
  split
  · rfl
  · split
    · next j' n w executing =>
      refine if_neg fun ⟨same, noted⟩ => ?_
      subst same
      exact absurd (unnoted n w executing) (Nat.ne_of_gt noted)
    all_goals rfl

/-! ## Leave Service (R168) -/

theorem any_active_iff (s : State) : allCarriers.any (fun c =>
    (s.carrier c).state == .advancing || (s.carrier c).state == .waiting) = true ↔ ∃ c, s.active c := by
  unfold allCarriers State.active
  simp only [List.any_eq_true, List.mem_finRange, true_and, Bool.or_eq_true, beq_iff_eq]

theorem leaveService_refused (refused : s.mode = .safe ∨ ∃ c, s.active c) : leaveService s = (s, .bare .wrongState) :=
  if_pos (refused.imp_right (any_active_iff s).2)

theorem leaveService_applied (mode : s.mode = .service) (parked : ∀ c, ¬s.active c) : leaveService s = ({ s with mode := .safe }, .ok) := by
  refine if_neg ?_
  rintro (safe | active)
  · exact absurd (mode.symm.trans safe) nofun
  · obtain ⟨c, active⟩ := (any_active_iff s).1 active
    exact parked c active

end

/-- Settles O38: an Enter Service stays EXECUTING until its completion answers by the audit, which is the first corridor with a gap and else the first route that fails; Leave Service asks the mode and the carriers alone. -/
theorem enteringAndLeavingService : Obligations.EnteringAndLeavingService := by
  intro slot s
  refine ⟨fun ready mode => ?inService, fun ready mode => ?starts, ?completes,
    fun unnoted => congrArg Host.Outcome.next (completeJob_unnoted unnoted), fun w => completionPart_first,
    fun w released executing => exec_completion executing (Nat.le_refl 1) released, ?expiry, fun k => audit_gap,
    fun run placed => ⟨fun r f => audit_row run placed, audit_passes run placed⟩,
    fun ready refused => safetyTaken_next ready (leaveService_refused refused),
    fun ready mode parked => safetyTaken_next ready (leaveService_applied mode parked)⟩
  case inService => exact congrArg Host.Outcome.next (takeCommand_answer ready (enterService_service mode))
  case starts => exact congrArg Host.Outcome.next (takeCommand_executing ready (enterService_safe mode))
  case completes =>
    rintro n w o released executing noted rfl
    have answers {t : State} {a : Answer} := exec_enterServiceCompletion (t := t) (a := a) released executing noted
    refine ⟨fun written => ?_, fun f unwritten found => ?_, fun unwritten found => ?_⟩
    · exact answers (a := .bare .tablesChanged) (if_pos written)
    · exact answers (by rw [unwritten, enterAnswer_failed found])
    · exact answers (by rw [unwritten, enterAnswer_passed found])
  case expiry => cases slot <;> rfl

end Sys2Proof.Machine
end

section
/-! SUPPORT. Fragments at a slot machine (R161): the rows of its table, and a whole message, which is carried out as its row or answered MALFORMED (R163). -/

namespace Sys2Proof.Machine

/-! ## A whole message (R160, R163) -/

/-- A message spells no event of the part, only the management commands. -/
theorem decodeCommand_isMessage {slot : MgmtSlot} {code : Byte} {p : List Byte} {i : Instr}
    (spelled : decodeCommand slot code p = some i) : (commandParts i).isSome = true := by
  unfold decodeCommand at spelled
  repeat' split at spelled
  all_goals cases spelled <;> rfl

/-- Every command has a next state (R163). -/
theorem exec_next (i : Instr) (s : State) : ∃ t, exec i s = .next t := by
  cases i <;> exact ⟨_, rfl⟩

section
variable {slot : MgmtSlot} {s : State} {m : List Byte} {i : Instr}

theorem decodeMessage_isMessage (spelled : decodeMessage slot m = some i) : (commandParts i).isSome = true := by
  unfold decodeMessage at spelled
  split at spelled
  · split at spelled
    · exact decodeCommand_isMessage spelled
    · cases spelled
  · cases spelled

/-- A whole message that spells a command is carried out as that command's row is (R161, R163). -/
theorem takeMessage_spelled (spelled : decodeMessage slot m = some i) : exec i s = .next (s.takeMessage slot m) := by
  obtain ⟨t, next⟩ := exec_next i s
  have taken : s.takeMessage slot m = s.carryOut i := by
    unfold State.takeMessage
    rw [spelled]
  rw [taken, carryOut_of_exec i (decodeMessage_isMessage spelled) next, next]

/-- A whole message that spells none is answered MALFORMED with its type byte (R163, log 26). -/
theorem takeMessage_unspelled (unspelled : decodeMessage slot m = none) :
    s.takeMessage slot m = s.answered slot (m.headD 0) .malformed [] := by
  unfold State.takeMessage
  rw [unspelled]
  rfl

theorem extendMessage_last (n : Nat) : s.extendMessage slot m n true = s.takeMessage slot m := rfl

theorem extendMessage_more (n : Nat) : s.extendMessage slot m n false = s.setMachine slot (.receiving m n) := rfl

end

/-! ## The rows of the table of R161 -/

section
variable {slot : MgmtSlot} {control : Byte} {p m : List Byte} {s : State} {n : Nat}

theorem index_zero_iff : (control.extractLsb' 0 2).toNat = 0 ↔ control.extractLsb' 0 2 = 0 := BitVec.toNat_inj (y := 0)

variable (carries : control.getLsbD 4 = true)
include carries

/-- An EXECUTING or ANSWERING machine discards a fragment. -/
theorem takeFragment_busy (busy : (s.machine slot).busy = true) : s.takeFragment slot control p = s := by
  unfold State.takeFragment
  rw [carries]
  cases machine : s.machine slot with
  | idle =>
    rw [machine] at busy
    cases busy
  | receiving m n =>
    rw [machine] at busy
    cases busy
  | executing j n w => rfl
  | answering m n => rfl

/-- An IDLE machine discards a fragment that is not FIRST. -/
theorem takeFragment_unbegun (later : control.getLsbD 7 = false) (idle : s.machine slot = .idle) : s.takeFragment slot control p = s := by
  unfold State.takeFragment
  rw [carries, later, idle]
  rfl

/-- A FIRST fragment with a wrong number, at an IDLE machine. -/
theorem takeFragment_misnumbered (first : control.getLsbD 7 = true) (wrong : control.extractLsb' 0 2 ≠ 0) (idle : s.machine slot = .idle) :
    s.takeFragment slot control p = s.answered slot 0 .malformed [] := by
  unfold State.takeFragment
  rw [carries, first, idle]
  exact if_neg (mt index_zero_iff.1 wrong)

/-- A FIRST fragment begins a message, and ends one in hand. -/
theorem takeFragment_first (first : control.getLsbD 7 = true) (zero : control.extractLsb' 0 2 = 0) (free : (s.machine slot).busy = false) :
    s.takeFragment slot control p = s.extendMessage slot p 1 (control.getLsbD 6) := by
  have index := index_zero_iff.2 zero
  unfold State.takeFragment
  rw [carries, first]
  rcases machine_idle_or_receiving free with machine | ⟨m, n, machine⟩ <;> rw [machine] <;> exact if_pos index

/-- A fragment out of turn, at a RECEIVING machine. -/
theorem takeFragment_outOfTurn (receiving : s.machine slot = .receiving m n)
    (wrong : (control.getLsbD 7 = true ∧ control.extractLsb' 0 2 ≠ 0) ∨
      (control.getLsbD 7 = false ∧ (control.extractLsb' 0 2).toNat ≠ n)) :
    s.takeFragment slot control p = s.answered slot (m.headD 0) .malformed [] := by
  unfold State.takeFragment
  rw [carries, receiving]
  rcases wrong with ⟨first, index⟩ | ⟨later, index⟩
  · rw [first]
    exact if_neg (mt index_zero_iff.1 index)
  · rw [later]
    exact if_neg index

/-- The next fragment of a message in hand joins it. -/
theorem takeFragment_next (later : control.getLsbD 7 = false) (receiving : s.machine slot = .receiving m n)
    (index : (control.extractLsb' 0 2).toNat = n) :
    s.takeFragment slot control p = s.extendMessage slot (m ++ p) (n + 1) (control.getLsbD 6) := by
  unfold State.takeFragment
  rw [carries, later, receiving]
  exact if_pos index

end

/-- Settles O45: each row of the table of R161 is its lemma; a fragment that is taken extends the message in hand, and the LAST one has it carried out or answered MALFORMED. -/
theorem fragmentsReachTheSlotMachine : Obligations.FragmentsReachTheSlotMachine := by
  intro slot control p s released
  refine ⟨fun absent => takeFragment_none slot absent p, takeFragment_busy, takeFragment_unbegun, takeFragment_misnumbered,
    fun carries first more zero free => ?begins, fun m n carries => takeFragment_outOfTurn carries,
    fun m n carries later more receiving index => ?goesOn, fun i carries first last zero free spelled => ?whole,
    fun carries first last zero free unspelled => ?wholeUnspelled,
    fun m n carries later last receiving index unspelled => ?joinedUnspelled,
    fun m n i carries later last receiving index spelled => ?joined⟩
  case begins => rw [takeFragment_first carries first zero free, more, extendMessage_more]
  case goesOn => rw [takeFragment_next carries later receiving index, more, extendMessage_more]
  case whole => rw [takeFragment_first carries first zero free, last, extendMessage_last, takeMessage_spelled spelled]
  case wholeUnspelled => rw [takeFragment_first carries first zero free, last, extendMessage_last, takeMessage_unspelled unspelled]
  case joinedUnspelled =>
    rw [takeFragment_next carries later receiving index, last, extendMessage_last, takeMessage_unspelled unspelled]
  case joined => rw [takeFragment_next carries later receiving index, last, extendMessage_last, takeMessage_spelled spelled]

end Sys2Proof.Machine
end

section
/-! SUPPORT. R7 through every step: the changes that leave who holds what, and those that give or take one zone, keep `HoldersOk`. -/

namespace Sys2Proof.Machine

/-! ## Changes that leave who holds what -/

/-- Two states with the same holders and the same zones in the held lists, the second with no more VACANT carriers. -/
structure HoldsSame (s t : State) : Prop where
  holder : ∀ z, t.holder z = s.holder z
  holds : ∀ c z, t.holds c z = s.holds c z
  vacant : ∀ c, (t.carrier c).state = .vacant → (s.carrier c).state = .vacant

theorem HoldsSame.refl (s : State) : HoldsSame s s := ⟨fun _ => rfl, fun _ _ => rfl, fun _ h => h⟩

theorem HoldsSame.trans {s t u : State} (h : HoldsSame s t) (k : HoldsSame t u) : HoldsSame s u :=
  ⟨fun z => (k.holder z).trans (h.holder z), fun c z => (k.holds c z).trans (h.holds c z), fun c v => h.vacant c (k.vacant c v)⟩

/-- What leaves holders and carrier records leaves who holds what. -/
theorem HoldsSame.of_carriers {s t : State} (holder : ∀ z, t.holder z = s.holder z) (carriers : t.carriers = s.carriers) :
    HoldsSame s t where
  holder := holder
  holds c z := by unfold State.holds; rw [carrier_of_carriers carriers]
  vacant c v := by rwa [carrier_of_carriers carriers] at v

/-- A change of one carrier's record that keeps the zones of its held list, and does not make it VACANT. -/
theorem HoldsSame.modCarrier (s : State) (c : CarrierId) (f : Carrier → Carrier)
    (held : ∀ z, (f (s.carrier c)).held.any (fun e => e.zone == z) = s.holds c z)
    (state : (f (s.carrier c)).state = .vacant → (s.carrier c).state = .vacant) : HoldsSame s (s.modCarrier c f) where
  holder := (HoldingSame.modCarrier s c f).holder
  holds d z := by
    unfold State.holds
    rw [carrier_modCarrier]
    split
    · next e => subst e; exact held z
    · rfl
  vacant d v := by
    rw [carrier_modCarrier] at v
    split at v
    · next e => subst e; exact state v
    · exact v

theorem HoldsSame.moveCursorPast (s : State) (c : CarrierId) (x : HopRef) : HoldsSame s (s.moveCursorPast c x) where
  holder := (HoldingSame.moveCursorPast s c x).holder
  holds d z := by
    unfold State.holds
    by_cases e : d = c
    · subst e
      obtain ⟨_, _, _, moved⟩ := carrier_moveCursorPast s d x
      rw [moved]
    · rw [carrier_moveCursorPast_of_ne s x e]
  vacant d v := by rwa [state_moveCursorPast] at v

theorem HoldersOk.same {s t : State} (h : HoldersOk s) (k : HoldsSame s t) : HoldersOk t where
  holder_iff z c := by rw [k.holder, k.holds]; exact h.holder_iff z c
  vacant c v := by
    rw [List.eq_nil_iff_forall_not_mem]
    intro e m
    have held : s.holds c e.zone = true := (k.holds c e.zone).symm.trans ((holds_iff t c e.zone).2 ⟨e, m, rfl⟩)
    obtain ⟨x, mx, _⟩ := (holds_iff s c e.zone).1 held
    rw [h.vacant c (k.vacant c v)] at mx
    cases mx

/-! ## Changes that leave the agreement -/

/-- A change of one carrier's record beside its state and held list. -/
theorem HoldersOk.beside {s : State} (h : HoldersOk s) (c : CarrierId) {f : Carrier → Carrier} (held : ∀ r, (f r).held = r.held := by intro; rfl)
    (state : ∀ r, (f r).state = r.state := by intro; rfl) : HoldersOk (s.modCarrier c f) :=
  h.same (.modCarrier s c f (fun z => by rw [held]; rfl) (fun v => by rwa [state] at v))

theorem HoldersOk.breakWatch {s : State} (h : HoldersOk s) (c : CarrierId) : HoldersOk (s.breakWatch c) :=
  h.same (.of_carriers (fun _ => rfl) rfl)

theorem HoldersOk.enterState {s : State} (h : HoldersOk s) (c : CarrierId) {x : CarrierState} (new : x ≠ .vacant := by decide) :
    HoldersOk (s.enterState c x) :=
  .breakWatch (.beside (h.same (.modCarrier s c (fun r => { r with state := x }) (fun _ => rfl) (fun v => absurd v new))) c) c

theorem HoldersOk.leaveQueue {s : State} (h : HoldersOk s) (c : CarrierId) : HoldersOk (s.leaveQueue c) :=
  h.same (.of_carriers (HoldingSame.leaveQueue s c).holder (carriers_leaveQueue s c))

theorem HoldersOk.joinQueue {s : State} (h : HoldersOk s) (c : CarrierId) (w : Wait) (d : Direction) : HoldersOk (s.joinQueue c w d) :=
  h.same (.of_carriers (HoldingSame.joinQueue s c w d).holder (carriers_joinQueue s c w d))

theorem HoldersOk.dropUserOf {s : State} (h : HoldersOk s) (r : Option RouteId) : HoldersOk (s.dropUserOf r) :=
  h.same (.of_carriers (HoldingSame.users s r).holder (carriers_dropUserOf s r))

theorem HoldersOk.addUser {s : State} (h : HoldersOk s) (r : RouteId) : HoldersOk (s.addUser r) := h.same (.of_carriers (fun _ => rfl) rfl)

theorem HoldersOk.detach {s : State} (h : HoldersOk s) (c : CarrierId) : HoldersOk (s.detachRoute c) := .beside (h.dropUserOf _) c

/-! ## Zones taken and given up -/

/-- A carrier comes to hold zones that no other holds. -/
theorem HoldersOk.taken {s t : State} {c : CarrierId} {zs : List ZoneId} (h : HoldersOk s)
    (holder : ∀ w, t.holder w = if w ∈ zs then some c else s.holder w)
    (gains : ∀ w, t.holds c w = true ↔ w ∈ zs ∨ s.holds c w = true) (others : ∀ d, d ≠ c → t.carrier d = s.carrier d)
    (present : (t.carrier c).state ≠ .vacant) (free : ∀ w ∈ zs, ∀ d, s.holder w = some d → d = c) : HoldersOk t where
  holder_iff w d := by
    rw [holder]
    by_cases e : d = c
    · subst e
      rw [gains, ← h.holder_iff]
      split
      · next m => simp [m]
      · next m => simp [m]
    · have kept : t.holds d w = s.holds d w := by unfold State.holds; rw [others d e]
      rw [kept, ← h.holder_iff]
      split
      · next m => exact ⟨fun q => absurd (Option.some.inj q).symm e, fun q => absurd (free w m d q) e⟩
      · exact Iff.rfl
  vacant d v := by
    by_cases e : d = c
    · subst e; exact absurd v present
    · rw [others d e] at v ⊢
      exact h.vacant d v

/-- A carrier gives up a zone that it holds. -/
theorem HoldersOk.given {s t : State} {c : CarrierId} {z : ZoneId} (h : HoldersOk s) (g : GivenUp s t c z)
    (holds : s.holds c z = true) : HoldersOk t where
  holder_iff w d := by
    have holder : t.holder w = if w = z then none else s.holder w := by
      unfold State.holder
      split
      · next e => rw [e, g.zone]
      · next e => rw [g.zones w e]
    rw [holder]
    have unheld : w = z → d ≠ c → s.holds d w = false := fun e n => by
      subst e
      have q := (h.holder_iff w c).2 holds
      cases k : s.holds d w with
      | false => rfl
      | true => exact absurd (Option.some.inj (((h.holder_iff w d).2 k).symm.trans q)) n
    by_cases e : d = c
    · subst e
      have left : t.holds d w = (s.holds d w && w != z) := by
        unfold State.holds
        rw [g.carrier, List.any_filter, Bool.eq_iff_iff]
        simp only [List.any_eq_true, Bool.and_eq_true, beq_iff_eq, bne_iff_ne]
        constructor
        · rintro ⟨x, m, n, rfl⟩; exact ⟨⟨x, m, rfl⟩, n⟩
        · rintro ⟨⟨x, m, rfl⟩, n⟩; exact ⟨x, m, n, rfl⟩
      rw [left]
      by_cases q : w = z
      · simp [q]
      · simp [q, h.holder_iff]
    · have kept : t.holds d w = s.holds d w := by unfold State.holds; rw [g.others d e]
      rw [kept]
      by_cases q : w = z
      · rw [if_pos q, unheld q e]; simp
      · rw [if_neg q]; exact h.holder_iff w d
  vacant d v := by
    by_cases e : d = c
    · subst e
      rw [g.carrier] at v ⊢
      rw [h.vacant d v]
      rfl
    · rw [g.others d e] at v ⊢
      exact h.vacant d v

theorem not_vacant_of_active {s : State} {c : CarrierId} (a : s.active c) : (s.carrier c).state ≠ .vacant := by
  rcases a with a | a <;> rw [a] <;> exact nofun

theorem HoldersOk.engine : EngineClosed HoldersOk where
  breakWatch c h := h.breakWatch c
  freeToken h := h.same (.of_carriers (fun _ => rfl) rfl)
  takeToken _ h _ := h.same (.of_carriers (fun _ => rfl) rfl)
  join c w d h _ := .enterState (.beside (.beside (h.joinQueue c w d) c) c) c
  rejoin c w d h _ := .breakWatch (.beside (.beside ((h.leaveQueue c).joinQueue c w d) c) c) c
  recordDeadlock _ h := h.same (.of_carriers (fun _ => rfl) rfl)
  settle c h _ := .enterState (.beside (h.leaveQueue c) c) c
  exhaustAdvancing c h _ := .beside ((h.detach c).enterState c) c
  exhaustWaiting c h _ := .beside (.enterState (.detach (.beside (h.leaveQueue c) c) c) c) c
  setCst _ _ h _ := h.same (.of_carriers (fun _ => rfl) rfl)
  enterHeld {s} c e h a free _ := h.taken (c := c) (zs := [e.zone])
    (fun w => by rw [holder_enterHeld]; simp)
    (fun w => by
      simp only [holds_iff, carrier_enterHeld, List.mem_append, List.mem_singleton, or_and_right, exists_or, exists_eq_left]
      rw [or_comm, eq_comm (a := w)])
    (fun d n => carrier_enterHeld_of_ne s e n)
    (by rw [carrier_enterHeld]; exact not_vacant_of_active a)
    (fun w m _ => by rw [List.mem_singleton.1 m]; exact holder_of_heldByOther_false free.1)
  moveCursorPast c x h _ := h.same (.moveCursorPast _ c x)
  grantPending c h _ := h.same (.modCarrier _ c _ (fun _ => List.any_map) (fun v => v))

theorem HoldersOk.release : ReleaseClosed HoldersOk where
  toEngineClosed := HoldersOk.engine
  giveUp c z h holds := h.given (givenUp _ c z) holds

/-! ## Every change of the part -/

theorem repolarize_only (s : State) (b : Option FieldBinding) : s.repolarize b = { s with fieldSlots := (s.repolarize b).fieldSlots } := by
  unfold State.repolarize
  split
  · rfl
  · dsimp only
    split <;> rfl

theorem followRequests_only (s : State) (old new : ZoneRecord) :
    s.followRequests old new = { s with fieldSlots := (s.followRequests old new).fieldSlots } := by
  unfold State.followRequests
  split
  · rw [recomputeBinding_only, recomputeBinding_only]
  · rfl

/-- What laying a zone's record writes before its field state is looked at: the record, and inputs and outputs (R17). -/
theorem laidBindings_only (s : State) (z : ZoneId) (new : ZoneRecord) : s.laidBindings z new = { s with
    zones := (s.laidBindings z new).zones, fieldSlots := (s.laidBindings z new).fieldSlots } := by
  unfold State.laidBindings
  rw [followRequests_only, repolarize_only, repolarize_only]
  rfl

theorem layZone_only (s : State) (z : ZoneId) (new : ZoneRecord) : s.layZone z new = { s with
    zones := (s.layZone z new).zones, zoneStates := (s.layZone z new).zoneStates, fieldSlots := (s.layZone z new).fieldSlots } := by
  have only := laidBindings_only s z new
  rw [layZone_eq]
  generalize s.laidBindings z new = t at only ⊢
  split
  · rw [only]; rfl
  · rw [only]

theorem carriers_layZone (s : State) (z : ZoneId) (new : ZoneRecord) : (s.layZone z new).carriers = s.carriers := by rw [layZone_only]

theorem carriers_noteTableWrite (s : State) (slot : MgmtSlot) : (s.noteTableWrite slot).carriers = s.carriers := by
  obtain ⟨_, _, e⟩ := noteTableWrite_only s slot
  rw [e]

theorem HoldersOk.layZone {s : State} {slot : MgmtSlot} {z : ZoneId} {new : ZoneRecord} (h : HoldersOk s) :
    HoldersOk ((s.noteTableWrite slot).layZone z new) := by
  have noted : HoldersOk (s.noteTableWrite slot) := h.same (.of_carriers (fun w => by
    obtain ⟨_, _, e⟩ := noteTableWrite_only s slot
    rw [e]
    rfl) (carriers_noteTableWrite s slot))
  exact noted.same (.of_carriers (HoldingSame.layZone _ z new).holder (carriers_layZone ..))

/-- With no holders and nothing held, holders and held lists agree. -/
theorem HoldersOk.of_nothing {t : State} (holder : ∀ z, t.holder z = none) (held : ∀ c, (t.carrier c).held = []) : HoldersOk t where
  holder_iff z c := by simp [holder, State.holds, held]
  vacant c _ := held c

theorem HoldersOk.restart (s : State) (cause : ResetCause) : HoldersOk (s.restart cause) :=
  .of_nothing (fun z => by unfold State.holder; rw [(restart_tables s cause).zst]; rfl)
    fun c => by rw [(restart_tables s cause).carrier]; rfl

theorem holdersOk_powerOn (s : State) (straps : BitVec 4) : HoldersOk (s.powerOn straps) :=
  .of_nothing (fun z => by unfold State.holder; rw [(powerOn_tables s straps).zst, reset_zst]; rfl)
    fun c => by rw [(powerOn_tables s straps).carrier, reset_carrier]; rfl

theorem HoldersOk.giveZone {s : State} {c : CarrierId} {z : ZoneId} {atRear : Bool} (h : HoldersOk s)
    (present : (s.carrier c).state ≠ .vacant) (unheld : s.holder z = none) :
    HoldersOk ((s.modCarrier c (fun r => { r with held := if atRear then (⟨z, .granted, none⟩ : HeldEntry) :: r.held
      else r.held ++ [⟨z, .granted, none⟩] })).setHolder z (some c)) := by
  refine h.taken (c := c) (zs := [z]) (fun w => ?_) (fun w => ?_) (fun d n => ?_) ?_ fun w m d q => ?_
  · simp only [holder_setHolder, List.mem_singleton]; rfl
  · simp only [holds_iff, carrier_setHolder, carrier_modCarrier_self]
    cases atRear
    · simp only [Bool.false_eq_true, if_false, List.mem_append, List.mem_singleton, or_and_right, exists_or, exists_eq_left]
      rw [or_comm, eq_comm (a := w)]
    · simp only [if_true, List.mem_cons, List.not_mem_nil, or_false, or_and_right, exists_or, exists_eq_left]
      rw [eq_comm (a := w)]
  · rw [carrier_setHolder, carrier_modCarrier_of_ne _ _ n]
  · rw [carrier_setHolder, carrier_modCarrier_self]; exact present
  · rw [List.mem_singleton.1 m, unheld] at q; cases q

/-- Nobody holds a zone that is not occupied (R58). -/
theorem holder_none_of_not_occupied {s : State} {z : ZoneId} (h : s.occupied z = false) : s.holder z = none := by
  unfold State.occupied at h
  rw [Bool.or_eq_false_iff] at h
  simpa using h.1

/-- Only a VACANT carrier is admitted (R58). -/
theorem vacant_of_admitRefusal {s : State} {c : CarrierId} {f r : ZoneId} (g : s.admitRefusal c f r = none) :
    (s.carrier c).state = .vacant := by
  refine Classical.byContradiction fun other => ?_
  rw [admitRefusal_of_not_vacant other] at g
  cases g

theorem HoldersOk.enrol {s : State} {c : CarrierId} {f r : ZoneId} (h : HoldersOk s) (g : s.admitRefusal c f r = none) :
    HoldersOk ((admittedHeld f r).foldl (fun t e => t.admitZone c e.zone) (s.modCarrier c (fun x => x.admitted (admittedHeld f r)))) := by
  obtain ⟨of, or⟩ := not_occupied_of_admitRefusal g
  have done := zonesAdmitted_all c (admittedHeld f r) (s.modCarrier c (fun x => x.admitted (admittedHeld f r)))
  generalize (admittedHeld f r).foldl (fun t e => t.admitZone c e.zone) (s.modCarrier c (fun x => x.admitted (admittedHeld f r))) = t at *
  have carrier : ∀ d, t.carrier d = if d = c then (s.carrier c).admitted (admittedHeld f r) else s.carrier d := fun d => by
    have placed : t.carrier d = (s.modCarrier c (fun x => x.admitted (admittedHeld f r))).carrier d := by rw [done.rest]; rfl
    rw [placed, carrier_modCarrier]
  refine h.taken (c := c) (zs := (admittedHeld f r).map (·.zone)) (fun w => ?_) (fun w => ?_) (fun d n => ?_) ?_ fun w m d q => ?_
  · unfold State.holder; rw [done.zone]; split <;> rfl
  · have none : s.holds c w = false := by unfold State.holds; rw [h.vacant c (vacant_of_admitRefusal g)]; rfl
    rw [none]
    unfold State.holds
    rw [carrier, if_pos rfl]
    simp only [Carrier.admitted, List.any_eq_true, beq_iff_eq, List.mem_map, Bool.false_eq_true, or_false]
  · rw [carrier, if_neg n]
  · rw [carrier, if_pos rfl]; exact nofun
  · rcases (mem_admittedHeld f r w).1 m with e | e
    · rw [e, holder_none_of_not_occupied of] at q; cases q
    · rw [e, holder_none_of_not_occupied or] at q; cases q

theorem holds_rearFirst (s : State) (c d : CarrierId) (z : ZoneId) : (s.rearFirst c).holds d z = s.holds d z := by
  unfold State.rearFirst State.holds
  rw [carrier_modCarrier]
  split
  · next e =>
    subst e
    rw [Bool.eq_iff_iff]
    simp only [List.any_append, List.any_filter, Bool.or_eq_true, List.any_eq_true, Bool.and_eq_true, ← exists_or]
    refine exists_congr fun x => ?_
    by_cases q : (some x.zone == (s.carrier d).report.report.rear) = true <;> simp [q, bne]
  · rfl

theorem HoldersOk.part : PartClosed HoldersOk where
  toReleaseClosed := HoldersOk.release
  outside h k := h.same (.of_carriers (HoldingSame.zs k.zones k.zoneStates).holder k.carriers)
  touch c f h soft := .beside h c soft.held soft.state
  setValidator c x h _ _ := h.same (.of_carriers (fun _ => rfl) rfl)
  setReport c r h := HoldersOk.same (.beside h c)
    (.of_carriers (HoldingSame.recomputeHeld _ c).holder (by rw [recomputeHeld_only]))
  dequeue c h _ := .beside (h.leaveQueue c) c
  park c x h _ parked := h.same (.modCarrier _ c _ (fun _ => rfl) (by rintro rfl; rcases parked with e | e <;> cases e))
  advance c h _ _ := h.same (.modCarrier _ c _ (fun _ => rfl) nofun)
  vacate {s} c h held _ := ⟨fun z d => by
      have same : (s.modCarrier c (fun r => { r with state := .vacant })).holds d z = s.holds d z := by
        unfold State.holds; rw [carrier_modCarrier]; split
        · next e => rw [e]
        · rfl
      rw [same]; exact h.holder_iff z d,
    fun d v => by
      rw [carrier_modCarrier] at v ⊢
      split
      · exact held
      · next e => rw [if_neg e] at v; exact h.vacant d v⟩
  detach c h := h.detach c
  dropUser c r h _ := .beside ((h.dropUserOf _).addUser r) c
  moveCursor c x h _ := h.same (.moveCursorPast _ c x)
  grantOne {s} c z h := h.same (.modCarrier _ c _ (fun w => by
    unfold State.holds
    rw [List.any_map]
    congr 1
    funext e
    simp only [Function.comp]
    split <;> rfl) (fun v => v))
  giveZone c z _ h present unheld _ _ _ := h.giveZone present unheld
  rearFirst c h := h.same ⟨fun _ => rfl, fun d z => holds_rearFirst _ c d z,
    fun d v => by rwa [State.rearFirst, state_modCarrier _ _ _ _ (by rfl)] at v⟩
  enrol c f r h g := h.enrol g
  layZone slot w z new h _ := h.layZone
  addPair x y h _ _ _ _ _ := h.same (.of_carriers (fun _ => rfl) rfl)
  removePair x y h _ := h.same (.of_carriers (fun _ => rfl) rfl)
  setCorridor k d q h _ _ := h.same (.of_carriers (fun _ => rfl) rfl)
  setRoute r w x h _ _ := h.same (.of_carriers (fun _ => rfl) rfl)
  setHop i x h := h.same (.of_carriers (fun _ => rfl) rfl)
  fieldsFollow read h := (h.same (.of_carriers (HoldingSame.fieldSlots (filterInputs_only _ read)).holder (by rw [(filterInputs_only _ read).eq]))).same
    (.of_carriers (HoldingSame.fieldsFollow _ _).holder (by rw [(fieldsFollow_only ..).eq]))
  clearReached f i h := (h.same (t := State.setInput _ f i _) (.of_carriers (fun _ => rfl) rfl)).same
    (.of_carriers (HoldingSame.fieldsFollow _ _).holder (by rw [(fieldsFollow_only ..).eq]))
  setParameters a b c h _ _ _ _ _ _ := h.same (.of_carriers (fun _ => rfl) rfl)
  toService h _ := h.same (.of_carriers (fun _ => rfl) rfl)
  toSafe h _ := h.same (.of_carriers (fun _ => rfl) rfl)
  restart x _ := .restart _ x
  powerOn x _ := holdersOk_powerOn _ x

/-- Settles O54: who holds what is changed by takings of zones no other holds, by gifts and by givings up, each in both tables at once. -/
theorem everyStepKeepsHoldersOk : Obligations.EveryStepKeepsHoldersOk :=
  fun _ _ h e => HoldersOk.part.step h e

end Sys2Proof.Machine
end

section
/-! SUPPORT. The blocked flags of R10 and the request outputs of R128 through every step. Both are read off the holders, the queues, the field states and the validated reports, so both are kept where the changes of those keep them. -/

namespace Sys2Proof.Machine

/-! ## The changes that flags and outputs see -/

/-- Two states that flags and outputs do not tell apart: the zones' states, definedness and request bindings, the outputs and the validated reports are the same. -/
structure FloorViewSame (s t : State) : Prop where
  defined : ∀ z, (t.zone z).defined = (s.zone z).defined
  binding : ∀ z, (t.zone z).requestBinding = (s.zone z).requestBinding
  zst : ∀ z, t.zst z = s.zst z
  output : ∀ f o, t.output f o = s.output f o
  report : ∀ c, (t.carrier c).report.report = (s.carrier c).report.report

/-- A property that flags or outputs keep: of states that look the same to them, through what queues, holders, reports, field states and zone records take, and through resets. -/
structure FloorViewClosed (P : State → Prop) : Prop where
  same : ∀ {s t}, P s → FloorViewSame s t → P t
  leaveQueue : ∀ {s} c, P s → P (s.leaveQueue c)
  joinQueue : ∀ {s} c w d, P s → P (s.joinQueue c w d)
  setHolder : ∀ {s} z h, P s → P (s.setHolder z h)
  setReport : ∀ {s} c r, P s → P ((s.modCarrier c (fun x => { x with report := x.report.replaced r })).recomputeHeld c)
  setFieldState : ∀ {s} z, P s → P (s.setFieldState z)
  layZone : ∀ {s} z new, P s → P (s.layZone z new)
  restart : ∀ {s} x, P s → P (s.restart x)
  powerOn : ∀ {s} x, P s → P (s.powerOn x)

/-- States with the same tables of zones and outputs look the same, the reports being the same. -/
theorem FloorViewSame.of_tables {s t : State} (zones : t.zones = s.zones) (zoneStates : t.zoneStates = s.zoneStates)
    (fieldSlots : t.fieldSlots = s.fieldSlots) (report : ∀ c, (t.carrier c).report = (s.carrier c).report) : FloorViewSame s t where
  defined z := by rw [zone_of zones]
  binding z := by rw [zone_of zones]
  zst z := by unfold State.zst; rw [zoneStates]
  output f o := by unfold State.output State.fieldSlot; rw [fieldSlots]
  report c := by rw [report]

theorem report_modCarrier (s : State) (c d : CarrierId) (f : Carrier → Carrier) (report : (f (s.carrier c)).report = (s.carrier c).report) :
    ((s.modCarrier c f).carrier d).report = (s.carrier d).report := by
  rw [carrier_modCarrier]
  split
  · next e => rw [e, report]
  · rfl

/-- A change of one carrier's record beside its report is not seen. -/
theorem FloorViewSame.modCarrier (s : State) (c : CarrierId) (f : Carrier → Carrier) (report : ∀ r, (f r).report = r.report) :
    FloorViewSame s (s.modCarrier c f) :=
  .of_tables rfl rfl rfl fun d => report_modCarrier s c d f (report _)

theorem FloorViewSame.trans {s t u : State} (h : FloorViewSame s t) (k : FloorViewSame t u) : FloorViewSame s u :=
  ⟨fun z => (k.defined z).trans (h.defined z), fun z => (k.binding z).trans (h.binding z), fun z => (k.zst z).trans (h.zst z),
    fun f o => (k.output f o).trans (h.output f o), fun c => (k.report c).trans (h.report c)⟩

theorem FloorViewSame.enterState (s : State) (c : CarrierId) (x : CarrierState) : FloorViewSame s (s.enterState c x) :=
  ((FloorViewSame.modCarrier s c (fun r => { r with state := x }) (fun _ => rfl)).trans (.modCarrier _ c (fun r => { r with flags := { r.flags with state := true } }) (fun _ => rfl))).trans (.of_tables rfl rfl rfl (fun _ => rfl))

theorem FloorViewSame.dropUserOf (s : State) (r : Option RouteId) : FloorViewSame s (s.dropUserOf r) := by
  rw [dropUserOf_only]
  exact .of_tables rfl rfl rfl (fun _ => rfl)

theorem FloorViewSame.detach (s : State) (c : CarrierId) : FloorViewSame s (s.detachRoute c) :=
  (FloorViewSame.dropUserOf s _).trans (.modCarrier _ c _ (fun _ => rfl))

theorem FloorViewSame.moveCursorPast (s : State) (c : CarrierId) (x : HopRef) : FloorViewSame s (s.moveCursorPast c x) := by
  refine .of_tables (by rw [moveCursorPast_only]) (by rw [moveCursorPast_only]) (by rw [moveCursorPast_only]) fun d => ?_
  by_cases e : d = c
  · subst e
    obtain ⟨_, _, _, moved⟩ := carrier_moveCursorPast s d x
    rw [moved]
  · rw [carrier_moveCursorPast_of_ne s x e]

theorem FloorViewSame.noteTableWrite (s : State) (slot : MgmtSlot) : FloorViewSame s (s.noteTableWrite slot) := by
  obtain ⟨_, _, e⟩ := noteTableWrite_only s slot
  rw [e]
  exact .of_tables rfl rfl rfl (fun _ => rfl)

/-- A filtered input leaves the outputs alone. -/
theorem FloorViewSame.setInput (s : State) (f : FieldSlotId) (i : LineId) (x : Input) : FloorViewSame s (s.setInput f i x) where
  defined _ := rfl
  binding _ := rfl
  zst _ := rfl
  output g o := by
    unfold State.output State.setInput
    rw [fieldSlot_setFieldSlot]
    split
    · next e => rw [e]
    · rfl
  report _ := rfl

theorem FloorViewSame.of_fieldSlots {s t : State} (only : OnlyFieldSlots s t) (output : ∀ f o, t.output f o = s.output f o) :
    FloorViewSame s t where
  defined z := by rw [only.eq]; rfl
  binding z := by rw [only.eq]; rfl
  zst z := by rw [only.eq]; rfl
  output := output
  report c := by rw [only.eq]; rfl

theorem FloorViewSame.setConflicts (s : State) (z : ZoneId) (l : List ZoneId) : FloorViewSame s (s.setConflicts z l) where
  defined w := by unfold State.setConflicts; rw [zone_setZone]; split <;> simp [*]
  binding w := by unfold State.setConflicts; rw [zone_setZone]; split <;> simp [*]
  zst _ := rfl
  output _ _ := rfl
  report _ := rfl

section
variable {P : State → Prop} (H : FloorViewClosed P)
include H

theorem FloorViewClosed.modCarrier {s : State} (c : CarrierId) {f : Carrier → Carrier} (report : ∀ r, (f r).report = r.report) (h : P s) :
    P (s.modCarrier c f) := H.same h (.modCarrier s c f report)

theorem FloorViewClosed.enterState {s : State} (c : CarrierId) (x : CarrierState) (h : P s) : P (s.enterState c x) := H.same h (.enterState s c x)

theorem FloorViewClosed.breakWatch {s : State} (c : CarrierId) (h : P s) : P (s.breakWatch c) := H.same h (.of_tables rfl rfl rfl (fun _ => rfl))

theorem FloorViewClosed.dequeue {s : State} (c : CarrierId) (h : P s) : P ((s.leaveQueue c).clearWait c) :=
  H.modCarrier c (fun _ => rfl) (H.leaveQueue c h)

theorem FloorViewClosed.detach {s : State} (c : CarrierId) (h : P s) : P (s.detachRoute c) := H.same h (.detach s c)

theorem FloorViewClosed.engine : EngineClosed P where
  breakWatch c h := H.breakWatch c h
  freeToken h := H.same h (.of_tables rfl rfl rfl (fun _ => rfl))
  takeToken _ h _ := H.same h (.of_tables rfl rfl rfl (fun _ => rfl))
  join c w d h _ := H.enterState c _ (H.modCarrier c (fun _ => rfl) (H.modCarrier c (fun _ => rfl) (H.joinQueue c w d h)))
  rejoin c w d h _ := H.breakWatch c
    (H.modCarrier c (fun _ => rfl) (H.modCarrier c (fun _ => rfl) (H.joinQueue c w d (H.leaveQueue c h))))
  recordDeadlock _ h := H.same h (.of_tables rfl rfl rfl (fun _ => rfl))
  settle c h _ := H.enterState c _ (H.dequeue c h)
  exhaustAdvancing c h _ := H.modCarrier c (fun _ => rfl) (H.enterState c _ (H.detach c h))
  exhaustWaiting c h _ := H.modCarrier c (fun _ => rfl) (H.enterState c _ (H.detach c (H.dequeue c h)))
  setCst _ _ h _ := H.same h (.of_tables rfl rfl rfl (fun _ => rfl))
  enterHeld c _ h _ _ _ := H.setHolder _ _ (H.modCarrier c (fun _ => rfl) h)
  moveCursorPast c x h _ := H.same h (.moveCursorPast _ c x)
  grantPending c h _ := H.modCarrier c (fun _ => rfl) h

theorem FloorViewClosed.release : ReleaseClosed P where
  toEngineClosed := H.engine
  giveUp c _ h _ := H.setHolder _ _ (H.modCarrier c (fun _ => rfl) h)

theorem FloorViewClosed.admitZone {s : State} (c : CarrierId) (z : ZoneId) (h : P s) : P (s.admitZone c z) := by
  have held := H.setHolder z (some c) h
  refine H.same held ?_
  rw [State.admitZone, joinZoneCorridor_only]
  exact .of_tables rfl rfl rfl (fun _ => rfl)

theorem FloorViewClosed.fieldsFollow {before after : State} (h : P after) : P (before.fieldsFollow after) :=
  foldList_keeps State.setFieldState (fun _ z k => H.setFieldState z k) _ h

theorem FloorViewClosed.part : PartClosed P where
  toReleaseClosed := H.release
  outside h k := H.same h (.of_tables k.zones k.zoneStates k.fieldSlots fun c => by rw [carrier_of_carriers k.carriers])
  touch c f h soft := H.modCarrier c soft.report h
  setValidator c x h _ _ := H.same h (.of_tables rfl rfl rfl (fun _ => rfl))
  setReport c r h := H.setReport c r h
  dequeue c h _ := H.dequeue c h
  park c x h _ _ := H.modCarrier c (fun _ => rfl) h
  advance c h _ _ := H.modCarrier c (fun _ => rfl) h
  vacate c h _ _ := H.modCarrier c (fun _ => rfl) h
  detach c h := H.detach c h
  dropUser {s} c r h _ := H.modCarrier c (fun _ => rfl)
    (H.same (H.same h (.dropUserOf s (s.carrier c).route)) (t := State.addUser _ r) (.of_tables rfl rfl rfl (fun _ => rfl)))
  moveCursor c x h _ := H.same h (.moveCursorPast _ c x)
  grantOne c z h := H.modCarrier c (fun _ => rfl) h
  giveZone c z _ h _ _ _ _ _ := H.setHolder _ _ (H.modCarrier c (fun _ => rfl) h)
  rearFirst c h := H.modCarrier c (fun _ => rfl) h
  enrol c f r h _ := foldList_keeps (fun t (e : HeldEntry) => t.admitZone c e.zone) (fun _ e k => H.admitZone c e.zone k) _
    (H.modCarrier c (fun _ => rfl) h)
  layZone slot w z new h _ := H.layZone z new (H.same h (.noteTableWrite _ slot))
  addPair x y h _ _ _ _ _ := H.same h ((FloorViewSame.setConflicts _ x _).trans (.setConflicts _ y _))
  removePair x y h _ := H.same h ((FloorViewSame.setConflicts _ x _).trans (.setConflicts _ y _))
  setCorridor k d q h _ _ := H.same h (.of_tables rfl rfl rfl (fun _ => rfl))
  setRoute r w x h _ _ := H.same h (.of_tables rfl rfl rfl (fun _ => rfl))
  setHop i x h := H.same h (.of_tables rfl rfl rfl (fun _ => rfl))
  fieldsFollow read h := H.fieldsFollow (H.same h (.of_fieldSlots (filterInputs_only _ read) fun _ _ => output_filterInputs ..))
  clearReached f i h := H.fieldsFollow (H.same h (.setInput _ f i _))
  setParameters a b c h _ _ _ _ _ _ := H.same h (.of_tables rfl rfl rfl (fun _ => rfl))
  toService h _ := H.same h (.of_tables rfl rfl rfl (fun _ => rfl))
  toSafe h _ := H.same h (.of_tables rfl rfl rfl (fun _ => rfl))
  restart x h := H.restart x h
  powerOn x h := H.powerOn x h

end

/-! ## The blocked flags (R10) -/

theorem blockedFlag_iff (x : ZoneState) (s : State) (z : ZoneId) : x.blockedFlag s.standsIn z = true ↔
    ∃ c, x.holder = some c ∧ x.field = .unclear ∧ s.front c ≠ some z ∧ s.rear c ≠ some z := by
  cases e : x.holder with
  | none => rw [blockedFlag_of_free e]; simp
  | some d => rw [blockedFlag_of_holder e]; simp

/-- Each flag is the one that R10 sets. -/
theorem blockedOk_iff (s : State) : BlockedOk s ↔ ∀ z, (s.zst z).blocked = (s.zst z).blockedFlag s.standsIn z := by
  refine forall_congr' fun z => ?_
  exact (iff_congr Iff.rfl (blockedFlag_iff (s.zst z) s z).symm).trans Bool.eq_iff_iff.symm

/-- Where a carrier stands, by its validated report. -/
theorem standsIn_of_report {s t : State} {c : CarrierId} (h : (t.carrier c).report.report = (s.carrier c).report.report) (z : ZoneId) :
    t.standsIn c z = s.standsIn c z := by
  unfold State.standsIn State.front State.rear
  rw [h]

theorem blockedFlag_congr {x y : ZoneState} {p q : CarrierId → ZoneId → Bool} {z : ZoneId} (holder : y.holder = x.holder)
    (field : y.field = x.field) (stands : ∀ c, x.holder = some c → q c z = p c z) : y.blockedFlag q z = x.blockedFlag p z := by
  unfold ZoneState.blockedFlag
  rw [holder, field]
  split
  · rfl
  · next c e => rw [stands c e]

/-- R10 stands where queues change, and no zone's holder, flag or field state, nor a carrier's report. -/
theorem BlockedOk.queues {s t : State} (h : BlockedOk s) (zst : ∀ z, ∃ q, t.zst z = { s.zst z with queue := q })
    (report : ∀ c, (t.carrier c).report.report = (s.carrier c).report.report) : BlockedOk t := by
  rw [blockedOk_iff] at h ⊢
  intro z
  obtain ⟨q, e⟩ := zst z
  rw [e]
  exact (h z).trans (blockedFlag_congr rfl rfl fun c _ => standsIn_of_report (report c) z).symm

/-- R10 stands where the flags of some zones are set anew, and the other zones and where their holders stand are left alone. -/
theorem BlockedOk.anew {s t : State} (h : BlockedOk s)
    (zst : ∀ z, (t.zst z = s.zst z ∧ ∀ c, s.holder z = some c → t.standsIn c z = s.standsIn c z) ∨
      (t.zst z).blocked = (t.zst z).blockedFlag t.standsIn z) : BlockedOk t := by
  rw [blockedOk_iff] at h ⊢
  intro z
  rcases zst z with ⟨e, stands⟩ | e
  · rw [e, h z]
    exact (blockedFlag_congr rfl rfl stands).symm
  · exact e

theorem zst_joinQueue (s : State) (c : CarrierId) (w : Wait) (d : Direction) (z : ZoneId) :
    ∃ q, (s.joinQueue c w d).zst z = { s.zst z with queue := q } := by
  have joined : ∀ y x, ∃ q, (s.joinZoneQueue c y x).zst z = { s.zst z with queue := q } := fun y x => by
    by_cases e : z = y
    · subst e; exact ⟨_, zst_setZst_self ..⟩
    · refine ⟨(s.zst z).queue, (zst_setZst ..).trans (if_neg e)⟩
  unfold State.joinQueue
  split
  · exact ⟨_, rfl⟩
  · exact joined ..
  · exact joined ..
  · unfold State.recomputeOutput; rw [zst_recomputeBinding]; exact joined ..
  · exact ⟨_, rfl⟩
  · exact ⟨_, rfl⟩

theorem BlockedOk.setFieldState {s : State} (h : BlockedOk s) (z : ZoneId) : BlockedOk (s.setFieldState z) := by
  refine h.anew fun w => ?_
  by_cases e : w = z
  · subst e
    rw [zst_setFieldState_self]
    exact .inr rfl
  · exact .inl ⟨zst_setFieldState_other s e, fun _ _ => rfl⟩

theorem BlockedOk.setHolder {s : State} (h : BlockedOk s) (z : ZoneId) (x : Option CarrierId) : BlockedOk (s.setHolder z x) := by
  have stands : (s.setHolder z x).standsIn = s.standsIn := by rw [setHolder_only]; rfl
  refine h.anew fun w => ?_
  rw [zst_setHolder, stands]
  split
  · next e =>
    refine .inr ?_
    unfold State.blockedValue State.holder
    rw [e, zst_setZst_self]
    rfl
  · exact .inl ⟨rfl, fun _ _ => rfl⟩

/-- The zones of a carrier whose validated report is replaced are looked at again; where another carrier stands has not changed (R113). -/
theorem BlockedOk.setReport {s : State} (h : BlockedOk s) (c : CarrierId) (r : ReadReport) :
    BlockedOk ((s.modCarrier c (fun x => { x with report := x.report.replaced r })).recomputeHeld c) := by
  generalize u_eq : s.modCarrier c (fun x => { x with report := x.report.replaced r }) = u
  have zst : ∀ z, u.zst z = s.zst z := fun z => by rw [← u_eq]; rfl
  have stands : (u.recomputeHeld c).standsIn = u.standsIn :=
    funext fun d => funext fun z => standsIn_of_report (by rw [carrier_recomputeHeld]) z
  refine h.anew fun z => ?_
  rw [zst_recomputeHeld, stands]
  by_cases held : u.holder z = some c
  · rw [if_pos held]
    exact .inr rfl
  · rw [if_neg held]
    refine .inl ⟨zst z, fun d held' => standsIn_of_report ?_ z⟩
    have other : d ≠ c := fun e => held (by unfold State.holder at held' ⊢; rw [zst, held', e])
    rw [← u_eq, carrier_modCarrier_of_ne s _ other]

theorem BlockedOk.layZone {s : State} (h : BlockedOk s) (z : ZoneId) (new : ZoneRecord) : BlockedOk (s.layZone z new) := by
  have laid : BlockedOk (s.laidBindings z new) := h.queues (fun w => ⟨_, zst_laidBindings s z new w⟩) fun c => by
    rw [carrier_of_carriers (s := s) (by rw [laidBindings_only])]
  rw [layZone_eq]
  split
  · exact laid.setFieldState z
  · exact laid

theorem BlockedOk.closed : FloorViewClosed BlockedOk where
  same h k := h.queues (fun z => ⟨_, k.zst z⟩) k.report
  leaveQueue {s} c h := h.queues (fun z => ⟨_, zst_leaveQueue s c z⟩) fun _ => by rw [carrier_leaveQueue]
  joinQueue {s} c w d h := h.queues (zst_joinQueue s c w d) fun _ => by rw [carrier_joinQueue]
  setHolder z x h := h.setHolder z x
  setReport c r h := h.setReport c r
  setFieldState z h := h.setFieldState z
  layZone z new h := h.layZone z new
  restart {s} x _ z := by
    rw [(restart_tables s x).zst]
    simp [State.holder, (restart_tables s x).zst, ZoneState.cleared]
  powerOn {s} x _ z := by
    rw [(powerOn_tables s x).zst, reset_zst]
    simp [State.holder, (powerOn_tables s x).zst, reset_zst, ZoneState.cleared]

/-! ## The request outputs (R128) -/

/-- A zone calls on an output: it is defined and bound to it, and it calls (R128). -/
def State.callsOn (s : State) (f : FieldSlotId) (o : LineId) (z : ZoneId) : Bool :=
  (s.zone z).defined && (s.zone z).requestBinding == some ⟨f, o⟩ && s.zoneCalls z

theorem outputValue_eq (s : State) (f : FieldSlotId) (o : LineId) : s.outputValue f o = allZones.any (s.callsOn f o) := rfl

theorem zoneCalls_iff (s : State) (z : ZoneId) : s.zoneCalls z = true ↔
    (∃ c, s.holder z = some c ∧ s.front c ≠ some z ∧ s.rear c ≠ some z) ∨ ∃ w ∈ (s.zst z).queue, w.cause = .field := by
  unfold State.zoneCalls State.standsIn
  cases e : s.holder z <;> simp

/-- Each output is the one that R128 sets. -/
theorem outputsOk_iff (s : State) : OutputsOk s ↔ ∀ f o, s.output f o = s.outputValue f o := by
  refine forall_congr' fun f => forall_congr' fun o => ?_
  refine (iff_congr Iff.rfl ?_).trans Bool.eq_iff_iff.symm
  rw [outputValue_eq, List.any_eq_true]
  refine exists_congr fun z => ?_
  rw [and_iff_right (show z ∈ allZones from List.mem_finRange z), State.callsOn]
  simp only [Bool.and_eq_true, beq_iff_eq, zoneCalls_iff, and_assoc]

/-- R128 stands but for the outputs of some bindings. -/
def OutputsOkBut (s : State) (w : RequestBinding → Prop) : Prop :=
  ∀ f o, ¬w ⟨f, o⟩ → s.output f o = s.outputValue f o

theorem outputsOk_of_but {s : State} {w : RequestBinding → Prop} (h : OutputsOkBut s w) (none : ∀ b, ¬w b) : OutputsOk s :=
  (outputsOk_iff s).2 fun f o => h f o (none _)

theorem OutputsOk.but {s : State} (h : OutputsOk s) (w : RequestBinding → Prop) : OutputsOkBut s w := fun f o _ => (outputsOk_iff s).1 h f o

/-- Where a change leaves who calls on the outputs of the other bindings, R128 stands but for those it changes. -/
theorem OutputsOkBut.changed {s t : State} {w v : RequestBinding → Prop} (h : OutputsOkBut s w) (wider : ∀ b, w b → v b)
    (output : ∀ f o, t.output f o = s.output f o) (calls : ∀ f o, ¬v ⟨f, o⟩ → ∀ z, t.callsOn f o z = s.callsOn f o z) :
    OutputsOkBut t v := fun f o n => by
  rw [output, outputValue_eq, h f o fun k => n (wider _ k), outputValue_eq]
  exact (congrArg (List.any allZones) (funext (calls f o n))).symm

theorem callsOn_congr {s t : State} {z : ZoneId} (defined : (t.zone z).defined = (s.zone z).defined)
    (binding : (t.zone z).requestBinding = (s.zone z).requestBinding) (calls : t.zoneCalls z = s.zoneCalls z) (f : FieldSlotId) (o : LineId) :
    t.callsOn f o z = s.callsOn f o z := by
  unfold State.callsOn
  rw [defined, binding, calls]

/-- A zone that is not bound to an output does not call on it. -/
theorem callsOn_of_unbound {s : State} {f : FieldSlotId} {o : LineId} {z : ZoneId} (h : (s.zone z).requestBinding ≠ some ⟨f, o⟩) :
    s.callsOn f o z = false := by
  unfold State.callsOn
  rw [beq_false_of_ne h, Bool.and_false, Bool.false_and]

theorem zoneCalls_congr {s t : State} {z : ZoneId} (holder : t.holder z = s.holder z)
    (stands : ∀ c, s.holder z = some c → t.standsIn c z = s.standsIn c z)
    (queue : (t.zst z).queue.any (fun w => w.cause == .field) = (s.zst z).queue.any (fun w => w.cause == .field)) :
    t.zoneCalls z = s.zoneCalls z := by
  unfold State.zoneCalls
  rw [holder, queue]
  congr 1
  split
  · rfl
  · next c e => rw [stands c e]

theorem output_recomputeBinding (s : State) (b : Option RequestBinding) (f : FieldSlotId) (o : LineId) :
    (s.recomputeBinding b).output f o = if b = some ⟨f, o⟩ then s.outputValue f o else s.output f o := by
  cases b with
  | none => rw [if_neg nofun]; rfl
  | some b =>
    obtain ⟨g, p⟩ := b
    unfold State.recomputeBinding State.setOutput State.output
    rw [fieldSlot_setFieldSlot]
    by_cases slot : f = g
    · subst slot
      rw [if_pos rfl]
      refine (tget_tset ..).trans ?_
      by_cases line : o = p
      · subst line; rw [if_pos rfl, if_pos rfl]
      · rw [if_neg line, if_neg fun e => line (by cases e; rfl)]
    · rw [if_neg slot, if_neg fun e => slot (by cases e; rfl)]

theorem outputValue_recomputeBinding (s : State) (b : Option RequestBinding) (f : FieldSlotId) (o : LineId) :
    (s.recomputeBinding b).outputValue f o = s.outputValue f o := by
  rw [recomputeBinding_only]
  rfl

/-- Setting a binding's output anew settles it. -/
theorem OutputsOkBut.recompute {s : State} {w : RequestBinding → Prop} (h : OutputsOkBut s w) (b : Option RequestBinding) :
    OutputsOkBut (s.recomputeBinding b) (fun x => w x ∧ b ≠ some x) := fun f o n => by
  rw [output_recomputeBinding, outputValue_recomputeBinding]
  split
  · rfl
  · next other => exact h f o fun k => n ⟨k, other⟩

/-- R128 stands where one zone's holder, flag or queue changes and its binding's output is set anew. -/
theorem OutputsOk.recomputed {s t : State} {z : ZoneId} (h : OutputsOk s) (zones : t.zones = s.zones) (fieldSlots : t.fieldSlots = s.fieldSlots)
    (others : ∀ w, w ≠ z → t.zoneCalls w = s.zoneCalls w) : OutputsOk (t.recomputeOutput z) := by
  have changed : OutputsOkBut t (fun b => (t.zone z).requestBinding = some b) := by
    refine (h.but fun _ => False).changed (fun _ => False.elim) (fun f o => ?_) fun f o n w => ?_
    · unfold State.output State.fieldSlot; rw [fieldSlots]
    · by_cases e : w = z
      · subst e
        rw [callsOn_of_unbound n, callsOn_of_unbound (zone_of zones w ▸ n)]
      · exact callsOn_congr (by rw [zone_of zones]) (by rw [zone_of zones]) (others w e) f o
  exact outputsOk_of_but (changed.recompute _) fun b k => k.2 k.1

/-- R128 stands where no zone comes to call or ceases to. -/
theorem OutputsOk.same {s t : State} (h : OutputsOk s) (defined : ∀ z, (t.zone z).defined = (s.zone z).defined)
    (binding : ∀ z, (t.zone z).requestBinding = (s.zone z).requestBinding) (calls : ∀ z, t.zoneCalls z = s.zoneCalls z)
    (output : ∀ f o, t.output f o = s.output f o) : OutputsOk t :=
  outputsOk_of_but ((h.but fun _ => False).changed (fun _ => id) output fun f o _ z => callsOn_congr (defined z) (binding z) (calls z) f o)
    fun _ => id

theorem zoneCalls_of_zst {s t : State} {z : ZoneId} (zst : t.zst z = s.zst z)
    (stands : ∀ c, s.holder z = some c → t.standsIn c z = s.standsIn c z) : t.zoneCalls z = s.zoneCalls z :=
  zoneCalls_congr (by unfold State.holder; rw [zst]) stands (by rw [zst])

/-- A write of one zone's state leaves the calls of the others. -/
theorem zoneCalls_setZst_of_ne (s : State) {z w : ZoneId} (x : ZoneState) (other : w ≠ z) : (s.setZst z x).zoneCalls w = s.zoneCalls w :=
  zoneCalls_of_zst ((zst_setZst ..).trans (if_neg other)) fun _ _ => rfl

/-- A zone calls by its holder and its queue; its flag and its field state do not matter. -/
theorem zoneCalls_setZst_self {s : State} {z : ZoneId} {x : ZoneState} (holder : x.holder = s.holder z)
    (queue : x.queue.any (fun w => w.cause == .field) = (s.zst z).queue.any (fun w => w.cause == .field)) :
    (s.setZst z x).zoneCalls z = s.zoneCalls z :=
  zoneCalls_congr (by unfold State.holder at holder ⊢; rw [zst_setZst_self, holder]) (fun _ _ => rfl) (by rw [zst_setZst_self, queue])

theorem zoneCalls_recomputeBlocked (s : State) (z w : ZoneId) : (s.recomputeBlocked z).zoneCalls w = s.zoneCalls w := by
  by_cases e : w = z
  · subst e; exact zoneCalls_setZst_self rfl rfl
  · exact zoneCalls_setZst_of_ne s _ e

/-- A wait of another cause than a field's calls on no output. -/
theorem any_field_insert {e : ZoneWaiter} (other : e.cause ≠ .field) (q : List ZoneWaiter) :
    (insertByClass (·.priority) e q).any (fun w => w.cause == .field) = q.any (fun w => w.cause == .field) := by
  rw [Bool.eq_iff_iff]
  simp only [List.any_eq_true, beq_iff_eq, mem_insertByClass, or_and_right, exists_or, exists_eq_left, other, false_or]

theorem OutputsOk.leaveQueue {s : State} (h : OutputsOk s) (c : CarrierId) : OutputsOk (s.leaveQueue c) := by
  have left : ∀ z, OutputsOk ((s.leaveZoneQueue c z).recomputeOutput z) := fun z =>
    h.recomputed rfl rfl fun w other => zoneCalls_setZst_of_ne s _ other
  unfold State.leaveQueue
  split
  · exact h
  · exact left _
  · exact left _
  · exact left _
  · exact h.same (fun _ => rfl) (fun _ => rfl) (fun _ => rfl) fun _ _ => rfl
  · exact h.same (fun _ => rfl) (fun _ => rfl) (fun _ => rfl) fun _ _ => rfl

theorem OutputsOk.joinQueue {s : State} (h : OutputsOk s) (c : CarrierId) (w : Wait) (d : Direction) : OutputsOk (s.joinQueue c w d) := by
  have joined : ∀ z x, x ≠ .field → OutputsOk (s.joinZoneQueue c z x) := fun z x other =>
    h.same (fun _ => rfl) (fun _ => rfl) (fun y => by
      by_cases e : y = z
      · subst e; exact zoneCalls_setZst_self (s := s) rfl (any_field_insert (e := ⟨c, x, (s.carrier c).priority, s.tickets⟩) other _)
      · exact zoneCalls_setZst_of_ne s _ e) fun _ _ => rfl
  unfold State.joinQueue
  split
  · exact h
  · exact joined _ _ nofun
  · exact joined _ _ nofun
  · exact h.recomputed (t := State.joinZoneQueue ..) rfl rfl fun y other => zoneCalls_setZst_of_ne s _ other
  · exact h.same (fun _ => rfl) (fun _ => rfl) (fun _ => rfl) fun _ _ => rfl
  · exact h.same (fun _ => rfl) (fun _ => rfl) (fun _ => rfl) fun _ _ => rfl

theorem OutputsOk.setHolder {s : State} (h : OutputsOk s) (z : ZoneId) (x : Option CarrierId) : OutputsOk (s.setHolder z x) :=
  h.recomputed (t := State.recomputeBlocked _ z) rfl rfl fun w other =>
    (zoneCalls_recomputeBlocked _ z w).trans (zoneCalls_setZst_of_ne s _ other)

theorem OutputsOk.setFieldState {s : State} (h : OutputsOk s) (z : ZoneId) : OutputsOk (s.setFieldState z) :=
  h.same (fun _ => rfl) (fun _ => rfl) (fun w => (zoneCalls_recomputeBlocked _ z w).trans (by
    by_cases e : w = z
    · subst e; exact zoneCalls_setZst_self rfl rfl
    · exact zoneCalls_setZst_of_ne s _ e)) fun _ _ => rfl

/-- The bindings of the zones that a carrier holds, among those of a list. -/
def State.boundOf (s : State) (c : CarrierId) (l : List ZoneId) (b : RequestBinding) : Prop :=
  ∃ z ∈ l, s.holder z = some c ∧ (s.zone z).requestBinding = some b

theorem OutputsOkBut.recomputeIfHeld {s : State} {c : CarrierId} {z : ZoneId} {l : List ZoneId} (h : OutputsOkBut s (s.boundOf c (z :: l))) :
    OutputsOkBut (s.recomputeIfHeld c z) ((s.recomputeIfHeld c z).boundOf c l) := by
  unfold State.recomputeIfHeld
  split
  · next held =>
    have same : HoldingSame s ((s.recomputeBlocked z).recomputeOutput z) := (HoldingSame.blocked s z).trans (.output _ z)
    have blocked : OutputsOkBut (s.recomputeBlocked z) (s.boundOf c (z :: l)) := h.changed (fun _ => id) (fun _ _ => rfl)
      fun f o _ w => callsOn_congr (s := s) (t := s.recomputeBlocked z) rfl rfl (zoneCalls_recomputeBlocked s z w) f o
    refine fun f o n => blocked.recompute _ f o ?_
    rintro ⟨⟨w, m, holder, bound⟩, other⟩
    rcases List.mem_cons.1 m with e | m
    · exact other (e ▸ bound)
    · exact n ⟨w, m, (same.holder w).trans holder, by rw [zone_of same.zones]; exact bound⟩
  · next unheld =>
    refine fun f o n => h f o ?_
    rintro ⟨w, m, holder, bound⟩
    rcases List.mem_cons.1 m with e | m
    · exact unheld (e ▸ holder)
    · exact n ⟨w, m, holder, bound⟩

/-- The zones of a carrier looked at one after the other settle the outputs of their bindings. -/
theorem outputsOk_recomputeHeld (c : CarrierId) (l : List ZoneId) {s : State} (h : OutputsOkBut s (s.boundOf c l)) :
    OutputsOk (l.foldl (State.recomputeIfHeld · c ·) s) := by
  induction l generalizing s with
  | nil => exact outputsOk_of_but h fun _ ⟨_, m, _⟩ => nomatch m
  | cons z l ih => exact ih h.recomputeIfHeld

theorem OutputsOk.setReport {s : State} (h : OutputsOk s) (c : CarrierId) (r : ReadReport) :
    OutputsOk ((s.modCarrier c (fun x => { x with report := x.report.replaced r })).recomputeHeld c) := by
  rw [recomputeHeld_eq]
  refine outputsOk_recomputeHeld c allZones ((h.but fun _ => False).changed (fun _ => False.elim) (fun _ _ => rfl) fun f o n z => ?_)
  by_cases bound : (s.zone z).requestBinding = some ⟨f, o⟩
  · refine callsOn_congr (s := s) (t := s.modCarrier c _) rfl rfl (zoneCalls_of_zst rfl fun d held => standsIn_of_report ?_ z) f o
    have other : d ≠ c := fun e => n ⟨z, List.mem_finRange z, e ▸ held, bound⟩
    rw [carrier_modCarrier_of_ne s _ other]
  · exact (callsOn_of_unbound (s := s.modCarrier c _) bound).trans (callsOn_of_unbound bound).symm

theorem output_repolarize (s : State) (b : Option FieldBinding) (f : FieldSlotId) (o : LineId) : (s.repolarize b).output f o = s.output f o := by
  unfold State.repolarize
  split
  · rfl
  · dsimp only
    split
    · rfl
    · exact (FloorViewSame.setInput ..).output f o

/-- A zone's record laid: the outputs of its old and its new binding are set anew where the binding or the defined field changed (R17). -/
theorem OutputsOk.laidBindings {s : State} (h : OutputsOk s) (z : ZoneId) (new : ZoneRecord) : OutputsOk (s.laidBindings z new) := by
  unfold State.laidBindings
  generalize laid : ((s.setZone z new).repolarize (s.zone z).fieldBinding).repolarize new.fieldBinding = t
  have zone : ∀ w, t.zone w = if w = z then new else s.zone w := fun w => by
    rw [← laid, zone_of (zones_repolarize ..), zone_of (zones_repolarize ..), zone_setZone]
  have output : ∀ f o, t.output f o = s.output f o := fun f o => by rw [← laid, output_repolarize, output_repolarize]; rfl
  have calls : ∀ w, t.zoneCalls w = s.zoneCalls w := fun w => zoneCalls_of_zst
    (by rw [← laid, zst_repolarize, zst_repolarize]; rfl)
    fun c _ => standsIn_of_report (by rw [← laid, repolarize_only, repolarize_only]; rfl) w
  unfold State.followRequests
  split
  · have changed : OutputsOkBut t (fun b => (s.zone z).requestBinding = some b ∨ new.requestBinding = some b) := by
      refine (h.but fun _ => False).changed (fun _ => False.elim) output fun f o n w => ?_
      by_cases e : w = z
      · subst e
        rw [callsOn_of_unbound (by rw [zone, if_pos rfl]; exact fun b => n (.inr b)), callsOn_of_unbound fun b => n (.inl b)]
      · exact callsOn_congr (by rw [zone, if_neg e]) (by rw [zone, if_neg e]) (calls w) f o
    exact outputsOk_of_but ((changed.recompute _).recompute _) fun b ⟨⟨either, notOld⟩, notNew⟩ => either.elim notOld notNew
  · next unchanged =>
    obtain ⟨binding, defined⟩ := not_or.1 unchanged
    refine h.same (fun w => ?_) (fun w => ?_) calls output
    · rw [zone]
      split
      · next e => rw [e]; exact Classical.not_not.1 defined
      · rfl
    · rw [zone]
      split
      · next e => rw [e]; exact Classical.not_not.1 binding
      · rfl

theorem OutputsOk.layZone {s : State} (h : OutputsOk s) (z : ZoneId) (new : ZoneRecord) : OutputsOk (s.layZone z new) := by
  rw [layZone_eq]
  split
  · exact (h.laidBindings z new).setFieldState z
  · exact h.laidBindings z new

/-- With no holder and no wait anywhere every output is off. -/
theorem outputsOk_of_idle {t : State} (holder : ∀ z, t.holder z = none) (queue : ∀ z, (t.zst z).queue = [])
    (output : ∀ f o, t.output f o = false) : OutputsOk t := fun f o => by simp [holder, queue, output]

theorem OutputsOk.closed : FloorViewClosed OutputsOk where
  same h k := h.same k.defined k.binding (fun z => zoneCalls_of_zst (k.zst z) fun c _ => standsIn_of_report (k.report c) z) k.output
  leaveQueue c h := h.leaveQueue c
  joinQueue c w d h := h.joinQueue c w d
  setHolder z x h := h.setHolder z x
  setReport c r h := h.setReport c r
  setFieldState z h := h.setFieldState z
  layZone z new h := h.layZone z new
  restart {s} x _ := outputsOk_of_idle (fun z => by unfold State.holder; rw [(restart_tables s x).zst]; rfl)
    (fun z => by rw [(restart_tables s x).zst]; rfl) (restart_tables s x).output
  powerOn {s} x _ := outputsOk_of_idle (fun z => by unfold State.holder; rw [(powerOn_tables s x).zst, reset_zst]; rfl)
    (fun z => by rw [(powerOn_tables s x).zst, reset_zst]; rfl)
    fun f o => by unfold State.output; rw [(powerOn_tables s x).fieldSlot]; exact reset_output f o

/-- Settles O55: the flags and the outputs follow each change of what R10 and R128 read. -/
theorem everyStepKeepsBlockedOk : Obligations.EveryStepKeepsBlockedOk :=
  ⟨fun _ _ h e => BlockedOk.closed.part.step h e, fun _ _ h e => OutputsOk.closed.part.step h e⟩

end Sys2Proof.Machine
end

section
/-! SUPPORT. R168 through every step: in SAFE mode no change makes a carrier ADVANCING or WAITING. -/

namespace Sys2Proof.Machine

/-- R168 stands where the mode stays and no carrier becomes ADVANCING or WAITING. -/
theorem SafeModeOk.fewer {s t : State} (h : SafeModeOk s) (mode : t.mode = s.mode) (active : ∀ c, t.active c → s.active c) : SafeModeOk t :=
  fun safe c a => h (mode.symm.trans safe) c (active c a)

/-- The changes of an ADVANCING or WAITING carrier are not made in SAFE mode. -/
theorem SafeModeOk.of_active {s t : State} (h : SafeModeOk s) {c : CarrierId} (a : s.active c) (mode : t.mode = s.mode) : SafeModeOk t :=
  fun safe => absurd a (h (mode.symm.trans safe) c)

theorem SafeModeOk.same {s t : State} (h : SafeModeOk s) (mode : t.mode = s.mode) (state : ∀ c, (t.carrier c).state = (s.carrier c).state) :
    SafeModeOk t := h.fewer mode fun c => (active_congr (state c)).1

theorem SafeModeOk.modCarrier {s : State} (h : SafeModeOk s) (c : CarrierId) {f : Carrier → Carrier}
    (state : ∀ r, (f r).state = r.state := by intro; rfl) : SafeModeOk (s.modCarrier c f) :=
  h.same rfl fun d => state_modCarrier s c d f (state _)

theorem active_modCarrier_of_parked {s : State} {c d : CarrierId} {f : Carrier → Carrier}
    (parked : (f (s.carrier c)).state ≠ .advancing ∧ (f (s.carrier c)).state ≠ .waiting) (a : (s.modCarrier c f).active d) : s.active d := by
  unfold State.active at a ⊢
  rw [carrier_modCarrier] at a
  split at a
  · exact absurd a (not_or.2 parked)
  · exact a

/-- A carrier made IDLE, FAULTED or VACANT. -/
theorem SafeModeOk.parked {s : State} (h : SafeModeOk s) (c : CarrierId) {f : Carrier → Carrier}
    (parked : (f (s.carrier c)).state ≠ .advancing ∧ (f (s.carrier c)).state ≠ .waiting) : SafeModeOk (s.modCarrier c f) :=
  h.fewer rfl fun _ => active_modCarrier_of_parked parked

/-- With no carrier ADVANCING or WAITING R168 stands in each mode. -/
theorem safeModeOk_of_cleared {t : State} (cleared : ∀ c, t.carrier c = .cleared) : SafeModeOk t :=
  fun _ c a => by
    unfold State.active at a
    rw [cleared] at a
    exact a.elim nofun nofun

theorem SafeModeOk.release : ReleaseClosed SafeModeOk where
  breakWatch _ h := h.same rfl fun _ => rfl
  freeToken h := h.same rfl fun _ => rfl
  takeToken _ h _ := h.same rfl fun _ => rfl
  join {s} c w d h a := h.of_active (.inl a) ((EngineFrame.closed s).join c w d (.refl s) a).mode
  rejoin {s} c w d h a := h.of_active (.inr a) ((EngineFrame.closed s).rejoin c w d (.refl s) a).mode
  recordDeadlock _ h := h.same rfl fun _ => rfl
  settle {s} c h a := h.of_active (.inr a) ((EngineFrame.closed s).settle c (.refl s) a).mode
  exhaustAdvancing {s} c h a := h.of_active (.inl a) ((EngineFrame.closed s).exhaustAdvancing c (.refl s) a).mode
  exhaustWaiting {s} c h a := h.of_active (.inr a) ((EngineFrame.closed s).exhaustWaiting c (.refl s) a).mode
  setCst _ _ h _ := h.same rfl fun _ => rfl
  enterHeld {s} c e h a _ _ := h.of_active a (EngineFrame.enterHeld s c e).mode
  moveCursorPast {s} c x h a := h.of_active a (EngineFrame.moveCursorPast s c x).mode
  grantPending c h _ := h.modCarrier c
  giveUp {s} c z h holds := h.same ((EngineFrame.closed s).giveUp c z (.refl s) holds).mode fun d => by
    rw [carrier_setHolder, state_modCarrier _ _ _ _ (by rfl)]

theorem SafeModeOk.fieldSlots {s t : State} (h : SafeModeOk s) (only : OnlyFieldSlots s t) : SafeModeOk t :=
  h.same (by rw [only.eq]) fun c => by rw [only.eq]; rfl

theorem SafeModeOk.zoneStates {s t : State} (h : SafeModeOk s) (only : OnlyZoneStates s t) : SafeModeOk t :=
  h.same (by rw [only.eq]) fun c => by rw [only.eq]; rfl

theorem SafeModeOk.recomputeHeld {s : State} (h : SafeModeOk s) (c : CarrierId) : SafeModeOk (s.recomputeHeld c) :=
  h.same (by rw [recomputeHeld_only]) fun d => by rw [carrier_recomputeHeld]

theorem SafeModeOk.setHolder {s : State} (h : SafeModeOk s) (z : ZoneId) (x : Option CarrierId) : SafeModeOk (s.setHolder z x) :=
  h.same (by rw [setHolder_only]) fun d => by rw [carrier_setHolder]

theorem SafeModeOk.dropUserOf {s : State} (h : SafeModeOk s) (r : Option RouteId) : SafeModeOk (s.dropUserOf r) :=
  h.same (by rw [dropUserOf_only]) fun d => by rw [carrier_dropUserOf]

theorem SafeModeOk.layZone {s : State} (h : SafeModeOk s) (slot : MgmtSlot) (z : ZoneId) (new : ZoneRecord) :
    SafeModeOk ((s.noteTableWrite slot).layZone z new) := by
  have noted : (s.noteTableWrite slot).mode = s.mode := by
    obtain ⟨_, _, e⟩ := noteTableWrite_only s slot
    rw [e]
  refine h.same (Eq.trans (by rw [layZone_only]) noted) fun c => ?_
  rw [carrier_of_carriers ((carriers_layZone ..).trans (carriers_noteTableWrite s slot))]

theorem SafeModeOk.enrol {s : State} (h : SafeModeOk s) (c : CarrierId) (l : List HeldEntry) :
    SafeModeOk (l.foldl (fun t e => t.admitZone c e.zone) (s.modCarrier c (fun x => x.admitted l))) := by
  have record : SafeModeOk (s.modCarrier c (fun x => x.admitted l)) := h.parked c ⟨nofun, nofun⟩
  have only := (zonesAdmitted_all c l (s.modCarrier c (fun x => x.admitted l))).rest
  generalize s.modCarrier c (fun x => x.admitted l) = u at record only ⊢
  generalize l.foldl (fun t e => t.admitZone c e.zone) u = t at only ⊢
  exact record.same (by rw [only]) fun d => by rw [only]; rfl

theorem SafeModeOk.part : PartClosed SafeModeOk where
  toReleaseClosed := SafeModeOk.release
  outside h k := h.same k.mode fun c => by rw [carrier_of_carriers k.carriers]
  touch c f h soft := h.modCarrier c soft.state
  setValidator c x h _ _ := h.same rfl fun _ => rfl
  setReport c r h := .recomputeHeld (.modCarrier h c) c
  dequeue {s} c h a := h.of_active (.inr a) (by rw [(dequeued s c).rest])
  park {s} c x h _ parked := h.parked c (by rcases parked with e | e <;> rw [e] <;> exact ⟨nofun, nofun⟩)
  advance c h _ service safe := absurd (service.symm.trans safe) nofun
  vacate c h _ _ := h.parked c ⟨nofun, nofun⟩
  detach c h := .modCarrier (h.dropUserOf _) c
  dropUser c r h _ := .modCarrier ((h.dropUserOf _).same (t := State.addUser _ r) rfl fun _ => rfl) c
  moveCursor {s} c x h _ := h.same (EngineFrame.moveCursorPast s c x).mode fun d => by rw [state_moveCursorPast]
  grantOne c z h := h.modCarrier c
  giveZone c z _ h _ _ _ _ _ := .setHolder (.modCarrier h c) z _
  rearFirst c h := h.modCarrier c
  enrol c f r h _ := h.enrol c _
  layZone slot w z new h _ := h.layZone slot z new
  addPair x y h _ _ _ _ _ := h.same rfl fun _ => rfl
  removePair x y h _ := h.same rfl fun _ => rfl
  setCorridor k d q h _ _ := h.same rfl fun _ => rfl
  setRoute r w x h _ _ := h.same rfl fun _ => rfl
  setHop i x h := h.same rfl fun _ => rfl
  fieldsFollow read h := (h.fieldSlots (filterInputs_only _ read)).zoneStates (fieldsFollow_only ..)
  clearReached f i h := (h.fieldSlots (t := State.setInput _ f i _) ⟨rfl⟩).zoneStates (fieldsFollow_only ..)
  setParameters a b c h _ _ _ _ _ _ := h.same rfl fun _ => rfl
  toService h _ safe := absurd safe nofun
  toSafe h idle _ := idle
  restart x _ := safeModeOk_of_cleared (restart_tables _ x).carrier
  powerOn x _ := safeModeOk_of_cleared fun c => ((powerOn_tables _ x).carrier c).trans (reset_carrier c)

/-- Settles O56: no change makes a carrier ADVANCING outside SERVICE mode, and SAFE mode is entered when none is ADVANCING or WAITING. -/
theorem everyStepKeepsSafeModeOk : Obligations.EveryStepKeepsSafeModeOk :=
  fun _ _ h e => SafeModeOk.part.step h e

end Sys2Proof.Machine
end

section
/-! SUPPORT. R44 through every step: a carrier that changes its route is taken from one users count and added to the other. -/

namespace Sys2Proof.Machine

/-! ## Counting carriers -/

/-- Where two predicates agree but on one entry of a list without repeats, their counts differ by that entry. -/
theorem countP_but_one {α : Type} {p q : α → Bool} {c : α} {l : List α} (nodup : l.Nodup) (mem : c ∈ l) (off : ∀ d, d ≠ c → q d = p d) :
    l.countP q + (if p c then 1 else 0) = l.countP p + (if q c then 1 else 0) := by
  induction l with
  | nil => cases mem
  | cons d l ih =>
    rw [List.nodup_cons] at nodup
    rw [List.countP_cons, List.countP_cons]
    by_cases e : d = c
    · subst e
      have rest : l.countP q = l.countP p :=
        List.countP_congr fun x m => by rw [off x fun e => nodup.1 (e ▸ m)]
      omega
    · have rest := ih nodup.2 ((List.mem_cons.1 mem).resolve_left (Ne.symm e))
      rw [off d e]
      omega

/-! ## Routes changed and left alone -/

/-- R44 stands where the users counts and the routes stay and no carrier becomes VACANT. -/
theorem UsersOk.same {s t : State} (h : UsersOk s) (users : ∀ r, (t.route r).users = (s.route r).users)
    (route : ∀ c, (t.carrier c).route = (s.carrier c).route)
    (vacant : ∀ c, (t.carrier c).state = .vacant → (s.carrier c).state = .vacant) : UsersOk t where
  count r := by simp only [users, route]; exact h.count r
  vacant c v := by rw [route]; exact h.vacant c (vacant c v)

theorem UsersOk.of_tables {s t : State} (h : UsersOk s) (routes : t.routes = s.routes) (carriers : t.carriers = s.carriers) : UsersOk t :=
  h.same (fun r => by unfold State.route; rw [routes]) (fun c => by rw [carrier_of_carriers carriers])
    fun c v => by rwa [carrier_of_carriers carriers] at v

/-- A carrier goes from its route to another, or to none, and the counts follow it (R44). -/
theorem UsersOk.rerouted {s t : State} (h : UsersOk s) (c : CarrierId) (q : Option RouteId)
    (users : ∀ r, (t.route r).users = (s.route r).users - (if (s.carrier c).route = some r then 1 else 0) + (if q = some r then 1 else 0))
    (route : (t.carrier c).route = q) (others : ∀ d, d ≠ c → t.carrier d = s.carrier d)
    (vacant : (t.carrier c).state = .vacant → q = none) : UsersOk t where
  count r := by
    have change := countP_but_one (p := fun d => (s.carrier d).route == some r) (q := fun d => (t.carrier d).route == some r)
      (List.nodup_finRange 48) (List.mem_finRange c) fun d e => by rw [others d e]
    have counted := h.count r
    unfold allCarriers at counted ⊢
    simp only [beq_iff_eq, route] at change
    have own : (s.carrier c).route = some r → 0 < List.countP (fun c => (s.carrier c).route == some r) (List.finRange 48) := fun e =>
      List.countP_pos_iff.2 ⟨c, List.mem_finRange c, beq_iff_eq.2 e⟩
    rw [users]
    by_cases old : (s.carrier c).route = some r
    · have own := own old
      rw [if_pos old] at change ⊢
      omega
    · rw [if_neg old] at change ⊢
      omega
  vacant d v := by
    by_cases e : d = c
    · subst e; rw [route]; exact vacant v
    · rw [others d e] at v ⊢
      exact h.vacant d v

/-- A change of one carrier's record beside its route, that does not make it VACANT. -/
theorem UsersOk.modCarrier {s : State} (h : UsersOk s) (c : CarrierId) {f : Carrier → Carrier}
    (route : (f (s.carrier c)).route = (s.carrier c).route := by rfl)
    (vacant : (f (s.carrier c)).state = .vacant → (s.carrier c).state = .vacant := by exact id) : UsersOk (s.modCarrier c f) :=
  h.same (fun _ => rfl)
    (fun d => by
      rw [carrier_modCarrier]
      split
      · next e => rw [e]; exact route
      · rfl)
    fun d v => by
      rw [carrier_modCarrier] at v
      split at v
      · next e => rw [e]; exact vacant v
      · exact v

theorem UsersOk.breakWatch {s : State} (h : UsersOk s) (c : CarrierId) : UsersOk (s.breakWatch c) := h.of_tables rfl rfl

theorem UsersOk.enterState {s : State} (h : UsersOk s) (c : CarrierId) {x : CarrierState} (new : x ≠ .vacant := by decide) :
    UsersOk (s.enterState c x) :=
  .breakWatch (.modCarrier (.modCarrier (f := fun r => { r with state := x }) h c rfl (fun v => absurd v new)) c) c

theorem UsersOk.leaveQueue {s : State} (h : UsersOk s) (c : CarrierId) : UsersOk (s.leaveQueue c) :=
  h.of_tables (by rw [leaveQueue_only]) (carriers_leaveQueue s c)

theorem routes_joinQueue (s : State) (c : CarrierId) (w : Wait) (d : Direction) : (s.joinQueue c w d).routes = s.routes := by
  cases w
  case field z =>
    show ((s.joinZoneQueue c z .field).recomputeOutput z).routes = s.routes
    unfold State.recomputeOutput
    rw [recomputeBinding_only]
    rfl
  all_goals rfl

theorem UsersOk.joinQueue {s : State} (h : UsersOk s) (c : CarrierId) (w : Wait) (d : Direction) : UsersOk (s.joinQueue c w d) :=
  h.of_tables (routes_joinQueue s c w d) (carriers_joinQueue s c w d)

theorem UsersOk.setHolder {s : State} (h : UsersOk s) (z : ZoneId) (x : Option CarrierId) : UsersOk (s.setHolder z x) :=
  h.of_tables (by rw [setHolder_only]) (carriers_setHolder s z x)

theorem UsersOk.recomputeHeld {s : State} (h : UsersOk s) (c : CarrierId) : UsersOk (s.recomputeHeld c) :=
  h.of_tables (by rw [recomputeHeld_only]) (by rw [recomputeHeld_only])

theorem UsersOk.fieldSlots {s t : State} (h : UsersOk s) (only : OnlyFieldSlots s t) : UsersOk t :=
  h.of_tables (by rw [only.eq]) (by rw [only.eq])

theorem UsersOk.zoneStates {s t : State} (h : UsersOk s) (only : OnlyZoneStates s t) : UsersOk t :=
  h.of_tables (by rw [only.eq]) (by rw [only.eq])

/-- A carrier leaves its route, and the route's count falls (R44). -/
theorem UsersOk.detach {s : State} (h : UsersOk s) (c : CarrierId) : UsersOk (s.detachRoute c) := by
  have left := routeLeft s c
  exact h.rerouted c none (fun r => by rw [left.users]; rfl) (by rw [left.carrier]) left.others fun _ => rfl

/-- A carrier takes another route, and the counts follow it (R44). -/
theorem UsersOk.takeUser {s : State} (h : UsersOk s) {c : CarrierId} (present : (s.carrier c).state ≠ .vacant) (q : RouteId)
    {f : Carrier → Carrier} (route : (f (s.carrier c)).route = some q := by rfl) (state : (f (s.carrier c)).state = (s.carrier c).state := by rfl) :
    UsersOk (((s.dropUserOf (s.carrier c).route).addUser q).modCarrier c f) := by
  refine h.rerouted c (some q) (fun r => ?_) ?_ (fun d e => ?_) fun v => ?_
  · rw [(modCarrier_accessors ..).2.2.2.2.1, users_addUser, users_dropUserOf]
    simp only [Option.some.injEq]
  · rw [carrier_modCarrier_self, carrier_addUser, carrier_dropUserOf, route]
  · rw [carrier_modCarrier_of_ne _ _ e, carrier_addUser, carrier_dropUserOf]
  · rw [carrier_modCarrier_self, carrier_addUser, carrier_dropUserOf, state] at v
    exact absurd v present

theorem UsersOk.takeSeam {s : State} (h : UsersOk s) {c : CarrierId} (present : (s.carrier c).state ≠ .vacant) (r : RouteId) :
    UsersOk (s.takeSeam c r) := by
  unfold State.takeSeam
  split
  · exact h.modCarrier c
  · exact h.modCarrier c
  · split
    · exact h.modCarrier c
    · split
      · exact h.takeUser present _
      · exact h.modCarrier c

theorem UsersOk.moveCursorPast {s : State} (h : UsersOk s) {c : CarrierId} (present : (s.carrier c).state ≠ .vacant) (x : HopRef) :
    UsersOk (s.moveCursorPast c x) := by
  unfold State.moveCursorPast
  split
  · exact .breakWatch (h.modCarrier c) c
  · exact .breakWatch (h.takeSeam present _) c

/-! ## Every change of the part -/

theorem UsersOk.release : ReleaseClosed UsersOk where
  breakWatch c h := h.breakWatch c
  freeToken h := h.of_tables rfl rfl
  takeToken _ h _ := h.of_tables rfl rfl
  join c w d h _ := .enterState (.modCarrier (.modCarrier (h.joinQueue c w d) c) c) c
  rejoin c w d h _ := .breakWatch (.modCarrier (.modCarrier ((h.leaveQueue c).joinQueue c w d) c) c) c
  recordDeadlock _ h := h.of_tables rfl rfl
  settle c h _ := .enterState (.modCarrier (h.leaveQueue c) c) c
  exhaustAdvancing c h _ := .modCarrier ((h.detach c).enterState c) c
  exhaustWaiting c h _ := .modCarrier (.enterState (.detach (.modCarrier (h.leaveQueue c) c) c) c) c
  setCst _ _ h _ := h.of_tables rfl rfl
  enterHeld c _ h _ _ _ := .setHolder (.modCarrier h c) _ _
  moveCursorPast _ x h a := h.moveCursorPast (not_vacant_of_active a) x
  grantPending c h _ := .modCarrier h c
  giveUp c _ h _ := .setHolder (.modCarrier h c) _ _

/-- The record a Write Route writes keeps the users count (R44, R47). -/
theorem users_of_routeWriteRecord {w : RouteWrite} {n : Nat} {x : RouteRecord} (h : routeWriteRecord w n = some x) : x.users = n := by
  unfold routeWriteRecord at h
  dsimp only at h
  repeat' split at h
  all_goals cases h
  all_goals rfl

theorem UsersOk.layZone {s : State} (h : UsersOk s) (slot : MgmtSlot) (z : ZoneId) (new : ZoneRecord) :
    UsersOk ((s.noteTableWrite slot).layZone z new) := by
  have noted : UsersOk (s.noteTableWrite slot) := h.of_tables (by
    obtain ⟨_, _, e⟩ := noteTableWrite_only s slot
    rw [e]) (carriers_noteTableWrite s slot)
  exact noted.of_tables (by rw [layZone_only]) (carriers_layZone ..)

/-- A carrier admitted was VACANT, and had no route. -/
theorem UsersOk.enrol {s : State} {c : CarrierId} {f r : ZoneId} (h : UsersOk s) (g : s.admitRefusal c f r = none) (l : List HeldEntry) :
    UsersOk (l.foldl (fun t e => t.admitZone c e.zone) (s.modCarrier c (fun x => x.admitted l))) := by
  have record : UsersOk (s.modCarrier c (fun x => x.admitted l)) := h.modCarrier c (h.vacant c (vacant_of_admitRefusal g)).symm nofun
  have only := (zonesAdmitted_all c l (s.modCarrier c (fun x => x.admitted l))).rest
  generalize s.modCarrier c (fun x => x.admitted l) = u at record only ⊢
  generalize l.foldl (fun t e => t.admitZone c e.zone) u = t at only ⊢
  exact record.of_tables (by rw [only]) (by rw [only])

/-- With no users and no routes the counts are right. -/
theorem usersOk_of_none {t : State} (users : ∀ r, (t.route r).users = 0) (route : ∀ c, (t.carrier c).route = none) : UsersOk t where
  count r := by simp [users, route]
  vacant c _ := route c

theorem UsersOk.part : PartClosed UsersOk where
  toReleaseClosed := UsersOk.release
  outside h k := h.of_tables k.routes k.carriers
  touch c f h soft := h.modCarrier c (soft.route _) fun v => by rwa [soft.state] at v
  setValidator c x h _ _ := h.of_tables rfl rfl
  setReport c r h := .recomputeHeld (.modCarrier h c) c
  dequeue c h _ := .modCarrier (h.leaveQueue c) c
  park c x h _ parked := h.modCarrier c rfl (by rcases parked with e | e <;> rw [e] <;> exact nofun)
  advance c h _ _ := h.modCarrier c rfl nofun
  vacate {s} c h _ unrouted := h.rerouted c none (fun r => by rw [unrouted]; rfl) (by rw [carrier_modCarrier_self, unrouted])
    (fun d e => carrier_modCarrier_of_ne s _ e) fun _ => rfl
  detach c h := h.detach c
  dropUser c r h present := h.takeUser present r
  moveCursor c x h present := h.moveCursorPast present x
  grantOne c z h := h.modCarrier c
  giveZone c z _ h _ _ _ _ _ := .setHolder (.modCarrier h c) _ _
  rearFirst c h := h.modCarrier c
  enrol c f r h g := h.enrol g _
  layZone slot w z new h _ := h.layZone slot z new
  addPair x y h _ _ _ _ _ := h.of_tables rfl rfl
  removePair x y h _ := h.of_tables rfl rfl
  setCorridor k d q h _ _ := h.of_tables rfl rfl
  setRoute {s} r w x h _ written := h.same (fun q => by
      rw [route_setRoute]
      split
      · next e => rw [e]; exact users_of_routeWriteRecord written
      · rfl) (fun _ => rfl) fun _ => id
  setHop i x h := h.of_tables rfl rfl
  fieldsFollow read h := (h.fieldSlots (filterInputs_only _ read)).zoneStates (fieldsFollow_only ..)
  clearReached f i h := (h.fieldSlots (t := State.setInput _ f i _) ⟨rfl⟩).zoneStates (fieldsFollow_only ..)
  setParameters a b c h _ _ _ _ _ _ := h.of_tables rfl rfl
  toService h _ := h.of_tables rfl rfl
  toSafe h _ := h.of_tables rfl rfl
  restart {s} x _ := usersOk_of_none (fun r => by rw [(restart_tables s x).route]) fun c => by rw [(restart_tables s x).carrier]; rfl
  powerOn {s} x _ := usersOk_of_none (fun r => by rw [(powerOn_tables s x).route, reset_route]; rfl)
    fun c => by rw [(powerOn_tables s x).carrier, reset_carrier]; rfl

/-- Settles O57: each change of a carrier's route moves it from one users count to the other. -/
theorem everyStepKeepsUsersOk : Obligations.EveryStepKeepsUsersOk :=
  fun _ _ h e => UsersOk.part.step h e

end Sys2Proof.Machine
end

section
/-! SUPPORT. The counts in their ranges through every step: those of the carrier records, those of the other tables, and the corridors on the quotas. -/

namespace Sys2Proof.Machine

/-! ## Properties of the carrier records -/

/-- Every carrier's record has a property. -/
def CarriersOk (p : Carrier → Prop) (s : State) : Prop := ∀ c, p (s.carrier c)

/-- A property of a carrier record that speaks of its horizon, its wait age and the length of its held list, and that the changes of those keep. -/
structure RecordKept (p : Carrier → Prop) : Prop where
  fewer : ∀ r x : Carrier, x.horizon = r.horizon → x.waitAge ≤ r.waitAge → x.held.length ≤ r.held.length → p r → p x
  grow : ∀ r x : Carrier, x.horizon = r.horizon → x.waitAge = r.waitAge → r.held.length < 12 → x.held.length = r.held.length + 1 → p r → p x
  soft : ∀ (f : Carrier → Carrier) (r : Carrier), SoftUpdate f → p r → p (f r)
  fresh : ∀ x : Carrier, x.horizon = 3 → x.waitAge = 0 → x.held.length ≤ 2 → p x

theorem CarriersOk.of_carriers {p : Carrier → Prop} {s t : State} (h : CarriersOk p s) (carriers : t.carriers = s.carriers) : CarriersOk p t :=
  fun c => by rw [carrier_of_carriers carriers]; exact h c

theorem CarriersOk.modCarrier {p : Carrier → Prop} {s : State} (h : CarriersOk p s) (c : CarrierId) {f : Carrier → Carrier}
    (keep : p (s.carrier c) → p (f (s.carrier c))) : CarriersOk p (s.modCarrier c f) := fun d => by
  rw [carrier_modCarrier]
  split
  · exact keep (h c)
  · exact h d

theorem CarriersOk.breakWatch {p : Carrier → Prop} {s : State} (h : CarriersOk p s) (c : CarrierId) : CarriersOk p (s.breakWatch c) :=
  h.of_carriers rfl

theorem CarriersOk.setHolder {p : Carrier → Prop} {s : State} (h : CarriersOk p s) (z : ZoneId) (x : Option CarrierId) :
    CarriersOk p (s.setHolder z x) := h.of_carriers (carriers_setHolder ..)

theorem CarriersOk.recomputeHeld {p : Carrier → Prop} {s : State} (h : CarriersOk p s) (c : CarrierId) : CarriersOk p (s.recomputeHeld c) :=
  h.of_carriers (by rw [recomputeHeld_only])

theorem CarriersOk.fieldSlots {p : Carrier → Prop} {s t : State} (h : CarriersOk p s) (only : OnlyFieldSlots s t) : CarriersOk p t :=
  h.of_carriers (by rw [only.eq])

theorem CarriersOk.zoneStates {p : Carrier → Prop} {s t : State} (h : CarriersOk p s) (only : OnlyZoneStates s t) : CarriersOk p t :=
  h.of_carriers (by rw [only.eq])

/-- The zone of a carrier's report that stands first is moved there, and none is lost. -/
theorem length_rearFirst (l : List HeldEntry) (rear : Option ZoneId) :
    (l.filter (fun e => some e.zone == rear) ++ l.filter (fun e => some e.zone != rear)).length = l.length :=
  List.length_append.trans (by
    rw [← List.countP_eq_length_filter, ← List.countP_eq_length_filter,
      List.length_eq_countP_add_countP (fun e : HeldEntry => some e.zone == rear)]
    exact congrArg _ (List.countP_congr fun e _ => by simp))

section
variable {p : Carrier → Prop} (K : RecordKept p)
include K

theorem RecordKept.modCarrier {s : State} (c : CarrierId) {f : Carrier → Carrier} (h : CarriersOk p s)
    (horizon : (f (s.carrier c)).horizon = (s.carrier c).horizon := by rfl)
    (age : (f (s.carrier c)).waitAge ≤ (s.carrier c).waitAge := by simp)
    (held : (f (s.carrier c)).held.length ≤ (s.carrier c).held.length := by simp) : CarriersOk p (s.modCarrier c f) :=
  h.modCarrier c (K.fewer _ _ horizon age held)

theorem RecordKept.enterState {s : State} (c : CarrierId) (x : CarrierState) (h : CarriersOk p s) : CarriersOk p (s.enterState c x) :=
  .breakWatch (K.modCarrier c (K.modCarrier (f := fun r => { r with state := x }) c h)) c

theorem RecordKept.detach {s : State} (c : CarrierId) (h : CarriersOk p s) : CarriersOk p (s.detachRoute c) :=
  K.modCarrier c (h.of_carriers (carriers_dropUserOf s _))

theorem RecordKept.moveCursorPast {s : State} (c : CarrierId) (x : HopRef) (h : CarriersOk p s) : CarriersOk p (s.moveCursorPast c x) := fun d => by
  by_cases e : d = c
  · subst e
    obtain ⟨_, _, _, moved⟩ := carrier_moveCursorPast s d x
    rw [moved]
    exact K.fewer (s.carrier d) _ rfl (Nat.le_refl _) (Nat.le_refl _) (h d)
  · rw [carrier_moveCursorPast_of_ne s x e]
    exact h d

theorem RecordKept.dequeue {s : State} (c : CarrierId) (h : CarriersOk p s) : CarriersOk p ((s.leaveQueue c).clearWait c) :=
  K.modCarrier c (h.of_carriers (carriers_leaveQueue s c))

theorem RecordKept.release : ReleaseClosed (CarriersOk p) where
  breakWatch _ h := h.of_carriers rfl
  freeToken h := h.of_carriers rfl
  takeToken _ h _ := h.of_carriers rfl
  join c w d h _ := K.enterState c _ (K.modCarrier c (K.modCarrier c (h.of_carriers (carriers_joinQueue _ c w d))))
  rejoin c w d h _ := .breakWatch (K.modCarrier c (K.modCarrier c
    (h.of_carriers ((carriers_joinQueue _ c w d).trans (carriers_leaveQueue _ c))))) c
  recordDeadlock _ h := h.of_carriers rfl
  settle c h _ := K.enterState c _ (K.dequeue c h)
  exhaustAdvancing c h _ := K.modCarrier c (K.enterState c _ (K.detach c h))
  exhaustWaiting c h _ := K.modCarrier c (K.enterState c _ (K.detach c (K.dequeue c h)))
  setCst _ _ h _ := h.of_carriers rfl
  enterHeld c e h _ _ room := .setHolder (h.modCarrier c (K.grow _ _ rfl rfl room List.length_append)) _ _
  moveCursorPast c x h _ := K.moveCursorPast c x h
  grantPending c h _ := K.modCarrier c h
  giveUp c _ h _ := .setHolder (K.modCarrier c h rfl (Nat.le_refl _) (List.length_filter_le ..)) _ _

theorem RecordKept.enrol {s : State} {c : CarrierId} {l : List HeldEntry} (few : l.length ≤ 2) (h : CarriersOk p s) :
    CarriersOk p (l.foldl (fun t e => t.admitZone c e.zone) (s.modCarrier c (fun x => x.admitted l))) := by
  have record : CarriersOk p (s.modCarrier c (fun x => x.admitted l)) := h.modCarrier c fun _ => K.fresh _ rfl rfl few
  exact record.of_carriers (by rw [(zonesAdmitted_all c l _).rest])

theorem RecordKept.part : PartClosed (CarriersOk p) where
  toReleaseClosed := K.release
  outside h k := h.of_carriers k.carriers
  touch c f h soft := h.modCarrier c (K.soft f _ soft)
  setValidator c x h _ _ := h.of_carriers rfl
  setReport c r h := .recomputeHeld (K.modCarrier c h) c
  dequeue c h _ := K.dequeue c h
  park c x h _ _ := K.modCarrier c h
  advance c h _ _ := K.modCarrier c h
  vacate c h _ _ := K.modCarrier c h
  detach c h := K.detach c h
  dropUser c r h _ := K.modCarrier c (.of_carriers (h.of_carriers (carriers_dropUserOf ..)) rfl)
  moveCursor c x h _ := K.moveCursorPast c x h
  grantOne c z h := K.modCarrier c h
  giveZone c z rear h _ _ _ _ room := .setHolder (h.modCarrier c (K.grow _ _ rfl rfl room (by cases rear <;> simp))) _ _
  rearFirst c h := K.modCarrier c h rfl (Nat.le_refl _) (Nat.le_of_eq (length_rearFirst ..))
  enrol c f r h _ := K.enrol (by split <;> exact Nat.le_of_ble_eq_true rfl) h
  layZone slot w z new h _ := h.of_carriers ((carriers_layZone ..).trans (carriers_noteTableWrite ..))
  addPair x y h _ _ _ _ _ := h.of_carriers rfl
  removePair x y h _ := h.of_carriers rfl
  setCorridor k d q h _ _ := h.of_carriers rfl
  setRoute r w x h _ _ := h.of_carriers rfl
  setHop i x h := h.of_carriers rfl
  fieldsFollow read h := (h.fieldSlots (filterInputs_only _ read)).zoneStates (fieldsFollow_only ..)
  clearReached f i h := (h.fieldSlots (t := State.setInput _ f i _) ⟨rfl⟩).zoneStates (fieldsFollow_only ..)
  setParameters a b c h _ _ _ _ _ _ := h.of_carriers rfl
  toService h _ := h.of_carriers rfl
  toSafe h _ := h.of_carriers rfl
  restart {s} x _ c := by rw [(restart_tables s x).carrier]; exact K.fresh _ rfl rfl (Nat.zero_le 2)
  powerOn {s} x _ c := by rw [(powerOn_tables s x).carrier, reset_carrier]; exact K.fresh _ rfl rfl (Nat.zero_le 2)

end

/-- R56's bound is one of the properties that every step keeps. -/
theorem heldBound_kept : RecordKept (fun r => r.held.length ≤ 12) where
  fewer _ _ _ _ shorter h := Nat.le_trans shorter h
  grow _ _ _ _ room longer _ := longer ▸ room
  soft f r soft h := by rw [soft.held]; exact h
  fresh _ _ _ few := Nat.le_trans few (by decide)

/-- So are the bounds of the horizon and the wait age (R52). -/
theorem recordRanges_kept : RecordKept (fun r => (1 ≤ r.horizon ∧ r.horizon ≤ 8) ∧ r.waitAge ≤ 65535) where
  fewer r x horizon age _ h := ⟨horizon ▸ h.1, Nat.le_trans age h.2⟩
  grow r x horizon age _ _ h := ⟨horizon ▸ h.1, age ▸ h.2⟩
  soft f r soft h := ⟨soft.horizon r h.1, soft.waitAge r h.2⟩
  fresh x horizon age _ := ⟨by rw [horizon]; decide, by rw [age]; exact Nat.zero_le _⟩

/-! ## The other tables -/

/-- A property that the engine's frame keeps is kept by each change of the engine. -/
theorem ReleaseClosed.of_frame {P : State → Prop} (H : ∀ {s t}, P s → EngineFrame s t → P t) : ReleaseClosed P where
  breakWatch c h := H h (.breakWatch ..)
  freeToken h := H h (.setToken ..)
  takeToken c h _ := H h (.setToken ..)
  join {s} c w d h a := H h ((EngineFrame.closed s).join c w d (.refl s) a)
  rejoin {s} c w d h a := H h ((EngineFrame.closed s).rejoin c w d (.refl s) a)
  recordDeadlock d h := H h (.recordDeadlock ..)
  settle {s} c h a := H h ((EngineFrame.closed s).settle c (.refl s) a)
  exhaustAdvancing {s} c h a := H h ((EngineFrame.closed s).exhaustAdvancing c (.refl s) a)
  exhaustWaiting {s} c h a := H h ((EngineFrame.closed s).exhaustWaiting c (.refl s) a)
  setCst k x h _ := H h (.setCst ..)
  enterHeld c e h _ _ _ := H h (.enterHeld ..)
  moveCursorPast c x h _ := H h (.moveCursorPast ..)
  grantPending {s} c h a := H h ((EngineFrame.closed s).grantPending c (.refl s) a)
  giveUp {s} c z h holds := H h ((EngineFrame.closed s).giveUp c z (.refl s) holds)

/-- The ranges of the counts that do not stand in the carriers' records: R19, R36, R111, R122, R150 and R164. -/
structure TablesInRange (s : State) : Prop where
  quota : ∀ k, 1 ≤ (s.corridor k).quota ∧ (s.corridor k).quota ≤ 15
  hops : ∀ r, 2 ≤ (s.route r).hopCount ∧ (s.route r).hopCount ≤ 256 ∧ (s.route r).firstHop.val + (s.route r).hopCount ≤ 2048
  instability : ∀ c, (s.validator c).instability ≤ 8
  silence : ∀ c, (s.validator c).silence ≤ 255
  run : ∀ f i, (s.input f i).run ≤ 255
  floorRuns : s.floorPort.badRun ≤ 3 ∧ s.floorPort.goodRun ≤ 2
  dispatchRuns : s.dispatchPort.badRun ≤ 3 ∧ s.dispatchPort.goodRun ≤ 2
  silenceLimit : 4 ≤ s.silenceLimit ∧ s.silenceLimit ≤ 255
  clearPersistence : 1 ≤ s.clearPersistence ∧ s.clearPersistence ≤ 255
  starvationLimit : 40 ≤ s.starvationLimit ∧ s.starvationLimit ≤ 2000

theorem rangesOk_iff (s : State) :
    RangesOk s ↔ CarriersOk (fun r => (1 ≤ r.horizon ∧ r.horizon ≤ 8) ∧ r.waitAge ≤ 65535) s ∧ TablesInRange s :=
  ⟨fun h => ⟨fun c => ⟨h.horizon c, h.waitAge c⟩, { h with }⟩,
    fun ⟨h, k⟩ => { k with horizon := fun c => (h c).1, waitAge := fun c => (h c).2 }⟩

/-- The hop range of a route does not depend on its users. -/
theorem hopRange_of_users {x y : RouteRecord} (h : ({ x with users := 0 } : RouteRecord) = { y with users := 0 }) :
    x.hopCount = y.hopCount ∧ x.firstHop = y.firstHop := by
  injection h
  exact ⟨by assumption, by assumption⟩

theorem TablesInRange.framed {s t : State} (h : TablesInRange s) (f : EngineFrame s t) : TablesInRange t where
  quota k := by unfold State.corridor; rw [f.corridors]; exact h.quota k
  hops r := by
    obtain ⟨count, first⟩ := hopRange_of_users (f.routes r)
    rw [count, first]
    exact h.hops r
  instability c := by unfold State.validator; rw [f.validators]; exact h.instability c
  silence c := by unfold State.validator; rw [f.validators]; exact h.silence c
  run x i := by rw [input_of_inputs (f.inputs x)]; exact h.run x i
  floorRuns := by rw [f.floorPort]; exact h.floorRuns
  dispatchRuns := by rw [f.dispatchPort]; exact h.dispatchRuns
  silenceLimit := by rw [f.silenceLimit]; exact h.silenceLimit
  clearPersistence := by rw [f.clearPersistence]; exact h.clearPersistence
  starvationLimit := by rw [f.starvationLimit]; exact h.starvationLimit

theorem TablesInRange.modCarrier {s : State} (h : TablesInRange s) (c : CarrierId) (f : Carrier → Carrier) : TablesInRange (s.modCarrier c f) :=
  { h with }

theorem TablesInRange.setHolder {s : State} (h : TablesInRange s) (z : ZoneId) (x : Option CarrierId) : TablesInRange (s.setHolder z x) :=
  h.framed (.setHolder ..)

theorem TablesInRange.recomputeHeld {s : State} (h : TablesInRange s) (c : CarrierId) : TablesInRange (s.recomputeHeld c) := by
  have only := recomputeHeld_only s c
  have inputs := inputs_recomputeHeld s c
  generalize s.recomputeHeld c = t at only inputs ⊢
  have run : ∀ f i, (t.input f i).run ≤ 255 := fun f i => by rw [input_of_inputs (inputs f) i]; exact h.run f i
  rw [only] at run ⊢
  exact { h with run := run }

theorem TablesInRange.fieldSlots {s t : State} (h : TablesInRange s) (only : OnlyFieldSlots s t) (run : ∀ f i, (t.input f i).run ≤ 255) :
    TablesInRange t := by
  rw [only.eq] at run ⊢
  exact { h with run := run }

theorem TablesInRange.zoneStates {s t : State} (h : TablesInRange s) (only : OnlyZoneStates s t) : TablesInRange t := by
  rw [only.eq]
  exact { h with }

/-- A run is counted up to 255 (R122). -/
theorem run_take (x : Input) (persistence : Nat) (clear : Bool) : (x.take persistence clear).run ≤ 255 := by
  unfold Input.take
  split
  · exact Nat.min_le_right _ _
  · exact Nat.zero_le _

theorem TablesInRange.enrol {s : State} (h : TablesInRange s) (c : CarrierId) (l : List HeldEntry) :
    TablesInRange (l.foldl (fun t e => t.admitZone c e.zone) (s.modCarrier c (fun x => x.admitted l))) := by
  have admitted := zonesAdmitted_all c l (s.modCarrier c (fun x => x.admitted l))
  have record : TablesInRange (s.modCarrier c (fun x => x.admitted l)) := { h with }
  generalize s.modCarrier c (fun x => x.admitted l) = u at admitted record ⊢
  generalize l.foldl (fun t e => t.admitZone c e.zone) u = t at admitted ⊢
  have run : ∀ f i, (t.input f i).run ≤ 255 := fun f i => by rw [input_of_inputs (admitted.inputs f)]; exact record.run f i
  rw [admitted.rest] at run ⊢
  exact { record with run := run }

theorem TablesInRange.layZone {s : State} (h : TablesInRange s) (slot : MgmtSlot) (z : ZoneId) (new : ZoneRecord) :
    TablesInRange ((s.noteTableWrite slot).layZone z new) := by
  have noted : TablesInRange (s.noteTableWrite slot) := by
    obtain ⟨_, _, e⟩ := noteTableWrite_only s slot
    rw [e]
    exact { h with }
  generalize s.noteTableWrite slot = u at noted ⊢
  have run : ∀ f i, ((u.layZone z new).input f i).run ≤ 255 := fun f i => by
    obtain ⟨named, other⟩ := input_layZone u z new f i
    by_cases k : namesInput (u.zone z).fieldBinding f i ∨ namesInput new.fieldBinding f i
    · rw [named k]
      unfold State.followedInput
      split
      · exact noted.run f i
      · exact Nat.zero_le _
    · rw [other (fun n => k (.inl n)) (fun n => k (.inr n))]
      exact noted.run f i
  have only := layZone_only u z new
  generalize u.layZone z new = t at run only ⊢
  rw [only] at run ⊢
  exact { noted with run := run }

/-- What a Write Route may write lies in the hop table (R36). -/
theorem hops_of_routeWriteRecord {w : RouteWrite} {n : Nat} {x : RouteRecord} (h : routeWriteRecord w n = some x) :
    2 ≤ x.hopCount ∧ x.hopCount ≤ 256 ∧ x.firstHop.val + x.hopCount ≤ 2048 := by
  unfold routeWriteRecord at h
  dsimp only at h
  split at h
  · split at h
    · cases h
    · next d f e _ _ _ inside =>
      have range : 2 ≤ w.hopCount.toNat ∧ w.hopCount.toNat ≤ 256 ∧ f.val + w.hopCount.toNat ≤ 2048 := by omega
      split at h <;> cases h <;> exact range
  · cases h

theorem TablesInRange.restart {s : State} (h : TablesInRange s) (cause : ResetCause) : TablesInRange (s.restart cause) := by
  have tables := restart_tables s cause
  have fields := restart_fields s cause
  generalize s.restart cause = t at tables fields ⊢
  exact {
    quota := fun k => by unfold State.corridor; rw [tables.corridors]; exact h.quota k
    hops := fun r => by rw [tables.route]; exact h.hops r
    instability := fun c => by rw [tables.validator]; exact Nat.zero_le _
    silence := fun c => by rw [tables.validator]; exact Nat.zero_le _
    run := fun f i => by rw [tables.input]; exact Nat.zero_le _
    floorRuns := by rw [fields.floorPort]; decide
    dispatchRuns := by rw [fields.dispatchPort]; decide
    silenceLimit := by rw [fields.silenceLimit]; exact h.silenceLimit
    clearPersistence := by rw [fields.clearPersistence]; exact h.clearPersistence
    starvationLimit := by rw [fields.starvationLimit]; exact h.starvationLimit }

/-- The tables after a power-on reset are in range (R164). -/
theorem tablesInRange_reset {t : State} (tables : TablesOf State.reset t) (floor : t.floorPort = .cleared) (dispatch : t.dispatchPort = .cleared)
    (silence : t.silenceLimit = 40) (persistence : t.clearPersistence = 10) (starvation : t.starvationLimit = 400) : TablesInRange t where
  quota k := by rw [tables.corridor, reset_corridor]; decide
  hops r := by rw [tables.route, reset_route]; decide
  instability c := by rw [tables.validator, reset_validator]; exact Nat.zero_le _
  silence c := by rw [tables.validator, reset_validator]; exact Nat.zero_le _
  run f i := by unfold State.input; rw [tables.fieldSlot]; exact (reset_input f i ▸ Nat.zero_le _ : (State.reset.input f i).run ≤ 255)
  floorRuns := by rw [floor]; decide
  dispatchRuns := by rw [dispatch]; decide
  silenceLimit := by rw [silence]; decide
  clearPersistence := by rw [persistence]; decide
  starvationLimit := by rw [starvation]; decide

theorem TablesInRange.setValidator {s : State} (h : TablesInRange s) (c : CarrierId) (x : ValidatorSlot)
    (stable : x.instability ≤ 8 ∨ x.instability ≤ (s.validator c).instability)
    (heard : x.silence ≤ s.silenceLimit ∨ x.silence ≤ (s.validator c).silence) : TablesInRange (s.setValidator c x) := by
  have instability : ∀ d, ((s.setValidator c x).validator d).instability ≤ 8 := fun d => by
    rw [validator_setValidator]
    split
    · exact stable.elim id fun k => Nat.le_trans k (h.instability c)
    · exact h.instability d
  have silence : ∀ d, ((s.setValidator c x).validator d).silence ≤ 255 := fun d => by
    rw [validator_setValidator]
    split
    · exact heard.elim (fun k => Nat.le_trans k h.silenceLimit.2) fun k => Nat.le_trans k (h.silence c)
    · exact h.silence d
  exact { h with instability, silence }

theorem TablesInRange.setCorridor {s : State} (h : TablesInRange s) (k : CorridorId) (d : Bool) {q : Nat} (low : 1 ≤ q) (high : q ≤ 15) :
    TablesInRange ((s.setCorridor k ⟨d, q⟩).setCst k ((s.cst k).requota q)) := by
  have quota : ∀ l, 1 ≤ ((s.setCorridor k ⟨d, q⟩).corridor l).quota ∧ ((s.setCorridor k ⟨d, q⟩).corridor l).quota ≤ 15 := fun l => by
    rw [corridor_setCorridor]
    split
    · exact ⟨low, high⟩
    · exact h.quota l
  exact { h with quota }

theorem TablesInRange.setRoute {s : State} (h : TablesInRange s) (r : RouteId) {x : RouteRecord}
    (range : 2 ≤ x.hopCount ∧ x.hopCount ≤ 256 ∧ x.firstHop.val + x.hopCount ≤ 2048) : TablesInRange (s.setRoute r x) := by
  have hops : ∀ q, 2 ≤ ((s.setRoute r x).route q).hopCount ∧ ((s.setRoute r x).route q).hopCount ≤ 256 ∧
      ((s.setRoute r x).route q).firstHop.val + ((s.setRoute r x).route q).hopCount ≤ 2048 := fun q => by
    rw [route_setRoute]
    split
    · exact range
    · exact h.hops q
  exact { h with hops }

theorem TablesInRange.part : PartClosed TablesInRange where
  toReleaseClosed := .of_frame fun h f => h.framed f
  outside {s t} h k := {
    quota := fun x => by unfold State.corridor; rw [k.corridors]; exact h.quota x
    hops := fun r => by unfold State.route; rw [k.routes]; exact h.hops r
    instability := fun c => by unfold State.validator; rw [k.validators]; exact h.instability c
    silence := fun c => by unfold State.validator; rw [k.validators]; exact h.silence c
    run := fun f i => by unfold State.input State.fieldSlot; rw [k.fieldSlots]; exact h.run f i
    floorRuns := k.floorPort h.floorRuns
    dispatchRuns := k.dispatchPort h.dispatchRuns
    silenceLimit := by rw [k.silenceLimit]; exact h.silenceLimit
    clearPersistence := by rw [k.clearPersistence]; exact h.clearPersistence
    starvationLimit := by rw [k.starvationLimit]; exact h.starvationLimit }
  touch c f h _ := { h with }
  setValidator c x h stable heard := h.setValidator c x stable heard
  setReport c r h := .recomputeHeld (h.modCarrier c _) c
  dequeue {s} c h _ := h.framed ((EngineFrame.leaveQueue s c).trans (.clearWait ..))
  park c x h _ _ := { h with }
  advance c h _ _ := { h with }
  vacate c h _ _ := { h with }
  detach c h := h.framed (.detachRoute ..)
  dropUser {s} c r h _ :=
    { h.framed (t := (s.dropUserOf (s.carrier c).route).addUser r) ((EngineFrame.dropUserOf ..).trans (.addUser ..)) with }
  moveCursor c x h _ := h.framed (.moveCursorPast ..)
  grantOne c z h := { h with }
  giveZone c z _ h _ _ _ _ _ := .setHolder (h.modCarrier c _) z (some c)
  rearFirst c h := { h with }
  enrol c f r h _ := h.enrol c _
  layZone slot w z new h _ := h.layZone slot z new
  addPair x y h _ _ _ _ _ := { h with }
  removePair x y h _ := { h with }
  setCorridor k d q h low high := h.setCorridor k d low high
  setRoute r w x h _ written := h.setRoute r (hops_of_routeWriteRecord written)
  setHop i x h := { h with }
  fieldsFollow read h := (h.fieldSlots (filterInputs_only _ read) fun f i => by rw [input_filterInputs]; exact run_take ..).zoneStates
    (fieldsFollow_only ..)
  clearReached {s} f i h := (h.fieldSlots (t := s.setInput f i _) ⟨rfl⟩ fun g j => by
    rw [input_setInput]
    split
    · exact run_take ..
    · exact h.run g j).zoneStates (fieldsFollow_only ..)
  setParameters a b c h a4 a255 b1 b255 c40 c2000 :=
    { h with silenceLimit := ⟨a4, a255⟩, clearPersistence := ⟨b1, b255⟩, starvationLimit := ⟨c40, c2000⟩ }
  toService h _ := { h with }
  toSafe h _ := { h with }
  restart x h := h.restart x
  powerOn {s} x _ := tablesInRange_reset (powerOn_tables s x) rfl rfl rfl rfl rfl

/-! ## The corridors (R22, R23) -/

/-- The corridors, where the quotas are in range. -/
structure QuotasOk (s : State) : Prop where
  quota : ∀ k, 1 ≤ (s.corridor k).quota ∧ (s.corridor k).quota ≤ 15
  corridors : CorridorsOk s

/-- A wait queue is not among what R22 and R23 say of a corridor. -/
theorem CorridorOk.queue {n : Nat} {x : CorridorState} (h : CorridorOk n x) (q : List CorridorWaiter) : CorridorOk n { x with queue := q } :=
  { h with }

/-- The corridors stand where their records stay, and their states but for the queues. -/
theorem QuotasOk.same {s t : State} (h : QuotasOk s) (records : t.corridors = s.corridors) (cst : ∀ k, ∃ q, t.cst k = { s.cst k with queue := q }) :
    QuotasOk t := by
  have corridor : ∀ k, t.corridor k = s.corridor k := fun k => by unfold State.corridor; rw [records]
  refine ⟨fun k => by rw [corridor]; exact h.quota k, fun k => ?_⟩
  obtain ⟨q, e⟩ := cst k
  rw [corridor, e]
  exact (h.corridors k).queue q

theorem QuotasOk.of_tables {s t : State} (h : QuotasOk s) (records : t.corridors = s.corridors) (states : t.corridorStates = s.corridorStates) :
    QuotasOk t := h.same records fun k => ⟨(s.cst k).queue, by unfold State.cst; rw [states]⟩

/-- A corridor's state changes as the engine changes it. -/
theorem QuotasOk.step {s t : State} (h : QuotasOk s) (records : t.corridors = s.corridors)
    (cst : ∀ k, t.cst k = s.cst k ∨ CorridorStep (s.corridor k).quota (s.cst k) (t.cst k)) : QuotasOk t := by
  have corridor : ∀ k, t.corridor k = s.corridor k := fun k => by unfold State.corridor; rw [records]
  refine ⟨fun k => by rw [corridor]; exact h.quota k, fun k => ?_⟩
  rw [corridor]
  rcases cst k with e | e
  · rw [e]; exact h.corridors k
  · exact (h.corridors k).step (h.quota k).1 (h.quota k).2 e

theorem QuotasOk.modCarrier {s : State} (h : QuotasOk s) (c : CarrierId) (f : Carrier → Carrier) : QuotasOk (s.modCarrier c f) := h.of_tables rfl rfl

theorem QuotasOk.breakWatch {s : State} (h : QuotasOk s) (c : CarrierId) : QuotasOk (s.breakWatch c) := h.of_tables rfl rfl

theorem QuotasOk.enterState {s : State} (h : QuotasOk s) (c : CarrierId) (x : CarrierState) : QuotasOk (s.enterState c x) := h.of_tables rfl rfl

theorem QuotasOk.leaveQueue {s : State} (h : QuotasOk s) (c : CarrierId) : QuotasOk (s.leaveQueue c) :=
  h.same (by rw [leaveQueue_only]) fun k => ⟨_, cst_leaveQueue s c k⟩

theorem cst_joinQueue (s : State) (c : CarrierId) (w : Wait) (d : Direction) (k : CorridorId) :
    ∃ q, (s.joinQueue c w d).cst k = { s.cst k with queue := q } := by
  unfold State.joinQueue
  split
  · exact ⟨_, rfl⟩
  · exact ⟨_, rfl⟩
  · exact ⟨_, rfl⟩
  · unfold State.recomputeOutput; rw [recomputeBinding_only]; exact ⟨_, rfl⟩
  · next j =>
    by_cases e : k = j
    · subst e; exact ⟨_, cst_setCst_self ..⟩
    · exact ⟨(s.cst k).queue, (cst_setCst ..).trans (if_neg e)⟩
  · exact ⟨_, rfl⟩

theorem QuotasOk.joinQueue {s : State} (h : QuotasOk s) (c : CarrierId) (w : Wait) (d : Direction) : QuotasOk (s.joinQueue c w d) :=
  h.same (EngineFrame.joinQueue s c w d).corridors (cst_joinQueue s c w d)

theorem QuotasOk.setHolder {s : State} (h : QuotasOk s) (z : ZoneId) (x : Option CarrierId) : QuotasOk (s.setHolder z x) :=
  h.of_tables (by rw [setHolder_only]) (by rw [setHolder_only])

theorem QuotasOk.dropUserOf {s : State} (h : QuotasOk s) (r : Option RouteId) : QuotasOk (s.dropUserOf r) :=
  h.of_tables (by rw [dropUserOf_only]) (by rw [dropUserOf_only])

theorem QuotasOk.detach {s : State} (h : QuotasOk s) (c : CarrierId) : QuotasOk (s.detachRoute c) := .modCarrier (h.dropUserOf _) c _

theorem QuotasOk.moveCursorPast {s : State} (h : QuotasOk s) (c : CarrierId) (x : HopRef) : QuotasOk (s.moveCursorPast c x) :=
  h.of_tables (by rw [moveCursorPast_only]) (by rw [moveCursorPast_only])

theorem QuotasOk.recomputeHeld {s : State} (h : QuotasOk s) (c : CarrierId) : QuotasOk (s.recomputeHeld c) :=
  h.of_tables (by rw [recomputeHeld_only]) (by rw [recomputeHeld_only])

theorem QuotasOk.fieldSlots {s t : State} (h : QuotasOk s) (only : OnlyFieldSlots s t) : QuotasOk t :=
  h.of_tables (by rw [only.eq]) (by rw [only.eq])

theorem QuotasOk.zoneStates {s t : State} (h : QuotasOk s) (only : OnlyZoneStates s t) : QuotasOk t :=
  h.of_tables (by rw [only.eq]) (by rw [only.eq])

theorem QuotasOk.release : ReleaseClosed QuotasOk where
  breakWatch c h := h.breakWatch c
  freeToken h := h.of_tables rfl rfl
  takeToken _ h _ := h.of_tables rfl rfl
  join c w d h _ := .enterState (.modCarrier (.modCarrier (h.joinQueue c w d) c _) c _) c _
  rejoin c w d h _ := .breakWatch (.modCarrier (.modCarrier ((h.leaveQueue c).joinQueue c w d) c _) c _) c
  recordDeadlock _ h := h.of_tables rfl rfl
  settle c h _ := .enterState (.modCarrier (h.leaveQueue c) c _) c _
  exhaustAdvancing c h _ := .modCarrier ((h.detach c).enterState c _) c _
  exhaustWaiting c h _ := .modCarrier (.enterState (.detach (.modCarrier (h.leaveQueue c) c _) c) c _) c _
  setCst {s} k x h changed := h.step rfl fun l => by
    rw [cst_setCst]
    split
    · next e => subst e; exact .inr changed
    · exact .inl rfl
  enterHeld c e h _ _ _ := .setHolder (.modCarrier h c _) _ _
  moveCursorPast c x h _ := h.moveCursorPast c x
  grantPending c h _ := h.modCarrier c _
  giveUp c z h _ := .setHolder (.modCarrier h c _) _ _

theorem QuotasOk.enrol {s : State} (h : QuotasOk s) (c : CarrierId) (l : List HeldEntry) :
    QuotasOk (l.foldl (fun t e => t.admitZone c e.zone) (s.modCarrier c (fun x => x.admitted l))) := by
  have admitted := zonesAdmitted_all c l (s.modCarrier c (fun x => x.admitted l))
  have record : QuotasOk (s.modCarrier c (fun x => x.admitted l)) := h.modCarrier c _
  generalize s.modCarrier c (fun x => x.admitted l) = u at admitted record ⊢
  generalize l.foldl (fun t e => t.admitZone c e.zone) u = t at admitted ⊢
  refine record.step (by rw [admitted.rest]) fun k => ?_
  rw [admitted.corridor]
  split
  · exact .inr (.join c)
  · exact .inl rfl

theorem QuotasOk.setCorridor {s : State} (h : QuotasOk s) (k : CorridorId) (d : Bool) {q : Nat} (low : 1 ≤ q) (high : q ≤ 15) :
    QuotasOk ((s.setCorridor k ⟨d, q⟩).setCst k ((s.cst k).requota q)) := by
  have record : ∀ l, ((s.setCorridor k ⟨d, q⟩).setCst k ((s.cst k).requota q)).corridor l = if l = k then ⟨d, q⟩ else s.corridor l :=
    fun l => corridor_setCorridor s k l ⟨d, q⟩
  refine ⟨fun l => ?_, fun l => ?_⟩
  · rw [record]
    split
    · exact ⟨low, high⟩
    · exact h.quota l
  · rw [record, cst_setCst]
    split
    · next e => subst e; exact (h.corridors l).requota low
    · exact h.corridors l

theorem QuotasOk.layZone {s : State} (h : QuotasOk s) (slot : MgmtSlot) (z : ZoneId) (new : ZoneRecord) :
    QuotasOk ((s.noteTableWrite slot).layZone z new) := by
  have noted : QuotasOk (s.noteTableWrite slot) := by
    obtain ⟨_, _, e⟩ := noteTableWrite_only s slot
    rw [e]
    exact h.of_tables rfl rfl
  exact noted.of_tables (by rw [layZone_only]) (by rw [layZone_only])

/-- A corridor with no occupants is FREE and right on every quota. -/
theorem corridorOk_cleared {q : Nat} (low : 1 ≤ q) : CorridorOk q .cleared where
  once := .nil
  directed _ m := nomatch m
  kept h := absurd rfl h
  free := by decide
  draining := nofun
  unopposed _ := rfl
  opposed _ := low
  count := Nat.zero_le 15

theorem QuotasOk.part : PartClosed QuotasOk where
  toReleaseClosed := QuotasOk.release
  outside h k := h.of_tables k.corridors k.corridorStates
  touch c f h _ := h.modCarrier c _
  setValidator c x h _ _ := h.of_tables rfl rfl
  setReport c r h := .recomputeHeld (.modCarrier h c _) c
  dequeue c h _ := .modCarrier (h.leaveQueue c) c _
  park c x h _ _ := h.modCarrier c _
  advance c h _ _ := h.modCarrier c _
  vacate c h _ _ := h.modCarrier c _
  detach c h := h.detach c
  dropUser c r h _ := .modCarrier ((h.dropUserOf _).of_tables (t := State.addUser _ r) rfl rfl) c _
  moveCursor c x h _ := h.moveCursorPast c x
  grantOne c z h := h.modCarrier c _
  giveZone c z _ h _ _ _ _ _ := .setHolder (.modCarrier h c _) _ _
  rearFirst c h := h.modCarrier c _
  enrol c f r h _ := h.enrol c _
  layZone slot w z new h _ := h.layZone slot z new
  addPair x y h _ _ _ _ _ := h.of_tables rfl rfl
  removePair x y h _ := h.of_tables rfl rfl
  setCorridor k d q h low high := h.setCorridor k d low high
  setRoute r w x h _ _ := h.of_tables rfl rfl
  setHop i x h := h.of_tables rfl rfl
  fieldsFollow read h := (h.fieldSlots (filterInputs_only _ read)).zoneStates (fieldsFollow_only ..)
  clearReached f i h := (h.fieldSlots (t := State.setInput _ f i _) ⟨rfl⟩).zoneStates (fieldsFollow_only ..)
  setParameters a b c h _ _ _ _ _ _ := h.of_tables rfl rfl
  toService h _ := h.of_tables rfl rfl
  toSafe h _ := h.of_tables rfl rfl
  restart {s} x h := by
    have tables := restart_tables s x
    have corridor : ∀ k, (s.restart x).corridor k = s.corridor k := fun k => by unfold State.corridor; rw [tables.corridors]
    exact ⟨fun k => by rw [corridor]; exact h.quota k, fun k => by rw [corridor, tables.cst]; exact corridorOk_cleared (h.quota k).1⟩
  powerOn {s} x _ := by
    have tables := powerOn_tables s x
    exact ⟨fun k => by rw [tables.corridor, reset_corridor]; decide,
      fun k => by rw [tables.corridor, tables.cst, reset_corridor, reset_cst]; exact corridorOk_cleared (by decide)⟩

/-- Settles O58: the ranges of the carrier records and those of the other tables are kept apart, the corridors with their quotas. -/
theorem everyStepKeepsRangesOk : Obligations.EveryStepKeepsRangesOk := by
  refine ⟨fun s t h e => ?_, fun s t ranges h e => ?_, fun s t h e => heldBound_kept.part.step h e⟩
  · obtain ⟨records, tables⟩ := (rangesOk_iff s).1 h
    exact (rangesOk_iff t).2 ⟨recordRanges_kept.part.step records e, TablesInRange.part.step tables e⟩
  · have before : QuotasOk s := ⟨ranges.quota, h⟩
    exact (QuotasOk.part.step before e).corridors

end Sys2Proof.Machine
end

section
/-! SUPPORT. The wait queues and claims through every step. Inside an operation a carrier can be set aside: it stands in no queue, and its state and its PENDING entries are not yet what the others' are (R8, R32, R80, R90, R91, R134). -/

namespace Sys2Proof.Machine

/-! ## Waits and claims but for some carriers -/

/-- The queues in order and each carrier in the queue its wait names; the carriers but for some are WAITING while they have a wait, and FAULTED without PENDING entries; those set aside have no wait. -/
structure WaitsBut (aside : CarrierId → Prop) (s : State) : Prop where
  queues : QueuesOk s
  stands : ∀ c w, s.standsFor c w ↔ (s.carrier c).wait = w ∧ w ≠ .none
  waiting : ∀ c, ¬aside c → ((s.carrier c).state = .waiting ↔ (s.carrier c).wait ≠ .none)
  still : ∀ c, aside c → (s.carrier c).wait = .none
  token : ∀ c, s.hasPending c = true → s.pinToken = some c
  faulted : ∀ c, ¬aside c → (s.carrier c).state = .faulted → s.hasPending c = false

/-- No carrier set aside. -/
abbrev nobody : CarrierId → Prop := fun _ => False

/-- One carrier more set aside. -/
abbrev plus (X : CarrierId → Prop) (c : CarrierId) : CarrierId → Prop := fun d => X d ∨ d = c

theorem plus_of_ne {X : CarrierId → Prop} {c d : CarrierId} (e : d ≠ c) : plus X c d ↔ X d := or_iff_left e

theorem plus_self {X : CarrierId → Prop} {c : CarrierId} : plus X c c := .inr rfl

theorem waitsBut_nobody (s : State) : WaitsBut nobody s ↔ WaitsOk s ∧ ClaimsOk s :=
  ⟨fun h => ⟨⟨h.queues.zones, h.queues.corridors, h.queues.hold, h.stands, fun c => h.waiting c id⟩, h.token, fun c => h.faulted c id⟩,
    fun ⟨w, k⟩ => ⟨⟨w.zones, w.corridors, w.hold⟩, w.stands, fun c _ => w.waiting c, nofun, k.token, fun c _ => k.faulted c⟩⟩

section
variable {X Y : CarrierId → Prop} {s t : State} {c : CarrierId}

/-- A carrier without a wait stands in no queue. -/
theorem WaitsBut.in_none (h : WaitsBut X s) (still : (s.carrier c).wait = .none) (w : Wait) : ¬s.standsFor c w := fun k =>
  ((h.stands c w).1 k).2 (((h.stands c w).1 k).1.symm.trans still)

/-- The carriers that stand in queues are not set aside. -/
theorem WaitsBut.queuedAre (h : WaitsBut X s) : s.queuedAre (fun d => ¬X d) := by
  have free : ∀ {d w}, s.standsFor d w → ¬X d := fun k x => h.in_none (h.still _ x) _ k
  refine ⟨fun z w m => ?_, fun k w m => free (w := .corridor k) ⟨w, m, rfl⟩, fun w m => free (w := .hold) ⟨w, m, rfl⟩⟩
  cases e : w.cause with
  | zone => exact free (w := .zone z) ⟨w, m, rfl, e⟩
  | conflict => exact free (w := .conflict z) ⟨w, m, rfl, e⟩
  | field => exact free (w := .field z) ⟨w, m, rfl, e⟩

/-- What leaves the queues leaves who stands in them, where one carrier's record changes beside its wait; it is set aside, or its state goes with its wait. -/
theorem WaitsBut.recast (h : WaitsBut X s) (tickets : t.tickets = s.tickets) (zones : ∀ z, (t.zst z).queue = (s.zst z).queue)
    (corridors : ∀ k, (t.cst k).queue = (s.cst k).queue) (hold : t.holdWait = s.holdWait) (pin : t.pinToken = s.pinToken)
    (others : ∀ d, d ≠ c → t.carrier d = s.carrier d) (wait : (t.carrier c).wait = (s.carrier c).wait)
    (kept : ∀ d, d ≠ c → (Y d ↔ X d)) (waiting : ¬Y c → ((t.carrier c).state = .waiting ↔ (t.carrier c).wait ≠ .none))
    (still : Y c → (t.carrier c).wait = .none) (token : t.hasPending c = true → s.pinToken = some c)
    (faulted : ¬Y c → (t.carrier c).state = .faulted → t.hasPending c = false) : WaitsBut Y t where
  queues := ⟨fun z => by rw [zones, tickets]; exact h.queues.zones z, fun k => by rw [corridors, tickets]; exact h.queues.corridors k,
    by rw [hold, tickets]; exact h.queues.hold⟩
  stands d w := by
    rw [standsFor_congr zones corridors hold, h.stands]
    by_cases e : d = c
    · rw [e, wait]
    · rw [others d e]
  waiting d n := by
    by_cases e : d = c
    · subst e; exact waiting n
    · rw [others d e]; exact h.waiting d fun x => n ((kept d e).2 x)
  still d y := by
    by_cases e : d = c
    · subst e; exact still y
    · rw [others d e]; exact h.still d ((kept d e).1 y)
  token d p := by
    rw [pin]
    by_cases e : d = c
    · subst e; exact token p
    · exact h.token d (by rwa [hasPending_congr (others d e)] at p)
  faulted d n := by
    by_cases e : d = c
    · subst e; exact faulted n
    · rw [others d e, hasPending_congr (others d e)]
      exact h.faulted d fun x => n ((kept d e).2 x)

/-- What leaves the waits leaves the waits and claims. -/
theorem WaitsBut.kept (h : WaitsBut X s) (k : WaitKept c s t) : WaitsBut X t := by
  refine h.recast (c := c) k.tickets k.zones k.corridors k.hold k.token k.others k.wait (fun _ _ => Iff.rfl) (fun n => ?_) (fun x => ?_) (fun p => ?_)
    fun n f => ?_
  · rw [k.state, k.wait]; exact h.waiting c n
  · rw [k.wait]; exact h.still c x
  · rcases k.pending p with q | q
    · exact h.token c q
    · exact q.1
  · refine Bool.eq_false_iff.2 fun p => ?_
    rcases k.pending (by simpa using p) with q | q
    · rw [h.faulted c n (k.state ▸ f)] at q; cases q
    · exact q.2 (k.state ▸ f)

/-- States with the same queues, tickets, token and carriers. -/
theorem WaitsBut.same (h : WaitsBut X s) (zones : ∀ z, (t.zst z).queue = (s.zst z).queue) (corridors : ∀ k, (t.cst k).queue = (s.cst k).queue)
    (hold : t.holdWait = s.holdWait) (tickets : t.tickets = s.tickets) (pin : t.pinToken = s.pinToken) (carriers : t.carriers = s.carriers) :
    WaitsBut X t := h.kept (c := 0) (.same 0 zones corridors hold tickets pin carriers)

theorem WaitsBut.of_tables (h : WaitsBut X s) (zones : t.zoneStates = s.zoneStates) (corridors : t.corridorStates = s.corridorStates)
    (hold : t.holdWait = s.holdWait) (tickets : t.tickets = s.tickets) (pin : t.pinToken = s.pinToken) (carriers : t.carriers = s.carriers) :
    WaitsBut X t :=
  h.same (fun z => by unfold State.zst; rw [zones]) (fun k => by unfold State.cst; rw [corridors]) hold tickets pin carriers

/-- A change of one carrier's record beside its state, its wait and its held list. -/
theorem WaitsBut.beside (h : WaitsBut X s) (c : CarrierId) {f : Carrier → Carrier}
    (state : (f (s.carrier c)).state = (s.carrier c).state := by rfl) (wait : (f (s.carrier c)).wait = (s.carrier c).wait := by rfl)
    (held : (f (s.carrier c)).held = (s.carrier c).held := by rfl) : WaitsBut X (s.modCarrier c f) :=
  h.kept (.modCarrier c s f state wait fun _ m _ => held ▸ m)

theorem WaitsBut.breakWatch (h : WaitsBut X s) (c : CarrierId) : WaitsBut X (s.breakWatch c) := h.kept (.breakWatch c c s)

/-! ## Carriers set aside and brought back -/

/-- A carrier that leaves its queue is set aside (R55). -/
theorem WaitsBut.left (h : WaitsBut X s) (c : CarrierId) : WaitsBut (plus X c) ((s.leaveQueue c).clearWait c) := by
  have d := dequeued s c
  have queues : QueuesOk ((s.leaveQueue c).clearWait c) := queuesOk_of (queues_leaveQueue c h.queues) rfl rfl rfl rfl
  have standing : ∀ d w, ((s.leaveQueue c).clearWait c).standsFor d w ↔ s.standsFor d w ∧ d ≠ c := fun d w =>
    (stands_of rfl rfl rfl d w).trans (stands_leaveQueue (fun w k => ((h.stands c w).1 k).1) d w)
  have pin : ((s.leaveQueue c).clearWait c).pinToken = s.pinToken := token_leaveQueue s c
  generalize (s.leaveQueue c).clearWait c = t at d queues standing pin ⊢
  have pending : ∀ x, t.hasPending x = s.hasPending x := fun x => by
    unfold State.hasPending
    by_cases e : x = c
    · rw [e, d.carrier]
    · rw [d.others x e]
  refine ⟨queues, fun x w => ?_, fun x n => ?_, fun x y => ?_, fun x p => ?_, fun x n f => ?_⟩
  · rw [standing, h.stands]
    by_cases e : x = c
    · subst e
      rw [d.carrier]
      exact ⟨fun k => absurd rfl k.2, fun k => absurd k.1.symm k.2⟩
    · rw [d.others x e]
      exact and_iff_left e
  · obtain ⟨n, e⟩ := not_or.1 n
    rw [d.others x e]
    exact h.waiting x n
  · by_cases e : x = c
    · rw [e, d.carrier]
    · rw [d.others x e]; exact h.still x (y.resolve_right e)
  · rw [pin]; rw [pending] at p; exact h.token x p
  · obtain ⟨n, e⟩ := not_or.1 n
    rw [d.others x e] at f
    rw [pending]
    exact h.faulted x n f

/-- A carrier in no queue may be set aside. -/
theorem WaitsBut.aside (h : WaitsBut X s) (still : (s.carrier c).wait = .none) : WaitsBut (plus X c) s :=
  { h with
    waiting := fun d n => h.waiting d (not_or.1 n).1
    still := fun d x => x.elim (h.still d) fun e => e ▸ still
    faulted := fun d n => h.faulted d (not_or.1 n).1 }

/-- A carrier that is not WAITING has no wait. -/
theorem WaitsBut.still_of_state (h : WaitsBut X s) (state : (s.carrier c).state ≠ .waiting) : (s.carrier c).wait = .none := by
  by_cases x : X c
  · exact h.still c x
  · exact Classical.not_not.1 fun w => state ((h.waiting c x).2 w)

/-- A carrier that is WAITING leaves its queue, any other has none to leave; so it is set aside. -/
theorem WaitsBut.dequeueIf (h : WaitsBut X s) (c : CarrierId) :
    WaitsBut (plus X c) (if (s.carrier c).state = .waiting then (s.leaveQueue c).clearWait c else s) := by
  split
  · exact h.left c
  · next n => exact h.aside (h.still_of_state n)

/-- A carrier set aside comes back where it is not WAITING, and has no PENDING entries if it is FAULTED. -/
theorem WaitsBut.back (h : WaitsBut (plus X c) s) (state : (s.carrier c).state ≠ .waiting)
    (faulted : (s.carrier c).state = .faulted → s.hasPending c = false) : WaitsBut X s :=
  { h with
    waiting := fun d n => by
      by_cases e : d = c
      · subst e
        exact ⟨fun w => absurd w state, fun k => absurd (h.still d plus_self) k⟩
      · exact h.waiting d (not_or.2 ⟨n, e⟩)
    still := fun d x => h.still d (.inl x)
    faulted := fun d n => by
      by_cases e : d = c
      · subst e; exact faulted
      · exact h.faulted d (not_or.2 ⟨n, e⟩) }

/-- The state of a carrier set aside may change. -/
theorem WaitsBut.restate (h : WaitsBut X s) (x : X c) {f : Carrier → Carrier} (wait : (f (s.carrier c)).wait = (s.carrier c).wait := by rfl)
    (held : ∀ e ∈ (f (s.carrier c)).held, e.status = .pending → e ∈ (s.carrier c).held := by exact fun _ m _ => m) :
    WaitsBut X (s.modCarrier c f) := by
  refine h.recast (c := c) rfl (fun _ => rfl) (fun _ => rfl) rfl rfl (fun d e => carrier_modCarrier_of_ne s f e) ?_ (fun _ _ => Iff.rfl)
    (fun n => absurd x n) (fun _ => ?_) (fun p => h.token c ?_) fun n => absurd x n
  · rw [carrier_modCarrier_self]; exact wait
  · rw [carrier_modCarrier_self]; exact wait.trans (h.still c x)
  · unfold State.hasPending at p ⊢
    rw [carrier_modCarrier_self] at p
    obtain ⟨e, m, pending⟩ := List.any_eq_true.1 p
    exact List.any_eq_true.2 ⟨e, held e m (by simpa using pending), pending⟩

theorem WaitsBut.enterAside (h : WaitsBut X s) (a : X c) (x : CarrierState) : WaitsBut X (s.enterState c x) :=
  .breakWatch (.beside (WaitsBut.restate h a (f := fun r => { r with state := x })) c) c

/-- A carrier set aside comes back in another state than WAITING and FAULTED. -/
theorem WaitsBut.enterState (h : WaitsBut (plus X c) s) {x : CarrierState} (waiting : x ≠ .waiting := by decide) (faulted : x ≠ .faulted := by decide) :
    WaitsBut X (s.enterState c x) := by
  have state : ((s.enterState c x).carrier c).state = x := by rw [(stateEntered s c x).carrier]
  exact (h.enterAside plus_self x).back (by rw [state]; exact waiting) (by rw [state]; exact fun f => absurd f faulted)

/-! ## Waits begun and ended -/

/-- The pin token may be laid down where its holder has no PENDING entries (R91, R92). -/
theorem WaitsBut.freeToken (h : WaitsBut X s) (bare : ∀ d, s.pinToken = some d → s.hasPending d = false) :
    WaitsBut X { s with pinToken := none } :=
  { h with
    queues := queuesOk_of h.queues rfl rfl rfl rfl
    stands := fun d w => (stands_of rfl rfl rfl d w).trans (h.stands d w)
    token := fun d p => absurd (bare d (h.token d p)) (by rw [show s.hasPending d = true from p]; exact nofun) }

/-- A carrier that stands in no queue of a state joins one, and its wait names it (R79). -/
theorem WaitsBut.joins {u v : State} {w : Wait} {k : Direction} (h : WaitsBut X s) (free : ¬X c) (named : w ≠ .none) (queues : QueuesOk v)
    (out : ∀ d w, v.standsFor d w ↔ s.standsFor d w ∧ d ≠ c) (zones : u.zoneStates = (v.joinQueue c w k).zoneStates)
    (corridors : u.corridorStates = (v.joinQueue c w k).corridorStates) (hold : u.holdWait = (v.joinQueue c w k).holdWait)
    (tickets : u.tickets = (v.joinQueue c w k).tickets) (pin : u.pinToken = s.pinToken) (others : ∀ d, d ≠ c → u.carrier d = s.carrier d)
    (state : (u.carrier c).state = .waiting) (wait : (u.carrier c).wait = w) (held : (u.carrier c).held = (s.carrier c).held) : WaitsBut X u := by
  have absent : ∀ w, ¬v.standsFor c w := fun w k => ((out c w).1 k).2 rfl
  have pending : ∀ x, u.hasPending x = s.hasPending x := fun x => by
    unfold State.hasPending
    by_cases e : x = c
    · rw [e, held]
    · rw [others x e]
  refine ⟨queuesOk_of (queues_joinQueue queues absent w k) zones corridors hold tickets, fun x y => ?_, fun x n => ?_, fun x a => ?_,
    fun x p => ?_, fun x n f => ?_⟩
  · rw [stands_of zones corridors hold, stands_joinQueue, out, h.stands]
    by_cases e : x = c
    · subst e
      rw [wait]
      exact ⟨fun k => k.elim (fun k => absurd rfl k.2) fun k => ⟨k.2.1.symm, k.2.1 ▸ k.2.2⟩, fun k => .inr ⟨rfl, k.1.symm, named⟩⟩
    · rw [others x e]
      exact ⟨fun k => k.elim And.left fun k => absurd k.1 e, fun k => .inl ⟨k, e⟩⟩
  · by_cases e : x = c
    · subst e
      rw [wait]
      exact iff_of_true state named
    · rw [others x e]; exact h.waiting x n
  · have e : x ≠ c := fun e => free (e ▸ a)
    rw [others x e]
    exact h.still x a
  · rw [pin]; rw [pending] at p; exact h.token x p
  · rw [pending]
    by_cases e : x = c
    · subst e; rw [state] at f; cases f
    · rw [others x e] at f; exact h.faulted x n f

theorem WaitsBut.checkedFor (h : WaitsBut X s) (c : CarrierId) (w : Wait) : WaitsBut X (s.checkedFor c w) := by
  rw [checkedFor_only]
  exact h.of_tables rfl rfl rfl rfl rfl rfl

theorem WaitsBut.waitOn (h : WaitsBut X s) (c : CarrierId) (w : Wait) (k : Direction) (free : ¬X c) (a : s.active c) (named : w ≠ .none) :
    WaitsBut X (s.waitOn c w k) := by
  rcases a with a | a
  · have still : (s.carrier c).wait = .none := h.still_of_state (by rw [a]; exact nofun)
    have begun : s.waitOn c w k = State.checkedFor
        ((((s.joinQueue c w k).modCarrier c (fun r => { r with wait := w, waitAge := 0 })).flagWait c).enterState c .waiting) c w := by
      unfold State.waitOn
      simp only [a]
      rfl
    rw [begun]
    have pin := token_joinQueue s c w k
    have carrier : ∀ d, (s.joinQueue c w k).carrier d = s.carrier d := fun d => carrier_joinQueue ..
    generalize joined : s.joinQueue c w k = j at pin carrier ⊢
    refine WaitsBut.checkedFor ?_ c w
    refine h.joins (k := k) free named h.queues (fun d y => ⟨fun q => ⟨q, fun e => h.in_none still y (e ▸ q)⟩, And.left⟩)
      (by rw [joined]; rfl) (by rw [joined]; rfl) (by rw [joined]; rfl)
      (by rw [joined]; rfl) pin (fun d e => ?_) ?_ ?_ ?_
    · simp [State.flagWait, carrier_modCarrier, carrier_enterState_of_ne, e, carrier]
    · simp [State.enterState, State.flagState]
    · simp [State.enterState, State.flagState, State.flagWait]
    · simp [State.enterState, State.flagState, State.flagWait, carrier]
  · by_cases e : (s.carrier c).wait = w
    · have stays : s.waitOn c w k = s.checkedFor c w := by
        unfold State.waitOn
        simp only [a, e, if_true]
        rfl
      rw [stays]
      exact h.checkedFor c w
    · have moved : s.waitOn c w k = State.checkedFor
          (((((s.leaveQueue c).joinQueue c w k).modCarrier c (fun r => { r with wait := w })).flagWait c).breakWatch c) c w := by
        unfold State.waitOn
        simp only [a, e, if_false]
        rfl
      rw [moved]
      have pin := (token_joinQueue (s.leaveQueue c) c w k).trans (token_leaveQueue s c)
      have carrier : ∀ d, ((s.leaveQueue c).joinQueue c w k).carrier d = s.carrier d := fun d => by rw [carrier_joinQueue, carrier_leaveQueue]
      generalize joined : (s.leaveQueue c).joinQueue c w k = j at pin carrier ⊢
      refine WaitsBut.checkedFor ?_ c w
      refine h.joins (k := k) free named (queues_leaveQueue c h.queues) (stands_leaveQueue fun w q => ((h.stands c w).1 q).1)
        (by rw [joined]; rfl) (by rw [joined]; rfl) (by rw [joined]; rfl)
        (by rw [joined]; rfl) pin (fun d e => ?_) ?_ ?_ ?_
      · simp [State.flagWait, carrier_modCarrier, e, carrier]
      · simpa [State.flagWait, carrier] using a
      · simp [State.flagWait]
      · simp [State.flagWait, carrier]

theorem WaitsBut.settle (h : WaitsBut X s) (c : CarrierId) : WaitsBut X (s.settle c) := by
  unfold State.settle
  split
  · exact (h.left c).enterState
  · exact h

theorem WaitsBut.endPass (h : WaitsBut X s) (c : CarrierId) : WaitsBut X (s.endPass c) := by
  unfold State.endPass
  split
  · next g =>
    exact h.freeToken fun d token => by
      cases Option.some.inj (g.1.symm.trans token)
      exact g.2.1
  · exact h

theorem WaitsBut.routeEnds (h : WaitsBut X s) (c : CarrierId) : WaitsBut X (s.routeEnds c) := by
  have ended : WaitsBut X (State.enterState _ c .idle) := WaitsBut.enterState ((h.dequeueIf c).kept (.detach c _))
  unfold State.routeEnds
  exact WaitsBut.beside ended c

theorem WaitsBut.wholeSet (h : WaitsBut X s) (c : CarrierId) (set : List HopRef) (token : s.pinToken = some c) : WaitsBut X (s.wholeSet c set) := by
  obtain ⟨t, whole, settled⟩ := wholeSet_parts s c set
  obtain ⟨_, _, _, carrier⟩ := whole.carrier
  rw [settled]
  have granted : ∀ e ∈ (t.carrier c).held, e.status = .granted := fun e m => by
    rw [carrier] at m
    obtain ⟨_, _, rfl⟩ := List.mem_map.1 m
    rfl
  have holding : WaitsBut X { t with pinToken := s.pinToken } := by
    refine h.kept (c := c) (.of (fun _ => ?_) (fun _ => ?_) ?_ ?_ rfl whole.others ?_ ?_ fun e m p => ?_)
    · rw [whole.rest]; rfl
    · rw [whole.rest]; rfl
    · rw [whole.rest]
    · rw [whole.rest]
    · rw [carrier_withToken, carrier]
    · rw [carrier_withToken, carrier]
    · rw [granted e m] at p; cases p
  have free : t = { ({ t with pinToken := s.pinToken } : State) with pinToken := none } := by
    have none := whole.token
    cases t
    cases none
    rfl
  rw [free]
  refine (holding.freeToken fun d held => ?_).settle c
  cases Option.some.inj (token.symm.trans held)
  unfold State.hasPending
  rw [List.any_eq_false]
  exact fun e m => by rw [granted e m]; exact nofun

/-- The passes of the carriers that are not set aside, and the releases of all, keep waits and claims. -/
theorem WaitsBut.leave (X : CarrierId → Prop) : LeaveClosed (fun c => ¬X c) (WaitsBut X) where
  queued h := h.queuedAre
  breakWatch c h := h.breakWatch c
  waitOn c w d h free a named := h.waitOn c w d free a named
  settle c h _ := h.settle c
  endPass c h _ := h.endPass c
  routeEnds c h _ _ := h.routeEnds c
  undirectAll {s} c h := h.kept (.undirectAll c c s)
  grantSet {s} c h _ _ _ _ _ _ _ := by
    obtain ⟨t, taken, settled⟩ := grantSet_parts s c (s.nextSet c)
    rw [settled]
    exact (h.kept taken.waitKept).settle c
  pendHold {s} c x h _ a _ token _ _ _ _ := h.kept ((pendTaken s c (s.nextSet c) x).waitKept (zq_pendHold s c _ x) token a)
  wholeSet c h _ _ _ token _ := h.wholeSet c _ token
  giveUp {s} c z h _ := h.kept (.giveUp c s z)

/-! ## What other carriers' passes leave of a carrier set aside -/

theorem carrier_waitOn_of_ne {d : CarrierId} (w : Wait) (k : Direction) (a : s.active d) (e : c ≠ d) : (s.waitOn d w k).carrier c = s.carrier c := by
  obtain ⟨u, put, waits⟩ := waitOn_parts w k a
  have checked : (u.checkedFor d w).carrier c = u.carrier c := by rw [checkedFor_only]; rfl
  rw [waits, checked, put.others c e]

theorem carrier_routeEnds_of_ne {d : CarrierId} (e : c ≠ d) : (s.routeEnds d).carrier c = s.carrier c := by
  unfold State.routeEnds State.flagRouteEnd
  rw [carrier_modCarrier_of_ne _ _ e, carrier_enterState_of_ne _ _ e, carrier_detachRoute_of_ne _ e]
  split
  · exact (dequeued s d).others c e
  · rfl

theorem carrier_undirectAll (d : CarrierId) : (s.undirectAll d).1.carrier c = s.carrier c := by
  by_cases e : c = d
  · obtain ⟨other, ne⟩ : ∃ x : CarrierId, c ≠ x := if z : c = 0 then ⟨1, by rw [z]; decide⟩ else ⟨0, z⟩
    exact (WaitKept.undirectAll other d s).others c ne
  · exact (WaitKept.undirectAll d d s).others c e

theorem token_settle (s : State) (d : CarrierId) : (s.settle d).pinToken = s.pinToken := by
  unfold State.settle
  split
  · exact token_leaveQueue s d
  · rfl

theorem token_routeEnds (s : State) (d : CarrierId) : (s.routeEnds d).pinToken = s.pinToken := by
  have dequeued : (if (s.carrier d).state = .waiting then (s.leaveQueue d).clearWait d else s).pinToken = s.pinToken := by
    split
    · exact token_leaveQueue s d
    · rfl
  unfold State.routeEnds
  generalize (if (s.carrier d).state = .waiting then (s.leaveQueue d).clearWait d else s) = u at dequeued ⊢
  have detached := (WaitKept.detach d u).token
  generalize u.detachRoute d = v at detached ⊢
  exact detached.trans dequeued

theorem token_waitOn {d : CarrierId} (w : Wait) (k : Direction) (a : s.active d) : (s.waitOn d w k).pinToken = s.pinToken := by
  obtain ⟨u, put, waits⟩ := waitOn_parts w k a
  have checked : (u.checkedFor d w).pinToken = u.pinToken := by rw [checkedFor_only]
  rw [waits, checked, putWaiting_token put]

/-- A carrier set aside with a record of its own, and with the pin token where it has it. -/
structure SetAside (X : CarrierId → Prop) (c : CarrierId) (r : Carrier) (b : Prop) (t : State) : Prop where
  waits : WaitsBut X t
  record : t.carrier c = r
  token : b → t.pinToken = some c

/-- The passes of the carriers that are not set aside leave one that is, and its token. -/
theorem SetAside.pass (x : X c) (r : Carrier) (b : Prop) : PassClosed (fun d => ¬X d) (SetAside X c r b) where
  queued h := h.waits.queuedAre
  breakWatch d h := ⟨h.waits.breakWatch d, h.record, h.token⟩
  waitOn d w k h free a named := ⟨h.waits.waitOn d w k free a named,
    (carrier_waitOn_of_ne w k a fun e => free (e ▸ x)).trans h.record, fun y => (token_waitOn w k a).trans (h.token y)⟩
  settle {s} d h free := ⟨h.waits.settle d, ((settle_others s d).1 c fun e => free (e ▸ x)).trans h.record,
    fun y => (token_settle s d).trans (h.token y)⟩
  endPass {s} d h free := by
    refine ⟨h.waits.endPass d, ?_, fun y => ?_⟩ <;> unfold State.endPass
    · split <;> exact h.record
    · split
      · next g =>
        have same : d = c := Option.some.inj (g.1.symm.trans (h.token y))
        exact absurd (same ▸ x) free
      · exact h.token y
  routeEnds {s} d h free _ := ⟨h.waits.routeEnds d, (carrier_routeEnds_of_ne (d := d) fun e => free (e ▸ x)).trans h.record,
    fun y => (token_routeEnds s d).trans (h.token y)⟩
  undirectAll {s} d h := ⟨h.waits.kept (.undirectAll d d s), (carrier_undirectAll d).trans h.record,
    fun y => (WaitKept.undirectAll d d s).token.trans (h.token y)⟩
  grantSet {s} d h free a mode start clear new room := by
    have waits := (WaitsBut.leave X).grantSet d h.waits free a mode start clear new room
    obtain ⟨t, taken, settled⟩ := grantSet_parts s d (s.nextSet d)
    have ne : c ≠ d := fun e => free (e ▸ x)
    refine ⟨waits, ?_, fun y => ?_⟩
    · rw [settled, (settle_others t d).1 c ne, taken.others c ne, h.record]
    · rw [settled, token_settle, taken.waitKept.token, h.token y]
  pendHold {s} d y h free a mode token mem test new room := by
    have pend := pendTaken s d (s.nextSet d) y
    have ne : c ≠ d := fun e => free (e ▸ x)
    refine ⟨(WaitsBut.leave X).pendHold d y h.waits free a mode token mem test new room,
      (pend.others c ne).trans h.record, fun b => ?_⟩
    exact (pend.waitKept (zq_pendHold s d _ y) token a).token.trans (h.token b)
  wholeSet {s} d h free _ _ token _ := by
    have waits := h.waits.wholeSet d (s.nextSet d) token
    obtain ⟨t, whole, settled⟩ := wholeSet_parts s d (s.nextSet d)
    have ne : c ≠ d := fun e => free (e ▸ x)
    refine ⟨waits, ?_, fun y => absurd (Option.some.inj (token.symm.trans (h.token y))) (Ne.symm ne)⟩
    rw [settled, (settle_others t d).1 c ne, whole.others c ne, h.record]

theorem carrier_leaveZoneCorridor (d : CarrierId) (z : ZoneId) : (s.leaveZoneCorridor d z).1.carrier c = s.carrier c := by
  unfold State.leaveZoneCorridor
  split
  · rfl
  · split <;> rfl

/-- A carrier set aside releases a zone: its entry goes and no more of its record, and it keeps the token. -/
theorem WaitsBut.release (h : WaitsBut X s) (x : X c) {z : ZoneId} (g : s.holds c z = true) :
    SetAside X c { s.carrier c with held := (s.carrier c).held.filter (fun e => e.zone != z) } (s.pinToken = some c) (s.release c z) := by
  have K := SetAside.pass x { s.carrier c with held := (s.carrier c).held.filter (fun e => e.zone != z) } (s.pinToken = some c)
  have given := WaitKept.giveUp c s z
  have start : SetAside X c _ (s.pinToken = some c) (State.leaveZoneCorridor _ c z).1 :=
    ⟨h.kept given, (carrier_leaveZoneCorridor c z).trans (givenUp s c z).carrier, given.token.trans⟩
  unfold State.release
  dsimp only
  refine K.wakeZone z _ (K.breakWatch c ?_)
  split
  · exact start
  · exact K.wakeCorridor _ start

theorem WaitsBut.releaseAll (h : WaitsBut X s) (x : X c) (zs : List ZoneId) :
    SetAside X c { s.carrier c with held := (s.carrier c).held.filter (fun e => !zs.contains e.zone) } (s.pinToken = some c) (s.releaseAll c zs) := by
  unfold State.releaseAll
  induction zs generalizing s with
  | nil =>
    refine ⟨h, ?_, id⟩
    show s.carrier c = { s.carrier c with held := (s.carrier c).held.filter (fun _ => true) }
    rw [List.filter_eq_self.2 fun _ _ => rfl]
  | cons z l ih =>
    have one : SetAside X c { s.carrier c with held := (s.carrier c).held.filter (fun e => e.zone != z) } (s.pinToken = some c)
        (if s.holds c z then s.release c z else s) := by
      split
      · next g => exact h.release x g
      · next g =>
        have all : (s.carrier c).held.filter (fun e => e.zone != z) = (s.carrier c).held := List.filter_eq_self.2 fun e m => by
          rw [bne_iff_ne]
          exact fun q => g ((holds_iff s c z).2 ⟨e, m, q⟩)
        rw [all]
        exact ⟨h, rfl, id⟩
    have more := ih one.waits
    refine ⟨more.waits, ?_, fun token => more.token (one.token token)⟩
    rw [List.foldl_cons, more.record, one.record]
    simp only [List.filter_filter, List.contains_cons, Bool.not_or, bne]
    congr 1
    exact List.filter_congr fun e _ => Bool.and_comm _ _

theorem WaitsBut.no_pending (h : WaitsBut X s) (other : s.pinToken ≠ some c) : s.hasPending c = false := by
  cases p : s.hasPending c with
  | false => rfl
  | true => exact absurd (h.token c p) other

/-- A carrier set aside that leaves its claim has no PENDING entry more, and keeps its state (R93). -/
theorem WaitsBut.leaveClaim (h : WaitsBut X s) (x : X c) : WaitsBut X (s.leaveClaim c) ∧ (s.leaveClaim c).hasPending c = false ∧
    ((s.leaveClaim c).carrier c).state = (s.carrier c).state := by
  unfold State.leaveClaim
  split
  · next token =>
    have left := h.releaseAll x (((s.carrier c).held.filter (fun e => e.status == .pending)).reverse.map (·.zone))
    generalize s.releaseAll c (((s.carrier c).held.filter (fun e => e.status == .pending)).reverse.map (·.zone)) = t at left ⊢
    have none : t.hasPending c = false := by
      unfold State.hasPending
      rw [left.record, List.any_eq_false]
      intro e m pending
      obtain ⟨mem, gone⟩ := List.mem_filter.1 m
      have released : e.zone ∈ ((s.carrier c).held.filter (fun e => e.status == .pending)).reverse.map (·.zone) :=
        List.mem_map_of_mem (List.mem_reverse.2 (List.mem_filter.2 ⟨mem, pending⟩))
      rw [List.contains_iff_mem.2 released] at gone
      cases gone
    refine ⟨left.waits.freeToken fun d held => ?_, none, by rw [carrier_withToken, left.record]⟩
    cases Option.some.inj ((left.token token).symm.trans held)
    exact none
  · next other => exact ⟨h, h.no_pending other, rfl⟩

end

/-! ## The operations -/

section
variable {s : State} {c : CarrierId}

theorem WaitsBut.outside (X : CarrierId → Prop) : OutsideClosed (WaitsBut X) where
  outside h k := h.of_tables k.zoneStates k.corridorStates k.holdWait k.tickets k.pinToken k.carriers
  touch c f h soft := h.beside c (soft.state _) (soft.wait _) (soft.held _)

theorem leave_nobody : LeaveClosed (fun _ => True) (WaitsBut nobody) := by
  have all : (fun c => ¬nobody c) = fun _ => True := funext fun _ => eq_true id
  exact all ▸ WaitsBut.leave nobody

/-- A route left and its corridor entries undirected, by a carrier of which no pass is made. -/
theorem WaitsBut.detachUndirect {X : CarrierId → Prop} (h : WaitsBut X s) (c : CarrierId) :
    WaitsBut X (if (s.carrier c).route.isSome then (s.detachRoute c).undirect c else s) := by
  split
  · exact (WaitsBut.leave X).undirect c (h.kept (.detach c s))
  · exact h

/-- A first fault: the carrier stands aside from its dequeuing until it has left its claim (R134). -/
theorem WaitsBut.firstFault (h : WaitsBut nobody s) (c : CarrierId) (k : FaultKind) : WaitsBut nobody (s.firstFault c k) := by
  have outside := WaitsBut.outside nobody
  unfold State.firstFault
  dsimp only
  have dequeued := (outside.capture c k h).dequeueIf c
  generalize (if ((s.captureFault c k).carrier c).state = .waiting then ((s.captureFault c k).leaveQueue c).clearWait c else s.captureFault c k) = s2
    at dequeued ⊢
  have parked : WaitsBut (plus nobody c) (s2.modCarrier c (fun r => { r with state := .faulted })) := dequeued.restate plus_self
  have state : ((s2.modCarrier c (fun r => { r with state := .faulted })).carrier c).state = .faulted := by rw [carrier_modCarrier_self]
  generalize s2.modCarrier c (fun r => { r with state := .faulted }) = s3 at parked state ⊢
  have frozen : WaitsBut (plus nobody c) (if k = .trespass then s3.freeze c else s3) ∧
      ((if k = .trespass then s3.freeze c else s3).carrier c).state = .faulted := by
    split
    · exact ⟨parked.kept (.freeze c s3), by rw [state_freeze, state]⟩
    · exact ⟨parked, state⟩
  generalize (if k = .trespass then s3.freeze c else s3) = s4 at frozen ⊢
  obtain ⟨left, none, same⟩ := frozen.1.leaveClaim plus_self
  have claimless : WaitsBut nobody (s4.leaveClaim c) := left.back (by rw [same, frozen.2]; exact nofun) fun _ => none
  have released := leave_nobody.releaseAll c ((s4.leaveClaim c).faultReleases c) claimless
  generalize (s4.leaveClaim c).releaseAll c ((s4.leaveClaim c).faultReleases c) = s6 at released ⊢
  have refrozen : WaitsBut nobody (if k = .trespass then (s6.freeze c).rearFirst c else s6) := by
    split
    · exact (released.kept (.freeze c s6)).kept (.rearFirst c _)
    · exact released
  exact outside.applyPolicy c k (outside.flagFault c (outside.flagState c (refrozen.detachUndirect c |>.breakWatch c)))

/-- Cancel: the carrier is IDLE before it leaves its claim (R62). -/
theorem WaitsBut.cancel (h : WaitsBut nobody s) (c : CarrierId) (unfaulted : (s.carrier c).state ≠ .faulted) : WaitsBut nobody (s.cancel c) := by
  unfold State.cancel
  dsimp only
  have dequeued := h.dequeueIf c
  generalize (if (s.carrier c).state = .waiting then (s.leaveQueue c).clearWait c else s) = s1 at dequeued ⊢
  have idle : WaitsBut (plus nobody c) (if (s1.carrier c).state = .idle then s1 else s1.enterState c .idle) ∧
      ((if (s1.carrier c).state = .idle then s1 else s1.enterState c .idle).carrier c).state = .idle := by
    split
    · next e => exact ⟨dequeued, e⟩
    · exact ⟨dequeued.enterAside plus_self .idle, by rw [(stateEntered s1 c .idle).carrier]⟩
  generalize (if (s1.carrier c).state = .idle then s1 else s1.enterState c .idle) = s2 at idle ⊢
  obtain ⟨left, none, same⟩ := idle.1.leaveClaim plus_self
  have claimless : WaitsBut nobody (s2.leaveClaim c) := left.back (by rw [same, idle.2]; exact nofun) fun _ => none
  exact leave_nobody.releaseAll c _ ((claimless.detachUndirect c).breakWatch c)

/-- A fault cleared: the carrier becomes IDLE after its releases (R67). -/
theorem WaitsBut.clearFaultOf (h : WaitsBut nobody s) (faulted : (s.carrier c).state = .faulted) : WaitsBut nobody (s.clearFaultOf c) := by
  unfold State.clearFaultOf
  dsimp only
  have still : (s.carrier c).wait = .none := h.still_of_state (by rw [faulted]; exact nofun)
  have released : WaitsBut (plus nobody c) (match s.rear c with
      | none => s
      | some r => s.releaseAll c (s.zonesBehind c r)) := by
    split
    · exact h.aside still
    · exact ((h.aside still).releaseAll plus_self _).waits
  exact .enterState (released.beside c)

/-- A carrier retired becomes VACANT after its releases (R68). -/
theorem WaitsBut.retire (h : WaitsBut nobody s) (idle : ¬s.active c) : WaitsBut nobody (s.retire c) := by
  have still : (s.carrier c).wait = .none := h.still_of_state fun e => idle (.inr e)
  unfold State.retire
  exact .enterState (WaitsBut.beside ((h.aside still).releaseAll plus_self _).waits c)

/-- A route replaced: the carrier stands aside from its dequeuing until it is ADVANCING (R66). -/
theorem WaitsBut.replace (h : WaitsBut nobody s) (c : CarrierId) (r : RouteId) (i : HopIdx) : WaitsBut nobody (s.replace c r i) := by
  unfold State.replace
  dsimp only
  have dequeued := h.dequeueIf c
  generalize (if (s.carrier c).state = .waiting then (s.leaveQueue c).clearWait c else s) = s1 at dequeued ⊢
  have taken := (dequeued.leaveClaim plus_self).1.kept (.takeRoute c _ r i)
  have undirected := (WaitsBut.leave (plus nobody c)).undirect c taken
  generalize ((s1.leaveClaim c).takeRoute c r i).undirect c = s3 at undirected ⊢
  have advancing : WaitsBut nobody (if (s3.carrier c).state = .advancing then s3 else s3.enterState c .advancing) := by
    split
    · next e => exact undirected.back (by rw [e]; exact nofun) (by rw [e]; exact nofun)
    · exact undirected.enterState
  exact leave_nobody.runPass c (advancing.breakWatch c) trivial

theorem WaitsBut.enrol (h : WaitsBut nobody s) {f r : ZoneId} (g : s.admitRefusal c f r = none) : WaitsBut nobody (s.enrol c f r) := by
  have still : (s.carrier c).wait = .none := h.still_of_state (by rw [vacant_of_admitRefusal g]; exact nofun)
  have granted : ∀ e ∈ admittedHeld f r, e.status = .granted := fun e m => by
    unfold admittedHeld at m
    split at m <;> simp only [List.mem_cons, List.not_mem_nil, or_false] at m
    · rw [m]
    · rcases m with m | m <;> rw [m]
  have none : (s.modCarrier c (fun x => x.admitted (admittedHeld f r))).hasPending c = false := by
    unfold State.hasPending
    rw [carrier_modCarrier_self, List.any_eq_false]
    exact fun e m => by rw [granted e m]; exact nofun
  have record : WaitsBut nobody (s.modCarrier c (fun x => x.admitted (admittedHeld f r))) := by
    refine h.recast (c := c) rfl (fun _ => rfl) (fun _ => rfl) rfl rfl (fun d e => carrier_modCarrier_of_ne s _ e) ?_ (fun _ _ => Iff.rfl) (fun _ => ?_)
      nofun (fun p => ?_) fun _ _ => none
    · rw [carrier_modCarrier_self]; exact still.symm
    · rw [carrier_modCarrier_self]
      exact iff_of_false nofun fun named => named rfl
    · rw [none] at p; cases p
  have outside := WaitsBut.outside nobody
  have zones := record.kept (.fold c (fun t (e : HeldEntry) => t.admitZone c e.zone) (fun t e => .admitZone c t e.zone) (admittedHeld f r) _)
  exact (outside.flagState c (zones.of_tables (t := State.setValidator _ c _) rfl rfl rfl rfl rfl rfl)).breakWatch c

theorem WaitsBut.layZone {X : CarrierId → Prop} (h : WaitsBut X s) (slot : MgmtSlot) (z : ZoneId) (new : ZoneRecord) :
    WaitsBut X ((s.noteTableWrite slot).layZone z new) := by
  have noted : WaitsBut X (s.noteTableWrite slot) := (WaitsBut.outside X).noteTableWrite slot h
  generalize s.noteTableWrite slot = t at noted ⊢
  have only := laidBindings_only t z new
  have zst := zst_laidBindings t z new
  rw [layZone_eq]
  generalize t.laidBindings z new = u at only zst ⊢
  have laid : WaitsBut X u := noted.same (fun w => by rw [zst]) (fun k => by rw [only]; rfl) (by rw [only]) (by rw [only]) (by rw [only]) (by rw [only])
  split
  · exact laid.kept (.fieldState 0 u z)
  · exact laid

/-- A carrier assigned a route was IDLE, and starts ADVANCING (R61). -/
theorem WaitsBut.assign (h : WaitsBut nobody s) (r : RouteId) (i : HopIdx) (idle : (s.carrier c).state = .idle) :
    WaitsBut nobody ((s.takeRoute c r i).enterState c .advancing) :=
  .enterState ((h.aside (h.still_of_state (by rw [idle]; exact nofun))).kept (.takeRoute c s r i))

/-- The pin token is taken where nobody has PENDING entries (R89). -/
theorem WaitsBut.takeToken {X : CarrierId → Prop} (h : WaitsBut X s) (c : CarrierId) (free : s.pinToken = none) : WaitsBut X { s with pinToken := some c } :=
  { h with
    queues := queuesOk_of h.queues rfl rfl rfl rfl
    stands := fun d w => (stands_of rfl rfl rfl d w).trans (h.stands d w)
    token := fun d p => absurd (h.token d p) (by rw [free]; exact nofun) }

theorem WaitsBut.writeHopsAt {X : CarrierId → Prop} (h : WaitsBut X s) (n : Nat) (l : List Hop) : WaitsBut X (s.writeHopsAt n l) := by
  induction l generalizing s n with
  | nil => exact h
  | cons x l ih => exact ih (h.of_tables (t := State.setHop _ _ x) rfl rfl rfl rfl rfl rfl) _

theorem queue_requota (x : CorridorState) (q : Nat) : (x.requota q).queue = x.queue := by
  unfold CorridorState.requota
  split <;> rfl

/-- With no waits, no queues and nothing held, waits and claims are right. -/
theorem waitsBut_of_cleared {t : State} (zst : ∀ z, (t.zst z).queue = []) (cst : ∀ k, (t.cst k).queue = []) (hold : t.holdWait = [])
    (carrier : ∀ c, t.carrier c = .cleared) : WaitsBut nobody t := by
  have none : ∀ d, t.hasPending d = false := fun d => by unfold State.hasPending; rw [carrier]; rfl
  have empty : QueueOk t.tickets [] := ⟨.nil, .nil, nofun⟩
  refine ⟨⟨fun z => by rw [zst]; exact empty, fun k => by rw [cst]; exact empty, by rw [hold]; exact empty⟩, fun c w => ?_, fun c _ => ?_, nofun,
    fun c p => ?_, fun c _ _ => none c⟩
  · rw [carrier]
    refine iff_of_false (fun k => ?_) fun k => k.2 k.1.symm
    cases w <;> simp only [State.standsFor, zst, cst, hold, List.not_mem_nil, false_and, exists_false] at k
  · rw [carrier]; exact iff_of_false nofun fun named => named rfl
  · rw [none] at p; cases p

end

theorem WaitsBut.step : StepClosed (WaitsBut nobody) where
  toLeaveClosed := leave_nobody
  toOutsideClosed := WaitsBut.outside nobody
  takeToken c h free _ := h.takeToken c free
  setValidator c x h _ _ := h.of_tables rfl rfl rfl rfl rfl rfl
  setReport c r h := WaitsBut.kept (c := c) (.beside h c) (.recomputeHeld c _ c)
  firstFault c k h _ _ := h.firstFault c k
  enrol c f r h g := h.enrol g
  assign c r h _ idle _ := h.assign r _ idle
  cancel c h _ unfaulted := h.cancel c unfaulted
  clearFaultOf c h faulted := h.clearFaultOf faulted
  retire c h idle _ _ := h.retire idle
  replace c r i h _ _ _ _ _ := h.replace c r i
  layZone slot w z new h _ _ := h.layZone slot z new
  addPair x y h _ _ _ _ _ := h.of_tables rfl rfl rfl rfl rfl rfl
  removePair x y h _ := h.of_tables rfl rfl rfl rfl rfl rfl
  setCorridor {s} k d q h _ _ := (h.of_tables (t := s.setCorridor k ⟨d, q⟩) rfl rfl rfl rfl rfl rfl).kept (.setCst 0 _ k _ (queue_requota ..))
  setRoute r w x h _ _ _ := h.of_tables rfl rfl rfl rfl rfl rfl
  setHops n l h _ _ _ := h.writeHopsAt n l
  fieldsFollow read h := (h.kept (.filterInputs 0 _ read)).kept (.fieldsFollow 0 _ _)
  clearReached {s} f i h := (h.of_tables (t := s.setInput f i _) rfl rfl rfl rfl rfl rfl).kept (.fieldsFollow 0 s _)
  setParameters a b c h _ _ _ _ _ _ := h.of_tables rfl rfl rfl rfl rfl rfl
  toService h _ := h.of_tables rfl rfl rfl rfl rfl rfl
  toSafe h _ := h.of_tables rfl rfl rfl rfl rfl rfl
  restart {s} x _ := waitsBut_of_cleared (fun z => by rw [(restart_tables s x).zst]; rfl) (fun k => by rw [(restart_tables s x).cst]; rfl)
    (restart_fields s x).holdWait (restart_tables s x).carrier
  powerOn {s} x _ := waitsBut_of_cleared (fun z => by rw [(powerOn_tables s x).zst, reset_zst]; rfl)
    (fun k => by rw [(powerOn_tables s x).cst, reset_cst]; rfl) rfl fun c => by rw [(powerOn_tables s x).carrier, reset_carrier]

/-- Settles O59: each operation keeps waits and claims, carriers inside it being set aside from the passes of the others. -/
theorem everyStepKeepsWaitsOk : Obligations.EveryStepKeepsWaitsOk := fun s t waits claims e =>
  (waitsBut_nobody t).1 (WaitsBut.step.step ((waitsBut_nobody s).2 ⟨waits, claims⟩) e)

end Sys2Proof.Machine
end

section
/-! SUPPORT. The floor as claims find it, through every step: places on routes, zones taken and given up, and the tables that SERVICE mode leans on. -/

namespace Sys2Proof.Machine

/-! ## Places on routes -/

/-- What the floor asks of one carrier's place: its route is defined, and its cursor lies on it (R36, R39). -/
def PlaceOk (s : State) (c : CarrierId) : Prop :=
  ∀ r, (s.carrier c).route = some r → (s.route r).defined = true ∧ ∀ h, (s.carrier c).cursor = .hop h →
    (s.route r).firstHop.val ≤ h.val ∧ h.val < (s.route r).firstHop.val + (s.route r).hopCount

theorem placeOk_of_place {s : State} {c : CarrierId} {r : RouteId} {x : Cursor} (route : (s.carrier c).route = some r)
    (cursor : (s.carrier c).cursor = x) (defined : (s.route r).defined = true)
    (on : ∀ h, x = .hop h → (s.route r).firstHop.val ≤ h.val ∧ h.val < (s.route r).firstHop.val + (s.route r).hopCount) : PlaceOk s c := by
  intro q e
  cases Option.some.inj (route.symm.trans e)
  exact ⟨defined, fun h at' => on h (cursor.symm.trans at')⟩

/-- A route's first hop is one of its hops. -/
theorem first_inRange {x : RouteRecord} (p : x.placed) {h : HopIdx} (e : Cursor.hop x.firstHop = .hop h) :
    x.firstHop.val ≤ h.val ∧ h.val < x.firstHop.val + x.hopCount := by
  cases e
  unfold RouteRecord.placed at p
  omega

/-- Past the last hop of a route: its end, its first hop again, or the first hop of a defined route that it links to (R40–R42). -/
theorem placeOk_takeSeam {s : State} {c : CarrierId} {r : RouteId} (placed : ∀ r, (s.route r).placed)
    (route : (s.carrier c).route = some r) (defined : (s.route r).defined = true) : PlaceOk (s.takeSeam c r) c := by
  have ended : PlaceOk (s.setCursor c .atEnd) c := placeOk_of_place (r := r) (x := .atEnd)
    (by unfold State.setCursor; rw [carrier_modCarrier_self]; exact route) (by unfold State.setCursor; rw [carrier_modCarrier_self]) defined nofun
  unfold State.takeSeam
  split
  · exact ended
  · refine placeOk_of_place (r := r) (by rw [carrier_modCarrier_self]; exact route) (by rw [carrier_modCarrier_self]) defined fun h e => ?_
    split at e
    · cases e
    · exact first_inRange (placed r) e
  · split
    · exact ended
    · next q _ =>
      split
      · next linked =>
        have record : ((s.dropUserOf (s.carrier c).route).addUser q).route q = { s.route q with
            users := (((s.dropUserOf (s.carrier c).route).addUser q).route q).users } := by
          rw [users_addUser, users_dropUserOf]
        have framed : ∀ f, ((((s.dropUserOf (s.carrier c).route).addUser q).modCarrier c f).route q) =
            ((s.dropUserOf (s.carrier c).route).addUser q).route q := fun _ => rfl
        refine placeOk_of_place (r := q) (by rw [carrier_modCarrier_self]) (by rw [carrier_modCarrier_self])
          (by rw [framed, record]; exact linked) fun h e => ?_
        rw [framed, record]
        exact first_inRange (placed q) e
      · exact ended

/-- A cursor moved past a hop of its carrier's route lies on the carrier's route (R40–R42). -/
theorem placeOk_moveCursorPast {s : State} {c : CarrierId} {x : HopRef} (placed : ∀ r, (s.route r).placed)
    (route : (s.carrier c).route = some x.route) (defined : (s.route x.route).defined = true)
    (low : (s.route x.route).firstHop.val ≤ x.hop.val) : PlaceOk (s.moveCursorPast c x) c := by
  unfold State.moveCursorPast
  split
  · next inner =>
    refine placeOk_of_place (s := (s.setCursor c _).breakWatch c) (r := x.route) (x := .hop (hopPlus x.hop 1))
      (by rw [(breakWatch_accessors _ c).2.2.2.2.2.2.1]; unfold State.setCursor; rw [carrier_modCarrier_self]; exact route)
      (by rw [(breakWatch_accessors _ c).2.2.2.2.2.2.1]; unfold State.setCursor; rw [carrier_modCarrier_self]) defined fun h e => ?_
    have placed := placed x.route
    have within := (lastHop_iff ..).1 inner
    unfold RouteRecord.placed at placed
    have val : (hopPlus x.hop 1).val = x.hop.val + 1 := hopPlus_val (by omega)
    cases e
    show (s.route x.route).firstHop.val ≤ _ ∧ _ < (s.route x.route).firstHop.val + (s.route x.route).hopCount
    omega
  · exact placeOk_takeSeam placed route defined

/-- The floor stands where one carrier's place changes and the new place is right. -/
theorem FloorOk.replaced {s t : State} (f : FloorOk s) {c : CarrierId} (frame : EngineFrame s t) (others : ∀ d, d ≠ c → t.carrier d = s.carrier d)
    (held : (t.carrier c).held = (s.carrier c).held) (cst : ∀ k, t.cst k = s.cst k) (place : PlaceOk t c) : FloorOk t := by
  have held : ∀ d, (t.carrier d).held = (s.carrier d).held := fun d => by
    by_cases e : d = c
    · rw [e, held]
    · rw [others d e]
  exact {
    routes := routes_of frame.mode frame.zones frame.hops (routeSame frame) f
    current := fun d r e => by
      by_cases own : d = c
      · subst own; exact place r e
      · obtain ⟨defined, first, count⟩ := routeSame frame r
        rw [others d own] at e ⊢
        rw [defined, first, count]
        exact f.current d r e
    held := fun d e m => by rw [zone_of frame.zones]; exact f.held d e (held d ▸ m)
    once := fun d => by rw [held]; exact f.once d
    occupants := fun k d => by
      rw [cst, held]
      simp only [corridorOfZone_of frame.zones]
      exact f.occupants k d }

theorem FloorOk.moveCursorPast {s : State} (f : FloorOk s) {c : CarrierId} {x : HopRef} (placed : ∀ r, (s.route r).placed)
    (route : (s.carrier c).route = some x.route) (defined : (s.route x.route).defined = true)
    (low : (s.route x.route).firstHop.val ≤ x.hop.val) : FloorOk (s.moveCursorPast c x) := by
  refine f.replaced (.moveCursorPast ..) (fun d e => carrier_moveCursorPast_of_ne s x e) ?_ (fun k => by rw [moveCursorPast_only]; rfl)
    (placeOk_moveCursorPast placed route defined low)
  obtain ⟨r, i, n, moved⟩ := carrier_moveCursorPast s c x
  rw [moved]

/-- The cursor moves past a claim set that lies on its carrier's route (R78, R92). -/
theorem FloorOk.moveCursorPastSet {s : State} (f : FloorOk s) {c : CarrierId} {set : List HopRef} (placed : ∀ r, (s.route r).placed)
    (lies : ∀ x ∈ set, (s.carrier c).route = some x.route ∧ (s.route x.route).defined = true ∧ (s.route x.route).firstHop.val ≤ x.hop.val) :
    FloorOk (s.moveCursorPastSet c set) := by
  unfold State.moveCursorPastSet
  split
  · exact f
  · next x last =>
    obtain ⟨route, defined, low⟩ := lies x (List.mem_of_getLast? last)
    exact f.moveCursorPast placed route defined low

/-- A carrier takes a defined route after one of its hops (R40–R42, R61, R66). -/
theorem FloorOk.takeRoute {s : State} (f : FloorOk s) (c : CarrierId) {r : RouteId} {h : HopIdx} (placed : ∀ r, (s.route r).placed)
    (defined : (s.route r).defined = true) (low : (s.route r).firstHop.val ≤ h.val) : FloorOk (s.takeRoute c r h) := by
  have taken := routeTaken s c r h
  refine f.replaced (.takeRoute ..) taken.others (by rw [taken.carrier]) (fun k => by rw [taken.rest]; rfl) ?_
  have record : ∀ q, ∃ n, ((s.dropUserOf (s.carrier c).route).addUser r).route q = { s.route q with users := n } := fun q =>
    ⟨_, by rw [users_addUser, users_dropUserOf]⟩
  unfold State.takeRoute
  generalize (s.dropUserOf (s.carrier c).route).addUser r = t at record ⊢
  have framed : ∀ g q, (t.modCarrier c g).route q = t.route q := fun _ _ => rfl
  refine placeOk_moveCursorPast (fun q => ?_) (by rw [carrier_modCarrier_self]) ?_ ?_
  all_goals rw [framed]
  · obtain ⟨n, e⟩ := record q; rw [e]; exact placed q
  · obtain ⟨n, e⟩ := record r; rw [e]; exact defined
  · obtain ⟨n, e⟩ := record r; rw [e]; exact low

/-! ## Zones taken and given up -/

/-- Zones that a carrier takes, and of whose corridors it becomes an occupant; its route may be left. -/
structure ZonesTaken (s t : State) (c : CarrierId) (zs : List ZoneId) : Prop where
  mode : t.mode = s.mode
  zones : t.zones = s.zones
  hops : t.hops = s.hops
  route : ∀ r, (t.route r).defined = (s.route r).defined ∧ (t.route r).firstHop = (s.route r).firstHop ∧ (t.route r).hopCount = (s.route r).hopCount
  place : ((t.carrier c).route = (s.carrier c).route ∧ (t.carrier c).cursor = (s.carrier c).cursor) ∨ (t.carrier c).route = none
  held : ((t.carrier c).held.map (·.zone)).Perm ((s.carrier c).held.map (·.zone) ++ zs)
  others : ∀ d, d ≠ c → t.carrier d = s.carrier d
  occ : ∀ k d, (∃ o ∈ (t.cst k).occupants, o.slot = d) ↔
    (d = c ∧ ∃ z ∈ zs, s.corridorOfZone z = some k) ∨ ∃ o ∈ (s.cst k).occupants, o.slot = d

/-- An entry of a mapped list with a property is the image of an entry. -/
theorem exists_mem_map_iff {α β : Type} {f : α → β} {l : List α} {p : β → Prop} : (∃ b ∈ l.map f, p b) ↔ ∃ a ∈ l, p (f a) := by
  constructor
  · rintro ⟨b, m, holds⟩
    obtain ⟨a, ma, rfl⟩ := List.mem_map.1 m
    exact ⟨a, ma, holds⟩
  · rintro ⟨a, m, holds⟩
    exact ⟨f a, List.mem_map_of_mem m, holds⟩

/-- A carrier that holds a zone of a corridor, told by the zones it holds. -/
theorem heldIn_iff (s : State) (l : List HeldEntry) (k : CorridorId) :
    (∃ e ∈ l, s.corridorOfZone e.zone = some k) ↔ ∃ z ∈ l.map (·.zone), s.corridorOfZone z = some k :=
  (exists_mem_map_iff (f := fun e : HeldEntry => e.zone) (p := fun z => s.corridorOfZone z = some k)).symm

/-- The floor stands where a carrier takes zones that are defined and that it did not hold (R22, R56). -/
theorem FloorOk.taken {s t : State} (f : FloorOk s) {c : CarrierId} {zs : List ZoneId} (k : ZonesTaken s t c zs)
    (defined : ∀ z ∈ zs, (s.zone z).defined = true) (fresh : ∀ z ∈ zs, s.holds c z = false) (apart : zs.Nodup) : FloorOk t where
  routes := routes_of k.mode k.zones k.hops k.route f
  current d r e := by
    obtain ⟨def', first, count⟩ := k.route r
    rw [def', first, count]
    by_cases own : d = c
    · subst own
      rcases k.place with ⟨route, cursor⟩ | left
      · rw [route] at e; rw [cursor]; exact f.current d r e
      · rw [left] at e; cases e
    · rw [k.others d own] at e ⊢; exact f.current d r e
  held d e m := by
    rw [zone_of k.zones]
    by_cases own : d = c
    · subst own
      rcases List.mem_append.1 (k.held.mem_iff.1 (List.mem_map_of_mem m)) with old | new
      · obtain ⟨e', m', same⟩ := List.mem_map.1 old
        rw [← same]; exact f.held d e' m'
      · exact defined _ new
    · rw [k.others d own] at m; exact f.held d e m
  once d := by
    by_cases own : d = c
    · subst own
      refine k.held.nodup_iff.2 (List.nodup_append.2 ⟨f.once d, apart, fun z old w new same => ?_⟩)
      obtain ⟨e, m, rfl⟩ := List.mem_map.1 old
      have unheld := fresh w new
      unfold State.holds at unheld
      rw [List.any_eq_false] at unheld
      exact unheld e m (by simp [same])
    · rw [k.others d own]; exact f.once d
  occupants j d := by
    rw [k.occ, f.occupants]
    simp only [corridorOfZone_of k.zones]
    by_cases own : d = c
    · subst own
      rw [heldIn_iff s (t.carrier d).held, heldIn_iff s (s.carrier d).held]
      simp only [k.held.mem_iff, List.mem_append, or_and_right, exists_or, true_and]
      exact or_comm
    · rw [k.others d own]
      simp only [own, false_and, false_or]

/-- A zone given up, as the floor reads it. -/
structure ZoneGiven (s t : State) (c : CarrierId) (z : ZoneId) : Prop where
  mode : t.mode = s.mode
  zones : t.zones = s.zones
  hops : t.hops = s.hops
  routes : t.routes = s.routes
  carrier : t.carrier c = { s.carrier c with held := (s.carrier c).held.filter (fun e => e.zone != z) }
  others : ∀ d, d ≠ c → t.carrier d = s.carrier d
  cst : ∀ k, t.cst k = s.cst k

theorem zoneGiven (s : State) (c : CarrierId) (z : ZoneId) :
    ZoneGiven s ((s.modCarrier c (fun r => { r with held := r.held.filter (fun e => e.zone != z) })).setHolder z none) c z := by
  have base : ZoneGiven s (s.modCarrier c (fun r => { r with held := r.held.filter (fun e => e.zone != z) })) c z :=
    ⟨rfl, rfl, rfl, rfl, carrier_modCarrier_self .., fun d e => carrier_modCarrier_of_ne s _ e, fun _ => rfl⟩
  generalize s.modCarrier c (fun r => { r with held := r.held.filter (fun e => e.zone != z) }) = t at base ⊢
  rw [setHolder_only]
  exact { base with }

/-- The floor stands where a zone is given up and each corridor's occupants follow. -/
theorem FloorOk.given {s t u : State} (f : FloorOk s) {c : CarrierId} {z : ZoneId} (g : ZoneGiven s t c z) {cst : Vector CorridorState 32}
    (only : u = { t with corridorStates := cst })
    (occ : ∀ k d, (∃ o ∈ (u.cst k).occupants, o.slot = d) ↔ ∃ e ∈ (t.carrier d).held, s.corridorOfZone e.zone = some k) : FloorOk u := by
  have zones : u.zones = s.zones := by rw [only]; exact g.zones
  have carrier : ∀ d, u.carrier d = t.carrier d := fun d => by rw [only]; rfl
  have routes : ∀ r, u.route r = s.route r := fun r => by unfold State.route; rw [only, ← g.routes]
  exact {
    routes := routes_of (by rw [only]; exact g.mode) zones (by rw [only]; exact g.hops) (fun r => by rw [routes]; exact ⟨rfl, rfl, rfl⟩) f
    current := fun d r e => by
      rw [carrier] at e ⊢
      rw [routes]
      by_cases own : d = c
      · subst own; rw [g.carrier] at e ⊢; exact f.current d r e
      · rw [g.others d own] at e ⊢; exact f.current d r e
    held := fun d e m => by
      rw [carrier] at m
      rw [zone_of zones]
      by_cases own : d = c
      · subst own; rw [g.carrier] at m; exact f.held d e (List.mem_filter.1 m).1
      · rw [g.others d own] at m; exact f.held d e m
    once := fun d => by
      rw [carrier]
      by_cases own : d = c
      · subst own; rw [g.carrier]; exact (f.once d).sublist (List.filter_sublist.map _)
      · rw [g.others d own]; exact f.once d
    occupants := fun k d => by
      rw [carrier]
      simp only [corridorOfZone_of zones]
      exact occ k d }

/-- Giving up a zone takes a carrier out of no corridor but the zone's own, and out of that with its last zone of it (R29). -/
theorem ZoneGiven.holdsIn {s t : State} {c : CarrierId} {z : ZoneId} (g : ZoneGiven s t c z) {k : CorridorId} {d : CarrierId}
    (still : d = c → s.corridorOfZone z = some k → t.holdsInCorridor c k = true) :
    (∃ e ∈ (t.carrier d).held, s.corridorOfZone e.zone = some k) ↔ ∃ e ∈ (s.carrier d).held, s.corridorOfZone e.zone = some k := by
  by_cases own : d = c
  · subst own
    constructor
    · rintro ⟨e, m, at'⟩
      rw [g.carrier] at m
      exact ⟨e, (List.mem_filter.1 m).1, at'⟩
    · rintro ⟨e, m, at'⟩
      by_cases same : e.zone = z
      · have still := still rfl (same ▸ at')
        unfold State.holdsInCorridor at still
        obtain ⟨e', m', at''⟩ := List.any_eq_true.1 still
        exact ⟨e', m', by rw [← corridorOfZone_of g.zones]; exact beq_iff_eq.1 at''⟩
      · rw [g.carrier]
        exact ⟨e, List.mem_filter.2 ⟨m, bne_iff_ne.2 same⟩, at'⟩
  · rw [g.others d own]

/-- A zone given up: its corridor is left with the last zone of it (R22, R29). -/
theorem FloorOk.giveUp {s : State} (f : FloorOk s) (c : CarrierId) (z : ZoneId) :
    FloorOk (((s.modCarrier c (fun r => { r with held := r.held.filter (fun e => e.zone != z) })).setHolder z none).leaveZoneCorridor c z).1 := by
  have g := zoneGiven s c z
  generalize (s.modCarrier c (fun r => { r with held := r.held.filter (fun e => e.zone != z) })).setHolder z none = t at g ⊢
  unfold State.leaveZoneCorridor
  rw [corridorOfZone_of g.zones]
  split
  · next free =>
    exact f.given g (cst := t.corridorStates) rfl fun k d => by
      rw [g.cst, f.occupants]
      exact (g.holdsIn fun _ at' => by rw [free] at at'; cases at').symm
  · next k own =>
    split
    · next still =>
      exact f.given g (cst := t.corridorStates) rfl fun j d => by
        rw [g.cst, f.occupants]
        exact (g.holdsIn fun _ at' => by rw [own] at at'; cases at'; exact still).symm
    · next last =>
      refine f.given g (t := t) rfl fun j d => ?_
      rw [cst_setCst]
      split
      · next same =>
        subst same
        rw [occ_leave, g.cst, f.occupants]
        by_cases leaver : d = c
        · subst leaver
          refine iff_of_false (fun h => h.1 rfl) fun ⟨e, m, at'⟩ => last ?_
          unfold State.holdsInCorridor
          exact List.any_eq_true.2 ⟨e, m, by rw [corridorOfZone_of g.zones]; exact beq_iff_eq.2 at'⟩
        · rw [← g.holdsIn fun e => absurd e leaver]
          exact and_iff_right leaver
      · next other =>
        rw [g.cst, f.occupants]
        exact (g.holdsIn fun _ at' => absurd (Option.some.inj (at'.symm.trans own)) other).symm

/-- A PENDING hold taken (R91). -/
theorem FloorOk.pendHold {s : State} (f : FloorOk s) {c : CarrierId} {x : HopRef} (lies : SetLies s c (s.nextSet c)) (mem : x ∈ s.nextSet c)
    (fresh : s.holds c (s.hopZone x.hop) = false) : FloorOk (s.pendHold c (s.nextSet c) x) := by
  have p := pendTaken s c (s.nextSet c) x
  refine f.taken (zs := [s.hopZone x.hop]) ⟨p.frame.mode, p.frame.zones, p.frame.hops, routeSame p.frame, .inl ?_, ?_, p.others, fun k d => ?_⟩ ?_ ?_
    (List.pairwise_singleton _ _)
  · rw [p.carrier]; exact ⟨rfl, rfl⟩
  · rw [p.carrier, List.map_append]; exact .refl _
  · rw [p.corridors]
    simp only [List.mem_singleton, exists_eq_left]
    split
    · next at' => rw [occ_enter, and_iff_left at']
    · next away => rw [iff_false_intro (fun h : d = c ∧ _ => away h.2), false_or]
  · simpa using lies.defined x mem
  · simpa using fresh

/-- A claim set entered in the held list and in the corridors, the cursor not yet moved (R78). -/
theorem FloorOk.grantSet {s : State} (f : FloorOk s) {c : CarrierId} {set : List HopRef} (placed : ∀ r, (s.route r).placed)
    (lies : SetLies s c set) (fresh : ∀ x ∈ set, s.holds c (s.hopZone x.hop) = false) : FloorOk (s.grantSet c set) := by
  have entered := entered_all c (fun x => (⟨s.hopZone x.hop, .granted, some x⟩ : HeldEntry)) set s
  unfold State.grantSet
  dsimp only
  generalize set.foldl (fun t x => t.enterHeld c ⟨s.hopZone x.hop, .granted, some x⟩) s = t at entered ⊢
  have corridors := fun k => entered_corridors c (s.setCorridors c set) (setCorridors_nodup s c set) t k
  generalize (s.setCorridors c set).foldl (fun u (k, d) => u.enterCorridor c k d) t = u at corridors ⊢
  have only := (corridors 0).2
  have carrier : ∀ d, u.carrier d = t.carrier d := fun d => by rw [only]; rfl
  have route : ∀ r, u.route r = s.route r := fun r => by rw [only, entered.rest]; rfl
  have cst : ∀ k, t.cst k = s.cst k := fun k => by rw [entered.rest]; rfl
  have taken : ZonesTaken s u c (set.map fun x => s.hopZone x.hop) := {
    mode := by rw [only, entered.rest]
    zones := by rw [only, entered.rest]
    hops := by rw [only, entered.rest]
    route := fun r => by rw [route]; exact ⟨rfl, rfl, rfl⟩
    place := .inl (by rw [carrier, entered.carrier]; exact ⟨rfl, rfl⟩)
    held := by rw [carrier, entered.carrier, List.map_append, List.map_map]; exact .refl _
    others := fun d e => by rw [carrier, entered.others d e]
    occ := fun k d => by
      rw [exists_mem_map_iff]
      rw [(corridors k).1, find_setCorridors]
      by_cases at' : ∃ x ∈ set, s.corridorOfZone (s.hopZone x.hop) = some k
      · rw [if_pos at']
        dsimp only
        rw [occ_enter, cst, and_iff_left at']
      · rw [if_neg at']
        dsimp only
        rw [cst, iff_false_intro (fun h : d = c ∧ _ => at' h.2), false_or] }
  have held : FloorOk u := f.taken taken (by simpa using lies.defined) (by simpa using fresh) lies.apart
  have moved := held.moveCursorPastSet (c := c) (set := set) (fun r => by rw [route]; exact placed r) fun x m => by
    obtain ⟨on, defined, low, -⟩ := lies.on x m
    rw [carrier, entered.carrier, route]
    exact ⟨on, defined, low⟩
  exact (moved.seen (.breakWatch _ c)).seen (.settle _ c)

/-- A whole set: the PENDING zones become GRANTED and the cursor moves past them (R92). -/
theorem FloorOk.wholeSet {s : State} (f : FloorOk s) {c : CarrierId} {set : List HopRef} (placed : ∀ r, (s.route r).placed)
    (lies : SetLies s c set) : FloorOk (s.wholeSet c set) := by
  have granted : FloorOk (s.modCarrier c (fun r => { r with held := r.held.map (fun e => { e with status := .granted }) })) :=
    f.seen (.modCarrier s c _ (.inl ⟨rfl, rfl⟩) (by rw [List.map_map]; exact .refl _))
  have moved := granted.moveCursorPastSet (c := c) (set := set) placed fun x m => by
    obtain ⟨on, defined, low, -⟩ := lies.on x m
    rw [carrier_modCarrier_self]
    exact ⟨on, defined, low⟩
  unfold State.wholeSet
  dsimp only
  generalize State.moveCursorPastSet _ c set = t at moved ⊢
  have freed : FloorOk { t with pinToken := none } := moved.seen (.same rfl rfl rfl rfl rfl fun _ => rfl)
  exact (freed.seen (.breakWatch _ c)).seen (.settle _ c)

/-- A zone given to a carrier that is taken for trespass (R133). -/
theorem FloorOk.giveZone {s : State} (f : FloorOk s) (c : CarrierId) (z : ZoneId) (atRear : Bool) (defined : (s.zone z).defined = true)
    (fresh : s.holds c z = false) : FloorOk (s.giveZone c z atRear) := by
  unfold State.giveZone
  dsimp only
  have admitted := admitted_one (s.modCarrier c (fun r => { r with
    held := if atRear then (⟨z, .granted, none⟩ : HeldEntry) :: r.held else r.held ++ [⟨z, .granted, none⟩] })) c z
  unfold State.admitZone at admitted
  refine f.taken (c := c) (zs := [z]) ⟨admitted.mode, admitted.zones, admitted.hops, fun r => ?_, .inl ?_, ?_, fun d e => ?_, admitted.occ⟩
    (by simpa using defined) (by simpa using fresh) (List.pairwise_singleton _ _)
  · unfold State.route; rw [admitted.routes]; exact ⟨rfl, rfl, rfl⟩
  all_goals rw [carrier_of_carriers admitted.carriers]
  · rw [carrier_modCarrier_self]; exact ⟨rfl, rfl⟩
  · rw [carrier_modCarrier_self]
    cases atRear
    · show (List.map _ (_ ++ _)).Perm _
      rw [List.map_append]; exact .refl _
    · exact (List.perm_append_singleton _ _).symm
  · exact carrier_modCarrier_of_ne s _ e

end Sys2Proof.Machine
end

section
/-! SUPPORT. The floor and what it leans on, through each of the part's operations (R46, R62, R66 to R68, R133, R134). -/

namespace Sys2Proof.Machine

/-! ## What the floor leans on -/

theorem PartClosed.and {P Q : State → Prop} (H : PartClosed P) (K : PartClosed Q) : PartClosed (fun s => P s ∧ Q s) where
  toReleaseClosed := H.toReleaseClosed.and K.toReleaseClosed
  outside h k := ⟨H.outside h.1 k, K.outside h.2 k⟩
  touch c f h k := ⟨H.touch c f h.1 k, K.touch c f h.2 k⟩
  setValidator c x h i n := ⟨H.setValidator c x h.1 i n, K.setValidator c x h.2 i n⟩
  setReport c r h := ⟨H.setReport c r h.1, K.setReport c r h.2⟩
  dequeue c h w := ⟨H.dequeue c h.1 w, K.dequeue c h.2 w⟩
  park c x h v e := ⟨H.park c x h.1 v e, K.park c x h.2 v e⟩
  advance c h v m := ⟨H.advance c h.1 v m, K.advance c h.2 v m⟩
  vacate c h e r := ⟨H.vacate c h.1 e r, K.vacate c h.2 e r⟩
  detach c h := ⟨H.detach c h.1, K.detach c h.2⟩
  dropUser c r h v := ⟨H.dropUser c r h.1 v, K.dropUser c r h.2 v⟩
  moveCursor c x h v := ⟨H.moveCursor c x h.1 v, K.moveCursor c x h.2 v⟩
  grantOne c z h := ⟨H.grantOne c z h.1, K.grantOne c z h.2⟩
  giveZone c z b h v f n k r := ⟨H.giveZone c z b h.1 v f n k r, K.giveZone c z b h.2 v f n k r⟩
  rearFirst c h := ⟨H.rearFirst c h.1, K.rearFirst c h.2⟩
  enrol c f r h g := ⟨H.enrol c f r h.1 g, K.enrol c f r h.2 g⟩
  layZone slot w z new h g := ⟨H.layZone slot w z new h.1 g, K.layZone slot w z new h.2 g⟩
  addPair x y h n f a b k := ⟨H.addPair x y h.1 n f a b k, K.addPair x y h.2 n f a b k⟩
  removePair x y h n := ⟨H.removePair x y h.1 n, K.removePair x y h.2 n⟩
  setCorridor k d q h a b := ⟨H.setCorridor k d q h.1 a b, K.setCorridor k d q h.2 a b⟩
  setRoute r w x h u e := ⟨H.setRoute r w x h.1 u e, K.setRoute r w x h.2 u e⟩
  setHop i x h := ⟨H.setHop i x h.1, K.setHop i x h.2⟩
  fieldsFollow read h := ⟨H.fieldsFollow read h.1, K.fieldsFollow read h.2⟩
  clearReached f i h := ⟨H.clearReached f i h.1, K.clearReached f i h.2⟩
  setParameters a b c h h1 h2 h3 h4 h5 h6 := ⟨H.setParameters a b c h.1 h1 h2 h3 h4 h5 h6, K.setParameters a b c h.2 h1 h2 h3 h4 h5 h6⟩
  toService h a := ⟨H.toService h.1 a, K.toService h.2 a⟩
  toSafe h a := ⟨H.toSafe h.1 a, K.toSafe h.2 a⟩
  restart x h := ⟨H.restart x h.1, K.restart x h.2⟩
  powerOn x h := ⟨H.powerOn x h.1, K.powerOn x h.2⟩

/-- What the floor leans on: holders and held lists agree, the users counts are right, and the tables are in range. -/
def Grounded (s : State) : Prop := HoldersOk s ∧ UsersOk s ∧ TablesInRange s

theorem grounded_part : PartClosed Grounded := HoldersOk.part.and (UsersOk.part.and TablesInRange.part)

theorem Grounded.placed {s : State} (g : Grounded s) (r : RouteId) : (s.route r).placed := by
  obtain ⟨-, -, tables⟩ := g
  obtain ⟨low, -, high⟩ := tables.hops r
  exact ⟨low, high⟩

theorem Grounded.enterState {s : State} (g : Grounded s) (c : CarrierId) {x : CarrierState} (new : x ≠ .vacant := by decide) :
    Grounded (s.enterState c x) := ⟨g.1.enterState c new, g.2.1.enterState c new, { g.2.2 with }⟩

/-- The floor, with what it leans on. -/
structure FloorStands (s : State) : Prop where
  ground : Grounded s
  floor : FloorOk s

theorem FloorStands.seen {s t : State} (h : FloorStands s) (g : Grounded t) (k : FloorSeen s t) : FloorStands t := ⟨g, h.floor.seen k⟩

/-! ## Passes and releases -/

/-- Every pass and every release keeps the floor (R71, R78, R91, R92). -/
theorem FloorStands.leave : LeaveClosed (fun _ => True) FloorStands where
  queued _ := ⟨fun _ _ _ => trivial, fun _ _ _ => trivial, fun _ _ => trivial⟩
  breakWatch c h := h.seen (grounded_part.breakWatch c h.ground) (.breakWatch _ c)
  waitOn c w d h x a n := h.seen (grounded_part.toStep.waitOn c w d h.ground x a n) (.waitOn _ c w d)
  settle c h x := h.seen (grounded_part.toStep.settle c h.ground x) (.settle _ c)
  endPass c h x := h.seen (grounded_part.toStep.endPass c h.ground x) (.endPass _ c)
  routeEnds c h x a := h.seen (grounded_part.toStep.routeEnds c h.ground x a) (.routeEnds _ c)
  undirectAll c h := h.seen (grounded_part.toStep.undirectAll c h.ground) (.undirectAll _ c)
  grantSet c h x a m e t n l := ⟨grounded_part.toStep.grantSet c h.ground x a m e t n l,
    h.floor.grantSet h.ground.placed (nextSet_lies h.floor h.ground.placed m c) n⟩
  pendHold c x h y a m p i t n l := ⟨grounded_part.toStep.pendHold c x h.ground y a m p i t n l,
    h.floor.pendHold (nextSet_lies h.floor h.ground.placed m c) i n⟩
  wholeSet c h x a m p e := ⟨grounded_part.toStep.wholeSet c h.ground x a m p e,
    h.floor.wholeSet h.ground.placed (nextSet_lies h.floor h.ground.placed m c)⟩
  giveUp c z h g := ⟨grounded_part.toStep.giveUp c z h.ground g, h.floor.giveUp c z⟩

/-- What lies beside the tables, and what of a carrier's record a report or a command's answer rests on, the floor does not read. -/
theorem FloorStands.outside : OutsideClosed FloorStands where
  outside h k := h.seen (grounded_part.outside h.ground k) (.same k.mode k.zones k.hops k.routes k.carriers fun x => by
    unfold State.cst; rw [k.corridorStates])
  touch c f h k := h.seen (grounded_part.touch c f h.ground k) (.modCarrier _ c f (.inl ⟨k.route _, k.cursor _⟩) (by rw [k.held]))

section
variable {s : State} {c : CarrierId}

theorem FloorStands.dequeueIf (h : FloorStands s) (c : CarrierId) :
    FloorStands (if (s.carrier c).state = .waiting then (s.leaveQueue c).clearWait c else s) := by
  split
  · next e => exact h.seen (grounded_part.dequeue c h.ground e) (.dequeue s c)
  · exact h

theorem FloorStands.enterState (h : FloorStands s) (c : CarrierId) {x : CarrierState} (new : x ≠ .vacant := by decide) :
    FloorStands (s.enterState c x) := h.seen (h.ground.enterState c new) (.enterState s c x)

/-- A claim left: its PENDING zones are given up, and the token (R90). -/
theorem FloorStands.leaveClaim (h : FloorStands s) (c : CarrierId) : FloorStands (s.leaveClaim c) := by
  unfold State.leaveClaim
  split
  · have released := FloorStands.leave.releaseAll c (((s.carrier c).held.filter (fun e => e.status == .pending)).reverse.map (·.zone)) h
    exact released.seen (grounded_part.freeToken released.ground) (.same rfl rfl rfl rfl rfl fun _ => rfl)
  · exact h

theorem FloorStands.detachUndirect (h : FloorStands s) (c : CarrierId) :
    FloorStands (if (s.carrier c).route.isSome then (s.detachRoute c).undirect c else s) := by
  split
  · exact FloorStands.leave.undirect c (h.seen (grounded_part.detach c h.ground) (.detach s c))
  · exact h

/-! ## Faults -/

/-- A zone frozen: one that the carrier holds becomes GRANTED, one that may be given is given (R133). -/
theorem FloorStands.freezeZone (h : FloorStands s) (present : (s.carrier c).state ≠ .vacant) (z : ZoneId) (atRear : Bool) :
    FloorStands (s.freezeZone c z atRear) := by
  refine ⟨grounded_part.freezeZone c z atRear h.ground present, ?_⟩
  unfold State.freezeZone
  split
  · refine h.floor.seen (.modCarrier s c _ (.inl ⟨rfl, rfl⟩) ?_)
    rw [List.map_map, List.map_congr_left fun e _ => ?_]
    dsimp only [Function.comp_apply]
    split <;> rfl
  · next unheld =>
    split
    · next may =>
      unfold State.givable at may
      simp only [Bool.and_eq_true] at may
      obtain ⟨⟨⟨defined, -⟩, -⟩, -⟩ := may
      exact h.floor.giveZone c z atRear defined (Bool.eq_false_iff.2 unheld)
    · exact h.floor

theorem FloorStands.freeze (h : FloorStands s) (present : (s.carrier c).state ≠ .vacant) : FloorStands (s.freeze c) := by
  have rear : FloorStands (s.freezeRear c) := by
    unfold State.freezeRear
    split
    · split
      · exact h
      · exact h.freezeZone present _ _
    · exact h
  unfold State.freeze State.freezeFront
  split
  · exact rear.freezeZone (by rw [state_freezeRear]; exact present) _ _
  · exact rear

/-- A first fault, step by step (R133, R134). -/
theorem FloorStands.firstFault (h : FloorStands s) (k : FaultKind) (present : (s.carrier c).state ≠ .vacant) : FloorStands (s.firstFault c k) := by
  have outside := FloorStands.outside
  unfold State.firstFault
  dsimp only
  have dequeued := (outside.capture c k h).dequeueIf c
  have present' : ((s.captureFault c k).carrier c).state ≠ .vacant := by
    unfold State.captureFault; rw [state_modCarrier _ _ _ _ (by rfl)]; exact present
  rw [← dequeueIf_state _ c c] at present'
  generalize (if ((s.captureFault c k).carrier c).state = .waiting then ((s.captureFault c k).leaveQueue c).clearWait c else s.captureFault c k) = s2
    at dequeued present' ⊢
  have parked : FloorStands (s2.modCarrier c (fun r => { r with state := .faulted })) :=
    dequeued.seen (grounded_part.park c .faulted dequeued.ground present' (.inr rfl)) (.modCarrier s2 c _ (.inl ⟨rfl, rfl⟩) (.refl _))
  have state : ((s2.modCarrier c (fun r => { r with state := .faulted })).carrier c).state ≠ .vacant := by rw [carrier_modCarrier_self]; exact nofun
  generalize s2.modCarrier c (fun r => { r with state := .faulted }) = s3 at parked state ⊢
  have frozen : FloorStands (if k = .trespass then s3.freeze c else s3) ∧
      ((if k = .trespass then s3.freeze c else s3).carrier c).state ≠ .vacant := by
    split
    · exact ⟨parked.freeze state, by rw [state_freeze]; exact state⟩
    · exact ⟨parked, state⟩
  generalize (if k = .trespass then s3.freeze c else s3) = s4 at frozen ⊢
  obtain ⟨stands, there⟩ := frozen
  have released := FloorStands.leave.releaseAll c ((s4.leaveClaim c).faultReleases c) (stands.leaveClaim c)
  have still := (notVacant_closed c).releaseAll c ((s4.leaveClaim c).faultReleases c) ((notVacant_closed c).leaveClaim c there)
  generalize (s4.leaveClaim c).releaseAll c ((s4.leaveClaim c).faultReleases c) = s6 at released still ⊢
  have refrozen : FloorStands (if k = .trespass then (s6.freeze c).rearFirst c else s6) := by
    split
    · have again := released.freeze still
      exact again.seen (grounded_part.rearFirst c again.ground) (.rearFirst _ c)
    · exact released
  exact outside.applyPolicy c k (outside.flagFault c (outside.flagState c (FloorStands.leave.breakWatch c (refrozen.detachUndirect c))))

/-! ## Carrier commands -/

/-- Cancel (R62). -/
theorem FloorStands.cancel (h : FloorStands s) (c : CarrierId) : FloorStands (s.cancel c) := by
  unfold State.cancel
  dsimp only
  have dequeued := h.dequeueIf c
  generalize (if (s.carrier c).state = .waiting then (s.leaveQueue c).clearWait c else s) = s1 at dequeued ⊢
  have idle : FloorStands (if (s1.carrier c).state = .idle then s1 else s1.enterState c .idle) := by
    split
    · exact dequeued
    · exact dequeued.enterState c
  exact FloorStands.leave.releaseAll c _ (FloorStands.leave.breakWatch c ((idle.leaveClaim c).detachUndirect c))

theorem FloorStands.noFault (h : FloorStands s) (c : CarrierId) : FloorStands (s.modCarrier c (fun x => { x with fault := none })) :=
  FloorStands.outside.touch c _ h
    ⟨fun _ => rfl, fun _ => rfl, fun _ => rfl, fun _ => rfl, fun _ => rfl, fun _ => rfl, fun _ x => x, fun _ x => x⟩

/-- A fault cleared (R67). -/
theorem FloorStands.clearFaultOf (h : FloorStands s) (c : CarrierId) : FloorStands (s.clearFaultOf c) := by
  unfold State.clearFaultOf
  dsimp only
  have released : FloorStands (match s.rear c with
      | none => s
      | some r => s.releaseAll c (s.zonesBehind c r)) := by
    split
    · exact h
    · exact FloorStands.leave.releaseAll c _ h
  exact (released.noFault c).enterState c

/-- A carrier retired (R68). -/
theorem FloorStands.retire (h : FloorStands s) (idle : ¬s.active c) (present : (s.carrier c).state ≠ .vacant) (off : (s.carrier c).route = none) :
    FloorStands (s.retire c) := by
  refine ⟨grounded_part.toStep.retire c h.ground idle present off, ?_⟩
  unfold State.retire
  have released := (FloorStands.leave.releaseAll c ((s.carrier c).held.map (·.zone)) h).noFault c
  exact released.floor.seen (.enterState _ c _)

/-- A route replaced (R66). -/
theorem FloorStands.replace (h : FloorStands s) {r : RouteId} {i : HopIdx} (present : (s.carrier c).state ≠ .vacant)
    (defined : (s.route r).defined = true) (inRange : (s.route r).inRange i = true) : FloorStands (s.replace c r i) := by
  unfold State.replace
  dsimp only
  have dequeued := h.dequeueIf c
  have frame : EngineFrame s (if (s.carrier c).state = .waiting then (s.leaveQueue c).clearWait c else s) := by
    split
    · exact (EngineFrame.leaveQueue ..).trans (EngineFrame.clearWait ..)
    · exact .refl s
  rw [← dequeueIf_state s c c] at present
  generalize (if (s.carrier c).state = .waiting then (s.leaveQueue c).clearWait c else s) = s1 at dequeued frame present ⊢
  have left := dequeued.leaveClaim c
  have there := (notVacant_closed c).leaveClaim c present
  obtain ⟨def', first, -⟩ := routeSame (frame.trans (.leaveClaim s1 c)) r
  generalize s1.leaveClaim c = s2 at left there def' first ⊢
  have low : (s2.route r).firstHop.val ≤ i.val := by
    unfold RouteRecord.inRange at inRange
    simp only [Bool.and_eq_true, decide_eq_true_eq] at inRange
    rw [first]; exact inRange.1
  have taken : FloorStands (s2.takeRoute c r i) :=
    ⟨grounded_part.takeRoute c r i left.ground there, left.floor.takeRoute c left.ground.placed (def'.trans defined) low⟩
  have undirected := FloorStands.leave.undirect c taken
  generalize (s2.takeRoute c r i).undirect c = s3 at undirected ⊢
  have advancing : FloorStands (if (s3.carrier c).state = .advancing then s3 else s3.enterState c .advancing) := by
    split
    · exact undirected
    · exact undirected.enterState c
  exact FloorStands.leave.runPass c (FloorStands.leave.breakWatch c advancing) trivial

/-- A route assigned (R61). -/
theorem FloorStands.assign (h : FloorStands s) (r : RouteId) (service : s.mode = .service) (idle : (s.carrier c).state = .idle)
    (defined : (s.route r).defined = true) : FloorStands ((s.takeRoute c r (s.route r).firstHop).enterState c .advancing) :=
  ⟨grounded_part.toStep.assign c r h.ground service idle defined,
    (h.floor.takeRoute c h.ground.placed defined (Nat.le_refl _)).seen (.enterState _ c _)⟩

/-- A carrier admitted at zones that are defined and free (R59). -/
theorem FloorOk.enrol (f : FloorOk s) (holders : HoldersOk s) {front rear : ZoneId} (g : s.admitRefusal c front rear = none) :
    FloorOk (s.enrol c front rear) := by
  have vacant := vacant_of_admitRefusal g
  have empty := holders.vacant c vacant
  have defined : (s.zone front).defined = true ∧ (s.zone rear).defined = true := by
    unfold State.admitRefusal at g
    split at g
    · cases g
    split at g
    · cases g
    split at g
    · cases g
    · next d => simpa using d
  unfold State.enrol
  dsimp only
  generalize rows : (if front = rear then [(⟨front, .granted, none⟩ : HeldEntry)] else [⟨rear, .granted, none⟩, ⟨front, .granted, none⟩]) = held
  have zones : held.map (·.zone) = if front = rear then [front] else [rear, front] := by
    rw [← rows]; split <;> rfl
  have apart : (held.map (·.zone)).Nodup := by
    rw [zones]
    split
    · exact List.pairwise_singleton _ _
    · next n => simpa using fun e => n e.symm
  have stand : ∀ z ∈ held.map (·.zone), (s.zone z).defined = true := by
    rw [zones]
    intro z m
    split at m <;> simp only [List.mem_cons, List.not_mem_nil, or_false] at m
    · rw [m]; exact defined.1
    · rcases m with m | m <;> rw [m]
      · exact defined.2
      · exact defined.1
  have admitted := admitted_all c held (s.modCarrier c (fun r => r.admitted held))
  generalize held.foldl (fun t e => t.admitZone c e.zone) (s.modCarrier c (fun r => r.admitted held)) = t at admitted ⊢
  have taken : FloorOk t := by
    refine f.taken (c := c) (zs := held.map (·.zone)) ⟨admitted.mode, admitted.zones, admitted.hops, fun r => ?_, .inr ?_, ?_, fun d e => ?_, admitted.occ⟩
      stand (fun z _ => ?_) apart
    · unfold State.route; rw [admitted.routes]; exact ⟨rfl, rfl, rfl⟩
    · rw [carrier_of_carriers admitted.carriers, carrier_modCarrier_self]; rfl
    · rw [carrier_of_carriers admitted.carriers, carrier_modCarrier_self, empty]; exact .refl _
    · rw [carrier_of_carriers admitted.carriers]; exact carrier_modCarrier_of_ne s _ e
    · unfold State.holds; rw [empty]; rfl
  have ready : FloorOk (t.setValidator c { t.validator c with instability := 0, silence := 0 }) := taken.seen (.same rfl rfl rfl rfl rfl fun _ => rfl)
  exact (ready.seen (t := State.flagState _ c) (.modCarrier _ c _ (.inl ⟨rfl, rfl⟩) (.refl _))).seen (.breakWatch _ c)

end

end Sys2Proof.Machine
end

section
/-! SUPPORT. The floor through the writes of its tables and the changes of mode (R46, R47, R49 to R51). -/

namespace Sys2Proof.Machine

/-! ## Routes that pass the checks -/

/-- What SERVICE mode asks of a route's hops: their zones are defined, the last may be stopped at, and no passage names a zone twice (R46). -/
def RoutePasses (s : State) (r : RouteId) : Prop :=
  (∀ n < (s.route r).hopCount, (s.zone (s.routeZone r n)).defined = true) ∧ s.noStop (s.routeZone r ((s.route r).hopCount - 1)) = false ∧
  ∀ m n, m < n → n < (s.route r).hopCount → (∀ l, m ≤ l → l < n → s.noStop (s.routeZone r l) = true) → s.routeZone r m ≠ s.routeZone r n

/-- A route passes where its hops name the zones that they named, and those are what they were to it. -/
theorem RoutePasses.kept {s t : State} {r : RouteId} (h : RoutePasses s r) (placed : (s.route r).placed) (route : t.route r = s.route r)
    (hop : ∀ n < (s.route r).hopCount, t.routeZone r n = s.routeZone r n)
    (zone : ∀ n < (s.route r).hopCount, (t.zone (s.routeZone r n)).defined = (s.zone (s.routeZone r n)).defined ∧
      (t.zone (s.routeZone r n)).noStop = (s.zone (s.routeZone r n)).noStop) : RoutePasses t r := by
  obtain ⟨defined, last, apart⟩ := h
  unfold RouteRecord.placed at placed
  have noStop : ∀ n < (s.route r).hopCount, t.noStop (t.routeZone r n) = s.noStop (s.routeZone r n) := fun n l => by
    unfold State.noStop; rw [hop n l]; exact (zone n l).2
  unfold RoutePasses
  rw [route]
  refine ⟨fun n l => ?_, ?_, fun m n mn l nostop => ?_⟩
  · rw [hop n l, (zone n l).1]; exact defined n l
  · rw [noStop _ (by omega)]; exact last
  · rw [hop m (by omega), hop n l]
    exact apart m n mn l fun i low high => by rw [← noStop i (by omega)]; exact nostop i low high

/-- A route names a zone where one of its hops does. -/
theorem names_iff (s : State) (r : RouteId) (z : ZoneId) :
    (s.hopRange r).any (fun x => s.hopZone x.hop == z) = true ↔ ∃ n < (s.route r).hopCount, s.routeZone r n = z := by
  unfold State.hopRange
  rw [List.any_eq_true]
  constructor
  · rintro ⟨x, m, e⟩
    obtain ⟨n, l, rfl⟩ := List.mem_map.1 m
    exact ⟨n, List.mem_range.1 l, beq_iff_eq.1 e⟩
  · rintro ⟨n, l, e⟩
    exact ⟨_, List.mem_map.2 ⟨n, List.mem_range.2 l, rfl⟩, beq_iff_eq.2 e⟩

/-! ## Tables written -/

/-- The floor stands where tables are written, if routes in use stay, zones held stay what they were to their carriers, and in SERVICE
mode the routes pass. -/
theorem FloorOk.retabled {s t : State} (f : FloorOk s) (carriers : t.carriers = s.carriers) (cst : t.corridorStates = s.corridorStates)
    (used : ∀ c r, (s.carrier c).route = some r → t.route r = s.route r)
    (held : ∀ c, ∀ e ∈ (s.carrier c).held, (t.zone e.zone).defined = true ∧ t.corridorOfZone e.zone = s.corridorOfZone e.zone)
    (routes : t.mode = .service → ∀ r, (t.route r).defined = true → RoutePasses t r) : FloorOk t where
  routes := routes
  current c r e := by
    rw [carrier_of_carriers carriers] at e ⊢
    rw [used c r e]
    exact f.current c r e
  held c e m := by rw [carrier_of_carriers carriers] at m; exact (held c e m).1
  once c := by rw [carrier_of_carriers carriers]; exact f.once c
  occupants k c := by
    unfold State.cst
    rw [cst, carrier_of_carriers carriers]
    refine (f.occupants k c).trans (exists_congr fun e => and_congr_right fun m => ?_)
    rw [(held c e m).2]

/-- A zone that someone holds may not be written out of its place (R50). -/
theorem kept_of_zoneRefusal {s : State} {z : ZoneId} {new : ZoneRecord} (free : s.zoneRefusal z new = none) (old : (s.zone z).defined = true)
    (busy : s.zoneBusy z = true) : new.defined = true ∧ new.corridor = (s.zone z).corridor := by
  unfold State.zoneRefusal at free
  dsimp only at free
  rw [old, busy] at free
  cases def' : new.defined
  · rw [def'] at free; cases free
  · rw [def'] at free
    cases moves : new.movesLayout (s.zone z)
    · unfold ZoneRecord.movesLayout at moves
      simp only [Bool.or_eq_false_iff, bne_eq_false_iff_eq] at moves
      exact ⟨rfl, moves.1.2⟩
    · rw [moves] at free; cases free

/-- No defined route names a zone that may be written undefined (R50). -/
theorem unnamed_of_zoneRefusal {s : State} {z : ZoneId} {new : ZoneRecord} (free : s.zoneRefusal z new = none) (old : (s.zone z).defined = true)
    (gone : new.defined = false) {r : RouteId} (defined : (s.route r).defined = true) : ∀ n < (s.route r).hopCount, s.routeZone r n ≠ z := by
  unfold State.zoneRefusal at free
  dsimp only at free
  rw [old, gone] at free
  simp only [Bool.not_true, Bool.not_false, Bool.false_eq_true, if_false, if_true] at free
  split at free
  · cases free
  rw [Option.map_eq_none_iff] at free
  unfold State.routeNaming at free
  rw [List.find?_eq_none] at free
  intro n l e
  refine free r (List.mem_finRange r) ?_
  rw [defined, Bool.true_and]
  exact (names_iff s r z).2 ⟨n, l, e⟩

/-- A route that names a zone written otherwise is checked, in SERVICE mode (R51). -/
theorem routeCheck_of_zoneRouteCheck {s : State} {z : ZoneId} {new : ZoneRecord} (checked : s.zoneRouteCheck (s.setZone z new) z = none)
    (service : s.mode = .service) (old : (s.zone z).defined = true) (other : new.noStop ≠ (s.zone z).noStop) {r : RouteId}
    (defined : (s.route r).defined = true) (names : ∃ n < (s.route r).hopCount, s.routeZone r n = z) : (s.setZone z new).routeCheck r = none := by
  unfold State.zoneRouteCheck at checked
  dsimp only at checked
  rw [zone_setZone_self, if_pos ⟨service, old, .inl other⟩, List.findSome?_eq_none_iff] at checked
  have touched : r ∈ (s.setZone z new).routesTouching z := by
    unfold State.routesTouching
    refine List.mem_filter.2 ⟨List.mem_finRange r, ?_⟩
    dsimp only
    have named := (names_iff (s.setZone z new) r z).2 names
    have same : ((s.setZone z new).route r).defined = true := defined
    rw [same, named]
    rfl
  exact Option.map_eq_none_iff.1 (checked r touched)

/-- A Write Zone that the unit allows, as the floor reads it (R50, R51). -/
theorem FloorOk.setZone {s : State} (f : FloorOk s) (g : Grounded s) {z : ZoneId} {new : ZoneRecord} (free : s.zoneRefusal z new = none)
    (checked : s.zoneRouteCheck (s.setZone z new) z = none) : FloorOk (s.setZone z new) := by
  have holders : HoldersOk s := g.1
  refine f.retabled rfl rfl (fun _ _ _ => rfl) (fun c e m => ?_) fun service r defined => ?_
  · by_cases own : e.zone = z
    · have holder : s.holder z = some c := (holders.holder_iff z c).2 (by unfold State.holds; exact List.any_eq_true.2 ⟨e, m, beq_iff_eq.2 own⟩)
      have old : (s.zone z).defined = true := own ▸ f.held c e m
      obtain ⟨defined, corridor⟩ := kept_of_zoneRefusal free old (by unfold State.zoneBusy; rw [holder]; rfl)
      unfold State.corridorOfZone
      rw [own, zone_setZone_self, defined, corridor, old]
      exact ⟨rfl, rfl⟩
    · unfold State.corridorOfZone
      rw [zone_setZone, if_neg own]
      exact ⟨f.held c e m, rfl⟩
  · have passes : RoutePasses s r := f.routes service r defined
    have away (n : Nat) (ne : s.routeZone r n ≠ z) : (s.setZone z new).zone (s.routeZone r n) = s.zone (s.routeZone r n) := by
      rw [zone_setZone, if_neg ne]
    by_cases named : ∃ n < (s.route r).hopCount, s.routeZone r n = z
    · obtain ⟨n, l, at'⟩ := named
      have old : (s.zone z).defined = true := at' ▸ passes.1 n l
      have stays : new.defined = true := by
        refine Classical.byContradiction fun gone => ?_
        exact unnamed_of_zoneRefusal free old (Bool.eq_false_iff.2 gone) defined n l at'
      by_cases same : new.noStop = (s.zone z).noStop
      · refine passes.kept (g.placed r) rfl (fun _ _ => rfl) fun n _ => ?_
        by_cases own : s.routeZone r n = z
        · rw [own, zone_setZone_self, stays, old, same]; exact ⟨rfl, rfl⟩
        · rw [away n own]; exact ⟨rfl, rfl⟩
      · exact routeCheck_passes (g.placed r) (routeCheck_of_zoneRouteCheck checked service old same defined ⟨n, l, at'⟩)
    · exact passes.kept (g.placed r) rfl (fun _ _ => rfl) fun n l => by
        rw [away n fun e => named ⟨n, l, e⟩]; exact ⟨rfl, rfl⟩

theorem FloorOk.layZone {s : State} (f : FloorOk s) (g : Grounded s) (slot : MgmtSlot) {z : ZoneId} {new : ZoneRecord} (free : s.zoneRefusal z new = none)
    (checked : s.zoneRouteCheck (s.setZone z new) z = none) : FloorOk ((s.noteTableWrite slot).layZone z new) := by
  obtain ⟨a, b, noted⟩ := noteTableWrite_only s slot
  have written : FloorOk ((s.noteTableWrite slot).setZone z new) := by
    rw [noted]
    exact (f.setZone g free checked).seen (.same rfl rfl rfl rfl rfl fun _ => rfl)
  exact written.seen (layZone_seen ..)

/-- The floor does not read conflict lists. -/
theorem FloorOk.setConflicts {s : State} (f : FloorOk s) (g : Grounded s) (z : ZoneId) (l : List ZoneId) : FloorOk (s.setConflicts z l) := by
  have zone : ∀ w, ∃ m, (s.setConflicts z l).zone w = { s.zone w with conflicts := m } := fun w => by
    unfold State.setConflicts
    rw [zone_setZone]
    split
    · next e => rw [e]; exact ⟨_, rfl⟩
    · exact ⟨_, rfl⟩
  refine f.retabled rfl rfl (fun _ _ _ => rfl) (fun c e m => ?_) fun service r defined => ?_
  · obtain ⟨m', same⟩ := zone e.zone
    unfold State.corridorOfZone
    rw [same]
    exact ⟨f.held c e m, rfl⟩
  · have passes : RoutePasses s r := f.routes service r defined
    refine passes.kept (g.placed r) rfl (fun _ _ => rfl) fun n _ => ?_
    obtain ⟨m', same⟩ := zone (s.routeZone r n)
    rw [same]
    exact ⟨rfl, rfl⟩

/-- A route that no carrier uses may be written, in SERVICE mode if the new one passes (R47). -/
theorem FloorOk.setRoute {s : State} (f : FloorOk s) (g : Grounded s) {r : RouteId} {x : RouteRecord} (users : (s.route r).users = 0)
    (placed : x.placed) (checked : s.mode = .service → s.writeRouteCheck r x = none) : FloorOk (s.setRoute r x) := by
  have counts : UsersOk s := g.2.1
  refine f.retabled rfl rfl (fun c q e => ?_) (fun c e m => ⟨f.held c e m, rfl⟩) fun service q defined => ?_
  · rw [route_setRoute, if_neg fun own : q = r => users_none counts users c (own ▸ e)]
  · have record := route_setRoute s r q x
    by_cases own : q = r
    · subst own
      rw [if_pos rfl] at record
      have checked := checked service
      unfold State.writeRouteCheck at checked
      rw [record] at defined
      dsimp only at checked
      rw [if_pos defined] at checked
      unfold firstFailure at checked
      rw [List.findSome?_eq_none_iff] at checked
      exact routeCheck_passes (by rw [record]; exact placed) (checked _ (List.mem_cons_self ..))
    · rw [if_neg own] at record
      have passes : RoutePasses s q := f.routes service q (by rw [← record]; exact defined)
      refine passes.kept (g.placed q) record (fun n _ => ?_) fun _ _ => ⟨rfl, rfl⟩
      unfold State.routeZone
      rw [record]; rfl

/-- Hops may be written, in SERVICE mode if the routes they belong to pass (R49). -/
theorem FloorOk.writeHopsAt {s : State} (f : FloorOk s) (g : Grounded s) {start : Nat} {l : List Hop} (within : start + l.length ≤ 2048)
    (checked : s.mode = .service → (s.writeHopsAt start l).writeHopsCheck start l.length = none) : FloorOk (s.writeHopsAt start l) := by
  obtain ⟨written, only⟩ := hop_writeHopsAt l start within s
  generalize s.writeHopsAt start l = t at checked written only ⊢
  have zone : ∀ z, t.zone z = s.zone z := fun z => by rw [only]; rfl
  have route : ∀ r, t.route r = s.route r := fun r => by rw [only]; rfl
  refine f.retabled (by rw [only]) (by rw [only]) (fun _ _ _ => route _) (fun c e m => ?_) fun service r defined => ?_
  · unfold State.corridorOfZone
    rw [zone]
    exact ⟨f.held c e m, rfl⟩
  · have service : s.mode = .service := by rw [only] at service; exact service
    by_cases touched : (t.route r).overlaps start l.length = true
    · have checked := checked service
      unfold State.writeHopsCheck firstFailure at checked
      rw [List.findSome?_eq_none_iff] at checked
      refine routeCheck_passes (by rw [route]; exact g.placed r) (checked (t.routeCheck r) (List.mem_append_left _ (List.mem_map.2 ⟨r, ?_, rfl⟩)))
      exact List.mem_filter.2 ⟨List.mem_finRange r, by rw [defined, touched]; rfl⟩
    · have placed := g.placed r
      have passes : RoutePasses s r := f.routes service r (by rw [← route]; exact defined)
      refine passes.kept placed (route r) (fun n low => ?_) fun _ _ => by rw [zone]; exact ⟨rfl, rfl⟩
      unfold RouteRecord.placed at placed
      unfold RouteRecord.overlaps at touched
      rw [route] at touched
      simp only [Bool.and_eq_true, decide_eq_true_eq, Classical.not_and_iff_not_or_not, Nat.not_lt] at touched
      unfold State.routeZone State.hopZone
      rw [route, written]
      have val : (Fin.ofNat 2048 ((s.route r).firstHop.val + n)).val = (s.route r).firstHop.val + n := Nat.mod_eq_of_lt (by omega)
      rcases touched with after | before
      · rw [List.getElem?_eq_none (by omega)]; rfl
      · cases l[(Fin.ofNat 2048 ((s.route r).firstHop.val + n)).val - start]? with
        | none => rfl
        | some h => rw [Option.elim_some, if_neg (by omega)]

/-- Nobody on the floor, outside SERVICE mode. -/
theorem floorOk_of_cleared {t : State} (mode : t.mode ≠ .service) (carrier : ∀ c, t.carrier c = .cleared) (cst : ∀ k, t.cst k = .cleared) : FloorOk t where
  routes m := absurd m mode
  current c r e := by rw [carrier] at e; cases e
  held c e m := by rw [carrier] at m; cases m
  once c := by rw [carrier]; exact .nil
  occupants k c := by
    rw [carrier, cst]
    exact iff_of_false (fun ⟨_, m, _⟩ => nomatch m) fun ⟨_, m, _⟩ => nomatch m

/-! ## Every operation -/

/-- Every operation of the part keeps the floor, with what it leans on. -/
theorem FloorStands.step : StepClosed FloorStands where
  toLeaveClosed := FloorStands.leave
  toOutsideClosed := FloorStands.outside
  takeToken c h f t := h.seen (grounded_part.toStep.takeToken c h.ground f t) (.same rfl rfl rfl rfl rfl fun _ => rfl)
  setValidator c x h i n := h.seen (grounded_part.setValidator c x h.ground i n) (.same rfl rfl rfl rfl rfl fun _ => rfl)
  setReport c r h := h.seen (grounded_part.setReport c r h.ground) ((FloorSeen.modCarrier _ c _ (.inl ⟨rfl, rfl⟩) (.refl _)).trans (.recomputeHeld _ c))
  firstFault c k h v _ := h.firstFault k v
  enrol c f r h g := ⟨grounded_part.toStep.enrol c f r h.ground g, h.floor.enrol h.ground.1 g⟩
  assign c r h m i d := h.assign r m i d
  cancel c h _ _ := h.cancel c
  clearFaultOf c h _ := h.clearFaultOf c
  retire c h a v r := h.retire a v r
  replace c r i h _ v _ d n := h.replace v d n
  layZone slot w z new h g k := by
    obtain ⟨written, free, checks⟩ := g
    exact ⟨grounded_part.layZone slot w z new h.ground ⟨written, free, checks⟩, h.floor.layZone h.ground slot free k⟩
  addPair x y h n f a b k := ⟨grounded_part.addPair x y h.ground n f a b k,
    (h.floor.setConflicts h.ground x _).setConflicts ⟨{ h.ground.1 with }, { h.ground.2.1 with }, { h.ground.2.2 with }⟩ y _⟩
  removePair x y h n := ⟨grounded_part.removePair x y h.ground n,
    (h.floor.setConflicts h.ground x _).setConflicts ⟨{ h.ground.1 with }, { h.ground.2.1 with }, { h.ground.2.2 with }⟩ y _⟩
  setCorridor {s} k d q h a b := ⟨grounded_part.setCorridor k d q h.ground a b,
    (h.floor.seen (t := s.setCorridor k ⟨d, q⟩) (.same rfl rfl rfl rfl rfl fun _ => rfl)).seen (.setCst _ k _ (by
      unfold CorridorState.requota
      split <;> rfl))⟩
  setRoute r w x h u e k := by
    obtain ⟨low, -, high⟩ := hops_of_routeWriteRecord e
    exact ⟨grounded_part.setRoute r w x h.ground u e, h.floor.setRoute h.ground u ⟨low, high⟩ k⟩
  setHops n l h one within k := ⟨grounded_part.toStep.setHops n l h.ground one within k, h.floor.writeHopsAt h.ground within k⟩
  fieldsFollow {s} read h := ⟨grounded_part.fieldsFollow read h.ground,
    (h.floor.seen (OnlyFieldSlots.seen (filterInputs_only s read))).seen (OnlyZoneStates.seen (fieldsFollow_only ..))⟩
  clearReached {s} f i h := ⟨grounded_part.clearReached f i h.ground,
    (h.floor.seen (t := s.setInput f i _) (OnlyFieldSlots.seen ⟨rfl⟩)).seen (OnlyZoneStates.seen (fieldsFollow_only ..))⟩
  setParameters a b c h h1 h2 h3 h4 h5 h6 := h.seen (grounded_part.setParameters a b c h.ground h1 h2 h3 h4 h5 h6) (.same rfl rfl rfl rfl rfl fun _ => rfl)
  toService h a := ⟨grounded_part.toService h.ground a, h.floor.retabled rfl rfl (fun _ _ _ => rfl) (fun c e m => ⟨h.floor.held c e m, rfl⟩)
    fun _ r defined => (routeCheck_passes (h.ground.placed r) (audit_checks a r defined) : RoutePasses _ r)⟩
  toSafe h a := ⟨grounded_part.toSafe h.ground a, h.floor.retabled rfl rfl (fun _ _ _ => rfl) (fun c e m => ⟨h.floor.held c e m, rfl⟩) nofun⟩
  restart {s} x h := ⟨grounded_part.restart x h.ground, floorOk_of_cleared (by rw [(restart_fields s x).mode]; exact nofun)
    (restart_tables s x).carrier (restart_tables s x).cst⟩
  powerOn {s} x h := ⟨grounded_part.powerOn x h.ground, floorOk_of_cleared nofun (fun c => by rw [(powerOn_tables s x).carrier, reset_carrier])
    fun k => by rw [(powerOn_tables s x).cst, reset_cst]⟩

/-- Settles O60: each operation keeps the floor, together with the holders, the users counts and the tables in range that it leans on. -/
theorem everyStepKeepsFloorOk : Obligations.EveryStepKeepsFloorOk := by
  intro s t holders users ranges floor e
  obtain ⟨-, tables⟩ := (rangesOk_iff s).1 ranges
  exact (FloorStands.step.step ⟨⟨holders, users, tables⟩, floor⟩ e).floor

end Sys2Proof.Machine
end

section
/-! SUPPORT. The slot machines before a command, and what each reset leaves of the district and the field monitor (R160, R161, R172). -/

namespace Sys2Proof.Machine

/-! ## Steps and slot machines -/

/-- Settles O1: the step function matches on the queue. -/
theorem stepTakesTheFrontCommand : Obligations.StepTakesTheFrontCommand := by
  intro i rest s front
  unfold step
  rw [front]

/-- Settles O2: every command has a next state, and an empty queue is the step function's first case. -/
theorem noStepStops : Obligations.NoStepStops := by
  refine ⟨exec_next, fun s empty => ?_⟩
  unfold step
  rw [empty]

/-- A management command is what its slot machine takes of it (R161). -/
theorem exec_taken {i : Instr} {slot : MgmtSlot} (own : i.slotOf = some slot) :
    ∃ code body, ∀ s, exec i s = .next (takeCommand slot code s body) := by
  cases i <;> cases own <;> exact ⟨_, _, fun _ => rfl⟩

/-- Settles O3: a busy machine, or one that the reset pin holds, takes no command. -/
theorem aBusySlotDiscardsItsCommands : Obligations.ABusySlotDiscardsItsCommands := by
  intro i slot s own held
  obtain ⟨code, body, taken⟩ := exec_taken own
  rw [taken]
  rcases held with busy | asserted
  · rw [takeCommand_busy busy]
  · rw [takeCommand_reset asserted]

/-- Settles O4: each of the eight safety commands goes to a machine that answers it in the operator slot. -/
theorem safetyCommandsAreNotPermittedInTheOperatorSlot : Obligations.SafetyCommandsAreNotPermittedInTheOperatorSlot := by
  intro sector entry actions s ready
  have refused (code : Byte) (body : State → State × Reply) := congrArg (Host.Outcome.next (φ := Fault) (ρ := Refusal))
    (takeCommand_notPermitted (code := code) ready body)
  exact ⟨refused _ _, refused _ _, refused _ _, refused _ _, refused _ _, refused _ _, refused _ _, refused _ _⟩

/-! ## The resets, one by one (R149, R172) -/

theorem exec_resetPin {s : State} (released : s.resetPin = false) : exec .resetPin s = .next { s.restart .resetPin with resetPin := true } :=
  congrArg Host.Outcome.next (if_neg (ne_true_of_eq_false released))

/-- Settles O5: power-on, the pin's two edges, and the command, each by what its row does to the state. -/
theorem theThreeResetsComplete : Obligations.TheThreeResetsComplete := by
  intro straps s
  refine ⟨⟨s.powerOn straps, rfl, rfl, rfl, rfl, rfl, rfl, rfl⟩, fun released => ?_, fun asserted => congrArg Host.Outcome.next (if_pos asserted),
    fun asserted => congrArg Host.Outcome.next (if_pos asserted),
    fun released => congrArg Host.Outcome.next (if_neg (ne_true_of_eq_false released)), fun ready => ?_⟩
  · have kept := restart_fields s .resetPin
    rw [exec_resetPin released]
    generalize s.restart .resetPin = t at kept ⊢
    exact ⟨_, rfl, kept.cause, rfl, kept.districtCode, kept.straps, kept.stopLine, kept.pending⟩
  · have kept := restart_fields s .resetCommand
    rw [exec_reset ready, State.commandReset]
    generalize s.restart .resetCommand = t at kept ⊢
    refine ⟨_, rfl, kept.cause, rfl, ?_, ?_, kept.straps, kept.stopLine, kept.resetPin.trans ready.1, kept.pending⟩
    · exact congrArg MgmtState.machine kept.safetySlot
    · exact congrArg MgmtState.machine kept.operatorSlot

/-! ## What a reset leaves of the district (R80, R93, R133, R138, R144, R148, R164, R165, R168, R170) -/

/-- The part's own fields as every reset leaves them. -/
structure DistrictCleared (t : State) : Prop where
  pinToken : t.pinToken = none
  holdWait : t.holdWait = []
  deadlock : t.deadlock = ⟨0, 0, []⟩
  districtHold : t.districtHold = .cleared
  linkFlag : t.linkFlag = false
  armLatch : t.armLatch = false
  stopMarker : t.stopMarker = false
  floorPort : t.floorPort = .cleared
  dispatchPort : t.dispatchPort = .cleared
  floorPartner : t.floorPartner = 0
  floorSent : t.floorSent = []
  dispatchSent : t.dispatchSent = []
  mgmt : ∀ slot, t.mgmt slot = .cleared
  mode : t.mode = .safe
  flags : t.flags = ⟨false, false, false, false, false, true⟩

/-- The parameters as a reset that keeps the configuration leaves them. -/
structure ParametersKept (s t : State) : Prop where
  policy : t.policy = s.policy
  silenceLimit : t.silenceLimit = s.silenceLimit
  clearPersistence : t.clearPersistence = s.clearPersistence
  starvationLimit : t.starvationLimit = s.starvationLimit
  masks : t.masks = s.masks

theorem powerOn_district (s : State) (straps : BitVec 4) : DistrictCleared (s.powerOn straps) := by
  refine ⟨rfl, rfl, rfl, rfl, rfl, rfl, rfl, rfl, rfl, rfl, rfl, rfl, fun slot => ?_, rfl, rfl⟩
  cases slot <;> rfl

theorem RestartFields.district {s t : State} {cause : ResetCause} (k : RestartFields s t cause) : DistrictCleared t :=
  { k with mgmt := fun slot => match slot with | .operator => k.operatorSlot | .safety => k.safetySlot }

theorem DistrictCleared.beside {t : State} (k : DistrictCleared t) (pin : Bool) (code : BitVec 4) :
    DistrictCleared { t with resetPin := pin, districtCode := code } := { k with }

theorem RestartFields.parameters {s t : State} {cause : ResetCause} (k : RestartFields s t cause) : ParametersKept s t := { k with }

theorem ParametersKept.beside {s t : State} (k : ParametersKept s t) (pin : Bool) (code : BitVec 4) :
    ParametersKept s { t with resetPin := pin, districtCode := code } := { k with }

theorem AfterPowerOn.eq {s t : State} (h : AfterPowerOn s t) : ∃ straps, t = s.powerOn straps := by
  obtain ⟨straps, run⟩ := h
  exact ⟨straps, (Host.Outcome.next.inj run).symm⟩

/-- A reset that keeps the configuration is a restart, but for the pin or the district code. -/
theorem AfterKeepingReset.eq {s t : State} (h : AfterKeepingReset s t) :
    t = { s.restart .resetPin with resetPin := true } ∨ t = { s.restart .resetCommand with districtCode := s.straps } := by
  rcases h with ⟨released, run⟩ | ⟨ready, run⟩
  · exact .inl (Host.Outcome.next.inj ((exec_resetPin released).symm.trans run)).symm
  · exact .inr (Host.Outcome.next.inj ((exec_reset ready).symm.trans run)).symm

theorem AfterKeepingReset.district {s t : State} (h : AfterKeepingReset s t) : DistrictCleared t := by
  rcases h.eq with e | e <;> rw [e]
  · exact (restart_fields s .resetPin).district.beside true _
  · exact (restart_fields s .resetCommand).district.beside _ s.straps

theorem AfterKeepingReset.parameters {s t : State} (h : AfterKeepingReset s t) : ParametersKept s t := by
  rcases h.eq with e | e <;> rw [e]
  · exact (restart_fields s .resetPin).parameters.beside true _
  · exact (restart_fields s .resetCommand).parameters.beside _ s.straps

theorem AfterReset.district {s t : State} (h : AfterReset s t) : DistrictCleared t := by
  rcases h with on | keeping
  · obtain ⟨straps, rfl⟩ := on.eq
    exact powerOn_district s straps
  · exact keeping.district

theorem AfterReset.sectorHold_cleared {s t : State} (h : AfterReset s t) (n : SectorId) : t.sectorHold n = .cleared := by
  rcases h with on | keeping
  · rw [on.tables.sectorHold, reset_sectorHold]
  · exact keeping.tables.sectorHold n

/-- Settles O10: each reset leaves the district cleared, power-on the parameters at their defaults, and a keeping reset as they stood. -/
theorem resetsOfTheDistrict : Obligations.ResetsOfTheDistrict := by
  intro s t
  refine ⟨fun reset => ?_, fun on => ?_, fun keeping => ?_⟩
  · have k := reset.district
    exact ⟨k.pinToken, k.holdWait, k.deadlock, k.districtHold, k.linkFlag, reset.sectorHold_cleared, k.armLatch, k.stopMarker, k.floorPort,
      k.dispatchPort, k.floorPartner, k.floorSent, k.dispatchSent, k.mgmt, k.mode, k.flags⟩
  · obtain ⟨straps, rfl⟩ := on.eq
    exact ⟨rfl, rfl, rfl, rfl, rfl⟩
  · have k := keeping.parameters
    exact ⟨k.policy, k.silenceLimit, k.clearPersistence, k.starvationLimit, k.masks⟩

/-! ## What a reset leaves of the zones and the field monitor (R2, R11, R130) -/

theorem AfterPowerOn.zst_cleared {s t : State} (h : AfterPowerOn s t) (z : ZoneId) : t.zst z = .cleared := by
  rw [h.tables.zst, reset_zst]

theorem AfterPowerOn.input_cleared {s t : State} (h : AfterPowerOn s t) (f : FieldSlotId) (i : LineId) : t.input f i = ⟨false, 0, .clearWhenSet⟩ := by
  rw [← reset_input f i]
  unfold State.input
  rw [h.tables.fieldSlot]

theorem AfterPowerOn.output_cleared {s t : State} (h : AfterPowerOn s t) (f : FieldSlotId) (o : LineId) : t.output f o = false := by
  rw [← reset_output f o]
  unfold State.output
  rw [h.tables.fieldSlot]

/-- Settles O9: every reset empties zones, inputs and outputs; power-on the zone table too, and a keeping reset sets field states and polarities by it. -/
theorem resetsOfTheZonesAndTheFieldMonitor : Obligations.ResetsOfTheZonesAndTheFieldMonitor := by
  intro s t
  refine ⟨fun reset => ⟨by rw [reset.district.floorPort]; rfl, ?_⟩, fun on => ⟨?_, fun z => ⟨?_, ?_⟩, fun f i => ?_⟩,
    fun keeping => ⟨keeping.parameters.clearPersistence, fun z => ⟨?_, ?_⟩, fun f i => ?_⟩⟩
  · rcases reset with on | keeping
    · refine ⟨fun z => ?_, fun f i => ?_, on.output_cleared⟩
      · rw [on.zst_cleared]; exact ⟨rfl, rfl, rfl⟩
      · rw [on.input_cleared]; exact ⟨rfl, rfl⟩
    · refine ⟨fun z => ?_, fun f i => ?_, keeping.tables.output⟩
      · rw [keeping.tables.zst]; exact ⟨rfl, rfl, rfl⟩
      · rw [keeping.tables.input]; exact ⟨rfl, rfl⟩
  · obtain ⟨straps, rfl⟩ := on.eq
    rfl
  · rw [on.tables.zone, reset_zone, ZoneRecord.cleared]
  · rw [on.zst_cleared, ZoneState.cleared]
  · rw [on.input_cleared]
  · unfold State.zone
    rw [keeping.tables.zones]
  · rw [keeping.tables.zst]
  · rw [keeping.tables.input]

/-! ## The invariants at reset -/

theorem reset_holder (z : ZoneId) : State.reset.holder z = none := by
  unfold State.holder
  rw [reset_zst, ZoneState.cleared]

/-- Settles O52: nobody is on the floor, no zone has conflicts or a holder, no queue has an entry, and the tables are at their defaults. -/
theorem theInvariantsHoldAtReset : Obligations.TheInvariantsHoldAtReset := by
  have none : ∀ c, State.reset.carrier c = .cleared := reset_carrier
  have tables : TablesOf State.reset State.reset := ⟨fun _ => rfl, fun _ => rfl, fun _ => rfl, fun _ => rfl, fun _ => rfl, fun _ => rfl, fun _ => rfl,
    fun _ => rfl, fun _ => rfl, fun _ => rfl⟩
  have unqueued (z : ZoneId) : (State.reset.zst z).queue = [] := by rw [reset_zst, ZoneState.cleared]
  have conflicts (z : ZoneId) : (State.reset.zone z).conflicts = [] := by rw [reset_zone, ZoneRecord.cleared]
  obtain ⟨waits, claims⟩ := (waitsBut_nobody State.reset).1
    (waitsBut_of_cleared unqueued (fun k => by rw [reset_cst, CorridorState.cleared]) rfl none)
  refine ⟨⟨fun z => ?_, fun z => ?_, fun z => ?_, fun z w m => ?_, fun z w c d m => ?_⟩,
    .of_nothing reset_holder fun c => by rw [none, Carrier.cleared], fun z => ?_, safeModeOk_of_cleared none,
    usersOk_of_none (fun r => by rw [reset_route, RouteRecord.cleared]) fun c => by rw [none, Carrier.cleared],
    (rangesOk_iff _).2 ⟨fun c => ?_, tablesInRange_reset tables rfl rfl rfl rfl rfl⟩, outputsOk_of_idle reset_holder unqueued reset_output,
    fun k => ?_, fun c => ?_, waits, claims, floorOk_of_cleared nofun none reset_cst⟩
  · rw [conflicts]; exact Nat.zero_le _
  · rw [conflicts]; exact nofun
  · rw [conflicts]; exact .nil
  · rw [conflicts] at m; cases m
  · rw [conflicts] at m; cases m
  · rw [reset_holder, reset_zst]
    exact iff_of_false nofun nofun
  · rw [none, Carrier.cleared]; decide
  · rw [reset_cst, reset_corridor]
    exact corridorOk_cleared (by decide)
  · rw [none, Carrier.cleared]; exact Nat.zero_le _

end Sys2Proof.Machine
end

section
/-! SUPPORT. What the reads answer, and the commands of the district's parameters, events and watches (R18, R34, R70, R164, R165, R170, R171). -/

namespace Sys2Proof.Machine

/-- A read that its slot machine takes answers what it reads (R161). -/
theorem read_next {slot : MgmtSlot} {code : Byte} {s : State} {a : Answer} {f : State → Answer} (ready : s.ready slot) (h : f s = a) :
    (Host.Outcome.next (takeCommand slot code s (reading f)) : Host.Outcome State Fault Refusal) =
      .next (s.answered slot code a.status a.results) := by
  rw [takeCommand_reading ready, h]

/-! ## The district (R164, R172) -/

/-- Settles O11: Identify and the two parameter commands, by the bounds of R164. -/
theorem identifyAndTheDistrictParameters : Obligations.IdentifyAndTheDistrictParameters := by
  intro slot a b c s ready
  refine ⟨?_, read_next ready rfl, fun out => taken_next (rule := writeDistrictParameters a b c) (a := .bare .badItem) ready (if_pos out), fun a4 a255 b1 b255 c40 c2000 => ?_⟩
  · refine (taken_next ready (rule := identify) rfl).trans ?_
    cases s.mode <;> cases s.resetCause <;> rfl
  · exact taken_next (rule := writeDistrictParameters a b c) (a := .ok) ready (if_neg (by omega))

/-! ## Zones and corridors (R18, R34) -/

section
variable {s : State}

theorem readZoneAnswer_of_le {b : Byte} (h : 240 ≤ b.toNat) : readZoneAnswer b s = .bare .badItem := by
  unfold readZoneAnswer
  rw [zoneOf_of_le h]

theorem readZoneAnswer_byteOf (z : ZoneId) : readZoneAnswer (byteOf z.val) s = ⟨.ok, zoneBytes (s.zone z)⟩ := by
  unfold readZoneAnswer
  rw [zoneOf_byteOf]

theorem readZoneStateAnswer_of_le {b start : Byte} (h : 240 ≤ b.toNat) : readZoneStateAnswer b start s = .bare .badItem := by
  unfold readZoneStateAnswer
  rw [zoneOf_of_le h]

theorem readZoneStateAnswer_byteOf (z : ZoneId) (start : Byte) : readZoneStateAnswer (byteOf z.val) start s =
    ⟨.ok, [finByte (s.holder z), s.entryStatusByte z, fieldStateByte (s.zst z).field, boolByte (s.zst z).blocked, byteOf (s.zst z).queue.length] ++
      (((s.zst z).queue.drop start.toNat).take 28).flatMap (fun w => [byteOf w.slot.val, zoneCauseByte w.cause])⟩ := by
  unfold readZoneStateAnswer
  rw [zoneOf_byteOf]
  dsimp only
  rw [fitItems_pairs 5 start _ _ 28 rfl]

/-- The status of the entry by which a zone's holder holds it, and 0 of a zone without one (R18). -/
theorem entryStatusByte_eq (z : ZoneId) : s.entryStatusByte z =
    (match (s.holder z).bind (fun c => s.heldEntry c z) with | none => 0 | some e => heldStatusByte e.status) := by
  unfold State.entryStatusByte
  cases s.holder z <;> rfl

theorem readCorridorAnswer_of_le {b : Byte} (h : 32 ≤ b.toNat) : readCorridorAnswer b s = .bare .badItem := by
  unfold readCorridorAnswer
  rw [corridorOf_of_le h]

theorem readCorridorAnswer_byteOf (k : CorridorId) : readCorridorAnswer (byteOf k.val) s = ⟨.ok, s.corridorBytes k⟩ := by
  unfold readCorridorAnswer
  rw [corridorOf_byteOf]

theorem readCorridorStateAnswer_of_le {b start : Byte} (h : 32 ≤ b.toNat) : readCorridorStateAnswer b start s = .bare .badItem := by
  unfold readCorridorStateAnswer
  rw [corridorOf_of_le h]

/-- Items of two bytes each. -/
theorem length_flatMap_pairs {α : Type} (f g : α → Byte) (l : List α) : (l.flatMap fun a => [f a, g a]).length = 2 * l.length := by
  induction l with
  | nil => rfl
  | cons a l ih =>
    rw [List.flatMap_cons, List.length_append, ih, List.length_cons]
    exact (Nat.mul_succ 2 l.length ▸ Nat.add_comm 2 _)

theorem readCorridorStateAnswer_byteOf (k : CorridorId) (start : Byte) : readCorridorStateAnswer (byteOf k.val) start s =
    ⟨.ok, [flowByte (s.cst k).flow, directionByte (s.cst k).direction, byteOf (s.cst k).count, byteOf (s.corridor k).quota,
        byteOf (s.cst k).occupants.length]
      ++ (s.cst k).occupants.flatMap (fun o => [byteOf o.slot.val, directionByte o.direction]) ++ [byteOf (s.cst k).queue.length]
      ++ (((s.cst k).queue.drop start.toNat).take (27 - (s.cst k).occupants.length)).flatMap
        (fun w => [byteOf w.slot.val, directionByte (some w.direction)])⟩ := by
  unfold readCorridorStateAnswer
  rw [corridorOf_byteOf]
  dsimp only
  rw [fitItems_pairs _ start _ _ (27 - (s.cst k).occupants.length)]
  have two := length_flatMap_pairs (fun o : Occupant => byteOf o.slot.val) (fun o => directionByte o.direction) (s.cst k).occupants
  rw [List.length_append, List.length_append, two]
  simp only [List.length_cons, List.length_nil]
  omega

end

/-- Settles O12: a number out of range is a BAD_ITEM, and the record or state of one in range is answered byte by byte. -/
theorem readsOfTheZonesAndCorridors : Obligations.ReadsOfTheZonesAndCorridors := by
  refine ⟨fun slot start s ready => ⟨fun b out => ⟨read_next ready (readZoneAnswer_of_le out), read_next ready (readZoneStateAnswer_of_le out)⟩,
    fun z => ⟨?_, ?_⟩⟩, fun slot start s ready => ⟨fun b out => ⟨read_next ready (readCorridorAnswer_of_le out),
      read_next ready (readCorridorStateAnswer_of_le out)⟩, fun k => ⟨read_next ready (readCorridorAnswer_byteOf k),
        read_next ready (readCorridorStateAnswer_byteOf k start)⟩⟩⟩
  · refine (read_next ready (readZoneAnswer_byteOf z)).trans ?_
    unfold zoneBytes
    cases (s.zone z).fieldBinding <;> cases (s.zone z).requestBinding <;> rfl
  · refine (read_next ready (readZoneStateAnswer_byteOf z start)).trans ?_
    rw [entryStatusByte_eq] <;> rfl

/-! ## Carriers, holds and the deadlock record (R70, R171) -/

section
variable {s : State}

theorem recordPartOf_of_lt {p : Byte} (h : 1 < p.toNat) : recordPartOf p = none := twoCodes_of_lt h ..

theorem readCarrierAnswer_out {c p : Byte} (h : 48 ≤ c.toNat ∨ 1 < p.toNat) : readCarrierAnswer c p s = .bare .badItem := by
  unfold readCarrierAnswer
  rcases h with h | h
  · rw [carrierOf_of_le h]
  · rw [recordPartOf_of_lt h]
    cases carrierOf c <;> rfl

theorem readFaultRecordAnswer_out {c p : Byte} (h : 48 ≤ c.toNat ∨ 1 < p.toNat) : readFaultRecordAnswer c p s = .bare .badItem := by
  unfold readFaultRecordAnswer
  rcases h with h | h
  · rw [carrierOf_of_le h]
  · rw [recordPartOf_of_lt h]
    cases carrierOf c <;> rfl

theorem readCarrierAnswer_status (c : CarrierId) : readCarrierAnswer (byteOf c.val) 0 s = ⟨.ok, s.carrierStatusBytes c⟩ := by
  unfold readCarrierAnswer
  rw [carrierOf_byteOf]
  rfl

theorem readCarrierAnswer_held (c : CarrierId) : readCarrierAnswer (byteOf c.val) 1 s =
    ⟨.ok, byteOf (s.carrier c).held.length :: (s.carrier c).held.flatMap heldEntryBytes⟩ := by
  unfold readCarrierAnswer
  rw [carrierOf_byteOf]
  rfl

theorem readFaultRecordAnswer_status (c : CarrierId) : readFaultRecordAnswer (byteOf c.val) 0 s = ⟨.ok, (s.carrier c).faultRecord.statusBytes⟩ := by
  unfold readFaultRecordAnswer
  rw [carrierOf_byteOf]
  rfl

theorem readFaultRecordAnswer_held (c : CarrierId) : readFaultRecordAnswer (byteOf c.val) 1 s =
    ⟨.ok, (s.carrier c).faultRecord.held.flatMap heldEntryBytes⟩ := by
  unfold readFaultRecordAnswer
  rw [carrierOf_byteOf]
  rfl

/-- The part that the hold unit reports of each entry, the sectors before the district (R171). -/
theorem holdSummary_eq : allHoldNames.flatMap (fun n => [boolByte (s.holdActive n), boolByte (s.holdEntry n).manual, byteOf (s.holdEntry n).causes.length]) =
    allSectors.flatMap (fun n => [boolByte (s.sectorActive n), boolByte (s.sectorHold n).manual, byteOf (s.sectorHold n).causes.length]) ++
      [boolByte s.districtActive, boolByte s.districtHold.manual, byteOf s.districtHold.causes.length] := by
  unfold allHoldNames
  rw [List.flatMap_append, List.flatMap_map]
  rfl

variable {entry start : Byte}

theorem readHoldsAnswer_out {part : Byte} (h : 2 < part.toNat) : readHoldsAnswer part entry start s = .bare .badItem := by
  unfold readHoldsAnswer
  rw [if_neg (ne_of_above h 0 (by decide)), if_neg (ne_of_above h 1 (by decide)), if_neg (ne_of_above h 2 (by decide))]

theorem readHoldsAnswer_entry_out (h : 8 < entry.toNat) : readHoldsAnswer 1 entry start s = .bare .badItem := by
  unfold readHoldsAnswer
  rw [if_neg (by decide), if_pos rfl, holdNameOf_of_lt h]

theorem readHoldsAnswer_entry {n : HoldName} (h : holdNameOf entry = some n) : readHoldsAnswer 1 entry start s =
    ⟨.ok, byteOf (s.holdEntry n).causes.length :: (((s.holdEntry n).causes.drop start.toNat).take 30).flatMap
      (fun p => [byteOf p.1.val, faultKindByte (some p.2)])⟩ := by
  unfold readHoldsAnswer
  rw [if_neg (by decide), if_pos rfl, h]
  dsimp only
  rw [fitItems_pairs 1 start _ _ 30 rfl]

theorem readHoldsAnswer_waiters : readHoldsAnswer 2 entry start s =
    ⟨.ok, byteOf s.holdWait.length :: ((s.holdWait.drop start.toNat).take 30).flatMap (fun w => [byteOf w.slot.val, priorityByte w.priority])⟩ := by
  unfold readHoldsAnswer
  rw [if_neg (by decide), if_neg (by decide), if_pos rfl, fitItems_pairs 1 start _ _ 30 rfl]

end

/-- Settles O14: the two parts of a carrier and of its fault record, the three parts of the holds, and the deadlock record. -/
theorem readsOfTheCarriersHoldsAndDeadlockRecord : Obligations.ReadsOfTheCarriersHoldsAndDeadlockRecord := by
  refine ⟨fun slot s ready => ⟨fun c p out => ⟨read_next ready (readCarrierAnswer_out out), read_next ready (readFaultRecordAnswer_out out)⟩,
    fun c r record f fault => ⟨?_, ?_, ?_, ?_⟩⟩, fun slot entry start s ready => ⟨fun part out => read_next ready (readHoldsAnswer_out out),
      fun out => read_next ready (readHoldsAnswer_entry_out out), ?_, fun n => read_next ready (readHoldsAnswer_entry (holdNameOf_sector n)),
      read_next ready (readHoldsAnswer_entry holdNameOf_district), read_next ready readHoldsAnswer_waiters, read_next ready rfl⟩⟩
  · refine (read_next ready (readCarrierAnswer_status c)).trans ?_
    unfold State.carrierStatusBytes orderBytes speedByte boolByte
    simp only [record, List.append_assoc, List.cons_append, List.nil_append, beq_iff_eq]
  · refine (read_next ready (readCarrierAnswer_held c)).trans ?_
    rw [record]
    rfl
  · refine (read_next ready (readFaultRecordAnswer_status c)).trans ?_
    unfold FaultRecord.statusBytes orderBytes speedByte
    simp only [record, fault, List.append_assoc, List.cons_append, List.nil_append]
  · refine (read_next ready (readFaultRecordAnswer_held c)).trans ?_
    rw [record, fault]
    rfl
  · refine (read_next (f := readHoldsAnswer 0 entry start) ready rfl).trans ?_
    unfold readHoldsAnswer
    rw [if_pos rfl, holdSummary_eq]
    simp only [List.append_assoc, List.cons_append, List.nil_append]

/-! ## Events and watches (R165, R170) -/

theorem clearFlags_only (s : State) : s.clearFlags = { s with carriers := s.clearFlags.carriers, flags := ⟨false, false, false, false, false, false⟩ } := by
  unfold State.clearFlags
  exact fold_only State.carriers (fun t x => { t with carriers := x }) (fun _ _ _ => rfl) (fun _ => rfl) (fun _ _ => rfl) allCarriers _

/-- Every carrier's flags are cleared, and nothing else of it (R170). -/
theorem carrier_clearFlags (s : State) (c : CarrierId) : s.clearFlags.carrier c = { s.carrier c with flags := .cleared } := by
  have fold := fold_entry (fun t d => t.carrier d) (fun _ => ()) (fun t d => t.modCarrier d (fun r => { r with flags := .cleared }))
    (fun _ _ r => { r with flags := .cleared }) (fun t d => carrier_modCarrier_self ..) (fun t d e ne => carrier_modCarrier_of_ne t _ ne) (fun _ _ => rfl)
    allCarriers (List.nodup_finRange 48) { s with flags := ⟨false, false, false, false, false, false⟩ } c
  have every : c ∈ allCarriers := List.mem_finRange c
  rw [if_pos every] at fold
  exact fold

/-- Settles O15: Read Events answers the flags it clears, and Set Event Mask writes the masks. -/
theorem eventsAndTheirMasks : Obligations.EventsAndTheirMasks := by
  intro slot masks s ready
  exact ⟨⟨s.clearFlags, taken_next ready (rule := readEvents) rfl, carrier_clearFlags s, clearFlags_only s⟩,
    taken_next ready (rule := setEventMask masks) (a := .ok) rfl⟩

theorem watchCarrier_out {slot : MgmtSlot} {s : State} {c : Byte} (h : 48 ≤ c.toNat) : watchCarrier slot c s = (s, .bare .badItem) := by
  unfold watchCarrier
  rw [carrierOf_of_le h]

theorem watchCarrier_byteOf (slot : MgmtSlot) (s : State) (c : CarrierId) : watchCarrier slot (byteOf c.val) s =
    (s.setWatch slot ⟨some c, true⟩, ⟨.ok, [carrierStateByte (s.carrier c).state, finByte (s.carrier c).route] ++
      cursorBytes (s.carrier c).cursor ++ [finByte (farthestGranted (s.carrier c).held)]⟩) := by
  unfold watchCarrier
  rw [carrierOf_byteOf]

/-- Settles O29: the watch is set on a carrier in range, and the answer is read from the carrier's record. -/
theorem watchCarrierSetsTheWatch : Obligations.WatchCarrierSetsTheWatch := by
  intro slot s ready
  refine ⟨fun c out => taken_next ready (watchCarrier_out out), fun c => ⟨s.setWatch slot ⟨some c, true⟩, taken_next ready (watchCarrier_byteOf slot s c),
    watch_setWatch .., watch_setWatch_other .., fun w => machine_setWatch .., ?_⟩⟩
  cases slot <;> rfl

end Sys2Proof.Machine
end

section
/-! SUPPORT. Conflict pairs and corridors written (R5, R6, R21). -/

namespace Sys2Proof.Machine

/-- The note of a table write makes the same of two states that agree in their slot machines. -/
theorem noted_alike {s t : State} (slot : MgmtSlot) (same : ∀ x, t.mgmt x = s.mgmt x) :
    ∃ a b, s.noteTableWrite slot = { s with operatorSlot := a, safetySlot := b } ∧
      t.noteTableWrite slot = { t with operatorSlot := a, safetySlot := b } :=
  ⟨_, _, noteTableWrite_of_machine (s := s) slot fun _ => rfl, noteTableWrite_of_machine slot same⟩

/-! ## Conflict pairs (R5, R6) -/

section
variable {slot : MgmtSlot} {s : State} {x y : ZoneId}

theorem zone_setConflicts (s : State) (z : ZoneId) (l : List ZoneId) (w : ZoneId) :
    (s.setConflicts z l).zone w = if w = z then { s.zone z with conflicts := l } else s.zone w := zone_setZone ..

/-- The records of two zones whose conflict lists are written one after the other. -/
theorem zones_setConflicts (s : State) (ne : x ≠ y) (k l : List ZoneId) :
    ((s.setConflicts x k).setConflicts y l).zone x = { s.zone x with conflicts := k } ∧
    ((s.setConflicts x k).setConflicts y l).zone y = { s.zone y with conflicts := l } ∧
    ∀ w, w ≠ x → w ≠ y → ((s.setConflicts x k).setConflicts y l).zone w = s.zone w := by
  refine ⟨?_, ?_, fun w wx wy => ?_⟩
  · rw [zone_setConflicts, if_neg ne, zone_setConflicts, if_pos rfl]
  · rw [zone_setConflicts, if_pos rfl, zone_setConflicts, if_neg ne.symm]
  · rw [zone_setConflicts, if_neg wy, zone_setConflicts, if_neg wx]

/-- Two zones are held apart by two different holders (R5). -/
theorem heldApart_iff : s.heldApart x y = true ↔ ∃ c d, s.holder x = some c ∧ s.holder y = some d ∧ c ≠ d := by
  unfold State.heldApart
  cases s.holder x <;> cases s.holder y <;> simp

theorem setConflictPair_out {a b : Byte} (h : 240 ≤ a.toNat ∨ 240 ≤ b.toNat ∨ a = b) : setConflictPair slot a b s = (s, .bare .badItem) := by
  unfold setConflictPair
  rcases h with h | h | h
  · rw [zoneOf_of_le h]
  · rw [zoneOf_of_le h]
    cases zoneOf a <;> rfl
  · rw [h]
    cases zoneOf b with
    | none => rfl
    | some z => exact if_pos rfl

theorem clearConflictPair_out {a b : Byte} (h : 240 ≤ a.toNat ∨ 240 ≤ b.toNat ∨ a = b) : clearConflictPair slot a b s = (s, .bare .badItem) := by
  unfold clearConflictPair
  rcases h with h | h | h
  · rw [zoneOf_of_le h]
  · rw [zoneOf_of_le h]
    cases zoneOf a <;> rfl
  · rw [h]
    cases zoneOf b with
    | none => rfl
    | some z => exact if_pos rfl

/-- Set Conflict Pair of two different zones, by its cases (R5). -/
theorem setConflictPair_byteOf (ne : x ≠ y) : setConflictPair slot (byteOf x.val) (byteOf y.val) s =
    if y ∈ (s.zone x).conflicts then (s.noteTableWrite slot, .ok)
    else if 4 ≤ (s.zone x).conflicts.length ∨ 4 ≤ (s.zone y).conflicts.length then (s, .bare .full)
    else if s.heldApart x y = true then (s, .bare .busyItem)
    else ((s.addPair x y).noteTableWrite slot, .ok) := by
  unfold setConflictPair
  rw [zoneOf_byteOf, zoneOf_byteOf]
  dsimp only
  rw [if_neg ne]
  simp only [List.contains_eq_mem, decide_eq_true_eq]

/-- Clear Conflict Pair of two different zones, by its cases (R6). -/
theorem clearConflictPair_byteOf (ne : x ≠ y) : clearConflictPair slot (byteOf x.val) (byteOf y.val) s =
    if y ∉ (s.zone x).conflicts then (s.noteTableWrite slot, .ok)
    else ((((s.removePair x y).noteTableWrite slot).wakeZone x [.conflict]).wakeZone y [.conflict], .ok) := by
  unfold clearConflictPair
  rw [zoneOf_byteOf, zoneOf_byteOf]
  dsimp only
  rw [if_neg ne]
  simp only [List.contains_eq_mem, Bool.not_eq_true', decide_eq_false_iff_not]

end

/-- Settles O16: the cases of Set Conflict Pair in their order, and the two lists that an added pair joins. -/
theorem setConflictPairFollowsItsTable : Obligations.SetConflictPairFollowsItsTable := by
  intro slot s ready
  refine ⟨fun a b out => taken_next ready (setConflictPair_out out), fun x y ne => ?_⟩
  have row {t : State} {a : Answer} (h : setConflictPair slot (byteOf x.val) (byteOf y.val) s = (t, a)) :
      exec (.setConflictPair slot (byteOf x.val) (byteOf y.val)) s = .next (t.answered slot 0x04 a.status a.results) := taken_next ready h
  rw [setConflictPair_byteOf ne] at row
  refine ⟨fun listed => ?_, fun unlisted full => ?_, fun unlisted roomx roomy apart => ?_, fun unlisted roomx roomy together => ?_⟩
  · exact row (a := .ok) (if_pos listed)
  · exact row (a := .bare .full) (by rw [if_neg unlisted, if_pos full])
  · exact row (a := .bare .busyItem) (by rw [if_neg unlisted, if_neg (by omega), if_pos (heldApart_iff.2 apart)])
  · refine ⟨(s.addPair x y).noteTableWrite slot, row (a := .ok) ?_, ?_⟩
    · rw [if_neg unlisted, if_neg (by omega), if_neg (mt heldApart_iff.1 together)]
    · obtain ⟨ofx, ofy, others⟩ := zones_setConflicts s ne ((s.zone x).conflicts ++ [y]) ((s.zone y).conflicts ++ [x])
      obtain ⟨a, b, noted, alike⟩ := noted_alike (s := s) (t := s.addPair x y) slot fun w => by cases w <;> rfl
      simp only [zone_noteTableWrite]
      unfold State.addPair at alike ⊢
      refine ⟨ofx, ofy, others, ?_⟩
      rw [noted, alike]
      rfl

/-- A wake of a zone where no waiter has one of the causes. -/
theorem wakeZone_of_none {s : State} {z : ZoneId} {causes : List ZoneCause} (none : ∀ w ∈ (s.zst z).queue, w.cause ∉ causes) :
    s.wakeZone z causes = s := by
  rw [wakeZone_fold, List.filter_eq_nil_iff.2 fun w m => by simpa using none w m]
  rfl

/-- Settles O17: a pair listed leaves both lists, then the waiters of the first zone and of the second are woken. -/
theorem clearConflictPairWakesBothZones : Obligations.ClearConflictPairWakesBothZones := by
  intro slot s ready
  refine ⟨fun a b out => taken_next ready (clearConflictPair_out out), fun x y ne => ?_⟩
  have row {t : State} {a : Answer} (h : clearConflictPair slot (byteOf x.val) (byteOf y.val) s = (t, a)) :
      exec (.clearConflictPair slot (byteOf x.val) (byteOf y.val)) s = .next (t.answered slot 0x05 a.status a.results) := taken_next ready h
  rw [clearConflictPair_byteOf ne] at row
  refine ⟨fun unlisted => row (a := .ok) (if_pos unlisted), fun listed =>
    ⟨(s.removePair x y).noteTableWrite slot, _, row (a := .ok) (if_neg (Classical.not_not.2 listed)), ?_⟩⟩
  obtain ⟨ofx, ofy, others⟩ := zones_setConflicts s ne ((s.zone x).conflicts.filter (· != y)) ((s.zone y).conflicts.filter (· != x))
  obtain ⟨a, b, noted, alike⟩ := noted_alike (s := s) (t := s.removePair x y) slot fun w => by cases w <;> rfl
  simp only [zone_noteTableWrite]
  unfold State.removePair at alike ⊢
  refine ⟨ofx, ofy, others, ?_, trivial, (EngineFrame.wakeZone ..).trans (.wakeZone ..), fun quiet => ?_⟩
  · rw [noted, alike]
    rfl
  · have queue (z : ZoneId) : ((((s.setConflicts x ((s.zone x).conflicts.filter (· != y))).setConflicts y
        ((s.zone y).conflicts.filter (· != x))).noteTableWrite slot).zst z).queue = (s.zst z).queue := by
      rw [alike]
      rfl
    rw [wakeZone_of_none (z := x), wakeZone_of_none (z := y)]
    all_goals
      intro w m
      rw [queue] at m
      rw [List.mem_singleton]
    · exact quiet w (List.mem_append_right _ m)
    · exact quiet w (List.mem_append_left _ m)

/-! ## Corridors (R21) -/

section
variable {slot : MgmtSlot} {s : State} {k : CorridorId}

theorem writeCorridor_out {c d q : Byte} (h : 32 ≤ c.toNat ∨ q.toNat = 0 ∨ 15 < q.toNat) : writeCorridor slot c d q s = (s, .bare .badItem) := by
  unfold writeCorridor
  rcases h with h | h
  · rw [corridorOf_of_le h]
  · cases corridorOf c with
    | none => rfl
    | some k =>
      cases yesNoOf d with
      | none => rfl
      | some b => exact if_pos h

/-- Write Corridor in range, by its cases (R21). -/
theorem writeCorridor_byteOf (k : CorridorId) (d : Bool) {q : Nat} (low : 1 ≤ q) (high : q ≤ 15) :
    writeCorridor slot (byteOf k.val) (boolByte d) (byteOf q) s =
      if d = false ∧ (s.corridor k).defined = true ∧ ((s.cst k).occupants ≠ [] ∨ (s.cst k).queue ≠ []) then (s, .bare .busyItem)
      else match (if d = false ∧ (s.corridor k).defined = true then s.lowestZoneOf k else none) with
        | some z => (s, .check ⟨.zoneReference, z.val⟩)
        | none => (((s.setCorridor k ⟨d, q⟩).setCst k ((s.cst k).requota q)).noteTableWrite slot, .ok) := by
  unfold writeCorridor
  rw [corridorOf_byteOf, yesNoOf_boolByte]
  dsimp only
  rw [toNat_byteOf (by omega), if_neg (by omega)]
  simp only [Bool.and_eq_true, Bool.or_eq_true, Bool.not_eq_true', List.isEmpty_eq_false_iff, and_assoc] <;> rfl

/-- The lowest defined zone of a corridor (R21). -/
theorem lowestZoneOf_some {z : ZoneId} (defined : (s.zone z).defined = true) (own : (s.zone z).corridor = some k)
    (lowest : ∀ w < z, (s.zone w).defined = true → (s.zone w).corridor ≠ some k) : s.lowestZoneOf k = some z := by
  refine find_lowest _ z (by rw [defined, own, beq_self_eq_true]; rfl) fun w lt => ?_
  rw [Bool.and_eq_false_iff, beq_eq_false_iff_ne]
  exact Classical.or_iff_not_imp_left.2 fun h => lowest w lt (by simpa using h)

theorem lowestZoneOf_none (none : ∀ z, (s.zone z).defined = true → (s.zone z).corridor ≠ some k) : s.lowestZoneOf k = Option.none := by
  unfold State.lowestZoneOf
  rw [List.find?_eq_none]
  intro z _ h
  rw [Bool.and_eq_true, beq_iff_eq] at h
  exact none z h.1 h.2

end

/-- Settles O20: the cases of Write Corridor in their order; the record is written, and the flow drains where the quota is reached. -/
theorem writeCorridorFollowsItsTable : Obligations.WriteCorridorFollowsItsTable := by
  intro slot s ready
  refine ⟨fun k d q out => taken_next ready (writeCorridor_out out), fun k d q low high => ?_⟩
  have row {t : State} {a : Answer} (h : writeCorridor slot (byteOf k.val) (boolByte d) (byteOf q) s = (t, a)) :
      exec (.writeCorridor slot (byteOf k.val) (boolByte d) (byteOf q)) s = .next (t.answered slot 0x09 a.status a.results) := taken_next ready h
  rw [writeCorridor_byteOf k d low high] at row
  refine ⟨fun gone defined busy => row (a := .bare .busyItem) (if_pos ⟨gone, defined, busy⟩), fun z gone defined empty unqueued of own lowest => ?_,
    fun free => ?_⟩
  · rw [row (a := .check ⟨.zoneReference, z.val⟩) (by
      rw [if_neg fun h => h.2.2.elim (absurd empty) (absurd unqueued), if_pos ⟨gone, defined⟩, lowestZoneOf_some of own lowest])]
    refine congrArg Host.Outcome.next (congrArg (s.answered slot 0x09 .checkFailed) ?_)
    exact congrArg (14 :: ·) (halfBytes_small (n := z.val) (by omega))
  · refine ⟨((s.setCorridor k ⟨d, q⟩).setCst k ((s.cst k).requota q)).noteTableWrite slot, row (a := .ok) ?_, ?_⟩
    · have unnamed : (if d = false ∧ (s.corridor k).defined = true then s.lowestZoneOf k else none) = none := by
        split
        · next h =>
          rcases free with stays | undefined | ⟨-, -, none⟩
          · rw [h.1] at stays; cases stays
          · rw [h.2] at undefined; cases undefined
          · exact lowestZoneOf_none none
        · rfl
      rw [if_neg, unnamed]
      rintro ⟨gone, defined, busy⟩
      rcases free with stays | undefined | ⟨empty, unqueued, -⟩
      · rw [gone] at stays; cases stays
      · rw [defined] at undefined; cases undefined
      · exact busy.elim (absurd empty) (absurd unqueued)
    · obtain ⟨a, b, noted, alike⟩ := noted_alike (s := s) (t := (s.setCorridor k ⟨d, q⟩).setCst k ((s.cst k).requota q)) slot fun w => by cases w <;> rfl
      have corridor := corridor_setCorridor s k
      have cst := cst_setCst (s.setCorridor k ⟨d, q⟩) k
      refine ⟨?_, fun l ne => ⟨?_, ?_⟩, ?_, ?_⟩
      · rw [alike]; exact (corridor k _).trans (if_pos rfl)
      · rw [alike]; exact (corridor l _).trans (if_neg ne)
      · rw [alike]; exact (cst l _).trans (if_neg ne)
      · rw [alike]
        refine ((cst k _).trans (if_pos rfl)).trans ?_
        unfold CorridorState.requota
        simp only [Option.isSome_iff_ne_none]
      · rw [noted, alike]
        rfl

end Sys2Proof.Machine
end

section
/-! SUPPORT. Routes assigned, carriers set, the stop marker resumed, the validator's limits and the checksum (R61, R65, R114, R115, R145, R167). -/

namespace Sys2Proof.Machine

/-! ## Assign Route (R61) -/

section
variable {s : State} {c : CarrierId} {r : RouteId}

theorem assignRoute_out {b q : Byte} (h : 48 ≤ b.toNat ∨ 128 ≤ q.toNat) : assignRoute b q s = (s, .bare .badItem) := by
  unfold assignRoute
  rcases h with h | h
  · rw [carrierOf_of_le h]
  · rw [routeOf_of_le h]
    cases carrierOf b <;> rfl

/-- Assign Route in range, by the cases of its table (R61). -/
theorem assignRoute_byteOf (s : State) (c : CarrierId) (r : RouteId) : assignRoute (byteOf c.val) (byteOf r.val) s =
    if s.mode = .safe then (s, .bare .notInService)
    else if (s.carrier c).state ≠ .idle then (s, .bare .wrongState)
    else if (s.route r).defined = false then (s, .bare .badItem)
    else if farthestHeld (s.carrier c).held ≠ some (s.hop (s.route r).firstHop).zone then (s, .check ⟨.startZone, (s.route r).firstHop.val⟩)
    else (((s.takeRoute c r (s.route r).firstHop).enterState c .advancing).runPass c, .ok) := by
  unfold assignRoute State.hopZone
  rw [carrierOf_byteOf, routeOf_byteOf]
  simp only [Bool.not_eq_true']

theorem breakFor_breakFor (w : Watch) (c : CarrierId) : (w.breakFor c).breakFor c = w.breakFor c := by
  unfold Watch.breakFor
  split
  · next on => simp [on]
  · rfl

/-- The carrier's course on a route taken from its first hop (R40, R61). -/
theorem placeAfter_first (placed : (s.route r).placed) : s.placeAfter r (s.route r).firstHop =
    (r, .hop (Fin.ofNat 2048 ((s.route r).firstHop.val + 1)), (s.route r).lapCount) := by
  unfold RouteRecord.placed at placed
  exact placeAfter_inside (by omega)

end

/-- Settles O25: the cases of Assign Route in their order; an accepted one is the route taken from its first hop, the state entered and the pass. -/
theorem assignRouteFollowsItsTable : Obligations.AssignRouteFollowsItsTable := by
  intro slot s ready
  refine ⟨fun c r out => taken_next ready (assignRoute_out out), fun c r o run => ?_⟩
  subst run
  have table := assignRoute_byteOf s c r
  split
  · next safe => exact taken_next ready (table.trans (if_pos safe))
  next service =>
  rw [if_neg service] at table
  split
  · next wrong => exact taken_next ready (table.trans (if_pos wrong))
  next idle =>
  rw [if_neg idle] at table
  split
  · next undefined => exact taken_next ready (table.trans (if_pos undefined))
  next defined =>
  rw [if_neg defined] at table
  split
  · next apart => exact taken_next ready (table.trans (if_pos apart))
  next joined =>
  rw [if_neg joined] at table
  intro ranges
  obtain ⟨low, -, high⟩ := ranges.hops r
  have first := placeAfter_first (s := s) (r := r) ⟨low, high⟩
  have taken := routeTaken s c r (s.route r).firstHop
  have course := taken.carrier
  have users := taken.users
  rw [first] at course users
  have entered := stateEntered (s.takeRoute c r (s.route r).firstHop) c .advancing
  generalize s.takeRoute c r (s.route r).firstHop = t at taken course users entered table
  generalize t.enterState c .advancing = u at entered table
  refine ⟨u, taken_next ready table, .runPass .., ?_, fun d e => ?_, fun q => ?_, fun w => ?_, fun w => ?_, ?_⟩
  · rw [entered.carrier, course]
  · rw [entered.others d e, taken.others d e]
  · have same : u.route q = t.route q := by rw [entered.rest]; rfl
    rw [same, users]
    simp only [eq_comm]
  · rw [entered.watches, taken.watches, breakFor_breakFor]
  · rw [entered.machines, taken.machines]
  · rw [entered.rest, taken.rest]

/-! ## Set Carrier (R65) -/

section
variable {s : State}

theorem setCarrier_out {c m h p l : Byte} (out : 48 ≤ c.toNat ∨ 1 < m.toNat ∨ h.toNat = 0 ∨ 8 < h.toNat ∨ 1 < p.toNat ∨ 1 < l.toNat) :
    setCarrier c m h p l s = (s, .bare .badItem) := by
  unfold setCarrier
  split
  · next c' m' p' l' hc hm hp hl =>
    refine if_pos ?_
    rcases out with o | o | o | o | o | o
    · rw [carrierOf_of_le o] at hc; cases hc
    · rw [claimModeOf, twoCodes_of_lt o] at hm; cases hm
    · exact .inl o
    · exact .inr o
    · rw [priorityOf, twoCodes_of_lt o] at hp; cases hp
    · rw [clipModeOf, twoCodes_of_lt o] at hl; cases hl
  · rfl

/-- The parameters of a carrier written, and the watches on it broken (R65, R165). -/
def State.parametrized (s : State) (c : CarrierId) (m : ClaimMode) (h : Nat) (p : Priority) (l : ClipMode) : State :=
  (s.modCarrier c (fun r => { r with claimMode := m, horizon := h, priority := p, clipMode := l })).breakWatch c

theorem setCarrier_byteOf (s : State) (c : CarrierId) (m : ClaimMode) {h : Nat} (p : Priority) (l : ClipMode) (low : 1 ≤ h) (high : h ≤ 8) :
    setCarrier (byteOf c.val) (claimModeByte m) (byteOf h) (priorityByte p) (clipModeByte l) s =
      if (s.carrier c).state = .vacant then (s, .bare .wrongState)
      else (if (s.carrier c).horizon ≠ h ∨ (s.carrier c).claimMode ≠ m then (s.parametrized c m h p l).runPassIfAdvancing c
        else s.parametrized c m h p l, .ok) := by
  unfold setCarrier
  rw [carrierOf_byteOf, claimModeOf_claimModeByte, priorityOf_priorityByte, clipModeOf_clipModeByte]
  dsimp only
  rw [toNat_byteOf (by omega), if_neg (by omega)]
  rfl

theorem carrier_parametrized (s : State) (c : CarrierId) (m : ClaimMode) (h : Nat) (p : Priority) (l : ClipMode) :
    (s.parametrized c m h p l).carrier c = { s.carrier c with claimMode := m, horizon := h, priority := p, clipMode := l } :=
  carrier_modCarrier_self s c (fun r => { r with claimMode := m, horizon := h, priority := p, clipMode := l })

end

/-- Settles O27: the parameters are written and the watches broken, and the pass is made where horizon or claim mode changed. -/
theorem setCarrierWritesTheParameters : Obligations.SetCarrierWritesTheParameters := by
  intro slot s ready
  refine ⟨fun c m h p l out => taken_next ready (setCarrier_out out), fun c m h p l low high => ?_⟩
  have table := setCarrier_byteOf s c m p l low high
  have carrier := carrier_parametrized s c m h p l
  have others (d : CarrierId) (e : d ≠ c) : (s.parametrized c m h p l).carrier d = s.carrier d :=
    carrier_modCarrier_of_ne s (fun r => { r with claimMode := m, horizon := h, priority := p, clipMode := l }) e
  refine ⟨fun vacant => taken_next ready (table.trans (if_pos vacant)), fun present =>
    ⟨s.parametrized c m h p l, _, taken_next ready (table.trans (if_neg present)), carrier, others,
      fun w => watch_breakWatch .., fun w => machine_breakWatch .., rfl, ?_, ?_⟩⟩
  · unfold State.runPassIfAdvancing
    rw [carrier]
    by_cases changed : (s.carrier c).horizon ≠ h ∨ (s.carrier c).claimMode ≠ m
    · rw [if_pos changed]
      simp only [changed, and_true]
    · rw [if_neg changed, if_neg fun both => changed both.2]
  · split
    · exact .runPassIfAdvancing ..
    · exact .refl _

/-! ## Resume (R145) -/

/-- Settles O34: Resume clears the marker and makes the claim passes of all carriers. -/
theorem resumeClearsTheStopMarker : Obligations.ResumeClearsTheStopMarker := by
  intro s ready
  refine ⟨fun unmarked => safetyTaken_next (rule := resume) (a := .bare .wrongState) ready (if_pos (by rw [unmarked]; rfl)), fun marked active =>
    safetyTaken_next (rule := resume) (a := .bare .lineActive) ready ((if_neg (by rw [marked]; decide)).trans (if_pos active)), fun marked released =>
      ⟨{ s with stopMarker := false, flags := { s.flags with stop := true } }, _, safetyTaken_next (rule := resume) (a := .ok) ready
        ((if_neg (by rw [marked]; decide)).trans (if_neg (by rw [released]; decide))), rfl, rfl, (EngineFrame.claimAll _).armLatch, .claimAll _⟩⟩

/-! ## The validator's limits (R114, R115) -/

section
variable {s : State} {c : CarrierId}

theorem exec_silenceLimitReached (released : s.resetPin = false) : exec (.silenceLimitReached c) s =
    .next (if s.floorPort.state = .synced ∧ s.silenceAfter c .absent ≠ (s.validator c).silence ∧ s.silenceAfter c .absent = s.silenceLimit
      then s.countSilence c .absent else s) := congrArg Host.Outcome.next (if_neg (by rw [released]; decide))

theorem exec_instabilityLimitReached (released : s.resetPin = false) (r : ReportBytes) : exec (.instabilityLimitReached c r) s =
    .next (if s.floorPort.state = .synced ∧ (s.validator c).instability = 7 then
      match (s.validator c).candidate with
      | none => s
      | some x => if x = readReport r then s else s.differ c (readReport r)
    else s) := congrArg Host.Outcome.next (if_neg (by rw [released]; decide))

end

/-- Settles O36: each event by its condition, which the count or the difference meets exactly at the limit. -/
theorem theValidatorsLimits : Obligations.TheValidatorsLimits := by
  intro c report s released
  have others (x : ValidatorSlot) (d : CarrierId) (e : d ≠ c) : (s.setValidator c x).validator d = s.validator d := by
    rw [validator_setValidator, if_neg e]
  have own (x : ValidatorSlot) : (s.setValidator c x).validator c = x := by rw [validator_setValidator, if_pos rfl]
  refine ⟨fun synced at' => ?_, fun none => ?_, fun x synced seven candidate differs => ?_, fun none => ?_⟩
  · have counts : s.silenceAfter c .absent ≠ (s.validator c).silence := by rw [silenceAfter_absent]; omega
    have reached : s.silenceAfter c .absent = s.silenceLimit := by rw [silenceAfter_absent]; omega
    refine ⟨_, _, ?_, own _, others _, rfl, rfl⟩
    rw [exec_silenceLimitReached released, if_pos ⟨synced, counts, reached⟩, countSilence_lost (reached ▸ counts) reached]
  · rw [exec_silenceLimitReached released, if_neg]
    rintro ⟨synced, counts, reached⟩
    rw [silenceAfter_absent] at counts reached
    rcases none with lost | at' | below
    · rw [lost] at synced; cases synced
    · omega
    · omega
  · refine ⟨_, _, ?_, own _, others _, rfl, rfl⟩
    rw [exec_instabilityLimitReached released, if_pos ⟨synced, seven⟩, candidate]
    dsimp only
    rw [if_neg differs, differ_at_seven seven]
  · rw [exec_instabilityLimitReached released]
    split
    · next h =>
      rcases none with lost | other | absent | same
      · rw [lost] at h; cases h.1
      · exact absurd h.2 other
      · rw [absent]
      · rw [same]
        exact congrArg Host.Outcome.next (if_pos rfl)
    · rfl

/-! ## Checksum (R167) -/

/-- A Checksum's completion answers the CRC, STALE after a table write (R167). -/
theorem complete_checksum (s : State) (slot : MgmtSlot) (written : Bool) : s.complete slot .checksum written =
    s.answered slot 0x20 (if written then .stale else .ok) (halfBytes (crc s.configurationBytes)) := rfl

/-- Settles O37: the command starts the job, the first expiry notes it, and the second completes it. -/
theorem checksumAnswersTheConfigurationsCrc : Obligations.ChecksumAnswersTheConfigurationsCrc := by
  intro slot s
  refine ⟨fun ready => congrArg Host.Outcome.next (takeCommand_executing ready rfl), fun n written released executing noted => ?_,
    fun unnoted => congrArg Host.Outcome.next (completeJob_unnoted unnoted), fun written executing => ?_, fun written released executing => ?_, ?_⟩
  · refine congrArg Host.Outcome.next ((completeJob_noted released executing noted).trans ?_)
    rw [complete_checksum]
    rfl
  · unfold State.completionPart
    rw [executing]
    rfl
  · refine congrArg Host.Outcome.next ((completeJob_noted released executing (Nat.le_refl 1)).trans ?_)
    unfold State.completionPart
    rw [executing]
    rfl
  · cases slot <;> rfl

end Sys2Proof.Machine
end


section
/-! SUPPORT. The encoder and the decoder of the messages (R159, R160): every well-formed management command is read back. -/

namespace Sys2Proof.Machine

/-! ## The multi-byte fields of a command -/

/-- The two bytes of a 16-bit field, MSB first, spell it. -/
theorem halfOf_bytes (h : Half) : halfOf (h.extractLsb' 8 8) (h.extractLsb' 0 8) = h := by
  unfold halfOf
  ext j bound
  rw [BitVec.getElem_append]
  split
  · simpa using BitVec.getLsbD_eq_getElem bound
  · simp only [BitVec.getElem_extractLsb']
    rw [Nat.add_sub_cancel' (by omega)]
    exact BitVec.getLsbD_eq_getElem bound

/-- The hops of a Write Hops are read back from their bytes. -/
theorem bytePairs_flatten (hops : List (Byte × Byte)) :
    bytePairs (hops.map (fun x => [x.1, x.2])).flatten = some hops := by
  induction hops with
  | nil => rfl
  | cons x rest ih =>
    show (bytePairs (rest.map (fun y => [y.1, y.2])).flatten).map ((x.1, x.2) :: ·) = _
    rw [ih, Option.map_some]

theorem length_bytes_hops (hops : List (Byte × Byte)) :
    (hops.map (fun x => [x.1, x.2])).flatten.length = 2 * hops.length := by
  induction hops with
  | nil => rfl
  | cons x rest ih => simp only [List.map_cons, List.flatten_cons, List.length_append, List.length_cons, List.length_nil, ih]; omega

/-- The actions of a policy are its eight bytes, in the order of the fault codes. -/
theorem policy_bytes (a : Vector Byte 8) :
    a.toList = [a[0], a[1], a[2], a[3], a[4], a[5], a[6], a[7]] ∧ #v[a[0], a[1], a[2], a[3], a[4], a[5], a[6], a[7]] = a :=
  match a with
  | ⟨⟨[_, _, _, _, _, _, _, _]⟩, _⟩ => ⟨rfl, rfl⟩

/-! ## The command's parts spell it -/

/-- A command whose type byte and parameters fit in one message spell it (R160). -/
def SpelledBy (slot : MgmtSlot) (i : Instr) : Prop :=
  ∃ code p, commandParts i = some (code, p) ∧ p.length ≤ 61 ∧ decodeCommand slot code p = some i

section
variable {slot : MgmtSlot}

/-- A command whose parameters the encoder spells and the decoder reads by their shape alone. -/
theorem SpelledBy.ofParts {i : Instr} {code : Byte} {p : List Byte} (parts : commandParts i = some (code, p))
    (short : p.length ≤ 61) (read : decodeCommand slot code p = some i) : SpelledBy slot i :=
  ⟨code, p, parts, short, read⟩

theorem spelledBy_writeRoute (w : RouteWrite) : SpelledBy slot (.writeRoute slot w) := by
  refine .ofParts rfl (Nat.le_of_ble_eq_true rfl) ?_
  show some (Instr.writeRoute slot ⟨w.route, w.defined, halfOf _ _, halfOf _ _, w.endAction, halfOf _ _, w.linkRoute⟩) = _
  rw [halfOf_bytes, halfOf_bytes, halfOf_bytes]

theorem spelledBy_readHops (h : Half) (n : Byte) : SpelledBy slot (.readHops slot h n) := by
  refine .ofParts rfl (Nat.le_of_ble_eq_true rfl) ?_
  show some (Instr.readHops slot (halfOf _ _) n) = _
  rw [halfOf_bytes]

/-- A Write Hops of at most 29 hops fits (R160), and its count byte counts them. -/
theorem spelledBy_writeHops (h : Half) {hops : List (Byte × Byte)} (few : hops.length ≤ 29) :
    SpelledBy slot (.writeHops slot h hops) := by
  have counted : hops.length = (byteOf hops.length).toNat := by
    unfold byteOf
    rw [BitVec.toNat_ofNat]
    omega
  refine .ofParts rfl ?_ ?_
  · show (h.extractLsb' 8 8 :: h.extractLsb' 0 8 :: byteOf hops.length :: (hops.map (fun x => [x.1, x.2])).flatten).length ≤ 61
    rw [List.length_cons, List.length_cons, List.length_cons, length_bytes_hops]
    omega
  · show (match bytePairs (hops.map (fun x => [x.1, x.2])).flatten with
      | some hops' => if hops'.length = (byteOf hops.length).toNat then
          some (Instr.writeHops slot (halfOf (h.extractLsb' 8 8) (h.extractLsb' 0 8)) hops') else none
      | none => none) = _
    rw [bytePairs_flatten]
    dsimp only
    rw [if_pos counted, halfOf_bytes]

theorem spelledBy_replaceRoute (c r : Byte) (h : Half) : SpelledBy slot (.replaceRoute slot c r h) := by
  refine .ofParts rfl (Nat.le_of_ble_eq_true rfl) ?_
  show some (Instr.replaceRoute slot c r (halfOf _ _)) = _
  rw [halfOf_bytes]

/-- A Read Holds is well formed when the bytes its part does not spell are 0. -/
theorem spelledBy_readHolds {x y n : Byte} (formed : (Instr.readHolds slot x y n).wellFormed = true) :
    SpelledBy slot (.readHolds slot x y n) := by
  obtain ⟨entry, start⟩ : (x = 1 ∨ y = 0) ∧ ((x = 1 ∨ x = 2) ∨ n = 0) := by simpa [Instr.wellFormed] using formed
  by_cases one : x = 1
  · subst one
    exact .ofParts rfl (Nat.le_of_ble_eq_true rfl) rfl
  · have whole : y = 0 := entry.resolve_left one
    by_cases two : x = 2
    · subst two whole
      exact .ofParts rfl (Nat.le_of_ble_eq_true rfl) rfl
    · have first : n = 0 := start.resolve_left (not_or.mpr ⟨one, two⟩)
      subst whole first
      have parts : commandParts (.readHolds slot x 0 0) = some (0x1A, [x]) := by
        show some ((0x1A : Byte), if x = 1 then [x, 0, 0] else if x = 2 then [x, 0] else [x]) = _
        rw [if_neg one, if_neg two]
      refine .ofParts parts (Nat.le_of_ble_eq_true rfl) ?_
      show (if x = 1 then none else some (Instr.readHolds slot x 0 0)) = _
      rw [if_neg one]

theorem spelledBy_setEventMask (mask : Half) : SpelledBy slot (.setEventMask slot mask) := by
  refine .ofParts rfl (Nat.le_of_ble_eq_true rfl) ?_
  show some (Instr.setEventMask slot (halfOf _ _)) = _
  rw [halfOf_bytes]

theorem spelledBy_writeDistrictParameters (a b c : Half) : SpelledBy slot (.writeDistrictParameters slot a b c) := by
  refine .ofParts rfl (Nat.le_of_ble_eq_true rfl) ?_
  show some (Instr.writeDistrictParameters slot (halfOf _ _) (halfOf _ _) (halfOf _ _)) = _
  rw [halfOf_bytes, halfOf_bytes, halfOf_bytes]

theorem spelledBy_writePolicy (a : Vector Byte 8) : SpelledBy slot (.writePolicy slot a) := by
  obtain ⟨bytes, whole⟩ := policy_bytes a
  refine .ofParts rfl ?_ ?_
  · simp
  · rw [bytes]
    show some (Instr.writePolicy slot #v[a[0], a[1], a[2], a[3], a[4], a[5], a[6], a[7]]) = _
    rw [whole]

/-- Every well-formed management command is spelled by its parts: those with single-byte fields by their shape, the others by
their own lemma. -/
theorem spelledBy_of_wellFormed {i : Instr} (formed : i.wellFormed = true) (of : i.slotOf = some slot) : SpelledBy slot i := by
  cases i
  case writeRoute => cases of; exact spelledBy_writeRoute _
  case readHops => cases of; exact spelledBy_readHops _ _
  case writeHops => cases of; exact spelledBy_writeHops _ (of_decide_eq_true formed)
  case replaceRoute => cases of; exact spelledBy_replaceRoute _ _ _
  case readHolds => cases of; exact spelledBy_readHolds formed
  case setEventMask => cases of; exact spelledBy_setEventMask _
  case writeDistrictParameters => cases of; exact spelledBy_writeDistrictParameters _ _ _
  case writePolicy => cases of; exact spelledBy_writePolicy _
  all_goals
    cases of
    all_goals exact .ofParts rfl (Nat.le_of_ble_eq_true rfl) rfl

end

/-! ## The message on the wire -/

/-- A message is padded to whole payloads: to the next multiple of 16 bytes (R160). -/
theorem length_padPayloads {m : List Byte} (nonempty : 1 ≤ m.length) (short : m.length ≤ 63) :
    (padPayloads m).length % 16 = 0 ∧ 16 ≤ (padPayloads m).length ∧ (padPayloads m).length ≤ 64 := by
  unfold padPayloads
  rw [List.length_append, List.length_replicate, if_neg (by omega)]
  omega

/-- The length byte tells the parameters from the padding (R160). -/
theorem decodeMessage_padded (slot : MgmtSlot) (code : Byte) {p : List Byte} (short : p.length ≤ 61) :
    decodeMessage slot (padPayloads (code :: byteOf p.length :: p)) = decodeCommand slot code p := by
  have counted : (byteOf p.length).toNat = p.length := by
    unfold byteOf
    rw [BitVec.toNat_ofNat]
    omega
  unfold padPayloads decodeMessage
  rw [List.cons_append, List.cons_append]
  dsimp only
  rw [counted, if_pos ⟨by omega, by rw [List.length_append]; omega⟩, List.take_left]

/-- Settles O46: the decoder reads back what the encoder spells, behind the length byte. -/
theorem everyMessageIsReadBack : Obligations.EveryMessageIsReadBack := by
  intro i slot formed of
  obtain ⟨code, p, parts, short, read⟩ := spelledBy_of_wellFormed formed of
  have encoded : encodeCommand i = some (padPayloads (code :: byteOf p.length :: p)) := by
    unfold encodeCommand
    rw [parts, Option.map_some]
  exact ⟨_, encoded, (decodeMessage_padded slot code short).trans read,
    length_padPayloads (by rw [List.length_cons]; omega) (by rw [List.length_cons, List.length_cons]; omega)⟩

end Sys2Proof.Machine
end


section
/-! SUPPORT. A clear reading of an input and the zones it reaches (R122, R124, R126). -/

namespace Sys2Proof.Machine

/-! ## What a reading does to an input (R122, R124) -/

theorem Input.readsClear_eq (x : Input) (bit : Bool) :
    x.readsClear bit = if x.polarity = .clearWhenSet then bit else !bit := by
  unfold Input.readsClear
  cases x.polarity <;> rfl

theorem Input.take_unclear (x : Input) (n : Nat) : x.take n false = { x with clear := false, run := 0 } := rfl

theorem Input.take_clear (x : Input) (n : Nat) :
    x.take n true = { x with clear := x.clear || decide (n ≤ min (x.run + 1) 255), run := min (x.run + 1) 255 } := rfl

/-- A clear reading makes the UNCLEAR input CLEAR whose run it brings to the clear persistence. -/
theorem Input.take_reaches {x : Input} {n : Nat} (reached : n ≤ min (x.run + 1) 255) :
    x.take n true = { x with clear := true, run := min (x.run + 1) 255 } := by
  rw [Input.take_clear, decide_eq_true reached, Bool.or_true]

/-! ## The handing over of the changed inputs -/

/-- The zones follow the inputs first; the field wakes that run after them are the engine's. -/
theorem HandedOver.wakes {s u t : State} (h : HandedOver s u t) : ∃ v, FieldsFollow s u v ∧ EngineFrame v t ∧
    t = (List.finRange 240).foldl
      (fun w z => if (s.zst z).field = .unclear ∧ (v.zst z).field = .clear then w.fieldWake z else w) v := by
  obtain ⟨-, -, v, follow, woken⟩ := h
  refine ⟨v, follow, ?_, woken⟩
  rw [woken]
  refine foldList_keeps (P := EngineFrame v) _ (fun w z h => ?_) _ (.refl v)
  split
  · exact h.trans (.wakeZone w z _)
  · exact h

/-- The following zones leave the inputs as they are. -/
theorem FieldsFollow.input {s u v : State} (h : FieldsFollow s u v) (f : FieldSlotId) (i : LineId) : v.input f i = u.input f i := by
  rw [h.rest]
  rfl

theorem FieldsFollow.output {s u v : State} (h : FieldsFollow s u v) (f : FieldSlotId) (o : LineId) : v.output f o = u.output f o := by
  rw [h.rest]
  rfl

theorem setInput_onlyFieldSlots (s : State) (f : FieldSlotId) (i : LineId) (x : Input) : OnlyFieldSlots s (s.setInput f i x) := ⟨rfl⟩

section
variable {f : FieldSlotId} {i : LineId} {s : State}

/-- The event's row: the input that a clear reading brings to the clear persistence is handed over (R126). -/
theorem exec_clearPersistenceReached (released : s.resetPin = false) (synced : s.floorPort.state = .synced)
    (unclear : (s.input f i).clear = false) (reached : s.clearPersistence ≤ min ((s.input f i).run + 1) 255) :
    exec (.clearPersistenceReached f i) s = .next (s.handOver (s.setInput f i
      { s.input f i with clear := true, run := min ((s.input f i).run + 1) 255 })) := by
  refine congrArg Host.Outcome.next ((if_neg (by rw [released]; decide)).trans ?_)
  rw [Input.take_reaches reached, if_pos ⟨synced, unclear, rfl⟩]

/-- The event does nothing with the floor port lost, for a CLEAR input, and before the persistence. -/
theorem exec_clearPersistenceReached_none (released : s.resetPin = false)
    (row : s.floorPort.state = .lost ∨ (s.input f i).clear = true ∨ min ((s.input f i).run + 1) 255 < s.clearPersistence) :
    exec (.clearPersistenceReached f i) s = .next s := by
  refine congrArg Host.Outcome.next ((if_neg (by rw [released]; decide)).trans (if_neg ?_))
  rintro ⟨synced, unclear, reached⟩
  rcases row with lost | clear | short
  · rw [synced] at lost
    cases lost
  · rw [unclear] at clear
    cases clear
  · rw [Input.take_clear, unclear, Bool.false_or, decide_eq_true_eq] at reached
    omega

/-- One input that becomes CLEAR reaches the defined zones bound to it, and no others. -/
theorem handOver_setInput_clear {x : Input} (unclear : (s.input f i).clear = false) (clear : x.clear = true) :
    ∃ u, u.input f i = x ∧ (∀ g j, (g, j) ≠ (f, i) → u.input g j = s.input g j) ∧ (∀ g o, u.output g o = s.output g o) ∧
      (∀ z b, (s.zone z).defined = true → (s.zone z).fieldBinding = some b → b.slot = f → b.input = i →
        u.zst z = { s.zst z with field := .clear, blocked := false }) ∧
      (∀ z, (∀ b, (s.zone z).defined = true → (s.zone z).fieldBinding = some b → (b.slot, b.input) ≠ (f, i)) →
        u.zst z = s.zst z) ∧
      u = { s with fieldSlots := u.fieldSlots, zoneStates := u.zoneStates } ∧
      s.handOver (s.setInput f i x) = (List.finRange 240).foldl
        (fun v z => if (s.zst z).field = .unclear ∧ (u.zst z).field = .clear then v.fieldWake z else v) u ∧
      EngineFrame u (s.handOver (s.setInput f i x)) := by
  have self : (s.setInput f i x).input f i = x := (input_setInput s f f i i x).trans (if_pos ⟨rfl, rfl⟩)
  have other (g : FieldSlotId) (j : LineId) (ne : (g, j) ≠ (f, i)) : (s.setInput f i x).input g j = s.input g j :=
    (input_setInput s f g i j x).trans (if_neg fun ⟨slot, line⟩ => ne (by rw [slot, line]))
  have outputs (g : FieldSlotId) (o : LineId) : (s.setInput f i x).output g o = s.output g o := output_setInput s f g i o x
  obtain ⟨u, follow, frame, woken⟩ := (handedOver (setInput_onlyFieldSlots s f i x) outputs).wakes
  have rest : u = { s with fieldSlots := u.fieldSlots, zoneStates := u.zoneStates } := by
    have zones := follow.rest
    generalize u.zoneStates = states at zones
    rw [zones]
    rfl
  refine ⟨u, (follow.input f i).trans self, fun g j ne => (follow.input g j).trans (other g j ne),
    fun g o => (follow.output g o).trans (outputs g o), fun z b defined bound slot line => ?_, fun z unbound => ?_, rest,
    woken, frame⟩
  · subst slot line
    exact follow.cleared z b defined bound unclear ((congrArg Input.clear self).trans clear)
  · exact follow.others z fun b defined bound => by rw [other _ _ (unbound b defined bound)]

end

/-- Settles O44: the event hands over the one input that becomes CLEAR. -/
theorem aClearInputReachesItsZones : Obligations.AClearInputReachesItsZones := by
  refine ⟨fun x bit n => ⟨x.readsClear_eq bit, x.take_unclear n, x.take_clear n⟩, fun f i s released =>
    ⟨fun synced unclear reached => ?_, exec_clearPersistenceReached_none released⟩⟩
  obtain ⟨u, self, others, outputs, zones, unbound, rest, woken, frame⟩ := handOver_setInput_clear (f := f) (i := i)
    (x := { s.input f i with clear := true, run := min ((s.input f i).run + 1) 255 }) unclear rfl
  exact ⟨u, _, exec_clearPersistenceReached released synced unclear reached, self, others, outputs, zones, unbound, rest, woken, frame⟩

end Sys2Proof.Machine
end


section
/-! SUPPORT. The dispatch port's loss and return (R150, R152, R154). -/

namespace Sys2Proof.Machine

section
variable {s : State} {frame : List Byte}

/-! ## The events that a port's state excludes -/

theorem exec_dispatchPortLoss_none (released : s.resetPin = false)
    (row : s.dispatchPort.state = .lost ∨ s.dispatchPort.badRun ≠ 2 ∨ s.dispatchPort.window ≠ .open) :
    exec .dispatchPortLoss s = .next s := by
  refine congrArg Host.Outcome.next ((if_neg (by rw [released]; decide)).trans (if_neg ?_))
  rintro ⟨synced, third, opened⟩
  rcases row with lost | few | closed
  · rw [synced] at lost
    cases lost
  · exact few third
  · exact closed opened

theorem exec_dispatchPortReturn_none (released : s.resetPin = false) (row : s.dispatchPort.state = .synced ∨
    s.dispatchPort.goodRun ≠ 1 ∨ s.dispatchPort.window ≠ .open ∨ ¬GoodDispatcherFrame s frame) :
    exec (.dispatchPortReturn frame) s = .next s := by
  refine congrArg Host.Outcome.next ((if_neg (by rw [released]; decide)).trans (if_neg ?_))
  rintro ⟨lost, second, opened, good⟩
  rcases row with synced | first | closed | bad
  · rw [lost] at synced
    cases synced
  · exact first second
  · exact closed opened
  · exact bad ((dispatchFrameGood_iff s frame).1 good)

/-! ## The loss (R150, R154) -/

/-- Where no carrier that an order change would reach has a last order other than HOLD, the loss makes no pass. -/
theorem orderChanges_loss_none
    (still : ∀ c, (s.carrier c).state = .advancing → (s.carrier c).claimMode = .onOrder → (s.carrier c).lastOrder.kind = .hold) :
    s.orderChanges (fun c => (s.carrier c).lastOrder.kind != .hold) = s := by
  rw [orderChanges_eq s (P := fun c => (s.carrier c).lastOrder.kind ≠ .hold) (fun c => bne_iff_ne)]
  refine foldList_keeps (P := (· = s)) _ (fun v c same => ?_) _ rfl
  subst same
  exact if_neg fun ⟨moving, advancing, onOrder⟩ => moving (still c advancing onOrder)

/-! ## The return (R150, R152, R154) -/

/-- The second good frame in a run makes a port SYNCED. -/
theorem countGood_second {p : Port} (lost : p.state = .lost) (second : p.goodRun = 1) :
    p.countGood = { p with state := .synced, badRun := 0, goodRun := 0 } := by
  simp [Port.countGood, lost, second]

/-- The dispatch port SYNCED again, its flag set: the state that takes the frame's orders. -/
def State.dispatchHeard (s : State) : State :=
  { s with
    dispatchPort := { s.dispatchPort with state := .synced, badRun := 0, goodRun := 0 }
    flags := { s.flags with dispatchLink := true } }

theorem dispatchGood_second (lost : s.dispatchPort.state = .lost) (second : s.dispatchPort.goodRun = 1) :
    s.dispatchGood frame = s.dispatchHeard.handOnDispatch frame true := by
  unfold State.dispatchGood
  rw [lost, countGood_second lost second]
  rfl

theorem carrier_replaceOrders (s : State) (frame : List Byte) (c : CarrierId) :
    (s.replaceOrders frame).carrier c = { s.carrier c with lastOrder := orderAt frame c } :=
  carrier_foldCarriers (fun d r => { r with lastOrder := orderAt frame d }) s c

theorem replaceOrders_only (s : State) (frame : List Byte) :
    s.replaceOrders frame = { s with carriers := (s.replaceOrders frame).carriers } :=
  foldCarriers_only (fun c r => { r with lastOrder := orderAt frame c }) s

/-- A frame that returns the port changes the order of each carrier it does not order to HOLD. -/
theorem orderReadChanges_returned_iff (c : CarrierId) :
    s.orderReadChanges frame true c = true ↔ (orderAt frame c).kind ≠ .hold := bne_iff_ne

end

/-- Settles O43: the loss by the third bad frame, the return by the second good one, and the events that do nothing. -/
theorem theDispatchPortIsLostAndReturns : Obligations.TheDispatchPortIsLostAndReturns := by
  intro s released
  have only (frame : List Byte) := replaceOrders_only s.dispatchTaken.dispatchHeard frame
  have orders (frame : List Byte) := carrier_replaceOrders s.dispatchTaken.dispatchHeard frame
  have returned {frame : List Byte} (lost : s.dispatchPort.state = .lost) (second : s.dispatchPort.goodRun = 1)
      (opened : s.dispatchPort.window = .open) (good : GoodDispatcherFrame s frame) := exec_dispatchPortReturn released lost second opened good |>.trans
    (congrArg Host.Outcome.next (dispatchGood_second (s := s.dispatchTaken) lost second))
  refine ⟨fun synced third opened => ?loss, exec_dispatchPortLoss_none released,
    fun frame lost second opened good noFragment => ?noFragment, fun frame lost second opened good => ?good,
    fun frame => exec_dispatchPortReturn_none released⟩
  case loss =>
    refine ⟨s.dispatchTaken.dispatchUnheard, _, exec_dispatchPortLoss released synced third opened, rfl, ?_, ?_, fun still => ?_⟩
    all_goals rw [dispatchBad_third (s := s.dispatchTaken) synced third]
    · exact .orderChanges _ _
    · exact orderChanges_eq _ fun c => bne_iff_ne
    · exact orderChanges_loss_none (s := s.dispatchTaken.dispatchUnheard) still
  case noFragment =>
    rw [returned lost second opened good, State.handOnDispatch, takeFragment_none .operator noFragment]
    exact ⟨_, _, rfl, orders frame, only frame, .orderChanges _ _⟩
  case good =>
    rw [returned lost second opened good, State.handOnDispatch, orderChanges_eq _ orderReadChanges_returned_iff]
    exact ⟨_, orders frame, only frame, rfl⟩

end Sys2Proof.Machine
end


section
/-! SUPPORT. The floor port's loss and return (R125, R142, R150, R151, R153): the monitor's second reading at the loss changes nothing, and at the return the blocks take the frame in their order, the hold unit clearing the link flag at its turn. -/

namespace Sys2Proof.Machine

/-! ## The events that the port's state excludes -/

section
variable {s : State} {order : List FloorBlock} {frame : List Byte}

theorem exec_floorPortLoss_none (released : s.resetPin = false)
    (row : s.floorPort.state = .lost ∨ s.floorPort.badRun ≠ 2 ∨ s.floorPort.window ≠ .open) :
    exec .floorPortLoss s = .next s := by
  refine congrArg Host.Outcome.next ((if_neg (by rw [released]; decide)).trans (if_neg ?_))
  rintro ⟨synced, third, opened⟩
  rcases row with lost | few | closed
  · rw [synced] at lost
    cases lost
  · exact few third
  · exact closed opened

theorem exec_floorPortReturn_none (released : s.resetPin = false) (row : s.floorPort.state = .synced ∨
    s.floorPort.goodRun ≠ 1 ∨ s.floorPort.window ≠ .open ∨ ¬GoodFloorFrame s frame) :
    exec (.floorPortReturn order frame) s = .next s := by
  refine congrArg Host.Outcome.next ((if_neg (by rw [released]; decide)).trans (if_neg ?_))
  rintro ⟨lost, second, opened, good⟩
  rcases row with synced | first | closed | bad
  · rw [lost] at synced
    cases synced
  · exact first second
  · exact closed opened
  · exact bad ((floorFrameGood_iff s frame).1 good)

end

/-! ## The link flag and the district (R142) -/

section
variable (s : State)

/-- HOLD_CHANGE is set where the district's activity changes with the link flag; the entry stays and counts before and after. -/
theorem writeLinkFlag_eq (x : Bool) : s.writeLinkFlag x = { s with
    linkFlag := x
    flags := { s.flags with holdChange := s.flags.holdChange || (s.districtHold.active || x) != s.districtActive } } := by
  unfold State.writeLinkFlag
  dsimp only
  split
  · next same =>
    have : (s.districtHold.active || x) = s.districtActive := same
    simp [this]
  · next differ =>
    have : (s.districtHold.active || x) ≠ s.districtActive := differ
    simp [this, State.flagHoldChange]

/-- The link flag cleared, its change of the district flagged. -/
def State.linkCleared : State :=
  { s with
    linkFlag := false
    flags := { s.flags with holdChange := s.flags.holdChange || (s.linkFlag && !s.districtHold.active) } }

/-- The district ceases to be active where the link flag alone held it (R139, R142). -/
theorem clearLink_eq : s.clearLink =
    if s.linkFlag = true ∧ s.districtHold.active = false then s.linkCleared.holdLifted else s.linkCleared := by
  have changed : ((s.districtHold.active || false) != s.districtActive) = (s.linkFlag && !s.districtHold.active) := by
    unfold State.districtActive
    cases s.districtHold.active <;> cases s.linkFlag <;> rfl
  have ceases : (s.holdActive .district && !s.linkCleared.holdActive .district) = true ↔
      s.linkFlag = true ∧ s.districtHold.active = false := by
    show ((s.districtHold.active || s.linkFlag) && !(s.districtHold.active || false)) = true ↔ _
    cases s.districtHold.active <;> cases s.linkFlag <;> simp
  unfold State.clearLink State.afterLift
  rw [writeLinkFlag_eq, changed]
  exact ite_congr (propext ceases) (fun _ => rfl) (fun _ => rfl)

/-- A floor port's loss flags the district's change where the district was not active (R153, R142). -/
theorem holdChange_floorUnheard : s.floorUnheard.flags.holdChange = (s.flags.holdChange || !s.districtActive) := by
  unfold State.floorUnheard
  rw [emptyCandidates_only, State.setLink, writeLinkFlag_eq, Bool.or_true, Bool.true_bne]
  rfl

end

/-! ## A second unclear reading (R123, R124) -/

section
variable {s t : State}

theorem zoneStates_of_zst (same : ∀ z, t.zst z = s.zst z) : t.zoneStates = s.zoneStates := table_ext same

theorem fieldSlots_of_lines (inputs : ∀ f i, t.input f i = s.input f i) (outputs : ∀ f o, t.output f o = s.output f o) :
    t.fieldSlots = s.fieldSlots :=
  table_ext fun f => by
    have lines : (t.fieldSlot f).inputs = (s.fieldSlot f).inputs := table_ext (inputs f)
    have requests : (t.fieldSlot f).outputs = (s.fieldSlot f).outputs := table_ext (outputs f)
    show FieldSlot.mk (t.fieldSlot f).inputs (t.fieldSlot f).outputs = s.fieldSlot f
    rw [lines, requests]

/-- Where every input is UNCLEAR with a run of 0, a bad frame's readings change nothing. -/
theorem monitorBad_of_unclear (unclear : ∀ f i, (s.input f i).clear = false ∧ (s.input f i).run = 0) : s.monitorBad = s := by
  have inputs (f : FieldSlotId) (i : LineId) : (s.filterInputs fun _ _ => false).input f i = s.input f i := by
    obtain ⟨clear, run⟩ := unclear f i
    rw [input_unclear, ← clear, ← run]
  obtain ⟨only, outputs, follow⟩ :=
    (handedOver_unclear fun f i => by rw [inputs]; exact (unclear f i).1).1 (monitorBad_handedOver s)
  have slots := fieldSlots_of_lines inputs outputs
  have zones := zoneStates_of_zst fun z => follow.others z fun b _ _ => by rw [inputs]
  have rest := follow.rest
  generalize s.monitorBad = t at zones rest ⊢
  generalize (s.filterInputs fun _ _ => false) = u at only slots rest
  rw [rest, zones, only, slots]

/-- The monitor has read the inputs UNCLEAR, and reads them so again for the lost port: that leaves the loss as it is. -/
theorem loseFloor_of_unclear (unclear : ∀ f i, (s.input f i).clear = false ∧ (s.input f i).run = 0) :
    s.loseFloor = s.floorUnheard.endMessage .safety := by
  rw [loseFloor_eq, monitorBad_of_unclear fun f i => by rw [input_floorUnheard]; exact unclear f i]

/-- What the loss makes of a state whose inputs are UNCLEAR. -/
theorem loseFloor_of_unclear_only (unclear : ∀ f i, (s.input f i).clear = false ∧ (s.input f i).run = 0) : s.loseFloor = { s with
    linkFlag := true, flags := { s.flags with floorLink := true, holdChange := s.flags.holdChange || !s.districtActive }
    validators := s.loseFloor.validators, safetySlot := { s.safetySlot with machine := .idle } } := by
  have only := floorUnheard_only s
  rw [holdChange_floorUnheard] at only
  rw [loseFloor_of_unclear unclear]
  generalize s.floorUnheard = e at only ⊢
  rw [only]
  rfl

end

/-! ## The loss, part by part (R150, R153) -/

/-- The third bad frame of a SYNCED port: the monitor reads it, and the port is lost. -/
theorem floorBad_windowTaken_third {s : State} (synced : s.floorPort.state = .synced) (third : s.floorPort.badRun = 2) :
    s.windowTaken.floorBad = { s.windowTaken.monitorBad with
      floorPort := { s.floorPort with state := .lost, badRun := 0, goodRun := 0, window := .taken } }.loseFloor :=
  floorBad_third (s := s.windowTaken) synced third

/-- The statement's part on the loss, of the state that has counted the third bad frame. -/
theorem floorPort_lost (s : State) (p : Port) : ∀ t : State, t = { s.windowTaken.monitorBad with floorPort := p }.loseFloor →
    t.floorPort = p ∧ t.flags.floorLink = true ∧ t.linkFlag = true ∧ t.machine .safety = .idle ∧
    t.machine .operator = s.machine .operator ∧ (∀ c, t.validator c = { s.validator c with candidate := none }) ∧
    (∀ f i, t.input f i = { s.input f i with clear := false, run := 0 }) ∧ (∀ c, (t.carrier c).report = (s.carrier c).report) ∧
    t.dispatchPort = s.dispatchPort ∧
    ∃ u v : State, (∀ f i, u.input f i = { s.input f i with clear := false, run := 0 }) ∧ HandedOver s u v ∧
      t = { v with
        floorPort := t.floorPort, linkFlag := true, validators := t.validators
        flags := { s.flags with floorLink := true, holdChange := s.flags.holdChange || !s.districtActive }
        safetySlot := { s.safetySlot with machine := .idle } } := by
  rintro _ rfl
  obtain ⟨port, inputs, ⟨u, v, unclear, handed, restored⟩, -, validators, dispatch⟩ := badFrame_taken s p _ rfl
  have counted : ({ s.windowTaken.monitorBad with floorPort := p } : State) = { s with
      floorPort := p, fieldSlots := s.windowTaken.monitorBad.fieldSlots, zoneStates := s.windowTaken.monitorBad.zoneStates } := by
    rw [monitorBad_only]
    rfl
  generalize ({ s.windowTaken.monitorBad with floorPort := p } : State) = w at port inputs restored validators dispatch counted ⊢
  have only := loseFloor_of_unclear_only (s := w) fun f i => by rw [inputs]; exact ⟨rfl, rfl⟩
  have candidates := validator_loseFloor w
  have reading := input_loseFloor w
  generalize w.loseFloor = t at only candidates reading ⊢
  have flags : w.flags = s.flags := by rw [counted]
  have safety : w.safetySlot = s.safetySlot := by rw [counted]
  have operator : w.operatorSlot = s.operatorSlot := by rw [counted]
  have district : w.districtActive = s.districtActive := by rw [counted]; rfl
  have carriers : w.carriers = s.carriers := by rw [counted]
  refine ⟨by rw [only, port], by rw [only], by rw [only], by rw [only]; rfl, ?operator, fun c => (candidates c).trans ?candidate,
    fun f i => (reading f i).trans (by rw [inputs]), fun c => ?report, by rw [only, dispatch], u, v, unclear, handed, ?rest⟩
  case operator =>
    rw [only]
    exact congrArg MgmtState.machine operator
  case candidate =>
    unfold State.validator
    rw [validators]
  case report =>
    rw [only]
    unfold State.carrier
    rw [carriers]
  case rest =>
    have port : t.floorPort = w.floorPort := by rw [only]
    rw [port]
    generalize t.validators = emptied at only
    rw [only, flags, safety, district]
    generalize w.floorPort = q at restored
    rw [restored]

/-! ## What taking the reports leaves of the link (R153, R142) -/

/-- The link flag and the event flag of the floor link, which only the port's loss and return, the hold unit and Read Events write. -/
structure LinkKept (s t : State) : Prop where
  linkFlag : t.linkFlag = s.linkFlag
  floorLink : t.flags.floorLink = s.flags.floorLink

/-- The engine leaves the link. -/
theorem EngineFrame.linkKept {s t : State} (h : EngineFrame s t) : LinkKept s t := ⟨h.linkFlag, by rw [h.flags]⟩

namespace LinkKept

theorem refl (s : State) : LinkKept s s := ⟨rfl, rfl⟩

theorem trans {s t u : State} (h : LinkKept s t) (k : LinkKept t u) : LinkKept s u :=
  ⟨k.linkFlag.trans h.linkFlag, k.floorLink.trans h.floorLink⟩

theorem feedHold (s : State) (n : HoldName) (c : CarrierId) (k : FaultKind) : LinkKept s (s.feedHold n c k) := by
  unfold State.feedHold
  cases n with
  | sector n => rw [writeHoldEntry_sector]; exact ⟨rfl, rfl⟩
  | district => rw [writeHoldEntry_district]; exact ⟨rfl, rfl⟩

theorem applyPolicy (s : State) (c : CarrierId) (k : FaultKind) : LinkKept s (s.applyPolicy c k) := by
  unfold State.applyPolicy
  split
  · exact refl s
  · exact feedHold ..
  · split <;> exact feedHold ..

theorem firstFault (s : State) (c : CarrierId) (k : FaultKind) : LinkKept s (s.firstFault c k) := by
  have captured : LinkKept s (s.captureFault c k) := ⟨rfl, rfl⟩
  have marked (t : State) : LinkKept t (t.faultMarked c) := ⟨rfl, rfl⟩
  rw [firstFault_eq]
  exact ((captured.trans (routeLost_faultGrounded_frame s c k).linkKept).trans (marked _)).trans (applyPolicy _ c k)

theorem raiseFault (s : State) (c : CarrierId) (k : FaultKind) : LinkKept s (s.raiseFault c k) := by
  unfold State.raiseFault
  split
  · exact refl s
  · exact ⟨rfl, rfl⟩
  all_goals exact firstFault s c k

theorem progress (s : State) (c : CarrierId) : LinkKept s (s.progress c) := by
  unfold State.progress
  refine trans ?_ (EngineFrame.runPassIfAdvancing _ c).linkKept
  split
  · exact refl s
  · exact (EngineFrame.releaseAll s c _).linkKept

theorem actOnReport (s : State) (c : CarrierId) (r : ReadReport) : LinkKept s (s.actOnReport c r) := by
  have moving (p : Report) : LinkKept s (match s.reportFault c p with
      | some k => s.raiseFault c k
      | none => s.progress c) := by
    split
    · exact raiseFault ..
    · exact progress ..
  cases r with
  | absent => exact refl s
  | present p =>
    unfold State.actOnReport
    dsimp only
    split
    · exact refl s
    · exact refl s
    all_goals exact moving p

theorem validate (s : State) (c : CarrierId) (r : ReadReport) : LinkKept s (s.validate c r) := by
  cases new : (s.carrier c).report.isNew r with
  | false =>
    rw [validate_of_old new]
    exact refl s
  | true =>
    have replaced : LinkKept s (s.replaceReport c r) := by
      rw [(reportReplaced s c r).rest]
      exact ⟨rfl, rfl⟩
    rw [validate_of_new new]
    exact replaced.trans (actOnReport _ c r)

theorem setValidator (s : State) (c : CarrierId) (x : ValidatorSlot) : LinkKept s (s.setValidator c x) := ⟨rfl, rfl⟩

theorem differ (s : State) (c : CarrierId) (r : ReadReport) : LinkKept s (s.differ c r) := by
  unfold State.differ
  dsimp only
  split
  · exact (setValidator s c _).trans (raiseFault ..)
  · exact setValidator s c _

theorem compare (s : State) (c : CarrierId) (r : ReadReport) : LinkKept s (s.compare c r) := by
  unfold State.compare
  dsimp only
  split
  · exact setValidator s c _
  · split
    · exact (setValidator s c _).trans (validate ..)
    · exact differ s c r

theorem countSilence (s : State) (c : CarrierId) (r : ReadReport) : LinkKept s (s.countSilence c r) := by
  unfold State.countSilence
  dsimp only
  split
  · exact (setValidator s c _).trans (raiseFault ..)
  · exact setValidator s c _

theorem takeReports (s : State) (frame : List Byte) : LinkKept s (s.takeReports frame) :=
  foldList_keeps (P := LinkKept s) (fun t c => t.takeReport c (reportIn frame c))
    (fun t c h => h.trans ((compare t c _).trans (countSilence _ c _))) allCarriers (.refl s)

/-- The monitor hands its changes to the engine and leaves the link (R126). -/
theorem monitorGood (s : State) (frame : List Byte) : LinkKept s (s.monitorGood frame) := by
  have read := takeReadings_handedOver s (s.frameReading frame)
  obtain ⟨v, follow, wakes, -⟩ := read.wakes
  have followed : LinkKept s v := by
    rw [follow.rest, read.1]
    exact ⟨rfl, rfl⟩
  exact followed.trans wakes.linkKept

end LinkKept

/-! ## The blocks of a frame that returns the port (R151, R142) -/

section
variable {s t u : State} {frame : List Byte}

/-- What some blocks have made of a frame that returns the port: what they make of any frame, and the link flag is clear once
the hold unit has had its turn. -/
structure ReturnTaken (s t : State) (frame : List Byte) (blocks : List FloorBlock) : Prop extends BlocksTaken s t frame blocks where
  linkFlag : t.linkFlag = if FloorBlock.holdUnit ∈ blocks then false else s.linkFlag
  floorLink : t.flags.floorLink = s.flags.floorLink

theorem BlocksTaken.ofReadersKept (h : FrameReadersKept s t) {blocks : List FloorBlock} (noValidator : .validator ∉ blocks)
    (noMonitor : .monitor ∉ blocks) : BlocksTaken s t frame blocks :=
  { h.toPortsKept with
    candidate := fun c => by rw [if_neg noValidator, h.validator]
    input := fun f i => by rw [if_neg noMonitor, input_of_inputs (h.inputs f)] }

/-- The blocks but the hold unit leave the link. -/
theorem ReturnTaken.ofLinkKept {blocks : List FloorBlock} (taken : BlocksTaken s t frame blocks) (kept : LinkKept s t)
    (noHoldUnit : .holdUnit ∉ blocks) : ReturnTaken s t frame blocks :=
  { taken with
    linkFlag := by rw [if_neg noHoldUnit, kept.linkFlag]
    floorLink := kept.floorLink }

/-- The hold unit clears the link flag and hands the district's change to the engine (R142). -/
theorem ReturnTaken.holdUnit (s : State) (frame : List Byte) : ReturnTaken s s.clearLink frame [.holdUnit] := by
  have cleared : FrameReadersKept s s.linkCleared := { FrameReadersKept.refl s with }
  rw [clearLink_eq]
  have lifted := EngineFrame.liftedIf s.linkCleared (s.linkFlag = true ∧ s.districtHold.active = false)
  generalize (if s.linkFlag = true ∧ s.districtHold.active = false then s.linkCleared.holdLifted else s.linkCleared) = t at lifted ⊢
  exact {
    BlocksTaken.ofReadersKept (cleared.trans lifted.readersKept) (by simp) (by simp) with
    linkFlag := by rw [if_pos (List.mem_singleton_self _), lifted.linkFlag]; rfl
    floorLink := by rw [lifted.flags]; rfl }

/-- A block after another, each at its one turn. -/
theorem ReturnTaken.cons {b : FloorBlock} {blocks : List FloorBlock} (first : ReturnTaken s t frame [b])
    (more : ReturnTaken t u frame blocks) (once : b ∉ blocks) : ReturnTaken s u frame (b :: blocks) := by
  refine { BlocksTaken.cons first.toBlocksTaken more.toBlocksTaken once with
    linkFlag := ?_, floorLink := more.floorLink.trans first.floorLink }
  rw [more.linkFlag, first.linkFlag]
  by_cases later : FloorBlock.holdUnit ∈ blocks <;> simp [later]

variable (synced : s.floorPort.state = .synced) (noFragment : (frame.getD 181 0).getLsbD 4 = false)
include synced noFragment

/-- One block at a frame that returns the port and carries no fragment. -/
theorem returnTaken_one (b : FloorBlock) : ReturnTaken s (s.floorBlock frame true b) frame [b] := by
  obtain ⟨validator, monitor, management, holdUnit⟩ := floorBlock_synced (frame := frame) (returned := true) synced
  cases b with
  | validator =>
    rw [validator]
    exact .ofLinkKept (.validator s frame) (.takeReports s frame) (by simp)
  | monitor =>
    rw [monitor]
    exact .ofLinkKept (.monitor s frame) (.monitorGood s frame) (by simp)
  | management =>
    rw [management, takeFragment_none .safety noFragment]
    exact .ofLinkKept (.none s frame (by simp) (by simp)) (.refl s) (by simp)
  | holdUnit =>
    rw [holdUnit]
    exact .holdUnit s frame

theorem returnTaken_all {blocks : List FloorBlock} (once : blocks.Nodup) :
    ReturnTaken s (blocks.foldl (fun t b => t.floorBlock frame true b) s) frame blocks := by
  induction blocks generalizing s with
  | nil => exact .ofLinkKept (.none s frame (by simp) (by simp)) (.refl s) (by simp)
  | cons b blocks ih =>
    obtain ⟨new, once⟩ := List.nodup_cons.1 once
    have first := returnTaken_one synced noFragment b
    exact first.cons (ih (by rw [first.floorPort]; exact synced) once) new

end

/-! ## The return (R150, R151) -/

/-- The floor port SYNCED again, its flag set and the partner's frame number kept: the state whose blocks take the frame. -/
def State.floorHeard (s : State) (frame : List Byte) : State :=
  { s with
    floorPort := { s.floorPort with state := .synced, badRun := 0, goodRun := 0, window := .taken }
    flags := { s.flags with floorLink := true }
    floorPartner := halfOf (frame.getD 0 0) (frame.getD 1 0) }

theorem floorGood_second {s : State} {order : List FloorBlock} {frame : List Byte} (lost : s.floorPort.state = .lost)
    (second : s.floorPort.goodRun = 1) (ordered : floorOrderOk order = true) :
    s.windowTaken.floorGood order frame = order.foldl (fun t b => t.floorBlock frame true b) (s.floorHeard frame) := by
  have taken : s.windowTaken.floorPort.state = .lost := lost
  have counted : s.windowTaken.floorPort.countGood =
      { s.floorPort with state := .synced, badRun := 0, goodRun := 0, window := .taken } :=
    countGood_second (p := s.windowTaken.floorPort) lost second
  have handed : s.windowTaken.floorGood order frame =
      { s.windowTaken with floorPort := s.windowTaken.floorPort.countGood }.flagFloorLink.handOnFloor order frame true := by
    unfold State.floorGood
    rw [taken, counted]
  rw [handed, counted, State.handOnFloor, floorSchedule_of_ok ordered]
  rfl

/-- Settles O42: the loss by the third bad frame, the return by the second good one, the link flag cleared, and the events that do
nothing. -/
theorem theFloorPortIsLostAndReturns : Obligations.TheFloorPortIsLostAndReturns := by
  intro s released
  refine ⟨fun synced third opened => ?loss, exec_floorPortLoss_none released,
    fun order frame ordered lost second opened good noFragment => ?noFragment,
    fun order frame ordered lost second opened good => ?good, ?link, fun order frame => exec_floorPortReturn_none released⟩
  case loss =>
    rw [exec_floorPortLoss released synced third opened, floorBad_windowTaken_third synced third]
    exact ⟨_, rfl, floorPort_lost s _ _ rfl⟩
  case noFragment =>
    rw [exec_floorPortReturn released lost second opened good, floorGood_second lost second ordered]
    obtain ⟨once, all⟩ := blocks_of_ok ordered
    have taken := returnTaken_all (s := s.floorHeard frame) rfl noFragment once
    exact ⟨_, rfl, taken.floorPort, taken.floorLink, taken.linkFlag.trans (if_pos (all _)), taken.floorPartner,
      fun c => (taken.candidate c).trans (if_pos (all _)), taken.dispatchPort⟩
  case good =>
    rw [exec_floorPortReturn released lost second opened good, floorGood_second lost second ordered]
    rfl
  case link =>
    rintro _ rfl
    exact clearLink_eq s

end Sys2Proof.Machine
end


section
/-! SUPPORT. A job that is EXECUTING in the other slot machine (R161, R167, R168): what each command leaves of the slot machines, and the note that a table write makes of itself. -/

namespace Sys2Proof.Machine

/-! ## The slot machines kept -/

/-- Both slot machines stay as they are. -/
structure MachinesKept (s t : State) : Prop where
  machine : ∀ slot, t.machine slot = s.machine slot

namespace MachinesKept

theorem refl (s : State) : MachinesKept s s := ⟨fun _ => rfl⟩

theorem trans {s t u : State} (h : MachinesKept s t) (k : MachinesKept t u) : MachinesKept s u :=
  ⟨fun slot => (k.machine slot).trans (h.machine slot)⟩

/-- A slot's machine is a part of its management state. -/
theorem ofMgmt {s t : State} (same : ∀ slot, t.mgmt slot = s.mgmt slot) : MachinesKept s t :=
  ⟨fun slot => congrArg MgmtState.machine (same slot)⟩

theorem modCarrier (s : State) (c : CarrierId) (f : Carrier → Carrier) : MachinesKept s (s.modCarrier c f) := ⟨fun _ => rfl⟩

end MachinesKept

/-- The engine runs no slot machine. -/
theorem EngineFrame.machinesKept {s t : State} (h : EngineFrame s t) : MachinesKept s t := ⟨h.machines⟩

/-! ## The commands that write no table -/

section
variable (s : State)

theorem machines_setWatch (slot : MgmtSlot) (x : Watch) : MachinesKept s (s.setWatch slot x) :=
  ⟨fun a => machine_setWatch s slot a x⟩

theorem machines_writeHoldEntry (n : HoldName) (e : HoldEntry) : MachinesKept s (s.writeHoldEntry n e) := by
  cases n with
  | sector n => rw [writeHoldEntry_sector]; exact ⟨fun _ => rfl⟩
  | district => rw [writeHoldEntry_district]; exact ⟨fun _ => rfl⟩

theorem machines_afterLift (t : State) (n : HoldName) : MachinesKept t (t.afterLift s n) := (EngineFrame.liftedIf t _).machinesKept

theorem machines_enrol (c : CarrierId) (f r : ZoneId) : MachinesKept s (s.enrol c f r) where
  machine slot := by
    unfold State.machine
    rw [mgmt_enrol]

theorem machines_cancel (c : CarrierId) : MachinesKept s (s.cancel c) := by
  unfold State.cancel
  extract_lets s1 s2 s3 s4
  have unqueued : EngineFrame s s1 := by
    unfold s1
    split
    · exact (EngineFrame.leaveQueue s c).trans (.clearWait ..)
    · exact .refl s
  have idle : EngineFrame s1 s2 := by
    unfold s2
    split
    · exact .refl s1
    · exact .enterState ..
  have routeless : EngineFrame s3 s4 := by
    unfold s4
    split
    · exact (EngineFrame.detachRoute s3 c).trans (.undirect ..)
    · exact .refl s3
  exact ((((unqueued.trans idle).trans (.leaveClaim s2 c)).trans routeless).trans
    ((EngineFrame.breakWatch s4 c).trans (.releaseAll _ c _))).machinesKept

/-- A carrier relieved of its fault: zones released, the fault kind gone, and another state entered (R67, R68). -/
theorem machines_relieve (c : CarrierId) (zs : List ZoneId) (x : CarrierState) : MachinesKept s (s.relieve c zs x) :=
  (MachinesKept.modCarrier s c _).trans (relieve_frame s c zs x).machinesKept

theorem machines_clearFaultOf (c : CarrierId) : MachinesKept s (s.clearFaultOf c) := by
  unfold State.clearFaultOf
  split
  · exact machines_relieve s c [] .idle
  · exact machines_relieve s c _ .idle

theorem machines_parametrized (c : CarrierId) (m : ClaimMode) (h : Nat) (p : Priority) (l : ClipMode) :
    MachinesKept s (s.parametrized c m h p l) := by
  have written := MachinesKept.modCarrier s c fun r => { r with claimMode := m, horizon := h, priority := p, clipMode := l }
  unfold State.parametrized
  generalize s.modCarrier c _ = t at written ⊢
  exact written.trans (EngineFrame.breakWatch t c).machinesKept

end

/-- The rules of the commands that change the state and no table leave the slot machines. -/
structure KeepsMachines (rule : State → State × Answer) : Prop where
  kept : ∀ s, MachinesKept s (rule s).1

theorem keepsMachines_identify : KeepsMachines identify := ⟨fun _ => ⟨fun _ => rfl⟩⟩

theorem keepsMachines_writeDistrictParameters (a b c : Half) : KeepsMachines (writeDistrictParameters a b c) := ⟨fun s => by
  unfold writeDistrictParameters
  dsimp only
  split
  · exact .refl s
  · exact ⟨fun _ => rfl⟩⟩

theorem keepsMachines_readEvents : KeepsMachines readEvents := ⟨fun s => by
  have only := clearFlags_only s
  show MachinesKept s s.clearFlags
  generalize s.clearFlags = t at only ⊢
  rw [only]
  exact ⟨fun _ => rfl⟩⟩

theorem keepsMachines_setEventMask (masks : Half) : KeepsMachines (setEventMask masks) := ⟨fun _ => ⟨fun _ => rfl⟩⟩

theorem keepsMachines_admitCarrier (c f r : Byte) : KeepsMachines (admitCarrier c f r) := ⟨fun s => by
  unfold admitCarrier
  split
  · split
    · exact .refl s
    · exact machines_enrol ..
  · exact .refl s⟩

theorem keepsMachines_assignRoute (c r : Byte) : KeepsMachines (assignRoute c r) := ⟨fun s => by
  unfold assignRoute
  split
  · split
    · exact .refl s
    split
    · exact .refl s
    split
    · exact .refl s
    split
    · exact .refl s
    · exact (((EngineFrame.takeRoute ..).trans (.enterState ..)).trans (.runPass ..)).machinesKept
  · exact .refl s⟩

theorem keepsMachines_cancelRoute (c : Byte) : KeepsMachines (cancelRoute c) := ⟨fun s => by
  unfold cancelRoute
  split
  · exact .refl s
  · next c _ =>
    have cancelled := machines_cancel s c
    split
    · exact .refl s
    · exact .refl s
    all_goals exact cancelled⟩

theorem keepsMachines_setCarrier (c m h p l : Byte) : KeepsMachines (setCarrier c m h p l) := ⟨fun s => by
  unfold setCarrier
  split
  · next c m p l _ _ _ _ =>
    dsimp only
    split
    · exact .refl s
    split
    · exact .refl s
    have written := machines_parametrized s c m h.toNat p l
    split
    · exact written.trans (EngineFrame.runPassIfAdvancing ..).machinesKept
    · exact written
  · exact .refl s⟩

theorem keepsMachines_clearFault (c : Byte) : KeepsMachines (clearFault c) := ⟨fun s => by
  unfold clearFault
  split
  · exact .refl s
  · split
    · exact .refl s
    split
    · exact .refl s
    · exact machines_clearFaultOf ..⟩

theorem keepsMachines_retireCarrier (c : Byte) : KeepsMachines (retireCarrier c) := ⟨fun s => by
  unfold retireCarrier
  split
  · exact .refl s
  · next c _ =>
    have retired : MachinesKept s (s.retire c) := machines_relieve s c _ .vacant
    have unrouted : MachinesKept s (if (s.carrier c).route.isSome then (s, Answer.bare .wrongState) else (s.retire c, .ok)).1 := by
      split
      · exact .refl s
      · exact retired
    split
    · exact .refl s
    · exact .refl s
    · exact .refl s
    all_goals exact unrouted⟩

theorem keepsMachines_watchCarrier (slot : MgmtSlot) (c : Byte) : KeepsMachines (watchCarrier slot c) := ⟨fun s => by
  unfold watchCarrier
  split
  · exact .refl s
  · exact machines_setWatch ..⟩

theorem keepsMachines_replaceRoute (slot : MgmtSlot) (c r : Byte) (h : Half) : KeepsMachines (replaceRoute slot c r h) := ⟨fun s => by
  have unwatched := machines_setWatch s slot ⟨none, false⟩
  unfold replaceRoute
  dsimp only
  generalize s.setWatch slot ⟨none, false⟩ = t at unwatched ⊢
  split
  · next c r h _ _ _ =>
    have replaced := unwatched.trans (EngineFrame.replace t c r h).machinesKept
    split
    · exact unwatched
    split
    · exact unwatched
    split
    · exact unwatched
    split
    · exact unwatched
    split
    · exact unwatched
    · dsimp only
      exact replaced
  · exact unwatched⟩

theorem keepsMachines_leaveService : KeepsMachines leaveService := ⟨fun s => by
  unfold leaveService
  split
  · exact .refl s
  · exact ⟨fun _ => rfl⟩⟩

theorem keepsMachines_armStopLine : KeepsMachines armStopLine := ⟨fun s => by
  unfold armStopLine
  split
  · exact .refl s
  · dsimp only
    split
    · exact ⟨fun _ => rfl⟩
    · exact ⟨fun _ => rfl⟩⟩

theorem keepsMachines_resume : KeepsMachines resume := ⟨fun s => by
  have cleared : MachinesKept s { s with stopMarker := false }.flagStop := ⟨fun _ => rfl⟩
  unfold resume
  generalize ({ s with stopMarker := false } : State).flagStop = t at cleared ⊢
  split
  · exact .refl s
  split
  · exact .refl s
  · dsimp only
    exact cleared.trans (EngineFrame.claimAll t).machinesKept⟩

theorem keepsMachines_holdSector (n : Byte) : KeepsMachines (holdSector n) := ⟨fun s => by
  unfold holdSector
  split
  · exact .refl s
  · exact machines_writeHoldEntry ..⟩

theorem keepsMachines_holdDistrict : KeepsMachines holdDistrict := ⟨fun s => machines_writeHoldEntry s _ _⟩

theorem keepsMachines_liftHold (n : Byte) : KeepsMachines (liftHold n) := ⟨fun s => by
  unfold liftHold
  split
  · exact .refl s
  · split
    · exact .refl s
    · exact (machines_writeHoldEntry s _ _).trans (machines_afterLift ..)⟩

theorem keepsMachines_writePolicy (actions : Vector Byte 8) : KeepsMachines (writePolicy actions) := ⟨fun s => by
  unfold writePolicy
  dsimp only
  split
  · exact ⟨fun _ => rfl⟩
  · exact .refl s⟩

/-! ## A command at its slot machine leaves the other -/

section
variable {slot : MgmtSlot} {code : Byte} {s : State} {body : State → State × Reply}

/-- What a command leaves of the slot machines, its own machine's passage left out. -/
theorem otherMachine_takeCommand (kept : MachinesKept s (body s).1) :
    (takeCommand slot code s body).machine (otherSlot slot) = s.machine (otherSlot slot) := by
  have passed : (match body s with
      | (t, .answer a) => t.setMachine slot (.answering (a.message code) 0)
      | (t, .executing job) => t.setMachine slot (.executing job 0 false)
      | (t, .silent) => t).machine (otherSlot slot) = s.machine (otherSlot slot) := by
    have other := kept.machine (otherSlot slot)
    split
    · next run => rw [machine_setMachine_other, ← other, run]
    · next run => rw [machine_setMachine_other, ← other, run]
    · next run => rw [← other, run]
  unfold takeCommand
  split
  · rfl
  split
  · rfl
  · rfl
  all_goals exact passed

theorem otherMachine_reading (f : State → Answer) :
    (takeCommand slot code s (reading f)).machine (otherSlot slot) = s.machine (otherSlot slot) :=
  otherMachine_takeCommand (.refl s)

theorem otherMachine_changing {rule : State → State × Answer} (keeps : KeepsMachines rule) :
    (takeCommand slot code s (changing rule)).machine (otherSlot slot) = s.machine (otherSlot slot) :=
  otherMachine_takeCommand (keeps.kept s)

theorem otherMachine_safety {rule : State → State × Answer} (keeps : KeepsMachines rule) :
    (takeCommand slot code s (safetyOnly slot (changing rule))).machine (otherSlot slot) = s.machine (otherSlot slot) := by
  refine otherMachine_takeCommand ?_
  cases slot
  · exact .refl s
  · exact keeps.kept s

theorem otherMachine_enterService :
    (takeCommand slot code s enterService).machine (otherSlot slot) = s.machine (otherSlot slot) := by
  refine otherMachine_takeCommand ?_
  unfold enterService
  split
  · exact .refl s
  · exact .refl s

end

/-- A command that writes no table and is no Reset leaves the other slot machine. -/
theorem otherMachine_of_noTable {i : Instr} {slot : MgmtSlot} {s t : State} (own : i.slotOf = some slot) (noReset : i.isReset = false)
    (noTable : i.writesTable = false) (run : exec i s = .next t) : t.machine (otherSlot slot) = s.machine (otherSlot slot) := by
  cases i <;> cases own
  all_goals cases run
  case identify => exact otherMachine_changing keepsMachines_identify
  case writeDistrictParameters => exact otherMachine_changing (keepsMachines_writeDistrictParameters _ _ _)
  case readEvents => exact otherMachine_changing keepsMachines_readEvents
  case setEventMask => exact otherMachine_changing (keepsMachines_setEventMask _)
  case admitCarrier => exact otherMachine_changing (keepsMachines_admitCarrier _ _ _)
  case assignRoute => exact otherMachine_changing (keepsMachines_assignRoute _ _)
  case cancelRoute => exact otherMachine_changing (keepsMachines_cancelRoute _)
  case setCarrier => exact otherMachine_changing (keepsMachines_setCarrier _ _ _ _ _)
  case clearFault => exact otherMachine_changing (keepsMachines_clearFault _)
  case retireCarrier => exact otherMachine_changing (keepsMachines_retireCarrier _)
  case watchCarrier => exact otherMachine_changing (keepsMachines_watchCarrier slot _)
  case replaceRoute => exact otherMachine_changing (keepsMachines_replaceRoute slot _ _ _)
  case leaveService => exact otherMachine_safety keepsMachines_leaveService
  case armStopLine => exact otherMachine_safety keepsMachines_armStopLine
  case resume => exact otherMachine_safety keepsMachines_resume
  case holdSector => exact otherMachine_safety (keepsMachines_holdSector _)
  case holdDistrict => exact otherMachine_safety keepsMachines_holdDistrict
  case liftHold => exact otherMachine_safety (keepsMachines_liftHold _)
  case writePolicy => exact otherMachine_safety (keepsMachines_writePolicy _)
  case enterService => exact otherMachine_enterService
  case checksum => exact otherMachine_takeCommand (.refl s)
  case reset => cases noReset
  case writeZone | setConflictPair | clearConflictPair | writeCorridor | writeRoute | writeHops => cases noTable
  all_goals exact otherMachine_reading _

/-! ## The commands that write a table -/

/-- What a table write comes to: a refusal that changes nothing, or a write that is answered OK or PARTIAL and has made its note at
the other slot machine (R161). -/
inductive TableWrite (slot : MgmtSlot) (s : State) : State × Answer → Prop
  | refused {a : Answer} (refusal : 2 ≤ a.status.code.toNat) : TableWrite slot s (s, a)
  | applied {t : State} {a : Answer} (done : a.status.code.toNat < 2) (noted : MachinesKept (s.noteTableWrite slot) t) :
    TableWrite slot s (t, a)

section
variable {slot : MgmtSlot} {s t : State}

theorem TableWrite.bad : TableWrite slot s (s, .bare .badItem) := .refused (by decide)

theorem TableWrite.busy : TableWrite slot s (s, .bare .busyItem) := .refused (by decide)

theorem TableWrite.check (f : CheckFailure) : TableWrite slot s (s, .check f) := .refused (by decide : 2 ≤ Status.checkFailed.code.toNat)

theorem TableWrite.ok (noted : MachinesKept (s.noteTableWrite slot) t) : TableWrite slot s (t, .ok) := .applied (by decide) noted

/-- The note is the same whether it is made before the write or after it. -/
theorem machines_noted (same : ∀ x, t.mgmt x = s.mgmt x) : MachinesKept (s.noteTableWrite slot) (t.noteTableWrite slot) := by
  rw [noteTableWrite_of_machine slot same]
  exact ⟨fun x => by cases x <;> rfl⟩

/-- The note itself: a job EXECUTING in the other slot sees the write. -/
theorem machine_noteTableWrite {job : Job} {n : Nat} {written : Bool} (running : s.machine (otherSlot slot) = .executing job n written) :
    (s.noteTableWrite slot).machine (otherSlot slot) = .executing job n true := by
  unfold State.noteTableWrite
  rw [running]
  exact machine_setMachine ..

theorem mgmt_writeHopsAt (n : Nat) (l : List Hop) (x : MgmtSlot) : (s.writeHopsAt n l).mgmt x = s.mgmt x := by
  induction l generalizing s n with
  | nil => rfl
  | cons h rest ih => exact (ih (s := s.setHop (Fin.ofNat 2048 n) h) (n + 1)).trans rfl

theorem machines_recomputeBinding (s : State) (b : Option RequestBinding) : MachinesKept s (s.recomputeBinding b) :=
  (EngineFrame.recomputeBinding s b).machinesKept

theorem machines_repolarize (s : State) (b : Option FieldBinding) : MachinesKept s (s.repolarize b) := by
  cases b with
  | none => exact .refl s
  | some b =>
    unfold State.repolarize
    dsimp only
    split
    · exact .refl s
    · exact ⟨fun _ => rfl⟩

theorem machines_followRequests (s : State) (old new : ZoneRecord) : MachinesKept s (s.followRequests old new) := by
  unfold State.followRequests
  split
  · exact (machines_recomputeBinding ..).trans (machines_recomputeBinding ..)
  · exact .refl s

theorem machines_layZone (s : State) (z : ZoneId) (new : ZoneRecord) : MachinesKept s (s.layZone z new) := by
  have written : MachinesKept s (s.setZone z new) := ⟨fun _ => rfl⟩
  have laid : MachinesKept s (s.laidBindings z new) :=
    ((written.trans (machines_repolarize ..)).trans (machines_repolarize ..)).trans (machines_followRequests ..)
  rw [layZone_eq]
  generalize s.laidBindings z new = t at laid ⊢
  split
  · exact laid.trans ⟨fun _ => rfl⟩
  · exact laid

theorem machines_applyZone (s : State) (z : ZoneId) (new : ZoneRecord) : MachinesKept s (s.applyZone z new) :=
  (machines_layZone s z new).trans (applyZone_frame s z new).machinesKept

/-- A Write Zone is refused with BUSY_ITEM or a failed check (R14). -/
theorem tableWrite_zoneRefusal {z : ZoneId} {new : ZoneRecord} {a : Answer} (refusal : s.zoneRefusal z new = some a) :
    TableWrite slot s (s, a) := by
  unfold State.zoneRefusal at refusal
  dsimp only at refusal
  split at refusal
  · cases refusal
  split at refusal
  · split at refusal
    · cases refusal
      exact .busy
    · obtain ⟨r, -, rfl⟩ := Option.map_eq_some_iff.1 refusal
      exact .check _
  · split at refusal
    · cases refusal
      exact .busy
    · cases refusal

theorem tableWrite_writeZone (w : ZoneWrite) : TableWrite slot s (writeZone slot w s) := by
  unfold writeZone
  split
  · exact .bad
  split
  · exact .bad
  split
  · next refusal => exact tableWrite_zoneRefusal refusal
  split
  · exact .check _
  · next ignored _ _ _ _ _ =>
    exact .applied (by cases ignored <;> decide) (machines_applyZone ..)

theorem tableWrite_setConflictPair (a b : Byte) : TableWrite slot s (setConflictPair slot a b s) := by
  unfold setConflictPair
  split
  · split
    · exact .bad
    split
    · exact .ok (.refl _)
    split
    · exact .refused (by decide)
    split
    · exact .busy
    · exact .ok (machines_noted fun x => by cases x <;> rfl)
  · exact .bad

theorem tableWrite_clearConflictPair (a b : Byte) : TableWrite slot s (clearConflictPair slot a b s) := by
  unfold clearConflictPair
  split
  · next x y _ _ =>
    have noted : MachinesKept (s.noteTableWrite slot) ((s.removePair x y).noteTableWrite slot) :=
      machines_noted fun x => by cases x <;> rfl
    generalize (s.removePair x y).noteTableWrite slot = t at noted ⊢
    split
    · exact .bad
    split
    · exact .ok (.refl _)
    · exact .ok (noted.trans ((EngineFrame.wakeZone ..).trans (.wakeZone ..)).machinesKept)
  · exact .bad

theorem tableWrite_writeCorridor (c d q : Byte) : TableWrite slot s (writeCorridor slot c d q s) := by
  unfold writeCorridor
  split
  · split
    · exact .bad
    split
    · exact .busy
    split
    · exact .check _
    · exact .ok (machines_noted fun x => by cases x <;> rfl)
  · exact .bad

theorem tableWrite_writeRoute (w : RouteWrite) : TableWrite slot s (writeRoute slot w s) := by
  unfold writeRoute
  split
  · exact .bad
  split
  · exact .bad
  split
  · exact .busy
  split
  · exact .check _
  · exact .ok (machines_noted fun x => by cases x <;> rfl)

theorem tableWrite_writeHops (start : Half) (hops : List (Byte × Byte)) : TableWrite slot s (writeHops slot start hops s) := by
  unfold writeHops
  dsimp only
  split
  · exact .bad
  split
  · exact .bad
  split
  · exact .busy
  split
  · exact .check _
  · exact .ok (machines_noted (mgmt_writeHopsAt _ _))

/-- A table command that its slot machine takes answers what its table write comes to. -/
theorem exec_tableWrite {i : Instr} (own : i.slotOf = some slot) (writes : i.writesTable = true) (ready : s.ready slot) :
    ∃ code u a, TableWrite slot s (u, a) ∧ exec i s = .next (u.answered slot code a.status a.results) := by
  have taken {code : Byte} {rule : State → State × Answer} (write : TableWrite slot s (rule s)) :
      ∃ code' u a, TableWrite slot s (u, a) ∧ (Host.Outcome.next (takeCommand slot code s (changing rule)) :
        Host.Outcome State Fault Refusal) = .next (u.answered slot code' a.status a.results) :=
    ⟨code, _, _, write, taken_next ready rfl⟩
  cases i <;> cases own
  case writeZone => exact taken (tableWrite_writeZone _)
  case setConflictPair => exact taken (tableWrite_setConflictPair _ _)
  case clearConflictPair => exact taken (tableWrite_clearConflictPair _ _)
  case writeCorridor => exact taken (tableWrite_writeCorridor _ _ _)
  case writeRoute => exact taken (tableWrite_writeRoute _)
  case writeHops => exact taken (tableWrite_writeHops _ _)
  all_goals cases writes

end

/-! ## The statement -/

section
variable {slot : MgmtSlot} {s : State}

theorem otherMachine_answered (u : State) (code : Byte) (x : Status) (results : List Byte) :
    (u.answered slot code x results).machine (otherSlot slot) = u.machine (otherSlot slot) := machine_setMachine_other ..

/-- The status that a machine ANSWERING gives out is the answer's. -/
theorem status_of_answered {u : State} {code c status : Byte} {x : Status} {results r : List Byte}
    (answering : (u.answered slot code x results).machine slot = .answering (c :: status :: r) 0) : status = x.code := by
  unfold State.answered at answering
  rw [machine_setMachine] at answering
  cases answering
  rfl

/-- An answer leaves the layout tables. -/
theorem tables_answered (s : State) (code : Byte) (x : Status) (results : List Byte) :
    (s.answered slot code x results).zones = s.zones ∧ (s.answered slot code x results).corridors = s.corridors ∧
    (∀ r, (s.answered slot code x results).route r = s.route r) ∧ (s.answered slot code x results).hops = s.hops := by
  cases slot <;> exact ⟨rfl, rfl, fun _ => rfl, rfl⟩

end

/-- Settles O23: a command that writes no table leaves the other slot machine; a table write refused changes nothing, and one
applied is noted there. -/
theorem tableWritesAreNotedByTheOtherSlot : Obligations.TableWritesAreNotedByTheOtherSlot := by
  intro i slot job n written s t own noReset ready running run
  cases writes : i.writesTable with
  | false =>
    have kept : t.machine (otherSlot slot) = .executing job n written := (otherMachine_of_noTable own noReset writes run).trans running
    exact ⟨fun _ => kept, nofun, fun _ _ _ _ => ⟨fun _ => kept, nofun⟩⟩
  | true =>
    obtain ⟨code, u, a, write, taken⟩ := exec_tableWrite own writes ready
    obtain rfl : u.answered slot code a.status a.results = t := Host.Outcome.next.inj (taken.symm.trans run)
    rw [otherMachine_answered]
    cases write with
    | refused refusal =>
      obtain ⟨zones, corridors, routes, hops⟩ := tables_answered (slot := slot) s code a.status a.results
      refine ⟨nofun, fun _ changed => ?_, fun c status results answering => ⟨fun _ => running, fun _ low => ?_⟩⟩
      · rcases changed with changed | changed | ⟨r, changed⟩ | changed
        · exact absurd zones changed
        · exact absurd corridors changed
        · exact absurd (by rw [routes]) changed
        · exact absurd hops changed
      · rw [status_of_answered answering] at low
        omega
    | applied done noted =>
      have seen : u.machine (otherSlot slot) = .executing job n true := (noted.machine _).trans (machine_noteTableWrite running)
      refine ⟨nofun, fun _ _ => seen, fun c status results answering => ⟨fun high => ?_, fun _ _ => seen⟩⟩
      rw [status_of_answered answering] at high
      omega

end Sys2Proof.Machine
end
